-- ==== Sys2Proof/Word.lean ====
section
/-!
DEFINITION. The plain data types that the whole model is written over: bytes, words, and the two kinds of
finite map that stand for sparse storage. No meaning stands here.
-/
namespace Sys2Proof

/-- One byte (R3). -/
abbrev Byte := BitVec 8
/-- A 32-bit register value (R79). -/
abbrev Word := BitVec 32
/-- A 64-bit value: a pair, a k register, a PC (R68, R79, R113). -/
abbrev Dword := BitVec 64
/-- One bit for each of the 32 lanes of a stroke, bit L for lane L (R6). -/
abbrev Mask := BitVec 32
/-- A 9-bit operand code (R79). -/
abbrev Code := BitVec 9
/-- A finite map from numbers: keys strictly rising. -/
abbrev Map (α : Type) := List (Nat × α)

end Sys2Proof
end

