-- ==== Sys2Proof/Config.lean ====
section
/-!
DEFINITION. What the device fixes (R1 and the limits the rules state) and the free values: constants without a body,
so that nothing about them can be proved and every claim holds whatever they are.
-/
namespace Sys2Proof.Config

/-- Cores in a cluster, clusters in a device (R1). -/
def coresPerCluster : Nat := 192
def clusters : Nat := 8
/-- Group slots on a core (R94). -/
def slotsPerCore : Nat := 8
/-- Bytes of a core's U scratchpad and of a C slice (R1). -/
def uBytes : Nat := 393216
def sliceBytes : Nat := 262144
/-- Bytes of the C slices of one cluster: 192 slices (R1). -/
def clusterBytes : Nat := 50331648
/-- Bytes of the D scratchpads of the device and of G memory (R1). -/
def dBytes : Nat := 402653184
def gBytes : Nat := 824633720832
/-- AMEM banks of a core; register rows, stroke places and active places of a nib (R1, R10, R94, R96). -/
def amemBanks : Nat := 64
def rowsPerNib : Nat := 1536
def strokesPerNib : Nat := 24
def activePlaces : Nat := 8
/-- Entries of a launch queue in SRAM, of a hold list and of a cluster scheduler (R26, R27, R38). -/
def queueSram : Nat := 256
def holdPlaces : Nat := 64
def rangePlaces : Nat := 16
/-- Entries of a core's range-lock table (R202). -/
def lockEntries : Nat := 32
/-- Sessions at once (R312). -/
def sessions : Nat := 16
/-- What an address that nothing has written reads as; DESIGN CHOICE, log 4. -/
def emptyByte : Byte := 0

/-- FREE VALUE: whether the n-th pick of a nib takes the donor quads that it may take (R104); log 24. -/
opaque mergesQuads : Nat → Bool
/-- FREE VALUE: the n-th bit of the hardware entropy source (R297); log 10. -/
opaque entropyBit : Nat → Bool
/-- FREE VALUE: the byte that a read under a destroyed or replaced key returns, for the n-th such read (R214); log 9. -/
opaque garbledByte : Nat → Byte
/-- FREE VALUE: whether the n-th access uses the old of two translations that differ (R212); log 8. -/
opaque oldTranslation : Nat → Bool
/-- FREE VALUE: whether the n-th block of an MMS is read from an operand-cache entry that differs from U (R292); log 12. -/
opaque oldOperand : Nat → Bool
/-- FREE VALUE: which entry of a full operand cache the n-th fill takes the place of (R292); log 12. -/
opaque evicted : Nat → Nat
/-- FREE VALUE: the place of element (i, j) within its block, in a tile stored as row-major 32 × 32 blocks: the spec gives the order of
the blocks, not that of the elements in one (R19); log 18. -/
opaque blockElem : (rows cols i j : Nat) → Nat
/-- FREE VALUE: how many more flits to one device than 32 the hub's send queue takes before a PST waits for credit: the spec gives no
number (R352); log 27. -/
opaque sendCredit : Nat
/-- FREE VALUE: which of several gateways serves a final destination, and the SECDED codes HECC and PECC of a flit, whose matrices the
spec does not give (R51, R67); log 29. -/
opaque gatewayOf : Nat → Nat
opaque hecc : BitVec 76 → BitVec 8
opaque pecc : List Byte → Word → BitVec 12
/-- FREE VALUE: the place, counted in groups of four bits, of the 2:4 indices of group g of row i in the index metadata, whose
order the spec does not give (R19); log 18. -/
opaque metaPlace : (rows cols i g : Nat) → Nat
/-- FREE VALUE: what the n-th read of a stream port's register in a lane that popped nothing gives (R236); log 14. -/
opaque portWord : Nat → Word
/-- FREE VALUE: the tag that a fault block's entry shows for an operand record that could not be read (R44), and the record
address that a conversion task, whose record lies in no memory, finds in its registers (R8, R42); log 19. -/
opaque unreadTag : Nat → BitVec 12
opaque recordAddress : Nat → BitVec 64
/-- FREE VALUE: the bytes of SHAKE256 over a message, and of an Ed448 signature made by the device (R402, R405); the
standards stand outside the spec; log 11. -/
opaque shake256 : List Byte → List Byte
opaque ed448Sign : List Byte → List Byte
/-- FREE VALUE: whether an Ed448 signature over a message verifies under a public key (R402); log 11. -/
opaque ed448Verify : (key message signature : List Byte) → Bool
/-- FREE VALUE: the vendor digest, the minimum VERSION and the boot ROM's measurement, fused at manufacture (R402, R404). -/
opaque vendorDigest : List Byte
opaque minVersion : Nat
opaque romDigest : List Byte
/-- FREE VALUE: byte i of what the n-th write of a save area puts there, whose layout the spec does not give (R380); log 23. -/
opaque saveByte : (n i : Nat) → Byte
/-- FREE VALUE: the versions in the measurement log's entries for the ROM and the fence record, and the bytes of the record in
flash, whose form the spec does not give (R397, R404); log 11. -/
opaque romVersion : Nat
opaque fenceVersion : Nat
opaque fenceRecord : List Nat → List Byte

end Sys2Proof.Config
end

