-- ==== Sys2Proof/Syntax.lean ====
section
/-!
DEFINITION. The syntax of the Chroura Ulurrito: the fields of an encoded instruction (R72 to R76, R85), the data that
the device's events carry, and Instr, with one constructor for each row of spec/opcode_table.json: the 146
instructions of R86, the 16 compact forms of R87 and the 91 events.
-/
namespace Sys2Proof

/-- What follows the first two words: nothing (G64), the literal IMM32 (L96) or the extension X (W128) (R72, R76). -/
inductive Ext where
  | none
  | lit (w : Word)
  | wide (x : Dword)
  deriving DecidableEq, Repr

/-- The fields of a G64, L96 or W128 instruction, with the manual's own names (R73). -/
structure Fields where
  g    : Bool
  n    : Bool
  pred : BitVec 4
  la   : BitVec 4
  d    : Code
  a    : Code
  b    : Code
  c    : Code
  t    : BitVec 5
  m    : BitVec 3
  ext  : Ext
  deriving DecidableEq, Repr

/-- The fields of a Branch-class instruction: bits [63:29] are one offset (R73, R182). -/
structure BranchFields where
  g    : Bool
  n    : Bool
  pred : BitVec 4
  la   : BitVec 4
  d    : Code
  off  : BitVec 35
  deriving DecidableEq, Repr

/-- The three byte fields of a C32 instruction (R74). -/
structure CompactFields where
  d : Byte
  a : Byte
  b : Byte
  deriving DecidableEq, Repr

/-- The state that an event acts for: a stroke or a scribe context, by its key in the state. -/
inductive AgentId where
  | stroke (k : Nat)
  | ctx (k : Nat)
  deriving DecidableEq, Repr

/-- A write to a register field that has no row of its own (R4, R28, R191). Values that only Nirael firmware sets are
its settings of R35, R36, R39, R46, R61, R196, R201, R256, R345, R350 and R362. -/
inductive RegWrite where
  | port (fw : Bool) (part off : Nat) (data : List Byte)   -- launch port of the function, or firmware's; not covering 0x07F (R28)
  | readOnly (part off : Nat) (data : List Byte)      -- any RO block of BAR0: ignored (R4)
  | nbvVer (part v : Nat)
  | cvto (part v : Nat)
  | mtab (part : Nat) (v : Dword)
  | mtabSz (part : Nat) (v : Word)
  | convArena (part : Nat) (v : Dword)
  | dispFault (part : Nat) (v : Dword)
  | trapBase (part : Nat) (v : Dword)
  | weight (part v : Nat)
  | vnWeight (part v : Nat)
  | engineWeight (part v : Nat)
  | clusterMask (part v : Nat)
  | cWindow (part cluster : Nat) (slices : List Nat)
  | peer (part dev : Nat) (target : Option Nat)
  | stealRing (part : Nat) (ring : List Nat)
  | holdTimeout (part ns : Nat)
  | spill (part cls entries : Nat)
  | thermal (tHot hyst : Nat)
  | dMax (n : Nat)
  | route (dev : Nat) (port : Option Nat)
  | telemetryArea (part : Nat) (pa : Nat)
  | deviceNumber (n : Nat)
  | movePage (part ipa newPa : Nat)                   -- firmware moves a page of the partition (R397)
  | losePage (part ipa : Nat)                         -- firmware takes away a page that it cannot read (R397)
  | expose (part : Nat) (ranges : List (Nat × Nat))   -- addresses of G shown to the host, first and one past the last (R362)
  | saveArea (part core pa : Nat)
  deriving DecidableEq, Repr

/-- What Nirael firmware fixes when it creates a partition (R35, R36, R196, R207, R312, R395). owner is the public key of its owner; cells
are the physical G bytes that firmware writes with it, the stage-2 tables and the image the host gave it, under key slot key (R214). -/
structure PartCfg where
  part     : Nat
  weight   : Nat
  mask     : Nat
  cwin     : List (Nat × List Nat)
  peers    : Map Nat
  s1root   : Nat
  s2root   : Nat
  trapBase : Dword
  owner    : List Byte
  key      : Nat
  cells    : List (Nat × Byte)
  deriving DecidableEq, Repr

/-- A grant record of 128 bytes with its owners' signatures, and the partitions that firmware is to bind as parties 0, 1 and 2 (R312). -/
structure Grant where
  record     : List Byte
  signatures : List (List Byte)
  parties    : List Nat
  deriving DecidableEq, Repr

/-- One pool of a session: its kind, whether it lies in D, its first virtual address and its record count (R312, R318). -/
structure Pool where
  kind  : Nat
  inD   : Bool
  addr  : Dword
  count : Nat
  deriving DecidableEq, Repr

/-- What an Inkline flit carries (R346): nothing, if it is idle; a peer store, a signal, a copy beat (of names the copy if that one writes
the whole of the line, R393; tile is one of a collective's result, named by the record of its chunk), collective control, or an acknowledgement,
of a signal by its word or of what has a transport number. -/
inductive FlitBody where
  | store (va : Nat) (data : List Byte)
  | signal (va : Nat) (addend : Dword) (stamp : BitVec 16)
  | beat (va : Nat) (data : List Byte) (of : Option Nat := none)
  | tile (va off : Nat) (data : List Byte)
  | control (va : Nat) (data : List Byte)
  | ack (signal : Option Nat) (late : Bool)
  | idle
  deriving DecidableEq, Repr

/-- An Inkline flit of the transport (R346, R348). part is the sender's partition, to_ the partition of the target that the
sender's peer table maps (R350, log 17); poison says that its line comes with poison (R347, R392). -/
structure Flit where
  src  : Nat
  dst  : Nat
  part : Nat
  to_  : Nat
  tseq : Word
  body : FlitBody
  poison : Bool := false
  deriving DecidableEq, Repr

/-- How a flit of another device came in (R346, R347): the port, the LSEQ and LACK of its header, whether its FCRC verifies after FEC, the
symbols that FEC corrected, and whether its line fails a check at the hand-over to this device. -/
structure Came where
  port      : Nat
  lseq      : BitVec 16
  lack      : BitVec 16
  fcrc      : Bool := true
  corrected : Nat := 0
  spoiled   : Bool := false
  deriving DecidableEq, Repr

/-- A flit that arrives: by a port, or from this device or the hub. -/
structure Arrival where
  flit : Flit
  by_  : Option Came := none
  deriving DecidableEq, Repr

/-- An acknowledgement of a flit (R348), whether its copy beat landed too late for the fold (R259), and how it came in. -/
structure Ack where
  flit : Flit
  late : Bool := false
  by_  : Option Came := none
  deriving DecidableEq, Repr

/-- A launch port (R28): that of a partition's function, or firmware's for the partition on the physical one. -/
structure PortName where
  fw   : Bool := false
  part : Nat
  deriving DecidableEq, Repr

/-- A result tile: its bytes, and whether it comes with poison (R358, R392). -/
structure ResultTile where
  bytes  : List Byte
  poison : Bool := false
  deriving DecidableEq, Repr

/-- A unit that firmware may fence (R396). -/
inductive FenceUnit where
  | core (k : Nat)
  | cluster (c : Nat)
  | channel (n : Nat)
  | port (n : Nat)
  deriving DecidableEq, Repr

/-- What poison is held for (R391, R393): a line, a register row of a stroke, or the 128 bytes of an AMEM bank that hold a word. -/
inductive LineId where
  | u (core line : Nat)
  | c (cluster line : Nat)
  | d (line : Nat)
  | g (line : Nat)
  | row (stroke reg : Nat)
  | amem (core bank word : Nat)
  deriving DecidableEq, Repr

/-- An agent of a cluster's mesh (R48, R49): a core, a slice, a copy engine, the cluster scheduler, a gateway to a base die, one to the
other cluster of the die, or a die-to-die bridge. -/
inductive MeshAgent where
  | core (k : Nat)
  | slice (k : Nat)
  | engine (e : Nat)
  | scheduler
  | gateway (g : Nat)
  | clusterGate (i : Nat)
  | bridge (i : Nat)
  deriving DecidableEq, Repr

/-- The final destination of a packet (R67): an agent of a cluster, a base die by its channel, or a hub die. -/
inductive MeshDest where
  | agent (cluster : Nat) (a : MeshAgent)
  | base (die channel : Nat)
  | hub (die : Nat)
  deriving DecidableEq, Repr

/-- What a packet carries (R56), class by class: REQ, DATA, RSP, CTRL. -/
inductive MeshMsg where
  | readRequest
  | atomicRequest
  | wideRequest
  | copyCommand
  | recordFetch
  | writeData
  | readReturn
  | copyBeat
  | completion
  | acknowledgement
  | stealRequest
  | stealReply
  | gateWords
  | gateResult
  | notification
  deriving DecidableEq, Repr

/-- What the sending agent serves (R55): a group, a copy, a launch, or, where it answers or carries for others, a partition. -/
inductive Serves where
  | group (g : Nat)
  | copy (id : Nat)
  | launch (id : Nat)
  | part (p : Nat)
  deriving DecidableEq, Repr

/-- What an agent sends over the cluster mesh (R50, R55, R56). source is a line whose bytes and mark it reads (R66); without one, data are the
bytes. line is where the receiver writes a payload, of G under a key slot. spoiled says that the source's codes fail (R66). -/
structure Packet where
  serves  : Serves
  src     : MeshAgent
  dst     : MeshDest
  msg     : MeshMsg
  txn     : BitVec 37
  source  : Option LineId
  data    : List Byte
  line    : Option LineId
  key     : Nat
  spoiled : Bool
  deriving DecidableEq, Repr

/-- What the checks of a router find in a flit (R65); silent is an error of a payload byte that its codes do not show. -/
inductive FlitCheck where
  | clean
  | corrected
  | badHeader
  | badPayload
  | silent (at_ : Nat) (flip : Byte)
  deriving DecidableEq, Repr

/-- An access of the host, or of firmware for it, to memory (R362, R317, R375). va writes through the partition's two
stages of translation, bad says that the host link's codes failed for the line (R391); phys is firmware's own store to physical memory
(tables it keeps, R207), of G under a key slot; hostMem is the host's own memory, the H space. code is what the codes of a domain, or a
hand-over between two, find in a partition's line (R391, R392): an error that they correct, or one that they cannot. hostMark is what they find in a
line of host memory on its way (R391); iommu says whether the host's IOMMU refuses a 4 KiB page of its memory (R362). -/
inductive HostAccess where
  | gWrite (part : Nat) (va : Nat) (data : List Byte) (bad : Bool)
  | gRead (part : Nat) (va n : Nat)
  | share (part : Nat) (va : Nat) (data : List Byte) (bad : Bool)
  | hostMem (pa : Nat) (data : List Byte)
  | phys (inD : Bool) (pa key : Nat) (data : List Byte)
  | cwin (part cluster off : Nat) (data : List Byte) (bad : Bool)
  | code (part : Nat) (line : LineId) (corrected : Bool)
  | hostMark (line : Nat) (bad : Bool)
  | iommu (page : Nat) (refuse : Bool)
  deriving DecidableEq, Repr

/-- A firmware image in module flash (R402): its VERSION, its bytes, and the vendor key and signature that come with it. -/
structure Image where
  version   : Nat
  body      : List Byte
  key       : List Byte
  signature : List Byte
  deriving DecidableEq, Repr

/-- The steps of the machine: one constructor per row of the opcode table, each with the rule that governs it. -/
inductive Instr where
  | add (f : Fields)  -- ADD, R145
  | addC32 (f : CompactFields)  -- ADD_C32, R87
  | addImmC32 (f : CompactFields)  -- ADD_IMM_C32, R87
  | sub (f : Fields)  -- SUB, R145
  | subC32 (f : CompactFields)  -- SUB_C32, R87
  | mul (f : Fields)  -- MUL, R145
  | mulh (f : Fields)  -- MULH, R145
  | mad (f : Fields)  -- MAD, R146
  | min (f : Fields)  -- MIN, R145
  | max (f : Fields)  -- MAX, R145
  | abs (f : Fields)  -- ABS, R147
  | neg (f : Fields)  -- NEG, R147
  | and (f : Fields)  -- AND, R148
  | andC32 (f : CompactFields)  -- AND_C32, R87
  | or (f : Fields)  -- OR, R148
  | orC32 (f : CompactFields)  -- OR_C32, R87
  | xor (f : Fields)  -- XOR, R148
  | xorC32 (f : CompactFields)  -- XOR_C32, R87
  | andn (f : Fields)  -- ANDN, R148
  | not (f : Fields)  -- NOT, R148
  | shl (f : Fields)  -- SHL, R149
  | shlC32 (f : CompactFields)  -- SHL_C32, R87
  | shr (f : Fields)  -- SHR, R149
  | shrC32 (f : CompactFields)  -- SHR_C32, R87
  | sha (f : Fields)  -- SHA, R149
  | rot (f : Fields)  -- ROT, R149
  | bfe (f : Fields)  -- BFE, R150
  | bfi (f : Fields)  -- BFI, R150
  | popc (f : Fields)  -- POPC, R151
  | clz (f : Fields)  -- CLZ, R151
  | brev (f : Fields)  -- BREV, R151
  | sel (f : Fields)  -- SEL, R152
  | cmp (f : Fields)  -- CMP, R153
  | mov (f : Fields)  -- MOV, R154
  | movC32 (f : CompactFields)  -- MOV_C32, R87
  | lea (f : Fields)  -- LEA, R155
  | div (f : Fields)  -- DIV, R156
  | rem (f : Fields)  -- REM, R156
  | dot4 (f : Fields)  -- DOT4, R157
  | prmt (f : Fields)  -- PRMT, R158
  | fadd (f : Fields)  -- FADD, R159
  | faddC32 (f : CompactFields)  -- FADD_C32, R87
  | fsub (f : Fields)  -- FSUB, R159
  | fmul (f : Fields)  -- FMUL, R159
  | fmulC32 (f : CompactFields)  -- FMUL_C32, R87
  | ffma (f : Fields)  -- FFMA, R159
  | fmin (f : Fields)  -- FMIN, R159
  | fmax (f : Fields)  -- FMAX, R159
  | fabs (f : Fields)  -- FABS, R160
  | fneg (f : Fields)  -- FNEG, R160
  | fcmp (f : Fields)  -- FCMP, R161
  | fclass (f : Fields)  -- FCLASS, R162
  | frcp (f : Fields)  -- FRCP, R163
  | frsq (f : Fields)  -- FRSQ, R163
  | fsqrt (f : Fields)  -- FSQRT, R163
  | fexp2 (f : Fields)  -- FEXP2, R163
  | flog2 (f : Fields)  -- FLOG2, R163
  | fsin (f : Fields)  -- FSIN, R163
  | fcos (f : Fields)  -- FCOS, R163
  | ftanh (f : Fields)  -- FTANH, R163
  | fscl (f : Fields)  -- FSCL, R164
  | cvt (f : Fields)  -- CVT, R166
  | pack2 (f : Fields)  -- PACK2, R167
  | qnt4 (f : Fields)  -- QNT4, R168
  | dqn4 (f : Fields)  -- DQN4, R169
  | spcmp (f : Fields)  -- SPCMP, R170
  | spexp (f : Fields)  -- SPEXP, R171
  | fdot2 (f : Fields)  -- FDOT2, R165
  | vsw (f : Fields)  -- VSW, R172
  | plop (f : Fields)  -- PLOP, R174
  | pmov (f : Fields)  -- PMOV, R175
  | vote (f : Fields)  -- VOTE, R176
  | shfl (f : Fields)  -- SHFL, R177
  | qxch (f : Fields)  -- QXCH, R178
  | red (f : Fields)  -- RED, R179
  | redx (f : Fields)  -- REDX, R180
  | scan (f : Fields)  -- SCAN, R181
  | bra (f : BranchFields)  -- BRA, R182
  | braC32 (off : BitVec 24)  -- BRA_C32, R87
  | brm (f : Fields)  -- BRM, R183
  | jmpi (f : Fields)  -- JMPI, R184
  | call (f : BranchFields)  -- CALL, R182
  | calli (f : Fields)  -- CALLI, R184
  | ret (f : Fields)  -- RET, R185
  | retC32 (f : CompactFields)  -- RET_C32, R87
  | exit (f : Fields)  -- EXIT, R186
  | exitC32 (f : CompactFields)  -- EXIT_C32, R87
  | fuse (f : Fields)  -- FUSE, R187
  | fuseC32 (f : CompactFields)  -- FUSE_C32, R87
  | nop (f : Fields)  -- NOP, R188
  | nopC32 (f : CompactFields)  -- NOP_C32, R87
  | bar (f : Fields)  -- BAR, R240
  | btake (f : Fields)  -- BTAKE, R108
  | bgive (f : Fields)  -- BGIVE, R108
  | cue (f : Fields)  -- CUE, R242
  | waitm (f : Fields)  -- WAITM, R243
  | yield (f : Fields)  -- YIELD, R188
  | ld (f : Fields)  -- LD, R222
  | st (f : Fields)  -- ST, R223
  | ldt (f : Fields)  -- LDT, R231
  | stt (f : Fields)  -- STT, R232
  | atom (f : Fields)  -- ATOM, R225
  | cas (f : Fields)  -- CAS, R226
  | fxadd (f : Fields)  -- FXADD, R228
  | fxrd (f : Fields)  -- FXRD, R228
  | fxclr (f : Fields)  -- FXCLR, R228
  | fence (f : Fields)  -- FENCE, R229
  | pset (f : Fields)  -- PSET, R234
  | parm (f : Fields)  -- PARM, R234
  | ptest (f : Fields)  -- PTEST, R234
  | sclose (f : Fields)  -- SCLOSE, R238
  | fwait (f : Fields)  -- FWAIT, R245
  | ftst (f : Fields)  -- FTST, R245
  | fpass (f : Fields)  -- FPASS, R246
  | ftake (f : Fields)  -- FTAKE, R246
  | fcan (f : Fields)  -- FCAN, R247
  | cpy (f : Fields)  -- CPY, R262
  | cpyt (f : Fields)  -- CPYT, R264
  | cpyr (f : Fields)  -- CPYR, R263
  | cpym (f : Fields)  -- CPYM, R265
  | ccan (f : Fields)  -- CCAN, R267
  | wcue (f : Fields)  -- WCUE, R268
  | mmr (f : Fields)  -- MMR, R282
  | mms (f : Fields)  -- MMS, R291
  | aalloc (f : Fields)  -- AALLOC, R285
  | afree (f : Fields)  -- AFREE, R288
  | agrant (f : Fields)  -- AGRANT, R289
  | ald (f : Fields)  -- ALD, R290
  | ast (f : Fields)  -- AST, R290
  | azero (f : Fields)  -- AZERO, R288
  | cvset (f : Fields)  -- CVSET, R274
  | cvrst (f : Fields)  -- CVRST, R275
  | sminit (f : Fields)  -- SMINIT, R307
  | rqs (f : Fields)  -- RQS, R307
  | rhh (f : Fields)  -- RHH, R307
  | rdc (f : Fields)  -- RDC, R307
  | smrg (f : Fields)  -- SMRG, R307
  | sqnt (f : Fields)  -- SQNT, R307
  | sest (f : Fields)  -- SEST, R307
  | shhq (f : Fields)  -- SHHQ, R307
  | sadd (f : Fields)  -- SADD, R326
  | ssub (f : Fields)  -- SSUB, R326
  | smulk (f : Fields)  -- SMULK, R326
  | smask (f : Fields)  -- SMASK, R327
  | sxch (f : Fields)  -- SXCH, R328
  | sfin (f : Fields)  -- SFIN, R329
  | strn (f : Fields)  -- STRN, R330
  | sxor (f : Fields)  -- SXOR, R326
  | sdab (f : Fields)  -- SDAB, R331
  | srev (f : Fields)  -- SREV, R332
  | pst (f : Fields)  -- PST, R352
  | psig (f : Fields)  -- PSIG, R353
  | pwait (f : Fields)  -- PWAIT, R354
  | spawn (f : Fields)  -- SPAWN, R248
  | launch (f : Fields)  -- LAUNCH, R249
  | tagget (f : Fields)  -- TAGGET, R250
  | tagset (f : Fields)  -- TAGSET, R251
  | trap (f : Fields)  -- TRAP, R192
  | rte (f : Fields)  -- RTE, R372
  | csrr (f : Fields)  -- CSRR, R190
  | csrw (f : Fields)  -- CSRW, R191
  | bkpt (f : Fields)  -- BKPT, R192
  | packetClose (port : PortName) (off : Nat) (data : List Byte)  -- PACKET_CLOSE, R28
  | registerWrite (w : RegWrite)  -- REGISTER_WRITE, R4
  | launchCheck (part cls : Nat)  -- LAUNCH_CHECK, R15
  | waitCounterPoll (part : Nat)  -- WAIT_COUNTER_POLL, R32
  | timedStart (id : Nat)  -- TIMED_START, R33
  | rangeHandout (part cls : Nat)  -- RANGE_HANDOUT, R36
  | corPlacement (part cls : Nat)  -- COR_PLACEMENT, R37
  | groupPlacement (cluster : Nat)  -- GROUP_PLACEMENT, R38
  | sensorSample (cluster : Nat) (temps : List (Nat × Option Nat))  -- SENSOR_SAMPLE, R39
  | droopWindowEnd (cluster : Nat)  -- DROOP_WINDOW_END, R39
  | nomethodRetry (id : Nat)  -- NOMETHOD_RETRY, R45
  | stealRequest (cluster part : Nat)  -- STEAL_REQUEST, R46
  | stealReply (cluster : Nat)  -- STEAL_REPLY, R47
  | stealAck (cluster : Nat)  -- STEAL_ACK, R47
  | packetInjection (cluster : Nat) (p : Packet)  -- PACKET_INJECTION, R53
  | stride (cluster flit : Nat) (check : FlitCheck)  -- STRIDE, R60
  | relayLeg (cluster flit : Nat) (check : FlitCheck)  -- RELAY_LEG, R54
  | gatewayForward (cluster flit : Nat)  -- GATEWAY_FORWARD, R67
  | icacheFill (core line : Nat)  -- ICACHE_FILL, R69
  | issueSlot (core nib : Nat)  -- ISSUE_SLOT, R96
  | activeSetEntry (core nib : Nat)  -- ACTIVE_SET_ENTRY, R98
  | longLatencyComplete (stroke id : Nat)  -- LONG_LATENCY_COMPLETE, R78
  | storeDrain (agent : AgentId)  -- STORE_DRAIN, R223
  | scribeIssue (core : Nat)  -- SCRIBE_ISSUE, R253
  | walkComplete (part core : Nat) (va : Dword)  -- WALK_COMPLETE, R212
  | tlbInvalidate (part : Nat)  -- TLB_INVALIDATE, R212
  | copyStart (id : Nat)  -- COPY_START, R260
  | copyBeat (id : Nat)  -- COPY_BEAT, R256
  | copyComplete (id : Nat)  -- COPY_COMPLETE, R258
  | remoteWriteArrival (id : Nat)  -- REMOTE_WRITE_ARRIVAL, R201
  | armingNotification (core line : Nat)  -- ARMING_NOTIFICATION, R201
  | holdTimeout (id : Nat)  -- HOLD_TIMEOUT, R201
  | waitmPoll (stroke : Nat)  -- WAITM_POLL, R243
  | pwaitPoll (stroke : Nat)  -- PWAIT_POLL, R354
  | summaryComplete (stroke : Nat)  -- SUMMARY_COMPLETE, R306
  | smaskComplete (stroke : Nat)  -- SMASK_COMPLETE, R327
  | mmrFire (group cv : Nat)  -- MMR_FIRE, R277
  | mmrComplete (id : Nat)  -- MMR_COMPLETE, R283
  | cvTimeout (group cv : Nat)  -- CV_TIMEOUT, R278
  | mmsStep (id : Nat)  -- MMS_STEP, R293
  | gateWords (id : Nat)  -- GATE_WORDS, R320
  | gateTimeout (session round : Nat)  -- GATE_TIMEOUT, R321
  | sessionCreate (num : Nat) (grant : Grant) (pools : List (List Pool))  -- SESSION_CREATE, R312
  | sessionEnd (num : Nat)  -- SESSION_END, R314
  | sessionExpiry (num : Nat)  -- SESSION_EXPIRY, R314
  | linkReplay (port : Nat) (lseq : BitVec 16)  -- LINK_REPLAY, R347
  | portDown (port : Nat)  -- PORT_DOWN, R348
  | routeTimeout (dev : Nat)  -- ROUTE_TIMEOUT, R348
  | peerStoreArrival (f : Arrival)  -- PEER_STORE_ARRIVAL, R350
  | signalSend (id : Nat)  -- SIGNAL_SEND, R353
  | signalArrival (f : Arrival)  -- SIGNAL_ARRIVAL, R353
  | peerAck (f : Ack)  -- PEER_ACK, R348
  | timeSample (remote : Dword) (held : Bool)  -- TIME_SAMPLE, R349
  | chunkFire (launch chunk : Nat)  -- CHUNK_FIRE, R357
  | chunkFold (launch chunk : Nat)  -- CHUNK_FOLD, R358
  | chunkTimeout (launch chunk : Nat)  -- CHUNK_TIMEOUT, R360
  | memberTimeout (launch chunk : Nat)  -- MEMBER_TIMEOUT, R360
  | chunkResultLand (launch chunk : Nat) (code : Byte) (missing : Nat) (skew : Bool) (data : ResultTile)  -- CHUNK_RESULT_LAND, R358
  | trapDelivery (agent : AgentId)  -- TRAP_DELIVERY, R371
  | faultResume (token : Nat)  -- FAULT_RESUME, R375
  | faultKill (token : Nat)  -- FAULT_KILL, R375
  | killStroke (stroke : Nat)  -- KILL_STROKE, R374
  | killContext (ctx : Nat)  -- KILL_CONTEXT, R374
  | killLaunch (id : Nat)  -- KILL_LAUNCH, R374
  | killPartition (part : Nat)  -- KILL_PARTITION, R374
  | cowResolve (token newPa : Nat)  -- COW_RESOLVE, R387
  | pagePull (token : Nat) (pulled : Option (Nat × List Byte))  -- PAGE_PULL, R377
  | partitionReset (part : Nat)  -- PARTITION_RESET, R377
  | sliceEnd (part : Nat) (cores : List Nat)  -- SLICE_END, R378
  | saveRestart (part : Nat)  -- SAVE_RESTART, R382
  | partitionRestore (part : Nat) (cores : List Nat)  -- PARTITION_RESTORE, R381
  | launchRetire (id : Nat)  -- LAUNCH_RETIRE, R389
  | successorEnqueue (id : Nat)  -- SUCCESSOR_ENQUEUE, R18
  | unitFence (u : FenceUnit)  -- UNIT_FENCE, R397
  | telemetryPeriodEnd  -- TELEMETRY_PERIOD_END, R400
  | boot  -- BOOT, R402
  | recoveryImageWrite (slot : Nat) (image : Image)  -- RECOVERY_IMAGE_WRITE, R403
  | recoveryReset  -- RECOVERY_RESET, R403
  | componentStart (version : Nat) (digest : List Byte)  -- COMPONENT_START, R404
  | attestationReport (part : Option Nat) (nonce : List Byte)  -- ATTESTATION_REPORT, R405
  | keyLoad (keyid : Nat)  -- KEY_LOAD, R406
  | keyDestroy (keyid : Nat)  -- KEY_DESTROY, R406
  | powerSample (watts : Nat)  -- POWER_SAMPLE, R407
  | thermalTrip (core : Nat)  -- THERMAL_TRIP, R407
  | pwrcapWrite (v : BitVec 16)  -- PWRCAP_WRITE, R408
  | managementReset  -- MANAGEMENT_RESET, R409
  | partitionCreate (cfg : PartCfg)  -- PARTITION_CREATE, R395
  | modulePowerDown  -- MODULE_POWER_DOWN, R402
  | hostMemoryAccess (acc : HostAccess)  -- HOST_MEMORY_ACCESS, R362
  | droopEvent (core : Nat)  -- DROOP_EVENT, R39
  | poisonScrub (line : LineId)  -- POISON_SCRUB, R393
  deriving DecidableEq, Repr

end Sys2Proof
end

