-- ==== Sys2Proof/Machine/State.lean ====
section
/-!
DEFINITION. The state of the machine as plain data: strokes, groups, scribe contexts, cores, memories, copies,
launches, partitions, the share gate, the mesh, Inkline, collectives and the device's own registers; the reasons a
step can stop; and the state at power-up.
-/
namespace Sys2Proof.Machine

/-- Memory: address and byte, addresses strictly rising, no entry equal to what an unlisted address reads as (log 4). -/
abbrev Memory := List Host.Cell

/-- A future (R244). A pending one names its operation by a number. -/
inductive Fut where
  | empty
  | pending (op : Nat)
  | done (w : Word)
  deriving DecidableEq, Repr

/-- The pool kind and triple index in the row field of a v register (R315). -/
structure RowField where
  kind  : Nat
  index : Nat
  deriving DecidableEq, Repr

/-- The registers of a stroke (R6, R8, R315, R376). v, tag, poison and e are keyed by 32 × register + lane; p by
predicate, one bit a lane. Unlisted entries are 0, public, unmarked, empty. -/
structure Regs where
  v      : Map Word := []
  tag    : Map (BitVec 2) := []
  rows   : Map RowField := []
  poison : Map Bool := []
  s      : Map Word := []
  spois  : Map Bool := []
  p      : Map Mask := []
  e      : Map Word := []
  f      : Map Fut := []
  deriving DecidableEq, Repr

/-- Where a lane waits on its own for others (R95, R107, R240). What it waits for in operations in flight follows from its next
instruction and is not held here (Issue.lean). -/
inductive Wait where
  | none
  | fuse (pc : Dword) (mask : Mask)
  | bar (b phase : Nat)
  | barEarly (b : Nat) (arv : Bool)
  deriving DecidableEq, Repr

/-- A thread (R91) with the flags of its lane: live (R93), helper (R7), eos (R80), and its sticky bits of CR.FPM, NV
in bit 0 to MALF in bit 6 (R117). full names the oldest of the 8 operations in flight that it had when it issued last, for which its
next long-latency instruction waits (R78). -/
structure Lane where
  pc      : Dword := 0
  ret     : List Dword := []
  spilled : Nat := 0
  wait    : Wait := .none
  aging   : Nat := 0
  full    : Option Nat := none
  live    : Bool := true
  helper  : Bool := false
  eos     : Bool := false
  sticky  : BitVec 7 := 0
  deriving DecidableEq, Repr

/-- The physical home of a byte (R336): U bytes of all cores in one range, core by core; C bytes cluster by cluster. -/
inductive Home where
  | u | c | d | g | h
  deriving DecidableEq, Repr

/-- A place in a home; key is the stage-2 KEYID for KIND G (R214). -/
structure Loc where
  home : Home
  addr : Nat
  key  : Nat := 0
  deriving DecidableEq, Repr

/-- The atomic operations of R225. -/
inductive AtomOp where
  | add | min | max | and | or | xor | exch
  deriving DecidableEq, Repr

/-- A register that an instruction in flight holds (R78, R279). -/
inductive RegName where
  | v (i : Nat) | s (i : Nat) | p (i : Nat) | e (i : Nat) | k (i : Nat) | f (i : Nat)
  deriving DecidableEq, Repr

/-- A register value that a long-latency instruction will write (R78). -/
structure WriteBack where
  reg    : RegName
  lane   : Nat
  val    : Dword
  tag    : BitVec 2 := 0
  poison : Bool := false
  deriving DecidableEq, Repr

/-- A long-latency instruction in flight (R78), or an SREV that holds its destination (R332: counts = false). la is its
lookahead, count the instructions each of its lanes has issued since, waitFor the results still to come; engine marks an
MMR, SXCH or SREV, which a trap does not wait for (R367); since is the cycle of issue of a load that is sampled (R399); acq
marks an atomic that orders the accesses after it (R220); void are registers that path B of the same cycle wrote after it (R101). -/
structure InFlight where
  id      : Nat
  lanes   : Mask
  counts  : Bool
  la      : Nat
  count   : Map Nat := []
  held    : List (RegName × Mask) := []
  result  : List WriteBack := []
  waitFor : Nat := 0
  engine  : Bool := false
  since   : Option Nat := none
  acq     : Bool := false
  void    : List RegName := []
  deriving DecidableEq, Repr

/-- An entry of a store FIFO (R223, R227, R232, R352). op_id and lane name the operation in flight and the lane that receive an
old value, dst the destination's first register. remote is what one PST writes to one line of another core, each piece with its address
in the U home; it stays at the head of its FIFO, sent under a number, until it has landed or been dropped (R201). -/
inductive FifoEntry where
  | store (l : Loc) (data : List Byte)
  | atom (l : Loc) (w : Nat) (signed : Bool) (op : AtomOp) (x : Dword) (op_id lane dst : Nat) (toS : Bool)
  | cas (l : Loc) (w : Nat) (expect new : Dword) (op_id lane dst : Nat) (toS : Bool)
  | fxadd (l : Loc) (addend : Word) (op_id : Nat)
  | fxclr (l : Loc)
  | retag (l : Loc) (tag : Option (BitVec 16))
  | remote (core : Nat) (pieces : List (Nat × List Byte)) (part : Nat) (sent : Option Nat)
  | asyncDone (op : Nat)
  deriving DecidableEq, Repr

/-- A trap that has been taken and not yet delivered (R367, R379). -/
structure Trap where
  cause : Nat
  code  : Nat
  addr  : Dword
  mask  : Mask
  path  : Mask
  async : Bool
  deriving DecidableEq, Repr

/-- The hidden shadow of a lane in handler mode (R371). -/
structure Shadow where
  pc     : Dword
  wait   : Wait
  onPath : Bool
  deriving DecidableEq, Repr

/-- The conditions of WAITM and CMP (R153, R243). -/
inductive Cond where
  | eq | ne | lt | le | gt | ge
  deriving DecidableEq, Repr

/-- What the whole stroke is parked on (R95). mask and len are the lanes and the length of a parked instruction that
completes without issuing again; seq is the order in which an operation came to its ring (R235). -/
inductive Park where
  | presence (core : Nat) (lines : List Nat)
  | waitm (l : Loc) (w : Nat) (signed : Bool) (c : Cond) (x : Dword) (mask : Mask) (len : Nat)
  | pwait (l : Loc) (x : Dword) (mask : Mask) (len : Nat)
  | future (f : Nat)
  | slotFull (slot : Nat)
  | slotEmpty (slot : Nat)
  | pop (port m seq : Nat)
  | push (port m seq : Nat)
  | queue (need : List (Nat × Nat))
  | baton (mask : Mask) (len : Nat)
  | locked
  | cue
  | fence (sy : Bool)
  | closing (port : Nat)
  deriving DecidableEq, Repr

/-- A fault record sent for a system-tier fault (R375); copy, launch and flit are the copy, the launch and the
peer write that it holds, if any. -/
structure FaultRec where
  token  : Nat
  part   : Nat
  va     : Nat
  cause  : Nat
  access : Nat
  core   : Nat
  agent  : Option AgentId
  copy   : Option Nat
  launch : Option Nat := none
  flit   : Option Flit := none
  deriving DecidableEq, Repr

/-- The units whose instructions keep their stroke from being picked until they complete (R306, R327). -/
inductive SlowUnit where
  | summary | smask
  deriving DecidableEq, Repr

/-- The records that SPAWN or LAUNCH read at its issue and will enqueue when its queues have room (R29, R248): the PC and the lanes that
issued it, and each record's address, bytes and whether it came with poison. -/
structure Kept where
  pc   : Dword
  act  : Mask
  recs : List (Nat × List Byte × Bool)
  deriving DecidableEq, Repr

/-- A stroke (R91 to R95, R117, R368, R369). fuses gives, by the PC of a FUSE, for each lane the lanes that have reached it since that
lane last went on past it (R107, R187). entered is the cycle of its last entry into the active set (R96); yielded says that it stands
ready in the pending FIFO whatever its lanes' state (R97). owes names the exchange rounds, by session, kind and index, to which it owes words (R321). busy holds the results of an SMASK or summary instruction
until its completion event delivers them (R306, R327). -/
structure Stroke where
  group    : Nat
  index    : Nat
  regs     : Regs := {}
  lanes    : List Lane := []
  fifo     : List FifoEntry := []
  inflight : List InFlight := []
  park     : Option Park := none
  rm       : BitVec 3 := 0
  ftz      : Bool := false
  amemBit  : Bool := false
  cause    : Word := 0
  addr     : Dword := 0
  mask     : Mask := 0
  handler  : Bool := false
  shadows  : List Shadow := []
  fuses    : Map (List Mask) := []
  trap     : Option Trap := none
  async    : List Trap := []
  fault    : Option Nat := none
  busy     : List (SlowUnit × List WriteBack) := []
  kept     : List Kept := []
  owes     : List (Nat × Nat × Nat) := []
  lastPick : Nat := 0
  entered  : Nat := 0
  yielded  : Bool := false
  killed   : Bool := false
  retired  : Bool := false
  deriving DecidableEq, Repr

/-- A scribe context (R253, R254): pending names the copy or MMS whose status each pending k register awaits. -/
structure ScribeCtx where
  k        : Map Dword := []
  kpois    : Map Bool := []
  pending  : Map Nat := []
  p        : Map Bool := []
  pc       : Dword := 0
  ret      : List Dword := []
  fifo     : List FifoEntry := []
  barWait  : Option (Nat × Nat) := none
  cueWait  : Option (Nat × Nat) := none
  lockWait : Bool := false
  parkLine : Option (Nat × Nat) := none
  trap     : Option Trap := none
  fault    : Option Nat := none
  lastIssue : Nat := 0
  exited   : Bool := false
  killed   : Bool := false
  deriving DecidableEq, Repr

/-- A barrier of a group (R240): its phase number and who has arrived in it. -/
structure Bar where
  phase   : Nat := 0
  arrived : Map Mask := []
  ctx     : Bool := false
  deriving DecidableEq, Repr

/-- The signature of one lane in a round (R276): its operands as they stood, and the registers it read-locks (R279). -/
structure Sig where
  q    : Nat
  lane : Nat
  pc   : Dword
  aReg : Nat
  aN   : Nat
  bReg : Nat
  bN   : Nat
  a    : List Word
  b    : List Word
  deriving DecidableEq, Repr

/-- A fragment latch (R280): the types it was latched under, and each stroke's fragment by 32 × q + lane. -/
structure Latch where
  ta   : Nat
  tb   : Nat
  frag : Map (List Word)
  deriving DecidableEq, Repr

/-- A round that collects signatures (R273, R276, R278). started is the cycle of its first signature. -/
structure Round where
  ta      : Nat
  tb      : Nat
  bank    : Nat
  zero    : Bool
  rua     : Bool
  rub     : Bool
  started : Nat
  sigs    : List Sig
  futs    : List (Nat × Nat)
  deriving DecidableEq, Repr

/-- A convergence register (R273): the declared quartet and its strokes, the round, the latches. -/
structure Cv where
  decl   : Option (Nat × BitVec 4) := none
  round  : Option Round := none
  latchA : Option Latch := none
  latchB : Option Latch := none
  deriving DecidableEq, Repr

/-- A fired round (R277): the operands it read, until both banks hold its result. -/
structure Fired where
  id    : Nat
  group : Nat
  quart : Nat
  ta    : Nat
  tb    : Nat
  bank  : Nat
  zero  : Bool
  nbv   : Nat
  a     : Map (List Word)
  b     : Map (List Word)
  futs  : List (Nat × Nat)
  deriving DecidableEq, Repr

/-- The partition-scope registers as a group was placed under them (R191). sess, CR.SESS, and joined, the sessions that it shows, each by its number and its
serial, are filled for a group alone; of a partition they follow from the sessions. -/
structure PartCr where
  nbvVer    : Nat := 2
  cvto      : Nat := 0x100000
  mtab      : Dword := 0
  mtabSz    : Word := 0
  convArena : Dword := 0
  dispFault : Dword := 0
  trapBase  : Dword := 0
  sess      : Nat := 0
  joined    : List (Nat × Nat) := []
  deriving DecidableEq, Repr

/-- The extents of a launch (R7): grid and group. -/
structure Dims where
  gx : Nat := 1
  gy : Nat := 1
  gz : Nat := 1
  tx : Nat := 1
  ty : Nat := 1
  tz : Nat := 1
  deriving DecidableEq, Repr

/-- A placed group (R6, R94, R273, R284). banks are the core's bank numbers reserved for it, in its own numbering;
alloc has one bit for each that is allocated; grants pairs a bank number of the group with a slot; scrub says that its core's
share is written to zero once it has gone (R374, R381). -/
structure Group where
  part    : Nat
  launch  : Nat
  cls     : Nat := 0
  gx      : Nat := 0
  gy      : Nat := 0
  gz      : Nat := 0
  dims    : Dims := {}
  strokes : Nat := 1
  nregs   : Nat := 32
  units   : Nat := 0
  ubase   : Nat := 0
  stack   : Nat := 0
  banks   : List Nat := []
  alloc   : Nat := 0
  grants  : List (Nat × Nat) := []
  header  : Dword := 0
  streams : List Dword := []
  nomerge : Bool := false
  nbv     : Nat := 2
  firing  : Nat := 0
  cr      : PartCr := {}
  coin    : Word := 0
  bars    : Map Bar := []
  cues    : Map Word := []
  futs    : Map Fut := []
  cvs     : Map Cv := []
  damaged : Bool := false
  retired : Bool := false
  scrub   : Bool := false
  deriving DecidableEq, Repr

/-- Kinds of range lock (R202). -/
inductive LockKind where
  | source | dest | record
  deriving DecidableEq, Repr

/-- The space and the first and one-past-last byte that a lock covers: physical U bytes, partition C offsets of a
cluster, virtual addresses of D, G and H (R203). owner is the number of the copy or MMS; more are further ranges of the same entry, of a CPYM
the destinations after its first (R202). -/
structure Lock where
  home  : Home
  part  : Nat
  lo    : Nat
  hi    : Nat
  kind  : LockKind
  owner : Nat
  slot  : Nat
  more  : List (Nat × Nat) := []
  deriving DecidableEq, Repr

/-- An entry of the operand cache (R292): one block of an operand over chunk number chunk of len elements of k, with the element codes it held, two bytes
each, then the scales, by row of A or column of B, and which of these came with poison. -/
structure OpEntry where
  group : Nat
  recOff : Nat
  gen   : Nat
  isA   : Bool
  blk   : Nat
  chunk : Nat
  len   : Nat
  data  : List (List Byte)
  bad   : List Bool
  deriving DecidableEq, Repr

/-- A cached translation (R212): both stages combined, for one page of a partition. -/
structure TlbEntry where
  part  : Nat
  va    : Nat
  size  : Nat
  pa    : Nat
  kind  : Nat
  key   : Nat
  share : Bool
  cow   : Bool
  s1    : BitVec 3
  s2    : BitVec 3
  deriving DecidableEq, Repr

/-- A core (R94, R96, R108, R202, R292). active and pending hold stroke keys, one list a nib, oldest entry first;
picked is one more than the cycle of each nib's last pick and of the scribe's; waits is, for each nib, the first ready stroke of the
pending FIFO with the cycle since when it waits for a place; sfu is, for each nib, the cycle in which its special-function unit
last took an instruction, and its active lanes (R96, R98, R102, R253); fedStep says that the array took a step last, not a round (R293). -/
structure Core where
  locks    : List Lock := []
  opcache  : List OpEntry := []
  icache   : List Nat := []
  tlb      : List TlbEntry := []
  baton    : Option Nat := none
  request  : BitVec 8 := 0
  rotation : Nat := 0
  active   : List (List Nat) := [[], [], [], []]
  pending  : List (List Nat) := [[], [], [], []]
  picked   : List Nat := [0, 0, 0, 0, 0]
  waits    : List (Option (Nat × Nat)) := [none, none, none, none]
  sfu      : List (Nat × Nat) := [(0, 0), (0, 0), (0, 0), (0, 0)]
  fedStep  : Bool := false
  temp     : Option Nat := none
  hot      : Bool := false
  droopy   : Bool := false
  droops   : Nat := 0
  fenced   : Bool := false
  deriving DecidableEq, Repr

/-- The memories, flat (R195, R336). clear lists the U lines whose presence bit is 0 (R200); the poison maps are keyed
by line (R393), amem by bank × 1024 + word with banks of all cores in one range, keyTag gives the key slot and its
load number that each written G line is stored under (R214). -/
structure MemSys where
  u      : Memory := []
  c      : Memory := []
  d      : Memory := []
  g      : Memory := []
  h      : Memory := []
  clear  : Map Bool := []
  poisU  : Map Bool := []
  poisC  : Map Bool := []
  poisD  : Map Bool := []
  poisG  : Map Bool := []
  poisH  : Map Bool := []
  amem   : Map Word := []
  poisA  : Map Bool := []
  keyTag : Map (Nat × Nat) := []
  deriving DecidableEq, Repr

/-- A destination of a CPYM (R265). -/
structure McastDest where
  addr    : Nat
  dev     : Nat
  code    : Nat := 0
  landed  : Nat := 0
  stopped : Bool := false
  deriving DecidableEq, Repr

/-- What a copy does with its bytes (R262 to R265); fire is the copy of a chunk to its slot at its home, made by the engine of a
cluster (R357). -/
inductive CopyKind where
  | plain
  | reduce (op : Nat)
  | tile (rnd : Nat) (sat : Bool)
  | mcast (ink : Bool) (n : Nat)
  | fire (launch chunk dev cluster : Nat)
  deriving DecidableEq, Repr

/-- A copy in its engine (R254 to R267). For tile copies srcRec and dstRec are the records fetched at the start; told says that the copy
of a chunk has announced itself at its home; dirty names the lines, by destination, that it has written with poison (R393). -/
structure Copy where
  id       : Nat
  group    : Nat
  part     : Nat
  kind     : CopyKind
  kS       : Nat
  dSpace   : Nat
  sSpace   : Nat
  dBase    : Dword
  sBase    : Dword
  len      : Nat
  lenBad   : Bool
  ent      : Bool
  started  : Bool := false
  beat     : Nat := 0
  bytes    : Nat := 0
  fault    : Bool := false
  cancel   : Bool := false
  poisoned : Bool := false
  stalled  : Option Nat := none
  srcRec   : List Byte := []
  dstRec   : List Byte := []
  dests    : List McastDest := []
  spoiled  : Bool := false
  dirty    : List (Nat × Nat) := []
  told     : Bool := false
  deriving DecidableEq, Repr

/-- A copy engine's arbitration (R256): one more than the cycle of its last beat slot, the slots of that cycle in use; by
partition, the slots used of the round's weight, the slots gone by without one for a context with a ready beat, and the copy served
last. -/
structure Engine where
  cycle : Nat := 0
  slots : Nat := 0
  used  : Map Nat := []
  waits : Map Nat := []
  last  : Map Nat := []
  deriving DecidableEq, Repr

/-- An issued MMS (R291, R293). -/
structure Mms where
  id      : Nat
  group   : Nat
  kS      : Nat
  bank    : Nat
  zero    : Bool
  aRec    : Nat
  bRec    : Nat
  recA    : List Byte := []
  recB    : List Byte := []
  started : Bool := false
  fault   : Bool := false
  step    : Nat := 0
  poison  : Bool := false
  banks   : List Nat := []
  deriving DecidableEq, Repr

/-- A remote write to a line of a core (R201): a CPYM beat (copy, destination), or what a PST of a stroke writes to the line, with the
address of its first byte in the U home; more are the further pieces of a PST, in lane order. refused is the time at which it was refused,
refused ones standing in that order; spoiled says that its data came with poison. -/
structure RemoteWrite where
  id      : Nat
  part    : Nat
  core    : Nat
  addr    : Nat
  data    : List Byte
  more    : List (Nat × List Byte) := []
  copy    : Option (Nat × Nat)
  refused : Option Nat := none
  spoiled : Bool := false
  sender  : Option AgentId := none
  deriving DecidableEq, Repr

/-- Words of a ring that a push of a stroke has reserved (R237): ring is its control line, reached by port of group; from word
number start on, vals written when they come. op is the operation in flight that brings them. -/
structure Resv where
  ring  : Loc
  group : Nat
  stroke : Nat
  port  : Nat
  start : Nat
  m     : Nat
  vals  : List Word
  ready : Bool
  op    : Nat
  deriving DecidableEq, Repr

/-- The parsed kernel header of a checked launch (R11): the addresses at which its thread program starts and, where it has one, its scribe
program. -/
structure Kernel where
  nbv     : Nat := 0
  regs8   : Nat := 0
  thread  : Dword := 0
  scribe  : Option Dword := none
  streams : List Dword := []
  stack   : Nat := 0
  nomerge : Bool := false
  deriving DecidableEq, Repr

/-- A collective descriptor with the launch's chunk map and tile records (R13, R355, R356). -/
structure Coll where
  op        : Nat
  rank      : Nat
  nmem      : Nat
  timeout   : Nat
  slot      : Nat
  stage     : Nat
  cstat     : Nat
  slotBytes : Nat
  cid       : Nat
  devs      : List Nat
  shift     : Nat
  chunks    : Nat
  tiles     : List (List Byte)
  deriving DecidableEq, Repr

/-- Where a launch is on its way (R27, R31, R389): checked waits for a place in the hold list, held for its counter,
eligible to be handed out; ending has its final code and signalled its status written; waiting has decremented its
successor, which waits for its queue. -/
inductive Phase where
  | queued | checked | held | eligible | placing | resident | ending | signalled | waiting
  deriving DecidableEq, Repr

/-- A launch or task (R13, R16, R30). next is the first linear group number not yet handed out; placed, gone and good
count its groups placed, retired and retired whole; slots are its conversion arena slots (R43); ended are the addresses
of its reads and writes whose stage-2 faults firmware has ended; blocked is the successor that waits for its queue; left
names the groups of a collective launch that have retired, each with its cluster; killed says that firmware has killed the launch as a whole (R374). -/
structure Launch where
  id       : Nat
  part     : Nat
  cls      : Nat
  isTask   : Bool
  packet   : List Byte
  record   : List Byte := []
  recAddr  : Dword := 0
  method   : Option (List Byte) := none
  phase    : Phase := .queued
  nomethod : Option Nat := none
  status   : Dword := 0
  waitAddr : Dword := 0
  waitVal  : Nat := 0
  tstart   : Nat := 0
  timed    : Bool := false
  cor      : Bool := false
  succ     : Dword := 0
  header   : Dword := 0
  kern     : Kernel := {}
  dims     : Dims := {}
  arg      : Dword := 0
  nregs    : Nat := 32
  units    : Nat := 0
  banks    : Nat := 0
  nbvVer   : Nat := 2
  coll     : Option Coll := none
  coords   : List Nat := []
  next     : Nat := 0
  placed   : Nat := 0
  gone     : Nat := 0
  good     : Nat := 0
  conv     : Bool := false
  late     : Bool := false
  skew     : Bool := false
  succErr  : Bool := false
  failed   : Bool := false
  killed   : Bool := false
  slots    : List Nat := []
  cluster  : Nat := 0
  firstNs  : Option Nat := none
  op       : Option Nat := none
  poisoned : Bool := false
  ended    : List Nat := []
  code     : Nat := 0
  blocked  : Option Nat := none
  left     : List (Nat × Nat) := []
  deriving DecidableEq, Repr

/-- A range of groups held by a cluster scheduler (R36, R38). -/
structure Range where
  launch : Nat
  first  : Nat
  count  : Nat
  deriving DecidableEq, Repr

/-- A steal request of a cluster, and what the victim sent (R46, R47). -/
structure Steal where
  part   : Nat
  victim : Nat
  reply  : Option (List Range) := none
  deriving DecidableEq, Repr

/-- A cluster scheduler (R38, R46). tried counts, for each partition, the clusters of its ring that were asked in vain. -/
structure Sched where
  ranges  : List Range := []
  steal   : Option Steal := none
  tried   : Map Nat := []
  transit : List Range := []
  firings : Map Nat := []
  deriving DecidableEq, Repr

/-- Where a mesh flit stands (R54, R57, R58): waiting for injection, in an input buffer (by direction 0 N, 1 E, 2 S, 3 W; its slot
reserved or shared), in a relay slot, or in an ejection queue. -/
inductive Place where
  | inject
  | buffer (input : Nat) (reserved : Bool)
  | relay
  | eject
  deriving DecidableEq, Repr

/-- A flit on the mesh with its sideband (R51; phase is PH) and payload. packet and origin, its cluster, stand for what the agents keep in
TXN; moved is the cycle of its last stride; losses counts, by port, its losses in a row there (R61). -/
structure MeshFlit where
  id     : Nat
  vn     : Nat
  cls    : Nat
  ocls   : Nat
  src    : Nat × Nat
  dst    : Nat × Nat
  fin    : Nat × Nat
  rly    : Bool
  phase  : Nat
  ltgt   : BitVec 2
  psn    : Bool
  lcrc   : Word
  data   : List Byte
  packet : Packet
  origin : Nat
  at_    : Nat × Nat
  place  : Place
  moved  : Option Nat := none
  losses : Map Nat := []
  deriving DecidableEq, Repr

/-- A packet that an agent has sent or taken and whose answer is due (R59): the agent, the network, the classes in which the answer may come, the
transaction. -/
structure MeshDue where
  agent : MeshAgent
  vn    : Nat
  cls   : List Nat
  txn   : BitVec 37
  deriving DecidableEq, Repr

/-- A cluster's mesh (R48 to R67): its flits in the order in which each came to where it stands. Kept by output port and
network (R61): vnWait the grants gone by without one for the network, vnUsed its grants in the present round, clsTurn the class
granted last. granted are the ports that have granted a claim in the cycle now. asked are the requests whose answer is due, owed the CTRL
requests taken whose reply is (R59), hub the flits that bridges have carried to the hub dies. -/
structure Mesh where
  flits   : List MeshFlit := []
  vnWait  : Map Nat := []
  vnUsed  : Map Nat := []
  clsTurn : Map Nat := []
  now     : Nat := 0
  granted : List Nat := []
  asked   : List MeshDue := []
  owed    : List MeshDue := []
  hub     : List MeshFlit := []
  deriving DecidableEq, Repr

/-- The save areas of a partition (R380): by core, STATE and the faulting IPA; and what was saved of its cores, with the copies and
the MMS that stand still until the restore. stopped names the cores whose restore a fault stopped (R382). -/
structure SaveArea where
  status  : Map Nat := []
  ipa     : Map Nat := []
  stopped : List Nat := []
  copies  : List Copy := []
  mms     : List Mms := []
  cores   : Map Core := []
  groups  : Map Group := []
  ctxs    : Map ScribeCtx := []
  strokes : Map Stroke := []
  u       : Memory := []
  clear   : Map Bool := []
  poisU   : Map Bool := []
  amem    : Map Word := []
  poisA   : Map Bool := []
  deriving DecidableEq, Repr

/-- A launch port (R28): the packet buffer, the class of the last closing write, and the closing writes discarded. -/
structure LaunchPort where
  buffer  : List Byte := []
  lastCls : Nat := 0
  rejects : Nat := 0
  deriving DecidableEq, Repr

/-- A partition (R26, R35, R189, R380, R384, R395). ready holds, by class, the launches released from the hold list; arena
the slots in use, blocks the wait blocks in it with the slots they free and the future of the task that they hold (R42, R43). port is the
launch port of its function, fwPort that of firmware for it (R28). counters are the nine of R395 in order
of offset; out are the cores on which it does not run though it runs on others (R378, R384); exposed the ranges of addresses that its function shows to
the host, first and one past the last (R362); records the fault records sent to its function (R375); owner is the public key of the partition's owner (R312). -/
structure Partition where
  weight    : Nat := 1
  served    : Nat := 0
  mask      : Nat := 0
  cwin      : Map (List Nat) := []
  peers     : Map Nat := []
  ring      : List Nat := []
  hold_ns   : Nat := 1000000
  s1root    : Nat := 0
  s2root    : Nat := 0
  queues    : List (List Nat) := [[], [], [], []]
  ready     : List (List Nat) := [[], [], [], []]
  spill     : List Nat := [0, 0, 0, 0]
  hold      : List Nat := []
  port      : LaunchPort := {}
  fwPort    : LaunchPort := {}
  cr        : PartCr := {}
  arena     : List Nat := []
  blocks    : Map (List Nat × Option Nat) := []
  failed    : Bool := false
  scheduled : Bool := true
  out       : List Nat := []
  exposed   : List (Nat × Nat) := []
  records   : List (List Byte) := []
  since     : Nat := 0
  stolen    : Nat := 0
  created   : Nat := 0
  counters  : List Nat := [0, 0, 0, 0, 0, 0, 0, 0, 0]
  save      : SaveArea := {}
  saveAreas : Map Nat := []
  telemetry : Nat := 0
  faults    : List FaultRec := []
  errors    : List (Nat × Nat) := []
  vnWeight  : Nat := 1
  engWeight : Nat := 1
  owner     : List Byte := []
  deriving DecidableEq, Repr

/-- Words that a party has sent to the gate (R320, R328, R332), or the round's result for them. -/
structure GateMsg where
  id      : Nat
  session : Nat
  party   : Nat
  part    : Nat
  rev     : Bool
  kind    : Nat
  index   : Nat
  xor     : Bool
  mask    : Mask
  w0      : List Word
  w1      : List Word
  stroke  : Nat
  flight  : Nat
  reg     : Nat
  op      : Nat
  deriving DecidableEq, Repr

/-- An open or decided round (R320): outcome is none while open, then the result word of each party. -/
structure GateRound where
  id      : Nat
  session : Nat
  rev     : Bool
  kind    : Nat
  index   : Nat
  opened  : Nat
  msgs    : List GateMsg
  deriving DecidableEq, Repr

/-- A round's result on its way to one party (R320, R323): the result word, and the combined words if it completed. -/
structure GateResult where
  msg  : GateMsg
  word : Word
  w0   : List Word
  w1   : List Word
  give : Bool
  deriving DecidableEq, Repr

/-- A session (R312, R319, R332). next and last1 are keyed by 4 × party + kind; last1 is LAST + 1; serial tells it from an earlier one of its
number. -/
structure Session where
  parties  : List Nat
  recv     : Byte
  budget   : Nat
  revealed : Nat := 0
  timeout  : Nat
  expiry   : Nat
  pools    : List (List Pool)
  next     : Map Nat := []
  last1    : Map Nat := []
  seq      : Map Nat := []
  dead     : List Nat := []
  serial   : Nat := 0
  deriving DecidableEq, Repr

/-- The share gate (R319 to R323). inbox holds words on their way to it, forfeit the exchange rounds that a stroke which owed them words can
serve no more, as it was killed (R321). -/
structure Gate where
  sessions : Map Session := []
  inbox    : List GateMsg := []
  rounds   : List GateRound := []
  results  : List GateResult := []
  forfeit  : List (Nat × Nat × Nat) := []
  nonces   : List Dword := []
  deriving DecidableEq, Repr

/-- An Inkline port (R345 to R348): lseq is its next link sequence number, got the highest it has received in order, its LACK; refused
the number that it has negatively acknowledged; waiting are flits for which its retry buffer has no place; fails counts replays in a row,
corrected the symbols that FEC corrected. -/
structure Port where
  up        : Bool := true
  lseq      : BitVec 16 := 0
  got       : BitVec 16 := 0xFFFF
  refused   : Option (BitVec 16) := none
  retry     : List (BitVec 16 × Flit) := []
  waiting   : List Flit := []
  fails     : Nat := 0
  corrected : Nat := 0
  deriving DecidableEq, Repr

/-- A signal of PSIG on its way (R353): behind are the stores that its stroke had under way to the device when it issued. -/
structure Signal where
  id     : Nat
  part   : Nat
  dev    : Nat
  to_    : Nat
  va     : Nat
  addend : Dword
  stamp  : BitVec 16
  behind : List Flit := []
  sent   : Bool := false
  deriving DecidableEq, Repr

/-- Inkline (R345 to R353). tx and rx are transport numbers by 8 × device + partition; out the flits not acknowledged, sentBy the
strokes that sent the stores among them; inbox what has come from other devices and waits to be applied, acks what this device has
acknowledged to itself, and whether as late; applied the stamps a target still holds; copyOf the copy and the destination of a copy beat; early the contributions that came before
the chunk's own launch, with partition, slot address and contents; held the results of other homes whose own chunk here has not fired
(R358); missed, by partition and record address, the results that a member has given up (R360); late the flits, by source, partition and number, that
were acknowledged as late (R360); halves, by source, copy and address of the line, the lines of which a copy that writes all of it has written a part, and
whether without poison (R393). -/
structure Link where
  dev     : Nat := 0
  ports   : List Port := List.replicate 16 {}
  routes  : Map Nat := []
  noRoute : Map Nat := []
  tx      : Map Word := []
  rx      : Map Word := []
  out     : List Flit := []
  sentBy  : List (Flit × AgentId) := []
  inbox   : List Flit := []
  acks    : List (Flit × Bool) := []
  signals : List Signal := []
  stamps  : List (Nat × Nat × Nat × Nat) := []
  applied : List (Nat × Nat × Nat × Nat) := []
  copyOf  : List (Flit × Nat × Nat) := []
  early   : List (Nat × Nat × List Byte) := []
  held    : List Flit := []
  missed  : List (Nat × Nat) := []
  late    : List (Nat × Nat × Word) := []
  halves  : List (Nat × Nat × Nat × Bool) := []
  deriving DecidableEq, Repr

/-- A chunk of a collective launch on this device (R357 to R360). filled holds, at the home, each filled slot's rank, the
bytes of its data and the device time of that member's first group (R34); image and missing are the fold's result until it has landed in
the home's own tile, bad that it comes with poison; result is the code once the chunk's record is written; unacked counts multicast flits;
copied is the status of the firing copy once it is complete (R259). -/
structure Chunk where
  launch  : Nat
  chunk   : Nat
  fired   : Bool := false
  firedAt : Nat := 0
  filled  : List (Nat × Nat × Nat) := []
  firstAt : Nat := 0
  folded  : Bool := false
  image   : List Byte := []
  missing : Nat := 0
  late    : Nat := 0
  result  : Nat := 0
  unacked : Nat := 0
  bad     : Bool := false
  copied  : Option Nat := none
  deriving DecidableEq, Repr

/-- How far the device has come up (R402, R403). -/
inductive BootStage where
  | off | running | recovery
  deriving DecidableEq, Repr

/-- What the hub and firmware keep for the device (R39, R396 to R408). keys gives each loaded key slot its load
number; machineChecks names the clusters whose routers raised one (R65); fencing are the units whose fence is under way (R397); notices the SAVE_FAULT and,
if true, RESTORE_FAULT reports to the hypervisor firmware, with partition, core and IPA (R382); refused the host pages that the host's IOMMU refuses (R362). -/
structure Sys where
  stage     : BootStage := .off
  flash     : Map Image := []
  fences    : List FenceUnit := []
  log       : List (List Byte) := []
  digest    : List Byte := []
  keys      : Map Nat := []
  keyLoads  : Nat := 0
  pwrCap    : Nat := 4000
  pwrNow    : Nat := 0
  throt     : Bool := false
  tHot      : Nat := 95
  hyst      : Nat := 4
  dMax      : Nat := 8
  telem     : Map (List Byte) := []
  loads     : Map Nat := []
  period    : Nat := 0
  timeLost  : Bool := false
  reports   : List (List Byte) := []
  machineChecks : List Nat := []
  fencing   : List FenceUnit := []
  notices   : List (Bool × Nat × Nat × Nat) := []
  refused   : List Nat := []
  deriving DecidableEq, Repr

/-- What an instruction reads of its stroke and its group as they stood before the cycle (R101); veil holds the bytes of the record that
path A has written in the cycle, as they were. -/
structure Before where
  st   : Stroke
  veil : List FifoEntry := []
  coin : Word := 0
  cr   : PartCr := {}
  deriving DecidableEq, Repr

/-- What path A leaves to path B: what stood before the cycle, the number since which operations are of this cycle, the unit and
the reads of each register bank that it took (R101, R102), and whether its instruction parked the stroke. -/
structure Second where
  was    : Before
  since  : Nat
  unit   : Nat := 0
  reads  : List Nat := [0, 0, 0, 0]
  parked : Bool := false
  deriving DecidableEq, Repr

/-- Who issues next in the present cycle (R100, R101, R104): path A of a stroke with path B behind it, path B, the quads of a donor
stroke, or a scribe context; donors are the quads still to issue, by stroke. MODEL, log 1. -/
inductive Turn where
  | none
  | pathA (stroke : Nat) (a b : Mask) (donors : List (Nat × Mask))
  | pathB (stroke : Nat) (b : Mask) (left : Second) (donors : List (Nat × Mask))
  | donor (stroke : Nat) (m : Mask) (donors : List (Nat × Mask))
  | ctx (k : Nat)
  deriving DecidableEq, Repr

/-- The machine. Keys: core = 192 × cluster + core, group = 8 × core + slot, stroke = 32 × group + index. shared holds the
translation cache of each cluster (R212), engines the 16 copy engines of each (R256), armings the lines whose arming notifications are on
their way (R201). -/
structure State where
  agenda   : List Instr := []
  turn     : Turn := .none
  cycle    : Nat := 0
  ns       : Nat := 0
  nextId   : Nat := 0
  fresh    : Nat := 0
  mem      : MemSys := {}
  strokes  : Map Stroke := []
  groups   : Map Group := []
  ctxs     : Map ScribeCtx := []
  cores    : Map Core := []
  copies   : List Copy := []
  engines  : Map Engine := []
  mms      : List Mms := []
  fired    : List Fired := []
  remote   : List RemoteWrite := []
  armings  : List Nat := []
  resv     : List Resv := []
  parts    : Map Partition := []
  launches : Map Launch := []
  scheds   : Map Sched := []
  gate     : Gate := {}
  meshes   : Map Mesh := []
  shared   : Map (List TlbEntry) := []
  link     : Link := {}
  chunks   : List Chunk := []
  sys      : Sys := {}
  deriving DecidableEq, Repr

/-- Why the machine stops with a fault. -/
inductive Fault where
  /-- An instruction was executed while no path and no scribe context was issuing: raised by every instruction's issue,
  never by a step, which executes an instruction only for the agent on turn. Safe. -/
  | noTurn
  deriving DecidableEq, Repr

/-- Why the machine refuses a step. -/
inductive Refusal where
  /-- The instruction has no meaning yet: raised by exec alone. Safe. -/
  | notModelled (mnemonic : String)
  deriving DecidableEq, Repr

/-- The machine as module power comes up, before step 1 of R402: nothing is placed and no partition exists. DESIGN CHOICE (log 13):
device time starts at 0 and so does the cycle count, as does every other field whose value at power-up the spec does not give. -/
def State.reset : State := {}

end Sys2Proof.Machine
end

