-- ==== Sys2Proof/Machine/Data.lean ====
section
/-!
DEFINITION. Finite maps, memories as canonical lists of cells, lanes of a mask, and the joining and cutting of bytes,
words and bit fields.
-/
namespace Sys2Proof.Machine

/-- What a map lists for a key, if anything. -/
def mapGet? {α : Type} : Map α → Nat → Option α
  | [], _ => none
  | (j, a) :: m, k => if j = k then some a else mapGet? m k

/-- What a map lists for a key, and the given value for a key it does not list. -/
def mapGet {α : Type} (m : Map α) (k : Nat) (dflt : α) : α := (mapGet? m k).getD dflt

/-- The map with a key set; rising keys stay rising. -/
def mapPut {α : Type} : Map α → Nat → α → Map α
  | [], k, a => [(k, a)]
  | (j, b) :: m, k, a => if k < j then (k, a) :: (j, b) :: m else if k = j then (k, a) :: m else (j, b) :: mapPut m k a

/-- The map without a key. -/
def mapDel {α : Type} (m : Map α) (k : Nat) : Map α := m.filter (fun e => !(e.1 == k))

/-- The map with a key set, in which a key that holds the value of unlisted keys is not listed. -/
def mapSet {α : Type} [BEq α] (m : Map α) (dflt : α) (k : Nat) (a : α) : Map α :=
  if a == dflt then mapDel m k else mapPut m k a

/-- The map with one listed entry changed. -/
def mapMod {α : Type} (m : Map α) (k : Nat) (g : α → α) : Map α :=
  m.map (fun e => if e.1 = k then (e.1, g e.2) else e)

/-- The byte at an address of a memory; an address that is not listed reads as the empty byte (log 4). -/
def memByte (m : Memory) (a : Nat) : Byte := mapGet m a Config.emptyByte

/-- A memory with one byte written. -/
def memSet (m : Memory) (a : Nat) (b : Byte) : Memory := mapSet m Config.emptyByte a b

/-- A memory with bytes written at rising addresses. -/
def memWrite (m : Memory) (a : Nat) : List Byte → Memory
  | [] => m
  | b :: bs => memWrite (memSet m a b) (a + 1) bs

/-- The bytes of a memory at rising addresses. -/
def memRead (m : Memory) (a n : Nat) : List Byte := (List.range n).map (fun i => memByte m (a + i))

/-- The canonical form of a memory: addresses strictly rising, no entry that equals the empty byte. -/
def memWf : Memory → Bool
  | [] => true
  | [(_, b)] => b != Config.emptyByte
  | (a, b) :: (a', b') :: m => decide (a < a') && b != Config.emptyByte && memWf ((a', b') :: m)

/-- The lanes of a mask, in ascending order. -/
def lanesOf (m : Mask) : List Nat := (List.range 32).filter (fun l => m.getLsbD l)

/-- The mask of one lane. -/
def laneBit (l : Nat) : Mask := BitVec.ofNat 32 (2 ^ l)

/-- The mask of the lanes that meet a test. -/
def maskOf (t : Nat → Bool) : Mask := (List.range 32).foldl (fun m l => if t l then m ||| laneBit l else m) 0

/-- All 32 lanes. -/
def allLanes : Mask := 0xFFFFFFFF

/-- The lowest lane of a mask. -/
def lowest (m : Mask) : Option Nat := (lanesOf m).head?

/-- Little-endian bytes as a number (R3). -/
def bytesNat : List Byte → Nat
  | [] => 0
  | b :: bs => b.toNat + 256 * bytesNat bs

/-- A number as n little-endian bytes (R3). -/
def natBytes : Nat → Nat → List Byte
  | 0, _ => []
  | n + 1, x => BitVec.ofNat 8 x :: natBytes n (x / 256)

/-- A field of a record: n bytes from byte o on, as a number (R3). -/
def field (r : List Byte) (o n : Nat) : Nat := bytesNat ((r.drop o).take n)

/-- A record with n bytes from byte o on replaced. -/
def setField (r : List Byte) (o n x : Nat) : List Byte := r.take o ++ natBytes n x ++ r.drop (o + n)

/-- Bits [hi:lo] of a number. -/
def bits (x hi lo : Nat) : Nat := (x >>> lo) % 2 ^ (hi + 1 - lo)

/-- One bit of a number. -/
def bit (x i : Nat) : Bool := x.testBit i

/-- The signed value of the low w bits of a number. -/
def sext (w x : Nat) : Int :=
  let y := x % 2 ^ w
  if 2 ^ (w - 1) ≤ y then (y : Int) - (2 ^ w : Nat) else y

/-- An integer modulo 2^w. -/
def wrap (w : Nat) (z : Int) : Nat := (z % ((2 ^ w : Nat) : Int)).toNat

/-- A list with one element replaced. -/
def listPut {α : Type} (l : List α) (i : Nat) (a : α) : List α := l.set i a

/-- Consecutive numbers from a on. -/
def upTo (a n : Nat) : List Nat := (List.range n).map (a + ·)

/-- Are all elements equal? -/
def allEq (l : List Nat) : Bool := match l with
  | [] => true
  | a :: r => r.all (· == a)

/-- The words of little-endian bytes. -/
def wordsOf : Nat → List Byte → List Word
  | 0, _ => []
  | n + 1, bs => BitVec.ofNat 32 (bytesNat (bs.take 4)) :: wordsOf n (bs.drop 4)

/-- Comparison of lists of numbers, the first difference deciding. -/
def lexLt : List Nat → List Nat → Bool
  | a :: as, b :: bs => decide (a < b) || (a == b && lexLt as bs)
  | _, _ => false

/-- The element of a list with the least key, an earlier one before a later one. -/
def leastBy (key : Nat → List Nat) : List Nat → Option Nat
  | [] => none
  | a :: r => match leastBy key r with
    | none => some a
    | some b => if lexLt (key b) (key a) then some b else some a

/-- CRC-32C over bytes (R51): the reflected polynomial, a byte at a time. -/
def crcByte (c : Word) (b : Byte) : Word :=
  (List.range 8).foldl (fun c _ => if c.getLsbD 0 then (c >>> 1) ^^^ 0x82F63B78 else c >>> 1) (c ^^^ b.zeroExtend 32)
def crc32c (bs : List Byte) : Word := bs.foldl crcByte 0xFFFFFFFF ^^^ 0xFFFFFFFF

end Sys2Proof.Machine
end

