-- ==== Sys2Proof/Machine/Float.lean ====
section
/-!
DEFINITION. Floating-point numbers: the formats of R115, exact values, the one rounding of R120 and R122, and the
arithmetic of R118 and R159 on exact values.
-/
namespace Sys2Proof.Machine

/-- Sticky bits of CR.FPM, bit 0 for CR.FPM bit 6 (R117). -/
abbrev Flags := BitVec 7

def flagNV : Flags := 1
def flagDZ : Flags := 2
def flagOF : Flags := 4
def flagUF : Flags := 8
def flagNX : Flags := 16
def flagDIVZ : Flags := 32
def flagMALF : Flags := 64

/-- The float formats that have elements of their own (R115). -/
inductive Fmt where
  | f32 | f16 | bf16 | e4m3 | e5m2 | e2m1
  deriving DecidableEq, Repr

/-- Exponent bits (R115). -/
def Fmt.eb : Fmt → Nat
  | .f32 => 8 | .f16 => 5 | .bf16 => 8 | .e4m3 => 4 | .e5m2 => 5 | .e2m1 => 2
/-- Fraction bits (R115). -/
def Fmt.fb : Fmt → Nat
  | .f32 => 23 | .f16 => 10 | .bf16 => 7 | .e4m3 => 3 | .e5m2 => 2 | .e2m1 => 1
/-- Bias (R115). -/
def Fmt.bias : Fmt → Nat
  | .f32 => 127 | .f16 => 15 | .bf16 => 127 | .e4m3 => 7 | .e5m2 => 15 | .e2m1 => 1
/-- Largest finite code, without the sign (R115). -/
def Fmt.largest : Fmt → Nat
  | .f32 => 0x7F7FFFFF | .f16 => 0x7BFF | .bf16 => 0x7F7F | .e4m3 => 0x7E | .e5m2 => 0x7B | .e2m1 => 7
/-- The canonical quiet NaN; E2M1 has none (R115). -/
def Fmt.qnan : Fmt → Nat
  | .f32 => 0x7FC00000 | .f16 => 0x7E00 | .bf16 => 0x7FC0 | .e4m3 => 0x7F | .e5m2 => 0x7E | .e2m1 => 0
/-- Does the format have infinities (R115)? -/
def Fmt.hasInf : Fmt → Bool
  | .e4m3 | .e2m1 => false
  | _ => true
/-- Bits of the format below its sign. -/
def Fmt.top (t : Fmt) : Nat := t.eb + t.fb
/-- The exponent of the smallest normal. -/
def Fmt.emin (t : Fmt) : Int := 1 - (t.bias : Int)

/-- An exact value: a NaN, signalling or not, an infinity, or (−1)^neg × m × 2^e. -/
inductive Num where
  | nan (signalling : Bool)
  | inf (neg : Bool)
  | fin (neg : Bool) (m : Nat) (e : Int)
  deriving DecidableEq, Repr

/-- Rounding modes (R84); EF rounds its steps by RNE (R121). -/
inductive Rnd where
  | rne | rtz | rup | rdn | rna
  deriving DecidableEq, Repr

def Rnd.ofCode : Nat → Rnd
  | 1 => .rtz | 2 => .rup | 3 => .rdn | 4 => .rna | _ => .rne

/-- The value of a code of a format (R115). -/
def unpack (t : Fmt) (x : Nat) : Num :=
  let neg := bit x t.top
  let ex := bits x (t.top - 1) t.fb
  let fr := x % 2 ^ t.fb
  if t = .e4m3 ∧ x % 128 = 127 then .nan false
  else if t.hasInf = true ∧ ex = 2 ^ t.eb - 1 then
    if fr = 0 then .inf neg else .nan (decide (fr < 2 ^ (t.fb - 1)))
  else if ex = 0 then .fin neg fr (t.emin - t.fb)
  else .fin neg (2 ^ t.fb + fr) ((ex : Int) - t.bias - t.fb)

/-- m / 2^sh rounded to an integer by a mode, and whether that was inexact (R120). -/
def roundShift (r : Rnd) (neg : Bool) (m sh : Nat) : Nat × Bool :=
  if m = 0 then (0, false)
  else if sh = 0 then (m, false)
  else
    let far := decide (m.log2 + 2 ≤ sh)
    let q := if far then 0 else m >>> sh
    let rem := if far then m else m % 2 ^ sh
    if rem = 0 then (q, false)
    else
      let above := !far && decide (2 ^ (sh - 1) < rem)
      let tie := !far && decide (rem = 2 ^ (sh - 1))
      let up := match r with
        | .rne => above || (tie && decide (q % 2 = 1))
        | .rna => above || tie
        | .rtz => false
        | .rup => !neg
        | .rdn => neg
      (if up then q + 1 else q, true)

/-- The sign bit of a format, set or not. -/
def signBit (t : Fmt) (neg : Bool) : Nat := if neg then 2 ^ t.top else 0

/-- What an overflowed result becomes (R120, R122). -/
def overflow (t : Fmt) (r : Rnd) (sat : Bool) (nbv : Nat) (neg : Bool) : Nat :=
  match t with
  | .e2m1 => signBit t neg + t.largest
  | .e4m3 => if sat || nbv != 1 then signBit t neg + t.largest else t.qnan
  | _ =>
    if sat then signBit t neg + t.largest
    else
      let toLargest := match r with
        | .rtz => true
        | .rup => neg
        | .rdn => !neg
        | _ => false
      signBit t neg + (if toLargest then t.largest else (2 ^ t.eb - 1) <<< t.fb)

/-- (−1)^neg × m × 2^e rounded to a format (R117, R119, R120, R122). -/
def packFin (t : Fmt) (r : Rnd) (sat : Bool) (nbv : Nat) (ftz : Bool) (neg : Bool) (m : Nat) (e : Int) :
    Nat × Flags :=
  if m = 0 then (signBit t neg, 0)
  else
    let top : Int := e + m.log2
    if (t.bias : Int) + 1 < top then (overflow t r sat nbv neg, flagOF ||| flagNX)
    else
      let q : Int := max top t.emin - t.fb
      let rounded := if q ≤ e then (m <<< (e - q).toNat, false) else roundShift r neg m (q - e).toNat
      let code := if rounded.1 < 2 ^ t.fb then rounded.1
        else ((q + t.fb + t.bias).toNat <<< t.fb) + (rounded.1 - 2 ^ t.fb)
      let free := if m.log2 ≤ t.fb then m else (roundShift r neg m (m.log2 - t.fb)).1
      let tiny := decide ((if 2 ^ (t.fb + 1) ≤ free then top + 1 else top) < t.emin)
      if t.largest < code then (overflow t r sat nbv neg, flagOF ||| flagNX)
      else if ftz && code != 0 && decide (code < 2 ^ t.fb) then (signBit t neg, flagUF ||| flagNX)
      else (signBit t neg + code,
        (if rounded.2 then flagNX else 0) ||| (if tiny && rounded.2 then flagUF else 0))

/-- An exact value written in a format (R118, R120, R122). -/
def pack (t : Fmt) (r : Rnd) (sat : Bool) (nbv : Nat) (ftz : Bool) : Num → Nat × Flags
  | .nan _ => (t.qnan, 0)
  | .inf neg =>
    if t = .e2m1 ∨ sat = true then (signBit t neg + t.largest, 0)
    else if t.hasInf then (signBit t neg + ((2 ^ t.eb - 1) <<< t.fb), 0)
    else (t.qnan, 0)
  | .fin neg m e => packFin t r sat nbv ftz neg m e

/-- A subnormal input read as a zero of its sign where FTZ applies (R119). -/
def flushIn (t : Fmt) (ftz : Bool) (x : Nat) : Nat :=
  if ftz && decide (bits x (t.top - 1) t.fb = 0) then signBit t (bit x t.top) else x

/-- Does a value raise NV as an arithmetic input (R118)? -/
def Num.signals : Num → Flags
  | .nan true => flagNV
  | _ => 0

def Num.isNan : Num → Bool
  | .nan _ => true
  | _ => false

/-- The exact product (R118). -/
def mulN : Num → Num → Num × Flags
  | .nan s, y => (.nan false, (Num.nan s).signals ||| y.signals)
  | x, .nan s => (.nan false, x.signals ||| (Num.nan s).signals)
  | .inf a, .inf b => (.inf (a != b), 0)
  | .inf a, .fin b m _ => if m = 0 then (.nan false, flagNV) else (.inf (a != b), 0)
  | .fin a m _, .inf b => if m = 0 then (.nan false, flagNV) else (.inf (a != b), 0)
  | .fin a m e, .fin b n d => (.fin (a != b) (m * n) (e + d), 0)

/-- The exact sum of finite terms; an exact zero of unlike signs is +0, and −0 under RDN (IEEE 754, R118). -/
def sumFin (r : Rnd) (ts : List (Bool × Nat × Int)) : Num :=
  let e0 := ts.foldl (fun e t => min e t.2.2) (match ts with | [] => 0 | t :: _ => t.2.2)
  let z : Int := ts.foldl (fun z t =>
    let v : Nat := t.2.1 <<< (t.2.2 - e0).toNat
    if t.1 then z - v else z + v) 0
  if z = 0 then
    let neg := if ts.all (fun t => t.1) && !ts.isEmpty then true
      else if ts.all (fun t => !t.1) then false else decide (r = .rdn)
    .fin neg 0 0
  else .fin (decide (z < 0)) z.natAbs e0

/-- The exact sum of terms: NaN, then infinities, then numbers (R118). -/
def sumN (r : Rnd) (ts : List Num) : Num × Flags :=
  let sig := ts.foldl (fun f t => f ||| t.signals) 0
  if ts.any Num.isNan then (.nan false, sig)
  else
    let pos := ts.any (fun t => decide (t = .inf false))
    let neg := ts.any (fun t => decide (t = .inf true))
    if pos && neg then (.nan false, sig ||| flagNV)
    else if pos then (.inf false, sig)
    else if neg then (.inf true, sig)
    else
      let fins := ts.filterMap (fun t => match t with | .fin n m e => some (n, m, e) | _ => none)
      (sumFin r fins, sig)

/-- a × b + c exactly, a product 0 × ∞ raising NV whatever c is (R118, R159). -/
def fmaN (r : Rnd) (a b c : Num) : Num × Flags :=
  let p := mulN a b
  let z := sumN r [p.1, c]
  (z.1, p.2 ||| z.2)

/-- The order of numbers that are not NaN, as values: is x below y? -/
def ltN : Num → Num → Bool
  | .inf a, .inf b => a && !b
  | .inf a, .fin _ _ _ => a
  | .fin _ _ _, .inf b => !b
  | .fin a m e, .fin b n d =>
    let e0 := min e d
    let x : Int := (m <<< (e - e0).toNat : Nat)
    let y : Int := (n <<< (d - e0).toNat : Nat)
    decide ((if a then -x else x) < (if b then -y else y))
  | _, _ => false

/-- Is a number negative, a zero by its sign? -/
def Num.neg : Num → Bool
  | .inf n => n
  | .fin n _ _ => n
  | .nan _ => false

/-- The smaller (or larger) of two numbers by FMIN and FMAX: −0 is below +0, one NaN gives the other (R159). -/
def pickN (larger : Bool) (x y : Num) : Num × Flags :=
  let sig := x.signals ||| y.signals
  if x.isNan then (if y.isNan then .nan false else y, sig)
  else if y.isNan then (x, sig)
  else
    let below := ltN x y || (!ltN y x && x.neg && !y.neg)
    (if below != larger then x else y, sig)

/-- A float turned to an integer in a range (R123). -/
def toIntN (r : Rnd) (lo hi : Int) : Num → Int × Flags
  | .nan _ => (0, flagNV)
  | .inf neg => (if neg then lo else hi, flagNV)
  | .fin neg m e =>
    let q := if 0 ≤ e then (m <<< e.toNat, false) else roundShift r neg m (-e).toNat
    let v : Int := if neg then -(q.1 : Int) else q.1
    if v < lo then (lo, flagNV)
    else if hi < v then (hi, flagNV)
    else (v, if q.2 then flagNX else 0)

/-- An integer as an exact value. -/
def intN (z : Int) : Num := .fin (decide (z < 0)) z.natAbs 0

/-- A float converted to another float format (R123). -/
def cvtFloat (src dst : Fmt) (r : Rnd) (sat : Bool) (nbv : Nat) (x : Nat) : Nat × Flags :=
  let v := unpack src x
  let z := pack dst r sat nbv false v
  (z.1, z.2 ||| v.signals)

/-- A result that two formats share: the exact value of a computation packed with its flags. -/
def finish (t : Fmt) (r : Rnd) (sat : Bool) (ftz : Bool) (z : Num × Flags) : Nat × Flags :=
  let p := pack t r sat 2 ftz z.1
  (p.1, p.2 ||| z.2)

/-- Is a code NaN or infinite? -/
def notFinite (t : Fmt) (x : Nat) : Bool :=
  match unpack t x with
  | .fin _ _ _ => false
  | _ => true

/-- Error-feedback rounding of x with the residue e: the result, the new residue and the flags (R121). -/
def efRound (t : Fmt) (sat : Bool) (nbv : Nat) (x e : Nat) : Nat × Nat × Flags :=
  let s := finish .f32 .rne false false (sumN .rne [unpack .f32 x, unpack .f32 e])
  let y := cvtFloat .f32 t .rne sat nbv s.1
  let clamped := (y.2 &&& flagOF) != 0 || notFinite .f32 s.1
  let res := if notFinite t y.1 || clamped then 0
    else match unpack .f32 s.1, unpack t y.1 with
      | a, .fin n m d => (finish .f32 .rne false false (sumN .rne [a, .fin (!n) m d])).1
      | _, _ => 0
  (y.1, res, s.2 ||| y.2)

end Sys2Proof.Machine
end

