-- ==== Sys2Proof/Machine/Operands.lean ====
section
/-!
DEFINITION. Type codes (R82), operand codes (R79, R80), immediates (R83), and the shape of every opcode: how its entry
reads each field (R85), from which its legality, its register use and its operands follow.
-/
namespace Sys2Proof.Machine

/-- The types of R82, in the order of their codes. -/
inductive Ty where
  | b32 | i32 | n32 | i64 | n64 | b64 | i16 | n16 | i8 | n8 | f32 | f16 | bf16 | e4m3 | e5m2 | mxf4 | i4x | sa32 | sx32
  | b8 | b16 | b128
  deriving DecidableEq, Repr

def Ty.all : List Ty :=
  [.b32, .i32, .n32, .i64, .n64, .b64, .i16, .n16, .i8, .n8, .f32, .f16, .bf16, .e4m3, .e5m2, .mxf4, .i4x, .sa32, .sx32,
   .b8, .b16, .b128]

/-- The type of a code (R82). -/
def Ty.ofCode (t : BitVec 5) : Option Ty := Ty.all[t.toNat]?

/-- The type of a code, b32 for a reserved one. -/
def tyOf (t : BitVec 5) : Ty := (Ty.ofCode t).getD .b32

/-- Bits of an element (R82). -/
def Ty.bits : Ty → Nat
  | .b8 | .i8 | .n8 | .e4m3 | .e5m2 => 8
  | .b16 | .i16 | .n16 | .f16 | .bf16 => 16
  | .i64 | .n64 | .b64 => 64
  | .b128 => 128
  | .mxf4 | .i4x => 4
  | _ => 32

/-- Bytes of a memory access of the type: f16 and bf16 move a packed pair (R222). -/
def Ty.size : Ty → Nat
  | .f16 | .bf16 => 4
  | t => t.bits / 8

/-- Registers that hold a value of the type (R113). -/
def Ty.regs : Ty → Nat
  | .i64 | .n64 | .b64 => 2
  | .b128 => 4
  | _ => 1

def Ty.signed : Ty → Bool
  | .i8 | .i16 | .i32 | .i64 => true
  | _ => false

/-- Is it a share type (R113)? -/
def Ty.share : Ty → Bool
  | .sa32 | .sx32 => true
  | _ => false

/-- The tag of a share type (R315). -/
def Ty.tag : Ty → BitVec 2
  | .sa32 => 1
  | .sx32 => 2
  | _ => 0

/-- The float format of a float type (R115). -/
def Ty.fmt? : Ty → Option Fmt
  | .f32 => some .f32 | .f16 => some .f16 | .bf16 => some .bf16 | .e4m3 => some .e4m3 | .e5m2 => some .e5m2
  | _ => none

def Ty.fmt (t : Ty) : Fmt := t.fmt?.getD .f32

/-- The signed or unsigned value of the low bits of x in an integer type (R113). -/
def Ty.ext (t : Ty) (x : Nat) : Int := if t.signed then sext t.bits x else ((x % 2 ^ t.bits : Nat) : Int)

/-- The least value of an integer type. -/
def Ty.least (t : Ty) : Int := if t.signed then -((2 ^ (t.bits - 1) : Nat) : Int) else 0
/-- The greatest value of an integer type. -/
def Ty.greatest (t : Ty) : Int :=
  if t.signed then ((2 ^ (t.bits - 1) : Nat) : Int) - 1 else ((2 ^ t.bits : Nat) : Int) - 1

def tyI : List Ty := [.i8, .i16, .i32, .i64]
def tyN : List Ty := [.n8, .n16, .n32, .n64]
def tyIN : List Ty := tyI ++ tyN
def tyB : List Ty := [.b8, .b16, .b32, .b64]
def tyW : List Ty := [.i32, .n32, .i64, .n64]
def tyBW : List Ty := [.b32, .b64]
def tyF : List Ty := [.f32, .f16, .bf16]
/-- The types of PST: those of LD without the share types (R218, R351). -/
def tyPst : List Ty :=
  [.i8, .n8, .b8, .i16, .n16, .b16, .i32, .n32, .b32, .f32, .f16, .bf16, .i64, .n64, .b64, .b128]
/-- The types of LD and ST (R218). -/
def tyMem : List Ty := tyPst ++ [.sa32, .sx32]
/-- The types of LDT and STT (R230). -/
def tyTile : List Ty :=
  [.i8, .n8, .b8, .i16, .n16, .b16, .i32, .n32, .b32, .f32, .f16, .bf16, .e4m3, .e5m2, .mxf4, .i4x]
def tyMma : List Ty := [.bf16, .f16, .e4m3, .e5m2, .i8, .mxf4, .i4x]

/-- An operand named by a code (R79). -/
inductive Opnd where
  | v (i : Nat) | s (i : Nat) | p (i : Nat) | k (i : Nat) | f (i : Nat) | cv (i : Nat) | e (i : Nat)
  | special (n : Nat) | literal | reserved
  deriving DecidableEq, Repr

/-- Reading an operand code (R79). -/
def Opnd.ofCode (c : Code) : Opnd :=
  let n := c.toNat
  if n < 0x100 then .v n
  else if n < 0x140 then .s (n - 0x100)
  else if n < 0x150 then .p (n - 0x140)
  else if n < 0x170 then .k (n - 0x150)
  else if n < 0x178 then .f (n - 0x170)
  else if n < 0x180 then .cv (n - 0x178)
  else if n < 0x190 then .e (n - 0x180)
  else if n < 0x1AB then .special (n - 0x190)
  else if n = 0x1FF then .literal
  else .reserved

/-- The kinds of operand. -/
inductive Kind where
  | v | s | p | k | f | cv | e | special | literal | reserved
  deriving DecidableEq, Repr

def Opnd.kind : Opnd → Kind
  | .v _ => .v | .s _ => .s | .p _ => .p | .k _ => .k | .f _ => .f | .cv _ => .cv | .e _ => .e
  | .special _ => .special | .literal => .literal | .reserved => .reserved

def Opnd.index : Opnd → Nat
  | .v i => i | .s i => i | .p i => i | .k i => i | .f i => i | .cv i => i | .e i => i | .special n => n
  | .literal => 0 | .reserved => 0

/-- Does an unsigned integer have at most p significant bits? -/
def significant (p m : Nat) : Bool := decide (m = 0) || decide (m % 2 ^ (m.log2 + 1 - p) = 0)

/-- Can the type hold the immediate exactly (R83)? -/
def immExact (t : Ty) (c : Code) : Bool :=
  match t.fmt? with
  | some f =>
    let m := (sext 9 c.toNat).natAbs
    significant (f.fb + 1) m && (decide (f ≠ .e4m3) || decide (m ≤ 448))
  | none => true

/-- A converted immediate in every element of a packed operation (R83). -/
def spread (t : Ty) (x : Nat) : Nat :=
  match t with
  | .f16 | .bf16 => x + 65536 * x
  | _ => x

/-- The value of an IMM9 in an operation of a type (R83); the constants of SADD and SMULK are sign-extended (R326). -/
def imm9 (t : Ty) (c : Code) : Nat :=
  match t.fmt? with
  | some f => spread t (pack f .rne false 2 false (intN (sext 9 c.toNat))).1
  | none => wrap (min t.bits 64) (if t.signed || t == .sa32 then sext 9 c.toNat else c.toNat)

/-- What an infinite literal, or a finite one above the largest finite value, becomes (R83). -/
def literalInf (f : Fmt) (sat n : Bool) : Nat := (pack f .rne (sat && f == .e4m3) 2 false (.inf n)).1

/-- The value of a literal in an operation of a type (R83). -/
def imm32 (t : Ty) (sat : Bool) (w : Word) : Nat :=
  match t.fmt? with
  | some f =>
    match unpack .f32 w.toNat with
    | .nan _ => spread t f.qnan
    | .inf n => spread t (literalInf f sat n)
    | .fin n m e =>
      if ltN (unpack f f.largest) (.fin false m e) then spread t (literalInf f sat n)
      else spread t (pack f .rne false 2 false (.fin n m e)).1
  | none => wrap (min t.bits 64) (if t.signed || t == .sa32 then sext 32 w.toNat else w.toNat)

/-- How an entry uses an operand field: the kinds allowed in thread code, the registers of one value, the consecutive
registers touched in all, the k registers touched in scribe code, whether it is a destination, or both source and destination,
whether a stream port may stand there, and the type by which a literal is converted. -/
structure Use where
  kinds : List Kind
  regs  : Nat := 1
  span  : Nat := 1
  kspan : Nat := 1
  dst   : Bool := false
  both  : Bool := false
  port  : Bool := true
  ty    : Ty := .b32
  deriving DecidableEq, Repr

/-- How an entry reads a field: it must be zero; it holds control bits, or an immediate, that are legal or not; or it is
an operand code. The type of an immediate says how it is extended (R83). -/
inductive Role where
  | zero
  | ctl (ok : Bool)
  | imm (ok : Bool) (ty : Ty := .n32)
  | op (u : Use)
  deriving DecidableEq, Repr

/-- How an entry reads an instruction. types is empty where T must be 0; extra names further registers, destinations
marked. -/
structure Shape where
  types : List Ty := []
  wide  : Bool := false
  d     : Role := .zero
  a     : Role := .zero
  b     : Role := .zero
  c     : Role := .zero
  mOk   : Bool
  xOk   : Bool := true
  long  : Bool := false
  extra : List (RegName × Bool) := []
  deriving DecidableEq, Repr

/-- The general sources of thread code (R81). -/
def sources : List Kind := [.v, .s, .p, .f, .special, .literal]

def src (regs : Nat) (ty : Ty) : Role := .op { kinds := sources, regs := regs, span := regs, ty := ty }
def dst (regs : Nat) : Role := .op { kinds := [.v, .s], regs := regs, span := regs, dst := true }
def one (ks : List Kind) (regs : Nat := 1) : Role := .op { kinds := ks, regs := regs, span := regs }
def oneDst (ks : List Kind) (regs : Nat := 1) : Role := .op { kinds := ks, regs := regs, span := regs, dst := true }
def block (regs : Nat) (span : Nat) (isDst : Bool) (port : Bool := true) : Role :=
  .op { kinds := [.v], regs := regs, span := span, dst := isDst, port := port }

/-- The field C of the Unary and Binary classes (R85): an immediate when the IMM bit is set, else an operand. -/
def immOr (f : Fields) (u : Role) (ty : Ty) : Role := if bit f.b.toNat 0 then .imm (immExact ty f.c) ty else u

/-- The control bits B of the Unary and Binary classes: IMM, SAT where accepted, DYN where the entry rounds, and with
DYN an M of 0 (R84, R85, R144); extra are the bits [7:3] the entry defines. -/
def control (f : Fields) (sat dyn : Bool) (extra : Nat := 0) : Role :=
  let b := f.b.toNat
  .ctl ((sat || !bit b 1) && (!bit b 2 || (dyn && f.m == 0)) && (bits b 7 3 ||| extra) == extra && !bit b 8)

/-- M as a rounding field without EF (R84). -/
def rndOk (f : Fields) : Bool := decide (f.m.toNat ≤ 4)

/-- A Unary entry. -/
def unary (f : Fields) (types : List Ty) (sat : Bool := false) (dw : Option Nat := none) (ks : List Kind := [.v, .s])
    (more : List Kind := []) (long : Bool := false) : Shape :=
  let t := tyOf f.t
  let w := t.regs
  { types := types
    d := .op { kinds := ks, regs := dw.getD w, span := dw.getD w, dst := true }
    b := control f sat false
    c := immOr f (.op { kinds := sources ++ more, regs := w, span := w, ty := t }) t
    mOk := f.m == 0
    long := long }

/-- A Binary entry whose operands have the operation type. -/
def binary (f : Fields) (types : List Ty) (sat : Bool := false) (rnd : Bool := false) (long : Bool := false) : Shape :=
  let t := tyOf f.t
  { types := types
    d := dst t.regs
    a := src t.regs t
    b := control f sat rnd
    c := immOr f (src t.regs t) t
    mOk := if rnd then rndOk f else f.m == 0
    long := long }

/-- A Ternary entry. -/
def ternary (f : Fields) (types : List Ty) (wd wa wb wc : Nat) (tc : Ty) (mOk : Bool) : Shape :=
  { types := types, d := dst wd, a := src wa (tyOf f.t), b := src wb (tyOf f.t), c := src wc tc, mOk := mOk }

/-- A compare: M is the condition, D a predicate (R153, R161). -/
def compare (f : Fields) (types : List Ty) (mOk : Bool) : Shape :=
  { binary f types with d := oneDst [.p], mOk := mOk }

/-- The spaces of R84 by code. -/
inductive Space where
  | U | P | C | D | G | H
  deriving DecidableEq, Repr

def Space.ofCode (n : Nat) : Space :=
  match n % 8 with
  | 0 => .U | 1 => .P | 2 => .C | 3 => .D | 4 => .G | _ => .H

/-- Is an address of the space 32 bits (R217)? -/
def Space.narrow : Space → Bool
  | .U | .P | .C => true
  | _ => false

/-- The space that B names (R84). -/
def spaceOf (f : Fields) : Space := Space.ofCode f.b.toNat

/-- Registers of a base address of the space (R217). -/
def Space.baseRegs (p : Space) : Nat := if p.narrow then 1 else 2

/-- B in the memory layout (R84), with the orderings the entry accepts (R218). -/
def memCtl (f : Fields) (ords : List Nat) : Role :=
  let b := f.b.toNat
  .ctl (!bit b 8 && decide (bits b 5 3 ≤ 5) && decide (bits b 2 0 ≤ 5) && ords.contains (bits b 7 6) &&
    (decide (bits b 7 6 ≠ 0) || decide (bits b 5 3 = 0)))

/-- C as a byte offset: an IMM9 in G64, the literal in L96 (R217). -/
def offset (f : Fields) : Role :=
  match f.ext with
  | .lit _ => .op { kinds := [.literal] }
  | _ => .imm true

/-- A Memory entry with an offset. -/
def memory (f : Fields) (types : List Ty) (ords : List Nat) (d : Role) (ks : List Kind := [.v, .s])
    (long : Bool := false) : Shape :=
  { types := types, d := d, a := one ks (spaceOf f).baseRegs, b := memCtl f ords, c := offset f, mOk := f.m == 0,
    long := long }

/-- A data operand that ST, TAGSET and PST read: no port may be an input (R223). -/
def data (regs : Nat) : Role :=
  .op { kinds := [.v, .s, .special], regs := regs, span := regs, port := false }

/-- The count of registers that a count code names (R230, R290). -/
def countOf (m : Nat) : Nat :=
  match m % 4 with
  | 0 => 1 | 1 => 4 | 2 => 8 | _ => 16

/-- LDT and STT (R230). -/
def tile (f : Fields) (isDst : Bool) (ords : List Nat) : Shape :=
  let c := f.c.toNat
  let n := countOf f.m.toNat
  let as := bit f.m.toNat 2
  { types := tyTile
    d := block 1 n isDst (port := false)
    a := one [.s] (spaceOf f).baseRegs
    b := memCtl f ords
    c := .ctl (decide (c % 2 = 0) && (as || decide (c / 64 = 0)))
    mOk := true
    long := !as
    extra := [(.s (c % 64), false), (.s (c % 64 + 1), false)] ++ (if as then [(.f (c / 64), true)] else []) }

/-- A Listed entry with no operands. -/
def bare (f : Fields) : Shape := { mOk := f.m == 0 }

/-- B[0] as IMM for C, B[4:1] a counter or session, the rest zero. -/
def ctlBits (f : Fields) (mask : Nat) : Role := .ctl (decide (f.b.toNat ||| mask = mask))

/-- C as a count, mask or amount of 32 bits: an IMM9 with B[0], else an operand (R83). -/
def amount (f : Fields) (ks : List Kind) : Role := if bit f.b.toNat 0 then .imm true else .op { kinds := ks }

/-- A summary entry (R306, R307). -/
def summary (f : Fields) (types : List Ty) (d c : Role) (two : Bool := false) : Shape :=
  let b := f.b.toNat
  { types := types, d := d, a := one [.s]
    b := .ctl (decide (bits b 2 0 ≤ 5) && (if two then decide (bits b 5 3 ≤ 5) else decide (bits b 5 3 = 0)) &&
      decide (b / 64 = 0))
    c := c, mOk := f.m == 0 }

/-- A share entry: B is the session, and IMM where it is legal (R325). -/
def share (f : Fields) (types : List Ty) (imm : Bool) (d : Role) (a : Role) (c : Role) (mOk : Bool) : Shape :=
  { types := types, d := d, a := a, b := .ctl ((imm || !bit f.b.toNat 0) && decide (f.b.toNat / 32 = 0)), c := c,
    mOk := mOk }

/-- Are the operand types of an MMR a pair of R270? -/
def pairOk (ta tb : Ty) : Bool :=
  let e8 := [Ty.e4m3, .e5m2]
  let f4 := [Ty.mxf4, .i4x]
  (ta == tb && [Ty.bf16, .f16, .i8].contains ta) || (e8.contains ta && e8.contains tb) ||
    (f4.contains ta && f4.contains tb) || (ta == .bf16 && f4.contains tb)

/-- Registers of an A fragment and of a B fragment (R270). -/
def fragA (ta : Ty) : Nat := if ta.bits = 4 then 9 else 8
def fragB (ta tb : Ty) : Nat := if ta.bits = 4 then 5 else if tb.bits = 4 then 2 else 4

/-- The extension of a W128 as a number. -/
def extX (f : Fields) : Nat := match f.ext with
  | .wide x => x.toNat
  | _ => 0

/-- Width, who may read and who may write a control register (R189): read by thread and scribe, thread, or in handler
mode; written by thread, in handler mode, or by nobody. -/
inductive CsrRead where
  | thread | both | handler
  deriving DecidableEq, Repr
inductive CsrWrite where
  | thread | handler | never
  deriving DecidableEq, Repr

def csrRow (n : Nat) : Option (Nat × CsrRead × CsrWrite) :=
  match n with
  | 0x00 => some (1, .thread, .thread)
  | 0x01 => some (1, .both, .never)
  | 0x02 => some (1, .both, .never)
  | 0x03 => some (1, .both, .thread)
  | 0x04 => some (2, .both, .handler)
  | 0x05 => some (1, .both, .handler)
  | 0x06 => some (2, .both, .handler)
  | 0x07 => some (2, .both, .handler)
  | 0x08 => some (2, .both, .handler)
  | 0x09 => some (1, .handler, .handler)
  | 0x0A => some (2, .handler, .handler)
  | 0x0B => some (1, .handler, .handler)
  | 0x0C => some (2, .both, .never)
  | 0x0D => some (2, .both, .never)
  | 0x0E => some (1, .both, .never)
  | 0x0F => some (1, .both, .never)
  | _ => none

/-- One of the four entries of a BRM (R183). -/
def brmOk (c off : Nat) : Bool := if bit c 5 then decide (c / 64 = 0) else decide (c = 0) && decide (off = 0)

/-- The copy entries CPY and CPYR (R262, R263). -/
def copyShape (f : Fields) (wide xOk : Bool) : Shape :=
  let c := f.c.toNat
  { wide := wide, d := oneDst [.k], a := one [.k], b := one [.k]
    c := .ctl (decide (bits c 7 5 ≤ 5) && !bit c 8), mOk := decide (f.m.toNat ≤ 5), xOk := xOk
    extra := [(.k (c % 32), false)] }

/-- The shapes of opcodes 0x00 to 0x3A (R145 to R172). -/
def shapeCompute (opc : Nat) (f : Fields) : Option Shape :=
  let t := tyOf f.t
  let w := t.regs
  let m0 := f.m == 0
  match opc with
  | 0x00 | 0x01 | 0x02 => some (binary f tyIN (sat := true))
  | 0x03 => some (binary f tyW)
  | 0x04 => some (ternary f tyW w w w w t (f.m.toNat / 2 == 0))
  | 0x05 | 0x06 => some (binary f tyIN)
  | 0x07 => some (unary f tyI (sat := true))
  | 0x08 => some (unary f tyIN (sat := true))
  | 0x09 | 0x0A | 0x0B | 0x0C => some (binary f tyB)
  | 0x0D => some (unary f tyB)
  | 0x0E | 0x11 => some (binary f tyBW)
  | 0x0F => some (binary f [.n32, .n64])
  | 0x10 => some (binary f [.i32, .i64])
  | 0x12 => some (ternary f tyW w w w w t m0)
  | 0x13 => some (ternary f tyBW w w w w t m0)
  | 0x14 | 0x15 => some (unary f tyBW (dw := some 1))
  | 0x16 => some (unary f tyBW)
  | 0x17 => some (ternary f tyBW w w w 1 .b32 m0)
  | 0x18 => some (compare f (tyIN ++ tyBW) (decide (f.m.toNat ≤ if t == .b32 || t == .b64 then 1 else 5)))
  | 0x19 =>
    let e := if t == .b32 then [Kind.e] else []
    some (unary f tyBW (ks := [.v, .s] ++ e) (more := e))
  | 0x1A => some { binary f [.n32, .n64] with b := control f false false (extra := 7), c := immOr f (src 1 .i32) .i32 }
  | 0x1B | 0x1C => some (binary f tyW (sat := t.signed) (long := true))
  | 0x1D => some (ternary f [.i8, .n8] 1 1 1 1 (if t == .i8 then .i32 else .n32) (f.m.toNat / 2 == 0))
  | 0x1E => some (ternary f [.b32] 1 1 1 1 t m0)
  | 0x20 | 0x21 | 0x22 => some (binary f tyF (sat := true) (rnd := true))
  | 0x23 => some (ternary f tyF 1 1 1 1 t (rndOk f))
  | 0x24 | 0x25 => some (binary f tyF)
  | 0x26 | 0x27 | 0x29 => some (unary f tyF)
  | 0x28 => some (compare f [.f32] true)
  | 0x2A | 0x2B | 0x2C | 0x2D | 0x2E | 0x2F | 0x30 | 0x31 => some (unary f tyF (long := true))
  | 0x32 => some { binary f tyF (sat := true) (rnd := true) with c := immOr f (src 1 .i32) .i32 }
  | 0x33 =>
    let st := BitVec.ofNat 5 (f.b.toNat / 8)
    let types := tyIN ++ [.f32, .f16, .bf16, .e4m3, .e5m2]
    let sty := tyOf st
    let ef := f.m.toNat == 5
    some
      { types := types
        d := dst w
        a := if ef then one [.e] else .zero
        b := .ctl (!bit f.b.toNat 8 && types.contains sty && (Ty.ofCode st).isSome && (!bit f.b.toNat 2 || m0))
        c := immOr f (src sty.regs sty) sty
        mOk := rndOk f || (ef && sty == .f32 && [Ty.f16, .bf16, .e4m3, .e5m2].contains t) }
  | 0x34 =>
    let ef := f.m.toNat == 5
    let b := f.b.toNat
    some
      { types := [.f16, .bf16, .e4m3, .e5m2]
        d := dst 1
        a := src 1 .f32
        b := if ef then .ctl (decide (b / 64 = 0) && decide (bits b 5 2 ≤ 14)) else control f true true
        c := immOr f (src 1 .f32) .f32
        mOk := rndOk f || ef }
  | 0x35 =>
    let b := f.b.toNat
    let auto := bit b 1
    some
      { types := [.mxf4, .i4x]
        d := .op { kinds := [.s], regs := 8, span := 5, dst := true }
        a := one [.v]
        b := .ctl (decide (b / 32 = 0) && decide (bits b 4 2 ≤ 4) && !(auto && bit b 0))
        c := if auto then .zero else if bit b 0 then .imm (decide (f.c.toNat ≤ 255)) else src 1 .b32
        mOk := m0 }
  | 0x36 => some { types := [.mxf4, .i4x], d := oneDst [.v], a := .op { kinds := [.s], regs := 8, span := 5 }, mOk := m0 }
  | 0x37 => some { types := tyF, d := oneDst [.v], a := one [.v], b := oneDst [.v], mOk := m0 }
  | 0x38 => some { types := tyF, d := oneDst [.v], a := one [.v], b := one [.v], mOk := m0 }
  | 0x39 => some (ternary f [.bf16, .f16] 1 1 1 1 .f32 (rndOk f))
  | 0x3A =>
    let x := extX f
    let n := x % 64
    let sp := f.b.toNat
    some
      { types := [.b32, .b16, .b8, .i16, .i8], wide := true
        d := block 1 n (!bit f.m.toNat 0) (port := false)
        a := one [.s] (spaceOf f).baseRegs
        b := .ctl ([0, 2, 3, 4].contains sp)
        c := .imm true
        mOk := f.m.toNat / 2 == 0
        xOk := decide (1 ≤ n) && decide (n ≤ 32) && decide (bits x 7 6 = 0) && decide (x / 2 ^ 48 = 0)
        long := true }
  | _ => none

/-- The shapes of opcodes 0x40 to 0x5E (R174 to R188, R240 to R243); BRA and CALL have fields of their own. -/
def shapeControl (opc : Nat) (f : Fields) : Option Shape :=
  let t := tyOf f.t
  let w := t.regs
  let m := f.m.toNat
  let b := f.b.toNat
  match opc with
  | 0x40 => some { d := oneDst [.p], a := one [.p], b := one [.p], mOk := decide (m ≤ 6) }
  | 0x41 =>
    let scatter := (Opnd.ofCode f.d).kind == .p
    some { d := oneDst [if scatter then .p else .s], a := one [if scatter then .s else .p], mOk := m == 0 }
  | 0x42 => some { d := oneDst [.p], a := one [.p], mOk := decide (m ≤ 2) }
  | 0x43 =>
    some { types := tyBW, d := oneDst [.v] w, a := one [.v] w
           b := .ctl (decide (b / 16 = 0) && decide (bits b 3 1 ≤ 5)), c := amount f [.v, .s, .literal]
           mOk := decide (m ≤ 3) }
  | 0x44 =>
    some { types := tyBW, d := oneDst [.v] w, a := one [.v] w, b := .ctl (decide (b = if m == 3 then 1 else 0))
           c := if m == 3 then .imm (decide (f.c.toNat ≤ 3)) else .zero, mOk := decide (m ≤ 3) }
  | 0x45 => some { types := [.i32, .n32, .f32, .b32], d := dst 1, a := one [.v], mOk := decide (m ≤ 5) && ((t == .b32) == decide (3 ≤ m)) }
  | 0x46 =>
    some { types := [.i32, .n32, .f32], d := dst 2, a := one [.v], b := ctlBits f 1
           c := amount f [.v, .s, .special, .literal], mOk := decide (m ≤ 1) }
  | 0x47 =>
    some { types := [.i32, .n32, .f32, .b32], d := oneDst [.v], a := one [.v], b := ctlBits f 1
           mOk := decide (m ≤ 5) && ((t == .b32) == decide (3 ≤ m)) }
  | 0x51 =>
    let x := extX f
    some { wide := true
           d := .ctl (brmOk f.d.toNat (bits x 15 0)), a := .ctl (brmOk f.a.toNat (bits x 31 16))
           b := .ctl (brmOk f.b.toNat (bits x 47 32)), c := .ctl (brmOk f.c.toNat (bits x 63 48)), mOk := m == 0 }
  | 0x52 | 0x54 => some { a := one [.v, .s] 2, mOk := m == 0 }
  | 0x55 | 0x56 | 0x58 | 0x5A | 0x5B | 0x5E => some (bare f)
  | 0x57 => some { b := ctlBits f 1, c := amount f [.s, .literal], mOk := m == 0 }
  | 0x59 => some { c := .imm (decide (f.c.toNat ≤ 15)), mOk := decide (m ≤ 1) }
  | 0x5C => some { b := ctlBits f 0x1F, c := amount f [.v, .s, .literal], mOk := m == 0 }
  | 0x5D =>
    some { types := tyW, a := one [.s] (spaceOf f).baseRegs, b := memCtl f [0, 1]
           c := .op { kinds := [.s, .literal], regs := w, span := w, ty := t }, mOk := decide (m ≤ 5) }
  | _ => none

/-- The shapes of opcodes 0x60 to 0x84 (R222 to R247). -/
def shapeMemory (opc : Nat) (f : Fields) : Option Shape :=
  let t := tyOf f.t
  let w := t.regs
  let m := f.m.toNat
  match opc with
  | 0x60 =>
    -- an LD may not push (R222); a share has no s destination (R224)
    let ks := if t.share then [Kind.v] else [.v, .s]
    some (memory f tyMem [0, 1] (.op { kinds := ks, regs := w, span := w, dst := true, port := false }) (long := true))
  | 0x61 => some (memory f tyMem [0, 2] (data w))
  | 0x62 => some (tile f true [0, 1])
  | 0x63 => some (tile f false [0, 2])
  | 0x64 =>
    some { memory f (tyW ++ tyBW) [0, 1, 2, 3] (dst w) (long := true) with
           c := .op { kinds := [.v, .s, .literal], regs := w, span := w, ty := t }
           mOk := decide (m ≤ 6) && ((t == .b32 || t == .b64) == decide (3 ≤ m)) }
  | 0x65 =>
    some { memory f tyBW [0, 1, 2, 3] (dst w) (long := true) with
           c := .op { kinds := [.v, .s], regs := 2 * w, span := 2 * w, kspan := 2 } }
  | 0x66 => some (memory f [.f32, .bf16] [0, 2] (one [.v, .s, .p, .f, .special]) (long := true))
  | 0x67 => some (memory f [.f32] [0, 1] (dst 1) (long := true))
  | 0x68 => some (memory f [] [0, 2] .zero)
  | 0x69 =>
    let b := f.b.toNat
    some { b := .ctl (!bit b 8 && decide (bits b 7 6 = 0) && decide (bits b 2 0 = 0) && decide (bits b 5 3 ≤ 5))
           mOk := m == 0 || (m == 1 && bits b 5 3 == 1) }
  | 0x6A | 0x6B => some (memory f [] [0] .zero)
  | 0x6C => some (memory f [] [0] (oneDst [.p]))
  | 0x6D => some { c := .imm (decide (f.c.toNat ≤ 1)), mOk := m == 0 }
  | 0x80 | 0x84 => some { a := one [.f], mOk := m == 0 }
  | 0x81 => some { d := oneDst [.p], a := one [.f], mOk := m == 0 }
  | 0x82 => some { a := .op { kinds := [.f], both := true }, c := .imm (decide (f.c.toNat ≤ 15)), mOk := m == 0 }
  | 0x83 => some { d := oneDst [.f], c := .imm (decide (f.c.toNat ≤ 15)), mOk := m == 0 }
  | _ => none

/-- The shapes of opcodes 0x90 to 0xA9 (R262 to R268, R274 to R291). -/
def shapeEngine (opc : Nat) (f : Fields) : Option Shape :=
  let t := tyOf f.t
  let m := f.m.toNat
  let b := f.b.toNat
  let c := f.c.toNat
  let x := extX f
  match opc with
  | 0x90 => some (copyShape f false true)
  | 0x91 =>
    let tiles := [0, 2, 3, 4]
    some { wide := true, d := oneDst [.k], a := one [.k], b := one [.k]
           c := .ctl (tiles.contains c), mOk := tiles.contains m
           xOk := decide (x % 8 ≤ 4) && decide (x / 16 = 0) }
  | 0x92 => some (copyShape f true (decide (x ≤ 8)))
  | 0x93 =>
    some { copyShape f true (decide (1 ≤ x) && decide (x ≤ 16)) with mOk := m / 2 == 0 }
  | 0x94 => some { a := one [.k], mOk := m == 0 }
  | 0x95 => some { b := ctlBits f 0x1F, c := amount f [.k, .literal], mOk := m == 0 }
  | 0xA0 =>
    let tb := tyOf (BitVec.ofNat 5 x)
    some { types := tyMma, wide := true
           d := if f.d == 0 then .zero else oneDst [.f]
           a := block 1 (fragA t) false (port := false), b := block 1 (fragB t tb) false (port := false)
           c := one [.cv], mOk := m == 0
           xOk := pairOk t tb && (Ty.ofCode (BitVec.ofNat 5 x)).isSome && decide (bits x 7 5 = 0) &&
             decide (bits x 15 14 = 0) && decide (x / 2 ^ 19 = 0)
           long := true }
  | 0xA1 =>
    some { wide := true, d := oneDst [.k], a := one [.k], b := one [.k], mOk := m == 0
           xOk := decide (bits x 7 6 = 0) && decide (x / 2 ^ 9 = 0) }
  | 0xA2 => some { d := dst 1, b := ctlBits f 1, c := amount f sources, mOk := m == 0 }
  | 0xA3 | 0xA7 => some { b := ctlBits f 0x7F, c := amount f sources, mOk := m == 0 }
  | 0xA4 =>
    some { a := .ctl (decide (f.a.toNat ≤ 7)), b := ctlBits f 0x7F, c := amount f sources
           mOk := decide (m ≤ 1) }
  | 0xA5 | 0xA6 =>
    some { types := [.b32, .f32, .i32], d := block 1 (countOf m) (opc == 0xA5)
           a := .ctl (decide (f.a.toNat ≤ 7) && (bit b 6 || f.a == 0)), b := ctlBits f 0x7F
           c := if bit m 2 then .imm true else .op { kinds := [.v, .s, .literal] }, mOk := true }
  | 0xA8 => some { d := oneDst [.cv], b := ctlBits f 1, c := amount f [.s, .literal], mOk := m == 0 }
  | 0xA9 => some { d := oneDst [.cv], mOk := m == 0 }
  | _ => none

/-- The shapes of opcodes 0xB0 to 0xE4 (R307, R325 to R332, R351, R248 to R251, R189 to R193). -/
def shapeSystem (opc : Nat) (f : Fields) : Option Shape :=
  let t := tyOf f.t
  let w := t.regs
  let m := f.m.toNat
  let b := f.b.toNat
  let c := f.c.toNat
  let v1 := one [.v]
  let vD := oneDst [.v]
  let pub := bit m 0
  match opc with
  | 0xB0 => some (summary f [.f32, .b32, .b64] .zero (.imm (decide (1 ≤ c) && decide (c ≤ 3) && ((t == .f32) == (c == 1)))))
  | 0xB1 => some (summary f tyF .zero (.op { kinds := [.v, .s, .literal], ty := t }))
  | 0xB2 | 0xB3 => some (summary f tyBW .zero (one [.v, .s] w))
  | 0xB4 => some (summary f [] .zero (one [.s]) (two := true))
  | 0xB5 => some (summary f [.f32] (dst 1) (.op { kinds := [.v, .s, .literal], ty := .f32 }))
  | 0xB6 => some (summary f [.f32] (dst 1) .zero)
  | 0xB7 => some (summary f tyBW (oneDst [.v] 4) (.op { kinds := sources }))
  | 0xC0 =>
    let imm := pub && bit b 0
    some (share f [.sa32] pub vD v1
      (if imm then .imm true .sa32 else if pub then .op { kinds := [.v, .s, .literal], ty := .sa32 } else v1) (decide (m ≤ 1)))
  | 0xC1 => some (share f [.sa32] false vD v1 (if pub then one [.v, .s] else v1) (decide (m ≤ 1)))
  | 0xC2 =>
    some (share f [.sa32] true vD v1 (if bit b 0 then .imm true .sa32 else .op { kinds := [.v, .s, .literal], ty := .sa32 })
      (m == 0))
  | 0xC3 =>
    some (share f [.sa32, .sx32] false (block 1 5 true (port := false)) v1 (if m == 0 then v1 else .zero)
      (m == 0 || (m == 1 && t == .sx32) || (m == 2 && t == .sa32)))
  | 0xC4 =>
    some { share f [.sa32, .sx32] false (oneDst [.f]) (.op { kinds := [.v], span := 2, both := true }) .zero (m == 0) with
           long := true }
  | 0xC5 => some (share f [.sa32, .sx32] false vD (block 1 5 false) .zero (m == 0))
  | 0xC6 => some (share f [.sa32] false vD v1 (.ctl (decide (1 ≤ c) && decide (c ≤ 31))) (m == 0))
  | 0xC7 =>
    some (share f [.sx32] false vD v1
      (if m == 0 then v1 else if m ≤ 2 then one [.v, .s] else if m == 3 then .zero else .ctl (decide (c ≤ 31)))
      (decide (m ≤ 5)))
  | 0xC8 => some (share f [.sa32] false vD (block 1 3 false) .zero (m == 0))
  | 0xC9 => some (share f [.sa32, .sx32] false vD v1 (oneDst [.f]) (m == 0))
  | 0xD0 => some (memory f tyPst [0] (data w))
  | 0xD1 => some (memory f [.n64] [0] (one [.v, .s] 2))
  | 0xD2 => some (memory f [.n64] [0] (one [.s] 2) (ks := [.s]))
  | 0xD3 => some (memory f [] [0] .zero)
  | 0xD4 => some (memory f [] [0] (oneDst [.f]))
  | 0xD5 => some (memory f [] [0, 1] vD (long := true))
  | 0xD6 => some (memory f [] [0, 2] (data 1))
  | 0xE0 | 0xE4 => some { c := .imm (decide (c ≤ 255)), mOk := m == 0 }
  | 0xE1 => some (bare f)
  | 0xE2 => (csrRow b).map (fun r => { d := dst r.1, b := .ctl true, mOk := m == 0 })
  | 0xE3 =>
    match csrRow b with
    | some (n, _, wr) =>
      some { b := .ctl (decide (wr ≠ .never)), c := src n (if n == 2 then .b64 else .b32), mOk := m == 0 }
    | none => none
  | _ => none

/-- The shape of an opcode: none for a code that R86 does not assign, or a control register that R189 does not list. -/
def shape (opc : Nat) (f : Fields) : Option Shape :=
  if opc < 0x40 then shapeCompute opc f
  else if opc < 0x60 then shapeControl opc f
  else if opc < 0x90 then shapeMemory opc f
  else if opc < 0xB0 then shapeEngine opc f
  else shapeSystem opc f

/-- Scribe-only opcodes (R89). -/
def scribeOnly (opc : Nat) : Bool := (decide (0x90 ≤ opc) && decide (opc ≤ 0x95)) || opc == 0xA1

/-- What the scribe executes (R90); BRA and CALL are 0x50 and 0x53. -/
def scribeRuns (opc : Nat) : Bool :=
  decide (opc ≤ 0x1C) || scribeOnly opc ||
    [0x60, 0x61, 0x64, 0x65, 0x69, 0x50, 0x53, 0x55, 0x56, 0x58, 0x59, 0xE2, 0xA2, 0xA3, 0xA4, 0xA7].contains opc

/-- The types that the scribe accepts for an opcode (R90, R218). -/
def scribeType (opc : Nat) (t : Ty) : Bool :=
  if opc ≤ 0x1C then [Ty.i32, .n32, .b32, .i64, .n64, .b64].contains t
  else !([Ty.f16, .bf16, .b128, .sa32, .sx32].contains t)

/-- Is the opcode on the list of R78? -/
def longLatency (opc : Nat) (f : Fields) : Bool := match shape opc f with
  | some sh => sh.long
  | none => false

end Sys2Proof.Machine
end

