-- ==== Sys2Proof/Machine/Legal.lean ====
section
/-!
DEFINITION. Which encodings are instructions (R88): the checks, each with the name under which it refuses, over the
shape of the opcode; and the opcode and the fields of every instruction constructor.
-/
namespace Sys2Proof.Machine

/-- Why bits are no instruction: ILLENC at the instruction's address, by the bullets of R88; truncated is a byte list
shorter than the length that the first word gives. -/
inductive Reject where
  | truncated | opcode | format | literal | guard | lookahead | operand | pairOdd | type | modifier | immediate
  | nonzero | scribe
  deriving DecidableEq, Repr

/-- Where an instruction stands: in scribe code or thread code, and which stream ports the group binds, bit i for
v252 + i (R12, R81). -/
structure Ctx where
  scribe : Bool
  bound  : BitVec 4
  deriving DecidableEq, Repr

/-- Thread code without stream ports. -/
def Ctx.thread : Ctx := { scribe := false, bound := 0 }

/-- Is v register i a bound port (R12)? -/
def Ctx.port (x : Ctx) (i : Nat) : Bool := decide (252 ≤ i) && x.bound.getLsbD (i - 252)

/-- Input ports are v252 and v253, output ports v254 and v255 (R11, R12). -/
def isInput (i : Nat) : Bool := i == 252 || i == 253
def isOutput (i : Nat) : Bool := i == 254 || i == 255

/-- The specials that scribe code may read (R81). -/
def scribeSpecial (n : Nat) : Bool := n == 3 || (decide (5 ≤ n) && decide (n ≤ 10)) || (decide (16 ≤ n) && decide (n ≤ 26))

/-- The kinds a use allows in scribe code: k registers where thread code has v, s or k (R81, R90). -/
def scribeKinds (opc : Nat) (u : Use) : List Kind :=
  (if u.kinds.contains .v || u.kinds.contains .s || u.kinds.contains .k then [Kind.k] else []) ++
    u.kinds.filter (fun q => q == .special || q == .literal || (q == .p && opc == 0x18 && u.dst))

/-- A port within the registers of a use (R81). -/
def portOk (x : Ctx) (u : Use) (i : Nat) : Bool :=
  if (upTo i u.span).any x.port then
    u.port && u.regs == 1 && u.span == 1 && !u.both && (if u.dst then isOutput i else isInput i)
  else true

/-- A field read as an operand code (R75, R79, R81). -/
def checkUse (x : Ctx) (opc : Nat) (u : Use) (lit : Bool) (c : Code) : Option Reject :=
  let o := Opnd.ofCode c
  let kinds := if x.scribe then scribeKinds opc u else u.kinds
  if o.kind == .literal && !lit then some .literal
  else if o.kind == .reserved || !kinds.contains o.kind then some .operand
  else match o with
    | .v i => if i % u.regs ≠ 0 then some .pairOdd else if portOk x u i then none else some .operand
    | .s i => if i % u.regs ≠ 0 then some .pairOdd else if i + u.span ≤ 64 then none else some .operand
    | .p i => if x.scribe ∧ 8 ≤ i then some .operand else none
    | .k i => if i + u.kspan ≤ 32 then none else some .operand
    | .special n => if x.scribe ∧ scribeSpecial n = false then some .operand else none
    | _ => none

/-- A field by its role. -/
def checkRole (x : Ctx) (opc : Nat) (r : Role) (lit : Bool) (c : Code) : Option Reject :=
  match r with
  | .zero => if c = 0 then none else some .nonzero
  | .ctl ok => if ok then none else some .modifier
  | .imm ok _ => if ok then none else some .immediate
  | .op u => checkUse x opc u lit c

/-- Is a field an operand that names the literal? -/
def isLit (r : Role) (c : Code) : Bool := match r with
  | .op _ => c == 0x1FF
  | _ => false

/-- L96 carries one literal, in B or C; the other formats carry none (R72, R75, R76). -/
def checkExt (sh : Shape) (f : Fields) : Option Reject :=
  let lits := (if isLit sh.b f.b then 1 else 0) + (if isLit sh.c f.c then 1 else 0)
  match f.ext with
  | .wide _ => if sh.wide then (if lits = 0 then none else some .literal) else some .format
  | .lit _ => if sh.wide then some .format else if lits = 1 then none else some .literal
  | .none => if sh.wide then some .format else if lits = 0 then none else some .literal

/-- The guard (R77, R193). -/
def checkGuard (x : Ctx) (opc : Nat) (g n : Bool) (pred : BitVec 4) : Option Reject :=
  if g then
    if opc = 0x51 ∨ opc = 0xE1 ∨ (x.scribe = true ∧ 8 ≤ pred.toNat) then some .guard else none
  else if n = true ∨ pred ≠ 0 then some .guard else none

/-- The lookahead (R78). -/
def checkLa (x : Ctx) (opc : Nat) (sh : Shape) (la : BitVec 4) : Option Reject :=
  if la = 0 then none
  else if opc = 0x23 ∨ opc = 0x39 then (if la = 1 then none else some .lookahead)
  else if sh.long = true ∧ x.scribe = false then none else some .lookahead

/-- The type (R82, R90, R218). -/
def checkType (x : Ctx) (opc : Nat) (sh : Shape) (t : BitVec 5) : Option Reject :=
  if sh.types.isEmpty then (if t = 0 then none else some .type)
  else match Ty.ofCode t with
    | some ty => if sh.types.contains ty && (!x.scribe || scribeType opc ty) then none else some .type
    | none => some .type

/-- The first refusal of a list. -/
def firstReject (l : List (Option Reject)) : Option Reject := l.findSome? id

/-- Restrictions that only scribe code has: BAR uses 8 to 15 without .arv, CSRR what R189 gives the scribe. -/
def checkScribe (opc : Nat) (f : Fields) : Option Reject :=
  if opc = 0x59 ∧ (f.c.toNat < 8 ∨ f.m ≠ 0) then some .scribe
  else if opc = 0xE2 ∧ (csrRow f.b.toNat).all (fun r => r.2.1 != .both) = true then some .scribe
  else none

/-- The checks of R88 on an instruction that is neither BRA nor CALL. A scribe-only opcode is judged by the scribe
rules wherever it stands (R81). -/
def checkFields (x : Ctx) (opc : Nat) (f : Fields) : Option Reject :=
  match shape opc f with
  | none => some .opcode
  | some sh =>
    let y : Ctx := { x with scribe := x.scribe || scribeOnly opc }
    let lit := match f.ext with
      | .lit _ => true
      | _ => false
    firstReject
      [ checkExt sh f
      , if x.scribe && !scribeRuns opc then some .scribe else none
      , checkGuard y opc f.g f.n f.pred
      , checkLa y opc sh f.la
      , checkType y opc sh f.t
      , if sh.mOk then none else some .modifier
      , if sh.xOk then none else some .nonzero
      , checkRole y opc sh.d false f.d
      , checkRole y opc sh.a false f.a
      , checkRole y opc sh.b lit f.b
      , checkRole y opc sh.c lit f.c
      , if y.scribe then checkScribe opc f else none ]

/-- The checks of R88 on BRA and CALL (R182). -/
def checkBranch (x : Ctx) (f : BranchFields) : Option Reject :=
  firstReject
    [ checkGuard x 0x50 f.g f.n f.pred
    , if f.la = 0 then none else some .lookahead
    , if f.d = 0 then none else some .nonzero ]

/-- The fields of a G64 that a compact form stands for (R87); all 32 lanes of FUSE are carried as a literal. -/
def plainFields : Fields :=
  { g := false, n := false, pred := 0, la := 0, d := 0, a := 0, b := 0, c := 0, t := 0, m := 0, ext := .none }

/-- D, A and C as v registers of a type. -/
def compactVV (t : Ty) (f : CompactFields) : Fields :=
  { plainFields with d := f.d.zeroExtend 9, a := f.a.zeroExtend 9, c := f.b.zeroExtend 9
                     t := BitVec.ofNat 5 (Ty.all.findIdx (· == t)) }

/-- D and A as v registers and IMM8 as an IMM9. -/
def compactVI (t : Ty) (signed : Bool) (f : CompactFields) : Fields :=
  { compactVV t f with b := 1, c := if signed then f.b.signExtend 9 else f.b.zeroExtend 9 }

/-- MOV: D and, in C, A. -/
def compactMov (f : CompactFields) : Fields := { compactVV .b32 f with a := 0, c := f.a.zeroExtend 9 }

def compactFuse : Fields := { plainFields with c := 0x1FF, ext := .lit 0xFFFFFFFF }

/-- Unused fields of a compact form must be zero, and scribe code has no v registers (R87). -/
def checkCompact (x : Ctx) (opc : Nat) (g : Fields) (unused : List Byte) (scribeOk : Bool) : Option Reject :=
  if unused.all (· == 0) then
    if x.scribe && !scribeOk then some .scribe else checkFields x opc g
  else some .nonzero

/-- The length that the format gives (R72). -/
def fieldsLen (f : Fields) : Nat := match f.ext with
  | .none => 8
  | .lit _ => 12
  | .wide _ => 16

/-- The opcode and the fields of an instruction other than BRA and CALL, compact forms as the G64 they stand for (R87);
the last component is the length in bytes. Events have none. -/
def codeOf : Instr → Option (Nat × Fields × Nat)
  | .add f => some (0x00, f, fieldsLen f)
  | .addC32 f => some (0x00, compactVV .i32 f, 4)
  | .addImmC32 f => some (0x00, compactVI .i32 true f, 4)
  | .sub f => some (0x01, f, fieldsLen f)
  | .subC32 f => some (0x01, compactVV .i32 f, 4)
  | .mul f => some (0x02, f, fieldsLen f)
  | .mulh f => some (0x03, f, fieldsLen f)
  | .mad f => some (0x04, f, fieldsLen f)
  | .min f => some (0x05, f, fieldsLen f)
  | .max f => some (0x06, f, fieldsLen f)
  | .abs f => some (0x07, f, fieldsLen f)
  | .neg f => some (0x08, f, fieldsLen f)
  | .and f => some (0x09, f, fieldsLen f)
  | .andC32 f => some (0x09, compactVV .b32 f, 4)
  | .or f => some (0x0A, f, fieldsLen f)
  | .orC32 f => some (0x0A, compactVV .b32 f, 4)
  | .xor f => some (0x0B, f, fieldsLen f)
  | .xorC32 f => some (0x0B, compactVV .b32 f, 4)
  | .andn f => some (0x0C, f, fieldsLen f)
  | .not f => some (0x0D, f, fieldsLen f)
  | .shl f => some (0x0E, f, fieldsLen f)
  | .shlC32 f => some (0x0E, compactVI .b32 false f, 4)
  | .shr f => some (0x0F, f, fieldsLen f)
  | .shrC32 f => some (0x0F, compactVI .n32 false f, 4)
  | .sha f => some (0x10, f, fieldsLen f)
  | .rot f => some (0x11, f, fieldsLen f)
  | .bfe f => some (0x12, f, fieldsLen f)
  | .bfi f => some (0x13, f, fieldsLen f)
  | .popc f => some (0x14, f, fieldsLen f)
  | .clz f => some (0x15, f, fieldsLen f)
  | .brev f => some (0x16, f, fieldsLen f)
  | .sel f => some (0x17, f, fieldsLen f)
  | .cmp f => some (0x18, f, fieldsLen f)
  | .mov f => some (0x19, f, fieldsLen f)
  | .movC32 f => some (0x19, compactMov f, 4)
  | .lea f => some (0x1A, f, fieldsLen f)
  | .div f => some (0x1B, f, fieldsLen f)
  | .rem f => some (0x1C, f, fieldsLen f)
  | .dot4 f => some (0x1D, f, fieldsLen f)
  | .prmt f => some (0x1E, f, fieldsLen f)
  | .fadd f => some (0x20, f, fieldsLen f)
  | .faddC32 f => some (0x20, compactVV .f32 f, 4)
  | .fsub f => some (0x21, f, fieldsLen f)
  | .fmul f => some (0x22, f, fieldsLen f)
  | .fmulC32 f => some (0x22, compactVV .f32 f, 4)
  | .ffma f => some (0x23, f, fieldsLen f)
  | .fmin f => some (0x24, f, fieldsLen f)
  | .fmax f => some (0x25, f, fieldsLen f)
  | .fabs f => some (0x26, f, fieldsLen f)
  | .fneg f => some (0x27, f, fieldsLen f)
  | .fcmp f => some (0x28, f, fieldsLen f)
  | .fclass f => some (0x29, f, fieldsLen f)
  | .frcp f => some (0x2A, f, fieldsLen f)
  | .frsq f => some (0x2B, f, fieldsLen f)
  | .fsqrt f => some (0x2C, f, fieldsLen f)
  | .fexp2 f => some (0x2D, f, fieldsLen f)
  | .flog2 f => some (0x2E, f, fieldsLen f)
  | .fsin f => some (0x2F, f, fieldsLen f)
  | .fcos f => some (0x30, f, fieldsLen f)
  | .ftanh f => some (0x31, f, fieldsLen f)
  | .fscl f => some (0x32, f, fieldsLen f)
  | .cvt f => some (0x33, f, fieldsLen f)
  | .pack2 f => some (0x34, f, fieldsLen f)
  | .qnt4 f => some (0x35, f, fieldsLen f)
  | .dqn4 f => some (0x36, f, fieldsLen f)
  | .spcmp f => some (0x37, f, fieldsLen f)
  | .spexp f => some (0x38, f, fieldsLen f)
  | .fdot2 f => some (0x39, f, fieldsLen f)
  | .vsw f => some (0x3A, f, fieldsLen f)
  | .plop f => some (0x40, f, fieldsLen f)
  | .pmov f => some (0x41, f, fieldsLen f)
  | .vote f => some (0x42, f, fieldsLen f)
  | .shfl f => some (0x43, f, fieldsLen f)
  | .qxch f => some (0x44, f, fieldsLen f)
  | .red f => some (0x45, f, fieldsLen f)
  | .redx f => some (0x46, f, fieldsLen f)
  | .scan f => some (0x47, f, fieldsLen f)
  | .bra _ => none
  | .braC32 _ => none
  | .brm f => some (0x51, f, fieldsLen f)
  | .jmpi f => some (0x52, f, fieldsLen f)
  | .call _ => none
  | .calli f => some (0x54, f, fieldsLen f)
  | .ret f => some (0x55, f, fieldsLen f)
  | .retC32 _ => some (0x55, plainFields, 4)
  | .exit f => some (0x56, f, fieldsLen f)
  | .exitC32 _ => some (0x56, plainFields, 4)
  | .fuse f => some (0x57, f, fieldsLen f)
  | .fuseC32 _ => some (0x57, compactFuse, 4)
  | .nop f => some (0x58, f, fieldsLen f)
  | .nopC32 _ => some (0x58, plainFields, 4)
  | .bar f => some (0x59, f, fieldsLen f)
  | .btake f => some (0x5A, f, fieldsLen f)
  | .bgive f => some (0x5B, f, fieldsLen f)
  | .cue f => some (0x5C, f, fieldsLen f)
  | .waitm f => some (0x5D, f, fieldsLen f)
  | .yield f => some (0x5E, f, fieldsLen f)
  | .ld f => some (0x60, f, fieldsLen f)
  | .st f => some (0x61, f, fieldsLen f)
  | .ldt f => some (0x62, f, fieldsLen f)
  | .stt f => some (0x63, f, fieldsLen f)
  | .atom f => some (0x64, f, fieldsLen f)
  | .cas f => some (0x65, f, fieldsLen f)
  | .fxadd f => some (0x66, f, fieldsLen f)
  | .fxrd f => some (0x67, f, fieldsLen f)
  | .fxclr f => some (0x68, f, fieldsLen f)
  | .fence f => some (0x69, f, fieldsLen f)
  | .pset f => some (0x6A, f, fieldsLen f)
  | .parm f => some (0x6B, f, fieldsLen f)
  | .ptest f => some (0x6C, f, fieldsLen f)
  | .sclose f => some (0x6D, f, fieldsLen f)
  | .fwait f => some (0x80, f, fieldsLen f)
  | .ftst f => some (0x81, f, fieldsLen f)
  | .fpass f => some (0x82, f, fieldsLen f)
  | .ftake f => some (0x83, f, fieldsLen f)
  | .fcan f => some (0x84, f, fieldsLen f)
  | .cpy f => some (0x90, f, fieldsLen f)
  | .cpyt f => some (0x91, f, fieldsLen f)
  | .cpyr f => some (0x92, f, fieldsLen f)
  | .cpym f => some (0x93, f, fieldsLen f)
  | .ccan f => some (0x94, f, fieldsLen f)
  | .wcue f => some (0x95, f, fieldsLen f)
  | .mmr f => some (0xA0, f, fieldsLen f)
  | .mms f => some (0xA1, f, fieldsLen f)
  | .aalloc f => some (0xA2, f, fieldsLen f)
  | .afree f => some (0xA3, f, fieldsLen f)
  | .agrant f => some (0xA4, f, fieldsLen f)
  | .ald f => some (0xA5, f, fieldsLen f)
  | .ast f => some (0xA6, f, fieldsLen f)
  | .azero f => some (0xA7, f, fieldsLen f)
  | .cvset f => some (0xA8, f, fieldsLen f)
  | .cvrst f => some (0xA9, f, fieldsLen f)
  | .sminit f => some (0xB0, f, fieldsLen f)
  | .rqs f => some (0xB1, f, fieldsLen f)
  | .rhh f => some (0xB2, f, fieldsLen f)
  | .rdc f => some (0xB3, f, fieldsLen f)
  | .smrg f => some (0xB4, f, fieldsLen f)
  | .sqnt f => some (0xB5, f, fieldsLen f)
  | .sest f => some (0xB6, f, fieldsLen f)
  | .shhq f => some (0xB7, f, fieldsLen f)
  | .sadd f => some (0xC0, f, fieldsLen f)
  | .ssub f => some (0xC1, f, fieldsLen f)
  | .smulk f => some (0xC2, f, fieldsLen f)
  | .smask f => some (0xC3, f, fieldsLen f)
  | .sxch f => some (0xC4, f, fieldsLen f)
  | .sfin f => some (0xC5, f, fieldsLen f)
  | .strn f => some (0xC6, f, fieldsLen f)
  | .sxor f => some (0xC7, f, fieldsLen f)
  | .sdab f => some (0xC8, f, fieldsLen f)
  | .srev f => some (0xC9, f, fieldsLen f)
  | .pst f => some (0xD0, f, fieldsLen f)
  | .psig f => some (0xD1, f, fieldsLen f)
  | .pwait f => some (0xD2, f, fieldsLen f)
  | .spawn f => some (0xD3, f, fieldsLen f)
  | .launch f => some (0xD4, f, fieldsLen f)
  | .tagget f => some (0xD5, f, fieldsLen f)
  | .tagset f => some (0xD6, f, fieldsLen f)
  | .trap f => some (0xE0, f, fieldsLen f)
  | .rte f => some (0xE1, f, fieldsLen f)
  | .csrr f => some (0xE2, f, fieldsLen f)
  | .csrw f => some (0xE3, f, fieldsLen f)
  | .bkpt f => some (0xE4, f, fieldsLen f)
  | .packetClose _ _ _ => none
  | .registerWrite _ => none
  | .launchCheck _ _ => none
  | .waitCounterPoll _ => none
  | .timedStart _ => none
  | .rangeHandout _ _ => none
  | .corPlacement _ _ => none
  | .groupPlacement _ => none
  | .sensorSample _ _ => none
  | .droopWindowEnd _ => none
  | .nomethodRetry _ => none
  | .stealRequest _ _ => none
  | .stealReply _ => none
  | .stealAck _ => none
  | .packetInjection _ _ => none
  | .stride _ _ _ => none
  | .relayLeg _ _ _ => none
  | .gatewayForward _ _ => none
  | .icacheFill _ _ => none
  | .issueSlot _ _ => none
  | .activeSetEntry _ _ => none
  | .longLatencyComplete _ _ => none
  | .storeDrain _ => none
  | .scribeIssue _ => none
  | .walkComplete _ _ _ => none
  | .tlbInvalidate _ => none
  | .copyStart _ => none
  | .copyBeat _ => none
  | .copyComplete _ => none
  | .remoteWriteArrival _ => none
  | .armingNotification _ _ => none
  | .holdTimeout _ => none
  | .waitmPoll _ => none
  | .pwaitPoll _ => none
  | .mmrFire _ _ => none
  | .mmrComplete _ => none
  | .cvTimeout _ _ => none
  | .mmsStep _ => none
  | .gateWords _ => none
  | .gateTimeout _ _ => none
  | .sessionCreate _ _ _ => none
  | .sessionEnd _ => none
  | .sessionExpiry _ => none
  | .linkReplay _ _ => none
  | .portDown _ => none
  | .routeTimeout _ => none
  | .peerStoreArrival _ => none
  | .signalSend _ => none
  | .signalArrival _ => none
  | .peerAck _ => none
  | .timeSample _ _ => none
  | .chunkFire _ _ => none
  | .chunkFold _ _ => none
  | .chunkTimeout _ _ => none
  | .memberTimeout _ _ => none
  | .chunkResultLand _ _ _ _ _ _ => none
  | .trapDelivery _ => none
  | .faultResume _ => none
  | .faultKill _ => none
  | .killStroke _ => none
  | .killContext _ => none
  | .killLaunch _ => none
  | .killPartition _ => none
  | .cowResolve _ _ => none
  | .pagePull _ _ => none
  | .partitionReset _ => none
  | .sliceEnd _ _ => none
  | .saveRestart _ => none
  | .partitionRestore _ _ => none
  | .launchRetire _ => none
  | .successorEnqueue _ => none
  | .unitFence _ => none
  | .telemetryPeriodEnd => none
  | .boot => none
  | .recoveryImageWrite _ _ => none
  | .recoveryReset => none
  | .componentStart _ _ => none
  | .attestationReport _ _ => none
  | .keyLoad _ => none
  | .keyDestroy _ => none
  | .powerSample _ => none
  | .thermalTrip _ => none
  | .pwrcapWrite _ => none
  | .managementReset => none
  | .partitionCreate _ => none
  | .modulePowerDown => none
  | .hostMemoryAccess _ => none
  | .summaryComplete _ => none
  | .smaskComplete _ => none
  | .droopEvent _ => none
  | .poisonScrub _ => none

/-- Is it an event of the device, and not an instruction? -/
def isEvent (i : Instr) : Bool :=
  match i with
  | .bra _ | .call _ | .braC32 _ => false
  | i => (codeOf i).isNone

/-- Is an instruction well formed where it stands? none, or the name of the check that refuses it. Events are. -/
def checkInstr (x : Ctx) (i : Instr) : Option Reject :=
  match i with
  | .bra f | .call f => checkBranch x f
  | .movC32 f => checkCompact x 0x19 (compactMov f) [f.b] false
  | .nopC32 f => checkCompact x 0x58 plainFields [f.d, f.a, f.b] true
  | .exitC32 f => checkCompact x 0x56 plainFields [f.d, f.a, f.b] true
  | .retC32 f => checkCompact x 0x55 plainFields [f.d, f.a, f.b] true
  | .fuseC32 f => checkCompact x 0x57 compactFuse [f.d, f.a, f.b] false
  | i =>
    match codeOf i with
    | some (opc, f, len) => if len = 4 then checkCompact x opc f [] false else checkFields x opc f
    | none => none

/-- The fields of a Branch-class instruction as an issue reads them: the guard. -/
def branchFields (f : BranchFields) : Fields := { plainFields with g := f.g, n := f.n, pred := f.pred, la := f.la, d := f.d }

/-- The opcode, the fields and the length with which an instruction issues. An event has none. -/
def issueCode : Instr → Option (Nat × Fields × Nat)
  | .bra f => some (0x50, branchFields f, 8)
  | .braC32 _ => some (0x50, plainFields, 4)
  | .call f => some (0x53, branchFields f, 8)
  | i => codeOf i

end Sys2Proof.Machine
end

