-- ==== Sys2Proof/Machine/Registers.lean ====
section
/-!
DEFINITION. The registers of a stroke and of a scribe context, the specials, the lookups of strokes, groups, contexts,
cores and partitions, and the reading of an instruction's operands.
-/
namespace Sys2Proof.Machine

/-! ## Keys and lookups -/

/-- The slot, core, nib and cluster of a stroke or group key. -/
def groupOf (k : Nat) : Nat := k / 32
def slotOf (g : Nat) : Nat := g % 8
def coreOf (g : Nat) : Nat := g / 8
def clusterOf (core : Nat) : Nat := core / Config.coresPerCluster

def State.stroke? (s : State) (k : Nat) : Option Stroke := mapGet? s.strokes k
def State.group? (s : State) (g : Nat) : Option Group := mapGet? s.groups g
def State.ctx? (s : State) (k : Nat) : Option ScribeCtx := mapGet? s.ctxs k
def State.part? (s : State) (p : Nat) : Option Partition := mapGet? s.parts p
def State.core (s : State) (c : Nat) : Core := mapGet s.cores c {}
def State.launch? (s : State) (l : Nat) : Option Launch := mapGet? s.launches l

def State.modStroke (s : State) (k : Nat) (g : Stroke → Stroke) : State := { s with strokes := mapMod s.strokes k g }
def State.modGroup (s : State) (k : Nat) (g : Group → Group) : State := { s with groups := mapMod s.groups k g }
def State.modCtx (s : State) (k : Nat) (g : ScribeCtx → ScribeCtx) : State := { s with ctxs := mapMod s.ctxs k g }
def State.modPart (s : State) (k : Nat) (g : Partition → Partition) : State := { s with parts := mapMod s.parts k g }
def State.modCore (s : State) (k : Nat) (g : Core → Core) : State :=
  { s with cores := mapPut s.cores k (g (s.core k)) }
def State.modLaunch (s : State) (k : Nat) (g : Launch → Launch) : State := { s with launches := mapMod s.launches k g }

/-! ## Vector, scalar, predicate and residue registers -/

/-- The key of lane l of register i. -/
def laneKey (i l : Nat) : Nat := 32 * i + l

def Regs.vGet (r : Regs) (i l : Nat) : Word := mapGet r.v (laneKey i l) 0
def Regs.tagGet (r : Regs) (i l : Nat) : BitVec 2 := mapGet r.tag (laneKey i l) 0
def Regs.poisGet (r : Regs) (i l : Nat) : Bool := mapGet r.poison (laneKey i l) false
def Regs.sGet (r : Regs) (i : Nat) : Word := mapGet r.s i 0
def Regs.pMask (r : Regs) (i : Nat) : Mask := mapGet r.p i 0
def Regs.pGet (r : Regs) (i l : Nat) : Bool := (r.pMask i).getLsbD l
def Regs.eGet (r : Regs) (i l : Nat) : Word := mapGet r.e (laneKey i l) 0
def Regs.fGet (r : Regs) (i : Nat) : Fut := mapGet r.f i .empty

/-- Writing a lane of a v register clears its mark and sets its tag (R315, R376). -/
def Regs.vSet (r : Regs) (i l : Nat) (x : Word) (tag : BitVec 2 := 0) (poison : Bool := false) : Regs :=
  { r with
    v := mapSet r.v 0 (laneKey i l) x
    tag := mapSet r.tag 0 (laneKey i l) tag
    poison := mapSet r.poison false (laneKey i l) poison }

def Regs.sSet (r : Regs) (i : Nat) (x : Word) (poison : Bool := false) : Regs :=
  { r with s := mapSet r.s 0 i x, spois := mapSet r.spois false i poison }

def Regs.pSet (r : Regs) (i l : Nat) (b : Bool) : Regs :=
  { r with p := mapSet r.p 0 i (if b then r.pMask i ||| laneBit l else r.pMask i &&& ~~~ laneBit l) }

def Regs.eSet (r : Regs) (i l : Nat) (x : Word) : Regs := { r with e := mapSet r.e 0 (laneKey i l) x }

def Regs.fSet (r : Regs) (i : Nat) (x : Fut) : Regs := { r with f := mapSet r.f .empty i x }

/-- One register write. A pair is two writes; a k register takes 64 bits. -/
def Regs.apply (r : Regs) (w : WriteBack) : Regs :=
  match w.reg with
  | .v i => r.vSet i w.lane (w.val.truncate 32) w.tag w.poison
  | .s i => r.sSet i (w.val.truncate 32) w.poison
  | .p i => r.pSet i w.lane (w.val != 0)
  | .e i => r.eSet i w.lane (w.val.truncate 32)
  | .f i => r.fSet i (.done (w.val.truncate 32))
  | .k _ => r

/-- Register writes in order. -/
def Regs.applyAll (r : Regs) (ws : List WriteBack) : Regs := ws.foldl Regs.apply r

def ScribeCtx.kGet (c : ScribeCtx) (i : Nat) : Dword := mapGet c.k i 0
def ScribeCtx.kSet (c : ScribeCtx) (i : Nat) (x : Dword) (poison : Bool := false) : ScribeCtx :=
  { c with k := mapSet c.k 0 i x, kpois := mapSet c.kpois false i poison }

/-- One register write of a scribe context: its k registers and its own predicates (R90). -/
def ScribeCtx.apply (c : ScribeCtx) (w : WriteBack) : ScribeCtx :=
  match w.reg with
  | .k i => c.kSet i w.val w.poison
  | .p i => { c with p := mapSet c.p false i (w.val != 0) }
  | _ => c

/-- Is the firmware running (R402)? Until it is, and in recovery, every agent but the boot ROM is held in reset. -/
def running (s : State) : Bool := s.sys.stage == .running

/-! ## Device time (R384) -/

/-- Device time during which a partition has not been scheduled (R384). -/
def Partition.stolenAt (p : Partition) (ns : Nat) : Nat := p.stolen + (if p.scheduled then 0 else ns - p.since)

/-- The cores of a partition: those of the clusters of its mask (R36). -/
def Partition.cores (p : Partition) : List Nat :=
  ((List.range Config.clusters).filter (bit p.mask)).flatMap (fun c => upTo (c * Config.coresPerCluster) Config.coresPerCluster)

/-- Every core of the device. -/
def allCores : List Nat := List.range (Config.clusters * Config.coresPerCluster)

/-- The cores on which a partition does not run. -/
def Partition.outNow (p : Partition) : List Nat := if p.scheduled then p.out else allCores

/-- A partition that from now on does not run on the given cores: it is scheduled while it runs on any of its own (R384). -/
def Partition.runOn (p : Partition) (ns : Nat) (out : List Nat) : Partition :=
  let on := out.isEmpty || p.cores.any (fun k => !out.contains k)
  { p with scheduled := on, out := if on then out else [], stolen := if on then p.stolenAt ns else p.stolen
           since := if p.scheduled && !on then ns else p.since }

/-- Guest time (R384). -/
def Partition.gtime (p : Partition) (ns : Nat) : Nat := ns - p.stolenAt ns - p.created

/-! ## The issuing agent -/

/-- An instruction at its issue: who issues it, its registers, its FIFO and its stroke as they stood before the cycle (R101), the
lanes of its path and the active ones (R77), and the words it popped from input ports (R236). A scribe context is one lane. -/
structure Env where
  agent : AgentId
  grp   : Nat
  regs  : Regs
  fifo  : List FifoEntry
  path  : Mask
  act   : Mask
  pc    : Dword
  opc   : Nat
  f     : Fields
  len   : Nat
  sh    : Shape
  was   : Before
  pops  : List (Nat × Map Word) := []
  deriving DecidableEq, Repr

def Env.scribe (x : Env) : Bool := match x.agent with
  | .ctx _ => true
  | .stroke _ => false

/-- The key of the issuing stroke or context. -/
def Env.key (x : Env) : Nat := match x.agent with
  | .ctx k => k
  | .stroke k => k

/-- The active lanes in ascending order. -/
def Env.lanes (x : Env) : List Nat := lanesOf x.act

/-- The type of the instruction. -/
def Env.ty (x : Env) : Ty := tyOf x.f.t

/-- The group, and its partition. -/
def Env.group (x : Env) (s : State) : Group := (s.group? x.grp).getD { part := 0, launch := 0 }
def Env.part (x : Env) (s : State) : Nat := (x.group s).part
def Env.core (x : Env) : Nat := coreOf x.grp

/-- The linear index of a thread in its group (R7). -/
def threadIndex (stroke l : Nat) : Nat := 32 * (stroke % 32) + l

/-- The flags of a lane. -/
def laneOf (s : State) (k l : Nat) : Lane := ((s.stroke? k).bind (fun st => st.lanes[l]?)).getD {}

/-- Is a lane of the issuing stroke a helper lane (R7)? A scribe context has none. -/
def Env.helper (x : Env) (s : State) (l : Nat) : Bool := !x.scribe && (laneOf s x.key l).helper

/-- The active lanes that are not helper lanes (R106). -/
def Env.workers (x : Env) (s : State) : List Nat := x.lanes.filter (fun l => !x.helper s l)

/-- A read-only special (R80); wide says that the operand is 64 bits. -/
def special (s : State) (x : Env) (l n : Nat) (wide : Bool) : Nat :=
  let g := x.group s
  let ln := laneOf s x.key l
  let t := threadIndex x.key l
  let d := g.dims
  match n with
  | 0 => l
  | 1 => l / 4
  | 2 => x.key % 32
  | 3 => slotOf x.grp
  | 4 => x.key % 4
  | 5 => x.core % Config.coresPerCluster
  | 6 => clusterOf x.core
  | 7 => g.firing
  | 8 => g.gx
  | 9 => g.gy
  | 10 => g.gz
  | 11 => if ln.helper then 0 else t % d.tx
  | 12 => if ln.helper then 0 else t / d.tx % d.ty
  | 13 => if ln.helper then 0 else t / (d.tx * d.ty)
  | 14 => if ln.helper then 1 else 0
  | 15 => if ln.eos then 1 else 0
  | 16 => s.cycle
  | 17 => match s.part? g.part with
    | some p => p.gtime s.ns
    | none => 0
  | 18 => g.part
  | 19 => 0
  | 20 => if wide then 2 ^ 64 - 1 else 2 ^ 32 - 1
  | 21 => d.gx
  | 22 => d.gy
  | 23 => d.gz
  | 24 => d.tx
  | 25 => d.ty
  | 26 => d.tz
  | _ => 0

/-- The word of a future that is not pending (R244). -/
def Fut.word : Fut → Word
  | .done w => w
  | _ => 0

/-- Lane l of v register i for an instruction: a bound input port reads as the popped word (R236); what another lane of
a port reads is a value the spec does not state (log 14). -/
def Env.vWord (x : Env) (s : State) (i l : Nat) : Word :=
  match x.pops.find? (fun p => p.1 == i) with
  | some p => (mapGet? p.2 l).getD (Config.portWord (s.fresh + l))
  | none => x.regs.vGet i l

/-- The registers first to first + n − 1 of a lane, the first lowest (R113). -/
def joinV (x : Env) (s : State) (l first : Nat) : Nat → Nat
  | 0 => 0
  | n + 1 => (x.vWord s first l).toNat + 2 ^ 32 * joinV x s l (first + 1) n

def joinS (r : Regs) (first : Nat) : Nat → Nat
  | 0 => 0
  | n + 1 => (r.sGet first).toNat + 2 ^ 32 * joinS r (first + 1) n

/-- A k register as an operand: 32-bit operands read its low half (R90); CAS reads two registers (log 16). -/
def kOperand (c : ScribeCtx) (u : Use) (i : Nat) : Nat :=
  if u.kspan = 2 then
    if u.regs ≤ 2 then (c.kGet i).toNat % 2 ^ 32 + 2 ^ 32 * ((c.kGet (i + 1)).toNat % 2 ^ 32)
    else (c.kGet i).toNat + 2 ^ 64 * (c.kGet (i + 1)).toNat
  else if u.regs = 1 then (c.kGet i).toNat % 2 ^ 32
  else (c.kGet i).toNat

/-- The value of an operand field in a lane (R79 to R83). sat is the SAT bit, which an e4m3 literal heeds. -/
def readUse (s : State) (x : Env) (l : Nat) (u : Use) (sat : Bool) (c : Code) : Nat :=
  match Opnd.ofCode c with
  | .v i => joinV x s l i u.regs
  | .s i => joinS x.regs i u.regs
  | .p i => if x.regs.pGet i l then 1 else 0
  | .k i => match s.ctx? x.key with
    | some ctx => kOperand ctx u i
    | none => 0
  | .f i => (x.regs.fGet i).word.toNat
  | .e i => (x.regs.eGet i l).toNat
  | .special n => special s x l n (u.regs == 2) % 2 ^ (32 * u.regs)
  | .literal => match x.f.ext with
    | .lit w => imm32 u.ty sat w
    | _ => 0
  | _ => 0

/-- The value of a field by its role: an operand or an immediate. -/
def readRole (s : State) (x : Env) (l : Nat) (sat : Bool) (r : Role) (c : Code) : Nat :=
  match r with
  | .op u => readUse s x l u sat c
  | .imm _ t => imm9 t c
  | _ => 0

/-- SAT of the Unary and Binary classes (R85). -/
def Env.satBit (x : Env) : Bool := bit x.f.b.toNat 1

def opD (s : State) (x : Env) (l : Nat) : Nat := readRole s x l false x.sh.d x.f.d
def opA (s : State) (x : Env) (l : Nat) : Nat := readRole s x l false x.sh.a x.f.a
def opB (s : State) (x : Env) (l : Nat) : Nat := readRole s x l false x.sh.b x.f.b
def opC (s : State) (x : Env) (l : Nat) (sat : Bool := false) : Nat := readRole s x l sat x.sh.c x.f.c

/-! ## Register use -/

/-- The registers from the first of a kind on. -/
def regRun (o : Opnd) (v s k : Nat) : List RegName :=
  match o with
  | .v i => (upTo i v).map RegName.v
  | .s i => (upTo i s).map RegName.s
  | .p i => [.p i]
  | .k i => (upTo i k).map RegName.k
  | .f i => [.f i]
  | .e i => [.e i]
  | _ => []

/-- The registers a field names, each with whether it is written; a field that is both is listed as both. -/
def usesOfRole (r : Role) (c : Code) : List (RegName × Bool) :=
  match r with
  | .op u =>
    let rs := regRun (Opnd.ofCode c) u.span u.span u.kspan
    if u.both then rs.map (·, false) ++ rs.map (·, true) else rs.map (·, u.dst)
  | _ => []

/-- The registers an instruction reads and writes (R78, R81). -/
def usesOf (sh : Shape) (f : Fields) : List (RegName × Bool) :=
  usesOfRole sh.d f.d ++ usesOfRole sh.a f.a ++ usesOfRole sh.b f.b ++ usesOfRole sh.c f.c ++ sh.extra

/-- The registers of a use that are sources. -/
def sourcesOf (sh : Shape) (f : Fields) : List RegName :=
  (usesOf sh f).filterMap (fun u => if u.2 then none else some u.1)

/-- The registers of a use that are destinations. -/
def destsOf (sh : Shape) (f : Fields) : List RegName :=
  (usesOf sh f).filterMap (fun u => if u.2 then some u.1 else none)

/-! ## Results -/

/-- The writes that put a value into a destination of n registers in a lane (R113). -/
def putV (i l : Nat) (x : Nat) (tag : BitVec 2 := 0) (poison : Bool := false) : Nat → List WriteBack
  | 0 => []
  | n + 1 =>
    { reg := .v i, lane := l, val := BitVec.ofNat 64 (x % 2 ^ 32), tag := tag, poison := poison } ::
      putV (i + 1) l (x / 2 ^ 32) tag poison n

def putS (i : Nat) (x : Nat) (poison : Bool := false) : Nat → List WriteBack
  | 0 => []
  | n + 1 =>
    { reg := .s i, lane := 0, val := BitVec.ofNat 64 (x % 2 ^ 32), poison := poison } :: putS (i + 1) (x / 2 ^ 32) poison n

/-- The writes of one destination field from each lane's value: every lane of a v, p or e register; an s register once,
with the first lane's value (R81); a k register zero-extended (R90). -/
def putDest (u : Use) (c : Code) (vals : List (Nat × Nat)) : List WriteBack :=
  match Opnd.ofCode c with
  | .v i => vals.flatMap (fun p => putV i p.1 p.2 0 false u.regs)
  | .p i => vals.map (fun p => { reg := .p i, lane := p.1, val := BitVec.ofNat 64 (p.2 % 2) })
  | .e i => vals.map (fun p => { reg := .e i, lane := p.1, val := BitVec.ofNat 64 (p.2 % 2 ^ 32) })
  | .s i => match vals with
    | p :: _ => putS i p.2 false u.regs
    | [] => []
  | .k i => match vals with
    | p :: _ => [{ reg := .k i, lane := 0, val := BitVec.ofNat 64 (if u.regs = 1 then p.2 % 2 ^ 32 else p.2) }]
    | [] => []
  | _ => []

/-- The writes of field D. -/
def putD (x : Env) (vals : List (Nat × Nat)) : List WriteBack :=
  match x.sh.d with
  | .op u => putDest u x.f.d vals
  | _ => []

end Sys2Proof.Machine
end

