-- ==== Sys2Proof/Machine/Banks.lean ====
section
/-!
DEFINITION. The banks of accumulator memory as instructions find them (R284, R286, R287), the words that ALD and AST move, and the
registers that an MMR signs with (R276, R280): what an issue must know before it begins.
-/
namespace Sys2Proof.Machine

/-! ## Banks (R284, R286, R287) -/

/-- A bank of the device: 64 of each core. -/
def bankKey (s : State) (g n : Nat) : Nat := coreOf g * Config.amemBanks + (((s.group? g).elim [] (·.banks))[n]?).getD 0

/-- Banks that a group has reserved. -/
def ownBanks (s : State) (g : Nat) : Nat := (s.group? g).elim 0 (·.banks.length)

/-- Is a bank of a group allocated? -/
def allocated (s : State) (g n : Nat) : Bool := decide (n < ownBanks s g) && bit ((s.group? g).elim 0 (·.alloc)) n

/-- The key of a word of AMEM, and reading one. -/
def amemKey (bank row col : Nat) : Nat := bank * 1024 + (row % 32) * 32 + col % 32
def MemSys.acc (m : MemSys) (k : Nat) : Word := mapGet m.amem k 0
def MemSys.accBad (m : MemSys) (k : Nat) : Bool := mapGet m.poisA k false

/-- A word of AMEM written, with its mark. -/
def MemSys.putAcc (m : MemSys) (k : Nat) (w : Word) (bad : Bool := false) : MemSys :=
  { m with amem := mapSet m.amem 0 k w, poisA := mapSet m.poisA false k bad }

/-- Does an operation still to complete write bank n of a group (R287)? -/
def bankBusy (s : State) (g n : Nat) : Bool :=
  let hits (b : Nat) : Bool := n == b || n == b + 1
  ((s.group? g).elim [] (·.cvs)).any (fun c => c.2.round.any (fun r => hits r.bank)) ||
    s.fired.any (fun r => r.group == g && hits r.bank) || s.mms.any (fun m => m.group == g && m.banks.contains n)

/-- The banks of a list that are busy. -/
def busyBanks (s : State) (g : Nat) (ns : List Nat) : List Nat := ns.filter (bankBusy s g)

/-! ## ALD and AST (R290) -/

/-- The group whose banks ALD and AST name. -/
def bankOwner (x : Env) : Nat := if bit x.f.b.toNat 6 then 8 * x.core + x.f.a.toNat % 8 else x.grp

/-- The words that lane l moves: register number, bank number, row. -/
def bankWords (x : Env) (s : State) (l : Nat) : List (Nat × Nat × Nat) :=
  let r := opC s x l % 2 ^ 32
  (List.range (countOf x.f.m.toNat)).map (fun i => (i, x.f.b.toNat % 64 + (r + i) / 32, (r + i) % 32))

/-! ## Convergence registers and the operands of an MMR (R273, R276, R280) -/

/-- A convergence register of a group. -/
def cvOf (s : State) (g c : Nat) : Cv := mapGet ((s.group? g).elim [] (·.cvs)) c {}

/-- The parameters of an MMR. -/
structure MmrOp where
  ta   : Nat
  tb   : Nat
  n    : Nat
  zero : Bool
  rua  : Bool
  rub  : Bool
  cv   : Nat
  aReg : Nat
  bReg : Nat
  deriving DecidableEq, Repr

def mmrOp (f : Fields) : MmrOp :=
  let e := extX f
  { ta := f.t.toNat, tb := bits e 4 0, n := bits e 13 8, zero := bit e 16, rua := bit e 17, rub := bit e 18
    cv := (Opnd.ofCode f.c).index, aReg := (Opnd.ofCode f.a).index, bReg := (Opnd.ofCode f.b).index }

/-- The convergence register as a signature finds it: with no round under way, latches of other types are emptied. -/
def Cv.forOp (c : Cv) (o : MmrOp) : Cv :=
  let other (l : Latch) : Bool := l.ta != o.ta || l.tb != o.tb
  if c.round.isNone && (c.latchA.any other || c.latchB.any other) then { c with latchA := none, latchB := none } else c

/-- Registers of A and of B that a signature reads: none of an operand that is latched. -/
def Cv.aCount (c : Cv) (o : MmrOp) : Nat := if c.latchA.isSome then 0 else fragA (tyOf (BitVec.ofNat 5 o.ta))
def Cv.bCount (c : Cv) (o : MmrOp) : Nat :=
  if c.latchB.isSome then 0 else fragB (tyOf (BitVec.ofNat 5 o.ta)) (tyOf (BitVec.ofNat 5 o.tb))

/-- The registers that lane l signs with. -/
def Cv.regs (c : Cv) (o : MmrOp) : List Nat := upTo o.aReg (c.aCount o) ++ upTo o.bReg (c.bCount o)

/-- The banks that lane l's instruction waits for while an operation still to complete writes them (R287). -/
def banksOf (s : State) (x : Env) (l : Nat) : List Nat :=
  let b := bits x.f.b.toNat 6 1
  match x.opc with
  | 0xA3 | 0xA4 | 0xA7 => busyBanks s x.grp (upTo b (min 64 (opC s x l % 2 ^ 32)))
  | 0xA5 | 0xA6 => busyBanks s (bankOwner x) ((bankWords x s l).map (fun w => w.2.1))
  | _ => []

/-- The registers that an instruction reads and writes, destinations marked: an MMR reads no operand that is latched (R280). -/
def readsOf (s : State) (x : Env) : List (RegName × Bool) :=
  if x.opc = 0xA0 then
    let o := mmrOp x.f
    let rs := ((cvOf s x.grp o.cv).forOp o).regs o
    (usesOf x.sh x.f).filter (fun u => match u.1 with
      | .v i => rs.contains i
      | _ => true)
  else usesOf x.sh x.f

end Sys2Proof.Machine
end

