-- ==== Sys2Proof/Machine/Memory.lean ====
section
/-!
DEFINITION. The homes of bytes (R195, R196, R336): reading and writing them, poison (R393), presence (R200), encryption
of G lines (R214), the two-stage translation (R207 to R212), the range-lock table (R202, R203), and the checks of an
access in the order of R213.
-/
namespace Sys2Proof.Machine

/-! ## Bytes at their homes -/

/-- The line of a place, in its home's numbering. -/
def Loc.line (l : Loc) : Nat := l.addr / 128
/-- The place n bytes on. -/
def Loc.plus (l : Loc) (n : Nat) : Loc := { l with addr := l.addr + n }

/-- The memory of a home. -/
def MemSys.home (m : MemSys) : Home → Memory
  | .u => m.u | .c => m.c | .d => m.d | .g => m.g | .h => m.h

/-- A home's memory with bytes written. -/
def MemSys.write (m : MemSys) (l : Loc) (bs : List Byte) : MemSys :=
  match l.home with
  | .u => { m with u := memWrite m.u l.addr bs }
  | .c => { m with c := memWrite m.c l.addr bs }
  | .d => { m with d := memWrite m.d l.addr bs }
  | .g => { m with g := memWrite m.g l.addr bs }
  | .h => { m with h := memWrite m.h l.addr bs }

/-- Is a line poisoned (R393)? An H line is, that the host link delivers with poison (R391). -/
def MemSys.poisoned (m : MemSys) (at_ : Home) (line : Nat) : Bool :=
  match at_ with
  | .u => mapGet m.poisU line false
  | .c => mapGet m.poisC line false
  | .d => mapGet m.poisD line false
  | .g => mapGet m.poisG line false
  | .h => mapGet m.poisH line false

/-- The mark of a line set or cleared. -/
def MemSys.setPoison (m : MemSys) (at_ : Home) (line : Nat) (b : Bool) : MemSys :=
  match at_ with
  | .u => { m with poisU := mapSet m.poisU false line b }
  | .c => { m with poisC := mapSet m.poisC false line b }
  | .d => { m with poisD := mapSet m.poisD false line b }
  | .g => { m with poisG := mapSet m.poisG false line b }
  | .h => { m with poisH := mapSet m.poisH false line b }

/-- Is any line of n bytes at a place poisoned? -/
def MemSys.anyPoison (m : MemSys) (l : Loc) (n : Nat) : Bool :=
  n != 0 && (upTo l.line ((l.addr + n - 1) / 128 + 1 - l.line)).any (m.poisoned l.home)

/-- The key slot's load number; 0 for an empty slot (R214, R406). -/
def keyLoad (s : State) (key : Nat) : Nat := mapGet s.sys.keys key 0

/-- Does a G line decrypt under a key? A line that nothing has stored does. -/
def keyFits (s : State) (line key : Nat) : Bool :=
  match mapGet? s.mem.keyTag line with
  | some t => t.1 == key && t.2 == keyLoad s key && keyLoad s key != 0
  | none => true

/-- The byte at a place: from a G line that does not decrypt, a byte that is not the stored one (R214, log 9). -/
def readByte (s : State) (l : Loc) : Byte :=
  if l.home = .g ∧ keyFits s l.line l.key = false then Config.garbledByte (s.fresh + l.addr)
  else memByte (s.mem.home l.home) l.addr

/-- n bytes from a place on. -/
def readBytes (s : State) (l : Loc) (n : Nat) : List Byte := (List.range n).map (fun i => readByte s (l.plus i))

/-- A G line re-encrypted under a key before it is written in part: what did not decrypt stays garbled (R214, log 9). -/
def rekeyLine (s : State) (l : Loc) : State :=
  if keyFits s l.line l.key then s
  else
    let base : Loc := { l with addr := 128 * l.line }
    { s with mem := { s.mem with g := memWrite s.mem.g base.addr (readBytes s base 128) } }

/-- Bytes written at a place within one line. -/
def writeLine (s : State) (l : Loc) (bs : List Byte) : State :=
  match l.home with
  | .g =>
    let s := rekeyLine s l
    { s with mem := { s.mem.write l bs with keyTag := mapPut s.mem.keyTag l.line (l.key, keyLoad s l.key) } }
  | _ => { s with mem := s.mem.write l bs }

/-- Bytes written from a place on, line by line. -/
def writeLines : Nat → State → Loc → List Byte → State
  | 0, s, _, _ => s
  | n + 1, s, l, bs =>
    if bs.isEmpty then s
    else
      let k := 128 - l.addr % 128
      writeLines n (writeLine s l (bs.take k)) (l.plus k) (bs.drop k)

def writeBytes (s : State) (l : Loc) (bs : List Byte) : State := writeLines (bs.length / 128 + 2) s l bs

/-- A copy that writes all of a line clears its mark; any other write leaves it (R393). -/
def writeCopy (s : State) (l : Loc) (bs : List Byte) : State :=
  let s := writeBytes s l bs
  if l.addr % 128 = 0 ∧ bs.length = 128 then { s with mem := s.mem.setPoison l.home l.line false } else s

/-- A little-endian number of n bytes at a place. -/
def readNat (s : State) (l : Loc) (n : Nat) : Nat := bytesNat (readBytes s l n)
def writeNat (s : State) (l : Loc) (n x : Nat) : State := writeBytes s l (natBytes n x)

/-! ## Presence (R200) -/

/-- The presence bit of a U line. -/
def State.present (s : State) (line : Nat) : Bool := !(mapGet s.mem.clear line false)

def State.setPresent (s : State) (line : Nat) (b : Bool) : State :=
  { s with mem := { s.mem with clear := mapSet s.mem.clear false line (!b) } }

/-! ## U, P and C addresses (R195, R196) -/

/-- The first U byte of a core in the U home. -/
def uBase (core : Nat) : Nat := core * Config.uBytes

/-- The home and line that a line identifier names. -/
def linePlace : LineId → Option (Home × Nat)
  | .u core line => some (.u, uBase core / 128 + line)
  | .c cluster line => some (.c, cluster * Config.clusterBytes / 128 + line)
  | .d line => some (.d, line)
  | .g line => some (.g, line)
  | .row _ _ | .amem _ _ _ => none

/-- Does the device have a line (R1)? -/
def lineOk : LineId → Bool
  | .u core line => decide (core < Config.coresPerCluster * Config.clusters) && decide (line < Config.uBytes / 128)
  | .c cluster line => decide (cluster < Config.clusters) && decide (line < Config.clusterBytes / 128)
  | .d line => decide (line < Config.dBytes / 128)
  | .g line => decide (line < Config.gBytes / 128)
  | .row _ reg => decide (reg < 256)
  | .amem core bank word => decide (core < Config.coresPerCluster * Config.clusters) && decide (bank < Config.amemBanks) && decide (word < 1024)

/-- The keys in AMEM of the 32 words of the 128 bytes that a word lies in. -/
def amemLine (core bank word : Nat) : List Nat := upTo ((Config.amemBanks * core + bank) * 1024 + word / 32 * 32) 32

/-- What a line, a register row or 128 bytes of a bank hold, a G line under a key, and whether they are marked. -/
def lineBytes (s : State) (key : Nat) : LineId → List Byte × Bool
  | .row k r =>
    let g := ((s.stroke? k).getD { group := 0, index := 0 }).regs
    ((List.range 32).flatMap (fun l => natBytes 4 (mapGet g.v (32 * r + l) 0).toNat), (List.range 32).any (fun l => mapGet g.poison (32 * r + l) false))
  | .amem core bank word =>
    let ks := amemLine core bank word
    (ks.flatMap (fun k => natBytes 4 (mapGet s.mem.amem k 0).toNat), ks.any (fun k => mapGet s.mem.poisA k false))
  | line => match linePlace line with
    | some p => (readBytes s { home := p.1, addr := 128 * p.2, key := key } 128, s.mem.poisoned p.1 p.2)
    | none => ([], false)

/-- The mark of a line, a register row or 128 bytes of a bank set or cleared. -/
def setMark (s : State) (line : LineId) (b : Bool) : State := match line with
  | .row k r => s.modStroke k (fun st => { st with regs := { st.regs with
      poison := (List.range 32).foldl (fun m l => mapSet m false (32 * r + l) b) st.regs.poison } })
  | .amem core bank word => { s with mem := { s.mem with
      poisA := (amemLine core bank word).foldl (fun m k => mapSet m false k b) s.mem.poisA } }
  | line => match linePlace line with
    | some p => { s with mem := s.mem.setPoison p.1 p.2 b }
    | none => s

/-- The place of a U offset of a group: its allotment below the stack regions. -/
def uLoc (s : State) (g a n : Nat) : Option Loc :=
  match s.group? g with
  | some gr => if a + n ≤ gr.units * 256 then some { home := .u, addr := uBase (coreOf g) + gr.ubase + a } else none
  | none => none

/-- The group that a P address names (R195). -/
def peerGroup (s : State) (g a : Nat) : Option Nat :=
  let core := bits a 31 24
  if core < Config.coresPerCluster then
    let t := 8 * (clusterOf (coreOf g) * Config.coresPerCluster + core) + bits a 23 21
    match s.group? g, s.group? t with
    | some gr, some tg => if tg.part = gr.part ∧ tg.retired = false then some t else none
    | _, _ => none
  else none

def pLoc (s : State) (g a n : Nat) : Option Loc :=
  match peerGroup s g a with
  | some t => uLoc s t (bits a 20 0) n
  | none => none

/-- The place of a C offset in the window of a partition on a cluster (R196). -/
def cLoc (s : State) (part cluster a n : Nat) : Option Loc :=
  match s.part? part with
  | some p =>
    let w := mapGet p.cwin cluster []
    if a + n ≤ Config.sliceBytes * w.length then
      match w[a / 128 % w.length]? with
      | some slice =>
        some { home := .c, addr := cluster * Config.clusterBytes + slice * Config.sliceBytes +
          a / 128 / w.length * 128 + a % 128 }
      | none => none
    else none
  | none => none

/-! ## Translation (R207 to R212) -/

/-- A leaf of a walk: page size, output base, permissions R W X, and what stage 2 adds. -/
structure Leaf where
  size  : Nat
  out   : Nat
  perms : BitVec 3
  kind  : Nat := 0
  key   : Nat := 0
  share : Bool := false
  cow   : Bool := false
  deriving DecidableEq, Repr

/-- Bits below a level's index (R207). -/
def levelShift : Nat → Nat
  | 0 => 39 | 1 => 30 | 2 => 21 | _ => 12

/-- The index of an address at a level. -/
def levelIndex (lvl a : Nat) : Nat := if lvl = 0 then bits a 56 39 else (a >>> levelShift lvl) % 512

/-- Entries of a run by its code, where the level allows it (R207, R208). -/
def runLength (lvl run : Nat) : Option Nat :=
  match lvl, run with
  | _, 0 => some 1
  | 2, 2 => some 16
  | 3, 1 => some 4
  | 3, 2 => some 16
  | 3, 3 => some 64
  | _, _ => none

/-- What an entry of a level is: invalid or malformed, the next table, or a leaf. -/
inductive Entry where
  | bad
  | table (at_ : Nat)
  | leaf (l : Leaf)
  deriving DecidableEq, Repr

/-- The leaf of an entry, where its run is allowed and no output bit stands below the page, which for a run is the whole run: each of
the run's entries holds its first output address (R208). -/
def leafOf (lvl run out : Nat) (l : Leaf) : Entry :=
  match runLength lvl run with
  | some n =>
    let size := n * 2 ^ levelShift lvl
    if lvl = 0 ∨ out % size ≠ 0 then .bad else .leaf { l with size := size, out := out }
  | none => .bad

/-- A stage-1 entry (R209). DESIGN CHOICE: one with a reserved bit set is malformed (log 30). -/
def entry1 (lvl w : Nat) : Entry :=
  let oa := bits w 56 12 * 4096
  if bit w 0 = false ∨ bits w 63 62 ≠ 0 ∨ bits w 11 2 ≠ 0 then .bad
  else if bit w 1 then
    leafOf lvl (bits w 61 60) oa { size := 0, out := 0, perms := BitVec.ofNat 3 (bits w 59 57) }
  else if lvl = 3 ∨ bits w 61 60 ≠ 0 then .bad
  else .table oa

/-- A stage-2 entry (R210). DESIGN CHOICE: one with a reserved bit set is malformed (log 30). -/
def entry2 (lvl w : Nat) : Entry :=
  let pa := bits w 44 12 * 4096
  if bit w 0 = false ∨ bits w 9 2 ≠ 0 then .bad
  else if bit w 1 then
    if bits w 11 10 = 3 then .bad
    else leafOf lvl (bits w 51 50) pa
      { size := 0, out := 0, perms := BitVec.ofNat 3 (bits w 47 45), kind := bits w 11 10, key := bits w 63 52
        share := bit w 49, cow := bit w 48 }
  else if lvl = 3 ∨ bits w 51 50 ≠ 0 then .bad
  else .table pa

/-- The physical address of an IPA under its leaf. -/
def Leaf.phys (l : Leaf) (a : Nat) : Nat := l.out + a % l.size

/-- Does a physical address of a stage-2 KIND exist (R1)? Those of H are the host's. -/
def exists_ (kind pa : Nat) : Bool := match kind with
  | 0 => decide (pa < Config.gBytes)
  | 1 => decide (pa < Config.dBytes)
  | _ => true

/-- May a physical address be reached: it exists, and the host's IOMMU does not refuse it (R1, R362)? -/
def reaches (s : State) (kind pa : Nat) : Bool := exists_ kind pa && !(kind == 2 && s.sys.refused.contains (pa / 4096))

/-- A stage-2 walk from a table at a physical G address: fuel is the levels left. A page or a table where no memory is, is one that
stage 2 does not map (log 26), and so is a page that the host's IOMMU refuses (DESIGN CHOICE, log 30). -/
def walk2From (s : State) (ipa : Nat) : Nat → Nat → Nat → Option Leaf
  | 0, _, _ => none
  | fuel + 1, lvl, tab =>
    let at_ := tab + 8 * levelIndex lvl ipa
    if exists_ 0 at_ = false then none
    else match entry2 lvl (bytesNat (memRead s.mem.g at_ 8)) with
    | .bad => none
    | .leaf l => if reaches s l.kind (l.phys ipa) then some l else none
    | .table t => walk2From s ipa fuel (lvl + 1) t

/-- The stage-2 leaf of an IPA of a partition, none where stage 2 is not valid or is malformed. -/
def walk2 (s : State) (part ipa : Nat) : Option Leaf :=
  match s.part? part with
  | some p => if bits ipa 63 57 = 0 then walk2From s ipa 4 0 p.s2root else none
  | none => none

/-- The home of a stage-2 KIND. -/
def homeOfKind : Nat → Home
  | 1 => .d | 2 => .h | _ => .g

/-- The place of an IPA under its leaf. -/
def Leaf.loc (l : Leaf) (ipa : Nat) : Loc :=
  { home := homeOfKind l.kind, addr := l.phys ipa, key := if l.kind = 0 then l.key else 0 }

/-- Reading a stage-1 entry: its table address is an IPA that stage 2 translates (R207). -/
def readEntry1 (s : State) (part ipa : Nat) : Option Nat :=
  match walk2 s part ipa with
  | some l => if l.perms.getLsbD 0 then some (readNat s (l.loc ipa) 8) else none
  | none => none

/-- Why a walk ends: PAGEFAULT with the address, or S2FAULT with the IPA (R211). -/
inductive WalkFault where
  | page
  | stage2 (ipa : Nat)
  deriving DecidableEq, Repr

def walk1From (s : State) (part va : Nat) : Nat → Nat → Nat → Except WalkFault Leaf
  | 0, _, _ => .error .page
  | fuel + 1, lvl, tab =>
    let idx := levelIndex lvl va
    match readEntry1 s part (tab + 8 * idx) with
    | none => .error (.stage2 (tab + 8 * idx))
    | some w =>
      match entry1 lvl w with
      | .bad => .error .page
      | .leaf l => .ok l
      | .table t => walk1From s part va fuel (lvl + 1) t

/-- Are bits [63:57] all equal to bit 56 (R207)? -/
def canonical (va : Nat) : Bool := bits va 63 56 == 0 || bits va 63 56 == 255

/-- The page of a fresh walk of both stages, as a cached entry (R212): the smaller of the two page sizes. It is a share page if it is a
page of G or D with SHARE set (R317). -/
def walkPage (s : State) (part va : Nat) : Except WalkFault TlbEntry :=
  if canonical va then
    match s.part? part with
    | none => .error .page
    | some p =>
      match walk1From s part va 4 0 p.s1root with
      | .error e => .error e
      | .ok l1 =>
        let ipa := l1.phys (bits va 56 0)
        match walk2 s part ipa with
        | none => .error (.stage2 ipa)
        | some l2 =>
          let size := min l1.size l2.size
          .ok { part := part, va := va / size * size, size := size, pa := l2.phys (ipa / size * size), kind := l2.kind
                key := l2.key, share := l2.share && decide (l2.kind < 2), cow := l2.cow, s1 := l1.perms, s2 := l2.perms }
  else .error .page

/-- The cached translation of an address on a core: the core's own, else its cluster's (R212). -/
def cachedPage (s : State) (core part va : Nat) : Option TlbEntry :=
  let hit (e : TlbEntry) : Bool := e.part == part && decide (e.va ≤ va) && decide (va < e.va + e.size)
  ((s.core core).tlb.find? hit).or ((mapGet s.shared (clusterOf core) []).find? hit)

def TlbEntry.phys (e : TlbEntry) (va : Nat) : Nat := e.pa + (va - e.va)

/-- What a cached translation says of an address. -/
def TlbEntry.means (e : TlbEntry) (va : Nat) : Nat × Nat × Nat × Bool × Bool × BitVec 3 × BitVec 3 :=
  (e.phys va, e.kind, e.key, e.share, e.cow, e.s1, e.s2)

/-- The translation an access uses: the walk's, or, where a cached one differs from it and leads to memory, either (R212, log 8). -/
def pageOf (s : State) (core part va : Nat) : Except WalkFault TlbEntry :=
  let now := walkPage s part va
  match cachedPage s core part va with
  | none => now
  | some e =>
    let same := match now with
      | .ok p => decide (p.means va = e.means va)
      | .error _ => false
    if same || !reaches s e.kind (e.phys va) then now else if Config.oldTranslation (s.fresh + va) then .ok e else now

/-! ## Range locks (R202, R203) -/

/-- The bytes that an access names, in the terms of the lock table (R203). -/
structure LockRange where
  home : Home
  part : Nat
  lo   : Nat
  hi   : Nat
  deriving DecidableEq, Repr

/-- The ranges of an entry. -/
def Lock.spans (k : Lock) : List (Nat × Nat) := (k.lo, k.hi) :: k.more

def Lock.meets (k : Lock) (r : LockRange) : Bool :=
  k.home == r.home && k.part == r.part && k.spans.any (fun z => decide (z.1 < r.hi) && decide (r.lo < z.2))

/-- Kinds of access (R210, R375). -/
inductive Acc where
  | load | store | atomic | fetch
  deriving DecidableEq, Repr

def Acc.writes : Acc → Bool
  | .store | .atomic => true
  | _ => false

def Acc.code : Acc → Nat
  | .load => 0 | .store => 1 | .atomic => 2 | .fetch => 3

/-- Is an access to a range refused by the core's table (R203)? A load of U never is. -/
def lockedOut (s : State) (core : Nat) (r : LockRange) (acc : Acc) (isU : Bool) : Bool :=
  (s.core core).locks.any (fun k => k.meets r && (acc.writes || (k.kind == .dest && !isU)))

/-! ## The checks of an access (R213) -/

/-- Trap causes (R366). -/
def cILLENC : Nat := 0x01
def cFETCHX : Nat := 0x02
def cREGRANGE : Nat := 0x03
def cPRIV : Nat := 0x04
def cNOTSCRIBE : Nat := 0x05
def cMISALIGN : Nat := 0x06
def cSPACE : Nat := 0x07
def cPAGEFAULT : Nat := 0x08
def cS2FAULT : Nat := 0x09
def cPROT : Nat := 0x0A
def cRANGELOCK : Nat := 0x0B
def cPOISON : Nat := 0x0C
def cSHARETAG : Nat := 0x0D
def cGATEPROV : Nat := 0x0E
def cCVTIMEOUT : Nat := 0x0F
def cCVDOUBLE : Nat := 0x10
def cAMEMOWN : Nat := 0x11
def cAMEMWR : Nat := 0x12
def cSTACKOVF : Nat := 0x14
def cSWTRAP : Nat := 0x15
def cBKPT : Nat := 0x16
def cPAGELOST : Nat := 0x17
def cSESSION : Nat := 0x18
def cSTREAM : Nat := 0x19
def cTAGMISMATCH : Nat := 0x1A
def cBATON : Nat := 0x1B

/-- A cause that a check meets: its place in the order of R213, the cause, the faulting address (an IPA for a stage-2
walk) and the kind of access. -/
structure Bad where
  order : Nat
  cause : Nat
  addr  : Nat
  acc   : Acc
  deriving DecidableEq, Repr

/-- Whose access it is. -/
structure Who where
  grp  : Nat
  part : Nat
  core : Nat
  deriving DecidableEq, Repr

/-- What an access is: its space, the spaces accepted, size, alignment, kind; what it wants of the page's SHARE bit
(none: no wish), and whether its data carry a share tag (R213, R224, R316). -/
structure Want where
  space  : Space
  spaces : List Space
  size   : Nat
  align  : Nat
  acc    : Acc
  share  : Bool := false
  deriving DecidableEq, Repr

/-- Where an access lands: the place, and its range in the lock table. -/
structure Landing where
  loc   : Loc
  range : LockRange
  deriving DecidableEq, Repr

def spaceKind : Space → Nat
  | .D => 1 | .H => 2 | _ => 0

/-- Steps 4 to 9 of R213 for a virtual address. -/
def landVirtual (s : State) (w : Who) (q : Want) (va : Nat) : Except Bad Landing :=
  match pageOf s w.core w.part va with
  | .error .page => .error ⟨4, cPAGEFAULT, va, q.acc⟩
  | .error (.stage2 ipa) => .error ⟨5, cS2FAULT, ipa, q.acc⟩
  | .ok p =>
    let need (b : BitVec 3) : Bool := match q.acc with
      | .load => b.getLsbD 0
      | .store => b.getLsbD 1
      | .atomic => b.getLsbD 0 && b.getLsbD 1
      | .fetch => b.getLsbD 2
    if p.kind ≠ spaceKind q.space then .error ⟨6, cSPACE, va, q.acc⟩
    else if need p.s1 = false then .error ⟨7, cPROT, va, q.acc⟩
    else if need p.s2 = false ∨ (p.cow = true ∧ q.acc.writes = true) then .error ⟨8, cS2FAULT, va, q.acc⟩
    else if p.share ≠ q.share then .error ⟨9, cSHARETAG, va, q.acc⟩
    else .ok
      { loc := { home := homeOfKind p.kind, addr := p.phys va, key := if p.kind = 0 then p.key else 0 }
        range := { home := homeOfKind p.kind, part := w.part, lo := va, hi := va + q.size } }

/-- Where an address of a space lands, or the first cause it meets, steps 2 to 9 of R213. -/
def land (s : State) (w : Who) (q : Want) (a : Nat) : Except Bad Landing :=
  if q.align ≠ 0 ∧ a % q.align ≠ 0 then .error ⟨2, cMISALIGN, a, q.acc⟩
  else if q.spaces.contains q.space = false then .error ⟨3, cSPACE, a, q.acc⟩
  else match q.space with
    | .U => match uLoc s w.grp a q.size with
      | some l =>
        if q.share then .error ⟨9, cSHARETAG, a, q.acc⟩
        else .ok { loc := l, range := { home := .u, part := w.part, lo := l.addr, hi := l.addr + q.size } }
      | none => .error ⟨4, cPROT, a, q.acc⟩
    | .P => match pLoc s w.grp a q.size with
      | some l =>
        if q.share then .error ⟨9, cSHARETAG, a, q.acc⟩
        else .ok { loc := l, range := { home := .u, part := w.part, lo := l.addr, hi := l.addr + q.size } }
      | none => .error ⟨4, cPROT, a, q.acc⟩
    | .C => match cLoc s w.part (clusterOf w.core) a q.size with
      | some l =>
        if q.share then .error ⟨9, cSHARETAG, a, q.acc⟩
        else .ok { loc := l, range := { home := .c, part := w.part, lo := a, hi := a + q.size } }
      | none => .error ⟨4, cPROT, a, q.acc⟩
    | _ => landVirtual s w q a

/-- Steps 2 to 10 of R213 for one address. -/
def check (s : State) (w : Who) (q : Want) (a : Nat) : Except Bad Landing :=
  match land s w q a with
  | .error e => .error e
  | .ok r =>
    if lockedOut s w.core r.range q.acc (q.space == .U) then .error ⟨10, cRANGELOCK, a, q.acc⟩ else .ok r

/-- The first cause, in the order of R213, that any lane meets, with the lanes that meet it (R213). -/
def firstBad (rs : List (Nat × Except Bad Landing)) : Option (Bad × Mask) :=
  let bads := rs.filterMap (fun r => match r.2 with
    | .error b => some (r.1, b)
    | .ok _ => none)
  match bads with
  | [] => none
  | b0 :: bs =>
    let b := bs.foldl (fun m b => if b.2.order < m.2.order then b else m) b0
    some (b.2, (bads.filter (fun c => c.2.order == b.2.order && c.2.cause == b.2.cause)).foldl
      (fun m c => m ||| laneBit c.1) 0)

/-- Every address of an instruction checked before any access (R213): where each lands, or the first cause. -/
def checkAll (s : State) (w : Who) (q : Want) (addrs : List (Nat × Nat)) : Except (Bad × Mask) (List (Nat × Landing)) :=
  let rs := addrs.map (fun a => (a.1, check s w q a.2))
  match firstBad rs with
  | some b => .error b
  | none => .ok (rs.filterMap (fun r => match r.2 with
    | .ok l => some (r.1, l)
    | .error _ => none))

/-! ## The store FIFO (R223, R227, R336) -/

/-- The value that an atomic writes (R225). -/
def atomNew (op : AtomOp) (w : Nat) (signed : Bool) (old x : Nat) : Nat :=
  let lt := if signed then decide (sext w old < sext w x) else decide (old < x)
  match op with
  | .add => (old + x) % 2 ^ w
  | .min => if lt then old else x
  | .max => if lt then x else old
  | .and => old &&& x
  | .or => old ||| x
  | .xor => old ^^^ x
  | .exch => x

/-- The pieces that an entry of a store FIFO writes as plain bytes, in its order. -/
def FifoEntry.pieces : FifoEntry → List (Loc × List Byte)
  | .store m bs => [(m, bs)]
  | .remote _ ps _ _ => ps.map (fun p => ({ home := .u, addr := p.1 }, p.2))
  | _ => []

/-- A byte with a piece laid over it. -/
def overlay (l : Loc) (b : Byte) (p : Loc × List Byte) : Byte :=
  if p.1.home = l.home ∧ p.1.addr ≤ l.addr then (p.2[l.addr - p.1.addr]?).getD b else b

/-- A load's bytes with the stroke's own stores of its FIFO laid over them, oldest first (R222, R338). -/
def forwardByte (fifo : List FifoEntry) (l : Loc) (b : Byte) : Byte := (fifo.flatMap FifoEntry.pieces).foldl (overlay l) b

/-- n bytes as the stroke reads them. -/
def loadBytes (s : State) (fifo : List FifoEntry) (l : Loc) (n : Nat) : List Byte :=
  (List.range n).map (fun i => forwardByte fifo (l.plus i) (readByte s (l.plus i)))

/-- The bytes that an entry other than a plain store updates at its unit: a load of them waits for it (R227, R336). -/
def FifoEntry.unitAt : FifoEntry → Option (Loc × Nat)
  | .atom l w .. => some (l, w / 8)
  | .cas l w .. => some (l, w / 8)
  | .fxadd l .. => some (l, 64)
  | .fxclr l => some (l, 64)
  | .retag l _ => some (l, 4)
  | _ => none

/-- Does the FIFO hold an operation at a unit on some of these bytes? -/
def unitPending (fifo : List FifoEntry) (l : Loc) (n : Nat) : Bool :=
  fifo.any (fun e => match e.unitAt with
    | some (m, k) => m.home == l.home && decide (m.addr < l.addr + n) && decide (l.addr < m.addr + k)
    | none => false)

end Sys2Proof.Machine
end

