-- ==== Sys2Proof/Machine/Streams.lean ====
section
/-!
DEFINITION. Stream rings (R12, R235 to R239): their control words, the words in flight of pushes, and what a pop and a
push find.
-/
namespace Sys2Proof.Machine

/-- A bound port of a group: whether the ring lies in C, its lines and its offset (R12). -/
structure Binding where
  inC    : Bool
  lines  : Nat
  offset : Nat
  deriving DecidableEq, Repr

/-- The binding of port i (v252 + i), none where it is not bound (R12). -/
def bindingOf (gr : Group) (i : Nat) : Option Binding :=
  let w := ((gr.streams[i]?).getD 0).toNat
  if bit w 63 then some { inC := bit w 62, lines := bits w 47 32, offset := bits w 31 0 } else none

/-- Which ports a group binds. -/
def boundPorts (gr : Group) : BitVec 4 :=
  BitVec.ofNat 4 ((List.range 4).foldl (fun m i => if (bindingOf gr i).isSome then m + 2 ^ i else m) 0)

/-- A byte of a ring. -/
def ringLoc (s : State) (g : Nat) (b : Binding) (off : Nat) : Option Loc :=
  if b.inC then cLoc s ((s.group? g).elim 0 (·.part)) (clusterOf (coreOf g)) (b.offset + off) 4
  else uLoc s g (b.offset + off) 4

/-- Words of a ring: 32 for each line after the control line (R235). -/
def Binding.cap (b : Binding) : Nat := 32 * (b.lines - 1)

/-- A 32-bit control word of a ring, read at its unit. -/
def ringWord (s : State) (g : Nat) (b : Binding) (off : Nat) : Nat :=
  match ringLoc s g b off with
  | some l => readNat s l 4
  | none => 0

def ringPut (s : State) (g : Nat) (b : Binding) (off x : Nat) : State :=
  match ringLoc s g b off with
  | some l => writeNat s l 4 x
  | none => s

/-- HEAD, TAIL, and whether the ring is closed (R235). -/
structure RingView where
  head   : Nat
  tail   : Nat
  closed : Bool
  broken : Bool
  deriving DecidableEq, Repr

def ringView (s : State) (g : Nat) (b : Binding) : RingView :=
  let h := ringWord s g b 0
  let t := ringWord s g b 4
  let prod := ringWord s g b 12
  let reserved := (List.range 28).any (fun i => ringWord s g b (16 + 4 * i) != 0)
  { head := h, tail := t, closed := decide ((if prod = 0 then 1 else prod) ≤ ringWord s g b 8)
    broken := decide (b.cap < (t + 2 ^ 32 - h) % 2 ^ 32) || reserved }

/-- Words in the ring. -/
def RingView.count (v : RingView) : Nat := (v.tail + 2 ^ 32 - v.head) % 2 ^ 32

/-- The place of word i of the stream. -/
def ringSlot (b : Binding) (i : Nat) : Nat := 128 + 4 * (i % b.cap)

/-- Words already reserved in a ring beyond its TAIL (R237). -/
def reservedIn (s : State) (ring : Loc) : Nat := (s.resv.filter (fun r => r.ring == ring)).foldl (fun n r => n + r.m) 0

/-- Writing the words of a reservation. -/
def ringFill (s : State) (g : Nat) (b : Binding) : Nat → List Word → State
  | _, [] => s
  | i, w :: ws => ringFill (ringPut s g b (ringSlot b i) w.toNat) g b (i + 1) ws

/-- TAIL advances over the reservations of a ring whose words are written, oldest first, up to one that waits (R237). -/
def ringAdvance (s : State) (ring : Loc) : List Resv → State × List Resv
  | [] => (s, [])
  | r :: rs =>
    if r.ring = ring then
      if r.ready then
        match (s.group? r.group).bind (fun gr => bindingOf gr r.port) with
        | some b =>
          let s := ringFill s r.group b r.start r.vals
          ringAdvance (ringPut s r.group b 4 ((r.start + r.m) % 2 ^ 32)) ring rs
        | none => ringAdvance s ring rs
      else (s, r :: rs)
    else
      let q := ringAdvance s ring rs
      (q.1, r :: q.2)

def State.advanceRing (s : State) (ring : Loc) : State :=
  let q := ringAdvance s ring s.resv
  { q.1 with resv := q.2 }

/-- The words that operation op was to push have come. -/
def resvReady (s : State) (op : Nat) (vals : List Word) : State :=
  match s.resv.find? (fun r => r.op == op) with
  | some r =>
    State.advanceRing { s with resv := s.resv.map (fun q => if q.op = op then { q with vals := vals, ready := true } else q) }
      r.ring
  | none => s

/-- The lanes' words of a pop, in lane order: the first k of them from the ring, 0 beyond (R236). -/
def popWords (s : State) (g : Nat) (b : Binding) (head k : Nat) : Nat → List Nat → Map Word
  | _, [] => []
  | j, l :: ls =>
    (l, if j < k then BitVec.ofNat 32 (ringWord s g b (ringSlot b (head + j))) else 0) :: popWords s g b head k (j + 1) ls

/-- The port and the arrival number of a stroke's waiting pop, or of its waiting push. -/
def Park.streamWait (push : Bool) : Park → Option (Nat × Nat)
  | .pop p _ q => if push then none else some (p, q)
  | .push p _ q => if push then some (p, q) else none
  | _ => none

/-- Does another stroke wait with a pop, or with a push, on the same ring since before seq? Waiting operations are served in the order
of their arrival; a pop waits for words and a push for room, and neither for the other (R235, R239, log 17). -/
def ringBehind (s : State) (push : Bool) (ring : Loc) (seq self : Nat) : Bool :=
  s.strokes.any (fun e => e.1 != self && match e.2.park.bind (Park.streamWait push) with
    | some (p, q) =>
      decide (q < seq) && (match (s.group? e.2.group).bind (fun gr => bindingOf gr (p - 252)) with
        | some b => ringLoc s e.2.group b 0 == some ring
        | none => false)
    | none => false)

/-- Has a stroke pushes to a ring that have not advanced its TAIL (R238)? -/
def pushesOut (s : State) (ring : Loc) (stroke : Nat) : Bool := s.resv.any (fun r => r.ring == ring && r.stroke == stroke)

end Sys2Proof.Machine
end

