-- ==== Sys2Proof/Machine/Delivery.lean ====
section
/-!
DEFINITION. What comes back to strokes: results of operations in flight (R78, R186), futures (R244), and the reads and
writes at units that a store FIFO performs (R223, R227).
-/
namespace Sys2Proof.Machine

/-- A future that operation op was behind, done. -/
def Fut.finish (op : Nat) (w : Word) (f : Fut) : Fut := if f = .pending op then .done w else f

def futsFinish (op : Nat) (w : Word) (m : Map Fut) : Map Fut := m.map (fun e => (e.1, e.2.finish op w))

/-- Operation op ends with a result word: whoever holds its future sees it done, a saved partition too (R244, R246). -/
def futureDone (s : State) (op : Nat) (w : Word) : State :=
  let st (m : Map Stroke) : Map Stroke :=
    m.map (fun e => (e.1, { e.2 with regs := { e.2.regs with f := futsFinish op w e.2.regs.f } }))
  let gr (m : Map Group) : Map Group := m.map (fun e => (e.1, { e.2 with futs := futsFinish op w e.2.futs }))
  { s with
    strokes := st s.strokes
    groups := gr s.groups
    parts := s.parts.map (fun e =>
      (e.1, { e.2 with save := { e.2.save with strokes := st e.2.save.strokes, groups := gr e.2.save.groups } })) }

/-- A result for an operation in flight of a stroke. -/
def deliver (s : State) (k op : Nat) (ws : List WriteBack) : State :=
  s.modStroke k (fun st => { st with
    inflight := st.inflight.map (fun i =>
      if i.id = op then { i with result := i.result ++ ws, waitFor := i.waitFor - 1 } else i) })

/-- The lanes of a stroke that are live (R93). -/
def liveMask (st : Stroke) : Mask := maskOf (fun l => ((st.lanes[l]?).getD { live := false }).live)

/-- Is a register write, made for the lanes of m, still wanted: its lane has not exited, or of an s register some lane of m
(R186, log 17)? -/
def wanted (st : Stroke) (m : Mask) (w : WriteBack) : Bool := match w.reg with
  | .v _ | .p _ | .e _ => (liveMask st).getLsbD w.lane
  | .s _ => liveMask st &&& m != 0
  | _ => true

/-- Register writes of a stroke for the lanes of m, those of exited lanes discarded. -/
def landWrites (st : Stroke) (m : Mask) (ws : List WriteBack) : Stroke :=
  { st with regs := st.regs.applyAll (ws.filter (wanted st m)) }

/-- Is a register write one to a bound output port of a group? -/
def toPort (gr : Group) (w : WriteBack) : Bool := match w.reg with
  | .v i => isOutput i && (boundPorts gr).getLsbD (i - 252)
  | _ => false

/-- An operation in flight completes: its results land, and what waited for it goes on (R78, R99). -/
def completeOp (s : State) (k op : Nat) : State :=
  match s.stroke? k with
  | none => s
  | some st =>
    match st.inflight.find? (fun i => i.id == op) with
    | none => s
    | some i =>
      let gr := (s.group? st.group).getD { part := 0, launch := 0 }
      let pushed := i.result.filter (fun w => toPort gr w && !(laneOf s k w.lane).helper)
      let s := s.modStroke k (fun st =>
        let st := landWrites st i.lanes (i.result.filter (fun w => !toPort gr w && !i.void.contains w.reg))
        { st with inflight := st.inflight.filter (fun j => j.id != op) })
      resvReady s op (pushed.map (fun w => w.val.truncate 32))

/-- Completes an operation once no result is outstanding. -/
def completeIfDone (s : State) (k op : Nat) : State :=
  match (s.stroke? k).bind (fun st => st.inflight.find? (fun i => i.id == op)) with
  | some i => if i.waitFor = 0 then completeOp s k op else s
  | none => s

/-! ## Wide cells (R132, R133) -/

/-- The addend a × 2^160 of a finite float, as an integer. -/
def wideAddend (m : Nat) (e : Int) : Nat := m <<< (e + 160).toNat

/-- A wide cell, as a number of 512 bits, with an f32 addend (R133). -/
def wideAdd (cell : Nat) (a : Nat) : Nat :=
  match unpack .f32 a with
  | .nan _ => cell ||| 2 ^ 448
  | .inf false => cell ||| 2 ^ 449
  | .inf true => cell ||| 2 ^ 450
  | .fin neg m e =>
    let v := cell % 2 ^ 448
    let x := wideAddend m e % 2 ^ 448
    let v' := if neg then (v + (2 ^ 448 - x)) % 2 ^ 448 else (v + x) % 2 ^ 448
    cell / 2 ^ 448 * 2 ^ 448 + v'

/-- A wide cell read out (R134): RNE under version 2, RTZ under version 1, the infinity of its sign beyond the range. -/
def wideRead (nbv cell : Nat) : Nat :=
  let nan := bit cell 448
  let pinf := bit cell 449
  let ninf := bit cell 450
  if nan || (pinf && ninf) then Fmt.f32.qnan
  else if pinf then 0x7F800000
  else if ninf then 0xFF800000
  else
    let v := sext 448 (cell % 2 ^ 448)
    let z := packFin .f32 (if nbv = 1 then .rtz else .rne) false 2 false (decide (v < 0)) v.natAbs (-160)
    if v = 0 then 0
    else if (z.2 &&& flagOF) != 0 then (if v < 0 then 0xFF800000 else 0x7F800000) else z.1

/-! ## Performing the head of a store FIFO -/

/-- Tag bytes 20–23 of a record as an STT or a TAGSET leaves them: the tag given, or the record's with SPARSE 0; the
generation one higher (R232, R251). SPARSE is tag bits [7:5] (R19). -/
def retagged (old : Nat) (tag : Option (BitVec 16)) : Nat :=
  let t := match tag with
    | some t => t.toNat
    | none => old % 2 ^ 16 - bits old 7 5 * 2 ^ 5
  t + 2 ^ 16 * ((old / 2 ^ 16 + 1) % 2 ^ 16)

/-- The write of an old value to an atomic's destination: a v register of the lane; the s register by one lane alone, for
the others dst is 64. -/
def oldValue (w lane dst : Nat) (toS : Bool) (x : Nat) : List WriteBack :=
  let n := if w = 64 then 2 else 1
  if toS then (if dst < 64 then putS dst x false n else []) else putV dst lane x 0 false n

/-- The FIFO of an agent. -/
def fifoOf (s : State) : AgentId → List FifoEntry
  | .stroke k => (s.stroke? k).elim [] (·.fifo)
  | .ctx k => (s.ctx? k).elim [] (·.fifo)

def setFifo (s : State) (a : AgentId) (q : List FifoEntry) : State :=
  match a with
  | .stroke k => s.modStroke k (fun st => { st with fifo := q })
  | .ctx k => s.modCtx k (fun c => { c with fifo := q })

/-- What a PST writes to a line of another core goes out, and stays at the head of its FIFO until it has landed: the sender keeps it in
its store queue (R201), and the stores of a stroke are seen in the order of its FIFO (R338). -/
def sendRemote (s : State) (a : AgentId) (core : Nat) (ps : List (Nat × List Byte)) (part : Nat) (sent : Option Nat) : State :=
  let keep (s : State) (n : Nat) : State := setFifo s a (.remote core ps part (some n) :: fifoOf s a)
  match sent, ps with
  | some n, _ => keep s n
  | none, [] => s
  | none, p :: more =>
    let w : RemoteWrite :=
      { id := s.nextId, part := part, core := core, addr := p.1, data := p.2, more := more, copy := none, sender := some a }
    keep { s with remote := s.remote ++ [w], nextId := s.nextId + 1 } s.nextId

/-- A remote write has landed or been dropped: the entry of its sender's FIFO that sent it goes. -/
def remoteOver (s : State) (w : RemoteWrite) : State :=
  match w.sender with
  | some a => setFifo s a ((fifoOf s a).filter (fun e => match e with
      | .remote _ _ _ sent => sent != some w.id
      | _ => true))
  | none => s

/-- A FIFO entry of a stroke or context performed at its home (R223, R227). A poisoned line gives a marked result
(R376). -/
def performEntry (s : State) (a : AgentId) (e : FifoEntry) : State :=
  let back (s : State) (op : Nat) (ws : List WriteBack) : State := match a with
    | .stroke k => deliver s k op ws
    | .ctx _ => s
  match e with
  | .store l bs => writeBytes s l bs
  | .atom l w sg op x o lane dst toS =>
    let old := readNat s l (w / 8)
    let p := s.mem.anyPoison l (w / 8)
    back (writeNat s l (w / 8) (atomNew op w sg old x.toNat)) o ((oldValue w lane dst toS old).map (fun r => { r with poison := p }))
  | .cas l w ex nw o lane dst toS =>
    let old := readNat s l (w / 8)
    let p := s.mem.anyPoison l (w / 8)
    let s := if old = ex.toNat then writeNat s l (w / 8) nw.toNat else s
    back s o ((oldValue w lane dst toS old).map (fun r => { r with poison := p }))
  | .fxadd l a o => back (writeNat s l 64 (wideAdd (readNat s l 64) a.toNat)) o []
  | .fxclr l => writeNat s l 64 0
  | .retag l t => writeNat s l 4 (retagged (readNat s l 4) t)
  | .remote core ps part sent => sendRemote s a core ps part sent
  | .asyncDone op => futureDone s op 0

/-- Does an agent have stores to other devices that have not been acknowledged (R348)? -/
def storesOut (s : State) (a : AgentId) : Bool :=
  s.link.out.any (fun f => s.link.sentBy.contains (f, a))

/-- Is an entry a write to another core? -/
def FifoEntry.away : FifoEntry → Bool
  | .remote _ _ _ _ => true
  | _ => false

/-- Has an entry been sent, so that its FIFO waits for it to land? -/
def FifoEntry.isSent : FifoEntry → Bool
  | .remote _ _ _ sent => sent.isSome
  | _ => false

/-- The first n entries of a FIFO performed in order, up to one that has been sent and has not landed. -/
def drain : Nat → State → AgentId → State
  | 0, s, _ => s
  | n + 1, s, a => match fifoOf s a with
    | [] => s
    | e :: q => if e.isSent then s else drain n (performEntry (setFifo s a q) a e) a

/-- A FIFO drained as far as it can be (R229). -/
def drainFifo (s : State) (a : AgentId) : State := drain (fifoOf s a).length s a

/-- Does an agent have reserved words of a ring that its operations in flight have still to push (R237)? -/
def pushesOwed (s : State) (a : AgentId) : Bool := s.resv.any (fun r => AgentId.stroke r.stroke == a)

/-- Do accesses of an agent before a release stand outside its store FIFO: words that it has still to push, and, at `.sy`, its stores to
other devices (R220)? -/
def accessesOut (s : State) (a : AgentId) (sy : Bool) : Bool := pushesOwed s a || (sy && storesOut s a)

/-- Has a release that an agent makes at its issue still to wait for a write to another core in its FIFO, or for an access outside it
(R220, R342)? The rest of its FIFO is performed first. -/
def releaseWaits (s : State) (a : AgentId) (sy : Bool) : Bool := (fifoOf s a).any FifoEntry.away || accessesOut s a sy

end Sys2Proof.Machine
end

