-- ==== Sys2Proof/Machine/Gate.lean ====
section
/-!
DEFINITION. The share gate (R319 to R323, R332): rounds opened by words, completed and aborted as one decision for every
party, results held for a descheduled party, and the ends of sessions (R314).
-/
namespace Sys2Proof.Machine

def Gate.session? (g : Gate) (n : Nat) : Option Session := mapGet? g.sessions n
def State.modGate (s : State) (g : Gate → Gate) : State := { s with gate := g s.gate }
def Gate.modSession (g : Gate) (n : Nat) (h : Session → Session) : Gate := { g with sessions := mapMod g.sessions n h }

/-- The key of a party's counter of a kind. -/
def partyKey (party kind : Nat) : Nat := 4 * party + kind

def Session.next? (x : Session) (party kind : Nat) : Nat := mapGet x.next (partyKey party kind) 0
/-- LAST + 1 (R319). -/
def Session.lastPlus (x : Session) (party kind : Nat) : Nat := mapGet x.last1 (partyKey party kind) 0

/-- The party number of a partition in a session (R313). -/
def partyOf (x : Session) (part : Nat) : Option Nat := x.parties.idxOf? part

/-- CR.SESS of a partition (R313). -/
def sessWord (s : State) (part : Nat) : Nat :=
  s.gate.sessions.foldl (fun w e => match partyOf e.2 part with
    | some p => w + (p + 1) * 2 ^ (2 * e.1)
    | none => w) 0

/-- The sessions that CR.SESS of a partition shows, each by its number and serial. -/
def sessionsNow (s : State) (part : Nat) : List (Nat × Nat) :=
  (s.gate.sessions.filter (fun e => (partyOf e.2 part).isSome)).map (fun e => (e.1, e.2.serial))

/-- The register writes that give a party the words of a round in the lanes of its mask: public (R328, R332). -/
def roundWrites (m : GateMsg) (w0 w1 : List Word) : List WriteBack :=
  let ls := lanesOf m.mask
  let put (r : Nat) (ws : List Word) : List WriteBack :=
    (ls.zip ws).map (fun p => { reg := .v r, lane := p.1, val := p.2.zeroExtend 64 })
  put m.reg w0 ++ (if m.rev then [] else put (m.reg + 1) w1)

/-- A result reaches its party's stroke: the future is done, the destination holds the words if they are given, and the
scoreboard lets go. -/
def gateLand (s : State) (r : GateResult) : State :=
  let s := futureDone s r.msg.op r.word
  let s := if r.give then deliver s r.msg.stroke r.msg.flight (roundWrites r.msg r.w0 r.w1) else s
  completeOp s r.msg.stroke r.msg.flight

/-- Is a partition descheduled, so that the gate keeps its results (R323)? -/
def descheduled (s : State) (part : Nat) : Bool := match s.part? part with
  | some p => !p.scheduled
  | none => false

/-- Is a partition switched out of a core: descheduled, or running on other cores alone (R378, R384)? -/
def away (s : State) (part core : Nat) : Bool := match s.part? part with
  | some p => !p.scheduled || p.out.contains core
  | none => false

/-- Is a partition switched out of a core, with nothing of it left there? -/
def gone (s : State) (part core : Nat) : Bool :=
  away s part core && !s.groups.any (fun e => e.2.part == part && coreOf e.1 == core)

/-- Is the stroke that sent words to the gate switched out? -/
def GateMsg.isAway (s : State) (m : GateMsg) : Bool := away s m.part (coreOf (groupOf m.stroke))

/-- A result delivered, or kept at the gate for a party whose stroke is switched out. -/
def gateResult (s : State) (r : GateResult) : State :=
  if r.msg.isAway s then s.modGate (fun g => { g with results := g.results ++ [r] }) else gateLand s r

def gateResults (s : State) (rs : List GateResult) : State := rs.foldl gateResult s

/-- The words of all parties combined in each lane: the sum, or the XOR (R320). -/
def combine (xor : Bool) (ws : List (List Word)) : List Word :=
  match ws with
  | [] => []
  | w :: rest => rest.foldl (fun a b => a.zipWith (fun p q => if xor then p ^^^ q else p + q) b) w

/-- A round closed without the round itself in the gate. -/
def dropRound (s : State) (id : Nat) : State :=
  s.modGate (fun g => { g with rounds := g.rounds.filter (fun r => r.id != id) })

/-- An index burnt in every party (R322). -/
def Session.burn (x : Session) (kind t : Nat) : Session :=
  (List.range x.parties.length).foldl (fun x p =>
    let k := partyKey p kind
    { x with next := mapPut x.next k (max (mapGet x.next k 0) (t + 1))
             last1 := mapPut x.last1 k (max (mapGet x.last1 k 0) (t + 1)) }) x

/-- A round aborts (R322). -/
def abortRound (s : State) (r : GateRound) : State :=
  let s := dropRound s r.id
  let s := s.modGate (fun g => g.modSession r.session (fun x =>
    if r.rev then { x with dead := r.index :: x.dead } else x.burn r.kind r.index))
  gateResults s (r.msgs.map (fun m => { msg := m, word := 1, w0 := [], w1 := [], give := false }))

/-- A round completes: one decision for every party (R320, R332). -/
def completeRound (s : State) (r : GateRound) : State :=
  match s.gate.session? r.session with
  | none => dropRound s r.id
  | some x =>
    let s := dropRound s r.id
    let xor := (r.msgs.head?).elim false (·.xor)
    let w0 := combine xor (r.msgs.map (·.w0))
    let w1 := combine xor (r.msgs.map (·.w1))
    let within := decide (x.budget = 0xFFFFFFFF) || decide (x.revealed < x.budget)
    let recv := bits x.recv.toNat (x.parties.length - 1) 0
    let reveals := within && decide (recv ≠ 0)
    let s := if r.rev && reveals then
      s.modGate (fun g => g.modSession r.session (fun x => { x with revealed := x.revealed + 1 })) else s
    gateResults s (r.msgs.map (fun m =>
      let give := !r.rev || (within && bit x.recv.toNat m.party)
      { msg := m, word := if give then 0 else 2, w0 := w0, w1 := w1, give := give }))

/-- What an open round comes to now: it completes, aborts, or stays open (R320, R321). -/
def roundFate (s : State) (x : Session) (r : GateRound) : Option Bool :=
  let n := x.parties.length
  let sent (p : Nat) : Bool := r.msgs.any (fun m => m.party == p)
  let differ := match r.msgs with
    | [] => false
    | m :: ms => ms.any (fun k => k.xor != m.xor || k.mask != m.mask)
  let onWay (p : Nat) : Bool := s.gate.inbox.any (fun m => m.session == r.session && m.party == p && m.rev == r.rev &&
    m.kind == r.kind && m.index == r.index)
  let never := !r.rev && (List.range n).any (fun p =>
    !sent p && !onWay p && decide (r.index < x.lastPlus p r.kind))
  let dead := !r.rev && s.gate.forfeit.contains (r.session, r.kind, r.index)
  if differ || never || dead || (r.rev && x.dead.contains r.index) then some false
  else if (List.range n).all sent then some true
  else none

/-- An open round decided if it can be. -/
def gateCheck (s : State) (r : GateRound) : State :=
  if s.gate.rounds.all (fun q => q.id != r.id) then s
  else match s.gate.session? r.session with
  | none => abortRound s r
  | some x => match roundFate s x r with
    | some true => completeRound s r
    | some false => abortRound s r
    | none => s

/-- Every open round decided that can be: an index burnt for one may decide another, so as often as there are rounds. -/
def gateSweep (s : State) : State :=
  (List.range s.gate.rounds.length).foldl (fun s _ => s.gate.rounds.foldl gateCheck s) s

/-- Words reach the gate: they join their round or open it (R320). -/
def gateReceive (s : State) (m : GateMsg) : State :=
  let s := s.modGate (fun g => { g with inbox := g.inbox.filter (fun k => k.id != m.id) })
  let same (r : GateRound) : Bool := r.session == m.session && r.rev == m.rev && r.kind == m.kind && r.index == m.index
  match s.gate.rounds.find? same with
  | some r =>
    let r := { r with msgs := r.msgs ++ [m] }
    gateSweep (s.modGate (fun g => { g with rounds := g.rounds.map (fun q => if q.id = r.id then r else q) }))
  | none =>
    let r : GateRound :=
      { id := s.nextId, session := m.session, rev := m.rev, kind := m.kind, index := m.index, opened := s.ns, msgs := [m] }
    gateSweep { s.modGate (fun g => { g with rounds := g.rounds ++ [r] }) with nextId := s.nextId + 1 }

/-- The words on their way of a session come back aborted. -/
def abortMsgs (s : State) (ms : List GateMsg) : State :=
  gateResults s (ms.map (fun m => { msg := m, word := 1, w0 := [], w1 := [], give := false }))

/-- No stroke, saved ones included, owes words to a session any more. -/
def Stroke.quits (n : Nat) (st : Stroke) : Stroke := { st with owes := st.owes.filter (fun o => o.1 != n) }
def quitAll (s : State) (n : Nat) : State :=
  let quit (m : Map Stroke) : Map Stroke := m.map (fun e => (e.1, e.2.quits n))
  { s with
    strokes := quit s.strokes
    parts := s.parts.map (fun e => (e.1, { e.2 with save := { e.2.save with strokes := quit e.2.save.strokes } })) }

/-- A session ends (R314): its rounds abort, its counters go, and with it its field of CR.SESS in every party; a group that runs keeps the copy that
it was placed under (R191). -/
def endSession (s : State) (n : Nat) : State :=
  match s.gate.session? n with
  | none => s
  | some _ =>
    let s := (s.gate.rounds.filter (fun r => r.session == n)).foldl abortRound s
    let s := abortMsgs s (s.gate.inbox.filter (fun m => m.session == n))
    (quitAll s n).modGate (fun g => { g with
      sessions := mapDel g.sessions n
      inbox := g.inbox.filter (fun m => m.session != n)
      forfeit := g.forfeit.filter (fun o => o.1 != n) })

/-- Sessions to which a partition is a party. -/
def sessionsOf (s : State) (part : Nat) : List Nat :=
  (s.gate.sessions.filter (fun e => e.2.parties.contains part)).map (·.1)

def endSessionsOf (s : State) (part : Nat) : State := (sessionsOf s part).foldl endSession s

/-- A partition enters FAILED: its open rounds abort (R321, R377). -/
def abortRoundsOf (s : State) (part : Nat) : State :=
  (s.gate.rounds.filter (fun r => (sessionsOf s part).contains r.session)).foldl abortRound s

/-- Rounds to which a killed stroke owes words abort, now or when they open (R321). -/
def forfeit (s : State) (owes : List (Nat × Nat × Nat)) : State :=
  let owes := owes.filter (fun o => (s.gate.session? o.1).isSome)
  if owes = [] then s else gateSweep (s.modGate (fun g => { g with forfeit := g.forfeit ++ owes }))

def gateKill (s : State) (k : Nat) : State := forfeit s ((s.stroke? k).elim [] (·.owes))

/-- Results that wait for a partition, delivered when it is restored (R323). -/
def gateRestore (s : State) (part : Nat) : State :=
  let mine (r : GateResult) : Bool := r.msg.part == part && !r.msg.isAway s
  let rs := s.gate.results.filter mine
  let s := s.modGate (fun g => { g with results := g.results.filter (fun r => !mine r) })
  rs.foldl gateLand s

end Sys2Proof.Machine
end

