-- ==== Sys2Proof/Machine/Ops.lean ====
section
/-!
DEFINITION. The operations that instructions share: exits, meeting points, barriers and the baton; taking a trap and
returning from one (R366 to R376); kills; and the issue of an instruction, from its guard to its commit (R77 to R81,
R89, R101).
-/
namespace Sys2Proof.Machine

/-! ## Groups and strokes -/

/-- The keys of a group's strokes. -/
def strokesOf (s : State) (g : Nat) : List Nat :=
  match s.group? g with
  | some gr => upTo (32 * g) gr.strokes
  | none => []

/-- The live lanes that are not helper lanes. -/
def workMask (st : Stroke) : Mask :=
  maskOf (fun l => let x := (st.lanes[l]?).getD { live := false }; x.live && !x.helper)

/-- Lanes of a stroke changed. -/
def Stroke.modLanes (st : Stroke) (m : Mask) (g : Nat → Lane → Lane) : Stroke :=
  { st with lanes := st.lanes.mapIdx (fun l x => if m.getLsbD l then g l x else x) }

/-! ## FUSE (R107, R187) -/

/-- The lanes that have reached the FUSE at a PC since lane l last went on past it. -/
def fuseSeen (st : Stroke) (pc : Dword) (l : Nat) : Mask := ((mapGet st.fuses pc.toNat [])[l]?).getD 0

/-- The lanes of m reach the FUSE at a PC: each lane has seen them there, and those that go on past it, past, begin to count anew. -/
def fuseReach (st : Stroke) (pc : Dword) (m past : Mask) : Stroke :=
  { st with fuses := mapPut st.fuses pc.toNat ((List.range 32).map (fun l =>
      if past.getLsbD l then 0 else fuseSeen st pc l ||| m)) }

/-- The lanes that wait at a FUSE for no lane any more: every live lane of a lane's own mask has reached it. -/
def fuseDone (st : Stroke) (pc : Dword) : Mask :=
  maskOf (fun l => match ((st.lanes[l]?).getD {}).wait with
    | .fuse p m => p == pc && m &&& liveMask st &&& ~~~ fuseSeen st pc l == 0
    | _ => false)

/-- Those lanes released, all together, each by its own mask (R107). -/
def fuseCheck (st : Stroke) (pc : Dword) : Stroke :=
  let w := fuseDone st pc
  if w = 0 then st else fuseReach (st.modLanes w (fun _ x => { x with wait := .none })) pc 0 w

/-- Every FUSE of a stroke checked. -/
def fuseSweep (st : Stroke) : Stroke := st.fuses.foldl (fun st e => fuseCheck st (BitVec.ofNat 64 e.1)) st

/-! ## Barriers (R240) -/

/-- Has every participant of barrier b arrived? -/
def barFull (s : State) (g b : Nat) (x : Bar) : Bool :=
  (strokesOf s g).all (fun k => match s.stroke? k with
    | some st => workMask st &&& ~~~ mapGet x.arrived (k % 32) 0 == 0
    | none => true) &&
  (decide (b < 8) || x.ctx || (match s.ctx? g with
    | some c => c.exited
    | none => true))

/-- A lane's wait when barrier b leaves a phase: it goes on, or its early arrival counts in the next phase. -/
def barRelease (b phase : Nat) : Wait → Wait
  | .bar c p => if c = b ∧ p = phase then .none else .bar c p
  | .barEarly c arv => if c = b then (if arv then .none else .bar b (phase + 1)) else .barEarly c arv
  | w => w

/-- Is a wait an early arrival at barrier b? -/
def Wait.early (b : Nat) : Wait → Bool
  | .barEarly c _ => c == b
  | _ => false

/-- The lanes whose early arrival counts in the next phase. -/
def earlyMask (st : Stroke) (b : Nat) : Mask :=
  maskOf (fun l => ((st.lanes[l]?).getD {}).wait.early b ||
    (match st.shadows[l]? with
      | some h => h.wait.early b
      | none => false))

/-- A phase of barrier b completes. -/
def barComplete (s : State) (g b : Nat) (x : Bar) : State :=
  let early : Map Mask := (strokesOf s g).filterMap (fun k => (s.stroke? k).bind (fun st =>
    let m := earlyMask st b &&& workMask st
    if m = 0 then none else some (k % 32, m)))
  let s := (strokesOf s g).foldl (fun s k => s.modStroke k (fun st => { st with
    lanes := st.lanes.map (fun l => { l with wait := barRelease b x.phase l.wait })
    shadows := st.shadows.map (fun h => { h with wait := barRelease b x.phase h.wait }) })) s
  let s := s.modCtx g (fun c => { c with barWait := if c.barWait = some (b, x.phase) then none else c.barWait })
  s.modGroup g (fun gr => { gr with bars := mapPut gr.bars b { phase := x.phase + 1, arrived := early } })

/-- Does a lane of the group wait for the present phase of barrier b, or will it after its handler? A helper lane waits without being
counted. -/
def barAwaited (s : State) (g b : Nat) (x : Bar) : Bool :=
  (strokesOf s g).any (fun k => (s.stroke? k).any (fun st =>
    st.lanes.any (fun y => y.wait == .bar b x.phase) || st.shadows.any (fun h => h.wait == .bar b x.phase)))

/-- Barrier b completes its phase if someone has arrived or waits and every participant has arrived or exited; early arrivals may
complete the next. -/
def barCheck (s : State) (g b : Nat) : State :=
  let once (s : State) : State := match s.group? g with
    | some gr =>
      let x := mapGet gr.bars b {}
      if (x.ctx || x.arrived.any (fun e => e.2 != 0) || barAwaited s g b x) && barFull s g b x then barComplete s g b x else s
    | none => s
  once (once s)

def barSweep (s : State) (g : Nat) : State := (List.range 16).foldl (fun s b => barCheck s g b) s

/-! ## The baton (R108) -/

/-- The first requesting slot at or after a slot, wrapping. -/
def nextRequest (req : BitVec 8) (from_ : Nat) : Option Nat :=
  ((List.range 8).map (fun i => (from_ + i) % 8)).find? (fun i => req.getLsbD i)

/-- The counts of the operations in flight when lanes issue one more instruction (R78). -/
def countIssue (path : Mask) (is : List InFlight) : List InFlight :=
  is.map (fun i => { i with
    count := (lanesOf (i.lanes &&& path)).foldl (fun m l => mapPut m l (mapGet m l 0 + 1)) i.count })

/-- Does lane l stand at the end of the window of one of its operations in flight (R78)? -/
def windowShut (is : List InFlight) (l : Nat) : Bool :=
  is.any (fun i => i.lanes.getLsbD l && i.counts && i.la != 15 && mapGet i.count l 0 == i.la)

/-- The operations of lane l that count against its limit of 8 (R78), oldest first. -/
def flights (is : List InFlight) (l : Nat) : List InFlight := is.filter (fun i => i.lanes.getLsbD l && i.counts)

/-- The operation that lane l's next long-latency instruction waits for, where 8 are in flight: the oldest. A window that is shut is
waited for first, and once it opens there are fewer (R78). -/
def limitOf (is : List InFlight) (l : Nat) : Option Nat :=
  if windowShut is l || decide ((flights is l).length < 8) then none else (flights is l).head?.map (·.id)

/-- A parked instruction completes without issuing again: the lanes of its path go on past it. -/
def parkPass (st : Stroke) (m : Mask) (len : Nat) : Stroke :=
  let st := { st with inflight := countIssue m st.inflight, park := none }
  st.modLanes m (fun l x => { x with pc := x.pc + BitVec.ofNat 64 len, aging := 0, full := limitOf st.inflight l })

/-- The strokes of a group that are parked on BTAKE go on past it. -/
def batonResume (s : State) (g : Nat) : State :=
  (strokesOf s g).foldl (fun s k => s.modStroke k (fun st => match st.park with
    | some (.baton m len) => parkPass st m len
    | _ => st)) s

/-- A free baton goes to the first requesting slot. -/
def batonGrant (s : State) (c : Nat) : State :=
  let x := s.core c
  match x.baton with
  | some _ => s
  | none => match nextRequest x.request x.rotation with
    | none => s
    | some slot =>
      let s := s.modCore c (fun x => { x with
        baton := some slot, request := x.request &&& ~~~ BitVec.ofNat 8 (2 ^ slot), rotation := (slot + 1) % 8 })
      batonResume s (8 * c + slot)

/-! ## Retirement of strokes and groups (R93, R186, R255) -/

/-- Grants of AMEM banks to a slot end (R289). -/
def dropGrants (s : State) (g : Nat) : State :=
  { s with groups := s.groups.map (fun e => (e.1,
      if e.1 / 8 = g / 8 then { e.2 with grants := e.2.grants.filter (fun q => q.2 != g % 8) } else e.2)) }

/-- Is an agent a stroke or the context of a group? -/
def agentIn (g : Nat) : AgentId → Bool
  | .stroke k => groupOf k == g
  | .ctx k => k == g

/-- Does the group still have a copy, an MMS or a fired round under way (R255), or stores to other devices that are not acknowledged, so
that a status written now would not release them (R342, R390)? -/
def groupBusy (s : State) (g : Nat) : Bool :=
  s.copies.any (fun c => c.group == g) || s.mms.any (fun m => m.group == g) ||
    s.fired.any (fun r => r.group == g) || s.link.out.any (fun f => s.link.sentBy.any (fun e => e.1 == f && agentIn g e.2))

/-- Bytes of a group's whole allotment of U, stacks included (R10). -/
def Group.reserve (g : Group) : Nat := 256 * g.units + 32 * g.strokes * g.stack

/-- Does a byte of the U home, or a word of AMEM, belong to a group with number g? -/
def Group.ownsU (gr : Group) (g a : Nat) : Bool :=
  decide (uBase (coreOf g) + gr.ubase ≤ a) && decide (a < uBase (coreOf g) + gr.ubase + gr.reserve)
def Group.ownsWord (gr : Group) (g k : Nat) : Bool := gr.banks.contains (k / 1024 % 64) && k / 1024 / 64 == coreOf g

/-- The presence bits of a core written to zero, but for lines that are kept (R381). -/
def wipeLines (m : Map Bool) (core : Nat) (keep : Nat → Bool) : Map Bool :=
  let lo := uBase core / 128
  let n := Config.uBytes / 128
  m.filter (fun e => decide (e.1 < lo)) ++
    (upTo lo n).filterMap (fun l => if keep l then (mapGet? m l).map (fun b => (l, b)) else some (l, true)) ++
    m.filter (fun e => decide (lo + n ≤ e.1))

/-- A core scrubbed (R381): U, AMEM, marks and presence bits, the operand cache and the instruction cache are zero, save what belongs to
groups that are not gone; the translations of a partition are dropped. -/
def scrubCore (s : State) (core part : Nat) (gone : List Nat) : State :=
  let rest := s.groups.filter (fun e => coreOf e.1 == core && !gone.contains e.1)
  let owned (a : Nat) : Bool := rest.any (fun e => e.2.ownsU e.1 a)
  let wipeU (a : Nat) : Bool := decide (uBase core ≤ a) && decide (a < uBase (core + 1)) && !owned a
  let wipeA (k : Nat) : Bool := k / 1024 / 64 == core && !rest.any (fun e => e.2.ownsWord e.1 k)
  let s := s.modCore core (fun c => { c with
    opcache := c.opcache.filter (fun e => rest.any (fun r => r.1 == e.group))
    icache := c.icache.filter (fun l => rest.any (fun r => r.2.part == l / 2 ^ 57)), tlb := c.tlb.filter (fun e => e.part != part) })
  { s with mem := { s.mem with
      u := s.mem.u.filter (fun c => !wipeU c.1), poisU := s.mem.poisU.filter (fun e => !wipeU (128 * e.1))
      clear := wipeLines s.mem.clear core (fun l => owned (128 * l))
      amem := s.mem.amem.filter (fun e => !wipeA e.1), poisA := s.mem.poisA.filter (fun e => !wipeA e.1) } }

/-- What a group leaves behind on its core scrubbed. -/
def scrubGroup (s : State) (g : Nat) : State := scrubCore s (coreOf g) ((s.group? g).elim 0 (·.part)) [g]

/-- The allotment of a retired group is released: the group leaves its core, and its launch counts it (R389). -/
def releaseGroup (s : State) (g : Nat) : State :=
  match s.group? g with
  | some gr =>
    if gr.retired ∧ groupBusy s g = false then
      let ks := strokesOf s g
      let keep (l : List Nat) : List Nat := l.filter (fun k => !ks.contains k)
      let s := s.modCore (coreOf g) (fun c => { c with active := c.active.map keep, pending := c.pending.map keep })
      let s := if gr.scrub then scrubGroup s g else s
      let s := s.modLaunch gr.launch (fun l => { l with
        gone := l.gone + 1, good := if gr.damaged then l.good else l.good + 1 })
      { s with
        strokes := s.strokes.filter (fun e => !ks.contains e.1)
        groups := mapDel s.groups g
        ctxs := mapDel s.ctxs g }
    else s
  | none => s

/-- Every retired group that can be is released. -/
def sweepReleased (s : State) : State := s.groups.foldl (fun s e => releaseGroup s e.1) s

/-- A group retires once all its strokes have: the baton and its grants go, its scribe context stops (R108, R255). -/
def retireGroup (s : State) (g : Nat) : State :=
  if (strokesOf s g).all (fun k => (s.stroke? k).elim true (·.retired)) then
    let c := coreOf g
    let s := drainFifo (s.modGroup g (fun gr => { gr with retired := true, grants := [] })) (.ctx g)
    let s := dropGrants s g
    let s := match s.group? g with
      | some gr => s.modLaunch gr.launch (fun l => if l.coll.isSome then
          { l with left := l.left ++ [(gr.gx + gr.dims.gx * (gr.gy + gr.dims.gy * gr.gz), clusterOf c)] } else l)
      | none => s
    let s := s.modCtx g (fun x => { x with exited := true, barWait := none, cueWait := none })
    let s := if (s.core c).baton = some (slotOf g) then batonGrant (s.modCore c (fun x => { x with baton := none })) c else s
    releaseGroup s g
  else s

/-- A stroke retires when every lane has exited, everything it issued has completed and its FIFO has drained. What a
killed stroke has at an engine is not waited for. DESIGN CHOICE: it keeps its place in the active set until its group is released, as R96 does not say
when a retired stroke gives it back (log 30). -/
def retireStroke (s : State) (k : Nat) : State :=
  match s.stroke? k with
  | some st =>
    let open_ := st.inflight.filter (fun i => !(st.killed && i.engine))
    if liveMask st = 0 ∧ open_.isEmpty ∧ st.fifo.isEmpty ∧ st.busy.isEmpty ∧ st.retired = false then
      retireGroup (s.modStroke k (fun st => { st with retired := true })) (groupOf k)
    else s
  | none => s

/-- Lanes exit (R186): they count as arrived at every FUSE and at the barriers. -/
def exitLanes (s : State) (k : Nat) (m : Mask) : State :=
  let s := s.modStroke k (fun st =>
    fuseSweep (st.modLanes m (fun _ x => { x with live := false, wait := .none, aging := 0 })))
  retireStroke (barSweep s (groupOf k)) k

/-- Every stroke retired that can be. -/
def sweepRetired (s : State) : State := s.strokes.foldl (fun s e => retireStroke s e.1) s

/-! ## Kills (R374) -/

/-- A launch with a killed stroke or context ends FAILED (R374). -/
def spoilLaunch (s : State) (g : Nat) : State :=
  match s.group? g with
  | some gr => s.modLaunch gr.launch (fun l => { l with failed := true })
  | none => s

/-- A group with a killed stroke does not count as whole (R389). -/
def damage (s : State) (g : Nat) : State := spoilLaunch (s.modGroup g (fun x => { x with damaged := true })) g

/-- Fault records of an agent withdrawn. -/
def dropFaults (s : State) (a : AgentId) : State :=
  { s with parts := s.parts.map (fun e => (e.1, { e.2 with faults := e.2.faults.filter (fun f => f.agent != some a) })) }

/-- A killed stroke whose issued instructions have completed and whose FIFO has drained: every lane counts as exited. -/
def killFinish (s : State) (k : Nat) : State :=
  match s.stroke? k with
  | some st =>
    if st.killed ∧ st.retired = false ∧ (st.inflight.filter (fun i => !i.engine)).isEmpty ∧ st.fifo.isEmpty ∧
        st.busy.isEmpty then
      exitLanes s k allLanes
    else s
  | none => s

/-- A stroke as a kill leaves it. -/
def Stroke.slain (st : Stroke) : Stroke :=
  { st with killed := true, owes := [], park := none, trap := none, async := [], fault := none, handler := false, shadows := [] }

/-- A scribe context as a kill leaves it. -/
def ScribeCtx.slain (c : ScribeCtx) : ScribeCtx :=
  { c with
    killed := true, exited := true, trap := none, fault := none, barWait := none, cueWait := none, lockWait := false
    parkLine := none }

/-- Kills a stroke (R374); the rounds of the gate it owes words to abort (R321). -/
def killStroke (s : State) (k : Nat) : State :=
  match s.stroke? k with
  | some st =>
    if st.killed ∨ st.retired then s
    else
      let s := dropFaults (damage s (groupOf k)) (.stroke k)
      let s := (gateKill s k).modStroke k Stroke.slain
      sweepRetired (killFinish s k)
  | none => s

/-- Kills a scribe context: it stops, and counts as exited for barriers 8 to 15 (R374). -/
def killCtx (s : State) (g : Nat) : State :=
  match s.ctx? g with
  | some c =>
    if c.killed then s
    else
      let s := dropFaults (spoilLaunch s g) (.ctx g)
      let s := drainFifo s (.ctx g)
      let s := s.modCtx g ScribeCtx.slain
      barSweep s g
  | none => s

def killAgent (s : State) : AgentId → State
  | .stroke k => killStroke s k
  | .ctx g => killCtx s g

/-- An operation of a stroke is over: its registers, its future with a word, and the stroke if that was all. -/
def opOver (s : State) (k op : Nat) (w : Word) : State :=
  killFinish (retireStroke (futureDone (completeOp s k op) op w) k) k

/-! ## Traps (R366 to R376) -/

/-- Is a cause of the system tier (R366)? -/
def systemTier (cause : Nat) : Bool :=
  cause == cPAGEFAULT || cause == cS2FAULT || cause == cPOISON || cause == cPAGELOST

/-- Counter i of a partition's integrity block gains n, saturating (R395). -/
def countUp (s : State) (part i n : Nat) : State :=
  s.modPart part (fun p => { p with
    counters := listPut p.counters i (min (2 ^ 64 - 1) ((p.counters[i]?).getD 0 + n)) })

/-- A partition error: firmware reports it and kills the stroke or the context (R373). -/
def escalate (s : State) (a : AgentId) (part cause : Nat) : State :=
  let k := match a with
    | .stroke k => k
    | .ctx k => k
  killAgent (s.modPart part (fun p => { p with errors := p.errors ++ [(cause, k)] })) a

/-- CR.TRAPCAUSE of a trap (R368). -/
def causeWord (t : Trap) : Word :=
  BitVec.ofNat 32 (t.cause + t.code * 2 ^ 16 + (if t.async then 2 ^ 24 else 0))

/-- CR.TRAPADDR holds address bits [63:2] (R369). -/
def alignPc (a : Dword) : Dword := a &&& ~~~ (3 : Dword)

/-- A user-tier trap delivered to the handler (R371): the trap registers, the shadows, and every live lane released from
its wait at ENTRY × 4. -/
def enterHandler (s : State) (k : Nat) (t : Trap) (base : Dword) : State :=
  s.modStroke k (fun st => { st with
    cause := causeWord t
    addr := alignPc t.addr
    mask := t.mask
    shadows := (List.range 32).map (fun l =>
      let x := (st.lanes[l]?).getD {}
      { pc := x.pc, wait := x.wait, onPath := t.path.getLsbD l })
    lanes := st.lanes.map (fun x => if x.live then { x with pc := alignPc base, wait := .none, aging := 0 } else x)
    handler := true
    park := none })

/-- The byte STROKE of a fault record (R375): the storage index of a stroke among those of its core, the slot of a scribe context, 0xFF for what
else met the fault. DESIGN CHOICE: storage indices follow the order of the strokes' keys (log 30). -/
def faultStroke (s : State) : Option AgentId → Nat
  | some (.stroke k) => (s.strokes.filter (fun e => coreOf (groupOf e.1) == coreOf (groupOf k) && decide (e.1 < k))).length
  | some (.ctx g) => 0xE0 + slotOf g
  | none => 0xFF

/-- A fault record as it is laid out (R375). -/
def faultBytes (s : State) (r : FaultRec) : List Byte :=
  natBytes 8 r.va ++ natBytes 1 r.cause ++ natBytes 1 r.access ++
    natBytes 2 (clusterOf r.core * 2 ^ 8 + r.core % Config.coresPerCluster) ++ natBytes 1 (faultStroke s r.agent) ++ natBytes 3 0 ++
    natBytes 8 r.token ++ natBytes 8 0

/-- A fault record sent to the virtual function of its partition. -/
def tellFunction (s : State) (r : FaultRec) : State :=
  s.modPart r.part (fun p => { p with records := p.records ++ [faultBytes s r] })

/-- The fault record that a system-tier fault sends, with the token it gets: of a stage-1 PAGEFAULT to the partition's function, of the others to
firmware (R375). -/
def sendFault (s : State) (part core cause va access : Nat) (a : Option AgentId) (copy : Option Nat) : State × Nat :=
  let t := s.nextId
  let r : FaultRec :=
    { token := t, part := part, va := va, cause := cause, access := access, core := core, agent := a, copy := copy }
  let s := { s.modPart part (fun p => { p with faults := p.faults ++ [r] }) with nextId := t + 1 }
  (if cause = cPAGEFAULT then tellFunction s r else s, t)

/-- A stroke's recorded trap delivered: to the handler, or escalated (R371, R373); a read of poison is a kill (R376). -/
def deliverTrap (s : State) (k : Nat) : State :=
  match s.stroke? k with
  | some st => match st.trap.or st.async.head?, s.group? st.group with
    | some t, some gr =>
      let s := s.modStroke k (fun st => if st.trap.isSome then { st with trap := none } else { st with async := st.async.drop 1 })
      if t.cause = cPOISON then killStroke (countUp s gr.part 4 1) k
      else if gr.cr.trapBase.getLsbD 0 = true ∧ st.handler = false then enterHandler s k t gr.cr.trapBase
      else
        let s := s.modStroke k (fun st => { st with cause := if st.handler then causeWord t else st.cause })
        escalate s (.stroke k) gr.part t.cause
    | _, _ => s
  | none => s

/-- Has everything completed that a trap waits for (R367)? -/
def settled (st : Stroke) : Bool := (st.inflight.filter (fun i => !i.engine)).isEmpty && st.busy.isEmpty

/-- Can a recorded trap be delivered? -/
def trapReady (st : Stroke) : Bool := (st.trap.or st.async.head?).isSome && settled st

/-- TAKING A TRAP (R367). The trapping instruction has committed nothing. A system-tier fault parks the stroke or the
context and sends a fault record (R375); a user-tier cause is delivered, at once if nothing is in flight; in scribe code
it escalates (R373). va is the faulting address, acc the kind of access. -/
def takeTrap (s : State) (a : AgentId) (t : Trap) (va acc : Nat) : State :=
  match a with
  | .stroke k =>
    match s.stroke? k with
    | some st =>
      let part := (s.group? st.group).elim 0 (·.part)
      if systemTier t.cause && t.cause != cPOISON then
        let q := sendFault s part (coreOf st.group) t.cause va acc (some a) none
        q.1.modStroke k (fun st => { st with fault := some q.2, park := none })
      else
        let s := s.modStroke k (fun st => { st with trap := some t })
        if settled st then deliverTrap s k else s
    | none => s
  | .ctx g =>
    let part := (s.group? g).elim 0 (·.part)
    if t.cause = cPOISON then killCtx (countUp s part 4 1) g
    else if systemTier t.cause then
      let q := sendFault s part (coreOf g) t.cause va acc (some a) none
      q.1.modCtx g (fun c => { c with fault := some q.2 })
    else escalate (s.modCtx g (fun c => { c with trap := some t })) a part t.cause

/-- The wait a lane takes up again at RTE: a BAR wait only if its phase has not completed (R372). -/
def restoreWait (s : State) (g : Nat) : Wait → Wait
  | .bar b p => if (mapGet ((s.group? g).elim [] (·.bars)) b {}).phase = p then .bar b p else .none
  | .barEarly b v => .barEarly b v
  | .fuse p m => .fuse p m
  | _ => .none

/-- RETURNING FROM A TRAP (R372): the lanes of the trap path resume at CR.TRAPADDR, the others at their shadow PCs, with
their FUSE and BAR waits; handler mode ends. -/
def returnFromTrap (s : State) (k : Nat) : State :=
  s.modStroke k (fun st =>
    let async := st.cause.getLsbD 24
    let lanes := st.lanes.mapIdx (fun l x =>
      match st.shadows[l]? with
      | some h =>
        if x.live then
          { x with
            pc := if !async && h.onPath then alignPc st.addr else h.pc
            wait := restoreWait s st.group h.wait
            aging := 0 }
        else x
      | none => x)
    fuseSweep { st with lanes := lanes, handler := false, shadows := [] })

/-! ## Issue -/

/-- What an instruction does when it commits: the state with everything but its register writes, those writes, the flags
it raises in each lane, and the lanes whose next PC is not the next instruction. later names the operation in flight
that the writes and the held registers belong to (R78); slow the unit that keeps them until it completes. -/
structure Effect where
  st      : State
  writes  : List WriteBack := []
  flags   : List (Nat × Flags) := []
  jumps   : List (Nat × Dword) := []
  later   : Option Nat := none
  waitFor : Nat := 0
  held    : List (RegName × Mask) := []
  counts  : Bool := true
  engine  : Bool := false
  acq     : Bool := false
  slow    : Option SlowUnit := none

/-- How an instruction's execution ends: it commits, it traps (R5), its stroke parks (R95), parkIn with a state in
which it has left its request, or it does not issue, as a resource that it needs does not remain (R102, R352). A trap's addr is the
faulting address of a memory access. -/
inductive Verdict where
  | commit (e : Effect)
  | trap (cause : Nat) (mask : Mask) (code : Nat) (addr : Nat) (acc : Nat)
  | park (p : Park)
  | parkIn (p : Park) (st : State)
  | hold

/-- A trap of lanes without a faulting address. -/
def trapLanes (cause : Nat) (m : Mask) : Verdict := .trap cause m 0 0 0

/-- A trap that a memory check found (R213). -/
def trapBad (b : Bad × Mask) : Verdict := .trap b.1.cause b.2 0 b.1.addr b.1.acc.code

/-- The unit an opcode needs (R102): 0 the vector unit alone, 1 special functions, 2 the U port, 3 matrix, 4 summaries,
5 the engine port. -/
def unitOf (opc : Nat) : Nat :=
  if 0x2A ≤ opc ∧ opc ≤ 0x31 then 1
  else if opc = 0x3A ∨ opc = 0x5D ∨ (0x60 ≤ opc ∧ opc ≤ 0x6D) ∨ opc = 0xD5 ∨ opc = 0xD6 then 2
  else if 0xA0 ≤ opc ∧ opc ≤ 0xA9 then 3
  else if 0xB0 ≤ opc ∧ opc ≤ 0xB7 then 4
  else if [0x59, 0x5A, 0x5B, 0x5C, 0x82, 0x83, 0xC3, 0xC4, 0xC9, 0xD0, 0xD1, 0xD2, 0xD3, 0xD4].contains opc then 5
  else 0

/-- What stands before the cycle for a stroke that issues in it. -/
def beforeOf (s : State) (st : Stroke) : Before :=
  let gr := (s.group? st.group).getD { part := 0, launch := 0 }
  { st := st, coin := gr.coin, cr := gr.cr }

/-- The lanes of a mask that issue the instruction at its lowest lane's PC. -/
def envOf (k : Nat) (m : Mask) (b : Before) (opc : Nat) (f : Fields) (len : Nat) : Env :=
  { agent := .stroke k, grp := b.st.group, regs := b.st.regs, fifo := b.st.fifo, path := m, act := m
    pc := ((b.st.lanes[(lowest m).getD 0]?).getD {}).pc, opc := opc, f := f, len := len
    sh := (shape opc f).getD { mOk := false }, was := b }

/-- The environment of the agent on turn; its active lanes are not known yet. A stroke killed in the cycle issues no more. -/
def turnEnv (s : State) (opc : Nat) (f : Fields) (len : Nat) : Option Env :=
  match s.turn with
  | .none => none
  | .pathA k m _ _ | .donor k m _ => match s.stroke? k with
    | some st => if st.killed ∨ st.retired then none else some (envOf k m (beforeOf s st) opc f len)
    | none => none
  | .pathB k m w _ => match s.stroke? k with
    | some st => if st.killed ∨ st.retired then none else some (envOf k m w.was opc f len)
    | none => none
  | .ctx g => match s.ctx? g with
    | some c =>
      some { agent := .ctx g, grp := g, regs := {}, fifo := c.fifo, path := 1, act := 1, pc := c.pc, opc := opc, f := f
             len := len, sh := (shape opc f).getD { mOk := false }, was := beforeOf s { group := g, index := 0 } }
    | none => none

/-! ## The resources of a nib (R102) -/

/-- The v registers that an instruction reads as sources, each once: a bound port is read from its ring. -/
def rowsRead (s : State) (x : Env) : List Nat :=
  ((usesOf x.sh x.f).filterMap (fun u => match u with
    | (.v i, false) => if (boundPorts (x.group s)).getLsbD (i - 252) && decide (252 ≤ i) then none else some i
    | _ => none)).eraseDups

/-- The row reads that an instruction takes of each of the four register banks. -/
def bankReads (s : State) (x : Env) : List Nat :=
  (List.range 4).map (fun b => ((rowsRead s x).filter (fun i => i % 4 == b)).length)

/-- Does the special-function unit of a stroke's nib still hold an earlier instruction: ⌈active lanes / 8⌉ cycles from its issue? -/
def sfuHeld (s : State) (k : Nat) : Bool :=
  let q := (((s.core (coreOf (groupOf k))).sfu)[k % 4]?).getD (0, 0)
  decide (s.cycle < q.1 + (q.2 + 7) / 8) && decide (q.1 < s.cycle)

/-- Does a stroke of the same nib wait for the summary unit, which its instruction holds until it completes (R306)? -/
def summaryHeld (s : State) (k : Nat) : Bool :=
  s.strokes.any (fun e => coreOf (groupOf e.1) == coreOf (groupOf k) && e.1 % 4 == k % 4 && e.1 != k &&
    e.2.busy.any (fun b => b.1 == .summary))

/-- Is the unit that an instruction with active lanes needs held by an earlier instruction (R102)? -/
def unitHeld (s : State) (x : Env) : Bool :=
  (unitOf x.opc == 1 && sfuHeld s x.key) || (unitOf x.opc == 4 && summaryHeld s x.key)

/-- Does an instruction load bytes of memory that its stroke's own operations at a unit may stand before: LD, LDT, FXRD, TAGGET, VSW
without .st, the record of an STT, WAITM, PWAIT? -/
def Env.reads (x : Env) : Bool :=
  [0x60, 0x62, 0x63, 0x67, 0xD5, 0x5D, 0xD2].contains x.opc || (x.opc == 0x3A && !bit x.f.m.toNat 0)

/-- Does a summary instruction read and write its record, or SMASK its pool, at once, behind everything in the store FIFO (R306)? -/
def Env.atOnce (x : Env) : Bool := (decide (0xB0 ≤ x.opc) && decide (x.opc ≤ 0xB7)) || x.opc == 0xC3

/-- Does an instruction find its store FIFO shut behind a write to another core that has not landed: operations at a unit that it might
read wait there, or it needs all of it performed (R227, R338)? -/
def fifoShut (s : State) (x : Env) : Bool :=
  let q := fifoOf s x.agent
  (x.reads && (q.dropWhile (fun e => !e.away)).any (fun e => e.unitAt.isSome)) || (x.atOnce && q.any FifoEntry.away)

/-- Do the resources that an instruction needs not remain: its unit is held, its store FIFO is shut, or, for path B, path A took the unit or
too many reads of a register bank (R102)? An instruction without an active lane needs none. A donor quad shares path A's. -/
def heldBack (s : State) (x : Env) : Bool :=
  x.act != 0 && (fifoShut s x || (match s.turn with
    | .pathA _ _ _ _ => unitHeld s x
    | .pathB _ _ w _ => unitHeld s x || (unitOf x.opc != 0 && w.unit == unitOf x.opc) ||
        (List.range 4).any (fun b => let n := ((bankReads s x)[b]?).getD 0
          decide (0 < n) && decide (2 < n + (w.reads[b]?).getD 0))
    | _ => false))

/-- An instruction takes the special-function unit of its nib; a donor quad's lanes count with path A's. -/
def takeUnit (s : State) (x : Env) : State :=
  if unitOf x.opc = 1 ∧ x.act ≠ 0 ∧ x.scribe = false then
    s.modCore x.core (fun c =>
      let q := (c.sfu[x.key % 4]?).getD (0, 0)
      { c with sfu := listPut c.sfu (x.key % 4) (s.cycle, (if q.1 = s.cycle then q.2 else 0) + x.lanes.length) })
  else s

/-! ## Whose turn it is next (R100 to R104) -/

/-- The first donor quads issue. -/
def donorTurn : List (Nat × Mask) → Turn
  | [] => .none
  | d :: ds => .donor d.1 d.2 ds

/-- The donors that have still to issue. -/
def donorsOf : Turn → List (Nat × Mask)
  | .pathA _ _ _ ds | .pathB _ _ _ ds | .donor _ _ ds => ds
  | .none | .ctx _ => []

/-- The lines of a record at an address of a group's space. -/
def recordLines (s : State) (x : Env) (p : Space) (a : Nat) : List Loc :=
  (List.range 8).filterMap (fun i => match p with
    | .C => cLoc s (x.part s) (clusterOf x.core) (a + 128 * i) 128
    | _ => uLoc s x.grp (a + 128 * i) 128)

/-- The address in an s register of a field. -/
def recordAddr (x : Env) (c : Code) : Nat := (x.regs.sGet (Opnd.ofCode c).index).toNat

/-- The bytes, as they are before the cycle, of the record that an SMINIT, RQS, RHH, RDC or SMRG is about to write: loads of path B in
the same cycle see these (R101). -/
def veilOf (s : State) (x : Env) : List FifoEntry :=
  if x.act = 0 ∨ x.opc < 0xB0 ∨ 0xB4 < x.opc then []
  else (recordLines s x (spaceOf x.f) (recordAddr x x.f.a)).map (fun l => .store l (loadBytes s x.fifo l 128))

/-- The turn after an instruction of the agent on turn has issued, parked says that it parked its stroke: path B follows path A and
reads what stood before the cycle; then the donors. After RTE, which leaves every lane where it resumes, no path B follows (R372). -/
def nextTurn (s : State) (x : Env) (parked : Bool := false) : Turn :=
  match s.turn with
  | .pathA k _ b ds =>
    if b = 0 ∨ x.opc = 0xE1 then donorTurn ds
    else match s.stroke? k with
      | some st =>
        let left : Second :=
          { was := { beforeOf s st with veil := veilOf s x }, since := s.nextId, unit := if x.act = 0 then 0 else unitOf x.opc
            reads := if x.act = 0 then [0, 0, 0, 0] else bankReads s x, parked := parked }
        .pathB k b left ds
      | none => donorTurn ds
  | t => donorTurn (donorsOf t)

/-- The turn after a path did not issue for want of a resource: donors, which share path A's instruction, issue with it or not at
all. -/
def heldTurn (s : State) (x : Env) : Turn :=
  match s.turn with
  | .pathA k a b _ => nextTurn { s with turn := .pathA k a b [] } { x with act := 0 }
  | _ => nextTurn s x

/-- Causes decided from the bits, the PC and the allotment (R89, orders 4 to 6). -/
def bitsCause (s : State) (x : Env) : Option Nat :=
  if x.scribe then none
  else
    let handler := x.was.st.handler
    let csr := csrRow x.f.b.toNat
    let priv := x.opc == 0xE1 || (x.opc == 0xE2 && csr.any (fun r => r.2.1 == .handler)) ||
      (x.opc == 0xE3 && csr.any (fun r => r.2.2 == .handler))
    let gr := x.group s
    let bound := boundPorts gr
    let out := (usesOf x.sh x.f).any (fun u => match u.1 with
      | .v i => decide (gr.nregs ≤ i) && !(decide (252 ≤ i) && bound.getLsbD (i - 252))
      | _ => false)
    if scribeOnly x.opc then some cNOTSCRIBE
    else if priv && !handler then some cPRIV
    else if out then some cREGRANGE
    else none

/-- Opcodes that read their source registers in lanes other than their own (R173). -/
def crossLane (opc : Nat) : Bool := [0x43, 0x44, 0x37, 0x38].contains opc

/-- Does an instruction use a v register in lanes other than those that issue it: as a source of such an opcode, or as a destination of
SMASK, which writes every lane of its rows (R327)? -/
def wide (opc : Nat) (dst : Bool) : Bool := crossLane opc || (opc == 0xC3 && dst)

/-- Is a register an operand of lane l that an operation in flight holds? -/
def holdsReg (i : InFlight) (uses : List (RegName × Bool)) (l : Nat) (opc : Nat) : Bool :=
  uses.any (fun u => i.held.any (fun h => h.1 == u.1 && (h.2.getLsbD l || (match u.1 with
    | .v _ => wide opc u.2
    | .s _ | .f _ | .k _ => true
    | _ => false))))

/-- The registers that signatures of lane l of stroke q still lock, by convergence register (R279). -/
def lockedRegs (gr : Group) (q l : Nat) : List (Nat × Nat) :=
  gr.cvs.flatMap (fun e => match e.2.round with
    | some r => (r.sigs.filter (fun g => g.q == q && g.lane == l)).flatMap (fun g =>
        (upTo g.aReg g.aN ++ upTo g.bReg g.bN).map (fun v => (e.1, v)))
    | none => [])

/-- Is an operation one of the MMRs with which stroke q signed the round of a convergence register that has not fired (R281)? -/
def signedWith (gr : Group) (cv q op : Nat) : Bool :=
  gr.cvs.any (fun e => e.1 == cv && e.2.round.any (fun r => r.futs.contains (q, op)))

/-- What keeps a lane from issuing its next instruction (R78, R95, R220, R244, R279, R287). -/
inductive Hazard where
  | window | limit | register | future | lock | banks | acquire
  deriving DecidableEq, Repr

/-- Instructions that access memory: what an acquire holds back (R220). -/
def accesses (opc : Nat) : Bool :=
  opc == 0x3A || opc == 0x5D || (decide (0x60 ≤ opc) && decide (opc ≤ 0x6D)) || (decide (0xB0 ≤ opc) && decide (opc ≤ 0xB7)) ||
    opc == 0xC3 || (decide (0xD0 ≤ opc) && decide (opc ≤ 0xD6))

/-- The input ports that an instruction names as sources (R81). -/
def inputPorts (s : State) (x : Env) : List Nat :=
  let b := boundPorts (x.group s)
  [252, 253].filter (fun p => b.getLsbD (p - 252) && (usesOf x.sh x.f).contains (.v p, false))

/-- The output ports that an instruction writes. -/
def outputPorts (s : State) (x : Env) : List Nat :=
  let b := boundPorts (x.group s)
  [254, 255].filter (fun p => b.getLsbD (p - 252) && (usesOf x.sh x.f).contains (.v p, true))

/-- Does the limit of 8 hold lane l's long-latency instruction: 8 are in flight, or the oldest of the 8 that were is not complete? -/
def limited (st : Stroke) (l : Nat) : Bool :=
  decide (8 ≤ (flights st.inflight l).length) ||
    (st.lanes[l]?).any (fun y => y.full.any (fun o => st.inflight.any (fun i => i.id == o)))

/-- The lanes of a mask in which an instruction's guard holds (R77). -/
def guarded (s : State) (x : Env) (m : Mask) : Mask :=
  if x.f.g then
    match x.agent with
    | .stroke _ =>
      let p := x.regs.pMask x.f.pred.toNat
      m &&& (if x.f.n then ~~~ p else p)
    | .ctx g =>
      let p := mapGet ((s.ctx? g).elim [] (·.p)) x.f.pred.toNat false
      if p != x.f.n then 1 else 0
  else m

/-- What keeps lane l from issuing the instruction of x: a window, the limit of 8, a register, a future, a locked register, a bank that
an operation still to complete will write, an acquire that is not performed. -/
def laneHazard (s : State) (x : Env) (l : Nat) : Option Hazard :=
  let is := x.was.st.inflight
  let uses := readsOf s x
  if windowShut is l then some .window
  else if x.sh.long && limited x.was.st l then some .limit
  else if is.any (fun i => holdsReg i uses l x.opc) then some .register
  else if uses.any (fun u => match u.1 with
      | .f i => (match x.regs.fGet i with
        | .pending op => x.opc != 0x80 && x.opc != 0x81 && x.opc != 0x82 && x.opc != 0x84 &&
          !(x.opc == 0xA0 && signedWith (x.group s) (Opnd.ofCode x.f.c).index (x.key % 32) op)
        | _ => false)
      | _ => false) then some .future
  else if (lockedRegs (x.group s) (x.key % 32) l).any (fun e => uses.any (fun u => u.2 && u.1 == .v e.2)) then some .lock
  else if (guarded s x (laneBit l)).getLsbD l && !(banksOf s x l).isEmpty then some .banks
  else if (accesses x.opc || !(inputPorts s x ++ outputPorts s x).isEmpty) && is.any (·.acq) then some .acquire
  else none

/-- Does a scribe instruction read or write a pending k register (R254)? CCAN does not wait. -/
def ctxHazard (s : State) (x : Env) : Bool :=
  match s.ctx? x.key with
  | some c => x.opc != 0x94 && (usesOf x.sh x.f).any (fun u => match u.1 with
    | .k i => (mapGet? c.pending i).isSome
    | _ => false)
  | none => false

/-- The active lanes (R77). -/
def guardMask (s : State) (x : Env) : Mask := guarded s x x.path

/-- The registers that a lane reads and writes in itself: SHFL, QXCH, SPCMP and SPEXP judge the lanes they read. -/
def ownUses (x : Env) : List (RegName × Bool) :=
  if crossLane x.opc then usesOfRole x.sh.c x.f.c else usesOf x.sh x.f

/-- Instructions that a helper lane takes no part in, so that what its registers hold is not read: its access is suppressed, or it reads
as an inactive lane (R106, R172, R251). -/
def skipsHelpers (x : Env) : Bool :=
  [0x41, 0x42, 0x45, 0x46, 0x47, 0x5C, 0x61, 0x63, 0x64, 0x65, 0x66, 0x68, 0xB1, 0xB2, 0xB3, 0xC4, 0xC9, 0xD0, 0xD1, 0xD3, 0xD4, 0xD6].contains
    x.opc || (x.opc == 0x3A && bit x.f.m.toNat 0)

/-- The active lanes whose registers an instruction reads. -/
def readers (s : State) (x : Env) : Mask := if skipsHelpers x then maskOf (fun l => (x.workers s).contains l) else x.act

/-- The lanes in which a source carries a share tag, where the instruction may not read one (R144, R316). ST judges its
data at the page; MOV, MMR and the share instructions judge their own operands. -/
def taggedLanes (s : State) (x : Env) : Mask :=
  if x.opc = 0x19 ∨ x.opc = 0xA0 ∨ (0xC0 ≤ x.opc ∧ x.opc ≤ 0xC9) then 0
  else
    let us := if x.opc = 0x61 then usesOfRole x.sh.a x.f.a else ownUses x
    let vs := us.filterMap (fun u => match u with
      | (.v i, false) => if (boundPorts (x.group s)).getLsbD (i - 252) && decide (252 ≤ i) then none else some i
      | _ => none)
    maskOf (fun l => (readers s x).getLsbD l && vs.any (fun i => x.regs.tagGet i l != 0))

/-- The lanes that read a register with a poison mark (R376). An MMR judges its own operands (R280). -/
def poisonLanes (s : State) (x : Env) : Mask :=
  if x.opc = 0xA0 then 0
  else
    let src := (ownUses x).filterMap (fun u => if u.2 then none else some u.1)
    let kpois := match x.agent with
      | .ctx g => (s.ctx? g).elim [] (·.kpois)
      | .stroke _ => []
    maskOf (fun l => (readers s x).getLsbD l && src.any (fun r => match r with
      | .v i => x.regs.poisGet i l
      | .s i => mapGet x.regs.spois i false
      | .k i => mapGet kpois i false
      | _ => false))

/-- The arrival number of a stream operation: its own if it is parked on the port already. -/
def arrival (s : State) (x : Env) (port : Nat) : Nat :=
  match x.was.st.park with
  | some (.pop p _ q) | some (.push p _ q) => if p = port then q else s.cycle
  | _ => s.cycle

/-- Popping one port (R236): the words of the lanes, the new state; or a trap, or a park. -/
def popPort (s : State) (x : Env) (port : Nat) : Except Verdict (State × Map Word) :=
  match bindingOf (x.group s) (port - 252) with
  | none => .ok (s, [])
  | some b =>
    let v := ringView s x.grp b
    let ls := x.workers s
    let m := ls.length
    let seq := arrival s x port
    let behind := match ringLoc s x.grp b 0 with
      | some r => ringBehind s false r seq x.key
      | none => false
    let helpers : Map Word := (x.lanes.filter (fun l => x.helper s l)).map (fun l => (l, 0))
    if m = 0 then .ok (s, helpers)
    else if v.broken then .error (trapLanes cSTREAM x.act)
    else if behind || (decide (v.count < m) && !v.closed) then .error (.park (.pop port m seq))
    else
      let k := min m v.count
      let words := popWords s x.grp b v.head k 0 ls
      let s := ringPut s x.grp b 0 ((v.head + k) % 2 ^ 32)
      let late := ls.drop k
      let s := s.modStroke x.key (fun st =>
        st.modLanes allLanes (fun l y => if late.contains l then { y with eos := true } else y))
      .ok (s, words ++ helpers)

/-- Popping every port that the instruction names. -/
def popPorts (s : State) (x : Env) : List Nat → Except Verdict (State × Env)
  | [] => .ok (s, x)
  | p :: ps => match popPort s x p with
    | .error v => .error v
    | .ok (s, ws) => popPorts s { x with pops := (p, ws) :: x.pops } ps

/-- What a push must find before it issues (R237): none if it may issue. -/
def pushCheck (s : State) (x : Env) (port : Nat) : Option Verdict :=
  match bindingOf (x.group s) (port - 252) with
  | none => none
  | some b =>
    let m := (x.workers s).length
    let v := ringView s x.grp b
    match ringLoc s x.grp b 0 with
    | none => some (trapLanes cSTREAM x.act)
    | some r =>
      if m = 0 then none
      else if v.broken || v.closed then some (trapLanes cSTREAM x.act)
      else if ringBehind s true r (arrival s x port) x.key || decide (b.cap < v.count + reservedIn s r + m) then
        some (.park (.push port m (arrival s x port)))
      else none

/-- The push itself: the words of the workers in lane order, at once or when operation op brings them. -/
def pushWords (s : State) (x : Env) (port : Nat) (ws : List WriteBack) (op : Option Nat) : State :=
  match bindingOf (x.group s) (port - 252), x.workers s with
  | some b, ls =>
    match ringLoc s x.grp b 0 with
    | some r =>
      let vals := ls.map (fun l => ((ws.find? (fun w => w.reg == .v port && w.lane == l)).elim 0 (·.val)).truncate 32)
      if ls.isEmpty then s
      else
        let v := ringView s x.grp b
        let res : Resv :=
          { ring := r, group := x.grp, stroke := x.key, port := port - 252, start := v.tail + reservedIn s r, m := ls.length, vals := vals
            ready := op.isNone, op := op.getD s.nextId }
        let s := { s with resv := s.resv ++ [res], nextId := if op.isNone then s.nextId + 1 else s.nextId }
        s.advanceRing r
    | none => s
  | _, _ => s

/-- The agent's FIFO drained of what stood in it before the cycle, for a load (R101): path B leaves what path A has just stored. -/
def Env.drained (x : Env) (s : State) : State :=
  let q := fifoOf s x.agent
  drain (if q.take x.fifo.length = x.fifo then x.fifo.length else q.length) s x.agent

/-- The agent's FIFO drained for a release: path A's stores of the same cycle, which path B follows in stroke order, too (R221). -/
def Env.released (x : Env) (s : State) : State := drainFifo s x.agent

/-- The pushes of every output port that the instruction names; each is a release of what the stroke has stored before it (R237). -/
def pushAll (s : State) (x : Env) (ps : List Nat) (ws : List WriteBack) (op : Option Nat) : State :=
  if ps = [] ∨ x.workers s = [] then s else ps.foldl (fun s p => pushWords s x p ws op) (x.released s)

/-- Has a push, a release, still to wait for accesses before it: a write to another core, or words reserved in other rings? Words of
its own ring come before its own in any case (R237, R342). -/
def pushWaits (s : State) (x : Env) : Bool :=
  let own := (outputPorts s x).filterMap (fun p => (bindingOf (x.group s) (p - 252)).bind (fun b => ringLoc s x.grp b 0))
  (fifoOf s x.agent).any FifoEntry.away || s.resv.any (fun r => r.stroke == x.key && !own.contains r.ring)

/-- What a push waits for before it issues: room in its ring, and, since it is a release, the accesses of its stroke before it that the
push itself cannot perform. Of s, before its pops, and t, after them, the machine in which it then executes. -/
def readyPush (s t : State) (x : Env) : Except Verdict State :=
  match (outputPorts t x).findSome? (pushCheck t x) with
  | some v => .error v
  | none =>
    if outputPorts t x = [] ∨ x.workers t = [] then .ok t
    else if pushWaits (x.released t) x then .error (.parkIn (.fence false) (x.released s)) else .ok t

/-- A release that an instruction makes at its issue (R342): what stands in the FIFO is performed, and the instruction waits for the
agent's writes to other cores and its words still to be pushed, at `.sy` for its stores to other devices too. -/
def afterRelease (x : Env) (s : State) (sy : Bool) (v : State → Verdict) : Verdict :=
  let t := x.released s
  if releaseWaits t x.agent sy then .parkIn (.fence sy) t else v t

/-- The flags that an instruction raises in a lane. -/
def flagsOf (fs : List (Nat × Flags)) (l : Nat) : Flags :=
  fs.foldl (fun a f => if f.1 = l then a ||| f.2 else a) 0

/-- The registers that an operation in flight holds: a future says itself that it is pending (R244). -/
def heldDests (x : Env) : List RegName := (destsOf x.sh x.f).filter (fun r => match r with
  | .f _ => false
  | _ => true)

/-- The opcodes of load instructions. -/
def loadCodes : List Nat := [0x60, 0x62, 0x67, 0xD5, 0x3A]

/-- Is this a load instruction of G or D: LD, LDT, FXRD, TAGGET, or VSW without .st, of thread code (R399)? -/
def farLoad (x : Env) : Bool :=
  loadCodes.contains x.opc && (x.opc != 0x3A || !bit x.f.m.toNat 0) && (spaceOf x.f == .G || spaceOf x.f == .D) &&
    !x.scribe

/-- Is this load one that the cluster samples: one in 64 of its partition (R399, log 20)? -/
def sampledLoad (s : State) (x : Env) : Bool :=
  farLoad x && mapGet s.sys.loads (8 * clusterOf x.core + x.part s) 0 % 64 == 0

/-- A G or D load counted for its cluster and partition. -/
def countLoad (s : State) (x : Env) : State :=
  if farLoad x ∧ x.act ≠ 0 then
    let k := 8 * clusterOf x.core + x.part s
    { s with sys := { s.sys with loads := mapPut s.sys.loads k (mapGet s.sys.loads k 0 + 1) } }
  else s

/-- The s registers that an instruction writes: path B's write comes after one of path A in the same cycle, whenever that one's
value comes (R81, R101). -/
def scalarDests (x : Env) : List RegName := if x.act = 0 then [] else (destsOf x.sh x.f).filter (fun r => match r with
  | .s _ => true
  | _ => false)

/-- A stroke whose path B writes registers rs: what path A of the same cycle has yet to write to them is dropped. -/
def yielded (s : State) (rs : List RegName) (st : Stroke) : Stroke := match s.turn with
  | .pathB _ _ w _ => { st with
      inflight := st.inflight.map (fun i =>
        if i.id < w.since then i else { i with void := i.void ++ rs, held := i.held.filter (fun h => !rs.contains h.1) })
      busy := st.busy.map (fun b => (b.1, b.2.filter (fun r => !rs.contains r.reg))) }
  | _ => st

/-- The park of a stroke after an instruction of it has committed: none, but for what path A of the cycle has left (R95). -/
def parkLeft (s : State) (p : Option Park) : Option Park := match s.turn with
  | .pathB _ _ w _ => if w.parked then p else none
  | _ => none

/-- The operation in flight that a long-latency instruction leaves (R78). -/
def flightOf (s : State) (x : Env) (e : Effect) (op : Nat) : InFlight :=
  { id := op, lanes := x.path, counts := e.counts, la := x.f.la.toNat
    held := (heldDests x).map (fun r => (r, x.act)) ++ e.held, result := e.writes, waitFor := e.waitFor
    engine := e.engine, since := if sampledLoad s x then some s.cycle else none, acq := e.acq }

/-- The issuing stroke of an instruction that commits (R5, R78, R101): its writes, flags and PCs. -/
def commitTo (s : State) (x : Env) (e : Effect) (st : Stroke) : Stroke :=
  let own := e.writes.filter (fun w => !toPort (x.group s) w)
  let st := { yielded s (scalarDests x) st with park := parkLeft s st.park }
  let st := { st with inflight := countIssue x.path st.inflight }
  let st := match e.later with
    | some op => { st with inflight := st.inflight ++ [flightOf s x e op] }
    | none => match e.slow with
      | some u => { st with busy := st.busy ++ [(u, own)] }
      | none => { st with regs := st.regs.applyAll own }
  let st := { st with kept := st.kept.filter (fun r => r.act &&& x.path == 0) }
  st.modLanes x.path (fun l y => { y with
    pc := ((e.jumps.find? (fun j => j.1 == l)).map (·.2)).getD (x.pc + BitVec.ofNat 64 x.len)
    aging := 0
    full := limitOf st.inflight l
    sticky := y.sticky ||| flagsOf e.flags l })

/-- An instruction of a stroke commits, and what it pushes is pushed. -/
def commitStroke (s : State) (x : Env) (e : Effect) : State :=
  pushAll (takeUnit ((countLoad e.st x).modStroke x.key (commitTo s x e)) x) x (outputPorts s x) e.writes e.later

/-- An instruction of a scribe context commits. -/
def commitCtx (s : State) (x : Env) (e : Effect) : State :=
  let pc := ((e.jumps.head?).map (·.2)).getD (x.pc + BitVec.ofNat 64 x.len)
  e.st.modCtx x.key (fun c => { e.writes.foldl ScribeCtx.apply c with pc := pc, lastIssue := s.cycle })

def commit (s : State) (x : Env) (e : Effect) : State :=
  match x.agent with
  | .stroke _ => commitStroke s x e
  | .ctx _ => commitCtx s x e

/-- An instruction with no active lane moves the PCs of its path on, and nothing else (R77). -/
def skip (s : State) (x : Env) : State := commit s x { st := s }

/-- The trap path (R367): every live lane of the stroke whose PC is the trapping instruction's address, whether it issued or was held off. -/
def trapPath (s : State) (x : Env) : Mask := match x.agent with
  | .stroke k => maskOf (fun l => ((s.stroke? k).bind (fun st => st.lanes[l]?)).any (fun y => y.live && y.pc == x.pc))
  | .ctx _ => x.path

/-- An instruction traps: nothing of it is committed, and path B of the same cycle does not issue (R367); donors do (R104). -/
def trapAt (s : State) (x : Env) (cause : Nat) (m : Mask) (code addr acc : Nat) : State :=
  takeTrap { s with turn := donorTurn (donorsOf s.turn) } x.agent
    { cause := cause, code := code, addr := x.pc, mask := m, path := trapPath s x, async := false } addr acc

/-- The stroke parks at the instruction (R95), unless path A of the cycle has parked it already; none of its lanes is eligible any more
(R103). A scribe context waits and issues it again. -/
def parkAt (s : State) (x : Env) (p : Park) : State :=
  let t := { s with turn := nextTurn s { x with act := 0 } true }
  match x.agent with
  | .stroke k => t.modStroke k (fun st =>
      { st with park := some ((parkLeft s st.park).getD p) }.modLanes allLanes (fun _ y => { y with aging := 0 }))
  | .ctx g => t.modCtx g (fun c => match p with
    | .presence core (l :: _) => { c with parkLine := some (core, l) }
    | .locked => { c with lockWait := true }
    | _ => { c with lastIssue := s.cycle })

/-- A path does not issue in this slot: its lanes count it (R102, R103), but a donor stroke's count no slot (R104). A scribe context issues
its instruction again. -/
def holdBack (s : State) (x : Env) : State :=
  let t := match x.agent, s.turn with
    | .stroke _, .donor _ _ _ => s
    | .stroke k, _ => s.modStroke k (fun st => st.modLanes x.path (fun _ y => { y with aging := y.aging + 1 }))
    | .ctx g, _ => s.modCtx g (fun c => { c with lastIssue := s.cycle })
  { t with turn := heldTurn s x }

/-- Does a parked instruction issue afresh, rather than complete where it stands (R95)? -/
def Park.again : Park → Bool
  | .waitm .. | .pwait .. | .baton .. => false
  | _ => true

/-- A parked instruction that issues afresh has popped nothing (R239): of t, the heads of its input rings and the $eos flags of its lanes
as they were in s. -/
def unpopped (s : State) (y : Env) (t : State) : State :=
  if y.pops.isEmpty then t
  else
    let t := y.pops.foldl (fun t p => match bindingOf (y.group s) (p.1 - 252) with
      | some b => ringPut t y.grp b 0 (ringWord s y.grp b 0)
      | none => t) t
    t.modStroke y.key (fun st => st.modLanes allLanes (fun l x => { x with eos := (laneOf s y.key l).eos }))

/-- The machine in which an instruction of s has left its request and parks. -/
def parkedIn (s : State) (y : Env) (p : Park) (t : State) : State := if p.again then unpopped s y t else t

/-- The verdict of an instruction whose ports have let it pass. -/
def Verdict.unpop (s : State) (y : Env) : Verdict → Verdict
  | .parkIn p t => .parkIn p (parkedIn s y p t)
  | v => v

/-- How a verdict leaves the machine. -/
def conclude (s : State) (x : Env) (v : Verdict) : State :=
  match v with
  | .hold => holdBack s x
  | .commit e => { commit s x e with turn := nextTurn s x }
  | .trap c m code addr acc => trapAt s x c m code addr acc
  | .park p => parkAt s x p
  | .parkIn p t => { parkAt t x p with turn := nextTurn s { x with act := 0 } true }

/-- The active part of an issue: tags, poison, ports, then the instruction's own meaning (R89 order 7). -/
def execute (s : State) (x : Env) (body : Env → State → Verdict) : State :=
  let tagged := taggedLanes s x
  let poison := poisonLanes s x
  if tagged ≠ 0 then trapAt s x cSHARETAG tagged 0 0 0
  else if poison ≠ 0 then trapAt s x cPOISON poison 0 0 0
  else match popPorts s x (inputPorts s x) with
    | .error v => conclude s x v
    | .ok (t, y) =>
      match readyPush s t y with
      | .error v => conclude s x v
      | .ok u => conclude s x ((body y u).unpop s y)

/-- THE ISSUE OF AN INSTRUCTION by the agent on turn, in the order of R89: the causes decided from its bits, the guard, the resources
of its nib, then its own meaning. Its lanes wait for nothing: a path has eligible lanes alone (R95, R100). -/
def issue (opc : Nat) (f : Fields) (len : Nat) (body : Env → State → Verdict) (s : State) :
    Host.Outcome State Fault Refusal :=
  match turnEnv s opc f len with
  | none => .fault .noTurn
  | some x =>
    match bitsCause s x with
    | some c => .next (trapAt s x c x.path 0 0 0)
    | none =>
      let y := { x with act := guardMask s x }
      if x.scribe && ctxHazard s x then .next { s with turn := .none }
      else if y.act = 0 then .next { skip s y with turn := nextTurn s y }
      else if heldBack s y then .next (holdBack s y)
      else .next (execute s y body)

/-! ## Bodies -/

/-- The faulting fetch or the undecodable word of the agent on turn (R89 orders 1 to 3). -/
def fetchTrap (s : State) (cause addr : Nat) : State :=
  match turnEnv s 0x58 plainFields 0 with
  | some x => trapAt s x cause x.path 0 addr Acc.fetch.code
  | none => s

/-- A result for each active lane, and its flags, written to D. -/
def results (x : Env) (s : State) (g : Nat → Nat × Flags) : Verdict :=
  let rs := x.lanes.map (fun l => (l, g l))
  .commit { st := s, writes := putD x (rs.map (fun r => (r.1, r.2.1))), flags := rs.map (fun r => (r.1, r.2.2)) }

/-- The same for a long-latency instruction: the writes come when the operation completes (R78). In scribe code they are
made at once (R90). -/
def resultsLater (x : Env) (s : State) (g : Nat → Nat × Flags) : Verdict :=
  let rs := x.lanes.map (fun l => (l, g l))
  let ws := putD x (rs.map (fun r => (r.1, r.2.1)))
  let fs := rs.map (fun r => (r.1, r.2.2))
  if x.scribe then .commit { st := s, writes := ws, flags := fs }
  else .commit { st := { s with nextId := s.nextId + 1 }, writes := ws, flags := fs, later := some s.nextId }

/-- A verdict that leaves the state alone but for PCs. -/
def plain (s : State) : Verdict := .commit { st := s }

/-- The CR.FPM control fields of the issuing stroke (R117). -/
def ftzOf (_ : State) (x : Env) : Bool := x.was.st.ftz
def rmOf (_ : State) (x : Env) : Rnd := Rnd.ofCode x.was.st.rm.toNat

end Sys2Proof.Machine
end

