-- ==== Sys2Proof/Machine/Tiles.lean ====
section
/-!
DEFINITION. Tile records (R19, R20, R204): their fields, which of them are malformed, and where elements, block scales
and index metadata lie.
-/
namespace Sys2Proof.Machine

/-- A tile record (R204). -/
structure Tile where
  base   : Nat
  rows   : Nat
  cols   : Nat
  stride : Nat
  tag    : Nat
  gen    : Nat
  spare  : Nat
  deriving DecidableEq, Repr

/-- The record in 32 bytes. -/
def tileOf (r : List Byte) : Tile :=
  { base := field r 0 8, rows := field r 8 4, cols := field r 12 4, stride := field r 16 4, tag := field r 20 2
    gen := field r 22 2, spare := field r 24 8 }

def Tile.fmt (t : Tile) : Nat := bits t.tag 4 0
def Tile.sparse (t : Tile) : Nat := bits t.tag 7 5
def Tile.layout (t : Tile) : Nat := bits t.tag 11 8
def Tile.ty (t : Tile) : Ty := tyOf (BitVec.ofNat 5 t.fmt)

/-- Is a tag made of codes that R19 defines? -/
def tagOk (tag : Nat) : Bool :=
  decide (bits tag 15 12 = 0) && decide (bits tag 4 0 ≤ 0x15) && decide (bits tag 7 5 ≤ 2) && decide (bits tag 11 8 ≤ 3)

/-- Malformed (R20). -/
def Tile.malformed (t : Tile) : Bool :=
  t.spare != 0 || !tagOk t.tag || t.base % 16 != 0 || t.stride % 16 != 0 || t.rows == 0 || t.cols == 0 ||
    decide (2 ^ 31 ≤ t.rows) || decide (2 ^ 31 ≤ t.cols)

/-- Vectors of a tile and the elements of each: rows, or columns for LAYOUT 1 (R19). -/
def Tile.vectors (t : Tile) : Nat := if t.layout = 1 then t.cols else t.rows
def Tile.vecLen (t : Tile) : Nat := if t.layout = 1 then t.rows else t.cols

/-- Up to the next 16-byte boundary. -/
def align16 (n : Nat) : Nat := (n + 15) / 16 * 16

/-- K and the registers of an A fragment of a format (R270); none where it is no operand of MMR. -/
def fragShape (t : Ty) : Option (Nat × Nat) :=
  if t == .bf16 || t == .f16 then some (32, 8)
  else if t == .e4m3 || t == .e5m2 || t == .i8 then some (64, 8)
  else if t == .mxf4 || t == .i4x then some (128, 9)
  else none

/-- Does a tile of fragments hold whole blocks (R272)? -/
def Tile.fragOk (t : Tile) : Bool := match fragShape t.ty with
  | some (k, _) => t.rows % 16 == 0 && t.cols % k == 0
  | none => false

/-- Bytes of the element data (R19, R272). -/
def Tile.dataBytes (t : Tile) : Nat :=
  match t.layout, fragShape t.ty with
  | 3, some (k, n) => t.rows / 16 * (t.cols / k) * (128 * n)
  | _, _ => t.vectors * t.stride

/-- Bytes of the scale array: one for each block of each vector, for mxf4 and i4x (R19); LAYOUT 3 has its scales in its fragments (R272). -/
def Tile.blocked (t : Tile) : Bool := t.ty == .mxf4 || t.ty == .i4x
def Tile.scaleBytes (t : Tile) : Nat := if t.blocked && t.layout != 3 then t.vectors * ((t.vecLen + 31) / 32) else 0

/-- Where the scale array and the index metadata start, from the base. -/
def Tile.scaleAt (t : Tile) : Nat := align16 t.dataBytes
def Tile.metaAt (t : Tile) : Nat := align16 (if t.blocked && t.layout != 3 then t.scaleAt + t.scaleBytes else t.dataBytes)

/-- Columns that a tile stores: half of them for a 2:4 tile (R19). -/
def Tile.stored (t : Tile) : Nat := if t.sparse = 1 then t.cols / 2 else t.cols

/-- The place, counted in bits from the base, of stored element (i, j) in row-major 32 × 32 blocks. DESIGN CHOICE (log 30): blocks at the edges hold
the rows and columns that remain, and each block follows the one before it without a gap. -/
def Tile.blockBit (t : Tile) (i j : Nat) : Nat :=
  let h := min 32 (t.rows - i / 32 * 32)
  let w := min 32 (t.stored - j / 32 * 32)
  8 * t.stride * (i / 32 * 32) + t.ty.bits * (h * (j / 32 * 32) + Config.blockElem h w (i % 32) (j % 32) % (h * w))

/-- The byte of a fragment block at which byte kb of row r stands (R271, R272). -/
def fragByte (r kb : Nat) : Nat := 128 * (kb % 32 / 4) + 4 * (2 * r + kb / 32) + kb % 4

/-- The first byte of the fragment block that holds element (i, j), from the base (R272). -/
def Tile.fragBlock (t : Tile) (i j k n : Nat) : Nat := (i / 16 * (t.cols / k) + j / k) * (128 * n)

/-- The bit of element (i, j) from the base, by LAYOUT (R19, R272; LAYOUT 2: log 18). -/
def Tile.elemBit (t : Tile) (i j : Nat) : Nat :=
  let w := t.ty.bits
  match t.layout with
  | 0 => 8 * t.stride * i + w * j
  | 1 => 8 * t.stride * j + w * i
  | 2 => t.blockBit i j
  | _ => match fragShape t.ty with
    | some (k, n) =>
      let kb := j % k * w / 8
      8 * (t.fragBlock i j k n + fragByte (i % 16) kb) + j % k * w % 8
    | none => 0

/-- The byte of the scale of the block that holds element (i, j). A vector's elements are counted as columns of the tile: DESIGN CHOICE for a
2:4 tile, of which R19 does not say whether its blocks count the logical or the stored ones (log 18). -/
def Tile.scaleOff (t : Tile) (i j : Nat) : Nat :=
  let v := if t.layout = 1 then j else i
  let e := if t.layout = 1 then i else j
  if t.layout = 3 then t.fragBlock i j 128 9 + 128 * 8 + 4 * (2 * (i % 16) + j % 128 / 64) + j % 128 / 32 % 2
  else t.scaleAt + v * ((t.vecLen + 31) / 32) + e / 32

end Sys2Proof.Machine
end

