-- ==== Sys2Proof/Machine/Hub.lean ====
section
/-!
DEFINITION. What the hub dies do for a partition: accesses through its two stages of translation (R15, R31, R32), its
integrity counters (R395), its launch queues (R26 to R29), and the ends of a launch: status word, successor, future
(R18, R30, R31, R389).
-/
namespace Sys2Proof.Machine

/-! ## Accesses on a partition's behalf -/

/-- Why an access on a partition's behalf is not made: a stage-2 fault that waits for firmware, or for good (R15, R31). -/
inductive Unread where
  | hold (b : Bad)
  | gone
  deriving DecidableEq, Repr

/-- The page of a virtual address, allowed for a kind of access; kinds are the stage-2 KINDs accepted. DESIGN CHOICE: a share page is read and written
as any other by what the hub does for a partition; only copies and peer accesses look at SHARE (log 30). -/
def hubPage (s : State) (part va : Nat) (acc : Acc) (kinds : List Nat) : Except Bad TlbEntry :=
  match walkPage s part va with
  | .error .page => .error ⟨4, cPAGEFAULT, va, acc⟩
  | .error (.stage2 ipa) => .error ⟨5, cS2FAULT, ipa, acc⟩
  | .ok p =>
    let need (b : BitVec 3) : Bool := match acc with
      | .load => b.getLsbD 0
      | .store => b.getLsbD 1
      | .atomic => b.getLsbD 0 && b.getLsbD 1
      | .fetch => b.getLsbD 2
    if kinds.contains p.kind = false then .error ⟨6, cSPACE, va, acc⟩
    else if need p.s1 = false then .error ⟨7, cPROT, va, acc⟩
    else if need p.s2 = false ∨ (p.cow = true ∧ acc.writes = true) then .error ⟨8, cS2FAULT, va, acc⟩
    else .ok p

/-- The places of n bytes at a virtual address, page by page: fuel is the pages left. -/
def hubPlaces (s : State) (part : Nat) (acc : Acc) (kinds : List Nat) : Nat → Nat → Nat → Except Bad (List (Loc × Nat))
  | 0, _, _ => .ok []
  | fuel + 1, va, n =>
    if n = 0 then .ok []
    else match hubPage s part va acc kinds with
      | .error b => .error b
      | .ok p =>
        let k := min n (4096 - va % 4096)
        let l : Loc := { home := homeOfKind p.kind, addr := p.phys va, key := if p.kind = 0 then p.key else 0 }
        match hubPlaces s part acc kinds fuel (va + k) (n - k) with
        | .error b => .error b
        | .ok r => .ok ((l, k) :: r)

def anyKind : List Nat := [0, 1, 2]

/-- The places of n bytes, or why they cannot be reached: ended are the addresses whose stage-2 faults firmware ended. -/
def hubReach (s : State) (part : Nat) (ended : List Nat) (va n : Nat) (acc : Acc) (kinds : List Nat) :
    Except Unread (List (Loc × Nat)) :=
  match hubPlaces s part acc kinds (n / 4096 + 2) va n with
  | .error b => .error (if b.cause == cS2FAULT && !ended.contains b.addr then .hold b else .gone)
  | .ok ls => .ok ls

/-- The bytes at places. -/
def readPlaces (s : State) (ls : List (Loc × Nat)) : List Byte := ls.flatMap (fun l => readBytes s l.1 l.2)

/-- Bytes written at places. -/
def writePlaces (s : State) : List (Loc × Nat) → List Byte → State
  | [], _ => s
  | (l, n) :: ls, bs => writePlaces (writeBytes s l (bs.take n)) ls (bs.drop n)

/-- n bytes read in a single read; poison makes them unreadable (R15, R393). -/
def hubRead (s : State) (part : Nat) (ended : List Nat) (va n : Nat) (kinds : List Nat) : Except Unread (List Byte) :=
  match hubReach s part ended va n .load kinds with
  | .error e => .error e
  | .ok ls => if ls.any (fun l => s.mem.anyPoison l.1 l.2) then .error .gone else .ok (readPlaces s ls)

/-! ## Errors -/

/-- A partition error with nobody to kill (R44, R373). -/
def reportError (s : State) (part cause who : Nat) : State :=
  s.modPart part (fun p => { p with errors := p.errors ++ [(cause, who)] })

/-! ## Queues (R26, R28, R29) -/

/-- Entries that the queue of a class still takes. -/
def queueRoom (s : State) (part cls : Nat) : Nat := match s.part? part with
  | some p => Config.queueSram + (p.spill[cls]?).getD 0 - ((p.queues[cls]?).getD []).length
  | none => 0

/-- A list of a class changed. -/
def modClass (ls : List (List Nat)) (cls : Nat) (g : List Nat → List Nat) : List (List Nat) :=
  ls.mapIdx (fun i l => if i = cls then g l else l)

/-- A launch enters the tail of its queue; n is its number. -/
def enqueueLaunch (s : State) (l : Launch) : State :=
  let s := { s with launches := mapPut s.launches l.id l }
  s.modPart l.part (fun p => { p with queues := modClass p.queues l.cls (· ++ [l.id]) })

/-- A launch leaves every list that the distributor keeps. -/
def unlist (s : State) (part id : Nat) : State :=
  let out (l : List Nat) : List Nat := l.filter (· != id)
  s.modPart part (fun p => { p with queues := p.queues.map out, ready := p.ready.map out, hold := out p.hold })

/-- A packet's entry (R13, R28, R29). -/
def packetLaunch (id part : Nat) (bs : List Byte) (poisoned : Bool) (op : Option Nat) : Launch :=
  { id := id, part := part, cls := bits (field bs 32 2) 1 0, isTask := false, packet := bs
    status := BitVec.ofNat 64 (field bs 56 8), poisoned := poisoned, op := op }

/-- A task record's entry (R16, R29). -/
def taskLaunch (id part : Nat) (bs : List Byte) (at_ : Nat) (poisoned : Bool) : Launch :=
  { id := id, part := part, cls := bits (field bs 2 1) 3 2, isTask := true, packet := [], record := bs
    recAddr := BitVec.ofNat 64 at_, poisoned := poisoned }

/-! ## Ends of a launch (R30, R31, R389) -/

/-- The status word (R30). -/
def statusWord (l : Launch) : Nat :=
  l.code * 2 ^ 56 + (if l.late then 2 ^ 51 else 0) + (if l.skew then 2 ^ 50 else 0) + (if l.succErr then 2 ^ 49 else 0) +
    (if l.conv then 2 ^ 48 else 0) + l.good % 2 ^ 32

/-- Codes of R30. -/
def codeBADPKT : Nat := 1
def codeBADHDR : Nat := 2
def codeBADGRID : Nat := 3
def codeBADALLOT : Nat := 4
def codeNOFIT : Nat := 5
def codeFAILED : Nat := 6
def codeNOMETHOD : Nat := 7

/-- A fault record for an access made for a launch, unless one stands already (R15, R31, R32). -/
def launchFault (s : State) (l : Launch) (b : Bad) : State :=
  let open_ := (s.part? l.part).elim false (fun p => p.faults.any (fun f => f.launch == some l.id))
  if open_ then s
  else
    let q := sendFault s l.part 0 b.cause b.addr b.acc.code none none
    q.1.modPart l.part (fun p => { p with
      faults := p.faults.map (fun f => if f.token = q.2 then { f with launch := some l.id } else f) })

/-- What became of a store of a status word. -/
inductive Stored where
  | done (s : State)
  | held (s : State)

/-- A status word stored at the status address (R31): none for address 0; LAUNCHERR gains 1 where it cannot be made. -/
def storeStatus (s : State) (l : Launch) : Stored :=
  if l.status = 0 then .done s
  else match hubReach s l.part l.ended l.status.toNat 8 .store anyKind with
    | .ok ls => .done (writePlaces s ls (natBytes 8 (statusWord l)))
    | .error .gone => .done (countUp s l.part 8 1)
    | .error (.hold b) => .held (launchFault s l b)

/-- A wait block by its level address (R18): none for an address that names none. DESIGN CHOICE: a C block whose second half lies beyond the window
names none, as a block whose offset does (log 30). -/
def waitBlock (s : State) (l : Launch) (a n : Nat) (acc : Acc) : Except Unread (List (Loc × Nat)) :=
  if a % 64 ≠ 0 then .error .gone
  else if a / 2 ^ 32 = 0xFFFFFFFE then
    match cLoc s l.part l.cluster (a % 2 ^ 32) 128, cLoc s l.part l.cluster (a % 2 ^ 32 + 64) 64 with
    | some p, some q => .ok (if n ≤ 64 then [(p, n)] else [(p, 64), (q, 64)])
    | _, _ => .error .gone
  else hubReach s l.part l.ended a n acc [0, 1]

/-- What a decrement of a wait block does (R18): it fails, it waits for firmware, it is made, or it takes the counter to 0
and yields the block's bytes, bad where its record cannot be read. -/
inductive Decrement where
  | fails
  | holds (b : Bad)
  | made (s : State)
  | zero (s : State) (block : List Byte) (bad : Bool)

/-- The counter alone decides whether a block is decremented. The record lies in the block's second half; one that cannot be read is a record
that its check rejects (R15; DEDUCED, log 17). -/
def decrement (s : State) (l : Launch) : Decrement :=
  match waitBlock s l l.succ.toNat 8 .atomic with
  | .error (.hold b) => .holds b
  | .error .gone => .fails
  | .ok c =>
    let n := bytesNat (readPlaces s c)
    let t := writePlaces s c (natBytes 8 (n - 1))
    if c.any (fun p => s.mem.anyPoison p.1 p.2) || n == 0 then .fails
    else if n ≠ 1 then .made t
    else match waitBlock s l l.succ.toNat 64 .load, waitBlock s l l.succ.toNat 128 .load with
      | .error (.hold b), _ | _, .error (.hold b) => .holds b
      | .ok hs, .ok ls => .zero t (readPlaces s hs ++ (readPlaces s ls).drop 64) (ls.any (fun p => s.mem.anyPoison p.1 p.2))
      | .ok hs, .error .gone => .zero t (readPlaces s hs ++ List.replicate 64 0) true
      | .error .gone, _ => .fails

/-- The task that a wait block enqueues (R18, R42): it carries METHOD, and the future of the task that it replaces, when the device wrote the
block. -/
def blockTask (s : State) (l : Launch) (id : Nat) (bs : List Byte) (bad : Bool) : Launch :=
  let own := (s.part? l.part).bind (fun p => mapGet? p.blocks l.succ.toNat)
  { taskLaunch id l.part (bs.drop 64) (l.succ.toNat + 64) bad with
    status := BitVec.ofNat 64 (field bs 8 8)
    method := own.map (fun _ => (bs.drop 32).take 32)
    conv := own.isSome
    slots := own.elim [] (·.1)
    op := own.bind (·.2) }

/-- The result word of a LAUNCH future (R249). -/
def launchResult (l : Launch) : Word := BitVec.ofNat 32 (statusWord l / 2 ^ 32)

/-- A launch is over: its arena slots are free, its future is done, the device forgets it. -/
def endLaunch (s : State) (l : Launch) : State :=
  let s := s.modPart l.part (fun p => { p with arena := p.arena.filter (fun i => !l.slots.contains i) })
  let s := match l.op with
    | some op => futureDone s op (launchResult l)
    | none => s
  { unlist s l.part l.id with
    launches := mapDel s.launches l.id
    chunks := s.chunks.filter (fun c => c.launch != l.id) }

/-- Does a rejection leave no trace (R31)? -/
def silent (l : Launch) : Bool := l.status == 0 && l.op.isNone

/-- Steps 5 and 6 of R389, and the end. A second store of the word follows a failed decrement. -/
def finishLaunch (s : State) (l : Launch) : State :=
  if l.succErr then
    match storeStatus s l with
    | .done s => endLaunch s l
    | .held s => s
  else endLaunch s l

/-- Step 4 of R389: the successor is decremented, unless the launch failed, was rejected or had no method. -/
def succeedLaunch (s : State) (l : Launch) : State :=
  if l.succ = 0 ∨ l.code ≠ 0 then finishLaunch s l
  else match decrement s l with
    | .holds b => launchFault s l b
    | .made s => finishLaunch s l
    | .fails =>
      let l := { l with succErr := true, phase := .waiting }
      finishLaunch { s with launches := mapPut s.launches l.id l } l
    | .zero s bs bad =>
      let t := blockTask s l s.nextId bs bad
      let s := s.modPart l.part (fun p => { p with blocks := mapDel p.blocks l.succ.toNat })
      { s with
        nextId := s.nextId + 1
        launches := mapPut (mapPut s.launches t.id t) l.id { l with phase := .waiting, blocked := some t.id } }

/-- A launch that has its final code goes through steps 3 to 6 of R389 as far as it can. -/
def concludeLaunch (s : State) (id : Nat) : State :=
  match s.launch? id with
  | none => s
  | some l =>
    match l.phase with
    | .ending =>
      (match storeStatus s l with
      | .held s => s
      | .done s =>
        let l := { l with phase := .signalled }
        succeedLaunch { s with launches := mapPut s.launches id l } l)
    | .signalled => succeedLaunch s l
    | .waiting => if l.blocked.isSome then s else finishLaunch s l
    | _ => s

/-- A launch ends with a code before any of its groups is placed (R31); a silent rejection is counted. -/
def rejectLaunch (s : State) (id code : Nat) : State :=
  match s.launch? id with
  | none => s
  | some l =>
    let s := if silent l && code != codeNOMETHOD && code != codeFAILED then countUp s l.part 8 1 else s
    let s := unlist s l.part id
    concludeLaunch (s.modLaunch id (fun l => { l with phase := .ending, code := code })) id

/-! ## The hold list (R32, R33) -/

/-- A launch leaves the hold list for the eligible ones of its class. -/
def releaseHeld (s : State) (l : Launch) : State :=
  (unlist s l.part l.id).modPart l.part (fun p => { p with ready := modClass p.ready l.cls (· ++ [l.id]) })

/-- A launch whose wait is satisfied: a timed one waits for its start, and is late if that has passed (R33). -/
def satisfied (s : State) (l : Launch) : State :=
  let late := l.timed && decide (l.tstart < s.ns)
  let l := { l with phase := .eligible, late := l.late || late }
  let s := { s with launches := mapPut s.launches l.id l }
  if l.timed && decide (s.ns < l.tstart) then s else releaseHeld s l

/-- One read of a held launch's counter. -/
def pollHeld (s : State) (id : Nat) : State :=
  match s.launch? id with
  | some l =>
    if l.phase = .held ∧ l.nomethod = none then
      match hubRead s l.part l.ended l.waitAddr.toNat 8 anyKind with
      | .error (.hold b) => launchFault s l b
      | .error .gone => rejectLaunch s id codeBADPKT
      | .ok bs => if l.waitVal ≤ bytesNat bs then satisfied s l else s
    else s
  | none => s

/-- A round of reads of a partition's counters, in the order in which its launches joined. -/
def pollHold (s : State) (part : Nat) : State := ((s.part? part).elim [] (·.hold)).foldl pollHeld s

/-- Does the hold list have a place? -/
def holdRoom (s : State) (part : Nat) : Bool := match s.part? part with
  | some p => decide (p.hold.length < Config.holdPlaces)
  | none => false

/-- A launch joins the hold list. -/
def joinHold (s : State) (l : Launch) : State :=
  let s := { s with launches := mapPut s.launches l.id { l with phase := .held } }
  (unlist s l.part l.id).modPart l.part (fun p => { p with hold := p.hold ++ [l.id] })

end Sys2Proof.Machine
end

