-- ==== Sys2Proof/Machine/Link.lean ====
section
/-!
DEFINITION. Inkline (R345 to R350): the peer table, routes, ports with their retry buffers, transport numbers, and the
landing of peer writes through a partition's two stages of translation.
-/
namespace Sys2Proof.Machine

/-- The key of a transport count: device and partition (R348). -/
def linkKey (dev part : Nat) : Nat := 8 * dev + part

def State.modLink (s : State) (g : Link → Link) : State := { s with link := g s.link }

/-- The partition that a device number names for a partition (R350). -/
def peerPart (s : State) (part dev : Nat) : Option Nat := (s.part? part).bind (fun p => mapGet? p.peers dev)

/-- The device and the virtual address of a peer address (R350). -/
def peerDev (a : Nat) : Nat := bits a 63 56
def peerVa (a : Nat) : Nat := a % 2 ^ 56

/-! ## Flits (R346) -/

/-- KIND. -/
def flitKind : FlitBody → Nat
  | .idle => 0
  | .store _ _ => 1
  | .signal _ _ _ => 2
  | .beat _ _ _ | .tile _ _ _ => 3
  | .ack _ _ => 4
  | .control _ _ => 5

/-- The payload: an address, what else the kind needs, the data; its form is the model's (log 17). -/
def flitPayload : FlitBody → List Byte
  | .store va bs | .control va bs => natBytes 8 va ++ bs
  | .beat va bs of => natBytes 8 va ++ natBytes 8 (of.elim 0 (· + 1)) ++ bs
  | .idle => []
  | .tile va off bs => natBytes 8 va ++ natBytes 8 off ++ bs
  | .signal va a _ => natBytes 8 va ++ natBytes 8 a.toNat
  | .ack va late => natBytes 8 (va.getD 0) ++ natBytes 1 (if va.isSome then 1 else 0) ++ natBytes 1 (if late then 1 else 0)

/-- Bytes 0 to 11 of a flit's header, sent with a link sequence number and LACK. -/
def flitHeader (f : Flit) (lseq lack : BitVec 16) : List Byte :=
  natBytes 2 lseq.toNat ++ natBytes 2 lack.toNat ++ natBytes 1 (flitKind f.body) ++ natBytes 1 (f.part % 8) ++ natBytes 1 f.src ++
    natBytes 1 f.dst ++ natBytes 4 (match f.body with
      | .signal _ _ st => st.toNat
      | _ => f.tseq.toNat)

/-- The 16 bytes of a flit's header: FCRC stands over the rest of it and the payload, filled up to 256 bytes with zeros. -/
def flitBytes (f : Flit) (lseq lack : BitVec 16) : List Byte :=
  let h := flitHeader f lseq lack
  let p := flitPayload f.body
  let p := p ++ List.replicate (256 - p.length) 0
  h ++ natBytes 4 (crc32c (h ++ p)).toNat ++ p

/-! ## Ports (R345, R347) -/

/-- Flits that a retry buffer holds (R345). -/
def retryPlaces : Nat := 1024

/-- A flit put on a port takes the next link sequence number and stays in the retry buffer; without a place in it, it waits. -/
def Port.put (p : Port) (f : Flit) : Port :=
  if p.retry.length < retryPlaces then { p with lseq := p.lseq + 1, retry := p.retry ++ [(p.lseq, f)] }
  else { p with waiting := p.waiting ++ [f] }

/-- What a port sends when it has nothing else: an idle flit, which carries LACK. DESIGN CHOICE: it bears the number of the next flit and takes none
(log 30). -/
def idleBytes (k : Link) (p : Port) : List Byte :=
  flitBytes { src := k.dev, dst := 0, part := 0, to_ := 0, tseq := 0, body := .idle } p.lseq p.got

/-- Flits leave the retry buffer as LACK covers them, and what waited takes their places. -/
def Port.covered (p : Port) (lack : BitVec 16) : Port :=
  let left := p.retry.filter (fun e => decide (2 ^ 15 ≤ (lack - e.1).toNat))
  let q := { p with retry := left, fails := if left.length < p.retry.length then 0 else p.fails, waiting := [] }
  p.waiting.foldl Port.put q

def Link.modPort (k : Link) (port : Nat) (g : Port → Port) : Link :=
  { k with ports := k.ports.mapIdx (fun i p => if i = port then g p else p) }

/-- What a port makes of what comes in by it: the state, and whether it goes on into the device. A flit whose FCRC fails is discarded and
negatively acknowledged; one that is not the next in order is discarded too, as the far end sends it again. -/
def linkIn (s : State) (v : Option Came) : State × Bool :=
  match v with
  | none => (s, true)
  | some c => match s.link.ports[c.port]? with
    | none => (s, false)
    | some p =>
      let q := { p with corrected := p.corrected + c.corrected }
      let put (q : Port) : State := s.modLink (fun k => k.modPort c.port (fun _ => q))
      if !p.up then (s, false)
      else if !c.fcrc then (put { q with refused := some (p.got + 1) }, false)
      else if c.lseq = p.got + 1 then (put { q.covered c.lack with got := c.lseq, refused := none }, true)
      else (put (q.covered c.lack), false)

/-- An idle flit comes in by a port: its LACK counts, its number does not. -/
def idleIn (s : State) (c : Came) : State := match s.link.ports[c.port]? with
  | some p =>
    let q := { p with corrected := p.corrected + c.corrected }
    if !p.up then s
    else s.modLink (fun k => k.modPort c.port (fun _ => if c.fcrc then q.covered c.lack else { q with refused := some (p.got + 1) }))
  | none => s

/-- The port to a device, if it is up; the device itself needs none. -/
def routeOf (s : State) (dev : Nat) : Option Nat :=
  (mapGet? s.link.routes dev).filter (fun p => (s.link.ports[p]?).any (·.up))

/-- A flit sent by its route; without one it waits, and the time since when is kept (R348). -/
def transmit (s : State) (f : Flit) : State :=
  if f.dst = s.link.dev then s
  else match routeOf s f.dst with
    | some p => s.modLink (fun k => k.modPort p (·.put f))
    | none => s.modLink (fun k => { k with
        noRoute := if (mapGet? k.noRoute f.dst).isSome then k.noRoute else mapPut k.noRoute f.dst s.ns })

/-- A peer store, a copy beat or a collective flit of a partition, with the next transport number: the state and the
flit. -/
def sendFlit (s : State) (part dst : Nat) (body : FlitBody) (poison : Bool := false) : State × Flit :=
  let key := linkKey dst part
  let n := mapGet s.link.tx key 0 + 1
  let f : Flit :=
    { src := s.link.dev, dst := dst, part := part, to_ := (peerPart s part dst).getD 0, tseq := n, body := body, poison := poison }
  (transmit (s.modLink (fun k => { k with tx := mapPut k.tx key n, out := k.out ++ [f] })) f, f)

/-- Stores that one stroke has under way to a device. -/
def storesTo (s : State) (a : AgentId) (part dev : Nat) : List Flit :=
  s.link.out.filter (fun f => f.dst == dev && f.part == part && s.link.sentBy.contains (f, a))

/-- Has the send queue credit for n more flits to a device (R352)? -/
def sendRoom (s : State) (dev n : Nat) : Bool :=
  decide ((s.link.out.filter (fun f => f.dst == dev)).length + n ≤ 32 + Config.sendCredit)

/-! ## At the target (R348, R350) -/

/-- Bytes written at places, with poison if they came with it (R347, R392). -/
def writeMarked (s : State) (ls : List (Loc × Nat)) (bs : List Byte) (poison : Bool) : State :=
  let t := writePlaces s ls bs
  if poison then ls.foldl (fun t l => { t with mem := t.mem.setPoison l.1.home l.1.line true }) t else t

/-- The lines that places cover whole lose their mark: one copy has written all of each (R393). -/
def clearWhole (s : State) (ls : List (Loc × Nat)) : State :=
  ls.foldl (fun t l => (upTo ((l.1.addr + 127) / 128) ((l.1.addr + l.2) / 128 - (l.1.addr + 127) / 128)).foldl (fun t i =>
    { t with mem := t.mem.setPoison l.1.home i false }) t) s

/-- A part of a line that one copy writes whole, come at its place (R393): with the other part, the line's mark is cleared if neither came with
poison. -/
def landHalf (s : State) (f : Flit) (va : Nat) (of : Option Nat) (ls : List (Loc × Nat)) : State := match of with
  | none => s
  | some c =>
    let mine (e : Nat × Nat × Nat × Bool) : Bool := e.1 == f.src && e.2.1 == c && e.2.2.1 == va / 128
    match s.link.halves.find? mine with
    | none => s.modLink (fun k => { k with halves := k.halves ++ [(f.src, c, va / 128, !f.poison)] })
    | some e =>
      let t := s.modLink (fun k => { k with halves := k.halves.filter (fun e => !mine e) })
      if e.2.2.2 && !f.poison then ls.foldl (fun t l => { t with mem := t.mem.setPoison l.1.home l.1.line false }) t else t

/-- Is a transport number one that the receiver has not applied yet? Numbers count modulo 2^32; what a sender has dropped for want of a
route leaves a gap, and ascending order is all that the receiver keeps (R348, log 17). -/
def newer (seen n : Word) : Bool := n != seen && decide ((n - seen).toNat < 2 ^ 31)

/-- Does an earlier flit of the same source and partition wait here for firmware (R350), so that this one has to wait behind it? -/
def heldBefore (s : State) (f : Flit) : Bool :=
  s.parts.any (fun e => e.2.faults.any (fun r => match r.flit with
    | some g => g.src == f.src && g.part == f.part && newer g.tseq f.tseq && flitKind g.body != 2
    | none => false))

/-- The local partition that a flit is for (R350). -/
def targetPart (s : State) (f : Flit) : Option Nat := if (s.part? f.to_).isSome then some f.to_ else none

/-- Is any page of n bytes a share page? -/
def sharePages (s : State) (part va n : Nat) : Bool :=
  (List.range (n / 4096 + 2)).any (fun i =>
    let a := va + 4096 * i - (if i = 0 then 0 else va % 4096)
    decide (a < va + n) && (match walkPage s part a with
      | .ok p => p.share
      | .error _ => false))

/-- The places of a peer access at its target (R350). -/
def peerReach (s : State) (part va n : Nat) (acc : Acc) : Except Unread (List (Loc × Nat)) :=
  if sharePages s part va n then .error .gone else hubReach s part [] va n acc [0]

/-- A fault record for a flit that a stage-2 fault holds, unless one stands already. -/
def flitFault (s : State) (part : Nat) (f : Flit) (b : Bad) : State :=
  if (s.part? part).elim false (fun p => p.faults.any (fun r => r.flit == some f)) then s
  else
    let q := sendFault s part 0 b.cause b.addr b.acc.code none none
    q.1.modPart part (fun p => { p with
      faults := p.faults.map (fun r => if r.token = q.2 then { r with flit := some f } else r) })

/-- A flit acknowledged by this device; late says that a contribution came after the fold (R360). -/
def ackFlit (s : State) (f : Flit) (late : Bool := false) : State :=
  let t := s.modLink (fun k => { k with inbox := k.inbox.filter (· != f) })
  if f.src = s.link.dev then t.modLink (fun k => { k with acks := k.acks ++ [(f, late)] })
  else
    transmit t { src := s.link.dev, dst := f.src, part := f.part, to_ := 0, tseq := f.tseq, body := (.ack (match f.body with
      | .signal va _ _ => some va
      | _ => none) late) }

/-- The transport number of a flit has been applied (R348). -/
def received (s : State) (f : Flit) : State :=
  s.modLink (fun k => { k with rx := mapPut k.rx (linkKey f.src f.part) f.tseq })

/-- A peer write that no fault holds any more: dropped and counted (R350); the sender learns nothing of it. -/
def dropPeer (s : State) (part : Option Nat) (f : Flit) : State :=
  let s := match part with
    | some p => countUp s p 7 1
    | none => s
  ackFlit (received s f) f

/-- Everything outstanding to a device dropped and counted for its partitions (R348). -/
def dropOutstanding (s : State) (dev : Nat) : State :=
  let gone := s.link.out.filter (fun f => f.dst == dev && f.dst != s.link.dev)
  let lost := s.link.signals.filter (fun g => g.dev == dev && dev != s.link.dev && !g.sent)
  let s := gone.foldl (fun s f => countUp s f.part 6 1) s
  let s := lost.foldl (fun s g => countUp s g.part 6 1) s
  s.modLink (fun k => { k with
    out := k.out.filter (fun f => !gone.contains f)
    sentBy := k.sentBy.filter (fun e => !gone.contains e.1)
    signals := k.signals.filter (fun g => g.dev != dev || dev == k.dev)
    ports := k.ports.map (fun p => { p with waiting := p.waiting.filter (fun f => f.dst != dev) }) })

end Sys2Proof.Machine
end

