-- ==== Sys2Proof/Machine/Flags.lean ====
section
/-!
DEFINITION. CR.FPM as a word (R117), and the flag computations of the float instructions: the elements of a packed
register (R116), the rounding in effect (R84, R85), and the arithmetic of R118 to R122 on one element.
-/
namespace Sys2Proof.Machine

/-! ## CR.FPM (R117) -/

/-- CR.FPM as a lane reads it. -/
def fpmWord (rm : BitVec 3) (ftz amem : Bool) (sticky : Flags) : Word :=
  BitVec.ofNat 32 (rm.toNat + (if ftz then 8 else 0) + sticky.toNat * 2 ^ 6 + (if amem then 2 ^ 16 else 0))

/-- RM after a write: 5 to 7 leave it unchanged. -/
def rmWritten (rm : BitVec 3) (w : Word) : BitVec 3 := if w.toNat % 8 ≤ 4 then BitVec.ofNat 3 w.toNat else rm

/-- Sticky bits after a write: RW1C (R191). -/
def stickyWritten (old : Flags) (w : Word) : Flags := old &&& ~~~ BitVec.ofNat 7 (w.toNat / 2 ^ 6)

/-! ## Elements (R116) -/

/-- Elements of a float type in a register. -/
def Ty.elems : Ty → Nat
  | .f16 | .bf16 => 2
  | _ => 1

/-- Element i of a register. -/
def elemOf (t : Ty) (x i : Nat) : Nat := if t.elems = 2 then bits x (16 * i + 15) (16 * i) else x % 2 ^ 32

/-- A register from the results of its elements, with the flags of all of them. -/
def packElems (t : Ty) (g : Nat → Nat × Flags) : Nat × Flags :=
  if t.elems = 2 then
    let a := g 0
    let b := g 1
    (a.1 + 65536 * b.1, a.2 ||| b.2)
  else g 0

/-- An element as an exact value, read under FTZ (R119). -/
def readElem (t : Ty) (ftz : Bool) (x i : Nat) : Num := unpack t.fmt (flushIn t.fmt ftz (elemOf t x i))

/-! ## The rounding in effect -/

/-- Binary and Unary entries: CR.FPM.RM with DYN, else M (R85). -/
def roundOf (s : State) (x : Env) : Rnd := if bit x.f.b.toNat 2 then rmOf s x else Rnd.ofCode x.f.m.toNat

/-- Ternary entries round only by M and carry SAT in LA[0] (R159). -/
def Env.roundM (x : Env) : Rnd := Rnd.ofCode x.f.m.toNat
def Env.satLa (x : Env) : Bool := x.f.la.getLsbD 0

/-! ## Arithmetic of one element -/

def Num.negate : Num → Num
  | .nan q => .nan q
  | .inf n => .inf (!n)
  | .fin n m e => .fin (!n) m e

/-- a × 2^c exactly (R164). -/
def scaleN (a : Num) (c : Int) : Num × Flags :=
  match a with
  | .nan q => (.nan false, (Num.nan q).signals)
  | .inf n => (.inf n, 0)
  | .fin n m e => (.fin n m (e + c), 0)

/-- a0 × b0 + a1 × b1 + c exactly (R165). -/
def dot2N (r : Rnd) (a0 b0 a1 b1 c : Num) : Num × Flags :=
  let p := mulN a0 b0
  let q := mulN a1 b1
  let z := sumN r [p.1, q.1, c]
  (z.1, p.2 ||| q.2 ||| z.2)

/-- FCMP (R161): whether the condition holds, and NV. -/
def fcmpN (m : Nat) (a c : Num) : Bool × Flags :=
  let un := a.isNan || c.isNan
  let sig := a.signals ||| c.signals
  let any : Flags := if un then flagNV else 0
  let lt := ltN a c
  let gt := ltN c a
  match m with
  | 0 => (!un && !lt && !gt, sig)
  | 1 => (un || lt || gt, sig)
  | 2 => (!un && lt, any)
  | 3 => (!un && !gt, any)
  | 4 => (!un && gt, any)
  | 5 => (!un && !lt, any)
  | 6 => (un, sig)
  | _ => (!un, sig)

/-- FCLASS (R162). -/
def fclassNat (t : Fmt) (x : Nat) : Nat :=
  match unpack t x with
  | .nan true => 2 ^ 8
  | .nan false => 2 ^ 9
  | .inf true => 2 ^ 0
  | .inf false => 2 ^ 7
  | .fin neg m _ =>
    if m = 0 then (if neg then 2 ^ 3 else 2 ^ 4)
    else if m < 2 ^ t.fb then (if neg then 2 ^ 2 else 2 ^ 5)
    else (if neg then 2 ^ 1 else 2 ^ 6)

end Sys2Proof.Machine
end

