-- ==== Sys2Proof/Machine/Blocks.lean ====
section
/-!
DEFINITION. The block formats mxf4 and i4x (R124 to R127), encoded and decoded over exact values, and the choice of the
2:4 compress (R135).
-/
namespace Sys2Proof.Machine

/-! ## Encoding (R125, R127) -/

/-- A quotient rounded to an integer, and whether that was inexact: none for a NaN; an infinity lies beyond 7 (R127). -/
def roundInt (r : Rnd) : Num → Option (Int × Bool)
  | .nan _ => none
  | .inf neg => some (if neg then -2 ^ 40 else 2 ^ 40, false)
  | .fin neg m e =>
    let q := if 0 ≤ e then (m <<< e.toNat, false) else roundShift r neg m (-e).toNat
    some (if neg then -(q.1 : Int) else q.1, q.2)

/-- An mxf4 element of a quotient (R125, R168): a NaN encodes as code 0; UF where the rounded magnitude is below 1. -/
def e2m1Elem (r : Rnd) (v : Num) : Nat × Flags :=
  match v with
  | .nan _ => (0, flagNV)
  | .inf neg => (signBit .e2m1 neg + 7, flagOF ||| flagNX)
  | v =>
    let z := pack .e2m1 r true 2 false v
    let fl := z.2 &&& ~~~ flagUF
    (z.1, if (fl &&& flagNX) != 0 && decide (z.1 % 8 < 2) then fl ||| flagUF else fl)

/-- The e4m3 byte of an i4x outlier (R127, R168). -/
def outlierByte (r : Rnd) (v : Num) : Nat × Flags :=
  match v with
  | .inf neg => (signBit .e4m3 neg + Fmt.e4m3.largest, flagOF ||| flagNX)
  | v => pack .e4m3 r true 2 false v

/-- Does a quotient round to 0? A NaN does (R127). -/
def roundsToZero (r : Rnd) (v : Num) : Bool := match roundInt r v with
  | none => true
  | some (q, _) => decide (q = 0)

/-- The flags of a value that an outlier before it drops to 0. -/
def droppedFlags (r : Rnd) (v : Num) : Flags := match roundInt r v with
  | none => flagNV
  | some (_, inexact) => if inexact then flagNX else 0

/-- One word of an i4x block: the slots with the flags of each element (R127); n is the number of slots left. -/
def i4xEncode (r : Rnd) : Nat → List Num → List (Nat × Flags)
  | 0, _ => []
  | n + 1, vs =>
    match vs with
    | [] => []
    | v :: rest =>
      match roundInt r v with
      | none => (0, flagNV) :: i4xEncode r n rest
      | some (q, inexact) =>
        if q.natAbs ≤ 7 then (wrap 4 q, if inexact then flagNX else 0) :: i4xEncode r n rest
        else
          let sat : Nat × Flags := (if 0 < q then 7 else 9, flagOF ||| flagNX)
          match rest with
          | v1 :: v2 :: rest' =>
            if roundsToZero r v1 && roundsToZero r v2 then
              let b := outlierByte r v
              (8, b.2) :: (b.1 % 16, droppedFlags r v1) :: (b.1 / 16, droppedFlags r v2) :: i4xEncode r n rest'
            else sat :: i4xEncode r n rest
          | _ => sat :: i4xEncode r n rest

/-- ⌊log2⌋ of the largest magnitude; none if all are zero. -/
def blockTop (vs : List Num) : Option Int :=
  vs.foldl (fun t v => match v with
    | .fin _ m e =>
      if m = 0 then t else
        let k := e + (m.log2 : Int)
        some (match t with
          | none => k
          | some t => max t k)
    | _ => t) none

def Num.isFin : Num → Bool
  | .fin _ _ _ => true
  | _ => false

/-- The scale code that R125 chooses. -/
def blockScale (vs : List Num) : Nat :=
  if vs.all Num.isFin then
    match blockTop vs with
    | none => 0
    | some t => (max (-127) (min 127 (t - 2)) + 127).toNat
  else 0xFF

/-- A block encoded: 32 codes, the scale code, and each element's flags. An automatic scale of 0xFF sets NV where the value
is a NaN or an infinity; an explicit one, where it is a NaN (R125, R168). -/
def encodeBlock (t : Ty) (r : Rnd) (scale : Option Nat) (vs : List Num) : List (Nat × Flags) × Nat :=
  let sc := (scale.map (· % 256)).getD (blockScale vs)
  if sc = 0xFF then
    (vs.map (fun v => (0, if v.isNan || (scale.isNone && !v.isFin) then flagNV else 0)), sc)
  else
    let qs := vs.map (fun v => match v with
      | .fin n m e => Num.fin n m (e - ((sc : Int) - 127))
      | v => v)
    if t = .mxf4 then (qs.map (e2m1Elem r), sc)
    else (i4xEncode r 8 (qs.take 8) ++ i4xEncode r 8 ((qs.drop 8).take 8) ++ i4xEncode r 8 ((qs.drop 16).take 8) ++
      i4xEncode r 8 (qs.drop 24), sc)

/-- Eight codes as a word (R124). -/
def wordOfCodes (cs : List Nat) : Nat := cs.foldr (fun c w => c % 16 + 16 * w) 0

/-- The codes of a word. -/
def codesOfWord (w : Nat) : List Nat := (List.range 8).map (fun j => bits w (4 * j + 3) (4 * j))

/-! ## Decoding (R124, R126) -/

/-- One word of an i4x block: each slot's value before the scale, and MALF; n is the number of slots left. -/
def i4xDecode : Nat → List Nat → List (Num × Bool)
  | 0, _ => []
  | n + 1, cs =>
    match cs with
    | [] => []
    | c :: rest =>
      if c ≠ 8 then (intN (sext 4 c), false) :: i4xDecode n rest
      else match rest with
        | a :: b :: rest' =>
          (unpack .e4m3 (a + 16 * b), false) :: (.fin false 0 0, false) :: (.fin false 0 0, false) :: i4xDecode n rest'
        | _ => (.fin false 0 0, true) :: i4xDecode n rest

/-- A block of 4 words decoded: 32 exact values, each with MALF. -/
def decodeBlock (t : Ty) (words : List Nat) (sc : Nat) : List (Num × Bool) :=
  let raw := words.flatMap (fun w =>
    if t = .mxf4 then (codesOfWord w).map (fun c => (unpack .e2m1 c, false)) else i4xDecode 8 (codesOfWord w))
  raw.map (fun v =>
    (if sc % 256 = 0xFF then .nan false
     else match v.1 with
      | .fin n m e => .fin n m (e + ((sc % 256 : Nat) : Int) - 127)
      | u => u, v.2))

/-! ## The 2:4 compress (R135) -/

def Num.magnitude : Num → Num
  | .nan q => .nan q
  | .inf _ => .inf false
  | .fin _ m e => .fin false m e

/-- Does value i of a quad rank above value j? -/
def ranksAbove (vs : List Num) (i j : Nat) : Bool :=
  let a := (vs[i]?).getD (.fin false 0 0)
  let b := (vs[j]?).getD (.fin false 0 0)
  if a.isNan || b.isNan then a.isNan && (!b.isNan || decide (i < j))
  else ltN b.magnitude a.magnitude || (!ltN a.magnitude b.magnitude && decide (i < j))

/-- The two indices kept, the lower first. -/
def pick24 (vs : List Num) : Nat × Nat :=
  match (List.range 4).filter (fun i => decide (((List.range 4).filter (fun j => j != i && ranksAbove vs j i)).length < 2)) with
  | [i, j] => (i, j)
  | _ => (0, 1)

end Sys2Proof.Machine
end

