-- ==== Sys2Proof/Machine/Integer.lean ====
section
/-!
DEFINITION. The integer and logic instructions (R145 to R158) and their compact forms (R87).
-/
namespace Sys2Proof.Machine

/-! ## Values -/

/-- An integer result in the registers of its type: read back in the type, then sign- or zero-extended (R113). -/
def Ty.widen (t : Ty) (z : Int) : Nat := wrap (32 * t.regs) (t.ext (wrap t.bits z))

def clampInt (lo hi z : Int) : Int := max lo (min hi z)

/-- The range handling of R145: clamped with SAT, else modulo 2^w. -/
def Ty.fit (t : Ty) (sat : Bool) (z : Int) : Nat := t.widen (if sat then clampInt t.least t.greatest z else z)

/-- A quotient rounded toward zero, with the cases of R114. -/
def divInt (t : Ty) (x y : Int) : Int × Flags :=
  if y = 0 then (if t.signed then (if 0 ≤ x then t.greatest else t.least) else t.greatest, flagDIVZ)
  else (Int.tdiv x y, 0)

/-- A remainder with the sign of the dividend, with the cases of R114. -/
def remInt (x y : Int) : Int × Flags := if y = 0 then (x, flagDIVZ) else (Int.tmod x y, 0)

/-- SHL, SHR and ROT of a w-bit value by an amount (R149). -/
def shlNat (w a s : Nat) : Nat := if w ≤ s then 0 else (a <<< s) % 2 ^ w
def shrNat (w a s : Nat) : Nat := if w ≤ s then 0 else (a % 2 ^ w) >>> s
def rotNat (w a s : Nat) : Nat :=
  let k := s % w
  ((a <<< k) % 2 ^ w) ||| ((a % 2 ^ w) >>> (w - k))
/-- SHA: sign fill; when s ≥ w, 0 or all ones by the sign (R149). -/
def shaInt (w : Nat) (x : Int) (s : Nat) : Int := if w ≤ s then (if x < 0 then -1 else 0) else x / ((2 ^ s : Nat) : Int)

/-- BFE (R150): bits [pos + len − 1 : pos] of the extended value, extended in turn. -/
def bfeInt (t : Ty) (x : Int) (pos len : Nat) : Int :=
  let n := min len t.bits
  let y := wrap n (x / ((2 ^ pos : Nat) : Int))
  if n = 0 then 0 else if t.signed then sext n y else (y : Int)

/-- BFI (R150). -/
def bfiNat (w a b pos len : Nat) : Nat :=
  let m := ((2 ^ len - 1) <<< pos) % 2 ^ w
  (b % 2 ^ w &&& (2 ^ w - 1 - m)) ||| (((a % 2 ^ len) <<< pos) % 2 ^ w)

/-- POPC, CLZ and BREV of a w-bit value (R151). -/
def popcNat (w a : Nat) : Nat := (List.range w).countP (fun i => bit a i)
def clzNat (w a : Nat) : Nat := if a % 2 ^ w = 0 then w else w - 1 - (a % 2 ^ w).log2
def brevNat (w a : Nat) : Nat := (List.range w).foldl (fun r i => 2 * r + (if bit a i then 1 else 0)) 0

/-- The condition codes of CMP and WAITM (R153, R243). -/
def Cond.ofCode : Nat → Cond
  | 0 => .eq | 1 => .ne | 2 => .lt | 3 => .le | 4 => .gt | _ => .ge

def Cond.holds (c : Cond) (x y : Int) : Bool :=
  match c with
  | .eq => decide (x = y) | .ne => decide (x ≠ y) | .lt => decide (x < y) | .le => decide (x ≤ y)
  | .gt => decide (y < x) | .ge => decide (y ≤ x)

/-- DOT4 before range handling (R157). -/
def dot4Int (t : Ty) (a b : Nat) (c : Int) : Int :=
  (List.range 4).foldl (fun z j => z + t.ext (bits a (8 * j + 7) (8 * j)) * t.ext (bits b (8 * j + 7) (8 * j))) c

/-- One result byte of PRMT (R158). -/
def prmtByte (pair nib : Nat) : Nat :=
  let b := bits pair (8 * (nib % 8) + 7) (8 * (nib % 8))
  if bit nib 3 then (if bit b 7 then 0xFF else 0) else b

def prmtNat (a b c : Nat) : Nat :=
  let pair := a % 2 ^ 32 + 2 ^ 32 * (b % 2 ^ 32)
  (List.range 4).foldl (fun r i => r + prmtByte pair (bits c (4 * i + 3) (4 * i)) * 2 ^ (8 * i)) 0

/-! ## Bodies -/

/-- A Binary integer operation with range handling (R145). -/
def binaryInt (g : Ty → Int → Int → Int) (x : Env) (s : State) : Verdict :=
  results x s (fun l => (x.ty.fit x.satBit (g x.ty (x.ty.ext (opA s x l)) (x.ty.ext (opC s x l))), 0))

/-- A Binary operation on bits. -/
def binaryBits (g : Nat → Nat → Nat → Nat) (x : Env) (s : State) : Verdict :=
  results x s (fun l => (x.ty.widen (g x.ty.bits (opA s x l) (opC s x l)), 0))

/-- A Unary operation on bits whose result has the type's own width, or 32 bits. -/
def unaryBits (g : Nat → Nat → Nat) (x : Env) (s : State) : Verdict :=
  results x s (fun l => (g x.ty.bits (opC s x l), 0))

/-- A shift of a value by the low 32 bits of C (R149). -/
def shiftBits (g : Nat → Nat → Nat → Nat) (x : Env) (s : State) : Verdict :=
  results x s (fun l => (x.ty.widen (g x.ty.bits (opA s x l) (opC s x l % 2 ^ 32)), 0))

/-- DIV and REM (R156): SAT acts only on the minimum divided by −1. -/
def divide (g : Ty → Int → Int → Int × Flags) (x : Env) (s : State) : Verdict :=
  resultsLater x s (fun l =>
    let z := g x.ty (x.ty.ext (opA s x l)) (x.ty.ext (opC s x l))
    (x.ty.fit x.satBit z.1, z.2))

/-- SAT of a Ternary integer entry: M[0] (R146, R157). -/
def Env.satM (x : Env) : Bool := bit x.f.m.toNat 0

/-! ## ADD to MAX (R145, R146) -/

def bodyAdd : Env → State → Verdict := binaryInt (fun _ a c => a + c)
def bodySub : Env → State → Verdict := binaryInt (fun _ a c => a - c)

def execAdd (f : Fields) (s : State) : Host.Outcome State Fault Refusal := issue 0x00 f (fieldsLen f) bodyAdd s
def execAddC32 (f : CompactFields) (s : State) : Host.Outcome State Fault Refusal :=
  issue 0x00 (compactVV .i32 f) 4 bodyAdd s
def execAddImmC32 (f : CompactFields) (s : State) : Host.Outcome State Fault Refusal :=
  issue 0x00 (compactVI .i32 true f) 4 bodyAdd s
def execSub (f : Fields) (s : State) : Host.Outcome State Fault Refusal := issue 0x01 f (fieldsLen f) bodySub s
def execSubC32 (f : CompactFields) (s : State) : Host.Outcome State Fault Refusal :=
  issue 0x01 (compactVV .i32 f) 4 bodySub s

def execMul (f : Fields) (s : State) : Host.Outcome State Fault Refusal :=
  issue 0x02 f (fieldsLen f) (binaryInt (fun _ a c => a * c)) s

/-- MULH: the high half of the exact product. -/
def execMulh (f : Fields) (s : State) : Host.Outcome State Fault Refusal :=
  issue 0x03 f (fieldsLen f) (binaryInt (fun t a c => a * c / ((2 ^ t.bits : Nat) : Int))) s

/-- MAD (R146). -/
def execMad (f : Fields) (s : State) : Host.Outcome State Fault Refusal :=
  issue 0x04 f (fieldsLen f) (fun x s => results x s (fun l =>
    (x.ty.fit x.satM (x.ty.ext (opA s x l) * x.ty.ext (opB s x l) + x.ty.ext (opC s x l)), 0))) s

def execMin (f : Fields) (s : State) : Host.Outcome State Fault Refusal :=
  issue 0x05 f (fieldsLen f) (binaryInt (fun _ a c => min a c)) s
def execMax (f : Fields) (s : State) : Host.Outcome State Fault Refusal :=
  issue 0x06 f (fieldsLen f) (binaryInt (fun _ a c => max a c)) s

/-! ## ABS and NEG (R147) -/

def execAbs (f : Fields) (s : State) : Host.Outcome State Fault Refusal :=
  issue 0x07 f (fieldsLen f) (fun x s => results x s (fun l =>
    (x.ty.fit x.satBit (((x.ty.ext (opC s x l)).natAbs : Nat) : Int), 0))) s

def execNeg (f : Fields) (s : State) : Host.Outcome State Fault Refusal :=
  issue 0x08 f (fieldsLen f) (fun x s => results x s (fun l => (x.ty.fit x.satBit (-x.ty.ext (opC s x l)), 0))) s

/-! ## Bits (R148 to R151) -/

def bodyAnd : Env → State → Verdict := binaryBits (fun _ a c => a &&& c)
def bodyOr : Env → State → Verdict := binaryBits (fun _ a c => a ||| c)
def bodyXor : Env → State → Verdict := binaryBits (fun _ a c => a ^^^ c)
def bodyShl : Env → State → Verdict := shiftBits shlNat
def bodyShr : Env → State → Verdict := shiftBits shrNat

def execAnd (f : Fields) (s : State) : Host.Outcome State Fault Refusal := issue 0x09 f (fieldsLen f) bodyAnd s
def execAndC32 (f : CompactFields) (s : State) : Host.Outcome State Fault Refusal :=
  issue 0x09 (compactVV .b32 f) 4 bodyAnd s
def execOr (f : Fields) (s : State) : Host.Outcome State Fault Refusal := issue 0x0A f (fieldsLen f) bodyOr s
def execOrC32 (f : CompactFields) (s : State) : Host.Outcome State Fault Refusal :=
  issue 0x0A (compactVV .b32 f) 4 bodyOr s
def execXor (f : Fields) (s : State) : Host.Outcome State Fault Refusal := issue 0x0B f (fieldsLen f) bodyXor s
def execXorC32 (f : CompactFields) (s : State) : Host.Outcome State Fault Refusal :=
  issue 0x0B (compactVV .b32 f) 4 bodyXor s

/-- ANDN: a & ~c. -/
def execAndn (f : Fields) (s : State) : Host.Outcome State Fault Refusal :=
  issue 0x0C f (fieldsLen f) (binaryBits (fun w a c => a &&& (2 ^ w - 1 - c % 2 ^ w))) s

def execNot (f : Fields) (s : State) : Host.Outcome State Fault Refusal :=
  issue 0x0D f (fieldsLen f) (unaryBits (fun w c => 2 ^ w - 1 - c % 2 ^ w)) s

def execShl (f : Fields) (s : State) : Host.Outcome State Fault Refusal := issue 0x0E f (fieldsLen f) bodyShl s
def execShlC32 (f : CompactFields) (s : State) : Host.Outcome State Fault Refusal :=
  issue 0x0E (compactVI .b32 false f) 4 bodyShl s
def execShr (f : Fields) (s : State) : Host.Outcome State Fault Refusal := issue 0x0F f (fieldsLen f) bodyShr s
def execShrC32 (f : CompactFields) (s : State) : Host.Outcome State Fault Refusal :=
  issue 0x0F (compactVI .n32 false f) 4 bodyShr s

def execSha (f : Fields) (s : State) : Host.Outcome State Fault Refusal :=
  issue 0x10 f (fieldsLen f) (fun x s => results x s (fun l =>
    (x.ty.widen (shaInt x.ty.bits (x.ty.ext (opA s x l)) (opC s x l % 2 ^ 32)), 0))) s

def execRot (f : Fields) (s : State) : Host.Outcome State Fault Refusal :=
  issue 0x11 f (fieldsLen f) (shiftBits rotNat) s

def execBfe (f : Fields) (s : State) : Host.Outcome State Fault Refusal :=
  issue 0x12 f (fieldsLen f) (fun x s => results x s (fun l =>
    (x.ty.widen (bfeInt x.ty (x.ty.ext (opA s x l)) (opB s x l % 256) (opC s x l % 256)), 0))) s

def execBfi (f : Fields) (s : State) : Host.Outcome State Fault Refusal :=
  issue 0x13 f (fieldsLen f) (fun x s => results x s (fun l =>
    (bfiNat x.ty.bits (opA s x l) (opB s x l) (opC s x l % 256) (opC s x l / 256 % 256), 0))) s

def execPopc (f : Fields) (s : State) : Host.Outcome State Fault Refusal :=
  issue 0x14 f (fieldsLen f) (unaryBits popcNat) s
def execClz (f : Fields) (s : State) : Host.Outcome State Fault Refusal :=
  issue 0x15 f (fieldsLen f) (unaryBits clzNat) s
def execBrev (f : Fields) (s : State) : Host.Outcome State Fault Refusal :=
  issue 0x16 f (fieldsLen f) (unaryBits brevNat) s

/-! ## SEL, CMP, MOV, LEA (R152 to R155) -/

def execSel (f : Fields) (s : State) : Host.Outcome State Fault Refusal :=
  issue 0x17 f (fieldsLen f) (fun x s => results x s (fun l =>
    (if opC s x l % 2 ^ 32 ≠ 0 then opA s x l else opB s x l, 0))) s

def execCmp (f : Fields) (s : State) : Host.Outcome State Fault Refusal :=
  issue 0x18 f (fieldsLen f) (fun x s => results x s (fun l =>
    (if (Cond.ofCode x.f.m.toNat).holds (x.ty.ext (opA s x l)) (x.ty.ext (opC s x l)) then 1 else 0, 0))) s

/-- The v registers that MOV reads. -/
def movSource (x : Env) : List Nat :=
  match x.sh.c, Opnd.ofCode x.f.c with
  | .op u, .v i => if (x.pops.any (fun p => p.1 == i)) then [] else upTo i u.regs
  | _, _ => []

/-- The active lanes in which MOV may not read its source: masked, or any share bound for an s or e register (R316). -/
def movTagged (x : Env) : Mask :=
  let toV := (Opnd.ofCode x.f.d).kind == .v
  maskOf (fun l => x.act.getLsbD l && (movSource x).any (fun i =>
    let t := x.regs.tagGet i l
    t == 3 || (t != 0 && !toV)))

/-- The writes of MOV with the tags that a v destination takes over (R154). -/
def movWrites (x : Env) (ws : List WriteBack) : List WriteBack :=
  match Opnd.ofCode x.f.d, movSource x with
  | .v d, i :: _ => ws.map (fun w => match w.reg with
    | .v j => { w with tag := x.regs.tagGet (i + (j - d)) w.lane }
    | _ => w)
  | _, _ => ws

/-- MOV (R154). -/
def bodyMov (x : Env) (s : State) : Verdict :=
  let bad := movTagged x
  if bad ≠ 0 then trapLanes cSHARETAG bad
  else .commit { st := s, writes := movWrites x (putD x (x.lanes.map (fun l => (l, opC s x l)))) }

def execMov (f : Fields) (s : State) : Host.Outcome State Fault Refusal := issue 0x19 f (fieldsLen f) bodyMov s
def execMovC32 (f : CompactFields) (s : State) : Host.Outcome State Fault Refusal :=
  issue 0x19 (compactMov f) 4 bodyMov s

/-- LEA (R155): C is always read as i32. -/
def execLea (f : Fields) (s : State) : Host.Outcome State Fault Refusal :=
  issue 0x1A f (fieldsLen f) (fun x s => results x s (fun l =>
    let sh := bits x.f.b.toNat 5 3
    (x.ty.widen (x.ty.ext (opA s x l) + sext 32 (opC s x l) * ((2 ^ sh : Nat) : Int)), 0))) s

/-! ## DIV, REM, DOT4, PRMT (R156 to R158) -/

def execDiv (f : Fields) (s : State) : Host.Outcome State Fault Refusal :=
  issue 0x1B f (fieldsLen f) (divide divInt) s
def execRem (f : Fields) (s : State) : Host.Outcome State Fault Refusal :=
  issue 0x1C f (fieldsLen f) (divide (fun _ => remInt)) s

def execDot4 (f : Fields) (s : State) : Host.Outcome State Fault Refusal :=
  issue 0x1D f (fieldsLen f) (fun x s => results x s (fun l =>
    let r : Ty := if x.ty.signed then .i32 else .n32
    (r.fit x.satM (dot4Int x.ty (opA s x l) (opB s x l) (r.ext (opC s x l))), 0))) s

def execPrmt (f : Fields) (s : State) : Host.Outcome State Fault Refusal :=
  issue 0x1E f (fieldsLen f) (fun x s => results x s (fun l => (prmtNat (opA s x l) (opB s x l) (opC s x l), 0))) s

end Sys2Proof.Machine
end

