-- ==== Sys2Proof/Machine/Control.lean ====
section
/-!
DEFINITION. Control transfer (R182 to R188), meeting points, barriers, the baton, cues and WAITM (R107, R108, R240 to
R243).
-/
namespace Sys2Proof.Machine

/-! ## Return stacks (R92, R253) -/

/-- Entries of a lane's stack region. -/
def regionSize (gr : Group) : Nat := gr.stack / 8

/-- The place of an entry of the region of lane l of stroke i. -/
def regionLoc (g : Nat) (gr : Group) (i l entry : Nat) : Loc :=
  { home := .u, addr := uBase (coreOf g) + gr.ubase + gr.units * 256 + (32 * i + l) * gr.stack + 8 * entry }

/-- Can a lane push a return address? -/
def canPush (gr : Group) (x : Lane) : Bool := decide (x.ret.length < 8) || decide (x.spilled < regionSize gr)

/-- A lane of a stroke pushes a return address: with 8 entries the oldest moves to the region first. -/
def pushRet (s : State) (k : Nat) (gr : Group) (l : Nat) (pc : Dword) : State :=
  let x := laneOf s k l
  if x.ret.length < 8 then s.modStroke k (fun st => st.modLanes (laneBit l) (fun _ y => { y with ret := pc :: y.ret }))
  else
    let oldest := (x.ret.getLast?).getD 0
    let s := writeNat s (regionLoc (groupOf k) gr (k % 32) l x.spilled) 8 oldest.toNat
    s.modStroke k (fun st => st.modLanes (laneBit l) (fun _ y =>
      { y with ret := pc :: y.ret.dropLast, spilled := y.spilled + 1 }))

/-- The address that a lane's return pops: from the hardware stack, else from the region; none with neither. -/
def popAddr (s : State) (k : Nat) (gr : Group) (l : Nat) : Option Dword :=
  let x := laneOf s k l
  match x.ret with
  | pc :: _ => some pc
  | [] =>
    if x.spilled = 0 then none
    else some (BitVec.ofNat 64 (readNat s (regionLoc (groupOf k) gr (k % 32) l (x.spilled - 1)) 8))

/-- The lane after the pop. -/
def Lane.popped (x : Lane) : Lane :=
  match x.ret with
  | _ :: r => { x with ret := r }
  | [] => { x with spilled := x.spilled - 1 }

/-- The lanes that fail a test. -/
def failing (x : Env) (ok : Nat → Bool) : Mask := maskOf (fun l => x.act.getLsbD l && !ok l)

/-- A jump of the active lanes. -/
def jumpTo (x : Env) (s : State) (target : Nat → Dword) : Verdict :=
  .commit { st := s, jumps := x.lanes.map (fun l => (l, target l)) }

/-- A call: every active lane pushes the next PC and jumps; none does if one cannot push. -/
def callTo (x : Env) (s : State) (target : Nat → Dword) : Verdict :=
  let next := x.pc + BitVec.ofNat 64 x.len
  match x.agent with
  | .stroke k =>
    let gr := x.group s
    let bad := failing x (fun l => canPush gr (laneOf s k l))
    if bad ≠ 0 then trapLanes cSTACKOVF bad
    else jumpTo x (x.lanes.foldl (fun s l => pushRet s k gr l next) s) target
  | .ctx g =>
    match s.ctx? g with
    | some c =>
      if 8 ≤ c.ret.length then trapLanes cSTACKOVF x.act
      else jumpTo x (s.modCtx g (fun c => { c with ret := next :: c.ret })) target
    | none => trapLanes cSTACKOVF x.act

/-- Bits [1:0] of a target are zero (R184). -/
def alignedPc (a : Dword) : Bool := a.toNat % 4 == 0

/-! ## Branches (R182 to R185) -/

/-- PC + 4 × a signed count of words. -/
def branchTarget (pc : Dword) (w off : Nat) : Dword := pc + BitVec.ofInt 64 (4 * sext w off)

def execBra (f : BranchFields) (s : State) : Host.Outcome State Fault Refusal :=
  issue 0x50 (branchFields f) 8 (fun x s => jumpTo x s (fun _ => branchTarget x.pc 35 f.off.toNat)) s

def execBraC32 (off : BitVec 24) (s : State) : Host.Outcome State Fault Refusal :=
  issue 0x50 plainFields 4 (fun x s => jumpTo x s (fun _ => branchTarget x.pc 24 off.toNat)) s

def execCall (f : BranchFields) (s : State) : Host.Outcome State Fault Refusal :=
  issue 0x53 (branchFields f) 8 (fun x s => callTo x s (fun _ => branchTarget x.pc 35 f.off.toNat)) s

/-- Entry i of a BRM: valid, negate, predicate, offset (R183). -/
def brmEntry (f : Fields) (i : Nat) : Nat × Nat :=
  let c := match i with
    | 0 => f.d | 1 => f.a | 2 => f.b | _ => f.c
  (c.toNat, bits (extX f) (16 * i + 15) (16 * i))

/-- The target of a lane. -/
def brmTarget (x : Env) (l : Nat) : Dword :=
  match (List.range 4).find? (fun i =>
    let e := brmEntry x.f i
    bit e.1 5 && (x.regs.pGet (e.1 % 16) l != bit e.1 4)) with
  | some i => branchTarget x.pc 16 (brmEntry x.f i).2
  | none => x.pc + 16

def execBrm (f : Fields) (s : State) : Host.Outcome State Fault Refusal :=
  issue 0x51 f (fieldsLen f) (fun x s => jumpTo x s (brmTarget x)) s

/-- JMPI and CALLI (R184): a misaligned target traps. -/
def indirect (go : Env → State → (Nat → Dword) → Verdict) (x : Env) (s : State) : Verdict :=
  let target (l : Nat) : Dword := BitVec.ofNat 64 (opA s x l)
  let bad := failing x (fun l => alignedPc (target l))
  if bad ≠ 0 then trapLanes cMISALIGN bad else go x s target

def execJmpi (f : Fields) (s : State) : Host.Outcome State Fault Refusal :=
  issue 0x52 f (fieldsLen f) (indirect jumpTo) s
def execCalli (f : Fields) (s : State) : Host.Outcome State Fault Refusal :=
  issue 0x54 f (fieldsLen f) (indirect callTo) s

/-- RET (R185). -/
def bodyRet (x : Env) (s : State) : Verdict :=
  match x.agent with
  | .stroke k =>
    let gr := x.group s
    let at_ (l : Nat) : Option Dword := popAddr s k gr l
    let empty := failing x (fun l => (at_ l).isSome)
    let bad := failing x (fun l => alignedPc ((at_ l).getD 0))
    if empty ≠ 0 then trapLanes cSTACKOVF empty
    else if bad ≠ 0 then trapLanes cMISALIGN bad
    else jumpTo x (s.modStroke k (fun st => st.modLanes x.act (fun _ y => y.popped))) (fun l => (at_ l).getD 0)
  | .ctx g =>
    match (s.ctx? g).elim [] (·.ret) with
    | pc :: r =>
      if alignedPc pc then jumpTo x (s.modCtx g (fun c => { c with ret := r })) (fun _ => pc)
      else trapLanes cMISALIGN x.act
    | [] => trapLanes cSTACKOVF x.act

def execRet (f : Fields) (s : State) : Host.Outcome State Fault Refusal := issue 0x55 f (fieldsLen f) bodyRet s
def execRetC32 (_f : CompactFields) (s : State) : Host.Outcome State Fault Refusal := issue 0x55 plainFields 4 bodyRet s

/-! ## EXIT, FUSE, NOP, YIELD (R186 to R188) -/

/-- EXIT (R186, R253). -/
def bodyExit (x : Env) (s : State) : Verdict :=
  match x.agent with
  | .stroke k => plain (exitLanes s k x.act)
  | .ctx g => plain (barSweep (s.modCtx g (fun c => { c with exited := true })) g)

def execExit (f : Fields) (s : State) : Host.Outcome State Fault Refusal := issue 0x56 f (fieldsLen f) bodyExit s
def execExitC32 (_f : CompactFields) (s : State) : Host.Outcome State Fault Refusal := issue 0x56 plainFields 4 bodyExit s

/-- FUSE (R107, R187): the lanes of the path reach it, the active ones wait and the others go on past it. -/
def bodyFuse (x : Env) (s : State) : Verdict :=
  let m : Mask := BitVec.ofNat 32 (opC s x ((lowest x.act).getD 0))
  plain (s.modStroke x.key (fun st =>
    let st := fuseReach st x.pc x.path (x.path &&& ~~~ x.act)
    fuseCheck (st.modLanes x.act (fun _ y => { y with wait := .fuse x.pc m })) x.pc))

def execFuse (f : Fields) (s : State) : Host.Outcome State Fault Refusal := issue 0x57 f (fieldsLen f) bodyFuse s
def execFuseC32 (_f : CompactFields) (s : State) : Host.Outcome State Fault Refusal := issue 0x57 compactFuse 4 bodyFuse s

def bodyNop (_ : Env) (s : State) : Verdict := plain s

def execNop (f : Fields) (s : State) : Host.Outcome State Fault Refusal := issue 0x58 f (fieldsLen f) bodyNop s
def execNopC32 (_f : CompactFields) (s : State) : Host.Outcome State Fault Refusal := issue 0x58 plainFields 4 bodyNop s

/-- A stroke leaves the active set of its nib for the tail of the pending FIFO, ready whatever its lanes' state (R97). -/
def toPending (s : State) (k : Nat) : State :=
  let nib := k % 4
  (s.modStroke k (fun st => { st with yielded := true })).modCore (coreOf (groupOf k)) (fun c => { c with
    active := c.active.mapIdx (fun n l => if n = nib then l.filter (fun j => j != k) else l)
    pending := c.pending.mapIdx (fun n l => if n = nib then l.filter (fun j => j != k) ++ [k] else l) })

def execYield (f : Fields) (s : State) : Host.Outcome State Fault Refusal :=
  issue 0x5E f (fieldsLen f) (fun x s => plain (toPending s x.key)) s

/-! ## BAR (R240) -/

/-- The arrival of a stroke's active lanes at barrier b. A helper lane is not counted. -/
def arriveLanes (x : Env) (s : State) (b : Nat) (arv : Bool) : State :=
  let bar := mapGet (x.group s).bars b {}
  let before := mapGet bar.arrived (x.key % 32) 0
  let work := maskOf (fun l => (x.workers s).contains l)
  let again := work &&& before
  let s := s.modGroup x.grp (fun gr => { gr with
    bars := mapPut gr.bars b { bar with arrived := mapPut bar.arrived (x.key % 32) (before ||| work) } })
  s.modStroke x.key (fun st => st.modLanes x.act (fun l y =>
    if again.getLsbD l then { y with wait := .barEarly b arv }
    else if arv then y else { y with wait := .bar b bar.phase }))

def bodyBar (x : Env) (s : State) : Verdict :=
  let b := x.f.c.toNat % 16
  afterRelease x s false fun s => match x.agent with
  | .stroke _ => plain (barCheck (arriveLanes x s b (bit x.f.m.toNat 0)) x.grp b)
  | .ctx g =>
    let bar := mapGet (x.group s).bars b {}
    let s := s.modGroup x.grp (fun gr => { gr with bars := mapPut gr.bars b { bar with ctx := true } })
    plain (barCheck (s.modCtx g (fun c => { c with barWait := some (b, bar.phase) })) x.grp b)

def execBar (f : Fields) (s : State) : Host.Outcome State Fault Refusal := issue 0x59 f (fieldsLen f) bodyBar s

/-! ## The baton (R108, R241) -/

/-- Does the group of the issuing stroke hold the baton? -/
def holdsBaton (s : State) (x : Env) : Bool := (s.core x.core).baton == some (slotOf x.grp)

def bodyBtake (x : Env) (s : State) : Verdict :=
  if holdsBaton s x then plain s
  else
    let t := s.modCore x.core (fun c => { c with request := c.request ||| BitVec.ofNat 8 (2 ^ slotOf x.grp) })
    let t := batonGrant t x.core
    if holdsBaton t x then plain t else .parkIn (.baton x.path x.len) t

def execBtake (f : Fields) (s : State) : Host.Outcome State Fault Refusal := issue 0x5A f (fieldsLen f) bodyBtake s

def bodyBgive (x : Env) (s : State) : Verdict :=
  if holdsBaton s x then plain (batonGrant (s.modCore x.core (fun c => { c with baton := none })) x.core)
  else trapLanes cBATON x.act

def execBgive (f : Fields) (s : State) : Host.Outcome State Fault Refusal := issue 0x5B f (fieldsLen f) bodyBgive s

/-! ## CUE (R242) -/

/-- A counter saturates. -/
def cueAdd (old : Word) (n : Nat) : Word := BitVec.ofNat 32 (min 0xFFFFFFFF (old.toNat + n))

def bodyCue (x : Env) (s : State) : Verdict :=
  let ls := x.workers s
  if ls.isEmpty then plain s
  else
    let i := bits x.f.b.toNat 4 1
    let n := ls.foldl (fun n l => n + opC s x l % 2 ^ 32) 0
    afterRelease x s false fun s => plain (s.modGroup x.grp (fun gr => { gr with cues := mapPut gr.cues i (cueAdd (mapGet gr.cues i 0) n) }))

def execCue (f : Fields) (s : State) : Host.Outcome State Fault Refusal := issue 0x5C f (fieldsLen f) bodyCue s

/-! ## WAITM (R243) -/

/-- Whose accesses an agent's are. -/
def Env.who (x : Env) (s : State) : Who := { grp := x.grp, part := x.part s, core := x.core }

/-- The lines of a U access that are absent. -/
def absentLines (s : State) (l : Loc) (n : Nat) : List Nat :=
  if l.home = .u then (upTo l.line ((l.addr + n - 1) / 128 + 1 - l.line)).filter (fun i => !s.present i) else []

/-- The state and the FIFO that loads read: where one of the stroke's own operations at a unit still stands before
them, those of its FIFO that stood before the cycle are performed first (R227, log 5). The bytes of a record that path A writes in the
same cycle read as they were (R101). -/
def settle (s : State) (x : Env) (ls : List (Loc × Nat)) : State × List FifoEntry :=
  if ls.any (fun l => unitPending x.fifo l.1 l.2) then (x.drained s, x.was.veil) else (s, x.fifo ++ x.was.veil)

/-- WAITM. -/
def bodyWaitm (x : Env) (s : State) : Verdict :=
  let l0 := (lowest x.act).getD 0
  let want : Want :=
    { space := spaceOf x.f, spaces := [.U, .C, .D, .G], size := x.ty.size, align := x.ty.size, acc := .load }
  match checkAll s (x.who s) want [(l0, opA s x l0)] with
  | .error b => .trap b.1.cause x.act 0 b.1.addr b.1.acc.code
  | .ok ls =>
    match ls.head? with
    | none => plain s
    | some (_, land) =>
      let away := absentLines s land.loc x.ty.size
      let c := opC s x l0
      if !away.isEmpty then .park (.presence (x.core) away)
      else
        let (t, q) := settle s x [(land.loc, x.ty.size)]
        if t.mem.anyPoison land.loc x.ty.size then trapLanes cPOISON x.act
        else if (Cond.ofCode x.f.m.toNat).holds (x.ty.ext (bytesNat (loadBytes t q land.loc x.ty.size))) (x.ty.ext c) then plain t
        else
          .parkIn (.waitm land.loc (8 * x.ty.size) x.ty.signed (Cond.ofCode x.f.m.toNat) (BitVec.ofNat 64 c) x.path x.len) t

def execWaitm (f : Fields) (s : State) : Host.Outcome State Fault Refusal := issue 0x5D f (fieldsLen f) bodyWaitm s

end Sys2Proof.Machine
end

