-- ==== Sys2Proof/Machine/MemoryOps.lean ====
section
/-!
DEFINITION. Loads, stores, sweeps, atomics, wide cells, fences, tile moves, presence, SCLOSE and tags (R172, R217 to R234,
R238, R250, R251).
-/
namespace Sys2Proof.Machine

/-! ## Addresses (R217) -/

/-- The offset of field C: an IMM9, or the literal of an L96. -/
def offsetOf (f : Fields) : Int :=
  match f.ext with
  | .lit w => sext 32 w.toNat
  | _ => sext 9 f.c.toNat

/-- Base + offset, modulo 2^32 for U, P and C and 2^64 for D, G and H. -/
def addrPlus (p : Space) (base : Nat) (off : Int) : Nat := wrap (if p.narrow then 32 else 64) ((base : Int) + off)

/-- The address of a lane. -/
def eaOf (s : State) (x : Env) (l : Nat) : Nat := addrPlus (spaceOf x.f) (opA s x l) (offsetOf x.f)

/-- One access: lane, address, bytes. -/
abbrev Access := Nat × Nat × Nat

/-- Every access checked in the order of R213; bad names the lanes whose data carry a share tag (R224). -/
def checkEach (s : State) (x : Env) (q : Want) (bad : Nat → Bool) (as : List Access) :
    Except (Bad × Mask) (List (Access × Landing)) :=
  let w := x.who s
  let rs := as.map (fun a =>
    (a, match land s w { q with size := a.2.2 } a.2.1 with
      | .error e => Except.error e
      | .ok r =>
        if bad a.1 && !q.share then .error ⟨9, cSHARETAG, a.2.1, q.acc⟩
        else if lockedOut s w.core r.range q.acc (q.space == .U) then .error ⟨10, cRANGELOCK, a.2.1, q.acc⟩
        else .ok r))
  match firstBad (rs.map (fun r => (r.1.1, r.2))) with
  | some b => .error b
  | none => .ok (rs.filterMap (fun r => match r.2 with
    | .ok l => some (r.1, l)
    | .error _ => none))

/-- No lane's data are judged. -/
def noBad (_ : Nat) : Bool := false

/-- What an instruction wants of its space. -/
def Env.want (x : Env) (spaces : List Space) (size : Nat) (acc : Acc) (share : Bool := false) : Want :=
  { space := spaceOf x.f, spaces := spaces, size := size, align := size, acc := acc, share := share }

def allSpaces : List Space := [.U, .P, .C, .D, .G, .H]
def unitSpaces : List Space := [.U, .P, .C, .D, .G]
def tileSpaces : List Space := [.U, .C, .D, .G]
def cellSpaces : List Space := [.C, .D, .G]

/-! ## Loads -/

/-- The absent lines among landings of loads (R200). -/
def absentOf (s : State) (ls : List (Access × Landing)) : List Nat :=
  ls.flatMap (fun a => absentLines s a.2.loc a.1.2.2)

/-- The core whose lines are waited for. -/
def coreOfLine (line : Nat) : Nat := line * 128 / Config.uBytes

/-- Parks on absent lines. -/
def parkOn (lines : List Nat) : Verdict := .park (.presence (coreOfLine (lines.headD 0)) lines)

/-- A loaded value in its registers: types below 32 bits are widened (R113, R222). -/
def memWiden (t : Ty) (n : Nat) : Nat := if t.size < 4 then t.widen (n : Int) else n

/-- Values for a destination field with tags and marks, one for each lane. -/
def putLoaded (x : Env) (tag : BitVec 2) (vals : List (Nat × Nat × Bool)) : List WriteBack :=
  match x.sh.d with
  | .op u => match Opnd.ofCode x.f.d with
    | .v i => vals.flatMap (fun v => putV i v.1 v.2.1 tag v.2.2 u.regs)
    | .s i => match vals with
      | v :: _ => putS i v.2.1 v.2.2 u.regs
      | [] => []
    | _ => (putDest u x.f.d (vals.map (fun v => (v.1, v.2.1)))).map (fun w =>
        { w with poison := (vals.head?).elim false (·.2.2) })
  | _ => []

/-- A long-latency effect: an operation in flight of a stroke, at once in scribe code (R78, R90). -/
def laterIn (x : Env) (s : State) (ws : List WriteBack) : Verdict :=
  if x.scribe then .commit { st := s, writes := ws }
  else .commit { st := { s with nextId := s.nextId + 1 }, writes := ws, later := some s.nextId }

/-- The accesses of a load of the lanes checked: with an s destination that of the lowest active lane alone (R222). -/
def accessed (x : Env) (ls : List (Access × Landing)) : List (Access × Landing) :=
  if (Opnd.ofCode x.f.d).kind == .s then ls.take 1 else ls

/-! ## Orderings (R218 to R220) -/

/-- ORD and SCOPE of field B. -/
def ordOf (x : Env) : Nat := bits x.f.b.toNat 7 6
def scopeOf (x : Env) : Nat := bits x.f.b.toNat 5 3

/-- Is an access an acquire: no access of its stroke that follows is performed before it? -/
def acquires (x : Env) : Bool := ordOf x == 1 || ordOf x == 3

/-- A releasing write enters the FIFO behind the stroke's earlier accesses that stand there, its writes to other cores among them. It waits
first for those that do not: words it has still to push, and, at `.sy`, its stores to other devices (R220, R221); a scope of the stroke
alone includes nobody to whom it could show them (log 25). -/
def releasing (x : Env) (s : State) (v : Verdict) : Verdict :=
  if (ordOf x == 2 || ordOf x == 3) && scopeOf x != 0 && x.act != 0 && accessesOut s x.agent (scopeOf x == 5) then
    .parkIn (.fence (scopeOf x == 5)) (x.released s)
  else v

/-- LD (R222, R224). -/
def bodyLd (x : Env) (s : State) : Verdict :=
  let n := x.ty.size
  match checkEach s x (x.want allSpaces n .load x.ty.share) noBad (x.lanes.map (fun l => (l, eaOf s x l, n))) with
  | .error b => trapBad b
  | .ok ls =>
    let ls := accessed x ls
    let away := absentOf s ls
    if !away.isEmpty then parkOn away
    else
      let (t, q) := settle s x (ls.map (fun a => (a.2.loc, n)))
      laterIn x t (putLoaded x x.ty.tag (ls.map (fun a =>
        (a.1.1, memWiden x.ty (bytesNat (loadBytes t q a.2.loc n)), t.mem.anyPoison a.2.loc n))))

def execLd (f : Fields) (s : State) : Host.Outcome State Fault Refusal := issue 0x60 f (fieldsLen f) bodyLd s

/-! ## Stores -/

/-- Entries put into the issuing agent's FIFO. -/
def enqueue (s : State) (x : Env) (es : List FifoEntry) : State := setFifo s x.agent (fifoOf s x.agent ++ es)

/-- The lanes whose data register of ST carries a share tag. -/
def taggedData (x : Env) (l : Nat) : Bool :=
  (usesOfRole x.sh.d x.f.d).any (fun u => match u.1 with
    | .v i => x.regs.tagGet i l != 0
    | _ => false)

/-- ST (R223, R224): the stores of the active lanes that are not helper lanes, in lane order. -/
def bodySt (x : Env) (s : State) : Verdict :=
  let n := x.ty.size
  match checkEach s x (x.want allSpaces n .store x.ty.share) (taggedData x)
      ((x.workers s).map (fun l => (l, eaOf s x l, n))) with
  | .error b => trapBad b
  | .ok ls => releasing x s (plain (enqueue s x (ls.map (fun a => .store a.2.loc (natBytes n (opD s x a.1.1))))))

def execSt (f : Fields) (s : State) : Host.Outcome State Fault Refusal := issue 0x61 f (fieldsLen f) bodySt s

/-! ## VSW (R172) -/

/-- The accesses of a sweep, in ascending register, then ascending lane: each with its register. -/
def sweep (s : State) (x : Env) (lanes : List Nat) : List (Nat × Access) :=
  let e := extX x.f
  let row := sext 24 (bits e 31 8)
  let lane := sext 16 (bits e 47 32)
  (List.range (e % 64)).flatMap (fun (i : Nat) => lanes.map (fun (l : Nat) =>
    (i, l, addrPlus (spaceOf x.f) (opA s x l) (sext 9 x.f.c.toNat + (i : Int) * row + (l : Int) * lane), x.ty.size)))

def bodyVsw (x : Env) (s : State) : Verdict :=
  let n := x.ty.size
  let d := (Opnd.ofCode x.f.d).index
  let store := bit x.f.m.toNat 0
  let as := sweep s x (if store then x.workers s else x.lanes)
  match checkEach s x (x.want tileSpaces n (if store then .store else .load)) noBad (as.map (·.2)) with
  | .error b => trapBad b
  | .ok ls =>
    let rs := (as.map (·.1)).zip ls
    if store then
      plain (enqueue s x (rs.map (fun r => .store r.2.2.loc (natBytes n (x.vWord s (d + r.1) r.2.1.1).toNat))))
    else
      let away := absentOf s ls
      if !away.isEmpty then parkOn away
      else
        let (t, q) := settle s x (ls.map (fun a => (a.2.loc, n)))
        laterIn x t (rs.flatMap (fun r =>
          putV (d + r.1) r.2.1.1 (memWiden x.ty (bytesNat (loadBytes t q r.2.2.loc n))) 0 (t.mem.anyPoison r.2.2.loc n) 1))

def execVsw (f : Fields) (s : State) : Host.Outcome State Fault Refusal := issue 0x3A f (fieldsLen f) bodyVsw s

/-! ## Atomics (R225 to R227) -/

def AtomOp.ofCode : Nat → AtomOp
  | 0 => .add | 1 => .min | 2 => .max | 3 => .and | 4 => .or | 5 => .xor | _ => .exch

/-- The register that lane l's old value goes to: the s register by the first lane alone (R81). -/
def atomDest (x : Env) (first l : Nat) : Nat × Bool :=
  match Opnd.ofCode x.f.d with
  | .s i => (if l = first then i else 64, true)
  | o => (o.index, false)

/-- A read-modify-write at a unit in scribe code: the FIFO drains, the old value goes to the k register. -/
def scribeAtom (x : Env) (s : State) (l : Loc) (n : Nat) (new : Nat → Option Nat) : Verdict :=
  let t := x.drained s
  let old := readNat t l n
  let p := t.mem.anyPoison l n
  let u := match new old with
    | some v => writeNat t l n v
    | none => t
  .commit { st := u, writes := (putD x [(0, old)]).map (fun w => { w with poison := p }) }

/-- Operations at units entered into the FIFO, one for each landing, behind one operation in flight. -/
def atUnits (x : Env) (s : State) (es : List FifoEntry) : Verdict :=
  let t := enqueue s x es
  if es.isEmpty then plain s
  else .commit { st := { t with nextId := t.nextId + 1 }, later := some s.nextId, waitFor := es.length, acq := acquires x }

/-- ATOM (R225). -/
def bodyAtom (x : Env) (s : State) : Verdict :=
  let n := x.ty.size
  let op := AtomOp.ofCode x.f.m.toNat
  let ws := x.workers s
  match checkEach s x (x.want unitSpaces n .atomic) noBad
      (ws.map (fun l => (l, addrPlus (spaceOf x.f) (opA s x l) 0, n))) with
  | .error b => trapBad b
  | .ok ls => releasing x s <|
    if x.scribe then
      match ls with
      | a :: _ => scribeAtom x s a.2.loc n (fun old => some (atomNew op (8 * n) x.ty.signed old (opC s x 0)))
      | [] => plain s
    else
      atUnits x s (ls.map (fun a =>
        let d := atomDest x (ws.headD 0) a.1.1
        .atom a.2.loc (8 * n) x.ty.signed op (BitVec.ofNat 64 (opC s x a.1.1)) s.nextId a.1.1 d.1 d.2))

def execAtom (f : Fields) (s : State) : Host.Outcome State Fault Refusal := issue 0x64 f (fieldsLen f) bodyAtom s

/-- CAS (R226): C holds the expected value and, above it, the new one. -/
def bodyCas (x : Env) (s : State) : Verdict :=
  let n := x.ty.size
  let ws := x.workers s
  let expect (l : Nat) : Nat := opC s x l % 2 ^ (8 * n)
  let new (l : Nat) : Nat := opC s x l / 2 ^ (8 * n) % 2 ^ (8 * n)
  match checkEach s x (x.want unitSpaces n .atomic) noBad
      (ws.map (fun l => (l, addrPlus (spaceOf x.f) (opA s x l) 0, n))) with
  | .error b => trapBad b
  | .ok ls => releasing x s <|
    if x.scribe then
      match ls with
      | a :: _ => scribeAtom x s a.2.loc n (fun old => if old = expect 0 then some (new 0) else none)
      | [] => plain s
    else
      atUnits x s (ls.map (fun a =>
        let d := atomDest x (ws.headD 0) a.1.1
        .cas a.2.loc (8 * n) (BitVec.ofNat 64 (expect a.1.1)) (BitVec.ofNat 64 (new a.1.1)) s.nextId a.1.1 d.1 d.2))

def execCas (f : Fields) (s : State) : Host.Outcome State Fault Refusal := issue 0x65 f (fieldsLen f) bodyCas s

/-! ## Wide cells (R228) -/

/-- The addend of FXADD as an f32: of bf16, element 0. -/
def cellAddend (t : Ty) (x : Nat) : Nat := if t = .bf16 then x % 65536 * 65536 else x % 2 ^ 32

/-- FXADD. -/
def bodyFxadd (x : Env) (s : State) : Verdict :=
  match checkEach s x (x.want cellSpaces 64 .atomic) noBad ((x.workers s).map (fun l => (l, eaOf s x l, 64))) with
  | .error b => trapBad b
  | .ok ls => releasing x s <| atUnits x s (ls.map (fun a =>
      .fxadd a.2.loc (BitVec.ofNat 32 (cellAddend x.ty (opD s x a.1.1))) s.nextId))

def execFxadd (f : Fields) (s : State) : Host.Outcome State Fault Refusal := issue 0x66 f (fieldsLen f) bodyFxadd s

/-- FXRD: one indivisible read, under the group's version (R134). -/
def bodyFxrd (x : Env) (s : State) : Verdict :=
  match checkEach s x (x.want cellSpaces 64 .load) noBad (x.lanes.map (fun l => (l, eaOf s x l, 64))) with
  | .error b => trapBad b
  | .ok ls =>
    let (t, q) := settle s x (ls.map (fun a => (a.2.loc, 64)))
    laterIn x t (putLoaded x 0 (ls.map (fun a =>
      (a.1.1, wideRead (x.group s).nbv (bytesNat (loadBytes t q a.2.loc 64)), t.mem.anyPoison a.2.loc 64))))

def execFxrd (f : Fields) (s : State) : Host.Outcome State Fault Refusal := issue 0x67 f (fieldsLen f) bodyFxrd s

/-- FXCLR. -/
def bodyFxclr (x : Env) (s : State) : Verdict :=
  match checkEach s x (x.want cellSpaces 64 .store) noBad ((x.workers s).map (fun l => (l, eaOf s x l, 64))) with
  | .error b => trapBad b
  | .ok ls => releasing x s (plain (enqueue s x (ls.map (fun a => .fxclr a.2.loc))))

def execFxclr (f : Fields) (s : State) : Host.Outcome State Fault Refusal := issue 0x68 f (fieldsLen f) bodyFxclr s

/-! ## FENCE (R229) -/

/-- Every operation of a stroke that still waits for what a unit gives it holds back the accesses after it, as an acquire does. -/
def Stroke.fenced (st : Stroke) : Stroke :=
  { st with inflight := st.inflight.map (fun i => { i with acq := i.acq || (i.waitFor != 0 && !i.engine) }) }

/-- FENCE: the FIFO drains and earlier accesses are performed; FENCE.spw then invalidates the operand cache (R292). FENCE.sk drains nothing:
as the stroke itself observes them, only its operations at units that are not performed yet could come after a later load. -/
def bodyFence (x : Env) (s : State) : Verdict :=
  if x.f.m.toNat = 1 then
    afterRelease x s false fun t => plain (t.modCore x.core (fun c => { c with opcache := [] }))
  else if scopeOf x = 0 then plain (if x.scribe then s else s.modStroke x.key Stroke.fenced)
  else afterRelease x s (scopeOf x == 5) plain

def execFence (f : Fields) (s : State) : Host.Outcome State Fault Refusal := issue 0x69 f (fieldsLen f) bodyFence s

/-! ## Tiles (R230 to R233) -/

/-- The piece of a tile that word i of lane l moves: address and valid elements, none outside the tile (R231). -/
structure Piece where
  lane  : Nat
  word  : Nat
  addr  : Nat
  elems : Nat
  deriving DecidableEq, Repr

/-- Bytes of the valid elements of a piece. -/
def Piece.bytes (p : Piece) (w : Nat) : Nat := (p.elems * w + 7) / 8

/-- The pieces of a tile that lanes move; an LDT of a zero tile moves none, an STT makes it a dense one (R231, R232). -/
def tilePieces (x : Env) (t : Tile) (store : Bool) (row0 col0 : Nat) (lanes : List Nat) : List Piece :=
  let w := x.ty.bits
  let e := 32 / w
  lanes.flatMap (fun l => (List.range (countOf x.f.m.toNat)).filterMap (fun i =>
    let col := col0 + e * i
    let row := row0 + l
    if t.rows ≤ row ∨ t.cols ≤ col ∨ (t.sparse = 2 ∧ store = false) then none
    else some
      { lane := l, word := i, addr := (t.base + row * t.stride + col * w / 8) % 2 ^ 64, elems := min e (t.cols - col) }))

/-- The accesses of pieces. -/
def pieceAccess (x : Env) (ps : List Piece) : List Access := ps.map (fun p => (p.lane, p.addr, p.bytes x.ty.bits))

/-- Row and column registers of LDT and STT. -/
def tileRow (x : Env) : Nat := (x.regs.sGet (x.f.c.toNat % 64)).toNat
def tileCol (x : Env) : Nat := (x.regs.sGet (x.f.c.toNat % 64 + 1)).toNat

/-- A data access of LDT and STT; its words are aligned by R204. -/
def Env.wantTile (x : Env) (acc : Acc) : Want := { x.want tileSpaces 4 acc with align := 0 }

/-- What LDT and STT do before their data accesses: the column, the record as one unit, TAGMISMATCH (R230). -/
def tileRecord (x : Env) (s : State) : Except Verdict (State × List FifoEntry × Landing × Tile) :=
  let l0 := (lowest x.act).getD 0
  let a := opA s x l0
  if a % 32 ≠ 0 ∨ tileCol x % (32 / x.ty.bits) ≠ 0 then .error (trapLanes cMISALIGN x.act)
  else match checkEach s x (x.want tileSpaces 32 .load) noBad [(l0, a, 32)] with
    | .error b => .error (.trap b.1.cause x.act 0 b.1.addr b.1.acc.code)
    | .ok [] => .error (plain s)
    | .ok (r :: _) =>
      let away := absentLines s r.2.loc 32
      if !away.isEmpty then .error (parkOn away)
      else
        let (u, q) := settle s x [(r.2.loc, 32)]
        let t := tileOf (loadBytes u q r.2.loc 32)
        let high := (spaceOf x.f).narrow && decide (2 ^ 32 ≤ t.base)
        if u.mem.anyPoison r.2.loc 32 || t.malformed || t.fmt != x.f.t.toNat || t.layout != 0 ||
            (t.sparse != 0 && t.sparse != 2) || high then
          .error (trapLanes cTAGMISMATCH x.act)
        else .ok (u, q, r.2, t)

/-- The future of the asynchronous form, pending behind operation op (R233). -/
def futurePending (s : State) (x : Env) (i op : Nat) : State :=
  s.modStroke x.key (fun st => { st with regs := st.regs.fSet i (.pending op) })

/-- LDT (R231). -/
def bodyLdt (x : Env) (s : State) : Verdict :=
  match tileRecord x s with
  | .error v => v
  | .ok (s, _, _, t) =>
    let ps := tilePieces x t false (tileRow x) (tileCol x) x.lanes
    match checkEach s x (x.wantTile .load) noBad (pieceAccess x ps) with
    | .error b => trapBad b
    | .ok ls =>
      let away := absentOf s ls
      if !away.isEmpty then parkOn away
      else
        let (s, q) := settle s x (ls.map (fun a => (a.2.loc, a.1.2.2)))
        let d := (Opnd.ofCode x.f.d).index
        let got := (ps.zip ls).map (fun p =>
          (p.1.lane, p.1.word,
            bytesNat (loadBytes s q p.2.2.loc (p.1.bytes x.ty.bits)) % 2 ^ (p.1.elems * x.ty.bits),
            s.mem.anyPoison p.2.2.loc (p.1.bytes x.ty.bits)))
        let ws := x.lanes.flatMap (fun l => (List.range (countOf x.f.m.toNat)).flatMap (fun i =>
          match got.find? (fun g => g.1 == l && g.2.1 == i) with
          | some g => putV (d + i) l g.2.2.1 0 g.2.2.2 1
          | none => putV (d + i) l 0 0 false 1))
        let as := bit x.f.m.toNat 2
        let s1 := if as then futurePending s x (x.f.c.toNat / 64) s.nextId else s
        .commit { st := { s1 with nextId := s1.nextId + 1 }, writes := ws, later := some s.nextId, counts := !as }

def execLdt (f : Fields) (s : State) : Host.Outcome State Fault Refusal := issue 0x62 f (fieldsLen f) bodyLdt s

/-- The bytes that a piece stores: elements beyond the tile in its last byte keep what stands there. -/
def pieceData (s : State) (q : List FifoEntry) (l : Loc) (p : Piece) (w word : Nat) : List Byte :=
  let n := p.bytes w
  let v := word % 2 ^ (p.elems * w)
  let old := bytesNat (loadBytes s q l n)
  natBytes n (v + old / 2 ^ (p.elems * w) * 2 ^ (p.elems * w))

/-- STT (R232): the data stores, then the tag update, in the FIFO. With helper lanes alone it does nothing (R106). -/
def bodyStt (x : Env) (s : State) : Verdict :=
  if (x.workers s).isEmpty then plain s
  else match tileRecord x s with
  | .error v => v
  | .ok (s, q, _, t) =>
    let ps := tilePieces x t true (tileRow x) (tileCol x) (x.workers s)
    let l0 := (lowest x.act).getD 0
    match checkEach s x (x.wantTile .store) noBad (pieceAccess x ps ++ [(l0, opA s x l0 + 20, 4)]) with
    | .error b => trapBad b
    | .ok ls =>
      let d := (Opnd.ofCode x.f.d).index
      let es := (ps.zip ls).map (fun p =>
        FifoEntry.store p.2.2.loc (pieceData s q p.2.2.loc p.1 x.ty.bits (x.vWord s (d + p.1.word) p.1.lane).toNat))
      let tag := (ls.drop ps.length).map (fun a => FifoEntry.retag a.2.loc none)
      let as := bit x.f.m.toNat 2
      let done := if as then [FifoEntry.asyncDone s.nextId] else []
      let s1 := enqueue s x (es ++ tag ++ done)
      releasing x s <| plain (if as then { futurePending s1 x (x.f.c.toNat / 64) s.nextId with nextId := s.nextId + 1 } else s1)

def execStt (f : Fields) (s : State) : Host.Outcome State Fault Refusal := issue 0x63 f (fieldsLen f) bodyStt s

/-! ## Presence (R234) -/

/-- The lines that the active lanes name; the lock table is asked for the whole line. -/
def lineAccess (x : Env) (s : State) (acc : Acc) : Except (Bad × Mask) (List (Nat × Nat)) :=
  let w := x.who s
  let q : Want := { space := spaceOf x.f, spaces := [.U], size := 1, align := 0, acc := acc }
  let rs := x.lanes.map (fun l =>
    (l, match land s w q (eaOf s x l) with
      | .error e => Except.error e
      | .ok r =>
        let r : Landing := { r with range := { r.range with lo := 128 * r.loc.line, hi := 128 * r.loc.line + 128 } }
        if lockedOut s w.core r.range acc true then .error ⟨10, cRANGELOCK, eaOf s x l, acc⟩ else .ok r))
  match firstBad rs with
  | some b => .error b
  | none => .ok (rs.filterMap (fun r => match r.2 with
    | .ok a => some (r.1, a.loc.line)
    | .error _ => none))

/-- PSET. -/
def bodyPset (x : Env) (s : State) : Verdict :=
  match lineAccess x s .store with
  | .error b => trapBad b
  | .ok ls => plain (ls.foldl (fun s l => s.setPresent l.2 true) s)

def execPset (f : Fields) (s : State) : Host.Outcome State Fault Refusal := issue 0x6A f (fieldsLen f) bodyPset s

/-- PARM: the notification of each line goes out (R201), once for a line whose notification is still on its way. -/
def bodyParm (x : Env) (s : State) : Verdict :=
  match lineAccess x s .store with
  | .error b => trapBad b
  | .ok ls =>
    let t := ls.foldl (fun s l => s.setPresent l.2 false) s
    plain { t with armings := (t.armings ++ ls.map (·.2)).eraseDups }

def execParm (f : Fields) (s : State) : Host.Outcome State Fault Refusal := issue 0x6B f (fieldsLen f) bodyParm s

/-- PTEST. -/
def bodyPtest (x : Env) (s : State) : Verdict :=
  match lineAccess x s .load with
  | .error b => trapBad b
  | .ok ls => .commit { st := s, writes := putD x (ls.map (fun l => (l.1, if s.present l.2 then 1 else 0))) }

def execPtest (f : Fields) (s : State) : Host.Outcome State Fault Refusal := issue 0x6C f (fieldsLen f) bodyPtest s

/-! ## SCLOSE (R238) -/

def bodySclose (x : Env) (s : State) : Verdict :=
  let port := 2 + x.f.c.toNat % 2
  match bindingOf (x.group s) port with
  | none => trapLanes cSTREAM x.act
  | some b =>
    let v := ringView s x.grp b
    if v.broken || v.closed then trapLanes cSTREAM x.act
    else match ringLoc s x.grp b 0 with
      | none => trapLanes cSTREAM x.act
      | some r =>
        if pushesOut s r x.key then .park (.closing (252 + port))
        else afterRelease x s false fun t => plain (ringPut t x.grp b 8 ((ringWord t x.grp b 8 + 1) % 2 ^ 32))

def execSclose (f : Fields) (s : State) : Host.Outcome State Fault Refusal := issue 0x6D f (fieldsLen f) bodySclose s

/-! ## Tags (R250, R251) -/

/-- The places of bytes 20 to 23 of the records that lanes name. -/
def tagPlaces (x : Env) (s : State) (lanes : List Nat) (acc : Acc) : Except (Bad × Mask) (List (Access × Landing)) :=
  let off := lanes.filter (fun l => eaOf s x l % 32 != 0)
  if off.isEmpty then
    checkEach s x { x.want tileSpaces 4 acc with align := 0 } noBad (lanes.map (fun l => (l, eaOf s x l + 20, 4)))
  else .error (⟨2, cMISALIGN, eaOf s x (off.headD 0), acc⟩, off.foldl (fun m l => m ||| laneBit l) 0)

/-- TAGGET. -/
def bodyTagget (x : Env) (s : State) : Verdict :=
  match tagPlaces x s x.lanes .load with
  | .error b => trapBad b
  | .ok ls =>
    let away := absentOf s ls
    if !away.isEmpty then parkOn away
    else
      let (t, q) := settle s x (ls.map (fun a => (a.2.loc, 4)))
      laterIn x t (putLoaded x 0 (ls.map (fun a =>
        (a.1.1, bytesNat (loadBytes t q a.2.loc 4), t.mem.anyPoison a.2.loc 4))))

def execTagget (f : Fields) (s : State) : Host.Outcome State Fault Refusal := issue 0xD5 f (fieldsLen f) bodyTagget s

/-- TAGSET: values are judged after every check, then the lanes update in ascending order, released as the form says (R220). -/
def bodyTagset (x : Env) (s : State) : Verdict :=
  let ws := x.workers s
  match tagPlaces x s ws .store with
  | .error b => trapBad b
  | .ok ls =>
    let bad := maskOf (fun l => ws.contains l && !tagOk (opD s x l % 2 ^ 16))
    if bad ≠ 0 then trapLanes cTAGMISMATCH bad
    else releasing x s (plain (enqueue s x (ls.map (fun a => .retag a.2.loc (some (BitVec.ofNat 16 (opD s x a.1.1)))))))

def execTagset (f : Fields) (s : State) : Host.Outcome State Fault Refusal := issue 0xD6 f (fieldsLen f) bodyTagset s

end Sys2Proof.Machine
end

