-- ==== Sys2Proof/Machine/Futures.lean ====
section
/-!
DEFINITION. Futures (R244 to R247): FWAIT, FTST, FPASS, FTAKE, FCAN; and the instructions that enqueue work, SPAWN and
LAUNCH (R248, R249).
-/
namespace Sys2Proof.Machine

/-- The future register of field A. -/
def futA (x : Env) : Nat := (Opnd.ofCode x.f.a).index

/-- Is a future pending? -/
def Fut.isPending : Fut → Bool
  | .pending _ => true
  | _ => false

/-- FWAIT (R245). -/
def bodyFwait (x : Env) (s : State) : Verdict :=
  if (x.regs.fGet (futA x)).isPending then .park (.future (futA x)) else plain s

def execFwait (f : Fields) (s : State) : Host.Outcome State Fault Refusal := issue 0x80 f (fieldsLen f) bodyFwait s

/-- FTST (R245). -/
def bodyFtst (x : Env) (s : State) : Verdict :=
  let b := if (x.regs.fGet (futA x)).isPending then 0 else 1
  .commit { st := s, writes := putD x (x.lanes.map (fun l => (l, b))) }

def execFtst (f : Fields) (s : State) : Host.Outcome State Fault Refusal := issue 0x81 f (fieldsLen f) bodyFtst s

/-- A slot of the group's future table. -/
def slotFut (s : State) (g i : Nat) : Fut := mapGet ((s.group? g).elim [] (·.futs)) i .empty

/-- A future register and a slot of the table set. -/
def setFutures (s : State) (x : Env) (reg : Nat) (r : Fut) (slot : Nat) (t : Fut) : State :=
  (s.modStroke x.key (fun st => { st with regs := st.regs.fSet reg r })).modGroup x.grp (fun g => { g with
    futs := mapSet g.futs .empty slot t })

/-- FPASS (R246). -/
def bodyFpass (x : Env) (s : State) : Verdict :=
  let slot := x.f.c.toNat
  if slotFut s x.grp slot = .empty then plain (setFutures s x (futA x) .empty slot (x.regs.fGet (futA x)))
  else .park (.slotFull slot)

def execFpass (f : Fields) (s : State) : Host.Outcome State Fault Refusal := issue 0x82 f (fieldsLen f) bodyFpass s

/-- FTAKE (R246). -/
def bodyFtake (x : Env) (s : State) : Verdict :=
  let slot := x.f.c.toNat
  let d := (Opnd.ofCode x.f.d).index
  match slotFut s x.grp slot with
  | .empty => .park (.slotEmpty slot)
  | t => plain (setFutures s x d t slot .empty)

def execFtake (f : Fields) (s : State) : Host.Outcome State Fault Refusal := issue 0x83 f (fieldsLen f) bodyFtake s

/-! ## FCAN (R247) -/

/-- The result word of a cancelled operation (R244). -/
def cancelled : Word := 0xFFFFFFFF

/-- The signatures of stroke q of a group leave a round, and the operations behind them end with a word (R275, R281). -/
def unsign (s : State) (g cv q : Nat) (r : Round) : State :=
  let mine := r.futs.filter (fun e => e.1 == q)
  let sigs := r.sigs.filter (fun e => e.q != q)
  let r' := if sigs.isEmpty then none else some { r with sigs := sigs, futs := r.futs.filter (fun e => e.1 != q) }
  let s := s.modGroup g (fun gr => { gr with cvs := mapPut gr.cvs cv { mapGet gr.cvs cv {} with round := r' } })
  mine.foldl (fun s e => opOver s (32 * g + q) e.2 cancelled) s

/-- The round that an operation signed, and the stroke that signed it. -/
def roundOfOp (s : State) (op : Nat) : Option (Nat × Nat × Nat × Round) :=
  s.groups.findSome? (fun e => e.2.cvs.findSome? (fun c => c.2.round.bind (fun r =>
    (r.futs.find? (fun f => f.2 == op)).map (fun f => (e.1, c.1, f.1, r)))))

/-- Has no range of a launch been handed out (R249)? -/
def notStarted (l : Launch) : Bool := match l.phase with
  | .queued | .checked | .held | .eligible => l.next == 0
  | _ => false

/-- An operation withdrawn if it has not started: a LAUNCH in its queue or hold list, the signatures of an MMR (R249,
R281). Every other operation has started. -/
def withdraw (s : State) (op : Nat) : State :=
  match (s.launches.map (·.2)).find? (fun l => l.op == some op) with
  | some l =>
    if notStarted l then
      let s := s.modPart l.part (fun p => { p with faults := p.faults.filter (fun f => f.launch != some l.id) })
      futureDone { unlist s l.part l.id with launches := mapDel s.launches l.id } op cancelled
    else s
  | none => match roundOfOp s op with
    | some (g, cv, q, r) => unsign s g cv q r
    | none => s

/-- FCAN. -/
def bodyFcan (x : Env) (s : State) : Verdict :=
  match x.regs.fGet (futA x) with
  | .pending op => plain (withdraw s op)
  | _ => plain s

def execFcan (f : Fields) (s : State) : Host.Outcome State Fault Refusal := issue 0x84 f (fieldsLen f) bodyFcan s

/-! ## SPAWN and LAUNCH -/

/-- Spaces of records. -/
def recordSpaces : List Space := [.C, .D, .G]

/-- The lanes that name records: with a v pair the workers, with an s pair the first of them (R248, R249). -/
def recordLanes (s : State) (x : Env) (one : Bool) : List Nat :=
  let ws := x.workers s
  if one || (Opnd.ofCode x.f.a).kind != .v then ws.take 1 else ws

/-- The records of n bytes that an instruction reads at issue, each one load, handed, after a release at .dv, to what it does with them:
each with its address and whether it came with poison. One whose issue read them already, and which waited for a queue, reads no more. -/
def withRecords (s : State) (x : Env) (n : Nat) (one : Bool) (v : State → List (Nat × List Byte × Bool) → Verdict) : Verdict :=
  match x.was.st.kept.find? (fun r => r.pc == x.pc && r.act == x.act) with
  | some r => v s r.recs
  | none =>
    let ls := recordLanes s x one
    if ls = [] then plain s
    else match checkEach s x (x.want recordSpaces n .load) noBad (ls.map (fun l => (l, eaOf s x l, n))) with
    | .error b => .trap b.1.cause (if (Opnd.ofCode x.f.a).kind != .v then x.act else b.2) 0 b.1.addr b.1.acc.code
    | .ok as =>
      let r := settle s x (as.map (fun a => (a.2.loc, n)))
      let rs := as.map (fun a => (a.1.2.1, loadBytes r.1 r.2 a.2.loc n, r.1.mem.anyPoison a.2.loc n))
      afterRelease x s false (fun t => v t rs)

/-- The stroke parks until its queues have room, and keeps the records that it has read (R248). -/
def parkKept (s : State) (x : Env) (need : List (Nat × Nat)) (rs : List (Nat × List Byte × Bool)) : Verdict :=
  .parkIn (.queue need) (s.modStroke x.key (fun st => { st with
    kept := st.kept.filter (fun r => r.act &&& x.act == 0) ++ [{ pc := x.pc, act := x.act, recs := rs }] }))

/-- The level address of a record, as R18 names an address in C. -/
def levelAddr (x : Env) (a : Nat) : Nat := if spaceOf x.f = .C then 0xFFFFFFFE * 2 ^ 32 + a else a

/-- The classes that entries need, with the entries of each. -/
def queueNeed (clss : List Nat) : List (Nat × Nat) :=
  (List.range 4).filterMap (fun c => let n := (clss.filter (· == c)).length
                                     if n = 0 then none else some (c, n))

/-- Does every queue have the room needed? -/
def roomFor (s : State) (part : Nat) (need : List (Nat × Nat)) : Bool :=
  need.all (fun e => decide (e.2 ≤ queueRoom s part e.1))

/-- Task records enqueued in order. -/
def enqueueTasks (s : State) (part : Nat) : List (Nat × List Byte × Bool) → State
  | [] => s
  | (a, bs, p) :: rest =>
    enqueueTasks (enqueueLaunch { s with nextId := s.nextId + 1 } (taskLaunch s.nextId part bs a p)) part rest

/-- SPAWN (R248). -/
def bodySpawn (x : Env) (s : State) : Verdict :=
  withRecords s x 64 false (fun t rs =>
    let need := queueNeed (rs.map (fun r => bits (field r.2.1 2 1) 3 2))
    if roomFor t (x.part s) need then plain (enqueueTasks t (x.part s) (rs.map (fun r => (levelAddr x r.1, r.2))))
    else parkKept t x need rs)

def execSpawn (f : Fields) (s : State) : Host.Outcome State Fault Refusal := issue 0xD3 f (fieldsLen f) bodySpawn s

/-- LAUNCH (R249). -/
def bodyLaunch (x : Env) (s : State) : Verdict :=
  withRecords s x 128 true (fun t rs => match rs with
    | [] => plain t
    | r :: _ =>
      let l := packetLaunch (t.nextId + 1) (x.part s) r.2.1 r.2.2 (some t.nextId)
      if roomFor t (x.part s) [(l.cls, 1)] then
        let t := futurePending t x (Opnd.ofCode x.f.d).index t.nextId
        plain (enqueueLaunch { t with nextId := t.nextId + 2 } l)
      else parkKept t x [(l.cls, 1)] rs)

def execLaunch (f : Fields) (s : State) : Host.Outcome State Fault Refusal := issue 0xD4 f (fieldsLen f) bodyLaunch s

end Sys2Proof.Machine
end

