-- ==== Sys2Proof/Machine/Matrix.lean ====
section
/-!
DEFINITION. The matrix arrays and AMEM (R128 to R130, R269 to R293): AALLOC, AFREE, AZERO, AGRANT, ALD, AST, CVSET,
CVRST, MMR and MMS, and the events MMR_FIRE, MMR_COMPLETE, CV_TIMEOUT and MMS_STEP.
-/
namespace Sys2Proof.Machine

/-! ## Allocation (R285, R288, R289) -/

/-- The first number of the lowest run of n unallocated banks. -/
def findRun (s : State) (g n : Nat) : Option Nat :=
  if n = 0 ∨ 64 < n then none
  else (List.range (ownBanks s g + 1 - n)).find? (fun i => (upTo i n).all (fun j => !allocated s g j))

/-- Banks marked allocated or not. -/
def setAlloc (s : State) (g : Nat) (ns : List Nat) (b : Bool) : State :=
  s.modGroup g (fun gr => { gr with
    alloc := ns.foldl (fun a n => if bit a n = b then a else if b then a + 2 ^ n else a - 2 ^ n) gr.alloc })

/-- The count that field C gives, from the lowest active lane. -/
def bankCount (x : Env) (s : State) : Nat := opC s x ((lowest x.act).getD 0) % 2 ^ 32

/-- AALLOC. -/
def bodyAalloc (x : Env) (s : State) : Verdict :=
  let n := bankCount x s
  match findRun s x.grp n with
  | none => .commit { st := s, writes := putD x (x.lanes.map (fun l => (l, 0xFFFFFFFF))) }
  | some b =>
    .commit { st := setAlloc s x.grp (upTo b n) true, writes := putD x (x.lanes.map (fun l => (l, b))) }

def execAalloc (f : Fields) (s : State) : Host.Outcome State Fault Refusal := issue 0xA2 f (fieldsLen f) bodyAalloc s

/-- The banks of AFREE, AZERO and AGRANT: none where the count or the range is forbidden, or a bank is not the group's. -/
def bankRange (x : Env) (s : State) : Option (List Nat) :=
  let n := bankCount x s
  let b := bits x.f.b.toNat 6 1
  if n = 0 ∨ 64 < n ∨ 64 < b + n ∨ ownBanks s x.grp < b + n then none else some (upTo b n)

/-- Grants of banks of a group withdrawn: of one slot, or of all. -/
def ungrant (s : State) (g : Nat) (ns : List Nat) (slot : Option Nat) : State :=
  s.modGroup g (fun gr => { gr with
    grants := gr.grants.filter (fun q => !(ns.contains q.1 && slot.all (· == q.2))) })

/-- AFREE (R288). -/
def bodyAfree (x : Env) (s : State) : Verdict :=
  match bankRange x s with
  | none => trapLanes cAMEMOWN x.act
  | some ns =>
    if (busyBanks s x.grp ns).isEmpty then plain (ungrant (setAlloc s x.grp ns false) x.grp ns none) else .hold

def execAfree (f : Fields) (s : State) : Host.Outcome State Fault Refusal := issue 0xA3 f (fieldsLen f) bodyAfree s

/-- A bank of +0. -/
def zeroBank (m : MemSys) (bank : Nat) : MemSys :=
  { m with amem := m.amem.filter (fun e => e.1 / 1024 != bank), poisA := m.poisA.filter (fun e => e.1 / 1024 != bank) }

/-- AZERO (R288). -/
def bodyAzero (x : Env) (s : State) : Verdict :=
  match bankRange x s with
  | none => trapLanes cAMEMOWN x.act
  | some ns =>
    if ns.all (allocated s x.grp) then
      if (busyBanks s x.grp ns).isEmpty then plain { s with mem := ns.foldl (fun m n => zeroBank m (bankKey s x.grp n)) s.mem }
      else .hold
    else trapLanes cAMEMWR x.act

def execAzero (f : Fields) (s : State) : Host.Outcome State Fault Refusal := issue 0xA7 f (fieldsLen f) bodyAzero s

/-- A slot that a grant may name. -/
def grantee (x : Env) (s : State) (slot : Nat) : Bool :=
  slot != slotOf x.grp && (match s.group? (8 * x.core + slot) with
    | some gr => gr.part == x.part s && !gr.retired
    | none => false)

/-- AGRANT (R289). -/
def bodyAgrant (x : Env) (s : State) : Verdict :=
  let slot := x.f.a.toNat % 8
  match bankRange x s with
  | none => trapLanes cAMEMOWN x.act
  | some ns =>
    if grantee x s slot && ns.all (allocated s x.grp) then
      if !(busyBanks s x.grp ns).isEmpty then .hold
      else
        let t := ungrant s x.grp ns (some slot)
        plain (if bit x.f.m.toNat 0 then t
          else t.modGroup x.grp (fun gr => { gr with grants := gr.grants ++ ns.map (fun n => (n, slot)) }))
    else trapLanes cAMEMOWN x.act

def execAgrant (f : Fields) (s : State) : Host.Outcome State Fault Refusal := issue 0xA4 f (fieldsLen f) bodyAgrant s

/-! ## ALD and AST (R290) -/

/-- May the issuing group reach bank n of a group? -/
def reachable (x : Env) (s : State) (n : Nat) : Bool :=
  if bit x.f.b.toNat 6 then
    ((s.group? (bankOwner x)).elim [] (·.grants)).contains (n, slotOf x.grp) && decide (n < 64)
  else decide (n < ownBanks s x.grp)

/-- The lanes whose row or banks are forbidden. -/
def badRows (x : Env) (s : State) : Mask :=
  failing x (fun l => decide (opC s x l % 2 ^ 32 ≤ 255) && (bankWords x s l).all (fun w => reachable x s w.2.1))

/-- The banks that the active lanes touch. -/
def touched (x : Env) (s : State) : List Nat := (x.lanes.flatMap (fun l => (bankWords x s l).map (fun w => w.2.1))).eraseDups

/-- Is a bank read as unallocated? -/
def unallocatedRead (x : Env) (s : State) (n : Nat) : Bool := !bit x.f.b.toNat 6 && !allocated s x.grp n

/-- ALD. -/
def bodyAld (x : Env) (s : State) : Verdict :=
  let bad := badRows x s
  let key (w : Nat × Nat × Nat) (l : Nat) : Nat := amemKey (bankKey s (bankOwner x) w.2.1) w.2.2 l
  let spoiled := failing x (fun l =>
    (bankWords x s l).all (fun w => unallocatedRead x s w.2.1 || !s.mem.accBad (key w l)))
  let d := (Opnd.ofCode x.f.d).index
  if bad ≠ 0 then trapLanes cAMEMOWN bad
  else if !(busyBanks s (bankOwner x) (touched x s)).isEmpty then .hold
  else if spoiled ≠ 0 then trapLanes cPOISON spoiled
  else
    let ws := x.lanes.flatMap (fun l => (bankWords x s l).flatMap (fun w =>
      putV (d + w.1) l (if unallocatedRead x s w.2.1 then 0x7FC00000 else (s.mem.acc (key w l)).toNat) 0 false 1))
    let t := if (touched x s).any (unallocatedRead x s) then s.modStroke x.key (fun st => { st with amemBit := true }) else s
    .commit { st := t, writes := ws }

def execAld (f : Fields) (s : State) : Host.Outcome State Fault Refusal := issue 0xA5 f (fieldsLen f) bodyAld s

/-- AST. -/
def bodyAst (x : Env) (s : State) : Verdict :=
  let bad := badRows x s
  let closed := failing x (fun l => (bankWords x s l).all (fun w => !unallocatedRead x s w.2.1))
  let d := (Opnd.ofCode x.f.d).index
  if bad ≠ 0 then trapLanes cAMEMOWN bad
  else if closed ≠ 0 then trapLanes cAMEMWR closed
  else if !(busyBanks s (bankOwner x) (touched x s)).isEmpty then .hold
  else
    plain { s with mem := x.lanes.foldl (fun m l => (bankWords x s l).foldl (fun m w =>
      m.putAcc (amemKey (bankKey s (bankOwner x) w.2.1) w.2.2 l) (x.vWord s (d + w.1) l)) m) s.mem }

def execAst (f : Fields) (s : State) : Host.Outcome State Fault Refusal := issue 0xA6 f (fieldsLen f) bodyAst s

/-! ## Convergence registers (R273 to R276) -/

/-- A convergence register of a group changed. -/
def putCv (s : State) (g c : Nat) (v : Cv) : State := s.modGroup g (fun gr => { gr with cvs := mapPut gr.cvs c v })

/-- The round of a convergence register is discarded: its operations end with 0xFFFFFFFF. -/
def discardRound (s : State) (g c : Nat) : State :=
  match (cvOf s g c).round with
  | none => s
  | some r =>
    let s := putCv s g c { cvOf s g c with round := none }
    r.futs.foldl (fun s e => opOver s (32 * g + e.1) e.2 cancelled) s

/-- CVRST (R275). -/
def resetCv (s : State) (g c : Nat) : State :=
  putCv (discardRound s g c) g c {}

/-- The cv register of field D. -/
def cvD (x : Env) : Nat := (Opnd.ofCode x.f.d).index

def execCvrst (f : Fields) (s : State) : Host.Outcome State Fault Refusal :=
  issue 0xA9 f (fieldsLen f) (fun x s => plain (resetCv s x.grp (cvD x))) s

/-- The signing set of a mask: the quartet and its strokes that exist (R274). -/
def signingSet (s : State) (g : Nat) (m : Mask) : Option (Nat × BitVec 4) :=
  (lowest m).map (fun b =>
    let j := b / 4
    let n := (s.group? g).elim 0 (·.strokes)
    (j, BitVec.ofNat 4 ((List.range 4).foldl (fun w q =>
      if m.getLsbD (4 * j + q) && decide (4 * j + q < n) then w + 2 ^ q else w) 0)))

/-- CVSET (R274). -/
def bodyCvset (x : Env) (s : State) : Verdict :=
  let c := cvD x
  let cv := cvOf s x.grp c
  match signingSet s x.grp (BitVec.ofNat 32 (opC s x ((lowest x.act).getD 0))) with
  | none => plain (resetCv s x.grp c)
  | some d =>
    if cv.decl = some d then plain s
    else if cv.round.isSome then trapLanes cCVDOUBLE x.act
    else plain (putCv s x.grp c { decl := some d })

def execCvset (f : Fields) (s : State) : Host.Outcome State Fault Refusal := issue 0xA8 f (fieldsLen f) bodyCvset s

/-! ## MMR: signing (R276, R279 to R282) -/

/-- The lanes whose signature traps CVDOUBLE: those that have signed already, or all where the round refuses it. -/
def signingTrap (x : Env) (c : Cv) (o : MmrOp) (work : Mask) : Mask :=
  let q := x.key % 32
  match c.decl with
  | none => work
  | some (j, set) =>
    if q / 4 ≠ j ∨ set.getLsbD (q % 4) = false then work
    else match c.round with
      | none => 0
      | some r =>
        if r.ta ≠ o.ta ∨ r.tb ≠ o.tb ∨ r.bank ≠ o.n ∨ r.zero ≠ o.zero ∨ r.rua ≠ o.rua ∨ r.rub ≠ o.rub then work
        else maskOf (fun l => work.getLsbD l && r.sigs.any (fun g => g.q == q && g.lane == l))

/-- The signature of a lane. -/
def signature (x : Env) (c : Cv) (o : MmrOp) (l : Nat) : Sig :=
  { q := x.key % 32, lane := l, pc := x.pc, aReg := o.aReg, aN := c.aCount o, bReg := o.bReg, bN := c.bCount o
    a := (upTo o.aReg (c.aCount o)).map (fun i => x.regs.vGet i l)
    b := (upTo o.bReg (c.bCount o)).map (fun i => x.regs.vGet i l) }

/-- The round with the signatures of the given lanes, and operation op behind the stroke's part. -/
def signRound (x : Env) (s : State) (c : Cv) (o : MmrOp) (ls : List Nat) (op : Nat) : Round :=
  let r := c.round.getD
    { ta := o.ta, tb := o.tb, bank := o.n, zero := o.zero, rua := o.rua, rub := o.rub, started := s.cycle, sigs := []
      futs := [] }
  { r with sigs := r.sigs ++ ls.map (signature x c o), futs := r.futs ++ [(x.key % 32, op)] }

/-- MMR: its bank checks, then the tags and marks of what it reads, then the signing checks, then the signatures. -/
def bodyMmr (x : Env) (s : State) : Verdict :=
  let o := mmrOp x.f
  let c := (cvOf s x.grp o.cv).forOp o
  let ls := x.workers s
  let work := maskOf (fun l => ls.contains l)
  let tagged := maskOf (fun l => work.getLsbD l && (c.regs o).any (fun i => x.regs.tagGet i l != 0))
  let marked := maskOf (fun l => work.getLsbD l && (c.regs o).any (fun i => x.regs.poisGet i l))
  let double := signingTrap x c o work
  if o.n = 63 ∨ ownBanks s x.grp < o.n + 2 then trapLanes cAMEMOWN x.act
  else if allocated s x.grp o.n = false ∨ allocated s x.grp (o.n + 1) = false then trapLanes cAMEMWR x.act
  else if tagged ≠ 0 then trapLanes cSHARETAG tagged
  else if marked ≠ 0 then trapLanes cPOISON marked
  else if ls.isEmpty then plain s
  else if double ≠ 0 then trapLanes cCVDOUBLE double
  else
    let op := s.nextId
    let t := putCv { s with nextId := op + 1 } x.grp o.cv { c with round := some (signRound x s c o ls op) }
    let i := (Opnd.ofCode x.f.d).index
    let own : Bool := match x.regs.fGet i with
      | .pending p => c.round.any (fun r => r.futs.contains (x.key % 32, p))
      | _ => false
    let t := if x.f.d = 0 ∨ own = true then t else futurePending t x i op
    .commit { st := t, later := some op, waitFor := 1, engine := true }

def execMmr (f : Fields) (s : State) : Host.Outcome State Fault Refusal := issue 0xA0 f (fieldsLen f) bodyMmr s

/-! ## Matrix arithmetic (R128 to R130) -/

/-- n element codes of a type from bytes in memory order. -/
def elemCodes (t : Ty) (n : Nat) (bs : List Byte) : List Nat :=
  (List.range n).map (fun i =>
    if t.bits = 4 then bits ((bs[i / 2]?).getD 0).toNat (4 * (i % 2) + 3) (4 * (i % 2))
    else bytesNat ((bs.drop (i * t.bits / 8)).take (t.bits / 8)))

/-- The exact values of one chunk of 32 elements under its scale. -/
def chunkVals (t : Ty) (codes : List Nat) (sc : Nat) : List Num :=
  if t.bits = 4 then
    (decodeBlock t ((List.range 4).map (fun w => wordOfCodes ((codes.drop (8 * w)).take 8))) sc).map (·.1)
  else if t = .i8 then codes.map (fun c => intN (sext 8 c))
  else codes.map (unpack t.fmt)

/-- An exact sum rounded once to f32. -/
def roundSum (ts : List Num) : Nat := (finish .f32 .rne false false (sumN .rne ts)).1

/-- One chunk of products added to an accumulator word. -/
def addChunk (isInt : Bool) (nbv acc : Nat) (ps : List Num) : Nat :=
  if isInt then
    wrap 32 (ps.foldl (fun z p => match p with
      | .fin n m _ => if n then z - m else z + m
      | _ => z) (acc : Int))
  else if nbv = 1 then
    let f (i : Nat) : Num := unpack .f32 (roundSum ((ps.drop (8 * i)).take 8))
    let h := roundSum [unpack .f32 (roundSum [f 0, f 1]), unpack .f32 (roundSum [f 2, f 3])]
    roundSum [unpack .f32 acc, unpack .f32 h]
  else roundSum (unpack .f32 acc :: ps)

/-- The products of two chunks. -/
def products (a b : List Num) : List Num := a.zipWith (fun x y => (mulN x y).1) b

/-- Chunks in ascending order. -/
def addChunks (isInt : Bool) (nbv : Nat) : Nat → List (List Num) → List (List Num) → Nat
  | acc, a :: as, b :: bs => addChunks isInt nbv (addChunk isInt nbv acc (products a b)) as bs
  | acc, _, _ => acc

/-! ## Fragments (R271) -/

/-- Register i of a fragment in lane l of stroke q of the quartet; zeros where nothing was signed. -/
def fragWord (m : Map (List Word)) (q l i : Nat) : Nat := ((((mapGet m (32 * q + l) [])[i]?).getD 0)).toNat

/-- Words as bytes. -/
def wordBytes (ws : List Nat) : List Byte := ws.flatMap (natBytes 4)

/-- The chunks of row i of A. -/
def rowChunks (t : Ty) (m : Map (List Word)) (i : Nat) : List (List Num) :=
  let q := i / 16
  let l := 2 * (i % 16)
  let bs := wordBytes (((List.range 8).map (fragWord m q l)) ++ (List.range 8).map (fragWord m q (l + 1)))
  (List.range (64 * 8 / t.bits / 32)).map (fun c =>
    chunkVals t ((elemCodes t (64 * 8 / t.bits) bs).drop (32 * c) |>.take 32)
      (bits (fragWord m q (l + c / 2) 8) (8 * (c % 2) + 7) (8 * (c % 2))))

/-- The chunks of column c of B; mixed is the form with bf16 rows and 4-bit weights. -/
def colChunks (t : Ty) (mixed : Bool) (m : Map (List Word)) (c : Nat) : List (List Num) :=
  let q := c / 8
  let l := 4 * (c % 8)
  if mixed then
    let bs := wordBytes ((List.range 4).map (fun j => fragWord m q (l + j) 0))
    [chunkVals t (elemCodes t 32 bs) (fragWord m q l 1 % 256)]
  else
    let bs := wordBytes ((List.range 4).flatMap (fun j => (List.range 4).map (fragWord m q (l + j))))
    (List.range (64 * 8 / t.bits / 32)).map (fun k =>
      chunkVals t ((elemCodes t (64 * 8 / t.bits) bs).drop (32 * k) |>.take 32) (fragWord m q (l + k) 4 % 256))

/-! ## MMR: the round (R277, R278, R283) -/

/-- Has every lane of the declared strokes signed, or does it count as signed? -/
def roundComplete (s : State) (g : Nat) (d : Nat × BitVec 4) (r : Round) : Bool :=
  (List.range 4).all (fun q => !d.2.getLsbD q || (List.range 32).all (fun l =>
    let k := 4 * d.1 + q
    let y := laneOf s (32 * g + k) l
    (s.stroke? (32 * g + k)).isNone || y.helper || !y.live || r.sigs.any (fun e => e.q == k && e.lane == l)))

/-- Fragments of a round from its signatures, by stroke of the quartet and lane. -/
def signed (r : Round) (pick : Sig → List Word) : Map (List Word) :=
  r.sigs.foldl (fun m e => mapPut m (32 * (e.q % 4) + e.lane) (pick e)) []

/-- The baton lets a group fire (R109). -/
def batonLets (s : State) (g : Nat) : Bool := ((s.core (coreOf g)).baton).all (· == slotOf g)

/-- Is a group on a core, and its partition running there? -/
def runs (s : State) (g : Nat) : Bool := (s.group? g).any (fun gr => !away s gr.part (coreOf g))

/-- Does a complete round of a core wait for the array (R277)? -/
def roundWaits (s : State) (core : Nat) : Bool :=
  s.groups.any (fun e => coreOf e.1 == core && runs s e.1 && batonLets s e.1 && e.2.cvs.any (fun c =>
    match c.2.round, c.2.decl with
    | some r, some d => roundComplete s e.1 d r
    | _, _ => false))

/-- Does a step of an MMS of a core wait for the array? -/
def stepWaits (s : State) (core : Nat) : Bool := s.mms.any (fun m => m.started && coreOf m.group == core && runs s m.group)

/-- Has a core a fired round that is not complete? -/
def roundOpen (s : State) (core : Nat) : Bool := s.fired.any (fun r => coreOf r.group == core)

/-- The array is taken by the other feeder: when rounds, fired ones too until they complete, and steps both wait, it alternates between them (R293). -/
def takenByStep (s : State) (core : Nat) : Bool := !(s.core core).fedStep && stepWaits s core
def takenByRound (s : State) (core : Nat) : Bool := (s.core core).fedStep && (roundWaits s core || roundOpen s core)

/-- MMR_FIRE. -/
def execMmrFire (group cv : Nat) (s : State) : Host.Outcome State Fault Refusal :=
  let c := cvOf s group cv
  match c.round, c.decl, s.group? group with
  | some r, some d, some gr =>
    if roundComplete s group d r && batonLets s group && runs s group && !takenByStep s (coreOf group) then
      let a := c.latchA.elim (signed r (·.a)) (·.frag)
      let b := c.latchB.elim (signed r (·.b)) (·.frag)
      let c' : Cv :=
        { c with
          round := none
          latchA := if r.rua then some { ta := r.ta, tb := r.tb, frag := a } else none
          latchB := if r.rub then some { ta := r.ta, tb := r.tb, frag := b } else none }
      let x : Fired :=
        { id := s.nextId, group := group, quart := d.1, ta := r.ta, tb := r.tb, bank := r.bank, zero := r.zero, nbv := gr.nbv
          a := a, b := b, futs := r.futs }
      .next ({ putCv s group cv c' with nextId := s.nextId + 1, fired := s.fired ++ [x] }.modCore (coreOf group) (fun k =>
        { k with fedStep := k.fedStep && roundOpen s (coreOf group) }))
    else .next s
  | _, _, _ => .next s

/-- The result of a fired round in AMEM. -/
def roundResult (s : State) (r : Fired) : MemSys :=
  let ta := tyOf (BitVec.ofNat 5 r.ta)
  let tb := tyOf (BitVec.ofNat 5 r.tb)
  let mixed := ta.bits != 4 && tb.bits == 4
  let cols := (List.range 32).map (colChunks tb mixed r.b)
  (List.range 64).foldl (fun m i =>
    let row := rowChunks ta r.a i
    let bank := bankKey s r.group (r.bank + i / 32)
    (List.range 32).foldl (fun m c =>
      let k := amemKey bank (i % 32) c
      let acc := if r.zero then 0 else (m.acc k).toNat
      m.putAcc k (BitVec.ofNat 32 (addChunks (ta == .i8) r.nbv acc row ((cols[c]?).getD []))) (!r.zero && m.accBad k)) m) s.mem

/-- A fired round's result lands, and what waited for it goes on. -/
def completeFired (s : State) (r : Fired) : State :=
  let s := { s with mem := roundResult s r, fired := s.fired.filter (fun q => q.id != r.id) }.modCore (coreOf r.group) (fun k => { k with fedStep := false })
  releaseGroup (r.futs.foldl (fun s e => opOver s (32 * r.group + e.1) e.2 0) s) r.group

/-- MMR_COMPLETE: the rounds of a core complete in the order in which they fired. -/
def execMmrComplete (id : Nat) (s : State) : Host.Outcome State Fault Refusal :=
  match s.fired.find? (fun r => r.id == id) with
  | some r =>
    if (s.fired.find? (fun q => coreOf q.group == coreOf r.group)).any (fun q => q.id == id) then .next (completeFired s r)
    else .next s
  | none => .next s

/-- The trap that a stroke takes for a round that timed out, if a live lane of it signed. -/
def timeoutTrap (s : State) (g q : Nat) (r : Round) : Option Trap :=
  let mine := r.sigs.filter (fun e => e.q == q && (laneOf s (32 * g + q) e.lane).live)
  let m := maskOf (fun l => mine.any (fun e => e.lane == l))
  (lowest m).map (fun l =>
    { cause := cCVTIMEOUT, code := 0, addr := (mine.find? (fun e => e.lane == l)).elim 0 (·.pc), mask := m, path := 0
      async := true })

/-- CV_TIMEOUT (R278). -/
def execCvTimeout (group cv : Nat) (s : State) : Host.Outcome State Fault Refusal :=
  match (cvOf s group cv).round, s.group? group with
  | some r, some gr =>
    if runs s group ∧ r.started + max gr.cr.cvto 4096 ≤ s.cycle then
      let t := (List.range 32).foldl (fun t q => match timeoutTrap s group q r with
        | some x => t.modStroke (32 * group + q) (fun st => { st with async := st.async ++ [x] })
        | none => t) s
      .next (discardRound t group cv)
    else .next s
  | _, _ => .next s

/-! ## Range locks of copies and MMS (R202) -/

/-- The locks that copy or MMS owner of a slot wants. -/
def lockOf (r : LockRange) (kind : LockKind) (owner slot : Nat) : Lock :=
  { home := r.home, part := r.part, lo := r.lo, hi := r.hi, kind := kind, owner := owner, slot := slot }

/-- Must an instruction that wants these locks stall? -/
def locksStall (s : State) (core : Nat) (want : List Lock) : Bool :=
  let have_ := (s.core core).locks
  let meets (a b : Lock) : Bool := a.home == b.home && a.part == b.part && a.spans.any (fun z => b.spans.any (fun y => decide (z.1 < y.2) && decide (y.1 < z.2)))
  decide (Config.lockEntries < have_.length + want.length) ||
    want.any (fun w => have_.any (fun h => meets w h && (match w.kind, h.kind with
      | .dest, .dest | .dest, .source | .source, .dest => true
      | _, _ => false)))

def takeLocks (s : State) (core : Nat) (want : List Lock) : State :=
  s.modCore core (fun c => { c with locks := c.locks ++ want })

/-- Locks of an owner released by kind; the contexts of the core that stalled try again. -/
def dropLocks (s : State) (core owner : Nat) (kinds : List LockKind) : State :=
  let s := s.modCore core (fun c => { c with locks := c.locks.filter (fun l => !(l.owner == owner && kinds.contains l.kind)) })
  (List.range 8).foldl (fun s i => s.modCtx (8 * core + i) (fun c => { c with lockWait := false })) s

/-- The U range of n bytes at an offset of a group; offsets beyond the scratchpad name no bytes of it. -/
def uRange (s : State) (g a n : Nat) : Option LockRange :=
  (uLoc s g a n).map (fun l => { home := .u, part := (s.group? g).elim 0 (·.part), lo := l.addr, hi := l.addr + n })

/-- The status register of a copy or an MMS is written, and the group may be released (R258, R255). -/
def statusDone (s : State) (g kS id : Nat) (code bytes : Nat) : State :=
  let s := s.modCtx g (fun c =>
    if mapGet? c.pending kS = some id then
      { (c.kSet kS (BitVec.ofNat 64 (code * 2 ^ 48 + bytes % 2 ^ 48))) with pending := mapDel c.pending kS }
    else c)
  releaseGroup s g

/-- A k register becomes pending (R254). -/
def setPending (s : State) (g kS id : Nat) : State :=
  s.modCtx g (fun c => { c with pending := mapPut c.pending kS id, kpois := mapSet c.kpois false kS false })

/-! ## MMS (R291 to R293) -/

/-- Bytes of a tile's data and scales. -/
def Tile.extent (t : Tile) : Nat := if t.blocked && t.layout != 3 then t.scaleAt + t.scaleBytes else t.dataBytes

/-- Do a tile's bytes lie in a group's U allotment? -/
def tileInU (s : State) (g : Nat) (t : Tile) : Bool := (uLoc s g t.base t.extent).isSome

/-- The banks of an MMS over A and B, from N on. -/
def mmsBanks (n : Nat) (a b : Tile) : List Nat := upTo n (a.rows / 32 * ((b.cols + 31) / 32))

/-- Are the tiles ones that an MMS multiplies? -/
def mmsTiles (s : State) (g : Nat) (a b : Tile) : Bool :=
  !a.malformed && !b.malformed && tileInU s g a && tileInU s g b && [32, 64, 96, 128].contains a.rows &&
    decide (1 ≤ b.cols) && decide (b.cols ≤ 64) && decide (a.cols % 32 = 0) && a.cols == b.rows && pairOk a.ty b.ty &&
    a.sparse != 1 && b.sparse != 1 && a.layout != 3 && b.layout != 3 && (!a.blocked || a.layout == 0) &&
    (!b.blocked || b.layout == 1)

/-- A record in U of a group. -/
def recordAt (s : State) (g a : Nat) : Option (List Byte) :=
  if a % 32 = 0 then (uLoc s g a 32).map (fun l => readBytes s l 32) else none

/-- The tile that a record gives; a record that cannot be read is malformed. -/
def tileAt (s : State) (g a : Nat) : Tile := tileOf ((recordAt s g a).getD (List.replicate 32 0))

/-- The k register named by a code, of the issuing context. -/
def kReg (s : State) (x : Env) (c : Code) : Dword := ((s.ctx? x.key).getD {}).kGet (Opnd.ofCode c).index

/-- MMS. -/
def bodyMms (x : Env) (s : State) : Verdict :=
  let t := x.drained s
  let e := extX x.f
  let aRec := (kReg s x x.f.a).toNat % 2 ^ 32
  let bRec := (kReg s x x.f.b).toNat % 2 ^ 32
  let id := t.nextId
  let slot := slotOf x.grp
  let a := tileAt t x.grp aRec
  let b := tileAt t x.grp bRec
  let recs := [aRec, bRec].filterMap (fun r => uRange t x.grp r 32)
  let data := [a, b].filterMap (fun k => if k.malformed then none else uRange t x.grp k.base k.extent)
  let want := recs.map (lockOf · .record id slot) ++ data.map (lockOf · .source id slot)
  let kS := (Opnd.ofCode x.f.d).index
  if locksStall t x.core want then .parkIn .locked t
  else
    let m : Mms :=
      { id := id, group := x.grp, kS := kS, bank := bits e 5 0, zero := bit e 8, aRec := aRec, bRec := bRec
        banks := if mmsTiles t x.grp a b then mmsBanks (bits e 5 0) a b else [] }
    plain (setPending (takeLocks { t with nextId := id + 1, mms := t.mms ++ [m] } x.core want) x.grp kS id)

def execMms (f : Fields) (s : State) : Host.Outcome State Fault Refusal := issue 0xA1 f (fieldsLen f) bodyMms s

/-- Elements of k in a chunk of a step (R293). -/
def Ty.chunk (t : Ty) : Nat := if t.bits = 4 then 128 else if t.bits = 8 then 64 else 32

/-- One operand vector of a step as it stands in U: element codes in two bytes each, a scale for each 32 of them, and
whether a line of it is poisoned. at_ gives element j's place in the tile; SPARSE 2 reads as zeros. -/
def vectorNow (s : State) (g : Nat) (t : Tile) (js : List (Nat × Nat)) : List Byte × Bool :=
  let loc (o : Nat) : Option Loc := uLoc s g (t.base + o) 1
  let byteAt (o : Nat) : Nat := (loc o).elim 0 (fun l => (readByte s l).toNat)
  let badAt (o : Nat) : Bool := (loc o).elim false (fun l => s.mem.anyPoison l 1)
  if t.sparse = 2 then (List.replicate (2 * js.length + js.length / 32) 0, false)
  else
    let w := t.ty.bits
    let code (p : Nat × Nat) : Nat :=
      let b := t.elemBit p.1 p.2
      bits (byteAt (b / 8) + 256 * byteAt (b / 8 + 1)) (b % 8 + w - 1) (b % 8)
    let heads := (List.range (js.length / 32)).filterMap (fun i => js[32 * i]?)
    let scales := if t.blocked then heads.map (fun p => BitVec.ofNat 8 (byteAt (t.scaleOff p.1 p.2))) else List.replicate heads.length 0
    let bad := js.any (fun p => badAt (t.elemBit p.1 p.2 / 8)) || (t.blocked && heads.any (fun p => badAt (t.scaleOff p.1 p.2)))
    (js.flatMap (fun p => natBytes 2 (code p)) ++ scales, bad)

/-- The elements of vector v of A or B over chunk c. -/
def vectorElems (isA : Bool) (t : Tile) (v c len : Nat) : List (Nat × Nat) :=
  let k := if isA then t.cols else t.rows
  (List.range (min len (k - c * len))).map (fun i => if isA then (v, c * len + i) else (c * len + i, v))

/-- The operand block of a step as it stands in U: 32 rows of A, or up to 32 columns of B. -/
def blockNow (s : State) (g : Nat) (recOff : Nat) (t : Tile) (isA : Bool) (blk c len : Nat) : OpEntry :=
  let n := if isA then t.rows else t.cols
  let vs := (List.range (min 32 (n - 32 * blk))).map (fun i => vectorNow s g t (vectorElems isA t (32 * blk + i) c len))
  { group := g, recOff := recOff, gen := t.gen, isA := isA, blk := blk, chunk := c, len := len, data := vs.map (·.1), bad := vs.map (·.2) }

/-- Blocks that the operand cache holds: 64 KiB, each of 32 rows or columns of 64 bytes (R292, R293). -/
def blockPlaces : Nat := 32

/-- The block that a step reads: from the cache, or as it now stands, filling the entry (R292, log 12). -/
def readBlock (s : State) (core : Nat) (now : OpEntry) : State × OpEntry :=
  let same (e : OpEntry) : Bool :=
    e.group == now.group && e.recOff == now.recOff && e.gen == now.gen && e.isA == now.isA && e.blk == now.blk &&
      e.chunk == now.chunk && e.len == now.len
  let fill (s : State) : State :=
    { s with fresh := s.fresh + 1 }.modCore core (fun c =>
      let left := c.opcache.filter (fun e => !same e)
      { c with opcache := (if left.length < blockPlaces then left else left.eraseIdx (Config.evicted s.fresh % left.length)) ++ [now] })
  match (s.core core).opcache.find? same with
  | none => (fill s, now)
  | some e =>
    if e = now then (s, e)
    else
      let t := { s with fresh := s.fresh + 1 }
      if Config.oldOperand s.fresh then (t, e) else (fill t, now)

/-- The chunks of 32 of a vector of a block. -/
def blockChunks (t : Ty) (e : OpEntry) (v : Nat) : List (List Num) :=
  let bs := (e.data[v]?).getD []
  let n := bs.length / 65
  (List.range n).map (fun i =>
    chunkVals t ((List.range 32).map (fun j => bytesNat ((bs.drop (64 * i + 2 * j)).take 2)))
      ((bs[64 * n + i]?).getD 0).toNat)

/-- One step: bank block (i, j) over chunk c. -/
def mmsBlock (s : State) (m : Mms) (a b : Tile) (i j c : Nat) : State × Bool :=
  let core := coreOf m.group
  let len := a.ty.chunk
  let (s, ea) := readBlock s core (blockNow s m.group m.aRec a true i c len)
  let (s, eb) := readBlock s core (blockNow s m.group m.bRec b false j c len)
  let nbv := (s.group? m.group).elim 2 (·.nbv)
  let bank := bankKey s m.group (m.bank + i * ((b.cols + 31) / 32) + j)
  let cols := (List.range eb.data.length).map (fun v => (v, blockChunks b.ty eb v))
  let start := m.zero && c == 0
  let mem := (List.range 32).foldl (fun x r =>
    let row := blockChunks a.ty ea r
    cols.foldl (fun x col =>
      let k := amemKey bank r col.1
      let acc := if start then 0 else (x.acc k).toNat
      let bad := (ea.bad[r]?).getD false || (eb.bad[col.1]?).getD false
      x.putAcc k (BitVec.ofNat 32 (addChunks (a.ty == .i8) nbv acc row col.2)) (bad || (!start && x.accBad k))) x) s.mem
  ({ s with mem := mem }, ea.bad.any id || eb.bad.any id)

def modMms (s : State) (id : Nat) (g : Mms → Mms) : State :=
  { s with mms := s.mms.map (fun m => if m.id = id then g m else m) }

/-- An MMS completes. -/
def mmsDone (s : State) (m : Mms) (code bytes : Nat) : State :=
  let s := dropLocks s (coreOf m.group) m.id [.source, .record, .dest]
  statusDone { s with mms := s.mms.filter (fun k => k.id != m.id) } m.group m.kS m.id code bytes

/-- The fetch of the records and the checks; then the steps, block by block, each over its chunks. -/
def mmsStep (s : State) (m : Mms) : State :=
  let g := m.group
  if m.started = false then
    let ra := recordAt s g m.aRec
    let rb := recordAt s g m.bRec
    let a := tileOf (ra.getD (List.replicate 32 0))
    let b := tileOf (rb.getD (List.replicate 32 0))
    let ns := mmsBanks m.bank a b
    let poisoned := [m.aRec, m.bRec].any (fun r => (uLoc s g r 32).any (fun l => s.mem.anyPoison l 32))
    let s := dropLocks s (coreOf g) m.id [.record]
    if !poisoned && mmsTiles s g a b && ns.all (fun n => decide (n < 64) && allocated s g n) then
      modMms s m.id (fun k => { k with started := true, recA := ra.getD [], recB := rb.getD [], banks := ns })
    else mmsDone s m 1 0
  else
    let a := tileOf m.recA
    let b := tileOf m.recB
    let nb := (b.cols + 31) / 32
    let chunks := (a.cols + a.ty.chunk - 1) / a.ty.chunk
    let blk := m.step / chunks
    let (s, bad) := mmsBlock s m a b (blk / nb) (blk % nb) (m.step % chunks)
    let m' := { m with step := m.step + 1, poison := m.poison || bad }
    if m'.step = a.rows / 32 * nb * chunks then mmsDone s m (if m'.poison then 4 else 0) (4 * a.rows * b.cols)
    else modMms s m.id (fun _ => m')

/-- MMS_STEP: the steps of a core are taken in the order of issue. -/
def execMmsStep (id : Nat) (s : State) : Host.Outcome State Fault Refusal :=
  match s.mms.find? (fun m => m.id == id) with
  | some m =>
    let core := coreOf m.group
    if runs s m.group && (s.mms.find? (fun k => coreOf k.group == core && runs s k.group)).any (fun k => k.id == id) &&
        !(m.started && takenByRound s core) then
      .next (mmsStep (if m.started then s.modCore core (fun k => { k with fedStep := true }) else s) m)
    else .next s
  | none => .next s

end Sys2Proof.Machine
end

