-- ==== Sys2Proof/Machine/Special.lean ====
section
/-!
DEFINITION. The special functions of R163. Exact results are exact; every other result is a value cut to at least 400
bits below its leading bit, with a one appended for what was cut off, so that the one rounding of R120 that follows is
the correct rounding that R118 asks for (log 15).
-/
namespace Sys2Proof.Machine

/-- Fraction bits of the fixed-point numbers of this file. -/
def fxBits : Nat := 704
/-- One in fixed point. -/
def fxOne : Nat := 2 ^ fxBits

def fxMul (x y : Nat) : Nat := (x * y) >>> fxBits

/-- Σ z^(2k+1) / (2k+1) from term k on: the inverse hyperbolic tangent of z (alternating: the inverse tangent). -/
def atanSeries (alternate : Bool) : Nat → Nat → Nat → Nat → Int
  | 0, _, _, _ => 0
  | n + 1, k, p, zz =>
    let t : Int := (p / (2 * k + 1) : Nat)
    (if alternate && k % 2 == 1 then -t else t) + atanSeries alternate n (k + 1) (fxMul p zz) zz

/-- ln 2 = 2 atanh(1/3). -/
def fxLn2 : Nat := (2 * atanSeries false 230 0 (fxOne / 3) (fxOne / 9)).toNat

/-- π = 16 atan(1/5) − 4 atan(1/239). -/
def fxPi : Nat :=
  (16 * atanSeries true 160 0 (fxOne / 5) (fxOne / 25) - 4 * atanSeries true 60 0 (fxOne / 239) (fxOne / 57121)).toNat

/-- e^x for 0 ≤ x < 1: Σ x^k / k! from term k on, of which p is the k-th. -/
def expSeries : Nat → Nat → Nat → Nat → Nat
  | 0, _, _, _ => 0
  | n + 1, k, p, x => p + expSeries n (k + 1) (fxMul p x / (k + 1)) x

/-- sin x for 0 ≤ x ≤ π/2: alternating Σ from the term of power k on, of which p is that term. -/
def sinSeries : Nat → Nat → Nat → Nat → Int
  | 0, _, _, _ => 0
  | n + 1, k, p, xx => (p : Int) - sinSeries n (k + 2) (fxMul p xx / ((k + 1) * (k + 2))) xx

/-- A fixed-point value that was cut, as an exact value that rounds as the value before the cut does. -/
def fxNum (neg : Bool) (x : Nat) (e : Int) : Num := .fin neg (2 * x + 1) (e - fxBits - 1)

/-- 1/x for a finite nonzero m × 2^e. -/
def recipN (neg : Bool) (m : Nat) (e : Int) : Num :=
  let l := m.log2
  if m = 2 ^ l then .fin neg 1 (-(e + l))
  else .fin neg (2 * (2 ^ (l + 100) / m) + 1) (-e - (l + 100 : Nat) - 1)

/-- Integer square root by bits from 2^k down. -/
def isqrtFrom : Nat → Nat → Nat → Nat
  | 0, _, r => r
  | k + 1, x, r => if (r + 2 ^ k) * (r + 2 ^ k) ≤ x then isqrtFrom k x (r + 2 ^ k) else isqrtFrom k x r

/-- √(m × 2^e) for m > 0. -/
def sqrtN (m : Nat) (e : Int) : Num :=
  let (m, e) := if e % 2 = 0 then (m, e) else (2 * m, e - 1)
  let x := m <<< 128
  let r := isqrtFrom (x.log2 / 2 + 1) x 0
  if r * r = x then .fin false r (e / 2 - 64) else .fin false (2 * r + 1) (e / 2 - 65)

/-- 1/√(m × 2^e) for m > 0: the root of 2^600 / m for an even e. -/
def rsqrtN (m : Nat) (e : Int) : Num :=
  let (m, e) := if e % 2 = 0 then (m, e) else (2 * m, e - 1)
  let l := m.log2
  if m = 2 ^ l ∧ l % 2 = 0 then .fin false 1 (-((e + l) / 2))
  else .fin false (2 * isqrtFrom 301 (2 ^ 600 / m) 0 + 1) (-(e / 2) - 301)

/-- 2^x for a finite x. -/
def exp2N (neg : Bool) (m : Nat) (e : Int) : Num :=
  if m = 0 then .fin false 1 0
  else if 20 ≤ e + m.log2 then .fin false 1 (if neg then -1000000 else 1000000)
  else
    let x : Int := if 0 ≤ e + fxBits then (m <<< (e + fxBits).toNat : Nat) else (m >>> (-(e + fxBits)).toNat : Nat)
    let x := if neg then -x else x
    let n := x / (fxOne : Int)
    let f := (x % (fxOne : Int)).toNat
    if f = 0 then .fin false 1 n else fxNum false (expSeries 200 0 fxOne (fxMul f fxLn2)) n

/-- log2 (m × 2^e) for m > 0. -/
def log2N (m : Nat) (e : Int) : Num :=
  let l := m.log2
  if m = 2 ^ l then intN (e + l)
  else
    -- m = 2^l × f with f between 1 and 2; ln f = 2 atanh((f − 1)/(f + 1))
    let z := ((m - 2 ^ l) <<< fxBits) / (m + 2 ^ l)
    let lnf := (2 * atanSeries false 240 0 z (fxMul z z)).toNat
    let y : Int := (e + l) * fxOne + ((lnf <<< fxBits) / fxLn2 : Nat)
    fxNum (decide (y < 0)) y.natAbs 0

/-- sin(π r) for r = y / 2^fxBits, reduced modulo 2. -/
def sinPiFx (y : Nat) : Num :=
  let y := y % (2 * fxOne)
  let neg := decide (fxOne ≤ y)
  let y := if neg then y - fxOne else y
  let y := if fxOne < 2 * y then fxOne - y else y
  if y = 0 then .fin neg 0 0
  else if 2 * y = fxOne then .fin neg 1 0
  else
    let t := fxMul y fxPi
    fxNum neg (sinSeries 90 1 t (fxMul t t)).toNat 0

/-- m × 2^e modulo 2 in fixed point. -/
def fixMod2 (m : Nat) (e : Int) : Nat :=
  if 1 ≤ e then 0 else (m <<< (e + fxBits).toNat) % (2 * fxOne)

/-- sin(πx): an integer gives a zero of x's sign (R163). -/
def sinPiN (neg : Bool) (m : Nat) (e : Int) : Num :=
  match sinPiFx (fixMod2 m e) with
  | .fin n k d => if k = 0 then .fin neg 0 0 else .fin (n != neg) k d
  | x => x

/-- cos(πx): an integer plus a half gives +0 (R163). -/
def cosPiN (m : Nat) (e : Int) : Num :=
  match sinPiFx (fixMod2 m e + fxOne / 2) with
  | .fin n k d => if k = 0 then .fin false 0 0 else .fin n k d
  | x => x

/-- tanh x for a finite nonzero x: (E − 1)/(E + 1) with E = e^(2x) = 2^(2x / ln 2). -/
def tanhN (neg : Bool) (m : Nat) (e : Int) : Num :=
  if 7 ≤ e + m.log2 then fxNum neg (fxOne - 1) 0
  else
    let x2 := m <<< (e + 1 + fxBits).toNat
    let y := (x2 <<< fxBits) / fxLn2
    let n := y >>> fxBits
    let big := expSeries 200 0 fxOne (fxMul (y % fxOne) fxLn2) <<< n
    fxNum neg (((big - fxOne) <<< fxBits) / (big + fxOne)) 0

/-- A special function on a value, with the special cases and flags of R163. -/
inductive SpecialFn where
  | rcp | rsq | sqrt | exp2 | log2 | sin | cos | tanh
  deriving DecidableEq, Repr

def specialN : SpecialFn → Num → Num × Flags
  | _, .nan s => (.nan false, (Num.nan s).signals)
  | .rcp, .inf n => (.fin n 0 0, 0)
  | .rcp, .fin n m e => if m = 0 then (.inf n, flagDZ) else (recipN n m e, 0)
  | .rsq, .inf n => if n then (.nan false, flagNV) else (.fin false 0 0, 0)
  | .rsq, .fin n m e => if m = 0 then (.inf n, 0) else if n then (.nan false, flagNV) else (rsqrtN m e, 0)
  | .sqrt, .inf n => if n then (.nan false, flagNV) else (.inf false, 0)
  | .sqrt, .fin n m e => if m = 0 then (.fin n 0 0, 0) else if n then (.nan false, flagNV) else (sqrtN m e, 0)
  | .exp2, .inf n => if n then (.fin false 0 0, 0) else (.inf false, 0)
  | .exp2, .fin n m e => (exp2N n m e, 0)
  | .log2, .inf n => if n then (.nan false, flagNV) else (.inf false, 0)
  | .log2, .fin n m e => if m = 0 then (.inf true, flagDZ) else if n then (.nan false, flagNV) else (log2N m e, 0)
  | .sin, .inf _ => (.nan false, flagNV)
  | .sin, .fin n m e => (sinPiN n m e, 0)
  | .cos, .inf _ => (.nan false, flagNV)
  | .cos, .fin _ m e => (cosPiN m e, 0)
  | .tanh, .inf n => (.fin n 1 0, 0)
  | .tanh, .fin n m e => if m = 0 then (.fin n 0 0, 0) else (tanhN n m e, 0)

/-- A special function on an element, rounded once by RNE, with FTZ on its input and its result (R119, R163). -/
def specialFloat (g : SpecialFn) (t : Fmt) (ftz : Bool) (x : Nat) : Nat × Flags :=
  finish t .rne false ftz (specialN g (unpack t (flushIn t ftz x)))

end Sys2Proof.Machine
end

