-- ==== Sys2Proof/Machine/Sketch.lean ====
section
/-!
DEFINITION. Summary records (R295 to R305): reading them from bytes and writing them back, folds, merges and queries.
-/
namespace Sys2Proof.Machine

def sat64 (n : Nat) : Nat := min n (2 ^ 64 - 1)
def sat32 (n : Nat) : Nat := min n (2 ^ 32 - 1)

/-! ## Coins (R297) -/

/-- Where coins come from: the record's state, or the entropy source, of which n bits have been drawn (log 10). -/
structure Coin where
  lfsr : Word
  ent  : Bool
  n    : Nat
  deriving DecidableEq, Repr

/-- One coin. -/
def Coin.draw (c : Coin) : Nat × Coin :=
  if c.ent then ((if Config.entropyBit c.n then 1 else 0), { c with n := c.n + 1 })
  else
    let s : Word := if c.lfsr = 0 then 1 else c.lfsr
    let t := s >>> 1
    if s.getLsbD 0 then (1, { c with lfsr := t ^^^ 0x80200003 }) else (0, { c with lfsr := t })

/-! ## Quantile sketches (R296 to R300) -/

/-- A kind 1 record; items are f32 patterns, the eight levels in order. -/
structure Sketch where
  coin   : Coin
  count  : Nat
  least  : Nat
  most   : Nat
  nans   : Nat
  cmps   : List Nat
  levels : List (List Nat)
  deriving DecidableEq, Repr

/-- Capacity and first byte of a level. -/
def levelCap (h : Nat) : Nat := ([64, 48, 36, 28, 22, 16, 14, 12][h]?).getD 12
def levelByte (h : Nat) : Nat := ([64, 320, 512, 656, 768, 856, 920, 976][h]?).getD 976

/-- The order of items: by value, then by pattern read as i32, so that −0 comes before +0. -/
def itemKey (x : Nat) : Int := if bit x 31 then -((x % 2 ^ 31 : Nat) : Int) - 1 else (x : Int)

def insertItem (x : Nat) : List Nat → List Nat
  | [] => [x]
  | y :: r => if itemKey y ≤ itemKey x then y :: insertItem x r else x :: y :: r

def sortItems : List Nat → List Nat
  | [] => []
  | x :: r => insertItem x (sortItems r)

/-- The items at indices c, c + 2, and so on. -/
def everyOther : List Nat → List Nat
  | [] => []
  | [x] => [x]
  | x :: _ :: r => x :: everyOther r

def keptItems (c : Nat) (l : List Nat) : List Nat := everyOther (sortItems l |>.drop c)

def Sketch.level (k : Sketch) (h : Nat) : List Nat := (k.levels[h]?).getD []

/-- One compaction counted. -/
def Sketch.compacted (k : Sketch) (h : Nat) (l : List Nat) (c : Coin) : Sketch :=
  { k with levels := listPut k.levels h l, coin := c, cmps := listPut k.cmps h (min 0xFFFF ((k.cmps[h]?).getD 0 + 1)) }

/-- append(h, x) with its compactions (R298); fuel is the levels from h on. -/
def Sketch.append : Nat → Nat → Nat → Sketch → Sketch
  | 0, _, _, k => k
  | fuel + 1, h, x, k =>
    let l := k.level h ++ [x]
    if l.length = levelCap h then
      let (c, coin) := k.coin.draw
      let kept := keptItems c l
      if h = 7 then k.compacted 7 kept coin
      else kept.foldl (fun k y => Sketch.append fuel (h + 1) y k) (k.compacted h [] coin)
    else { k with levels := listPut k.levels h l }

def firstItem (x y : Nat) : Nat := if itemKey y < itemKey x then y else x
def lastItem (x y : Nat) : Nat := if itemKey x < itemKey y then y else x

/-- Is an f32 pattern a NaN? -/
def nan32 (x : Nat) : Bool := decide (0x7F800000 < x % 2 ^ 31)

/-- fold(x) (R298). -/
def Sketch.fold (k : Sketch) (x : Nat) : Sketch :=
  if nan32 x then { k with nans := sat64 (k.nans + 1) }
  else Sketch.append 8 0 x
    { k with count := sat64 (k.count + 1), least := firstItem k.least x, most := lastItem k.most x }

/-- The levels of a merge compacted from level h on (R299). -/
def Sketch.settle : Nat → Nat → Sketch → Sketch
  | 0, _, k => k
  | fuel + 1, h, k =>
    let l := k.level h
    if levelCap h ≤ l.length then
      let (c, coin) := k.coin.draw
      let kept := keptItems c l
      if h = 7 then Sketch.settle fuel 7 (k.compacted 7 kept coin)
      else
        let k := k.compacted h [] coin
        Sketch.settle fuel (h + 1) { k with levels := listPut k.levels (h + 1) (k.level (h + 1) ++ kept) }
    else if h = 7 then k
    else Sketch.settle fuel (h + 1) k

/-- B merged into A (R299). -/
def Sketch.merge (a b : Sketch) : Sketch :=
  Sketch.settle 16 0
    { a with
      levels := (List.range 8).map (fun h => a.level h ++ b.level h)
      count := sat64 (a.count + b.count)
      nans := sat64 (a.nans + b.nans)
      least := firstItem a.least b.least
      most := lastItem a.most b.most
      cmps := (List.range 8).map (fun h => min 0xFFFF ((a.cmps[h]?).getD 0 + (b.cmps[h]?).getD 0)) }

/-- Items with their weights, in order. -/
def Sketch.items (k : Sketch) : List (Nat × Nat) :=
  let all := (List.range 8).flatMap (fun h => (k.level h).map (fun x => (x, 2 ^ h)))
  all.foldr (fun e r =>
    let rec put : List (Nat × Nat) → List (Nat × Nat)
      | [] => [e]
      | f :: r => if itemKey f.1 ≤ itemKey e.1 then f :: put r else e :: f :: r
    put r) []

/-- The first item whose cumulative weight meets a test. -/
def firstReach (t : Nat → Bool) : Nat → List (Nat × Nat) → Nat
  | _, [] => 0
  | c, [e] => if t (c + e.2) then e.1 else e.1
  | c, e :: r => if t (c + e.2) then e.1 else firstReach t (c + e.2) r

/-- The quantile for q (R300), with NV for a NaN. -/
def Sketch.query (k : Sketch) (q : Nat) : Nat × Flags :=
  let w := (List.range 8).foldl (fun w h => w + (k.level h).length * 2 ^ h) 0
  match unpack .f32 q with
  | .nan _ => (Fmt.f32.qnan, flagNV)
  | .inf n => (if w = 0 then Fmt.f32.qnan else if n then k.least else k.most, 0)
  | .fin n m e =>
    if w = 0 then (Fmt.f32.qnan, 0)
    else if n ∨ m = 0 then (k.least, 0)
    else if ltN (.fin n m e) (.fin false 1 0) = false then (k.most, 0)
    else (firstReach (fun c => !(ltN (.fin false c 0) (.fin false (m * w) e))) 0 k.items, 0)

/-- A kind 1 record in bytes, and its bytes read. -/
def Sketch.ofBytes (r : List Byte) (ent : Bool) (n : Nat) : Sketch :=
  { coin := { lfsr := BitVec.ofNat 32 (field r 4 4), ent := ent, n := n }
    count := field r 8 8, least := field r 16 4, most := field r 20 4, nans := field r 24 8
    cmps := (List.range 8).map (fun h => field r (40 + 2 * h) 2)
    levels := (List.range 8).map (fun h => (List.range (field r (32 + h) 1)).map (fun i => field r (levelByte h + 4 * i) 4)) }

def padTo (n : Nat) (bs : List Byte) : List Byte := bs ++ List.replicate (n - bs.length) 0

def Sketch.bytes (k : Sketch) : List Byte :=
  natBytes 4 (1 + 0x0A * 256) ++ natBytes 4 k.coin.lfsr.toNat ++ natBytes 8 k.count ++ natBytes 4 k.least ++
    natBytes 4 k.most ++ natBytes 8 k.nans ++ (List.range 8).flatMap (fun h => natBytes 1 (k.level h).length) ++
    (List.range 8).flatMap (fun h => natBytes 2 ((k.cmps[h]?).getD 0)) ++ natBytes 8 0 ++
    (List.range 8).flatMap (fun h => padTo (4 * levelCap h) ((k.level h).flatMap (natBytes 4)))

/-! ## Heavy hitters (R302, R303) -/

/-- An entry: key, count, error. -/
structure Hitter where
  key : Nat
  cnt : Nat
  err : Nat
  deriving DecidableEq, Repr

/-- A kind 2 record. -/
structure Hitters where
  ty      : Nat
  count   : Nat
  dec     : Nat
  entries : List Hitter
  deriving DecidableEq, Repr

def insertHitter (x : Hitter) : List Hitter → List Hitter
  | [] => [x]
  | y :: r => if x.cnt < y.cnt || (x.cnt == y.cnt && decide (y.key ≤ x.key)) then y :: insertHitter x r else x :: y :: r

/-- By count descending, then by key ascending. -/
def sortHitters : List Hitter → List Hitter
  | [] => []
  | x :: r => insertHitter x (sortHitters r)

/-- fold(x) (R303). -/
def Hitters.fold (k : Hitters) (x : Nat) : Hitters :=
  let k := { k with count := sat64 (k.count + 1) }
  if k.entries.any (fun e => e.key == x) then
    { k with entries := sortHitters (k.entries.map (fun e => if e.key = x then { e with cnt := sat32 (e.cnt + 1) } else e)) }
  else if k.entries.length < 62 then
    { k with entries := sortHitters (k.entries ++ [{ key := x, cnt := 1, err := sat32 k.dec }]) }
  else
    { k with
      dec := sat64 (k.dec + 1)
      entries := sortHitters ((k.entries.map (fun e => { e with cnt := e.cnt - 1, err := sat32 (e.err + 1) })).filter
        (fun e => e.cnt != 0)) }

/-- The count and the error of a side for a key. -/
def Hitters.side (k : Hitters) (x : Nat) : Nat × Nat := match k.entries.find? (fun e => e.key == x) with
  | some e => (e.cnt, e.err)
  | none => (0, k.dec)

/-- B merged into A (R303). -/
def Hitters.merge (a b : Hitters) : Hitters :=
  let keys := a.entries.map (·.key) ++ (b.entries.map (·.key)).filter (fun x => !(a.entries.any (fun e => e.key == x)))
  let all := sortHitters (keys.map (fun x =>
    { key := x, cnt := sat32 ((a.side x).1 + (b.side x).1), err := sat32 ((a.side x).2 + (b.side x).2) }))
  let s := ((all[62]?).map (·.cnt)).getD 0
  { a with
    count := sat64 (a.count + b.count)
    dec := sat64 (a.dec + b.dec + s)
    entries := sortHitters ((all.map (fun e => { e with cnt := e.cnt - s, err := sat32 (e.err + s) })).filter
      (fun e => e.cnt != 0)) }

def Hitters.ofBytes (r : List Byte) : Hitters :=
  { ty := field r 1 1, count := field r 8 8, dec := field r 16 8
    entries := (List.range (field r 4 4)).map (fun i =>
      { key := field r (32 + 16 * i) 8, cnt := field r (40 + 16 * i) 4, err := field r (44 + 16 * i) 4 }) }

def Hitters.bytes (k : Hitters) : List Byte :=
  padTo 1024 (natBytes 4 (2 + k.ty * 256) ++ natBytes 4 k.entries.length ++ natBytes 8 k.count ++ natBytes 8 k.dec ++
    natBytes 8 0 ++ k.entries.flatMap (fun e => natBytes 8 e.key ++ natBytes 4 e.cnt ++ natBytes 4 e.err))

/-! ## Distinct counts (R304, R305) -/

/-- mix64 (R304). -/
def mix64 (x : Nat) : Nat :=
  let x := x ^^^ (x >>> 31)
  let x := x * 0x9E6D3A0B57C12F45 % 2 ^ 64
  let x := x ^^^ (x >>> 29)
  let x := x * 0xC4B17E29A35D8F13 % 2 ^ 64
  x ^^^ (x >>> 32)

/-- A kind 3 record. -/
structure Distinct where
  ty    : Nat
  count : Nat
  regs  : List Nat
  deriving DecidableEq, Repr

/-- fold(x) (R304). -/
def Distinct.fold (k : Distinct) (x : Nat) : Distinct :=
  let h := mix64 x
  let w := h * 2 ^ 10 % 2 ^ 64
  let rho := if w = 0 then 55 else 64 - w.log2
  let j := h >>> 54
  { k with count := sat64 (k.count + 1), regs := listPut k.regs j (max ((k.regs[j]?).getD 0) rho) }

def Distinct.merge (a b : Distinct) : Distinct :=
  { a with count := sat64 (a.count + b.count), regs := a.regs.zipWith max b.regs }

def Distinct.ofBytes (r : List Byte) : Distinct :=
  let n := bytesNat ((r.drop 64).take 768)
  { ty := field r 1 1, count := field r 8 8, regs := (List.range 1024).map (fun j => (n >>> (6 * j)) % 64) }

def Distinct.bytes (k : Distinct) : List Byte :=
  let n := k.regs.foldr (fun x n => x + 64 * n) 0
  padTo 1024 (natBytes 8 (3 + k.ty * 256) ++ natBytes 8 k.count ++ natBytes 48 0 ++ natBytes 768 n)

/-- A quotient as an exact value, or cut 200 bits below one with a one appended (log 15). -/
def ratN (num den : Nat) : Num :=
  let x := num <<< 300
  if x % den = 0 then .fin false (x / den) (-300) else .fin false (2 * (x / den) + 1) (-301)

/-- 1024 × ln (1024 / v). -/
def linearCount (v : Nat) : Num :=
  let l := v.log2
  let z := ((v - 2 ^ l) <<< fxBits) / (v + 2 ^ l)
  let lnf := (2 * atanSeries false 240 0 z (fxMul z z)).toNat
  if v = 1024 then .fin false 0 0 else fxNum false ((10 - l) * fxLn2 - lnf) 10

/-- The estimate (R305), rounded to f32. -/
def Distinct.estimate (k : Distinct) : Nat :=
  let v := (k.regs.filter (· == 0)).length
  let z := k.regs.foldl (fun n r => n + 2 ^ (63 - r)) 0
  let num := 7213 * 2 ^ 30 * 2 ^ 63
  let den := 10250790 * z
  (pack .f32 .rne false 2 false (if num ≤ 2560 * den ∧ 0 < v then linearCount v else ratN num den)).1

/-! ## Records -/

def allZero (bs : List Byte) : Bool := bs.all (· == 0)

/-- Is a record malformed (R295)? -/
def recordBad (r : List Byte) : Bool :=
  let kind := field r 0 1
  let ty := field r 1 1
  field r 2 2 != 0 || (match kind with
    | 1 => ty != 0x0A || field r 56 8 != 0 || (List.range 8).any (fun h => decide (levelCap h ≤ field r (32 + h) 1))
    | 2 => (ty != 0 && ty != 5) || field r 24 8 != 0 || decide (62 < field r 4 4)
    | 3 => (ty != 0 && ty != 5) || field r 4 4 != 0 || !allZero ((r.drop 16).take 48) || !allZero (r.drop 832)
    | _ => true)

/-- A record of a kind as SMINIT writes it (R307). -/
def freshRecord (kind ty seed : Nat) : List Byte :=
  match kind with
  | 1 =>
    let k : Sketch :=
      { coin := { lfsr := BitVec.ofNat 32 (if seed = 0 then 1 else seed), ent := false, n := 0 }, count := 0
        least := 0x7F800000, most := 0xFF800000, nans := 0, cmps := List.replicate 8 0, levels := List.replicate 8 [] }
    k.bytes
  | 2 => ({ ty := ty, count := 0, dec := 0, entries := [] } : Hitters).bytes
  | _ => ({ ty := ty, count := 0, regs := List.replicate 1024 0 } : Distinct).bytes

/-- The merge of two records of one kind and type: the result, and the coins drawn from the entropy source. -/
def mergeRecords (a b : List Byte) (ent : Bool) (n : Nat) : List Byte × Nat :=
  match field a 0 1 with
  | 1 =>
    let k := (Sketch.ofBytes a ent n).merge (Sketch.ofBytes b ent n)
    (k.bytes, k.coin.n)
  | 2 => (((Hitters.ofBytes a).merge (Hitters.ofBytes b)).bytes, n)
  | _ => (((Distinct.ofBytes a).merge (Distinct.ofBytes b)).bytes, n)

/-- Do two records merge: well formed, of one kind and type? -/
def mergeable (a b : List Byte) : Bool :=
  !recordBad a && !recordBad b && field a 0 2 == field b 0 2

end Sys2Proof.Machine
end

