-- ==== Sys2Proof/Machine/Convert.lean ====
section
/-!
DEFINITION. Conversions and narrowing (R166 to R169).
-/
namespace Sys2Proof.Machine

/-- A value of one type converted to another (R121 to R123, R166); an element in the low bits of a register. -/
def convert (src dst : Ty) (r : Rnd) (sat : Bool) (nbv : Nat) (x : Nat) : Nat × Flags :=
  match src.fmt?, dst.fmt? with
  | some a, some b =>
    if a = b then
      -- R166: the same type copies, and makes a NaN canonical; .sat clamps an infinity (R122, log 17)
      let v := unpack a (x % 2 ^ (a.top + 1))
      (match v with
        | .nan _ => b.qnan
        | .inf neg => if sat then signBit b neg + b.largest else x % 2 ^ (a.top + 1)
        | _ => x % 2 ^ (a.top + 1), v.signals)
    else cvtFloat a b r sat nbv (x % 2 ^ (a.top + 1))
  | some a, none =>
    let z := toIntN r dst.least dst.greatest (unpack a (x % 2 ^ (a.top + 1)))
    (dst.widen z.1, z.2)
  | none, some b => pack b r sat nbv false (intN (src.ext x))
  | none, none => (dst.fit sat (src.ext x), 0)

/-- The numeric-behaviour version of the issuing group (R131). -/
def Env.nbv (x : Env) (s : State) : Nat := (x.group s).nbv

/-- A residue register's write. -/
def putE (n l x : Nat) : WriteBack := { reg := .e n, lane := l, val := BitVec.ofNat 64 (x % 2 ^ 32) }

/-- CVT (R166); M = EF names a residue register in A. -/
def bodyCvt (x : Env) (s : State) : Verdict :=
  let sat := x.satBit
  let src := tyOf (BitVec.ofNat 5 (x.f.b.toNat / 8))
  if x.f.m.toNat = 5 then
    let n := (Opnd.ofCode x.f.a).index
    let rs := x.lanes.map (fun l => (l, efRound x.ty.fmt sat (x.nbv s) (opC s x l sat % 2 ^ 32) (opA s x l)))
    .commit
      { st := s
        writes := putD x (rs.map (fun r => (r.1, r.2.1))) ++ rs.map (fun r => putE n r.1 r.2.2.1)
        flags := rs.map (fun r => (r.1, r.2.2.2)) }
  else results x s (fun l => convert src x.ty (roundOf s x) sat (x.nbv s) (opC s x l sat))

def execCvt (f : Fields) (s : State) : Host.Outcome State Fault Refusal := issue 0x33 f (fieldsLen f) bodyCvt s

/-- PACK2 (R167): element 0 from a, element 1 from c. -/
def bodyPack2 (x : Env) (s : State) : Verdict :=
  let t := x.ty
  let sat := x.satBit
  let join (a c : Nat) : Nat := a + 2 ^ t.bits * c
  if x.f.m.toNat = 5 then
    let n := bits x.f.b.toNat 5 2
    let rs := x.lanes.map (fun l =>
      (l, efRound t.fmt sat (x.nbv s) (opA s x l) (x.regs.eGet n l).toNat,
        efRound t.fmt sat (x.nbv s) (opC s x l) (x.regs.eGet (n + 1) l).toNat))
    .commit
      { st := s
        writes := putD x (rs.map (fun r => (r.1, join r.2.1.1 r.2.2.1))) ++
          rs.flatMap (fun r => [putE n r.1 r.2.1.2.1, putE (n + 1) r.1 r.2.2.2.1])
        flags := rs.map (fun r => (r.1, r.2.1.2.2 ||| r.2.2.2.2)) }
  else
    let r := roundOf s x
    results x s (fun l =>
      let a := cvtFloat .f32 t.fmt r sat (x.nbv s) (opA s x l)
      let c := cvtFloat .f32 t.fmt r sat (x.nbv s) (opC s x l)
      (join a.1 c.1, a.2 ||| c.2))

def execPack2 (f : Fields) (s : State) : Host.Outcome State Fault Refusal := issue 0x34 f (fieldsLen f) bodyPack2 s

/-- QNT4 (R168): once for the stroke, lane L supplying element L; an explicit scale comes from the lowest active lane. -/
def bodyQnt4 (x : Env) (s : State) : Verdict :=
  let b := x.f.b.toNat
  let vs := (List.range 32).map (fun l => if x.act.getLsbD l then unpack .f32 (opA s x l) else .fin false 0 0)
  let scale := if bit b 1 then none else some (opC s x ((lowest x.act).getD 0) % 256)
  let e := encodeBlock x.ty (Rnd.ofCode (bits b 4 2)) scale vs
  let codes := e.1.map (·.1)
  let d := (Opnd.ofCode x.f.d).index
  let words := (List.range 4).map (fun w => wordOfCodes ((codes.drop (8 * w)).take 8))
  .commit
    { st := s
      writes := (List.range 4).flatMap (fun w => putS (d + w) ((words[w]?).getD 0) false 1) ++ putS (d + 4) e.2 false 1
      flags := x.lanes.map (fun l => (l, ((e.1[l]?).getD (0, 0)).2)) }

def execQnt4 (f : Fields) (s : State) : Host.Outcome State Fault Refusal := issue 0x35 f (fieldsLen f) bodyQnt4 s

/-- DQN4 (R169). -/
def bodyDqn4 (x : Env) (s : State) : Verdict :=
  let a := (Opnd.ofCode x.f.a).index
  let block := decodeBlock x.ty ((List.range 4).map (fun w => (x.regs.sGet (a + w)).toNat)) (x.regs.sGet (a + 4)).toNat
  results x s (fun l =>
    let v := (block[l]?).getD (.fin false 0 0, false)
    let z := pack .f32 .rne false 2 false v.1
    (z.1, if v.2 then z.2 ||| flagMALF else z.2))

def execDqn4 (f : Fields) (s : State) : Host.Outcome State Fault Refusal := issue 0x36 f (fieldsLen f) bodyDqn4 s

end Sys2Proof.Machine
end

