-- ==== Sys2Proof/Machine/TileCopy.lean ====
section
/-!
DEFINITION. The conversion of one tile into another (R264): the value of an element of the source tile, and the bytes that
the destination tile holds, each with the source bytes it needs.
-/
namespace Sys2Proof.Machine

/-- The vector of an element, its place in the vector, and back (R19). -/
def Tile.vec (t : Tile) (i j : Nat) : Nat × Nat := if t.layout = 1 then (j, i) else (i, j)
def Tile.atVec (t : Tile) (v e : Nat) : Nat × Nat := if t.layout = 1 then (e, v) else (v, e)

/-- Stored elements of a vector. -/
def Tile.storedLen (t : Tile) : Nat := if t.layout = 1 then t.rows else t.stored

/-- Bytes from the base that hold the index nibble of a group of a row (log 18). -/
def Tile.metaNibble (t : Tile) (i g : Nat) : Nat := 2 * t.metaAt + Config.metaPlace t.rows t.cols i g % (t.rows * (t.cols / 4))

/-- Bytes of all of a tile. -/
def Tile.allBytes (t : Tile) : Nat :=
  if t.sparse = 1 then t.metaAt + (t.rows * (t.cols / 4) + 1) / 2
  else if t.blocked && t.layout != 3 then t.scaleAt + t.scaleBytes
  else t.dataBytes

/-- The runs of bytes that a tile holds, each by its offset from the base and its length: between vectors there may be gaps. -/
def Tile.pieces (t : Tile) : List (Nat × Nat) :=
  (if t.layout < 2 then
    (List.range (if t.layout = 1 then t.stored else t.rows)).map (fun v => (v * t.stride, (t.storedLen * t.ty.bits + 7) / 8))
  else [(0, t.dataBytes)]) ++
    (if t.blocked && t.layout != 3 then [(t.scaleAt, t.scaleBytes)] else []) ++
    (if t.sparse = 1 then [(t.metaAt, (t.rows * (t.cols / 4) + 1) / 2)] else [])

/-- The aligned 64-byte units that a tile's bytes touch, counted from that of the base (R256). -/
def Tile.units (t : Tile) : List Nat :=
  (t.pieces.flatMap (fun p =>
    if p.2 = 0 then [] else upTo ((t.base + p.1) / 64 - t.base / 64) ((t.base + p.1 + p.2 - 1) / 64 + 1 - (t.base + p.1) / 64))).eraseDups

/-! ## Reading the source -/

/-- The bytes of the stored element (i, j), from the base. -/
def Tile.elemBytes (t : Tile) (i j : Nat) : List Nat := upTo (t.elemBit i j / 8) ((t.ty.bits + 7) / 8)

/-- The code of the stored element (i, j). -/
def Tile.code (t : Tile) (rd : Nat → Nat) (i j : Nat) : Nat :=
  let b := t.elemBit i j
  bits (bytesNat ((t.elemBytes i j).map (fun o => BitVec.ofNat 8 (rd o)))) (b % 8 + t.ty.bits - 1) (b % 8)

/-- The eight stored slots of the word that holds slot e of a vector, as places of elements. -/
def Tile.wordSlots (t : Tile) (v e : Nat) : List (Nat × Nat) :=
  ((upTo (e / 8 * 8) 8).filter (fun k => decide (k < t.storedLen))).map (t.atVec v)

/-- Where a tile keeps the logical element (i, j): none for a zero that it does not store; the flag marks indices that are
not in order (R171). -/
def Tile.place (t : Tile) (rd : Nat → Nat) (i j : Nat) : Option (Nat × Nat) × Bool :=
  if t.sparse = 1 then
    let n := t.metaNibble i (j / 4)
    let w := rd (n / 2) / 16 ^ (n % 2) % 16
    if w % 4 < w / 4 then
      (if j % 4 = w % 4 then some (i, 2 * (j / 4)) else if j % 4 = w / 4 then some (i, 2 * (j / 4) + 1) else none, false)
    else (none, true)
  else (some (i, j), false)

/-- An element of the source: its code, and its exact value. -/
def Tile.value (t : Tile) (rd : Nat → Nat) (i j : Nat) : Nat × Num :=
  if t.sparse = 2 then (0, .fin false 0 0)
  else match t.place rd i j with
    | (_, true) => (match t.ty.fmt? with
      | some f => f.qnan
      | none => 0, .nan false)
    | (none, false) => (0, .fin false 0 0)
    | (some p, false) =>
      let c := t.code rd p.1 p.2
      if t.blocked then
        let (v, e) := t.vec p.1 p.2
        let cs := (t.wordSlots v e).map (fun q => t.code rd q.1 q.2)
        let vals := decodeBlock t.ty [wordOfCodes (cs ++ List.replicate (8 - cs.length) 0)] (rd (t.scaleOff i j))
        (c, ((vals[e % 8]?).getD (.fin false 0 0, false)).1)
      else match t.ty.fmt? with
        | some f => (c, unpack f c)
        | none => (c, intN (t.ty.ext c))

/-- The source bytes that the logical element (i, j) may need. -/
def Tile.needs (t : Tile) (i j : Nat) : List Nat :=
  if t.sparse = 2 then []
  else
    let cols := if t.sparse = 1 then [2 * (j / 4), 2 * (j / 4) + 1] else [j]
    let elems := cols.flatMap (fun k =>
      if t.blocked then (t.wordSlots (t.vec i k).1 (t.vec i k).2).flatMap (fun q => t.elemBytes q.1 q.2) else t.elemBytes i k)
    elems ++ (if t.blocked then [t.scaleOff i j] else []) ++ (if t.sparse = 1 then [t.metaNibble i (j / 4) / 2] else [])

/-! ## Writing the destination -/

/-- Types that convert into one another (R121 to R123). -/
def Ty.numeric (t : Ty) : Bool := !([Ty.b32, .b64, .b8, .b16, .b128, .sa32, .sx32].contains t)

/-- A tile conversion: the two tiles, the source's bytes, the rounding and the version. -/
structure TileJob where
  src : Tile
  dst : Tile
  rd  : Nat → Nat
  rnd : Rnd
  sat : Bool
  nbv : Nat

/-- Is a block copied as it stands: one blocked format, dense on both sides, blocks along the same direction? -/
def TileJob.copiesBlocks (k : TileJob) : Bool :=
  k.src.ty == k.dst.ty && k.src.blocked && k.src.sparse == 0 && k.dst.sparse == 0 &&
    (k.src.layout == 1) == (k.dst.layout == 1)

def TileJob.val (k : TileJob) (i j : Nat) : Num := (k.src.value k.rd i j).2

/-- The two of a group of four columns that a 2:4 destination keeps (R135). -/
def TileJob.kept (k : TileJob) (i g : Nat) : Nat × Nat := pick24 ((List.range 4).map (fun t => k.val i (4 * g + t)))

/-- The logical column of a stored column of the destination. -/
def TileJob.logical (k : TileJob) (i j : Nat) : Nat :=
  if k.dst.sparse = 1 then
    let p := k.kept i (j / 2)
    4 * (j / 2) + (if j % 2 = 0 then p.1 else p.2)
  else j

/-- The value that the destination keeps of a logical element: a dropped one is 0. -/
def TileJob.keptVal (k : TileJob) (i j : Nat) : Num :=
  if k.dst.sparse = 1 then
    let p := k.kept i (j / 4)
    if j % 4 = p.1 ∨ j % 4 = p.2 then k.val i j else .fin false 0 0
  else k.val i j

/-- The elements of block b of vector v of the destination. -/
def Tile.blockElems (t : Tile) (v b : Nat) : List (Nat × Nat) :=
  ((upTo (32 * b) 32).filter (fun e => decide (e < t.vecLen))).map (t.atVec v)

/-- The scale of a block of the destination (R125). -/
def TileJob.scale (k : TileJob) (v b : Nat) : Nat :=
  if k.copiesBlocks then
    match (k.dst.blockElems v b).head? with
    | some p => k.rd (k.src.scaleOff p.1 p.2)
    | none => 0
  else blockScale ((k.dst.blockElems v b).map (fun p => k.keptVal p.1 p.2))

/-- A value over its own block's scale; NaN under the scale 0xFF, which encodes as 0. -/
def TileJob.quotient (k : TileJob) (i j : Nat) : Num :=
  let (v, e) := k.dst.vec i j
  let sc := k.scale v (e / 32)
  if sc = 0xFF then .nan false
  else match k.val i j with
    | .fin n m x => .fin n m (x - ((sc : Int) - 127))
    | u => u

/-- The code of the stored element (i, j) of the destination. -/
def TileJob.code (k : TileJob) (i j : Nat) : Nat :=
  let c := k.logical i j
  let e := k.src.value k.rd i c
  if k.dst.blocked then
    if k.copiesBlocks then e.1
    else
      let (v, p) := k.dst.vec i j
      let qs := (k.dst.wordSlots v p).map (fun q => k.quotient q.1 (k.logical q.1 q.2))
      ((((encodeBlock k.dst.ty k.rnd (some 127) qs).1)[p % 8]?).getD (0, 0)).1
  else if k.src.ty = k.dst.ty then e.1
  else if k.src.blocked then
    match k.dst.ty.fmt? with
    | some f => (pack f k.rnd k.sat k.nbv false e.2).1
    | none => k.dst.ty.widen (toIntN k.rnd k.dst.ty.least k.dst.ty.greatest e.2).1
  else (convert k.src.ty k.dst.ty k.rnd k.sat k.nbv e.1).1

/-- Part of a byte that the destination holds: its offset from the base, its first bit, its width and its value; and the
source bytes it may need. -/
structure Patch where
  off   : Nat
  lo    : Nat
  width : Nat
  val   : Nat
  needs : List Nat

/-- The logical elements that a stored element of the destination depends on. -/
def TileJob.depends (k : TileJob) (i j : Nat) : List (Nat × Nat) :=
  let cols (j : Nat) : List Nat := if k.dst.sparse = 1 then upTo (4 * (j / 2)) 4 else [j]
  if k.dst.blocked then
    (k.dst.wordSlots (k.dst.vec i j).1 (k.dst.vec i j).2).flatMap (fun q => (cols q.2).map (fun c => (q.1, c)))
  else (cols j).map (fun c => (i, c))

def TileJob.patchElem (k : TileJob) (i j : Nat) : List Patch :=
  let w := k.dst.ty.bits
  let b := k.dst.elemBit i j
  let needs := (k.depends i j).flatMap (fun p => k.src.needs p.1 p.2)
  let c := k.code i j
  if w < 8 then [{ off := b / 8, lo := b % 8, width := w, val := c % 2 ^ w, needs := needs }]
  else (List.range (w / 8)).map (fun n => { off := b / 8 + n, lo := 0, width := 8, val := bits c (8 * n + 7) (8 * n), needs := needs })

/-- Everything that the destination tile holds. -/
def TileJob.patches (k : TileJob) : List Patch :=
  let t := k.dst
  let pairs (n m : Nat) : List (Nat × Nat) := (List.range n).flatMap (fun i => (List.range m).map (fun j => (i, j)))
  (pairs t.rows t.stored).flatMap (fun p => k.patchElem p.1 p.2) ++
    (if t.blocked then (pairs t.vectors ((t.vecLen + 31) / 32)).map (fun p =>
      { off := (match (t.blockElems p.1 p.2).head? with
          | some q => t.scaleOff q.1 q.2
          | none => 0)
        lo := 0, width := 8, val := k.scale p.1 p.2
        needs := (t.blockElems p.1 p.2).flatMap (fun q => k.src.needs q.1 q.2) }) else []) ++
    (if t.sparse = 1 then (pairs t.rows (t.cols / 4)).map (fun p =>
      let q := k.kept p.1 p.2
      { off := t.metaNibble p.1 p.2 / 2, lo := 4 * (t.metaNibble p.1 p.2 % 2), width := 4, val := q.1 + 4 * q.2
        needs := (upTo (4 * p.2) 4).flatMap (fun j => k.src.needs p.1 j) }) else [])

/-- A byte with patches applied. -/
def patched (old : Nat) (ps : List Patch) : Nat :=
  ps.foldl (fun b p => b - bits b (p.lo + p.width - 1) p.lo * 2 ^ p.lo + p.val % 2 ^ p.width * 2 ^ p.lo) old

/-- May one tile be converted into the other (R264)? -/
def tilesConvert (a b : Tile) : Bool :=
  !a.malformed && !b.malformed && a.rows == b.rows && a.cols == b.cols && b.sparse != 2 &&
    (b.sparse != 1 || b.cols % 4 == 0) && (a.sparse != 1 || a.cols % 4 == 0) && (a.layout != 3 || a.fragOk) &&
    (b.layout != 3 || b.fragOk) && (a.ty == b.ty || (a.ty.numeric && b.ty.numeric))

end Sys2Proof.Machine
end

