-- ==== Sys2Proof/Machine/Copies.lean ====
section
/-!
DEFINITION. The scribe's copies (R254 to R268): CPY, CPYR, CPYT, CPYM, CCAN and WCUE, and the events COPY_START,
COPY_BEAT, COPY_COMPLETE, REMOTE_WRITE_ARRIVAL, ARMING_NOTIFICATION and HOLD_TIMEOUT.
-/
namespace Sys2Proof.Machine

/-! ## Places -/

/-- Why a copy's access is not made: a page that firmware must resolve, or an end with FAULT (R260). -/
inductive CopyStop where
  | hold (b : Bad)
  | fail

/-- The place of a few bytes of a space, as a group of a partition sees it. -/
def copyPlace (s : State) (g part : Nat) (p : Space) (a n : Nat) (acc : Acc) : Except CopyStop Loc :=
  let narrow (l : Option Loc) : Except CopyStop Loc := match l with
    | some l => .ok l
    | none => .error .fail
  match p with
  | .U => narrow (uLoc s g a n)
  | .P => narrow (pLoc s g a n)
  | .C => narrow (cLoc s part (clusterOf (coreOf g)) a n)
  | p => match hubPage s part (a % 2 ^ 64) acc [spaceKind p] with
    | .error b => if b.cause = cPAGEFAULT ∨ b.cause = cS2FAULT then .error (.hold b) else .error .fail
    | .ok e => .ok { home := homeOfKind e.kind, addr := e.phys (a % 2 ^ 64), key := if e.kind = 0 then e.key else 0 }

/-- n bytes from an address on, in pieces that no line or page divides: fuel is the pieces left. -/
def copyPlaces (s : State) (g part : Nat) (p : Space) (acc : Acc) : Nat → Nat → Nat → Except CopyStop (List (Loc × Nat))
  | 0, _, _ => .ok []
  | fuel + 1, a, n =>
    if n = 0 then .ok []
    else
      let k := min n (16 - a % 16)
      match copyPlace s g part p a k acc, copyPlaces s g part p acc fuel (a + k) (n - k) with
      | .error e, _ => .error e
      | _, .error e => .error e
      | .ok l, .ok r => .ok ((l, k) :: r)

def copyReach (s : State) (c : Copy) (p : Space) (a n : Nat) (acc : Acc) : Except CopyStop (List (Loc × Nat)) :=
  copyPlaces s c.group c.part p acc (n / 16 + 2) a n

/-- Is the page of an address a share page? Addresses of U, P and C are in none. -/
def pageShare (s : State) (part : Nat) (p : Space) (a : Nat) : Bool :=
  !p.narrow && (match walkPage s part (a % 2 ^ 64) with
    | .ok e => e.share
    | .error _ => false)

/-- The mapped pages of a range, by whether they are share pages. -/
def rangeShares (s : State) (part : Nat) (p : Space) (a n : Nat) : List Bool :=
  if n = 0 then []
  else if p.narrow then [false]
  else (List.range (n / 4096 + 2)).filterMap (fun i =>
    let x := if i = 0 then a else a / 4096 * 4096 + 4096 * i
    if x < a + n then (match walkPage s part (x % 2 ^ 64) with
      | .ok e => some e.share
      | .error _ => none) else none)

/-- The range of a copy in the terms of the lock table (R203): none where its addresses name no bytes. -/
def copyRange (s : State) (g part : Nat) (p : Space) (a n : Nat) : Option LockRange :=
  match p with
  | .U => uRange s g a n
  | .P => (pLoc s g a n).map (fun l => { home := .u, part := part, lo := l.addr, hi := l.addr + n })
  | .C => some { home := .c, part := part, lo := a, hi := a + n }
  | p => some { home := homeOfKind (spaceKind p), part := part, lo := a, hi := a + n }

/-- An address register for a space: 32 bits for U, P and C (R90). -/
def spaceAddr (p : Space) (x : Dword) : Nat := if p.narrow then x.toNat % 2 ^ 32 else x.toNat

/-- The bytes of a range of n from a on that lie in its b-th aligned unit of w bytes: first, one past the last. -/
def beatSpan (w a n b : Nat) : Nat × Nat := (max a (w * (a / w + b)), min (a + n) (w * (a / w + b + 1)))

/-- The U lines that a destination of a copy touches; presence is cleared and set by line (R200). -/
def destLines (s : State) (g : Nat) (p : Space) (a n : Nat) : List Nat :=
  if p = .U ∧ n ≠ 0 then match uLoc s g a n with
    | some l => upTo l.line ((l.addr + n - 1) / 128 + 1 - l.line)
    | none => []
  else []

/-! ## Issue -/

/-- A record of a tile copy as it stands: none where it cannot be read. -/
def peekRecord (s : State) (g part : Nat) (p : Space) (a : Nat) : Option (List Byte) :=
  if a % 32 = 0 then match copyPlaces s g part p .load 4 a 32 with
    | .ok ls => if ls.any (fun l => s.mem.anyPoison l.1 l.2) then none else some (readPlaces s ls)
    | .error _ => none
  else none

def tileOrBad (r : Option (List Byte)) : Tile := tileOf (r.getD (List.replicate 32 0))

/-- A copy issues: locks, presence, the pending status register; or its context stalls. -/
def issueCopy (x : Env) (t : State) (c : Copy) (want : List Lock) (lines : List Nat) : Verdict :=
  if locksStall t x.core want then .parkIn .locked t
  else
    let t := takeLocks { t with nextId := t.nextId + 1, copies := t.copies ++ [c] } x.core want
    plain (setPending (lines.foldl (fun s l => s.setPresent l false) t) x.grp c.kS c.id)

/-- The copy that CPY, CPYR and CPYM issue. -/
def newCopy (x : Env) (t : State) (kind : CopyKind) (dSpace sSpace : Space) (len : Dword) : Copy :=
  { id := t.nextId, group := x.grp, part := x.part t, kind := kind, kS := (Opnd.ofCode x.f.d).index
    dSpace := spaceKindCode dSpace, sSpace := spaceKindCode sSpace
    dBase := BitVec.ofNat 64 (spaceAddr dSpace (kReg t x x.f.a)), sBase := BitVec.ofNat 64 (spaceAddr sSpace (kReg t x x.f.b))
    len := len.toNat % 2 ^ 48, lenBad := decide (2 ^ 48 ≤ len.toNat), ent := (x.group t).coin.getLsbD 0 }
where
  spaceKindCode : Space → Nat
    | .U => 0 | .P => 1 | .C => 2 | .D => 3 | .G => 4 | .H => 5

def Copy.dst (c : Copy) : Space := Space.ofCode c.dSpace
def Copy.src (c : Copy) : Space := Space.ofCode c.sSpace

/-- CPY and CPYR. -/
def bodyCopy (kind : Env → CopyKind) (x : Env) (s : State) : Verdict :=
  let t := x.drained s
  let len := ((t.ctx? x.key).getD {}).kGet (x.f.c.toNat % 32)
  let c := newCopy x t (kind x) (Space.ofCode x.f.m.toNat) (Space.ofCode (bits x.f.c.toNat 7 5)) len
  let slot := slotOf x.grp
  let want :=
    ((copyRange t c.group c.part c.src c.sBase.toNat c.len).map (lockOf · .source c.id slot)).toList ++
    ((copyRange t c.group c.part c.dst c.dBase.toNat c.len).map (lockOf · .dest c.id slot)).toList
  issueCopy x t c want (destLines t c.group c.dst c.dBase.toNat c.len)

def execCpy (f : Fields) (s : State) : Host.Outcome State Fault Refusal :=
  issue 0x90 f (fieldsLen f) (bodyCopy (fun _ => .plain)) s
def execCpyr (f : Fields) (s : State) : Host.Outcome State Fault Refusal :=
  issue 0x92 f (fieldsLen f) (bodyCopy (fun x => .reduce (extX x.f % 16))) s

/-- CPYT. -/
def bodyCpyt (x : Env) (s : State) : Verdict :=
  let t := x.drained s
  let e := extX x.f
  let c := newCopy x t (.tile (e % 8) (bit e 3)) (Space.ofCode x.f.m.toNat) (Space.ofCode (x.f.c.toNat % 8)) 0
  let slot := slotOf x.grp
  let a := tileOrBad (peekRecord t c.group c.part c.src c.sBase.toNat)
  let b := tileOrBad (peekRecord t c.group c.part c.dst c.dBase.toNat)
  let recs := [(c.src, c.sBase), (c.dst, c.dBase)].filterMap (fun r => copyRange t c.group c.part r.1 r.2.toNat 32)
  let data (k : Tile) (p : Space) (kind : LockKind) : List Lock :=
    if k.malformed then [] else ((copyRange t c.group c.part p k.base k.allBytes).map (lockOf · kind c.id slot)).toList
  issueCopy x t c (recs.map (lockOf · .record c.id slot) ++ data a c.src .source ++ data b c.dst .dest)
    (if b.malformed then [] else (b.units.flatMap (fun u =>
      let z := beatSpan 64 b.base b.allBytes u
      destLines t c.group c.dst z.1 (z.2 - z.1))).eraseDups)

def execCpyt (f : Fields) (s : State) : Host.Outcome State Fault Refusal := issue 0x91 f (fieldsLen f) bodyCpyt s

/-- The destination of a CPYM in the lock table: one entry that covers the bytes its list names as it issues; of `.ink` destinations, which lie
beyond the device's own addresses, one that covers none (R202, R265; DEDUCED, log 17). -/
def cpymDest (s : State) (c : Copy) (ink : Bool) (n slot : Nat) : Lock :=
  let at_ (i : Nat) : Option Loc :=
    if ink || c.dBase.toNat % 16 ≠ 0 then none
    else (uLoc s c.group (c.dBase.toNat + 16 * i) 4).bind (fun l => pLoc s c.group (readNat s l 4) c.len)
  let zs := (List.range n).filterMap (fun i => (at_ i).map (fun l => (l.addr, l.addr + c.len)))
  { home := .u, part := c.part, lo := (zs.headD (0, 0)).1, hi := (zs.headD (0, 0)).2, kind := .dest, owner := c.id, slot := slot, more := zs.drop 1 }

/-- CPYM. Its locks are those of its source, of its destinations and of its list (R202, R265). -/
def bodyCpym (x : Env) (s : State) : Verdict :=
  let t := x.drained s
  let len := ((t.ctx? x.key).getD {}).kGet (x.f.c.toNat % 32)
  let n := extX x.f % 32
  let ink := bit x.f.m.toNat 0
  let c := newCopy x t (.mcast ink n) .U (Space.ofCode (bits x.f.c.toNat 7 5)) len
  let slot := slotOf x.grp
  let want :=
    ((copyRange t c.group c.part c.src c.sBase.toNat c.len).map (lockOf · .source c.id slot)).toList ++
    [cpymDest t c ink n slot] ++ ((uRange t c.group c.dBase.toNat (16 * n)).map (lockOf · .record c.id slot)).toList
  issueCopy x t c want []

def execCpym (f : Fields) (s : State) : Host.Outcome State Fault Refusal := issue 0x93 f (fieldsLen f) bodyCpym s

/-! ## CCAN and WCUE (R267, R268) -/

/-- Every copy changed, those of saved partitions too. -/
def mapCopies (s : State) (g : Copy → Copy) : State :=
  { s with
    copies := s.copies.map g
    parts := s.parts.map (fun e => (e.1, { e.2 with save := { e.2.save with copies := e.2.save.copies.map g } })) }

def modCopy (s : State) (id : Nat) (g : Copy → Copy) : State := mapCopies s (fun c => if c.id = id then g c else c)

/-- CCAN: the held writes of a CPYM are withdrawn. An MMS is not stopped. -/
def bodyCcan (x : Env) (s : State) : Verdict :=
  match mapGet? ((s.ctx? x.key).getD {}).pending (Opnd.ofCode x.f.a).index with
  | none => plain s
  | some id =>
    let s := modCopy s id (fun c => { c with cancel := true })
    plain { s with remote := s.remote.filter (fun w => !((w.copy.any (fun p => p.1 == id)) && w.refused.isSome)) }

def execCcan (f : Fields) (s : State) : Host.Outcome State Fault Refusal := issue 0x94 f (fieldsLen f) bodyCcan s

/-- WCUE. -/
def bodyWcue (x : Env) (s : State) : Verdict :=
  let i := bits x.f.b.toNat 4 1
  let n := opC s x 0 % 2 ^ 32
  let have_ := (mapGet (x.group s).cues i 0).toNat
  if n ≤ have_ then
    plain ((s.modGroup x.grp (fun gr => { gr with cues := mapPut gr.cues i (BitVec.ofNat 32 (have_ - n)) })).modCtx x.key
      (fun c => { c with cueWait := none }))
  else .parkIn .cue (s.modCtx x.key (fun c => { c with cueWait := some (i, n) }))

def execWcue (f : Fields) (s : State) : Host.Outcome State Fault Refusal := issue 0x95 f (fieldsLen f) bodyWcue s

/-! ## Starting (R256, R260) -/

/-- The core that a copy belongs to: of a chunk's copy, one whose copies go to its engine. -/
def copyCore (c : Copy) : Nat := match c.kind with
  | .fire _ i _ cluster => Config.coresPerCluster * cluster + i % 16
  | _ => coreOf c.group

/-- The engine of a copy within its cluster, with its cluster and its partition's context. -/
def engineOf (c : Copy) : Nat × Nat × Nat := (clusterOf (copyCore c), copyCore c % Config.coresPerCluster % 16, c.part)

/-- Is a copy's engine context without slots: its partition is switched out of the copy's core, or, of the copy of a chunk, descheduled (R256)? The
copies of a partition that has been killed complete all the same (R374). -/
def copyAway (s : State) (c : Copy) : Bool := match c.kind with
  | .fire _ _ _ _ => descheduled s c.part
  | _ => away s c.part (coreOf c.group) && !(s.group? c.group).any (·.scrub)

/-- Range locks of a copy released; the copy of a chunk has none. -/
def unlockCopy (s : State) (c : Copy) (kinds : List LockKind) : State := match c.kind with
  | .fire _ _ _ _ => s
  | _ => dropLocks s (coreOf c.group) c.id kinds

/-- Alignment and the spaces of the destination that an operation allows (R262, R263). -/
def copyAlign : CopyKind → Nat
  | .reduce 7 => 64
  | .reduce 8 => 1024
  | _ => 16

def copySpaces : CopyKind → List Space
  | .reduce 7 => [.C, .D, .G]
  | .reduce 8 => [.U, .C]
  | .reduce _ => [.U, .C, .D, .G]
  | _ => [.U, .C, .D, .G, .H]

/-- Does a range lie where R195 allows? -/
def rangeOk (s : State) (c : Copy) (p : Space) (a : Nat) : Bool :=
  match p with
  | .U => (uLoc s c.group a c.len).isSome
  | .P => (pLoc s c.group a c.len).isSome
  | .C => (cLoc s c.part (clusterOf (coreOf c.group)) a c.len).isSome
  | _ => decide (a + c.len ≤ 2 ^ 64)

/-- Do two ranges of one space overlap? -/
def overlap (a n b m : Nat) : Bool := n != 0 && m != 0 && decide (a < b + m) && decide (b < a + n)

/-- The checks of R260 on CPY and CPYR. -/
def copyOk (s : State) (c : Copy) : Bool :=
  let a := c.sBase.toNat
  let d := c.dBase.toNat
  let w := copyAlign c.kind
  let shares := rangeShares s c.part c.src a c.len ++ rangeShares s c.part c.dst d c.len
  !c.lenBad && (copySpaces c.kind).contains c.dst && (c.kind != .reduce 8 || [Space.U, .C].contains c.src) &&
    a % w == 0 && d % w == 0 && c.len % w == 0 && rangeOk s c c.src a && rangeOk s c c.dst d &&
    !(c.src == c.dst && overlap a c.len d c.len) && (shares.all id || shares.all (!·))

/-- The same on CPYT, over the records fetched. -/
def tileCopyOk (s : State) (c : Copy) (a b : Tile) : Bool :=
  let shares := rangeShares s c.part c.src a.base a.allBytes ++ rangeShares s c.part c.dst b.base b.allBytes
  tilesConvert a b && rangeOk s { c with len := a.allBytes } c.src a.base &&
    rangeOk s { c with len := b.allBytes } c.dst b.base &&
    !(c.src == c.dst && overlap a.base a.allBytes b.base b.allBytes) && (shares.all id || shares.all (!·))

/-- A destination of a CPYM from its list entry (R265); one that is not well formed, or names no peer, ends FAULT (log 17). -/
def mcastDest (s : State) (c : Copy) (ink : Bool) (e : List Byte) : McastDest :=
  let a := if ink then field e 0 8 else field e 0 4
  let dev := if ink then field e 8 1 else 0
  let ok := field e 9 3 == 0 && field e 14 2 == 0 &&
    (if ink then (peerPart s c.part dev).isSome else field e 4 4 == 0 && field e 8 1 == 0 && (pLoc s c.group a c.len).isSome)
  { addr := a, dev := dev, code := if ok then 0 else 1, stopped := !ok }

/-- The same on CPYM: its destinations are ordinary bytes, at peers too (R215, R350). -/
def mcastOk (s : State) (c : Copy) (ink : Bool) (ds : List McastDest) : Bool :=
  let a := c.sBase.toNat
  !c.lenBad && rangeOk s c c.src a && (rangeShares s c.part c.src a c.len).all (!·) &&
    (ink || c.src != .P || !ds.any (fun d => !d.stopped && overlap a c.len d.addr c.len))

/-- A copy held at a page that firmware must resolve (R260, R375). -/
def holdCopy (s : State) (c : Copy) (b : Bad) : State :=
  let q := sendFault s c.part (copyCore c) b.cause b.addr 4 none (some c.id)
  modCopy q.1 c.id (fun c => { c with stalled := some q.2 })

def faultCopy (s : State) (c : Copy) : State := modCopy s c.id (fun c => { c with started := true, fault := true })

def stopCopy (s : State) (c : Copy) : CopyStop → State
  | .hold b => holdCopy s c b
  | .fail => faultCopy s c

/-- May a copy take a place in its engine context? -/
def mayStart (s : State) (c : Copy) : Bool :=
  let same (d : Copy) : Bool := engineOf d == engineOf c
  !c.started && c.stalled.isNone && !copyAway s c &&
    decide ((s.copies.filter (fun d => same d && d.started)).length < 16) &&
    (s.copies.find? (fun d => same d && !d.started && d.stalled.isNone)).any (fun d => d.id == c.id)

/-- COPY_START. -/
def startCopy (s : State) (c : Copy) : State :=
  match c.kind with
  | .plain | .reduce _ => if copyOk s c then modCopy s c.id (fun c => { c with started := true }) else faultCopy s c
  | .fire _ _ dev _ => modCopy s c.id (fun c => { c with
      started := true, dests := if dev = s.link.dev then [] else [{ addr := c.dBase.toNat, dev := dev }] })
  | .tile _ _ =>
    if c.sBase.toNat % 32 ≠ 0 ∨ c.dBase.toNat % 32 ≠ 0 then faultCopy s c
    else match copyReach s c c.src c.sBase.toNat 32 .load, copyReach s c c.dst c.dBase.toNat 32 .load with
      | .error e, _ => stopCopy s c e
      | _, .error e => stopCopy s c e
      | .ok la, .ok lb =>
        let ra := readPlaces s la
        let rb := readPlaces s lb
        let poisoned := (la ++ lb).any (fun l => s.mem.anyPoison l.1 l.2)
        let t := unlockCopy s c [.record]
        if !poisoned && tileCopyOk s c (tileOf ra) (tileOf rb) then
          modCopy t c.id (fun c => { c with started := true, srcRec := ra, dstRec := rb })
        else faultCopy t c
  | .mcast ink n =>
    match if c.dBase.toNat % 16 = 0 then uLoc s c.group c.dBase.toNat (16 * n) else none with
    | none => faultCopy s c
    | some l =>
      let ds := (List.range n).map (fun i => mcastDest s c ink (readBytes s (l.plus (16 * i)) 16))
      if mcastOk s c ink ds then modCopy s c.id (fun c => { c with started := true, dests := ds })
      else faultCopy (modCopy s c.id (fun c => { c with dests := ds.map (fun d => { d with code := 1, stopped := true }) })) c

def execCopyStart (id : Nat) (s : State) : Host.Outcome State Fault Refusal :=
  match s.copies.find? (fun c => c.id == id) with
  | some c => if mayStart s c && !c.cancel then .next (startCopy s c) else .next s
  | none => .next s

/-! ## Beats (R256, R257) -/

/-- Units of 64 bytes that a range touches. -/
def beatCount (a n : Nat) : Nat := if n = 0 then 0 else (a + n - 1) / 64 + 1 - a / 64

/-- The beats of a copy, each by its destination and its aligned unit of 64 bytes, counted from the destination's first: a CPYM takes the
units of its destinations in turn. -/
def Copy.plan (c : Copy) : List (Nat × Nat) :=
  match c.kind with
  | .plain | .reduce _ | .fire _ _ _ _ => (List.range (beatCount c.dBase.toNat c.len)).map (fun b => (0, b))
  | .tile _ _ => (tileOf c.dstRec).units.map (fun b => (0, b))
  | .mcast _ _ =>
    (List.range (c.dests.foldl (fun m d => max m (beatCount d.addr c.len)) 0)).flatMap (fun b =>
      (c.dests.mapIdx (fun i d => (i, d))).filterMap (fun e => if b < beatCount e.2.addr c.len then some (e.1, b) else none))

/-- Beats of a copy; a tile copy ends with the update of its destination record. -/
def Copy.beats (c : Copy) : Nat := match c.kind with
  | .tile _ _ => c.plan.length + 1
  | _ => c.plan.length

/-- The next beat of a copy, those of a destination that has ended left out. -/
def Copy.next (c : Copy) : Option Nat :=
  (upTo c.beat (c.beats - c.beat)).find? (fun k => match c.plan[k]? with
    | some e => !(c.dests[e.1]?).elim false (·.stopped)
    | none => true)

/-- The unit of a beat. -/
def Copy.unit (c : Copy) (k : Nat) : Nat := ((c.plan[k]?).getD (0, 0)).2

/-- The mark of the lines that a beat wrote (R259, R393): set where poison was read; cleared once the copy has written a
whole line without. -/
def markBeat (s : State) (ls : List (Loc × Nat)) (bad : Bool) (whole : Bool) : State :=
  ls.foldl (fun s l =>
    if bad then { s with mem := s.mem.setPoison l.1.home l.1.line true }
    else if whole then { s with mem := s.mem.setPoison l.1.home l.1.line false } else s) s

/-- Presence of the lines of a U destination that bytes lo to hi complete; last is where the destination ends. -/
def landLines (s : State) (p : Space) (ls : List (Loc × Nat)) (hi last : Nat) : State :=
  if p = .U ∧ (hi % 128 = 0 ∨ hi = last) then ls.foldl (fun s l => s.setPresent l.1.line true) s else s

/-- Beat b of CPY and CPYR writes its bytes. from_ and to are the destination range of all of it. -/
def writeBeat (s : State) (c : Copy) (ls : List (Loc × Nat)) (bs : List Byte) (bad : Bool) (lo hi : Nat) : State :=
  let d := c.dBase.toNat
  let covers := decide (d ≤ lo / 128 * 128) && decide (lo / 128 * 128 + 128 ≤ d + c.len) && hi % 128 == 0
  let s := markBeat (writePlaces s ls bs) ls bad (covers && !c.spoiled)
  landLines s c.dst ls hi (d + c.len)

/-- A float element combined by an operation of R263. -/
def reduceF32 (op d s : Nat) : Nat :=
  let x := unpack .f32 d
  let y := unpack .f32 s
  if op = 0 then (finish .f32 .rne false false (sumN .rne [x, y])).1
  else (finish .f32 .rne false false (pickN (op == 4) x y)).1

/-- Elements of a beat combined (R263): bytes of d and of s, of equal length. -/
def reduceBytes (op : Nat) (d s : List Byte) : List Byte :=
  let split (w : Nat) (bs : List Byte) : List Nat := (List.range (bs.length / w)).map (fun i => field bs (w * i) w)
  let each (w : Nat) (g : Nat → Nat → Nat) : List Byte :=
    ((split w d).zip (split w s)).flatMap (fun p => natBytes w (g p.1 p.2))
  match op with
  | 1 => each 2 (fun a b =>
      let z := finish .f32 .rne false false (sumN .rne [unpack .bf16 a, unpack .bf16 b])
      (cvtFloat .f32 .bf16 .rne false 2 z.1).1)
  | 2 => each 4 (fun a b => (a + b) % 2 ^ 32)
  | 5 => each 4 (fun a b => if sext 32 b < sext 32 a then b else a)
  | 6 => each 4 (fun a b => if sext 32 a < sext 32 b then b else a)
  | 7 => each 64 (fun a b => (a % 2 ^ 448 + b % 2 ^ 448) % 2 ^ 448 + 2 ^ 448 * (a / 2 ^ 448 ||| b / 2 ^ 448 % 8))
  | op => each 4 (reduceF32 op)

/-- Are the pages of the bytes that a beat reads and writes all share pages, or all ordinary ones (R215)? -/
def beatShares (s : State) (c : Copy) (a lo n : Nat) : Bool :=
  let zs := rangeShares s c.part c.src a n ++ rangeShares s c.part c.dst lo n
  zs.all id || zs.all (!·)

/-- Does a copy bring a contribution to a chunk that has been folded on this device: it is discarded (R360)? -/
def tooLate (s : State) (c : Copy) : Bool := match c.kind with
  | .fire l i _ _ => s.chunks.any (fun k => k.launch == l && k.chunk == i && k.folded)
  | _ => false

/-- A beat of CPY or CPYR. Records are merged whole, each with the last of its units (R263). -/
def plainBeat (s : State) (c : Copy) (op : Option Nat) : State :=
  let d := c.dBase.toNat
  let (lo, hi) := beatSpan 64 d c.len c.beat
  let lo := if op = some 8 then hi - 1024 else lo
  let a := c.sBase.toNat + (lo - d)
  if op = some 8 ∧ (hi - d) % 1024 ≠ 0 then modCopy s c.id (fun c => { c with beat := c.beat + 1 })
  else match copyReach s c c.src a (hi - lo) .load, copyReach s c c.dst lo (hi - lo) (if op.isSome then .atomic else .store) with
  | .error e, _ => stopCopy s c e
  | _, .error e => stopCopy s c e
  | .ok la, .ok lb =>
    if !beatShares s c a lo (hi - lo) then faultCopy s c
    else
      let x := readPlaces s la
      let y := readPlaces s lb
      let bad := (la ++ (if op.isSome then lb else [])).any (fun l => s.mem.anyPoison l.1 l.2)
      let done (s : State) (bs : List Byte) (n : Nat) : State :=
        let t := if tooLate s c then s else writeBeat { s with fresh := n } c lb bs bad lo hi
        let t := modCopy t c.id (fun c => { c with
          beat := c.beat + 1, bytes := c.bytes + (hi - lo), poisoned := c.poisoned || bad
          spoiled := if hi % 128 = 0 then false else bad })
        if c.beat + 1 = c.beats then unlockCopy t c [.source] else t
      match op with
      | none => done s x s.fresh
      | some 8 =>
        if mergeable y x then
          let (r, n) := mergeRecords y x c.ent s.fresh
          done s r n
        else faultCopy s c
      | some op => done s (reduceBytes op y x) s.fresh

/-- The conversion that a tile copy makes, over source bytes as they stand. -/
def tileJob (s : State) (c : Copy) (rnd : Nat) (sat : Bool) : TileJob :=
  let a := tileOf c.srcRec
  { src := a, dst := tileOf c.dstRec, rnd := Rnd.ofCode rnd, sat := sat, nbv := (s.group? c.group).elim 2 (·.nbv)
    rd := fun o => match copyPlace s c.group c.part c.src (a.base + o) 1 .load with
      | .ok l => (readByte s l).toNat
      | .error _ => 0 }

/-- The places of single bytes, or the first stop. -/
def bytePlaces (s : State) (c : Copy) (p : Space) (base : Nat) (acc : Acc) : List Nat → Except CopyStop (List (Nat × Loc))
  | [] => .ok []
  | o :: os => match copyPlace s c.group c.part p (base + o) 1 acc, bytePlaces s c p base acc os with
    | .error e, _ => .error e
    | _, .error e => .error e
    | .ok l, .ok r => .ok ((o, l) :: r)

/-- Does unit number k of a tile copy's plan complete a U line: no later unit lies in it? -/
def lastOfLine (c : Copy) (base k : Nat) : Bool :=
  (c.plan.drop (k + 1)).all (fun e => (base / 64 + e.2) / 2 != (base / 64 + c.unit k) / 2)

/-- A data beat of CPYT: the bytes of the destination tile in one aligned unit. -/
def tileBeat (s : State) (c : Copy) (rnd : Nat) (sat : Bool) : State :=
  let k := tileJob s c rnd sat
  let (lo, hi) := beatSpan 64 k.dst.base k.dst.allBytes (c.unit c.beat)
  let ps := k.patches.filter (fun p => decide (lo ≤ k.dst.base + p.off) && decide (k.dst.base + p.off < hi))
  let offs := (ps.map (·.off)).eraseDups
  match bytePlaces s c c.src k.src.base .load (ps.flatMap (·.needs)).eraseDups, bytePlaces s c c.dst k.dst.base .store offs with
  | .error e, _ => stopCopy s c e
  | _, .error e => stopCopy s c e
  | .ok la, .ok lb =>
    if la.any (fun a => pageShare s c.part c.src (k.src.base + a.1) != pageShare s c.part c.dst lo) then faultCopy s c
    else
      let bad := la.any (fun l => s.mem.anyPoison l.2 1)
      let t := lb.foldl (fun t l =>
        writeBytes t l.2 [BitVec.ofNat 8 (patched (readByte s l.2).toNat (ps.filter (fun p => p.off == l.1)))]) s
      let line := (k.dst.base / 64 + c.unit c.beat) / 2
      let covers := ((k.patches.filter (fun p => (k.dst.base + p.off) / 128 == line)).map (·.off)).eraseDups.length == 128
      let t := markBeat t (lb.map (fun l => (l.2, 1))) bad (covers && lastOfLine c k.dst.base c.beat && !c.dirty.contains (0, line))
      let t := if lastOfLine c k.dst.base c.beat then (destLines t c.group c.dst lo (hi - lo)).foldl (fun t i => t.setPresent i true) t else t
      let t := modCopy t c.id (fun c => { c with
        beat := c.beat + 1, bytes := c.bytes + lb.length, poisoned := c.poisoned || bad
        dirty := if bad then (0, line) :: c.dirty else c.dirty })
      if c.beat + 2 = c.beats then unlockCopy t c [.source] else t

/-- The last beat of CPYT: the destination record's GEN (R264). -/
def genBeat (s : State) (c : Copy) : State :=
  match copyReach s c c.dst (c.dBase.toNat + 20) 4 .atomic with
  | .error e => stopCopy s c e
  | .ok ls =>
    let old := bytesNat (readPlaces s ls)
    let t := writePlaces s ls (natBytes 4 (retagged old (some (BitVec.ofNat 16 old))))
    modCopy t c.id (fun c => { c with beat := c.beat + 1 })

/-- What a unit of a destination receives: a stop of the source, or an address, its data and the mark. -/
def mcastData (s : State) (c : Copy) (d : McastDest) (unit : Nat) : Except CopyStop (Nat × List Byte × Bool) :=
  let (lo, hi) := beatSpan 64 d.addr c.len unit
  let a := c.sBase.toNat + (lo - d.addr)
  match copyReach s c c.src a (hi - lo) .load with
  | .error e => .error e
  | .ok ls =>
    if (rangeShares s c.part c.src a (hi - lo)).any id then .error .fail
    else .ok (lo, readPlaces s ls, ls.any (fun l => s.mem.anyPoison l.1 l.2))

def modDest (s : State) (id i : Nat) (g : McastDest → McastDest) : State :=
  modCopy s id (fun c => { c with dests := c.dests.mapIdx (fun j d => if j = i then g d else d) })

/-- A beat sent to one destination. -/
def mcastSend (s : State) (c : Copy) (ink : Bool) (i : Nat) (d : McastDest) (lo : Nat) (bs : List Byte) (bad : Bool) : State :=
  if ink then
    let whole := decide (d.addr ≤ lo / 128 * 128) && decide (lo / 128 * 128 + 128 ≤ d.addr + c.len)
    let q := sendFlit s c.part d.dev (.beat lo bs (if whole then some c.id else none)) bad
    q.1.modLink (fun k => { k with copyOf := k.copyOf ++ [(q.2, c.id, i)] })
  else match pLoc s c.group lo bs.length with
    | none => modDest s c.id i (fun d => { d with code := 1, stopped := true })
    | some l =>
      let w : RemoteWrite :=
        { id := s.nextId, part := c.part, core := coreOfLine l.line, addr := l.addr, data := bs, copy := some (c.id, i)
          spoiled := bad }
      { s with nextId := s.nextId + 1, remote := s.remote ++ [w] }

/-- A beat of CPYM, or of a chunk's copy to another device. -/
def mcastBeat (s : State) (c : Copy) (ink : Bool) : State :=
  match c.next with
  | none => s
  | some k => match c.plan[k]?.bind (fun e => (c.dests[e.1]?).map (fun d => (e.1, d, e.2))) with
    | none => s
    | some (i, d, unit) => match mcastData s c d unit with
      | .error e => stopCopy s c e
      | .ok (lo, bs, bad) =>
        modCopy (mcastSend s c ink i d lo bs bad) c.id (fun c => { c with beat := k + 1, poisoned := c.poisoned || bad })

/-- Can a copy take a beat? -/
def mayBeat (s : State) (c : Copy) : Bool :=
  c.started && !c.fault && !c.cancel && c.stalled.isNone && !copyAway s c && c.next.isSome

/-! ### Beat slots (R256) -/

/-- Beat slots of an engine in a cycle. -/
def beatSlots : Nat := 4

def engineKey (c : Copy) : Nat := 16 * (engineOf c).1 + (engineOf c).2.1

/-- The contexts of a copy's engine that have a ready beat, by partition. -/
def readyContexts (s : State) (c : Copy) : List Nat :=
  (List.range 8).filter (fun p => s.copies.any (fun d => engineKey d == engineKey c && d.part == p && mayBeat s d))

def contextWeight (s : State) (p : Nat) : Nat := (s.part? p).elim 1 (·.engWeight)

/-- The context that takes the next slot: one that is due, the longest-waiting first, else by weighted round-robin. -/
def slotContext (s : State) (e : Engine) (ps : List Nat) : Option Nat :=
  let wait (p : Nat) : Nat := mapGet e.waits p 0
  match ps.filter (fun p => decide (16 ≤ wait p)) with
  | d :: ds => some (ds.foldl (fun b p => if wait b < wait p then p else b) d)
  | [] => (ps.find? (fun p => decide (mapGet e.used p 0 < contextWeight s p))).or ps.head?

/-- The copy of a context whose turn it is. -/
def slotCopy (s : State) (e : Engine) (c : Copy) (p : Nat) : Option Nat :=
  let ids := (s.copies.filter (fun d => engineKey d == engineKey c && d.part == p && mayBeat s d)).map (·.id)
  (ids.find? (fun i => decide (mapGet e.last p 0 < i))).or ids.head?

/-- Does the engine have a slot for a copy's beat now? -/
def slotGranted (s : State) (c : Copy) : Bool :=
  let e := mapGet s.engines (engineKey c) {}
  (e.cycle != s.cycle + 1 || decide (e.slots < beatSlots)) && slotContext s e (readyContexts s c) == some c.part &&
    slotCopy s e c c.part == some c.id

/-- The engine after a slot given to a copy; a round that every ready context has used up begins again. -/
def takeSlot (s : State) (c : Copy) : State :=
  let e : Engine := mapGet s.engines (engineKey c) {}
  let ps := readyContexts s c
  let used := mapPut e.used c.part (mapGet e.used c.part 0 + 1)
  let e' : Engine :=
    { cycle := s.cycle + 1, slots := if e.cycle = s.cycle + 1 then e.slots + 1 else 1
      used := if ps.all (fun p => decide (contextWeight s p ≤ mapGet used p 0)) then [] else used
      waits := (List.range 8).foldl (fun m p =>
        mapSet m 0 p (if ps.contains p && p != c.part then mapGet e.waits p 0 + 1 else 0)) e.waits
      last := mapPut e.last c.part c.id }
  { s with engines := mapPut s.engines (engineKey c) e' }

def copyBeat (s : State) (c : Copy) : State :=
  match c.kind with
  | .plain => plainBeat s c none
  | .fire _ _ dev _ => if dev = s.link.dev then plainBeat s c none else mcastBeat s c true
  | .reduce op => plainBeat s c (some op)
  | .tile rnd sat => if c.beat + 1 = c.beats then genBeat s c else tileBeat s c rnd sat
  | .mcast ink _ => mcastBeat s c ink

/-- COPY_BEAT. -/
def execCopyBeat (id : Nat) (s : State) : Host.Outcome State Fault Refusal :=
  match s.copies.find? (fun c => c.id == id) with
  | some c => if mayBeat s c && slotGranted s c then .next (copyBeat (takeSlot s c) c) else .next s
  | none => .next s

/-! ## Completion (R258, R259, R261) -/

/-- Writes of a CPYM that its destinations have not acknowledged. -/
def outstanding (s : State) (id : Nat) : Bool :=
  s.remote.any (fun w => w.copy.any (fun p => p.1 == id)) || s.link.copyOf.any (fun e => e.2.1 == id)

/-- The outcome of a destination. -/
def destCode (c : Copy) (d : McastDest) : Nat :=
  if d.code = 1 ∨ (c.fault ∧ d.landed < c.len) then 1 else if c.cancel ∧ d.landed < c.len then 3 else if d.code ≠ 0 then d.code else if c.poisoned then 4 else 0

/-- The first code in the order of R259. -/
def firstCode (codes : List Nat) : Nat := (([1, 3, 5, 2, 4]).find? (fun k => codes.contains k)).getD 0

def Copy.code (c : Copy) : Nat :=
  firstCode ((if c.fault then [1] else []) ++ (if c.cancel then [3] else []) ++ (if c.poisoned then [4] else []) ++ c.dests.map (destCode c))

/-- Is a copy over, but for its status? -/
def copyOver (s : State) (c : Copy) : Bool :=
  !copyAway s c && !outstanding s c.id &&
    (c.fault || c.cancel || (c.started && c.stalled.isNone && c.next.isNone))

/-- The codes of a CPYM's destinations; of one that ended before it started, each ends as the copy does. -/
def mcastCodes (c : Copy) (n : Nat) : List Nat :=
  if c.dests.isEmpty then List.replicate n (if c.fault then 1 else if c.cancel then 3 else 0) else c.dests.map (destCode c)

/-- The results of a CPYM in its list (R265), where there is one. -/
def writeDests (s : State) (c : Copy) (n : Nat) : State :=
  if c.dBase.toNat % 16 ≠ 0 then s
  else ((mcastCodes c n).mapIdx (fun i k => (i, k))).foldl (fun s p => match uLoc s c.group (c.dBase.toNat + 16 * p.1 + 12) 2 with
    | some l => writeNat s l 2 p.2
    | none => s) s

def completeCopy (s : State) (c : Copy) : State :=
  let s := match c.kind with
    | .mcast _ n => writeDests s c n
    | _ => s
  let bytes := match c.kind with
    | .mcast _ _ => c.dests.foldl (fun n d => n + d.landed) 0
    | _ => c.bytes
  let s := if c.poisoned then countUp s c.part 4 1 else s
  let s := { s with copies := s.copies.filter (fun k => k.id != c.id)
                    parts := s.parts.map (fun e => (e.1, { e.2 with faults := e.2.faults.filter (fun f => f.copy != some c.id) })) }
  statusDone (unlockCopy s c [.source, .dest, .record]) c.group c.kS c.id c.code bytes

/-! ## Remote writes (R201) -/

/-- Does a copy still owe bytes of a line to destination i, beyond the given write? -/
def moreOfLine (s : State) (w : RemoteWrite) : Bool :=
  match w.copy with
  | none => false
  | some (id, i) =>
    let other := s.remote.any (fun v => v.id != w.id && v.copy == w.copy && v.addr / 128 == w.addr / 128)
    let unsent := match s.copies.find? (fun c => c.id == id) with
      | some c => (match c.dests[i]? with
        | some d =>
          !d.stopped && !c.cancel && !c.fault && (c.plan.drop c.beat).any (fun e =>
            e.1 == i && (match pLoc s c.group ((beatSpan 64 d.addr c.len e.2).1) 1 with
              | some l => l.addr / 128 == w.addr / 128
              | none => false))
        | none => false)
      | none => false
    other || unsent

/-- A remote write is over: it has landed or been dropped, and the sender's store queue goes on. -/
def endRemote (s : State) (w : RemoteWrite) : State :=
  let s := remoteOver { s with remote := s.remote.filter (fun v => v.id != w.id) } w
  match w.sender with
  | some (.stroke k) => killFinish (retireStroke s k) k
  | _ => s

/-- Does a remote write complete a line that its copy has written whole and without poison (R393)? -/
def cleans (s : State) (w : RemoteWrite) : Bool :=
  let line := w.addr / 128
  !w.spoiled && !moreOfLine s w && (match w.copy with
    | some (id, i) => s.copies.any (fun c => c.id == id && !c.dirty.contains (i, line) && (c.dests[i]?).any (fun d =>
        (pLoc s c.group d.addr 1).any (fun l => decide (l.addr ≤ 128 * line) && decide (128 * line + 128 ≤ l.addr + c.len))))
    | none => false)

/-- A remote write lands: its bytes, its mark, the line's presence bit, and its acknowledgement. -/
def landRemote (s : State) (w : RemoteWrite) : State :=
  let l : Loc := { home := .u, addr := w.addr }
  let s := w.more.foldl (fun s p => writeBytes s { home := .u, addr := p.1 } p.2) (writeBytes s l w.data)
  let s := if w.spoiled then { s with mem := s.mem.setPoison .u l.line true }
    else if cleans s w then { s with mem := s.mem.setPoison .u l.line false } else s
  let s := if moreOfLine s w then s else s.setPresent l.line true
  let s := match w.copy with
    | some (id, i) => modCopy (modDest s id i (fun d => { d with landed := d.landed + w.data.length })) id (fun c =>
        if w.spoiled then { c with dirty := (i, l.line) :: c.dirty } else c)
    | none => s
  endRemote s w

/-- Is the line of a remote write armed? -/
def armed (s : State) (w : RemoteWrite) : Bool := !s.present (w.addr / 128)

/-- Has CCAN stopped the copy of a remote write? Its held writes are withdrawn (R267). -/
def withdrawn (s : State) (w : RemoteWrite) : Bool :=
  w.copy.any (fun p => s.copies.any (fun c => c.id == p.1 && c.cancel))

/-- REMOTE_WRITE_ARRIVAL: it lands on an armed line, and is refused by a present one. One of a partition that is switched out of
the core waits. -/
def execRemoteWriteArrival (id : Nat) (s : State) : Host.Outcome State Fault Refusal :=
  match s.remote.find? (fun w => w.id == id) with
  | some w =>
    if w.refused.isSome || gone s w.part w.core then .next s
    else if armed s w then .next (landRemote s w)
    else if withdrawn s w then .next { s with remote := s.remote.filter (fun v => v.id != id) }
    else .next { s with remote := s.remote.filter (fun v => v.id != id) ++ [{ w with refused := some s.ns }] }
  | none => .next s

/-- ARMING_NOTIFICATION: the held writes to an armed line land in the order in which they were first refused. Those of a partition that is
switched out of the core land once it runs there again; a line that is present again by then takes none. -/
def execArmingNotification (core line : Nat) (s : State) : Host.Outcome State Fault Refusal :=
  let held := s.remote.filter (fun w => w.refused.isSome && w.addr / 128 == line && w.core == core)
  if s.armings.contains line && coreOfLine line == core then
    let t := if s.present line then s else (held.filter (fun w => !gone s w.part w.core)).foldl landRemote s
    let stays := !s.present line && held.any (fun w => gone s w.part w.core)
    .next (if stays then t else { t with armings := t.armings.filter (· != line) })
  else .next s

/-- A FIFO drained as far as it can be: what it has sent to another core lands there too if the line is armed, and is held if it is present. n are
the writes to other cores that it can hold. -/
def settleFifo : Nat → State → AgentId → State
  | 0, s, a => drainFifo s a
  | n + 1, s, a =>
    let s := drainFifo s a
    match s.remote.find? (fun w => w.sender == some a) with
    | none => s
    | some w =>
      if gone s w.part w.core then s
      else if armed s w then settleFifo n (landRemote s w) a
      else if w.refused.isSome then s
      else { s with remote := s.remote.map (fun v => if v.id = w.id then { v with refused := some s.ns } else v) }

/-- HOLD_TIMEOUT: a held write is dropped; of a CPYM, with the rest of its destination. -/
def execHoldTimeout (id : Nat) (s : State) : Host.Outcome State Fault Refusal :=
  match s.remote.find? (fun w => w.id == id) with
  | some w => match w.refused, s.part? w.part with
    | some t, some p =>
      if t + p.hold_ns ≤ s.ns then
        match w.copy with
        | none => .next (endRemote (countUp s w.part 5 1) w)
        | some (c, i) =>
          let s := modDest s c i (fun d => { d with code := 2, stopped := true })
          .next { s with remote := s.remote.filter (fun v => v.copy != w.copy) }
      else .next s
    | _, _ => .next s
  | none => .next s

end Sys2Proof.Machine
end

