-- ==== Sys2Proof/Machine/Collectives.lean ====
section
/-!
DEFINITION. Attached collectives (R25, R34, R355 to R361): the chunks of a launch, their firing, the fold at the home, its
multicast, timeouts, and the events COPY_COMPLETE, CHUNK_FIRE, CHUNK_FOLD, CHUNK_TIMEOUT, MEMBER_TIMEOUT and CHUNK_RESULT_LAND.
-/
namespace Sys2Proof.Machine

/-! ## Descriptors and maps -/

/-- The parsed descriptor of CDESC with CMAP and the tile records of CBIND (R355, R356). -/
def collOf (desc devs : List Byte) (cmap : Nat) (tiles : List (List Byte)) : Coll :=
  let n := field desc 8 2
  { op := field desc 4 1, rank := field desc 6 2, nmem := n, timeout := field desc 12 4, slot := field desc 16 8
    stage := field desc 24 8, cstat := field desc 32 8, slotBytes := field desc 40 4, cid := field desc 48 8
    devs := (List.range n).map (fun r => field devs (2 * r) 1), shift := bits cmap 7 0, chunks := bits cmap 23 8, tiles := tiles }

/-- Does a descriptor keep R355? -/
def descOk (desc devs : List Byte) : Bool :=
  field desc 0 4 == 0x43594341 && decide (field desc 4 1 ≤ 8) && field desc 5 1 == 0 &&
    decide (field desc 6 2 < field desc 8 2) && decide (1 ≤ field desc 8 2) && decide (field desc 8 2 ≤ 256) &&
    field desc 10 2 == 0 && field desc 32 8 % 64 == 0 && field desc 40 4 % 1024 == 0 && field desc 44 4 == 0 &&
    field desc 56 8 == 0 && (List.range (field desc 8 2)).all (fun r => field devs (2 * r + 1) 1 == 0)

/-- The bytes of a tile's chunk data (R356). -/
def tileBytes (r : List Byte) : Nat := (tileOf r).rows * (tileOf r).stride

/-- Does a tile record serve an operation (R356)? -/
def tileServes (op slotBytes : Nat) (r : List Byte) : Bool :=
  let t := tileOf r
  let align := if op = 7 then 64 else if op = 8 then 1024 else 16
  let fmt := match op with
    | 0 | 3 | 4 => t.ty == .f32
    | 1 => t.ty == .bf16
    | 2 | 5 | 6 => t.ty == .i32
    | _ => true
  !t.malformed && t.layout == 0 && t.sparse == 0 && fmt && decide (tileBytes r ≤ slotBytes) && tileBytes r % align == 0 &&
    t.base % align == 0

/-- The chunk of a linear group number (R25). -/
def chunkOf (l : Launch) (c : Coll) (lin : Nat) : Nat := ((lin % (l.dims.gx * l.dims.gy)) >>> c.shift) % c.chunks

/-- Groups of a launch. -/
def Launch.total (l : Launch) : Nat := l.dims.gx * l.dims.gy * l.dims.gz

/-- Has every group that maps to a chunk exited; for a chunk without groups, every group of the launch? -/
def chunkReady (l : Launch) (c : Coll) (i : Nat) : Bool :=
  let mine := (List.range l.total).filter (fun n => chunkOf l c n == i)
  if mine.isEmpty then decide (l.left.length = l.total) else mine.all (fun n => l.left.any (fun e => e.1 == n))

/-- The cluster on which the last of a chunk's groups ran (R357). -/
def lastCluster (l : Launch) (c : Coll) (i : Nat) : Nat :=
  let mine := l.left.filter (fun e => chunkOf l c e.1 == i)
  (((if mine.isEmpty then l.left else mine).getLast?).getD (0, 0)).2

/-- The home rank of a chunk, and the address of a slot (R357). -/
def homeRank (c : Coll) (i : Nat) : Nat := i % c.nmem
def slotAddr (c : Coll) (i r : Nat) : Nat := c.stage + (i / c.nmem * c.nmem + r) * c.slotBytes

/-! ## Chunks -/

def findChunk (s : State) (id i : Nat) : Option Chunk := s.chunks.find? (fun k => k.launch == id && k.chunk == i)

def modChunk (s : State) (id i : Nat) (g : Chunk → Chunk) : State :=
  { s with chunks := s.chunks.map (fun k => if k.launch = id ∧ k.chunk = i then g k else k) }

/-- Bytes of G written for a launch, or the stage-2 fault that holds the write. A write that cannot be made for good is
not made. -/
def putG (s : State) (l : Launch) (va : Nat) (bs : List Byte) : Except Bad State :=
  match hubReach s l.part l.ended va bs.length .store [0] with
  | .ok ls => .ok (writePlaces s ls bs)
  | .error .gone => .ok s
  | .error (.hold b) => .error b

/-- A chunk record (R359). -/
def chunkRecord (code late whence missing : Nat) : List Byte :=
  natBytes 4 code ++ natBytes 4 late ++ natBytes 8 whence ++ natBytes 16 0 ++ natBytes 32 missing

/-- Where the record of a chunk lies. -/
def recordVa (c : Coll) (i : Nat) : Nat := c.cstat + 64 * i

/-- A contribution in a slot of a chunk at its home; after the fold it is discarded and counted (R360): was it late? -/
def fill (s : State) (k : Chunk) (l : Launch) (c : Coll) (r : Nat) (data : List Byte) : State × Bool :=
  if k.folded then
    let n := min (k.late + 1) (2 ^ 32 - 1)
    let s := modChunk s k.launch k.chunk (fun k => { k with late := n })
    if k.result = 0 then (s, true)
    else match putG s l (recordVa c k.chunk + 4) (natBytes 4 n) with
      | .ok s => (s, true)
      | .error _ => (s, true)
  else
    (modChunk s k.launch k.chunk (fun k => { k with
      filled := k.filled ++ [(r, field data 0 8, field data 16 8)], firstAt := if k.filled.isEmpty then s.ns else k.firstAt }), false)

/-- The chunk and the rank whose slot an address is, for a partition and a collective. -/
def slotOwner (s : State) (part va cid : Nat) : Option (Chunk × Launch × Coll × Nat) :=
  s.chunks.findSome? (fun k => match s.launch? k.launch with
    | some l => match l.coll with
      | some c =>
        if l.part = part ∧ c.cid = cid ∧ homeRank c k.chunk = c.rank then
          ((List.range c.nmem).find? (fun r => slotAddr c k.chunk r == va)).map (fun r => (k, l, c, r))
        else none
      | none => none
    | none => none)

/-- A contribution announced to the home: bytes of data, collective, and the first group's time. One that comes before the home's own launch
is kept. -/
def announce (s : State) (part va : Nat) (data : List Byte) : State × Bool :=
  match slotOwner s part va (field data 8 8) with
  | some (k, l, c, r) => fill s k l c r data
  | none => (s.modLink (fun n => { n with early := n.early ++ [(part, va, data)] }), false)

/-- Do bytes at an address belong to the slot of a member whose chunk has been folded here (R360)? -/
def lateSlot (s : State) (part src va : Nat) : Bool :=
  s.chunks.any (fun k => k.folded && (s.launch? k.launch).any (fun l => l.part == part && l.coll.any (fun c =>
    homeRank c k.chunk == c.rank && (List.range c.nmem).any (fun r => (c.devs[r]?).getD 0 == src &&
      decide (slotAddr c k.chunk r ≤ va) && decide (va < slotAddr c k.chunk r + c.slotBytes)))))

/-- The chunks of a launch made, with its records zero (R356), and early contributions taken in. -/
def makeChunks (s : State) (l : Launch) (c : Coll) : Except Bad State :=
  match (List.range c.chunks).foldl (fun (e : Except Bad State) i => match e with
      | .ok s => putG s l (recordVa c i) (List.replicate 64 0)
      | .error b => .error b) (Except.ok s) with
  | .error b => .error b
  | .ok s =>
    let new : List Chunk := (List.range c.chunks).map (fun i => { launch := l.id, chunk := i })
    let s : State := { s with chunks := s.chunks ++ new }
    let early := s.link.early
    .ok (early.foldl (fun s e => (announce s e.1 e.2.1 e.2.2).1) (s.modLink (fun n => { n with early := [] })))

/-! ## Firing (R357) -/

/-- The control flit that announces a contribution. -/
def contribution (l : Launch) (c : Coll) (n : Nat) : List Byte :=
  natBytes 8 n ++ natBytes 8 c.cid ++ natBytes 8 (l.firstNs.getD 0)

/-- A chunk's result sent to another member as copy beats of 64 bytes (R358). -/
def sendTile (s : State) (part dev va : Nat) (bs : List Byte) (bad : Bool) : State :=
  (List.range ((bs.length + 63) / 64)).foldl (fun s i =>
    (sendFlit s part dev (.tile va (64 * i) ((bs.drop (64 * i)).take 64)) bad).1) s

/-- Bytes of G that a copy writes for a launch, with their mark; see putG. -/
def putTile (s : State) (l : Launch) (va : Nat) (bs : List Byte) (bad : Bool) : Except Bad State :=
  match hubReach s l.part l.ended va bs.length .store [0] with
  | .ok ls => .ok (writeMarked (if bad then s else clearWhole s ls) ls bs bad)
  | .error .gone => .ok s
  | .error (.hold b) => .error b

/-- The home's result lands in its own tile once its chunk has fired, then its record is written (R358, R359). -/
def landHome (s : State) (l : Launch) (c : Coll) (i : Nat) : State :=
  match findChunk s l.id i with
  | some k =>
    if k.fired && k.folded && k.result == 0 then
      let code := if k.missing = 0 then 1 else 2
      match putTile s l (tileOf ((c.tiles[i]?).getD [])).base k.image k.bad with
      | .error b => launchFault s l b
      | .ok t => match putG t l (recordVa c i) (chunkRecord code k.late s.ns k.missing) with
        | .error b => launchFault s l b
        | .ok t => modChunk t l.id i (fun k => { k with result := code, image := [] })
    else s
  | none => s

/-- A chunk fires: copy engine number chunk mod 16 of the cluster on which its last group ran copies its tile to its slot at the home. -/
def fireChunk (s : State) (l : Launch) (c : Coll) (i : Nat) : State :=
  let r := (c.tiles[i]?).getD []
  let k : Copy :=
    { id := s.nextId, group := 2 ^ 20, part := l.part
      kind := .fire l.id i ((c.devs[homeRank c i]?).getD 0) (lastCluster l c i), kS := 0, dSpace := 4, sSpace := 4
      dBase := BitVec.ofNat 64 (slotAddr c i c.rank), sBase := BitVec.ofNat 64 (tileOf r).base, len := tileBytes r, lenBad := false
      ent := false }
  modChunk { s with nextId := s.nextId + 1, copies := s.copies ++ [k] } l.id i (fun k => { k with fired := true, firedAt := s.ns })

/-- The launch, its collective and its chunk. -/
def chunkState (s : State) (id i : Nat) : Option (Launch × Coll × Chunk) :=
  match s.launch? id, findChunk s id i with
  | some l, some k => l.coll.map (fun c => (l, c, k))
  | _, _ => none

/-- The copy of a chunk is over: it announces its contribution at the home, behind its beats, and then completes; one that came after the
fold completes with LATE (R259, R360). -/
def completeFiring (s : State) (c : Copy) (launch chunk dev : Nat) : State :=
  let finish (s : State) (c : Copy) : State :=
    let t := { s with copies := s.copies.filter (fun k => k.id != c.id) }
    modChunk (if c.poisoned then countUp t c.part 4 1 else t) launch chunk (fun k => { k with copied := some c.code })
  match chunkState s launch chunk with
  | none => finish s c
  | some (l, d, _) =>
    let word := contribution l d c.len
    if c.code = 1 ∨ c.told then finish s c
    else if dev = s.link.dev then
      let q := announce s c.part c.dBase.toNat word
      landHome (finish q.1 { c with dests := if q.2 then [{ addr := 0, dev := dev, code := 5, landed := c.len }] else [] }) l d chunk
    else
      let q := sendFlit s c.part dev (.control c.dBase.toNat word)
      (modCopy q.1 c.id (fun c => { c with told := true })).modLink (fun k => { k with copyOf := k.copyOf ++ [(q.2, c.id, 0)] })

/-- COPY_COMPLETE. -/
def execCopyComplete (id : Nat) (s : State) : Host.Outcome State Fault Refusal :=
  match s.copies.find? (fun c => c.id == id) with
  | some c =>
    if copyOver s c then
      .next (match c.kind with
        | .fire l i dev _ => completeFiring s c l i dev
        | _ => completeCopy s c)
    else .next s
  | none => .next s

/-- CHUNK_FIRE. -/
def execChunkFire (launch chunk : Nat) (s : State) : Host.Outcome State Fault Refusal :=
  match chunkState s launch chunk with
  | some (l, c, k) =>
    if !k.fired && chunkReady l c chunk && !descheduled s l.part then .next (fireChunk s l c chunk)
    else if k.fired && k.folded && k.result == 0 && homeRank c chunk == c.rank then .next (landHome s l c chunk)
    else .next s
  | none => .next s

/-! ## The fold (R358) -/

/-- Operation op over chunk data: d, then s. -/
def foldData (op : Nat) (ent : Nat) (d s : List Byte) : List Byte × Nat :=
  if op = 8 then
    (List.range (d.length / 1024)).foldl (fun r i =>
      let a := (d.drop (1024 * i)).take 1024
      let b := (s.drop (1024 * i)).take 1024
      if mergeable a b then
        let m := mergeRecords a b false r.2
        (r.1 ++ m.1, m.2)
      else (r.1 ++ a, r.2)) ([], ent)
  else (reduceBytes op d s, ent)

/-- The slots that the fold takes, by rank: those of the home's own length that can be read; each with whether it holds poison. -/
def foldSlots (s : State) (l : Launch) (c : Coll) (k : Chunk) : Except Bad (List (Nat × List Byte × Bool)) :=
  let n := tileBytes ((c.tiles[k.chunk]?).getD [])
  (List.range c.nmem).foldl (fun (e : Except Bad (List (Nat × List Byte × Bool))) r => match e with
    | .error b => .error b
    | .ok got =>
      if k.filled.any (fun f => f.1 == r && f.2.1 == n) then
        match hubReach s l.part l.ended (slotAddr c k.chunk r) n .load [0] with
        | .ok ls => .ok (got ++ [(r, readPlaces s ls, ls.any (fun l => s.mem.anyPoison l.1 l.2))])
        | .error .gone => .ok got
        | .error (.hold b) => .error b
      else .ok got) (.ok [])

/-- A timed group's spread (R34): the members' times came with the collective's first chunk. DESIGN CHOICE where the members differ in
TIMED: the flag of the home decides, and the times of untimed members count (log 28). -/
def skewed (l : Launch) (c : Coll) (k : Chunk) : Bool :=
  let ts := k.filled.map (fun f => f.2.2)
  l.timed && k.chunk == 0 && decide (c.slot < (ts.foldl max 0) - (ts.foldl min (ts.headD 0)))

/-- The control flit of a result, which follows its beats: code and MISSING, the SKEW flag. A contribution's is shorter. -/
def resultData (code missing : Nat) (skew : Bool) : List Byte := chunkRecord code 0 0 missing ++ natBytes 8 (if skew then 1 else 0)
def isResult (bs : List Byte) : Bool := decide (72 ≤ bs.length)

/-- The fold at the home, and its multicast to every other member. -/
def foldChunk (s : State) (l : Launch) (c : Coll) (k : Chunk) : State :=
  match foldSlots s l c k with
  | .error b => launchFault s l b
  | .ok ps =>
    let own := match hubReach s l.part l.ended (tileOf ((c.tiles[k.chunk]?).getD [])).base
        (tileBytes ((c.tiles[k.chunk]?).getD [])) .load [0] with
      | .ok ls => readPlaces s ls
      | .error _ => []
    let z : List Byte × Nat := match ps with
      | [] => (own, s.fresh)
      | p :: rest => rest.foldl (fun (a : List Byte × Nat) (q : Nat × List Byte × Bool) => foldData c.op a.2 a.1 q.2.1) (p.2.1, s.fresh)
    let bad := ps.any (·.2.2)
    let missing := (List.range c.nmem).foldl (fun m r => if ps.any (fun p => p.1 == r) then m else m + 2 ^ r) 0
    let code := if missing = 0 then 1 else 2
    let others := (List.range c.nmem).filter (· != c.rank)
    let skew := skewed l c k
    let s := { s with fresh := z.2 }.modLaunch l.id (fun l => { l with skew := l.skew || skew })
    let s := modChunk s l.id k.chunk (fun k => { k with
      folded := true, image := z.1, missing := missing, bad := bad, unacked := others.length * ((z.1.length + 63) / 64 + 1) })
    let s := others.foldl (fun s r =>
      let dev := (c.devs[r]?).getD 0
      (sendFlit (sendTile s l.part dev (recordVa c k.chunk) z.1 bad) l.part dev (.control (recordVa c k.chunk)
        (resultData code missing skew))).1) s
    landHome s l c k.chunk

/-- CHUNK_FOLD: every slot is filled. -/
def execChunkFold (launch chunk : Nat) (s : State) : Host.Outcome State Fault Refusal :=
  match chunkState s launch chunk with
  | some (l, c, k) =>
    if homeRank c chunk == c.rank && !k.folded && (List.range c.nmem).all (fun r => k.filled.any (fun f => f.1 == r)) then
      .next (foldChunk s l c k)
    else .next s
  | none => .next s

/-- CHUNK_TIMEOUT (R360). -/
def execChunkTimeout (launch chunk : Nat) (s : State) : Host.Outcome State Fault Refusal :=
  match chunkState s launch chunk with
  | some (l, c, k) =>
    if homeRank c chunk == c.rank && !k.folded && c.timeout != 0 && !k.filled.isEmpty &&
        decide (k.firstAt + 1000 * c.timeout ≤ s.ns) then .next (foldChunk s l c k)
    else .next s
  | none => .next s

/-! ## Members (R358, R360) -/

/-- Is a flit a beat of the result of a chunk for a launch's partition, or what follows them? -/
def resultFor (s : State) (l : Launch) (c : Coll) (i : Nat) (f : Flit) : Bool :=
  targetPart s f == some l.part && (match f.body with
    | .control va bs => isResult bs && va == recordVa c i
    | .tile va _ _ => va == recordVa c i
    | _ => false)

/-- Is it what ends a result? -/
def resultEnd (f : Flit) : Bool := match f.body with
  | .control _ _ => true
  | _ => false

/-- The data that the beats of a result hold, and whether any comes with poison. -/
def resultTile (fs : List Flit) : List Byte × Bool :=
  (fs.flatMap (fun f => match f.body with
    | .tile _ _ bs => bs
    | _ => []), fs.any (·.poison))

/-- Held results leave, acknowledged. -/
def dropHeld (s : State) (p : Flit → Bool) : State :=
  (s.link.held.filter p).foldl ackFlit (s.modLink (fun k => { k with held := k.held.filter (fun f => !p f) }))

/-- MEMBER_TIMEOUT: no result has been received in time; one that has been, and waits to land, is. -/
def execMemberTimeout (launch chunk : Nat) (s : State) : Host.Outcome State Fault Refusal :=
  match chunkState s launch chunk with
  | some (l, c, k) =>
    if homeRank c chunk != c.rank && k.fired && k.result == 0 && c.timeout != 0 &&
        decide (k.firedAt + 2000 * c.timeout ≤ s.ns) && !s.link.held.any (fun f => resultFor s l c chunk f && resultEnd f) then
      match putG s l (recordVa c chunk) (chunkRecord 3 0 s.ns 0) with
      | .error b => .next (launchFault s l b)
      | .ok t =>
        let mine (f : Flit) : Bool := resultFor s l c chunk f
        let t := t.modLink (fun k => { k with missed := k.missed ++ [(l.part, recordVa c chunk)] })
        let t := dropHeld t mine
        .next (modChunk t launch chunk (fun k => { k with result := 3 }))
    else .next s
  | none => .next s

/-- CHUNK_RESULT_LAND: the result of another home, held until this member's own chunk has fired. -/
def execChunkResultLand (launch chunk : Nat) (code : Byte) (missing : Nat) (skew : Bool) (data : ResultTile) (s : State) :
    Host.Outcome State Fault Refusal :=
  match chunkState s launch chunk with
  | some (l, c, k) =>
    if homeRank c chunk != c.rank && k.fired && k.result == 0 && (code == 1 || code == 2) then
      match putTile s l (tileOf ((c.tiles[chunk]?).getD [])).base data.bytes data.poison with
      | .error b => .next (launchFault s l b)
      | .ok t => match putG t l (recordVa c chunk) (chunkRecord code.toNat 0 s.ns missing) with
        | .error b => .next (launchFault s l b)
        | .ok t =>
          let t := dropHeld t (resultFor s l c chunk)
          .next ((modChunk t launch chunk (fun k => { k with result := code.toNat })).modLaunch launch
            (fun l => { l with skew := l.skew || skew }))
    else .next s
  | none => .next s

/-- The landing of a held result, for a chunk that has fired. -/
def resultEvents (s : State) (k : Chunk) : List Instr :=
  match (s.launch? k.launch).bind (fun l => l.coll.map (fun c => (l, c))) with
  | some (l, c) =>
    if k.fired && k.result == 0 then
      let fs := s.link.held.filter (resultFor s l c k.chunk)
      let z := resultTile fs
      fs.filterMap (fun f => match f.body with
        | .control _ bs =>
          some (.chunkResultLand k.launch k.chunk (BitVec.ofNat 8 (field bs 0 1)) (field bs 32 32) (field bs 64 8 != 0) ⟨z.1, z.2⟩)
        | _ => none)
    else []
  | none => []

/-- May a launch with a collective retire (R361)? One that firmware has killed as a whole waits for its groups alone (R374). -/
def collDone (s : State) (l : Launch) : Bool :=
  l.coll.isNone || l.killed || (s.chunks.filter (fun k => k.launch == l.id)).all (fun k => k.result != 0 && k.unacked == 0)

/-- A multicast flit of a chunk was acknowledged, or failed for its destination. -/
def chunkAcked (s : State) (f : Flit) : State :=
  match f.body with
  | .control va _ | .tile va _ _ =>
    { s with chunks := s.chunks.map (fun k => match s.launch? k.launch with
        | some l => (match l.coll with
          | some c => if l.part = f.part ∧ homeRank c k.chunk = c.rank ∧ recordVa c k.chunk = va then { k with unacked := k.unacked - 1 } else k
          | none => k)
        | none => k) }
  | _ => s

end Sys2Proof.Machine
end

