-- ==== Sys2Proof/Machine/Checks.lean ====
section
/-!
DEFINITION. What the device checks of a launch at the head of its queue (R7, R9 to R17, R21, R356), and the event that
does it.
-/
namespace Sys2Proof.Machine

/-! ## Fields of packets, records, headers and entries -/

/-- The parts of an allotment (R9): registers per thread, 0 for the header's value; U units; banks. -/
def allotRegs (a : Nat) : Nat := 8 * bits a 7 0
def allotUnits (a : Nat) : Nat := bits a 23 8
def allotBanks (a : Nat) : Nat := bits a 31 24

/-- A stream binding keeps R12; units is the group's U allotment. -/
def streamOk (w units : Nat) : Bool :=
  if bit w 63 then
    bits w 61 48 == 0 && decide (2 ≤ bits w 47 32) && decide (bits w 47 32 ≤ 4096) && bits w 31 0 % 128 == 0 &&
      (bit w 62 || decide (bits w 31 0 + 128 * bits w 47 32 ≤ 256 * units))
  else w == 0

/-- A kernel header keeps R11 and R12. -/
def headerOk (h : List Byte) (units : Nat) : Bool :=
  field h 0 4 == 0x4B594341 && field h 4 2 == 2 && decide (field h 6 1 ≤ 2) && decide (4 ≤ field h 7 1) &&
    decide (field h 7 1 ≤ 32) && field h 8 8 % 4 == 0 && field h 16 8 % 4 == 0 &&
    (List.range 4).all (fun i => streamOk (field h (24 + 8 * i) 8) units) && decide (field h 58 2 ≤ 1) && field h 60 4 == 0

/-- The parsed header; the entry points are offsets from it. -/
def kernelOf (h : List Byte) (at_ : Nat) : Kernel :=
  { nbv := field h 6 1, regs8 := field h 7 1, thread := BitVec.ofNat 64 (at_ + field h 8 8)
    scribe := if field h 16 8 = 0 then none else some (BitVec.ofNat 64 (at_ + field h 16 8))
    streams := (List.range 4).map (fun i => BitVec.ofNat 64 (field h (24 + 8 * i) 8)), stack := field h 56 2
    nomerge := bit (field h 58 2) 0 }

/-- Strokes of a group (R7). -/
def Dims.strokes (d : Dims) : Nat := (d.tx * d.ty * d.tz + 31) / 32

/-- Registers per thread in effect. -/
def regsOf (allot : Nat) (k : Kernel) : Nat := if allotRegs allot = 0 then 8 * k.regs8 else allotRegs allot

/-- The U bytes that a group reserves (R10). -/
def reserveBytes (units strokes stack : Nat) : Nat := 256 * units + 32 * strokes * stack

/-- An allotment keeps R10. -/
def allotOk (allot strokes : Nat) (k : Kernel) : Bool :=
  let n := regsOf allot k
  decide (32 ≤ n) && decide (n ≤ 256) && decide (8 * k.regs8 ≤ n) && decide ((strokes + 3) / 4 * n ≤ Config.rowsPerNib) &&
    decide (k.stack ≤ 4096) && k.stack % 16 == 0 && decide (reserveBytes (allotUnits allot) strokes k.stack ≤ Config.uBytes) &&
    decide (allotBanks allot ≤ 64) && decide (1 ≤ strokes) && decide (strokes ≤ 32)

/-- The chunk map keeps R21. -/
def cmapOk (w : Nat) : Bool := decide (bits w 7 0 ≤ 31) && decide (1 ≤ bits w 23 8) && bits w 63 24 == 0

/-- A packet's own fields keep R13 and R14. -/
def packetOk (p : List Byte) : Bool :=
  let fl := field p 32 2
  let zero (o n : Nat) : Bool := (p.drop o).take n |>.all (· == 0)
  decide (fl < 64) && zero 34 6 && zero 52 4 && zero 96 32 && field p 0 8 % 64 == 0 &&
    (bit fl 2 || zero 64 8) && (bit fl 3 || zero 72 24) && (!bit fl 3 || cmapOk (field p 88 8)) &&
    (!bit fl 5 || (zero 8 24 && zero 64 32))

/-- A task record keeps R16 and R17; carried says that the device attached a method entry. -/
def taskOk (r : List Byte) (carried : Bool) : Bool :=
  let op := field r 0 2
  let kind := bits (field r 2 1) 1 0
  bits (field r 2 1) 7 4 == 0 &&
    (match kind with
    | 0 => op == 0xFFFF && field r 8 8 != 0 && field r 8 8 % 64 == 0
    | 1 => decide (2 ≤ op) && op != 0xFFFF && field r 8 8 == 0
    | 2 => op == 1 && carried
    | _ => false)

/-! ## The check -/

/-- How a check ends other than well: with a code, or held by a stage-2 fault. -/
inductive Judged where
  | code (n : Nat)
  | hold (b : Bad)
  deriving DecidableEq, Repr

/-- A record read for a check; one that cannot be read gives a code. -/
def checkRead (s : State) (l : Launch) (va n code : Nat) (kinds : List Nat) : Except Judged (List Byte) :=
  match hubRead s l.part l.ended va n kinds with
  | .ok bs => .ok bs
  | .error .gone => .error (.code code)
  | .error (.hold b) => .error (.hold b)

/-- The kernel header of a launch, its grid and its allotment: codes BADHDR, BADGRID and BADALLOT. An address that is no multiple of 64, as
a method entry may give one, is no header's: R11 aligns headers to 64 bytes, and BADHDR for it is DEDUCED (log 17). -/
def checkKernel (s : State) (l : Launch) (at_ allot : Nat) (d : Dims) (gridOk : Bool) : Except Judged Launch :=
  match checkRead s l at_ 64 codeBADHDR anyKind with
  | .error j => .error j
  | .ok h =>
    let k := kernelOf h at_
    if at_ % 64 ≠ 0 ∨ headerOk h (allotUnits allot) = false then .error (.code codeBADHDR)
    else if gridOk = false then .error (.code codeBADGRID)
    else if allotOk allot d.strokes k = false then .error (.code codeBADALLOT)
    else .ok { l with
      header := BitVec.ofNat 64 at_, kern := k, dims := d, nregs := regsOf allot k, units := allotUnits allot, banks := allotBanks allot
      nbvVer := if k.nbv = 0 then (s.part? l.part).elim 2 (·.cr.nbvVer) else k.nbv }

/-- Several records of n bytes in a row, each in a single read. -/
def checkReads (s : State) (l : Launch) (va n : Nat) (kinds : List Nat) : Nat → Except Judged (List (List Byte))
  | 0 => .ok []
  | k + 1 => match checkRead s l va n codeBADPKT kinds with
    | .error j => .error j
    | .ok r => match checkReads s l (va + n) n kinds k with
      | .error j => .error j
      | .ok rs => .ok (r :: rs)

/-- Do n bytes from an address on lie in G: page by page, of a KIND G page each; fuel is the pages left. -/
def inG (s : State) (l : Launch) : Nat → Nat → Nat → Except Judged Unit
  | 0, _, _ => .ok ()
  | fuel + 1, va, n =>
    if n = 0 then .ok ()
    else match hubReach s l.part l.ended va 1 .load [0] with
      | .error (.hold b) => .error (.hold b)
      | .error .gone => .error (.code codeBADPKT)
      | .ok _ => inG s l fuel ((va / 4096 + 1) * 4096) (n - min n (4096 - va % 4096))

/-- The bytes of the staging area that a device may hold for a collective: the slots of every chunk whose home it may be (R357). -/
def stageBytes (c : Coll) : Nat := ((c.chunks + c.nmem - 1) / c.nmem) * c.nmem * c.slotBytes

/-- The staging area and the chunk records lie in G (R355). -/
def areasOk (s : State) (l : Launch) (c : Coll) : Except Judged Unit :=
  match inG s l (stageBytes c / 4096 + 2) c.stage (stageBytes c) with
  | .error j => .error j
  | .ok _ => inG s l (64 * c.chunks / 4096 + 2) c.cstat (64 * c.chunks)

/-- The collective of a packet (R356). -/
def checkColl (s : State) (l : Launch) : Except Judged (Option Coll) :=
  if bit (field l.packet 32 2) 3 = false then .ok none
  else
    let at_ := field l.packet 72 8
    let map := field l.packet 88 8
    let bind := field l.packet 80 8
    if at_ % 64 ≠ 0 ∨ bind % 32 ≠ 0 then .error (.code codeBADPKT)
    else match checkRead s l at_ 64 codeBADPKT [0] with
      | .error j => .error j
      | .ok desc =>
        match checkRead s l (at_ + 64) (2 * min 256 (field desc 8 2)) codeBADPKT [0] with
        | .error j => .error j
        | .ok devs => match checkReads s l bind 32 [0] (bits map 23 8) with
          | .error j => .error j
          | .ok tiles =>
            let c := collOf desc devs map tiles
            if descOk desc devs && (c.devs[c.rank]?) == some s.link.dev &&
                c.devs.all (fun d => (peerPart s l.part d).isSome) && tiles.all (tileServes c.op c.slotBytes) then
              match areasOk s l c with
              | .error j => .error j
              | .ok _ => .ok (some c)
            else .error (.code codeBADPKT)

/-- The strokes of a task's group: an extent that is not zero, and at most 1,024 threads (R15). -/
def shapeOk (n : Nat) : Bool := decide (1 ≤ n) && decide (n ≤ 32)

/-- A task's own check; an operator task without a method entry has no header yet (R40). -/
def checkTask (s : State) (l : Launch) : Except Judged Launch :=
  let r := l.record
  if l.poisoned ∨ taskOk r l.method.isSome = false then .error (.code codeBADPKT)
  else
    let l := { l with
      isTask := true, arg := BitVec.ofNat 64 (field r 16 8), coords := (List.range 4).map (fun i => field r (24 + 2 * i) 2)
      succ := BitVec.ofNat 64 (field r 32 8), nbvVer := (s.part? l.part).elim 2 (·.cr.nbvVer) }
    if bits (field r 2 1) 1 0 = 0 then
      checkKernel s l (field r 8 8) (field r 4 4) { tx := 32 * field r 3 1 } (shapeOk (field r 3 1))
    else match l.method with
      | some e => checkKernel s l (field e 8 8) (field e 16 4) { tx := 32 * field e 20 1 } (shapeOk (field e 20 1))
      | none => .ok l

/-- The launch as its check leaves it (R15). A TASKMODE packet with COLL set has its CDESC, CBIND and CMAP zero by R14, which is no
collective: DESIGN CHOICE, it is rejected with BADPKT (log 28). -/
def checkLaunch (s : State) (l : Launch) : Except Judged Launch :=
  if l.isTask then checkTask s l
  else
    let p := l.packet
    let fl := field p 32 2
    let l := { l with
      timed := bit fl 2, cor := bit fl 4, tstart := field p 64 8, waitAddr := BitVec.ofNat 64 (field p 40 8), waitVal := field p 48 4 }
    if l.poisoned ∨ packetOk p = false then .error (.code codeBADPKT)
    else if bit fl 5 then
      match checkRead s l (field p 0 8) 64 codeBADPKT anyKind with
      | .error j => .error j
      | .ok r =>
        if bits (field r 2 1) 3 2 ≠ l.cls ∨ bit fl 3 = true then .error (.code codeBADPKT)
        else checkTask s { l with record := r, recAddr := BitVec.ofNat 64 (field p 0 8) }
    else match checkColl s l with
      | .error j => .error j
      | .ok c =>
        let d : Dims := { gx := field p 16 2, gy := field p 18 2, gz := field p 20 2, tx := field p 22 2, ty := field p 24 2, tz := field p 26 2 }
        let grid := [d.gx, d.gy, d.gz, d.tx, d.ty, d.tz].all (· != 0) && decide (d.tx * d.ty * d.tz ≤ 1024)
        checkKernel s { l with coll := c, arg := BitVec.ofNat 64 (field p 8 8) } (field p 0 8) (field p 28 4) d grid

/-- Must a launch that passed its check wait on the hold list? -/
def mustWait (s : State) (l : Launch) : Bool := l.waitAddr != 0 || (l.timed && decide (s.ns < l.tstart))

/-- A checked launch goes on: it becomes eligible where it stands, or joins the hold list if that has a place. DESIGN CHOICE: a timed launch
that a full hold list has kept at the head past its TSTART starts at once and sets LATE, as it becomes eligible only then (log 28); and a TIMED launch in TASKMODE, whose packet has TSTART 0, counts as timed,
so that it starts at once and sets LATE (R14; log 30). -/
def goOn (s : State) (l : Launch) : State :=
  if mustWait s l then
    if holdRoom s l.part then
      let s := joinHold s l
      if l.waitAddr = 0 then satisfied s { l with phase := .held } else pollHeld s l.id
    else { s with launches := mapPut s.launches l.id { l with phase := .checked } }
  else
    let late := l.timed && decide (l.tstart < s.ns)
    { s with launches := mapPut s.launches l.id { l with phase := .eligible, late := late } }

/-- Code lines that the cores hold are read afresh once a launch has passed its check (R70). -/
def dropCode (s : State) : State := { s with cores := s.cores.map (fun e => (e.1, { e.2 with icache := [] })) }

/-- LAUNCH_CHECK of the head of a queue. DESIGN CHOICE: heads are checked, counters read and held launches released for a partition that is
descheduled too; only handing out waits (R35, log 28). -/
def execLaunchCheck (part cls : Nat) (s : State) : Host.Outcome State Fault Refusal :=
  match s.part? part with
  | none => .next s
  | some p => match ((p.queues[cls]?).getD []).head?.bind (s.launch? ·) with
    | none => .next s
    | some l =>
      if p.failed then .next (if l.phase == .queued || l.phase == .checked then rejectLaunch s l.id codeFAILED else s)
      else match l.phase with
        | .queued => match checkLaunch s l with
          | .error (.code n) => .next (rejectLaunch s l.id n)
          | .error (.hold b) => .next (launchFault s l b)
          | .ok l => .next (goOn (dropCode s) l)
        | .checked => .next (goOn s l)
        | _ => .next s

end Sys2Proof.Machine
end

