-- ==== Sys2Proof/Machine/CrossLane.lean ====
section
/-!
DEFINITION. The instructions that act over a quad or a stroke (R170, R171, R173 to R181).
-/
namespace Sys2Proof.Machine

/-! ## Reading other lanes (R173) -/

/-- The v registers of a source field that are not popped ports. -/
def fieldRegs (x : Env) (r : Role) (c : Code) : List Nat :=
  match r, Opnd.ofCode c with
  | .op u, .v i => if x.pops.any (fun p => p.1 == i) then [] else upTo i u.span
  | _, _ => []

/-- A verdict given only if no lane read is tagged or marked: reads pairs an active lane with a lane whose registers it
reads (R144, R316, R376). -/
def foreign (x : Env) (reads : List (Nat × Nat × List Nat)) (v : Verdict) : Verdict :=
  let lanes (t : Nat → Nat → Bool) : Mask :=
    maskOf (fun l => reads.any (fun r => r.1 == l && r.2.2.any (fun i => t i r.2.1)))
  let tagged := lanes (fun i l => x.regs.tagGet i l != 0)
  let marked := lanes (fun i l => x.regs.poisGet i l)
  if tagged ≠ 0 then trapLanes cSHARETAG tagged else if marked ≠ 0 then trapLanes cPOISON marked else v

/-- The first lane of a lane's quad. -/
def quadBase (l : Nat) : Nat := 4 * (l / 4)

/-! ## SPCMP and SPEXP (R170, R171) -/

/-- An element as SPCMP reads it: the high half of a packed register is dropped. -/
def sparseElem (t : Ty) (x : Nat) : Nat := if t = .f32 then x % 2 ^ 32 else x % 2 ^ 16

def bodySpcmp (x : Env) (s : State) : Verdict :=
  let t := x.ty
  let b := (Opnd.ofCode x.f.b).index
  let rs := x.lanes.map (fun l =>
    let vs := (List.range 4).map (fun j => sparseElem t (opA s x (quadBase l + j)))
    let k := pick24 (vs.map (unpack t.fmt))
    let kept := match l % 4 with
      | 0 => (vs[k.1]?).getD 0
      | 1 => (vs[k.2]?).getD 0
      | _ => 0
    (l, kept, k.1 + 4 * k.2))
  foreign x (x.lanes.flatMap (fun l => (List.range 4).map (fun j => (l, quadBase l + j, fieldRegs x x.sh.a x.f.a))))
    (.commit
      { st := s
        writes := putD x (rs.map (fun r => (r.1, r.2.1))) ++ rs.flatMap (fun r => putV b r.1 r.2.2 0 false 1) })

def execSpcmp (f : Fields) (s : State) : Host.Outcome State Fault Refusal := issue 0x37 f (fieldsLen f) bodySpcmp s

def bodySpexp (x : Env) (s : State) : Verdict :=
  let t := x.ty
  let ra := fieldRegs x x.sh.a x.f.a
  foreign x (x.lanes.flatMap (fun l =>
      [(l, quadBase l, ra), (l, quadBase l + 1, ra), (l, quadBase l, fieldRegs x x.sh.b x.f.b)]))
    (results x s (fun l =>
      let q := quadBase l
      let m := opB s x q
      let i0 := bits m 1 0
      let i1 := bits m 3 2
      if i0 < i1 then
        (if l % 4 = i0 then sparseElem t (opA s x q) else if l % 4 = i1 then sparseElem t (opA s x (q + 1)) else 0, 0)
      else (t.fmt.qnan, flagNV)))

def execSpexp (f : Fields) (s : State) : Host.Outcome State Fault Refusal := issue 0x38 f (fieldsLen f) bodySpexp s

/-! ## Predicates (R174 to R176) -/

def plopBit (m : Nat) (a b : Bool) : Bool :=
  match m with
  | 0 => a && b | 1 => a || b | 2 => a != b | 3 => a && !b | 4 => !(a && b) | 5 => !(a || b) | _ => a == b

def execPlop (f : Fields) (s : State) : Host.Outcome State Fault Refusal :=
  issue 0x40 f (fieldsLen f) (fun x s => results x s (fun l =>
    (if plopBit x.f.m.toNat (opA s x l != 0) (opB s x l != 0) then 1 else 0, 0))) s

/-- PMOV (R175): gathers into an s register, or scatters from one. -/
def bodyPmov (x : Env) (s : State) : Verdict :=
  if (Opnd.ofCode x.f.d).kind == .s then
    let m := maskOf (fun l => (x.workers s).contains l && opA s x l != 0)
    .commit { st := s, writes := putS (Opnd.ofCode x.f.d).index m.toNat false 1 }
  else results x s (fun l => (if bit (opA s x l) l then 1 else 0, 0))

def execPmov (f : Fields) (s : State) : Host.Outcome State Fault Refusal := issue 0x41 f (fieldsLen f) bodyPmov s

/-- VOTE (R176) over the participants; with none, the empty set. -/
def bodyVote (x : Env) (s : State) : Verdict :=
  let vs := (x.workers s).map (fun l => opA s x l != 0)
  let r := match x.f.m.toNat with
    | 0 => vs.all id
    | 1 => vs.any id
    | _ => vs.all id || vs.all (fun b => !b)
  results x s (fun _ => (if r then 1 else 0, 0))

def execVote (f : Fields) (s : State) : Host.Outcome State Fault Refusal := issue 0x42 f (fieldsLen f) bodyVote s

/-! ## Exchanges (R177, R178) -/

/-- The source lane of SHFL. -/
def shflLane (mode w l n : Nat) : Nat :=
  let o := l % w
  let base := l - o
  match mode with
  | 0 => base + n % w
  | 1 => if n ≤ o then l - n else l
  | 2 => if o + n < w then l + n else l
  | _ => base + (o ^^^ (n % w))

/-- The source lane of QXCH. -/
def qxchLane (mode j l : Nat) : Nat :=
  match mode with
  | 0 => quadBase l + (l % 4 ^^^ 1)
  | 1 => quadBase l + (l % 4 ^^^ 2)
  | 2 => quadBase l + (l % 4 ^^^ 3)
  | _ => quadBase l + j % 4

/-- Each active lane takes A of another lane. -/
def exchange (x : Env) (s : State) (src : Nat → Nat) : Verdict :=
  foreign x (x.lanes.map (fun l => (l, src l, fieldRegs x x.sh.a x.f.a))) (results x s (fun l => (opA s x (src l), 0)))

def execShfl (f : Fields) (s : State) : Host.Outcome State Fault Refusal :=
  issue 0x43 f (fieldsLen f) (fun x s =>
    exchange x s (fun l => shflLane x.f.m.toNat (2 ^ bits x.f.b.toNat 3 1) l (opC s x l % 2 ^ 32))) s

def execQxch (f : Fields) (s : State) : Host.Outcome State Fault Refusal :=
  issue 0x44 f (fieldsLen f) (fun x s => exchange x s (fun l => qxchLane x.f.m.toNat x.f.c.toNat l)) s

/-! ## Reductions (R179 to R181) -/

/-- The identities of R179; M is 0 add, 1 min, 2 max, 3 and, 4 or, 5 xor. -/
def redIdentity (m : Nat) (t : Ty) : Nat :=
  match m with
  | 0 => if t = .f32 then 0x80000000 else 0
  | 1 => if t = .f32 then 0x7F800000 else if t = .i32 then 0x7FFFFFFF else 0xFFFFFFFF
  | 2 => if t = .f32 then 0xFF800000 else if t = .i32 then 0x80000000 else 0
  | 3 => 0xFFFFFFFF
  | _ => 0

/-- One step of a reduction. -/
def redOp (m : Nat) (t : Ty) (ftz : Bool) (a b : Nat) : Nat × Flags :=
  if t = .f32 then
    let x := readElem .f32 ftz a 0
    let y := readElem .f32 ftz b 0
    finish .f32 .rne false ftz (match m with
      | 0 => sumN .rne [x, y]
      | 1 => pickN false x y
      | _ => pickN true x y)
  else
    (match m with
      | 0 => (a + b) % 2 ^ 32
      | 1 => if t.ext b < t.ext a then b else a
      | 2 => if t.ext a < t.ext b then b else a
      | 3 => a &&& b
      | 4 => a ||| b
      | _ => a ^^^ b, 0)

/-- A round of the tree: neighbours combined. -/
def redRound (op : Nat → Nat → Nat × Flags) : List (Nat × Flags) → List (Nat × Flags)
  | a :: b :: r =>
    let z := op a.1 b.1
    (z.1, a.2 ||| b.2 ||| z.2) :: redRound op r
  | r => r

/-- The tree of R179 over 32 values: the result, and every flag raised. -/
def redTree (op : Nat → Nat → Nat × Flags) (vs : List Nat) : Nat × Flags :=
  let r := redRound op
  ((r (r (r (r (r (vs.map (·, (0 : Flags)))))))).head?).getD (0, 0)

/-- The values that 32 lanes contribute (R179). -/
def contributed (x : Env) (s : State) (m : Nat) : List Nat :=
  let ps := x.workers s
  (List.range 32).map (fun l => if ps.contains l then opA s x l % 2 ^ 32 else redIdentity m x.ty)

def bodyRed (x : Env) (s : State) : Verdict :=
  let m := x.f.m.toNat
  let z := redTree (redOp m x.ty (ftzOf s x)) (contributed x s m)
  .commit
    { st := s, writes := putD x (x.lanes.map (fun l => (l, z.1))), flags := (x.workers s).map (fun l => (l, z.2)) }

def execRed (f : Fields) (s : State) : Host.Outcome State Fault Refusal := issue 0x45 f (fieldsLen f) bodyRed s

/-- Does value b win over value a, which stands in a lower lane (R180)? -/
def redxBeats (larger : Bool) (t : Ty) (a b : Nat) : Bool :=
  if t = .f32 then
    let x := unpack .f32 a
    let y := unpack .f32 b
    if y.isNan then false
    else if x.isNan then true
    else
      let below (p q : Num) : Bool := ltN p q || (!ltN q p && p.neg && !q.neg)
      if larger then below x y else below y x
  else if larger then decide (t.ext a < t.ext b) else decide (t.ext b < t.ext a)

def bodyRedx (x : Env) (s : State) : Verdict :=
  let larger := x.f.m.toNat == 1
  let ps := x.workers s
  let vs := contributed x s (if larger then 2 else 1)
  let all := (List.range 32).map (fun l =>
    ((vs[l]?).getD 0, if ps.contains l then opC s x l % 2 ^ 32 else 0xFFFFFFFF))
  let w := all.foldl (fun a b => match a with
    | none => some b
    | some a => some (if redxBeats larger x.ty a.1 b.1 then b else a)) none
  let v := w.getD (0, 0)
  let val := if x.ty = .f32 ∧ (unpack .f32 v.1).isNan = true then Fmt.f32.qnan else v.1
  results x s (fun _ => (val + 2 ^ 32 * v.2, 0))

def execRedx (f : Fields) (s : State) : Host.Outcome State Fault Refusal := issue 0x46 f (fieldsLen f) bodyRedx s

/-- SCAN from lane 0 upward (R181): what each lane would be given, and every flag. -/
def scanFrom (op : Nat → Nat → Nat × Flags) (excl : Bool) : Nat → Flags → List Nat → List Nat × Flags
  | _, fl, [] => ([], fl)
  | acc, fl, v :: vs =>
    let z := op acc v
    let r := scanFrom op excl z.1 (fl ||| z.2) vs
    ((if excl then acc else z.1) :: r.1, r.2)

def bodyScan (x : Env) (s : State) : Verdict :=
  let m := x.f.m.toNat
  let r := scanFrom (redOp m x.ty (ftzOf s x)) (bit x.f.b.toNat 0) (redIdentity m x.ty) 0 (contributed x s m)
  let ps := x.workers s
  .commit { st := s, writes := putD x (ps.map (fun l => (l, (r.1[l]?).getD 0))), flags := ps.map (fun l => (l, r.2)) }

def execScan (f : Fields) (s : State) : Host.Outcome State Fault Refusal := issue 0x47 f (fieldsLen f) bodyScan s

end Sys2Proof.Machine
end

