-- ==== Sys2Proof/Machine/FloatOps.lean ====
section
/-!
DEFINITION. The float instructions (R159 to R165) and their compact forms (R87).
-/
namespace Sys2Proof.Machine

/-- A Binary float operation on elements: the exact result, then one rounding (R118 to R122). -/
def binaryFloat (g : Rnd → Num → Num → Num × Flags) (x : Env) (s : State) : Verdict :=
  let t := x.ty
  let ftz := ftzOf s x
  let r := roundOf s x
  results x s (fun l =>
    let a := opA s x l
    let c := opC s x l
    packElems t (fun i => finish t.fmt r x.satBit ftz (g r (readElem t ftz a i) (readElem t ftz c i))))

/-- FMIN and FMAX return an operand. -/
def pickFloat (larger : Bool) : Env → State → Verdict := binaryFloat (fun _ a c => pickN larger a c)

def bodyFadd : Env → State → Verdict := binaryFloat (fun r a c => sumN r [a, c])
def bodyFmul : Env → State → Verdict := binaryFloat (fun _ a c => mulN a c)

def execFadd (f : Fields) (s : State) : Host.Outcome State Fault Refusal := issue 0x20 f (fieldsLen f) bodyFadd s
def execFaddC32 (f : CompactFields) (s : State) : Host.Outcome State Fault Refusal :=
  issue 0x20 (compactVV .f32 f) 4 bodyFadd s
def execFsub (f : Fields) (s : State) : Host.Outcome State Fault Refusal :=
  issue 0x21 f (fieldsLen f) (binaryFloat (fun r a c => sumN r [a, c.negate])) s
def execFmul (f : Fields) (s : State) : Host.Outcome State Fault Refusal := issue 0x22 f (fieldsLen f) bodyFmul s
def execFmulC32 (f : CompactFields) (s : State) : Host.Outcome State Fault Refusal :=
  issue 0x22 (compactVV .f32 f) 4 bodyFmul s

/-- FFMA (R159): one rounding, by M. -/
def bodyFfma (x : Env) (s : State) : Verdict :=
  let t := x.ty
  let ftz := ftzOf s x
  results x s (fun l =>
    let a := opA s x l
    let b := opB s x l
    let c := opC s x l
    packElems t (fun i => finish t.fmt x.roundM x.satLa ftz
      (fmaN x.roundM (readElem t ftz a i) (readElem t ftz b i) (readElem t ftz c i))))

def execFfma (f : Fields) (s : State) : Host.Outcome State Fault Refusal := issue 0x23 f (fieldsLen f) bodyFfma s

def execFmin (f : Fields) (s : State) : Host.Outcome State Fault Refusal :=
  issue 0x24 f (fieldsLen f) (pickFloat false) s
def execFmax (f : Fields) (s : State) : Host.Outcome State Fault Refusal :=
  issue 0x25 f (fieldsLen f) (pickFloat true) s

/-- FABS and FNEG act on the sign bit of each element (R160). -/
def signFloat (g : Fmt → Nat → Nat) (x : Env) (s : State) : Verdict :=
  results x s (fun l =>
    let c := opC s x l
    packElems x.ty (fun i => (g x.ty.fmt (elemOf x.ty c i), 0)))

def execFabs (f : Fields) (s : State) : Host.Outcome State Fault Refusal :=
  issue 0x26 f (fieldsLen f) (signFloat (fun t e => e % 2 ^ t.top)) s
def execFneg (f : Fields) (s : State) : Host.Outcome State Fault Refusal :=
  issue 0x27 f (fieldsLen f) (signFloat (fun t e => e ^^^ 2 ^ t.top)) s

/-- FCMP (R161). -/
def execFcmp (f : Fields) (s : State) : Host.Outcome State Fault Refusal :=
  issue 0x28 f (fieldsLen f) (fun x s =>
    let ftz := ftzOf s x
    results x s (fun l =>
      let z := fcmpN x.f.m.toNat (readElem .f32 ftz (opA s x l) 0) (readElem .f32 ftz (opC s x l) 0)
      (if z.1 then 1 else 0, z.2))) s

/-- FCLASS (R162): FTZ does not apply. -/
def execFclass (f : Fields) (s : State) : Host.Outcome State Fault Refusal :=
  issue 0x29 f (fieldsLen f) (fun x s => results x s (fun l =>
    let c := opC s x l
    packElems x.ty (fun i => (fclassNat x.ty.fmt (elemOf x.ty c i), 0)))) s

/-- A special function (R163). -/
def special1 (g : SpecialFn) (x : Env) (s : State) : Verdict :=
  let ftz := ftzOf s x
  resultsLater x s (fun l =>
    let c := opC s x l
    packElems x.ty (fun i => specialFloat g x.ty.fmt ftz (elemOf x.ty c i)))

def execFrcp (f : Fields) (s : State) : Host.Outcome State Fault Refusal := issue 0x2A f (fieldsLen f) (special1 .rcp) s
def execFrsq (f : Fields) (s : State) : Host.Outcome State Fault Refusal := issue 0x2B f (fieldsLen f) (special1 .rsq) s
def execFsqrt (f : Fields) (s : State) : Host.Outcome State Fault Refusal := issue 0x2C f (fieldsLen f) (special1 .sqrt) s
def execFexp2 (f : Fields) (s : State) : Host.Outcome State Fault Refusal := issue 0x2D f (fieldsLen f) (special1 .exp2) s
def execFlog2 (f : Fields) (s : State) : Host.Outcome State Fault Refusal := issue 0x2E f (fieldsLen f) (special1 .log2) s
def execFsin (f : Fields) (s : State) : Host.Outcome State Fault Refusal := issue 0x2F f (fieldsLen f) (special1 .sin) s
def execFcos (f : Fields) (s : State) : Host.Outcome State Fault Refusal := issue 0x30 f (fieldsLen f) (special1 .cos) s
def execFtanh (f : Fields) (s : State) : Host.Outcome State Fault Refusal := issue 0x31 f (fieldsLen f) (special1 .tanh) s

/-- FSCL (R164): the same c, read as i32, for both elements. -/
def execFscl (f : Fields) (s : State) : Host.Outcome State Fault Refusal :=
  issue 0x32 f (fieldsLen f) (fun x s =>
    let t := x.ty
    let ftz := ftzOf s x
    results x s (fun l =>
      let a := opA s x l
      let c := sext 32 (opC s x l)
      packElems t (fun i => finish t.fmt (roundOf s x) x.satBit ftz (scaleN (readElem t ftz a i) c)))) s

/-- FDOT2 (R165): A and B packed pairs, C and D f32. -/
def execFdot2 (f : Fields) (s : State) : Host.Outcome State Fault Refusal :=
  issue 0x39 f (fieldsLen f) (fun x s =>
    let t := x.ty
    let ftz := ftzOf s x
    results x s (fun l =>
      let a := opA s x l
      let b := opB s x l
      finish .f32 x.roundM x.satLa ftz
        (dot2N x.roundM (readElem t ftz a 0) (readElem t ftz b 0) (readElem t ftz a 1) (readElem t ftz b 1)
          (readElem .f32 ftz (opC s x l) 0)))) s

end Sys2Proof.Machine
end

