-- ==== Sys2Proof/WellFormed.lean ====
section
/-!
DEFINITION. Well-formed instructions: those that the checks of R88, in Machine/Legal.lean, refuse under no name. A row
that is an event is well formed whatever its data.
-/
namespace Sys2Proof

/-- Is an instruction well formed where it stands? -/
def Instr.wellFormed (x : Machine.Ctx) (i : Instr) : Bool := (Machine.checkInstr x i).isNone

end Sys2Proof
end

