-- ==== Sys2Proof/Decode.lean ====
section
/-!
DEFINITION. The decoder, total on any bytes, which refuses by name what is no instruction (R71 to R76, R86 to R88); and
the encoder, written from the same layouts.
-/
namespace Sys2Proof
open Machine

/-- The length in bytes that bits [1:0] of the first word give (R72). -/
def lengthOf (b0 : Byte) : Nat := 4 * (b0.toNat % 4 + 1)

/-- The fields of the first 64 bits (R73). -/
def fieldsOf (w : Dword) (ext : Ext) : Fields :=
  { m := w.extractLsb' 61 3
    t := w.extractLsb' 56 5
    c := w.extractLsb' 47 9
    b := w.extractLsb' 38 9
    a := w.extractLsb' 29 9
    d := w.extractLsb' 20 9
    la := w.extractLsb' 16 4
    g := w.getLsbD 15
    n := w.getLsbD 14
    pred := w.extractLsb' 10 4
    ext := ext }

/-- The fields of a BRA or CALL (R73, R182). -/
def branchFieldsOf (w : Dword) : BranchFields :=
  { off := w.extractLsb' 29 35
    d := w.extractLsb' 20 9
    la := w.extractLsb' 16 4
    g := w.getLsbD 15
    n := w.getLsbD 14
    pred := w.extractLsb' 10 4 }

/-- The instruction of an opcode other than BRA and CALL (R86). -/
def instrOf (opc : Nat) (f : Fields) : Option Instr :=
  match opc with
  | 0x00 => some (.add f)
  | 0x01 => some (.sub f)
  | 0x02 => some (.mul f)
  | 0x03 => some (.mulh f)
  | 0x04 => some (.mad f)
  | 0x05 => some (.min f)
  | 0x06 => some (.max f)
  | 0x07 => some (.abs f)
  | 0x08 => some (.neg f)
  | 0x09 => some (.and f)
  | 0x0A => some (.or f)
  | 0x0B => some (.xor f)
  | 0x0C => some (.andn f)
  | 0x0D => some (.not f)
  | 0x0E => some (.shl f)
  | 0x0F => some (.shr f)
  | 0x10 => some (.sha f)
  | 0x11 => some (.rot f)
  | 0x12 => some (.bfe f)
  | 0x13 => some (.bfi f)
  | 0x14 => some (.popc f)
  | 0x15 => some (.clz f)
  | 0x16 => some (.brev f)
  | 0x17 => some (.sel f)
  | 0x18 => some (.cmp f)
  | 0x19 => some (.mov f)
  | 0x1A => some (.lea f)
  | 0x1B => some (.div f)
  | 0x1C => some (.rem f)
  | 0x1D => some (.dot4 f)
  | 0x1E => some (.prmt f)
  | 0x20 => some (.fadd f)
  | 0x21 => some (.fsub f)
  | 0x22 => some (.fmul f)
  | 0x23 => some (.ffma f)
  | 0x24 => some (.fmin f)
  | 0x25 => some (.fmax f)
  | 0x26 => some (.fabs f)
  | 0x27 => some (.fneg f)
  | 0x28 => some (.fcmp f)
  | 0x29 => some (.fclass f)
  | 0x2A => some (.frcp f)
  | 0x2B => some (.frsq f)
  | 0x2C => some (.fsqrt f)
  | 0x2D => some (.fexp2 f)
  | 0x2E => some (.flog2 f)
  | 0x2F => some (.fsin f)
  | 0x30 => some (.fcos f)
  | 0x31 => some (.ftanh f)
  | 0x32 => some (.fscl f)
  | 0x33 => some (.cvt f)
  | 0x34 => some (.pack2 f)
  | 0x35 => some (.qnt4 f)
  | 0x36 => some (.dqn4 f)
  | 0x37 => some (.spcmp f)
  | 0x38 => some (.spexp f)
  | 0x39 => some (.fdot2 f)
  | 0x3A => some (.vsw f)
  | 0x40 => some (.plop f)
  | 0x41 => some (.pmov f)
  | 0x42 => some (.vote f)
  | 0x43 => some (.shfl f)
  | 0x44 => some (.qxch f)
  | 0x45 => some (.red f)
  | 0x46 => some (.redx f)
  | 0x47 => some (.scan f)
  | 0x51 => some (.brm f)
  | 0x52 => some (.jmpi f)
  | 0x54 => some (.calli f)
  | 0x55 => some (.ret f)
  | 0x56 => some (.exit f)
  | 0x57 => some (.fuse f)
  | 0x58 => some (.nop f)
  | 0x59 => some (.bar f)
  | 0x5A => some (.btake f)
  | 0x5B => some (.bgive f)
  | 0x5C => some (.cue f)
  | 0x5D => some (.waitm f)
  | 0x5E => some (.yield f)
  | 0x60 => some (.ld f)
  | 0x61 => some (.st f)
  | 0x62 => some (.ldt f)
  | 0x63 => some (.stt f)
  | 0x64 => some (.atom f)
  | 0x65 => some (.cas f)
  | 0x66 => some (.fxadd f)
  | 0x67 => some (.fxrd f)
  | 0x68 => some (.fxclr f)
  | 0x69 => some (.fence f)
  | 0x6A => some (.pset f)
  | 0x6B => some (.parm f)
  | 0x6C => some (.ptest f)
  | 0x6D => some (.sclose f)
  | 0x80 => some (.fwait f)
  | 0x81 => some (.ftst f)
  | 0x82 => some (.fpass f)
  | 0x83 => some (.ftake f)
  | 0x84 => some (.fcan f)
  | 0x90 => some (.cpy f)
  | 0x91 => some (.cpyt f)
  | 0x92 => some (.cpyr f)
  | 0x93 => some (.cpym f)
  | 0x94 => some (.ccan f)
  | 0x95 => some (.wcue f)
  | 0xA0 => some (.mmr f)
  | 0xA1 => some (.mms f)
  | 0xA2 => some (.aalloc f)
  | 0xA3 => some (.afree f)
  | 0xA4 => some (.agrant f)
  | 0xA5 => some (.ald f)
  | 0xA6 => some (.ast f)
  | 0xA7 => some (.azero f)
  | 0xA8 => some (.cvset f)
  | 0xA9 => some (.cvrst f)
  | 0xB0 => some (.sminit f)
  | 0xB1 => some (.rqs f)
  | 0xB2 => some (.rhh f)
  | 0xB3 => some (.rdc f)
  | 0xB4 => some (.smrg f)
  | 0xB5 => some (.sqnt f)
  | 0xB6 => some (.sest f)
  | 0xB7 => some (.shhq f)
  | 0xC0 => some (.sadd f)
  | 0xC1 => some (.ssub f)
  | 0xC2 => some (.smulk f)
  | 0xC3 => some (.smask f)
  | 0xC4 => some (.sxch f)
  | 0xC5 => some (.sfin f)
  | 0xC6 => some (.strn f)
  | 0xC7 => some (.sxor f)
  | 0xC8 => some (.sdab f)
  | 0xC9 => some (.srev f)
  | 0xD0 => some (.pst f)
  | 0xD1 => some (.psig f)
  | 0xD2 => some (.pwait f)
  | 0xD3 => some (.spawn f)
  | 0xD4 => some (.launch f)
  | 0xD5 => some (.tagget f)
  | 0xD6 => some (.tagset f)
  | 0xE0 => some (.trap f)
  | 0xE1 => some (.rte f)
  | 0xE2 => some (.csrr f)
  | 0xE3 => some (.csrw f)
  | 0xE4 => some (.bkpt f)
  | _ => none

/-- The compact instruction of an OPC6 (R87). -/
def compactOf (opc6 : Nat) (f : CompactFields) : Option Instr :=
  match opc6 with
  | 0x00 => some (.nopC32 f)
  | 0x01 => some (.movC32 f)
  | 0x02 => some (.addC32 f)
  | 0x03 => some (.addImmC32 f)
  | 0x04 => some (.subC32 f)
  | 0x05 => some (.andC32 f)
  | 0x06 => some (.orC32 f)
  | 0x07 => some (.xorC32 f)
  | 0x08 => some (.shlC32 f)
  | 0x09 => some (.shrC32 f)
  | 0x0A => some (.faddC32 f)
  | 0x0B => some (.fmulC32 f)
  | 0x0C => some (.exitC32 f)
  | 0x0D => some (.fuseC32 f)
  | 0x0E => some (.retC32 f)
  | 0x0F => some (.braC32 (f.b ++ f.a ++ f.d))
  | _ => none

/-- A well-formed instruction and its length, or the name of what refuses it. -/
def accept (x : Ctx) (len : Nat) : Option Instr → Except Reject (Instr × Nat)
  | none => .error .opcode
  | some i => match checkInstr x i with
    | none => .ok (i, len)
    | some r => .error r

/-- Decoding the bytes at a PC (R72): the instruction and its length, or why the bits are none. -/
def decode (x : Ctx) (bs : List Byte) : Except Reject (Instr × Nat) :=
  match bs with
  | [] => .error .truncated
  | b0 :: _ =>
    let len := lengthOf b0
    if bs.length < len then .error .truncated
    else if len = 4 then
      let w : Word := BitVec.ofNat 32 (bytesNat (bs.take 4))
      accept x 4 (compactOf (w.extractLsb' 2 6).toNat
        { d := w.extractLsb' 8 8, a := w.extractLsb' 16 8, b := w.extractLsb' 24 8 })
    else
      let w : Dword := BitVec.ofNat 64 (bytesNat (bs.take 8))
      let opc := (w.extractLsb' 2 8).toNat
      if opc = 0x50 ∨ opc = 0x53 then
        if len = 8 then
          accept x 8 (some (if opc = 0x50 then .bra (branchFieldsOf w) else .call (branchFieldsOf w)))
        else .error .format
      else
        let ext := if len = 8 then Ext.none
          else if len = 12 then .lit (BitVec.ofNat 32 (bytesNat ((bs.drop 8).take 4)))
          else .wide (BitVec.ofNat 64 (bytesNat ((bs.drop 8).take 8)))
        accept x len (instrOf opc (fieldsOf w ext))

/-- The bytes that follow the first two words, and the LEN code (R72). -/
def encodeExt : Ext → BitVec 2 × List Byte
  | .none => (1, [])
  | .lit w => (2, natBytes 4 w.toNat)
  | .wide x => (3, natBytes 8 x.toNat)

/-- The first 64 bits (R73). -/
def fieldWord (opc : BitVec 8) (f : Fields) : Dword :=
  f.m ++ f.t ++ f.c ++ f.b ++ f.a ++ f.d ++ f.la ++ BitVec.ofBool f.g ++ BitVec.ofBool f.n ++ f.pred ++ opc ++
    (encodeExt f.ext).1

/-- The 64 bits of a BRA or CALL (R73, R182). -/
def branchWord (opc : BitVec 8) (f : BranchFields) : Dword :=
  f.off ++ f.d ++ f.la ++ BitVec.ofBool f.g ++ BitVec.ofBool f.n ++ f.pred ++ opc ++ (1 : BitVec 2)

/-- The word of a compact instruction (R74). -/
def compactWord (opc6 : BitVec 6) (f : CompactFields) : Word := f.b ++ f.a ++ f.d ++ opc6 ++ (0 : BitVec 2)

/-- The OPC6 and fields of a compact instruction (R87). -/
def compactCode : Instr → Option (BitVec 6 × CompactFields)
  | .nopC32 f => some (0x00, f)
  | .movC32 f => some (0x01, f)
  | .addC32 f => some (0x02, f)
  | .addImmC32 f => some (0x03, f)
  | .subC32 f => some (0x04, f)
  | .andC32 f => some (0x05, f)
  | .orC32 f => some (0x06, f)
  | .xorC32 f => some (0x07, f)
  | .shlC32 f => some (0x08, f)
  | .shrC32 f => some (0x09, f)
  | .faddC32 f => some (0x0A, f)
  | .fmulC32 f => some (0x0B, f)
  | .exitC32 f => some (0x0C, f)
  | .fuseC32 f => some (0x0D, f)
  | .retC32 f => some (0x0E, f)
  | .braC32 off => some (0x0F, { b := off.extractLsb' 16 8, a := off.extractLsb' 8 8, d := off.extractLsb' 0 8 })
  | _ => none

/-- The bytes of an instruction, the first at the lowest address; events have none. -/
def encode (i : Instr) : Option (List Byte) :=
  match compactCode i with
  | some (o, f) => some (natBytes 4 (compactWord o f).toNat)
  | none =>
    match i with
    | .bra f => some (natBytes 8 (branchWord 0x50 f).toNat)
    | .call f => some (natBytes 8 (branchWord 0x53 f).toNat)
    | i => (codeOf i).map (fun e => natBytes 8 (fieldWord (BitVec.ofNat 8 e.1) e.2.1).toNat ++ (encodeExt e.2.1.ext).2)

/-- The bytes of an instruction whose bits are given as the opcode table numbers them, 16 in all. -/
def tableBytes (nbits w : Nat) : List Byte := natBytes 16 (w % 2 ^ nbits)

/-- What the decoder reads from such bits, in thread code that binds no stream port. -/
def decodeTableWord (nbits w : Nat) : Option Instr :=
  match decode Ctx.thread (tableBytes nbits w) with
  | .ok (i, _) => some i
  | .error _ => none

end Sys2Proof
end

