-- ==== Sys2Proof/Machine/Fetch.lean ====
section
/-!
DEFINITION. Fetching the instruction of the agent on turn (R68 to R71), and the smallest device on which an instruction
can be fetched: one partition with both stages of page tables, one group, one stroke.
-/
namespace Sys2Proof.Machine

/-- What the agent on turn fetches: an instruction, or a cause with the faulting address (R89 orders 1 to 3). -/
inductive Fetched where
  | instr (i : Instr)
  | trap (cause addr : Nat)
  deriving DecidableEq, Repr

/-- The bytes from a PC to the end of its 32-byte block, or the cause that the fetch meets: a share page and a page of another
kind are PROT (R69, R197). -/
def fetchBytes (s : State) (w : Who) (pc : Nat) : Except (Nat × Nat) (List Byte) :=
  match landVirtual s w { space := .G, spaces := [.G], size := 32 - pc % 32, align := 0, acc := .fetch } pc with
  | .error b => .error (if b.cause = cSHARETAG ∨ b.cause = cSPACE then cPROT else b.cause, b.addr)
  | .ok l =>
    if s.mem.anyPoison l.loc (32 - pc % 32) then .error (cPOISON, pc) else .ok (readBytes s l.loc (32 - pc % 32))

/-- Fetch and decode for the agent on turn; none if nobody is. -/
def fetch (s : State) : Option Fetched :=
  match turnEnv s 0x58 plainFields 0 with
  | none => none
  | some x =>
    match fetchBytes s { grp := x.grp, part := x.part s, core := x.core } x.pc.toNat with
    | .error e => some (.trap e.1 e.2)
    | .ok bs =>
      match decode { scribe := x.scribe, bound := boundPorts (x.group s) } bs with
      | .ok (i, _) => some (.instr i)
      | .error .truncated => some (.trap cFETCHX x.pc.toNat)
      | .error _ => some (.trap cILLENC x.pc.toNat)

/-- The turn of an agent that issues no more, because it was killed in the cycle, passes on. -/
def passTurn (s : State) : State := { s with turn := donorTurn (donorsOf s.turn) }

/-! ## The device that State.withFetchWord builds -/

/-- Where its code stands: a virtual address that both stages map to itself. -/
def codeBase : Nat := 0x8000

/-- A stage-1 and a stage-2 table entry, and leaves of 1 GiB from address 0 (R209, R210). -/
def tableEntry (at_ : Nat) : List Byte := natBytes 8 (at_ + 1)
def leaf1 : List Byte := natBytes 8 (3 + 7 * 2 ^ 57)
def leaf2 : List Byte := natBytes 8 (3 + 7 * 2 ^ 45)

/-- Its tables and code in G: stage 2 at 0x1000 and 0x2000, stage 1 at 0x3000 and 0x4000. -/
def deviceMemory (g : Memory) (code : List Byte) : Memory :=
  let g := memWrite (memWrite g 0x1000 (tableEntry 0x2000)) 0x2000 leaf2
  let g := memWrite (memWrite g 0x3000 (tableEntry 0x4000)) 0x4000 leaf1
  memWrite g codeBase code

def devicePart : Partition := { s1root := 0x3000, s2root := 0x1000 }
def deviceGroup : Group := { part := 0, launch := 0, units := 16, banks := [0, 1], cr := {} }
def deviceStroke : Stroke :=
  { group := 0, index := 0, lanes := List.replicate 32 { pc := BitVec.ofNat 64 codeBase } }
def deviceCtx : ScribeCtx := { pc := BitVec.ofNat 64 codeBase }

/-- The 128-byte lines that the tables and the code stand in. -/
def deviceLines : List Nat := [0x1000 / 128, 0x2000 / 128, 0x3000 / 128, 0x4000 / 128, codeBase / 128]

/-- What a fetch and an issue need besides them: the key slot of its pages loaded, if it is not (R214), its lines stored under no other
key and without poison marks, no translation of its partition cached, and the units of its nib free (R102). -/
def clearWay (s : State) : State :=
  { s with
    mem := { s.mem with
      keyTag := s.mem.keyTag.filter (fun e => !deviceLines.contains e.1)
      poisG := s.mem.poisG.filter (fun e => !deviceLines.contains e.1) }
    cores := s.cores.map (fun e => (e.1, { e.2 with
      tlb := e.2.tlb.filter (fun t => t.part != 0), sfu := if e.1 = 0 then listPut e.2.sfu 0 (0, 0) else e.2.sfu }))
    strokes := s.strokes.map (fun e => (e.1, if coreOf (groupOf e.1) = 0 ∧ e.1 % 4 = 0 then { e.2 with busy := [] } else e.2))
    shared := s.shared.map (fun e => (e.1, e.2.filter (fun t => t.part != 0)))
    sys := if keyLoad s 0 = 0 then { s.sys with keys := mapPut s.sys.keys 0 (s.sys.keyLoads + 1), keyLoads := s.sys.keyLoads + 1 } else s.sys }

/-- The state with that device and the code on it, its stroke on turn, or its scribe context for an instruction that only
the scribe executes. -/
def withCode (s : State) (scribe : Bool) (code : List Byte) : State :=
  let s := clearWay s
  { s with
    turn := if scribe then .ctx 0 else .pathA 0 allLanes 0 []
    mem := { s.mem with g := deviceMemory s.mem.g code }
    parts := mapPut s.parts 0 devicePart
    groups := mapPut s.groups 0 deviceGroup
    strokes := mapPut s.strokes 0 deviceStroke
    ctxs := mapPut s.ctxs 0 deviceCtx }

/-- Does an instruction run on the scribe alone (R89)? -/
def onScribe (i : Instr) : Bool := match codeOf i with
  | some (opc, _, _) => scribeOnly opc
  | none => false

end Sys2Proof.Machine
end

