-- ==== Sys2Proof/Machine/Peer.lean ====
section
/-!
DEFINITION. PST, PSIG and PWAIT (R350 to R354), and the events of Inkline: PEER_STORE_ARRIVAL, SIGNAL_SEND, SIGNAL_ARRIVAL,
PEER_ACK, LINK_REPLAY, PORT_DOWN, ROUTE_TIMEOUT, PWAIT_POLL and TIME_SAMPLE (R347 to R349).
-/
namespace Sys2Proof.Machine

/-! ## Instructions -/

/-- The address of a lane: an offset never changes the device of a peer address (R350). -/
def peerEa (s : State) (x : Env) (l : Nat) : Nat := opA s x l / 2 ^ 56 * 2 ^ 56 + eaOf s x l % 2 ^ 56

/-- The checks of peer addresses, in the order of R213: alignment, the space, the peer table. -/
def peerBad (x : Env) (s : State) (spaces : List Space) (ls : List Nat) : Option (Bad × Mask) :=
  let n := x.ty.size
  firstBad (ls.map (fun l =>
    let a := peerEa s x l
    (l,
      if a % n ≠ 0 then .error ⟨2, cMISALIGN, a, .store⟩
      else if spaces.contains (spaceOf x.f) = false then .error ⟨3, cSPACE, a, .store⟩
      else if (peerPart s (x.part s) (peerDev a)).isNone then .error ⟨4, cPROT, a, .store⟩
      else .ok { loc := { home := .g, addr := 0 }, range := { home := .g, part := 0, lo := 0, hi := 0 } })))

/-- A store of one lane sent to another device's memory, and remembered as its stroke's. -/
def sendStore (s : State) (x : Env) (part l : Nat) (bs : List Byte) : State :=
  let a := peerEa s x l
  let q := sendFlit s part (peerDev a) (.store (peerVa a) bs)
  q.1.modLink (fun k => { k with sentBy := k.sentBy ++ [(q.2, x.agent)] })

/-- Does the send queue lack credit for a device that the lanes name (R352)? -/
def sendShut (s : State) (x : Env) (ls : List Nat) : Bool :=
  ls.any (fun l => !sendRoom s (peerDev (peerEa s x l)) (ls.filter (fun k => peerDev (peerEa s x k) == peerDev (peerEa s x l))).length)

/-- What a PST writes to other cores, line by line in the order of its lanes: to one line its lanes make one remote write (R201, R352). -/
def remotePieces (part : Nat) (ws : List (Loc × List Byte)) : List FifoEntry :=
  ((ws.map (fun w => w.1.line)).eraseDups).map (fun i =>
    .remote (coreOfLine i) ((ws.filter (fun w => w.1.line == i)).map (fun w => (w.1.addr, w.2))) part none)

/-- PST (R352). -/
def bodyPst (x : Env) (s : State) : Verdict :=
  let n := x.ty.size
  let ls := x.workers s
  if spaceOf x.f = .P then
    match checkEach s x (x.want [.P, .G] n .store) noBad (ls.map (fun l => (l, eaOf s x l, n))) with
    | .error b => trapBad b
    | .ok as => plain (enqueue s x (remotePieces (x.part s) (as.map (fun a => (a.2.loc, natBytes n (opD s x a.1.1))))))
  else match peerBad x s [.P, .G] ls with
    | some b => trapBad b
    | none =>
      if sendShut s x ls then .hold
      else plain (ls.foldl (fun t l => sendStore t x (x.part s) l (natBytes n (opD s x l))) s)

def execPst (f : Fields) (s : State) : Host.Outcome State Fault Refusal := issue 0xD0 f (fieldsLen f) bodyPst s

/-- Is a signal of a partition to a word not acknowledged yet (R353)? -/
def signalOpen (s : State) (part dev va : Nat) : Bool :=
  s.link.signals.any (fun g => g.part == part && g.dev == dev && g.va == va)

/-- A signal put into the hub: it takes the word's next stamp, and waits for its stroke's stores before it. -/
def raiseSignal (s : State) (a : AgentId) (part dev va addend : Nat) : State :=
  let mine (e : Nat × Nat × Nat × Nat) : Bool := e.1 == part && e.2.1 == dev && e.2.2.1 == va
  let stamp := (s.link.stamps.find? mine).elim 0 (·.2.2.2)
  let g : Signal :=
    { id := s.nextId, part := part, dev := dev, to_ := (peerPart s part dev).getD 0, va := va, addend := BitVec.ofNat 64 addend, stamp := BitVec.ofNat 16 stamp
      behind := storesTo s a part dev }
  { s.modLink (fun k => { k with
      signals := k.signals ++ [g]
      stamps := k.stamps.filter (fun e => !mine e) ++ [(part, dev, va, (stamp + 1) % 2 ^ 16)] }) with nextId := s.nextId + 1 }

/-- PSIG (R353): lanes that name one word make one signal; words go in the order of their lowest lanes. It waits before issue while a signal
to one of its words is unacknowledged. -/
def bodyPsig (x : Env) (s : State) : Verdict :=
  let ls := x.workers s
  match peerBad x s [.G] ls with
  | some b => trapBad b
  | none =>
    let words := (ls.map (peerEa s x)).eraseDups
    match words.find? (fun a => signalOpen s (x.part s) (peerDev a) (peerVa a)) with
    | some _ => .hold
    | none => plain (words.foldl (fun t a =>
        let sum := (ls.filter (fun l => peerEa s x l == a)).foldl (fun n l => n + opD s x l) 0
        raiseSignal t x.agent (x.part s) (peerDev a) (peerVa a) (sum % 2 ^ 64)) s)

def execPsig (f : Fields) (s : State) : Host.Outcome State Fault Refusal := issue 0xD1 f (fieldsLen f) bodyPsig s

/-- PWAIT (R354). -/
def bodyPwait (x : Env) (s : State) : Verdict :=
  let l0 := (lowest x.act).getD 0
  match checkEach s x (x.want [.G] 8 .load) noBad [(l0, eaOf s x l0, 8)] with
  | .error b => .trap b.1.cause x.act 0 b.1.addr b.1.acc.code
  | .ok [] => plain s
  | .ok (a :: _) =>
    let d := opD s x l0
    let (t, q) := settle s x [(a.2.loc, 8)]
    if t.mem.anyPoison a.2.loc 8 then trapLanes cPOISON x.act
    else if d ≤ bytesNat (loadBytes t q a.2.loc 8) then plain t
    else .parkIn (.pwait a.2.loc (BitVec.ofNat 64 d) x.path x.len) t

def execPwait (f : Fields) (s : State) : Host.Outcome State Fault Refusal := issue 0xD2 f (fieldsLen f) bodyPwait s

/-- PWAIT_POLL: a read of the word that finds the condition true lets the stroke go on. -/
def execPwaitPoll (stroke : Nat) (s : State) : Host.Outcome State Fault Refusal :=
  match s.stroke? stroke with
  | some st => match st.park with
    | some (.pwait l d m len) =>
      if d.toNat ≤ bytesNat (loadBytes s st.fifo l 8) then .next (s.modStroke stroke (fun st => parkPass st m len)) else .next s
    | _ => .next s
  | none => .next s

/-! ## At the target (R348, R350, R353) -/

/-- A beat of a result, or its end, comes to a member: it is held until the member's own chunk has fired (R358); one that the member has
given up is discarded (R360). -/
def takeResult (s : State) (part va : Nat) (f : Flit) : State :=
  if s.link.missed.contains (part, va) then
    ackFlit (if resultEnd f then s.modLink (fun k => { k with missed := k.missed.erase (part, va) }) else s) f
  else s.modLink (fun k => { k with held := k.held ++ [f], inbox := k.inbox.filter (· != f) })

/-- A peer store, a copy beat or collective control applied at the target. -/
def applyPeer (s : State) (f : Flit) : State :=
  match targetPart s f with
  | none => dropPeer s none f
  | some p =>
    let write (va : Nat) (bs : List Byte) : State :=
      match peerReach s p va bs.length .store with
      | .error (.hold b) => flitFault s p f b
      | .error .gone => dropPeer s (some p) f
      | .ok ls => ackFlit (received (writeMarked s ls bs f.poison) f) f
    match f.body with
    | .store va bs => write va bs
    | .beat va bs of =>
      if lateSlot s p f.src va then ackFlit (received s f) f
      else match peerReach s p va bs.length .store with
        | .error (.hold b) => flitFault s p f b
        | .error .gone => dropPeer s (some p) f
        | .ok ls => ackFlit (received (landHalf (writeMarked s ls bs f.poison) f va of ls) f) f
    | .tile va _ _ => takeResult (received s f) p va f
    | .control va bs =>
      if isResult bs then takeResult (received s f) p va f
      else
        let q := announce s p va bs
        let t := if q.2 then q.1.modLink (fun k => { k with late := k.late ++ [(f.src, f.part, f.tseq)] }) else q.1
        ackFlit (received t f) f q.2
    | .signal _ _ _ | .ack _ _ | .idle => s

/-- A flit that has come from another device stands in the hub until it has been applied; its line has poison if it failed a check at the
hand-over (R347, R392). -/
def takeIn (s : State) (f : Flit) (by_ : Option Came) : State × Flit :=
  match by_ with
  | none => (s, f)
  | some c =>
    let g := { f with poison := f.poison || c.spoiled }
    let t := s.modLink (fun k => { k with inbox := k.inbox ++ [g] })
    (if c.spoiled then countUp t f.to_ 3 1 else t, g)

/-- What stands in the hub is applied: each transport number once, in ascending order; one that was applied already is only acknowledged
again. -/
def applyInOrder (s : State) (f : Flit) : State :=
  let seen := mapGet s.link.rx (linkKey f.src f.part) 0
  if newer seen f.tseq then (if heldBefore s f then s else applyPeer s f)
  else if s.link.held.any (fun g => g.src == f.src && g.part == f.part && g.tseq == f.tseq) then
    s.modLink (fun k => { k with inbox := k.inbox.filter (· != f) })
  else ackFlit s f (s.link.late.contains (f.src, f.part, f.tseq))

/-- PEER_STORE_ARRIVAL: by a port, or from this device or what stands in the hub. An idle flit, for whatever device, brings its LACK alone (R346). -/
def execPeerStoreArrival (a : Arrival) (s : State) : Host.Outcome State Fault Refusal :=
  if flitKind a.flit.body = 0 then .next (a.by_.elim s (idleIn s))
  else if a.flit.dst ≠ s.link.dev ∨ flitKind a.flit.body = 2 ∨ flitKind a.flit.body = 4 then .next s
  else
    let q := linkIn s a.by_
    if q.2 then
      let r := takeIn q.1 a.flit a.by_
      .next (applyInOrder r.1 r.2)
    else .next q.1

/-- SIGNAL_SEND: a signal goes out once every store before it to its device is acknowledged. -/
def execSignalSend (id : Nat) (s : State) : Host.Outcome State Fault Refusal :=
  match s.link.signals.find? (fun g => g.id == id) with
  | some g =>
    if g.sent || g.behind.any (fun f => s.link.out.contains f) then .next s
    else
      let f : Flit :=
        { src := s.link.dev, dst := g.dev, part := g.part, to_ := g.to_, tseq := g.stamp.zeroExtend 32, body := .signal g.va g.addend g.stamp }
      .next (transmit (s.modLink (fun k => { k with
        out := k.out ++ [f], signals := k.signals.map (fun h => if h.id = id then { h with sent := true } else h) })) f)
  | none => .next s

/-- A signal that stands in the hub is applied, once for a stamp that the target still holds. -/
def applySignal (s : State) (f : Flit) (va : Nat) (add : Dword) (stamp : BitVec 16) : State :=
  let mine (e : Nat × Nat × Nat × Nat) : Bool := e.1 == f.src && e.2.1 == f.part && e.2.2.1 == va
  let drop (p : Option Nat) : State :=
    ackFlit (match p with
      | some p => countUp s p 7 1
      | none => s) f
  if s.link.applied.any (fun e => mine e && e.2.2.2 == stamp.toNat) then ackFlit s f
  else match targetPart s f with
    | none => drop none
    | some p =>
      if va % 8 ≠ 0 then drop (some p)
      else match peerReach s p va 8 .atomic with
        | .error (.hold b) => flitFault s p f b
        | .error .gone => drop (some p)
        | .ok ls =>
          let t := writeMarked s ls (natBytes 8 ((bytesNat (readPlaces s ls) + add.toNat) % 2 ^ 64)) f.poison
          ackFlit (t.modLink (fun k => { k with
            applied := k.applied.filter (fun e => !mine e) ++ [(f.src, f.part, va, stamp.toNat)] })) f

/-- SIGNAL_ARRIVAL. -/
def execSignalArrival (a : Arrival) (s : State) : Host.Outcome State Fault Refusal :=
  match a.flit.body with
  | .signal va add stamp =>
    if a.flit.dst ≠ s.link.dev then .next s
    else
      let q := linkIn s a.by_
      if q.2 then
        let r := takeIn q.1 a.flit a.by_
        .next (applySignal r.1 r.2 va add stamp)
      else .next q.1
  | _ => .next s

/-! ## At the sender -/

/-- A beat of a CPYM or of a chunk's copy has been acknowledged; late says that the copy's contribution came after the fold. -/
def beatAcked (s : State) (f : Flit) (late : Bool) : State :=
  match s.link.copyOf.find? (fun e => e.1 == f) with
  | some (_, c, i) =>
    let n := match f.body with
      | .beat _ bs _ => bs.length
      | _ => 0
    (modDest s c i (fun d => { d with landed := d.landed + n, code := if late then 5 else d.code })).modLink (fun k =>
      { k with copyOf := k.copyOf.filter (fun e => e.1 != f) })
  | none => s

/-- An outstanding flit is acknowledged; the sender of a signal confirms that it knows. A group that waited for it alone is released (R390). -/
def acknowledge (s : State) (f : Flit) (late : Bool) : State :=
  let s := s.modLink (fun k => { k with
    out := k.out.filter (· != f)
    sentBy := k.sentBy.filter (fun e => e.1 != f)
    acks := if f.dst = k.dev then k.acks.filter (fun a => a.1 != f) else k.acks
    signals := match f.body with
      | .signal va _ st => k.signals.filter (fun g => !(g.sent && g.dev == f.dst && g.part == f.part && g.va == va && g.stamp == st))
      | _ => k.signals
    applied := match f.body with
      | .signal va _ st => if f.dst = k.dev then k.applied.filter (fun e => e != (f.src, f.part, va, st.toNat)) else k.applied
      | _ => k.applied })
  sweepReleased (chunkAcked (beatAcked s f late) f)

/-- PEER_ACK of a flit: it is outstanding here, and comes by a port or from this device. -/
def execPeerAck (a : Ack) (s : State) : Host.Outcome State Fault Refusal :=
  let q := linkIn s a.by_
  if q.2 && s.link.out.contains a.flit && (a.flit.dst != s.link.dev || s.link.acks.contains (a.flit, a.late)) then
    .next (acknowledge q.1 a.flit a.late)
  else .next q.1

/-! ## Ports and routes (R347, R348) -/

/-- A port is down: what it carried waits for another route. -/
def portDown (s : State) (port : Nat) : State :=
  let devs := (s.link.routes.filter (fun e => e.2 == port)).map (·.1)
  s.modLink (fun k => { k.modPort port (fun p => { p with up := false, retry := [], waiting := [], fails := 0 }) with
    routes := k.routes.filter (fun e => e.2 != port)
    noRoute := devs.foldl (fun m d => if (mapGet? m d).isSome then m else mapPut m d s.ns) k.noRoute })

/-- PORT_DOWN. -/
def execPortDown (port : Nat) (s : State) : Host.Outcome State Fault Refusal := .next (if running s then portDown s port else s)

/-- LINK_REPLAY: the far end has refused the flit with a link sequence number; what it had in order before has left the buffer, and the rest
goes again. A refusal after eight replays in a row takes the port down. -/
def execLinkReplay (port : Nat) (lseq : BitVec 16) (s : State) : Host.Outcome State Fault Refusal :=
  match s.link.ports[port]? with
  | some p =>
    if p.up && p.retry.any (fun r => r.1 == lseq) then
      if 8 ≤ p.fails then .next (portDown s port)
      else .next (s.modLink (fun k => k.modPort port (fun p => { p.covered (lseq - 1) with fails := p.fails + 1 })))
    else .next s
  | none => .next s

/-- A route set by firmware: what is outstanding to the device is sent again, in transport order (R348). -/
def setRoute (s : State) (dev : Nat) (port : Option Nat) : State :=
  match port with
  | none => s.modLink (fun k => { k with routes := mapDel k.routes dev, noRoute := mapPut k.noRoute dev s.ns })
  | some p =>
    let s := s.modLink (fun k => { k with routes := mapPut k.routes dev p, noRoute := mapDel k.noRoute dev })
    (s.link.out.filter (fun f => f.dst == dev)).foldl transmit s

/-- Destinations on a device that has no route end with FAULT, of a chunk's copy too if what announces it was under way (R348). -/
def failCopiesTo (s : State) (dev : Nat) : State :=
  (mapCopies s (fun c => match c.kind with
    | .mcast true _ | .fire _ _ _ _ => { c with dests := c.dests.map (fun d =>
        if d.dev = dev ∧ (d.landed < c.len ∨ s.link.copyOf.any (fun e => e.1.dst == dev && e.2.1 == c.id)) then
          { d with code := 1, stopped := true } else d) }
    | _ => c)).modLink (fun k => { k with copyOf := k.copyOf.filter (fun e => e.1.dst != dev) })

/-- ROUTE_TIMEOUT: no route within 10 ms. -/
def execRouteTimeout (dev : Nat) (s : State) : Host.Outcome State Fault Refusal :=
  match mapGet? s.link.noRoute dev with
  | some t =>
    if (routeOf s dev).isNone && decide (t + 10000000 ≤ s.ns) then
      let lost := s.link.out.filter (fun f => f.dst == dev)
      let s := lost.foldl chunkAcked (dropOutstanding s dev)
      .next (sweepReleased ((failCopiesTo s dev).modLink (fun k => { k with noRoute := mapDel k.noRoute dev })))
    else .next s
  | none => .next s

/-- TIME_SAMPLE (R349): device time never decreases; held says whether the bound of 50 ns holds. -/
def execTimeSample (remote : Dword) (held : Bool) (s : State) : Host.Outcome State Fault Refusal :=
  .next { s with ns := if held then max s.ns remote.toNat else s.ns, sys := { s.sys with timeLost := !held } }

end Sys2Proof.Machine
end

