-- ==== Sys2Proof/Machine/System.lean ====
section
/-!
DEFINITION. The control registers (R189 to R191) and TRAP, BKPT and RTE (R192, R193).
-/
namespace Sys2Proof.Machine

/-! ## Reading control registers -/

/-- A control register as lane l reads it (R189), as it stood before the cycle (R101); partition-scope ones from the group's copy (R191). -/
def crRead (s : State) (x : Env) (l n : Nat) : Nat :=
  let gr := x.group s
  let st := x.was.st
  let cr := x.was.cr
  let p := s.part? gr.part
  match n with
  | 0x00 => if x.scribe then 0 else (fpmWord st.rm st.ftz st.amemBit ((st.lanes[l]?).getD {}).sticky).toNat
  | 0x01 => cr.nbvVer + gr.nbv * 256
  | 0x02 => cr.cvto
  | 0x03 => x.was.coin.toNat
  | 0x04 => cr.mtab.toNat
  | 0x05 => cr.mtabSz.toNat
  | 0x06 => cr.convArena.toNat
  | 0x07 => cr.dispFault.toNat
  | 0x08 => cr.trapBase.toNat
  | 0x09 => if x.scribe then 0 else st.cause.toNat
  | 0x0A => if x.scribe then 0 else st.addr.toNat
  | 0x0B => if x.scribe then 0 else st.mask.toNat
  | 0x0C => p.elim 0 (fun p => p.gtime s.ns % 2 ^ 64)
  | 0x0D => p.elim 0 (fun p => p.stolenAt s.ns % 2 ^ 64)
  | 0x0E => cr.sess
  | 0x0F => gr.part
  | _ => 0

/-- CSRR (R190). -/
def execCsrr (f : Fields) (s : State) : Host.Outcome State Fault Refusal :=
  issue 0xE2 f (fieldsLen f) (fun x s => results x s (fun l => (crRead s x l x.f.b.toNat, 0))) s

/-! ## Writing control registers -/

/-- The bits of a register that a write sets; the others are reserved (R4, R24, R41, R44, R368 to R370). -/
def crMask (n : Nat) : Nat :=
  match n with
  | 0x04 => 0xFFFFFFFFFFFFFFE0
  | 0x06 => 0xFFFFFFFFFFFFFF1F
  | 0x07 => 0xFFFFFFFFFFFFFF80
  | 0x08 => 0xFFFFFFFFFFFFFFFD
  | 0x09 => 0x01FF00FF
  | 0x0A => 0xFFFFFFFFFFFFFFFC
  | 0x0B | 0x03 | 0x05 => 0xFFFFFFFF
  | _ => 0

/-- A partition-scope register in a set of them. -/
def PartCr.put (c : PartCr) (n : Nat) (v : Nat) : PartCr :=
  match n with
  | 0x04 => { c with mtab := BitVec.ofNat 64 v }
  | 0x05 => { c with mtabSz := BitVec.ofNat 32 v }
  | 0x06 => { c with convArena := BitVec.ofNat 64 v }
  | 0x07 => { c with dispFault := BitVec.ofNat 64 v }
  | 0x08 => { c with trapBase := BitVec.ofNat 64 v }
  | _ => c

/-- A write of CR.FPM (R117, R191): the stroke's fields from the lowest active lane, sticky bits lane by lane. -/
def fpmWrite (x : Env) (s : State) : State :=
  let val (l : Nat) : Word := BitVec.ofNat 32 (opC s x l)
  let first := val ((lowest x.act).getD 0)
  s.modStroke x.key (fun st =>
    let st := { st with
      rm := rmWritten st.rm first
      ftz := first.getLsbD 3
      amemBit := st.amemBit && !x.lanes.any (fun l => (val l).getLsbD 16) }
    st.modLanes x.act (fun l y => { y with sticky := stickyWritten y.sticky (val l) }))

/-- CSRW (R191). A write of a partition-scope register acts for the partition and for the writing group. -/
def bodyCsrw (x : Env) (s : State) : Verdict :=
  let n := x.f.b.toNat
  let v := opC s x ((lowest x.act).getD 0) &&& crMask n
  plain (match n with
    | 0x00 => fpmWrite x s
    | 0x03 => s.modGroup x.grp (fun gr => { gr with coin := BitVec.ofNat 32 v })
    | 0x09 => s.modStroke x.key (fun st => { st with cause := BitVec.ofNat 32 v })
    | 0x0A => s.modStroke x.key (fun st => { st with addr := BitVec.ofNat 64 v })
    | 0x0B => s.modStroke x.key (fun st => { st with mask := BitVec.ofNat 32 v })
    | n =>
      (s.modGroup x.grp (fun gr => { gr with cr := gr.cr.put n v })).modPart (x.part s)
        (fun p => { p with cr := p.cr.put n v }))

def execCsrw (f : Fields) (s : State) : Host.Outcome State Fault Refusal := issue 0xE3 f (fieldsLen f) bodyCsrw s

/-! ## TRAP, BKPT, RTE -/

/-- TRAP and BKPT (R192): the active lanes, with the code of C. -/
def softwareTrap (cause : Nat) (x : Env) (_ : State) : Verdict := .trap cause x.act (x.f.c.toNat % 256) 0 0

def execTrap (f : Fields) (s : State) : Host.Outcome State Fault Refusal :=
  issue 0xE0 f (fieldsLen f) (softwareTrap cSWTRAP) s
def execBkpt (f : Fields) (s : State) : Host.Outcome State Fault Refusal :=
  issue 0xE4 f (fieldsLen f) (softwareTrap cBKPT) s

/-- RTE (R193, R372). -/
def bodyRte (x : Env) (s : State) : Verdict :=
  let t := returnFromTrap s x.key
  .commit { st := t, jumps := (lanesOf x.path).map (fun l => (l, (laneOf t x.key l).pc)) }

def execRte (f : Fields) (s : State) : Host.Outcome State Fault Refusal := issue 0xE1 f (fieldsLen f) bodyRte s

end Sys2Proof.Machine
end

