-- ==== Sys2Proof/Machine/Issue.lean ====
section
/-!
DEFINITION. The nibs and the scribe: readiness (R95, R253), the active set (R96 to R98), the choice of paths and aging (R100,
R103), quad merging (R104, R105), instruction-cache fills (R69, R70); the completion of long-latency instructions (R78), the draining of store FIFOs
(R223), translation caches (R212) and the polling of WAITM (R243).
-/
namespace Sys2Proof.Machine

/-! ## Instruction cache and translation caches -/

/-- The key of a code line in an instruction cache. -/
def codeLine (part pc : Nat) : Nat := part * 2 ^ 57 + pc % 2 ^ 64 / 128

/-- Lines that an instruction cache holds: 64 KiB of 128 bytes (R69). -/
def icacheLines : Nat := 512

/-- ICACHE_FILL: a line arrives, and the oldest leaves a full cache. -/
def execIcacheFill (core line : Nat) (s : State) : Host.Outcome State Fault Refusal :=
  if (s.core core).icache.contains line then .next s
  else .next (s.modCore core (fun c => { c with icache := c.icache.drop (c.icache.length + 1 - icacheLines) ++ [line] }))

/-- A translation in a cache of n entries, the oldest leaving a full one. -/
def cacheEntry (n : Nat) (e : TlbEntry) (l : List TlbEntry) : List TlbEntry :=
  let l := l.filter (fun f => !(f.part == e.part && f.va == e.va && f.size == e.size))
  l.drop (l.length + 1 - n) ++ [e]

/-- WALK_COMPLETE: a walk of both stages fills the core's and its cluster's cache; a walk that faults fills nothing. -/
def execWalkComplete (part core : Nat) (va : Dword) (s : State) : Host.Outcome State Fault Refusal :=
  match walkPage s part va.toNat with
  | .error _ => .next s
  | .ok e =>
    let s := s.modCore core (fun c => { c with tlb := cacheEntry 64 e c.tlb })
    let k := clusterOf core
    .next { s with shared := mapPut s.shared k (cacheEntry 8192 e (mapGet s.shared k [])) }

/-- A partition's translations gone from every cache. -/
def invalidate (s : State) (part : Nat) : State :=
  let keep (l : List TlbEntry) : List TlbEntry := l.filter (fun e => e.part != part)
  { s with
    cores := s.cores.map (fun e => (e.1, { e.2 with tlb := keep e.2.tlb }))
    shared := s.shared.map (fun e => (e.1, keep e.2)) }

/-- TLB_INVALIDATE. -/
def execTlbInvalidate (part : Nat) (s : State) : Host.Outcome State Fault Refusal := .next (invalidate s part)

/-! ## Readiness (R95) -/

/-- Has what a stroke is parked on resolved, so that its instruction issues afresh? -/
def parkOver (s : State) (k : Nat) (st : Stroke) : Park → Bool
  | .presence _ lines => lines.all s.present
  | .waitm .. | .pwait .. | .baton .. => false
  | .future f => !(st.regs.fGet f).isPending
  | .slotFull i => slotFut s st.group i == .empty
  | .slotEmpty i => slotFut s st.group i != .empty
  | .pop port m seq => match (s.group? st.group).bind (fun g => bindingOf g (port - 252)) with
    | some b =>
      let v := ringView s st.group b
      v.broken || ((decide (m ≤ v.count) || v.closed) &&
        !(match ringLoc s st.group b 0 with
          | some r => ringBehind s false r seq k
          | none => false))
    | none => true
  | .push port m seq => match (s.group? st.group).bind (fun g => bindingOf g (port - 252)) with
    | some b =>
      let v := ringView s st.group b
      (match ringLoc s st.group b 0 with
      | some r => v.broken || v.closed || (decide (v.count + reservedIn s r + m ≤ b.cap) && !ringBehind s true r seq k)
      | none => true)
    | none => true
  | .queue need => roomFor s ((s.group? st.group).elim 0 (·.part)) need
  | .closing port => match (s.group? st.group).bind (fun g => bindingOf g (port - 252)) with
    | some b => (match ringLoc s st.group b 0 with
      | some r => !pushesOut s r k
      | none => true)
    | none => true
  | .fence sy => !releaseWaits s (.stroke k) sy
  | .locked | .cue => true

/-- Does a partition issue nothing on a core: switched out of it, or FAILED (R377, R378)? -/
def halted (s : State) (part core : Nat) : Bool := away s part core || (s.part? part).elim true (·.failed)

/-- A stroke that issues nothing now whatever its lanes' state: its partition is halted, or it is parked, stopped by a trap or
a fault, busy at a slow unit, killed or retired. -/
def stopped (s : State) (k : Nat) (st : Stroke) : Bool :=
  halted s ((s.group? st.group).elim 0 (·.part)) (coreOf st.group) ||
  st.park.any (fun p => !parkOver s k st p) || st.trap.isSome || !st.async.isEmpty || st.fault.isSome || !st.busy.isEmpty ||
    st.killed || st.retired

/-- The instruction that a lane of a stroke would issue next, if one stands at its PC (R89): only for such a one does it wait. -/
def planAt (s : State) (k l : Nat) : Option Env :=
  let t := { s with turn := .pathA k (laneBit l) 0 [] }
  match fetch t with
  | some (.instr i) => match issueCode i with
    | some (opc, f, len) => (turnEnv t opc f len).bind (fun x => if (bitsCause t x).isNone then some x else none)
    | none => none
  | _ => none

/-- What keeps each live lane of a stroke that waits at no meeting point from issuing (R95); each PC is decoded once. -/
def hazardsOf (s : State) (k : Nat) (st : Stroke) : List (Nat × Option Hazard) :=
  let free := (lanesOf (liveMask st)).filter (fun l => ((st.lanes[l]?).getD {}).wait == .none)
  let pc (l : Nat) : Dword := ((st.lanes[l]?).getD {}).pc
  let plans : List (Dword × Option Env) := (free.map pc).eraseDups.map (fun p =>
    (p, (free.find? (fun l => pc l == p)).bind (planAt s k)))
  free.map (fun l => (l,
    if windowShut st.inflight l then some .window
    else ((plans.find? (fun q => q.1 == pc l)).bind (·.2)).bind (fun x => laneHazard s x l)))

/-- The eligible lanes of a stroke (R95). -/
def eligible (s : State) (k : Nat) : Mask :=
  match s.stroke? k with
  | some st =>
    if stopped s k st then 0
    else
      let hs := hazardsOf s k st
      maskOf (fun l => hs.any (fun h => h.1 == l && h.2.isNone))
  | none => 0

/-- The lanes of a mask whose code line the core holds (R69). -/
def fetchable (s : State) (k : Nat) (m : Mask) : Mask :=
  match s.stroke? k with
  | some st =>
    let held := (s.core (coreOf st.group)).icache
    let part := (s.group? st.group).elim 0 (·.part)
    m &&& maskOf (fun l => held.contains (codeLine part ((st.lanes[l]?).getD {}).pc.toNat))
  | none => 0

/-- Does a lane that waits so, wait for a lookahead window or a park condition (R95, R97)? A register, one that a signature locks among
them (R279), the limit of 8, a bank's scoreboard (R287) and an acquire are neither. -/
def Hazard.parks : Hazard → Bool
  | .window | .future => true
  | .limit | .register | .lock | .banks | .acquire => false

/-- Does a stroke that is not ready leave the active set (R97)? -/
def leaves (s : State) (k : Nat) : Bool :=
  match s.stroke? k with
  | some st =>
    eligible s k == 0 && (st.park.isSome || st.fault.isSome ||
      (lanesOf (liveMask st)).any (fun l => match ((st.lanes[l]?).getD {}).wait with
        | .bar _ _ | .barEarly _ _ => true
        | .none | .fuse _ _ => false) ||
      (hazardsOf s k st).any (fun h => h.2.any Hazard.parks))
  | none => false

/-! ## The active set (R96 to R98) -/

def nibList (l : List (List Nat)) (nib : Nat) : List Nat := (l[nib]?).getD []

/-- The sets of a nib changed. -/
def setNib (s : State) (core nib : Nat) (active pending : List Nat) : State :=
  s.modCore core (fun c => { c with active := listPut c.active nib active, pending := listPut c.pending nib pending })

/-- A stroke enters the active set, now. -/
def stamp (s : State) (k : Nat) : State := s.modStroke k (fun st => { st with entered := s.cycle, yielded := false })

/-- A stroke's last pick, and its last pick or entry into the active set (R96). -/
def lastPickOf (s : State) (k : Nat) : Nat := (s.stroke? k).elim 0 (·.lastPick)
def lastSeenOf (s : State) (k : Nat) : Nat := (s.stroke? k).elim 0 (fun st => max st.lastPick st.entered)

/-- Does a stroke of the pending FIFO stand in it ready: one of its lanes is eligible, or it has yielded (R97)? -/
def pendingReady (s : State) (k : Nat) : Bool := eligible s k != 0 || (s.stroke? k).any (·.yielded)

/-- For how long the first ready stroke of a nib's pending FIFO has waited for a place. -/
def setWait (s : State) (core nib : Nat) (w : Option (Nat × Nat)) : State :=
  s.modCore core (fun c => { c with waits := listPut c.waits nib w })

/-- ACTIVE_SET_ENTRY: the first ready stroke of the pending FIFO takes a free place; where none is free, its waiting is noted, and
after 4 cycles a stroke of the active set goes in its place: one that is not ready, of several that whose last pick lies furthest back
(DESIGN CHOICE, log 30: R98 names none), else of the ready ones that. -/
def execActiveSetEntry (core nib : Nat) (s : State) : Host.Outcome State Fault Refusal :=
  let c := s.core core
  let act := nibList c.active nib
  let pend := nibList c.pending nib
  match pend.find? (pendingReady s) with
  | none => .next (if ((c.waits[nib]?).getD none).isNone then s else setWait s core nib none)
  | some k =>
    let rest := pend.filter (fun j => j != k)
    if act.length < Config.activePlaces then .next (setWait (stamp (setNib s core nib (act ++ [k]) rest) k) core nib none)
    else match (c.waits[nib]?).getD none with
      | some (j, since) =>
        if j ≠ k then .next (setWait s core nib (some (k, s.cycle)))
        else if s.cycle < since + 4 then .next s
        else
          match leastBy (fun j => [if eligible s j = 0 then 0 else 1, lastPickOf s j]) act with
          | none => .next s
          | some out =>
            .next (setWait (stamp (setNib s core nib (act.filter (fun j => j != out) ++ [k]) (rest ++ [out])) k) core nib none)
      | none => .next (setWait s core nib (some (k, s.cycle)))

/-! ## Paths (R100, R103) -/

def pcOf (st : Stroke) (l : Nat) : Nat := ((st.lanes[l]?).getD {}).pc.toNat

/-- The lanes of a mask at its lowest PC. -/
def lowestPath (st : Stroke) (m : Mask) : Mask :=
  match (lanesOf m).map (pcOf st) with
  | [] => 0
  | p :: ps =>
    let low := ps.foldl min p
    maskOf (fun l => m.getLsbD l && pcOf st l == low)

/-- The lanes of a mask at the PC at which another mask's lowest path stands. -/
def joined (st : Stroke) (m low : Mask) : Mask :=
  match lowest low with
  | some l => maskOf (fun i => m.getLsbD i && pcOf st i == pcOf st l)
  | none => 0

/-- Paths A and B among eligible lanes (R100, R103). -/
def pathsOf (st : Stroke) (m : Mask) : Mask × Mask :=
  let old (m : Mask) : Mask := maskOf (fun l => m.getLsbD l && decide (64 ≤ ((st.lanes[l]?).getD {}).aging))
  let next (m : Mask) : Mask := joined st m (lowestPath st (if old m = 0 then m else old m))
  let a := next m
  (a, next (m &&& ~~~ a))

/-! ## ISSUE_SLOT (R96) -/

/-- The key by which a nib picks among ready strokes. The stroke storage index of R96 is not described further: DESIGN CHOICE (log 30), it
orders as the stroke's key does, by group slot and then by stroke number. -/
def pickKey (s : State) (k : Nat) : List Nat :=
  let last := lastSeenOf s k
  if last + 256 ≤ s.cycle then [0, last, k] else [1, (s.group? (groupOf k)).elim 4 (·.cls), last, k]

/-- A stroke whose instruction issues afresh: its park is over; a stream operation keeps its place among those of its ring. -/
def Stroke.resumed (st : Stroke) : Stroke := { st with
  park := match st.park with
    | some (.pop p m q) => some (.pop p m q)
    | some (.push p m q) => some (.push p m q)
    | _ => none }

/-- Instructions that read or write across the whole stroke, or act once for it at a shared unit, into which no quads are merged and
to which none are donated (R105): SHFL, VOTE, RED, REDX, SCAN, PMOV, QNT4, DQN4, the summaries, SMASK, SXCH, SREV. -/
def neverMerged (opc : Nat) : Bool :=
  [0x35, 0x36, 0x41, 0x42, 0x43, 0x45, 0x46, 0x47, 0xC3, 0xC4, 0xC9].contains opc || (decide (0xB0 ≤ opc) && decide (opc ≤ 0xB7))

/-- The lanes of quad q. -/
def quadMask (q : Nat) : Mask := BitVec.ofNat 32 (15 * 2 ^ (4 * q))

/-- The quads of a mask, in ascending order. -/
def quadsOf (m : Mask) : List Nat := (List.range 8).filter (fun q => m &&& quadMask q != 0)

/-- The donor quads that stroke j offers to an instruction at a PC (R104): the stroke's own path A stands at that PC, and every live
lane of the quad is eligible and on it. -/
def donates (s : State) (j : Nat) (pc : Nat) : List (Nat × Mask) :=
  match s.stroke? j with
  | some st =>
    let a := (pathsOf st (eligible s j)).1
    if st.handler || a == 0 || (lowest a).all (fun l => pcOf st l != pc) then []
    else ((quadsOf (liveMask st)).filter (fun q => liveMask st &&& quadMask q &&& ~~~ a == 0)).map
      (fun q => (j, liveMask st &&& quadMask q))
  | none => []

/-- The donor quads that may join path A of stroke k (R104, R105): those of the other strokes of its group in the active set of its
nib, in increasing stroke number, then quad number, as many as path A leaves quad positions free. -/
def donorsFor (s : State) (k : Nat) (st : Stroke) (a : Mask) : List (Nat × Mask) :=
  match lowest a with
  | none => []
  | some l =>
    match planAt s k l with
    | none => []
    | some x =>
      let act := guardMask s { x with path := a, act := a }
      if st.handler || (x.group s).nomerge || neverMerged x.opc then []
      else
        let others := (nibList (s.core (coreOf st.group)).active (k % 4)).filter (fun j => j != k && groupOf j == groupOf k)
        (((upTo (32 * groupOf k) 32).filter (fun j => others.contains j)).flatMap (fun j => donates s j (pcOf st l))).take
          (8 - (quadsOf act).length)

/-- The quads of one stroke as one share of a merged issue. -/
def shares (ds : List (Nat × Mask)) : List (Nat × Mask) :=
  ((ds.map (·.1)).eraseDups).map (fun j => (j, (ds.filter (fun d => d.1 == j)).foldl (fun m d => m ||| d.2) 0))

/-- The paths of a stroke that are ready: all its eligible lanes have voted, and a path whose code line the core does not hold is not
ready until the line arrives (R69, R100). -/
def readyPaths (s : State) (k : Nat) : Mask × Mask :=
  match s.stroke? k with
  | some st =>
    let ps := pathsOf st (eligible s k)
    (fetchable s k ps.1, fetchable s k ps.2)
  | none => (0, 0)

/-- A picked stroke: what its park waited for is over, the eligible lanes that do not issue age (R103), and path A issues next, with the
donor quads that the nib takes (R104); where path A is not ready, path B issues without it. -/
def pickStroke (s : State) (k : Nat) : State :=
  match s.stroke? k with
  | none => s
  | some st =>
    let el := eligible s k
    let ps := readyPaths s k
    let ds := donorsFor s k st ps.1
    let ds := if ds.isEmpty || !Config.mergesQuads s.fresh then [] else shares ds
    let s := s.modStroke k (fun st =>
      { st.resumed with lastPick := s.cycle }.modLanes allLanes (fun l y =>
        if el.getLsbD l then { y with aging := if (ps.1 ||| ps.2).getLsbD l then y.aging else y.aging + 1 }
        else { y with aging := 0 }))
    let s := ds.foldl (fun s d => s.modStroke d.1 Stroke.resumed) s
    { s with turn := if ps.1 = 0 then .pathA k ps.2 0 [] else .pathA k ps.1 ps.2 ds, fresh := s.fresh + 1 }

/-- The lanes of a stroke that are not eligible lose their aging count (R103). -/
def ageOut (s : State) (k : Nat) : State :=
  match s.stroke? k with
  | some st =>
    if st.lanes.all (fun y => y.aging == 0) then s
    else
      let el := eligible s k
      s.modStroke k (fun st => st.modLanes (~~~ el) (fun _ y => { y with aging := 0 }))
  | none => s

/-- ISSUE_SLOT: strokes that wait leave the active set, and the nib picks one ready stroke in a cycle. -/
def execIssueSlot (core nib : Nat) (s : State) : Host.Outcome State Fault Refusal :=
  let c := s.core core
  let out := (nibList c.active nib).filter (leaves s)
  let act := (nibList c.active nib).filter (fun k => !out.contains k)
  let s := if out.isEmpty then s else setNib s core nib act (nibList c.pending nib ++ out)
  if s.turn ≠ .none ∨ (c.picked[nib]?).getD 0 = s.cycle + 1 then .next s
  else
    let s := (act ++ nibList (s.core core).pending nib).foldl ageOut s
    match leastBy (pickKey s) (act.filter (fun k => (readyPaths s k).1 ||| (readyPaths s k).2 != 0)) with
    | none => .next s
    | some k => .next (pickStroke (s.modCore core (fun c => { c with picked := listPut c.picked nib (s.cycle + 1) })) k)

/-! ## SCRIBE_ISSUE (R253) -/

/-- Does the next instruction of a context wait for a pending k register (R254)? -/
def ctxWaits (s : State) (g : Nat) : Bool :=
  let t := { s with turn := .ctx g }
  match fetch t with
  | some (.instr i) => match codeOf i with
    | some (opc, f, len) => (turnEnv t opc f len).any (ctxHazard t)
    | none => false
  | _ => false

/-- Is a scribe context ready? -/
def ctxReady (s : State) (g : Nat) : Bool :=
  match s.ctx? g, s.group? g with
  | some c, some gr =>
    !halted s gr.part (coreOf g) && !c.exited && !c.killed && c.trap.isNone && c.fault.isNone && c.barWait.isNone && !c.lockWait &&
      c.cueWait.all (fun w => decide (w.2 ≤ (mapGet gr.cues w.1 0).toNat)) &&
      c.parkLine.all (fun p => s.present p.2) &&
      (s.core (coreOf g)).icache.contains (codeLine gr.part c.pc.toNat) && !ctxWaits s g
  | _, _ => false

/-- SCRIBE_ISSUE: one instruction in a cycle, of the ready context whose last issue lies furthest back. -/
def execScribeIssue (core : Nat) (s : State) : Host.Outcome State Fault Refusal :=
  let c := s.core core
  if s.turn ≠ .none ∨ (c.picked[4]?).getD 0 = s.cycle + 1 then .next s
  else match leastBy (fun g => [(s.ctx? g).elim 0 (·.lastIssue), g]) ((upTo (8 * core) 8).filter (ctxReady s)) with
    | none => .next s
    | some g =>
      let s := s.modCore core (fun c => { c with picked := listPut c.picked 4 (s.cycle + 1) })
      let s := s.modCtx g (fun x => { x with cueWait := none, parkLine := none, lastIssue := s.cycle })
      .next { s with turn := .ctx g, fresh := s.fresh + 1 }

/-! ## Completions -/

/-- A whole number of cycles as an f32. -/
def cyclesF32 (n : Nat) : Nat := (packFin .f32 .rne false 2 false false n 0).1

/-- A sampled load's latency folded into its cluster's telemetry record (R399). -/
def sampleLatency (s : State) (k : Nat) (i : InFlight) : State :=
  match i.since with
  | some c =>
    let key := 8 * clusterOf (coreOf (groupOf k)) + (s.group? (groupOf k)).elim 0 (·.part)
    let r := (mapGet? s.sys.telem key).getD (freshRecord 1 0x0A 1)
    let r := ((Sketch.ofBytes r false 0).fold (cyclesF32 (s.cycle - c))).bytes
    { s with sys := { s.sys with telem := mapPut s.sys.telem key r } }
  | none => s

/-- LONG_LATENCY_COMPLETE: an operation whose results have all come delivers them; those of engines complete by their own
events. -/
def execLongLatencyComplete (stroke id : Nat) (s : State) : Host.Outcome State Fault Refusal :=
  match (s.stroke? stroke).bind (fun st => st.inflight.find? (fun i => i.id == id)) with
  | some i =>
    if i.waitFor = 0 ∧ i.engine = false then .next (opOver (sampleLatency s stroke i) stroke id 0) else .next s
  | none => .next s

/-- The operation that an entry of a store FIFO completes. -/
def FifoEntry.op? : FifoEntry → Option Nat
  | .atom _ _ _ _ _ o _ _ _ => some o
  | .cas _ _ _ _ o _ _ _ => some o
  | .fxadd _ _ o => some o
  | _ => none

/-- STORE_DRAIN: the oldest entry of a FIFO is performed; one that has been sent to another core stays until it has landed. -/
def execStoreDrain (agent : AgentId) (s : State) : Host.Outcome State Fault Refusal :=
  match fifoOf s agent with
  | [] => .next s
  | e :: q =>
    let s := performEntry (setFifo s agent q) agent e
    match agent with
    | .ctx _ => .next s
    | .stroke k =>
      let s := match e.op? with
        | some o => completeIfDone s k o
        | none => s
      .next (killFinish (retireStroke s k) k)

/-- WAITM_POLL: the unit reads the word again; poison makes the instruction issue afresh. -/
def execWaitmPoll (stroke : Nat) (s : State) : Host.Outcome State Fault Refusal :=
  match s.stroke? stroke with
  | some st => match st.park with
    | some (.waitm l w sg c x m len) =>
      let v (n : Nat) : Int := if sg then sext w n else ((n % 2 ^ w : Nat) : Int)
      if !(absentLines s l (w / 8)).isEmpty then .next s
      else if s.mem.anyPoison l (w / 8) then .next (s.modStroke stroke (fun st => { st with park := none }))
      else if c.holds (v (bytesNat (loadBytes s st.fifo l (w / 8)))) (v x.toNat) then
        .next (s.modStroke stroke (fun st => parkPass st m len))
      else .next s
    | _ => .next s
  | none => .next s

end Sys2Proof.Machine
end

