-- ==== Sys2Proof/Machine/Methods.lean ====
section
/-!
DEFINITION. Finding the routine of an operator task when it is handed to a cluster: the method table (R21 to R24), the
resolution of R40, the insertion of conversions (R41, R42), and the delivery of a task without a method (R44, R45).
-/
namespace Sys2Proof.Machine

/-! ## The method table -/

/-- A method key (R23). -/
def methodKey (op ta tb tc : Nat) : Nat := op + ta * 2 ^ 16 + tb * 2 ^ 28 + tc * 2 ^ 40

/-- A size that a lookup accepts (R24). -/
def tableSizeOk (n : Nat) : Bool := (List.range 18).any (fun i => n == 2 ^ (i + 3))

/-- The probes of a lookup from place i on (R23): fuel is the probes left. -/
def probe (s : State) (part base size home op tags : Nat) : Nat → Nat → Option (List Byte)
  | 0, _ => none
  | fuel + 1, i =>
    match hubRead s part [] ((base + 32 * ((home + i) % size)) % 2 ^ 64) 32 [0] with
    | .error _ => none
    | .ok e =>
      let valid := bit (field e 21 1) 0
      if valid && field e 0 2 == op && field e 2 6 == tags then some e
      else if !valid && !bit (field e 21 1) 1 then none
      else probe s part base size home op tags fuel (i + 1)

/-- A lookup in the partition's method table. -/
def lookup (s : State) (part op ta tb tc : Nat) : Option (List Byte) :=
  match s.part? part with
  | none => none
  | some p =>
    let size := p.cr.mtabSz.toNat
    if tableSizeOk size then
      probe s part p.cr.mtab.toNat size (mix64 (methodKey op ta tb tc) % size) op (ta + tb * 2 ^ 12 + tc * 2 ^ 24) 8 0
    else none

/-! ## Resolution (R40) -/

/-- What an operand's pointer gives: its tag, and whether it has one. -/
structure OperandTag where
  tag : Nat
  ok  : Bool
  deriving DecidableEq, Repr

/-- The tag of an operand, or the stage-2 fault that holds its read. DESIGN CHOICE: a pointer that is no multiple of 32 names no tile record,
so its operand has no method, as a malformed record's has none (R20, log 28). -/
def operandTag (s : State) (l : Launch) (va : Nat) : Except Bad OperandTag :=
  if va = 0 then .ok ⟨0xFFE, true⟩
  else match hubRead s l.part l.ended va 32 anyKind with
    | .error (.hold b) => .error b
    | .error .gone => .ok ⟨(Config.unreadTag (s.fresh + va)).toNat, false⟩
    | .ok r => .ok ⟨(tileOf r).tag % 2 ^ 12, va % 32 == 0 && !(tileOf r).malformed⟩

/-- How a task leaves dispatch: with an entry, by an insertion of conversions before entry e, or to the handler. -/
inductive Resolved where
  | run (e : List Byte)
  | insert (e : List Byte) (need : List (Bool × List Byte))
  | nomethod (sub : Nat)
  deriving DecidableEq, Repr

/-- The tags of a packed triple (R22). -/
def tagA (t : Nat) : Nat := bits t 11 0
def tagB (t : Nat) : Nat := bits t 23 12
def tagC (t : Nat) : Nat := bits t 35 24

/-- The conversions that operands A and B need; none if one of them does not exist. -/
def conversions (s : State) (part ta tb pa pb : Nat) : Option (List (Bool × List Byte)) :=
  let one (isA : Bool) (t p : Nat) : Option (List (Bool × List Byte)) :=
    if t = p then some [] else (lookup s part 1 t 0xFFE p).map (fun c => [(isA, c)])
  match one true ta pa, one false tb pb with
  | some x, some y => some (x ++ y)
  | _, _ => none

/-- Subcauses (R44). -/
def subNOENTRY : Nat := 1
def subARENA : Nat := 2

/-- The resolution of an operator with three tags. -/
def resolve (s : State) (part op : Nat) (a b c : OperandTag) : Resolved :=
  if !(a.ok && b.ok && c.ok) then .nomethod subNOENTRY
  else match lookup s part op a.tag b.tag c.tag with
    | some e => .run e
    | none => match lookup s part op 0xFFF 0xFFF 0xFFF with
      | none => .nomethod subNOENTRY
      | some d =>
        let pref := field d 24 6
        if c.tag ≠ tagC pref then .nomethod subNOENTRY
        else match lookup s part op (tagA pref) (tagB pref) (tagC pref) with
          | none => .nomethod subNOENTRY
          | some e => match conversions s part a.tag b.tag (tagA pref) (tagB pref) with
            | some need => .insert e need
            | none => .nomethod subNOENTRY

/-! ## Insertion (R41 to R43) -/

/-- The lowest free slots of the arena, all of them or none. -/
def freeArena (p : Partition) (n : Nat) : Option (List Nat) :=
  let l := ((List.range (bits p.cr.convArena.toNat 19 8)).filter (fun i => !p.arena.contains i)).take n
  if l.length = n then some l else none

/-- The temporary record of an operand (R42): base is its slot. -/
def tempRecord (src : List Byte) (tag slot : Nat) : List Byte :=
  let t := tileOf src
  let z : Tile := { base := slot + 256, rows := t.rows, cols := t.cols, stride := 0, tag := tag, gen := 0, spare := 0 }
  let stride := align16 ((z.stored * z.ty.bits + 7) / 8)
  natBytes 8 (slot + 256) ++ natBytes 4 t.rows ++ natBytes 4 t.cols ++ natBytes 4 stride ++ natBytes 2 tag ++ natBytes 10 0

/-- The record of a conversion task (R42). -/
def conversionRecord (cls src dst succ : Nat) : List Byte :=
  natBytes 2 1 ++ natBytes 1 (2 + 4 * cls) ++ natBytes 29 0 ++ natBytes 8 succ ++ natBytes 8 src ++ natBytes 8 0 ++ natBytes 8 dst

/-- How an insertion ends: it fails, a stage-2 fault holds it, it waits for places in the queue, or it is made. -/
inductive Inserted where
  | fails
  | holds (b : Bad)
  | waits
  | made (s : State)

/-- Bytes written at several addresses, all of them or none. -/
def putAll (s : State) (l : Launch) (ws : List (Nat × List Byte)) : Except Unread State :=
  ws.foldl (fun (e : Except Unread State) w => match e with
    | .error u => .error u
    | .ok t => match hubReach s l.part l.ended w.1 w.2.length .store [0, 1] with
      | .error u => .error u
      | .ok ls => .ok (writePlaces t ls w.2)) (Except.ok s)

/-- The conversions of an insertion: for each the operand's pointer, its record, its entry and its slot. -/
def planInsert (s : State) (l : Launch) (need : List (Bool × List Byte)) (slots : List Nat) :
    Option (List (Bool × Nat × List Byte × List Byte × Nat)) :=
  (need.zip slots).mapM (fun e =>
    let va := field l.record (if e.1.1 then 40 else 48) 8
    match hubRead s l.part l.ended va 32 anyKind with
    | .ok r => some (e.1.1, va, r, e.1.2, e.2)
    | .error _ => none)

/-- The insertion itself. -/
def insertConversions (s : State) (l : Launch) (e : List Byte) (need : List (Bool × List Byte)) : Inserted :=
  match s.part? l.part with
  | none => .fails
  | some p =>
    let ca := p.cr.convArena.toNat
    let log := bits ca 4 0
    let at_ (i : Nat) : Nat := bits ca 63 20 * 2 ^ 20 + i * 2 ^ log
    let room := queueRoom s l.part l.cls + (if ((p.queues[l.cls]?).getD []).contains l.id then 1 else 0)
    if log < 12 ∨ 30 < log then .fails
    else match freeArena p (need.length + 1) with
      | none => .fails
      | some slots =>
        let block := at_ (slots.headD 0)
        match planInsert s l need (slots.drop 1) with
        | none => .fails
        | some plan =>
          let temps := plan.map (fun c => (at_ c.2.2.2.2, tempRecord c.2.2.1 (tagC (field c.2.2.2.1 2 6)) (at_ c.2.2.2.2)))
          if temps.any (fun t => decide (2 ^ log < 256 + (tileOf t.2).allBytes)) then .fails
          else if room < need.length then .waits
          else
            let rewritten := plan.foldl (fun (r : List Byte) (c : Bool × Nat × List Byte × List Byte × Nat) =>
              setField r (if c.1 then 40 else 48) 8 (at_ c.2.2.2.2)) l.record
            let bs := natBytes 8 need.length ++ natBytes 8 l.status.toNat ++ natBytes 16 0 ++ e.take 32 ++ rewritten
            match putAll s l ((block, bs) :: temps) with
            | .error (.hold b) => .holds b
            | .error .gone => .fails
            | .ok t =>
              let t := t.modPart l.part (fun p => { p with arena := p.arena ++ slots, blocks := mapPut p.blocks block (slots, l.op) })
              let t := { unlist t l.part l.id with launches := mapDel t.launches l.id }
              .made (plan.foldl (fun (t : State) (c : Bool × Nat × List Byte × List Byte × Nat) =>
                let r := conversionRecord l.cls c.2.1 (at_ c.2.2.2.2) block
                let q : Launch := { taskLaunch t.nextId l.part r 0 false with
                  recAddr := Config.recordAddress t.nextId, method := some c.2.2.2.1 }
                enqueueLaunch { t with nextId := t.nextId + 1 } q) t)

/-! ## Tasks without a method (R44, R45) -/

/-- The subcause and the tags of a failed task, as bytes 64 to 71 of its entry. -/
def faultWord (sub : Nat) (a b c : OperandTag) : Nat := sub + (a.tag + b.tag * 2 ^ 12 + c.tag * 2 ^ 24) * 2 ^ 16

/-- The cause that a partition error names for a task without a method (R366). -/
def cNOMETHOD : Nat := 0x13

/-- The places of n bytes of the fault block. -/
def faultBlock (s : State) (l : Launch) (at_ n : Nat) (acc : Acc) : Except Unread (List (Loc × Nat)) :=
  if at_ / 2 ^ 32 = 0xFFFFFFFE then
    match (List.range (n / 128)).mapM (fun i => cLoc s l.part l.cluster (at_ % 2 ^ 32 + 128 * i) 128),
      cLoc s l.part l.cluster (at_ % 2 ^ 32 + n / 128 * 128) (n % 128) with
    | some ls, some z => .ok (ls.map (fun p => (p, 128)) ++ [(z, n % 128)])
    | _, _ => .error .gone
  else hubReach s l.part l.ended at_ n acc [0, 1]

/-- A task without a method goes to Nirael firmware as a partition error. -/
def nomethodError (s : State) (l : Launch) : State :=
  rejectLaunch (reportError s l.part cNOMETHOD l.id) l.id codeNOMETHOD

/-- A task waits for its delivery: on the hold list, or at the head of its queue while that is full, where it blocks its class (R27). -/
def awaitDelivery (s : State) (l : Launch) (w : Nat) : State :=
  let l := { l with nomethod := some w }
  if (s.part? l.part).elim false (fun p => p.hold.contains l.id) then { s with launches := mapPut s.launches l.id l }
  else if holdRoom s l.part then joinHold s l
  else { s with launches := mapPut s.launches l.id l }

/-- The delivery of a failed task to the fault block; w is its subcause and tags. DESIGN CHOICE: while the queue of the handler's class is full the task
waits as for a full fault block, and nothing is written (log 30). -/
def deliverNomethod (s : State) (l : Launch) (w : Nat) : State :=
  let block := (s.part? l.part).elim 0 (fun p => p.cr.dispFault.toNat / 128 * 128)
  if block = 0 then nomethodError s l
  else match faultBlock s l block 80 .load, faultBlock s l (block + 64) 8 .store with
    | .error (.hold b), _ | _, .error (.hold b) => launchFault s l b
    | .ok ls, .ok hs =>
      let h := readPlaces s ls
      let head := field h 64 8
      let handler := setField (h.take 64) 16 8 (block + 128 + 128 * (head % 64))
      let cls := bits (field h 2 1) 3 2
      if (head + 2 ^ 64 - field h 72 8) % 2 ^ 64 = 64 ∨ queueRoom s l.part cls = 0 then awaitDelivery s l w
      else match faultBlock s l (block + 128 + 128 * (head % 64)) 128 .store with
        | .error (.hold b) => launchFault s l b
        | .error .gone => nomethodError s l
        | .ok es =>
          let s := writePlaces s es (l.record ++ natBytes 8 w ++ natBytes 56 0)
          let s := writePlaces s hs (natBytes 8 (head + 1))
          let s := enqueueLaunch { s with nextId := s.nextId + 1 } (taskLaunch s.nextId l.part handler block false)
          rejectLaunch s l.id codeNOMETHOD
    | _, _ => nomethodError s l

/-- NOMETHOD_RETRY of a task that waits for its delivery. -/
def execNomethodRetry (id : Nat) (s : State) : Host.Outcome State Fault Refusal :=
  match s.launch? id with
  | some l => match l.nomethod with
    | some w => .next (deliverNomethod s l w)
    | none => .next s
  | none => .next s

/-! ## Dispatch of a task at its cluster -/

/-- Does a launch still lack its kernel (R40)? -/
def needsMethod (l : Launch) : Bool := l.isTask && l.method.isNone && bits (field l.record 2 1) 1 0 == 1

/-- What dispatch makes of a launch: it may be placed, or the state says what became of it. -/
inductive Dispatched where
  | place (l : Launch)
  | done (s : State)

/-- A task handed to a cluster is resolved; any other launch is placed as it is. A method's ENTRY that is no multiple of 64 gives BADHDR
(checkKernel; log 17). -/
def dispatchTask (s : State) (l : Launch) : Dispatched :=
  if needsMethod l = false then .place l
  else match l.nomethod with
  | some w => .done (deliverNomethod s l w)
  | none =>
    let r := l.record
    match operandTag s l (field r 40 8), operandTag s l (field r 48 8), operandTag s l (field r 56 8) with
    | .ok a, .ok b, .ok c =>
      (match resolve s l.part (field r 0 2) a b c with
      | .run e => match checkKernel s l (field e 8 8) (field e 16 4) { tx := 32 * field e 20 1 } (shapeOk (field e 20 1)) with
        | .ok k => .place { k with nbvVer := if k.kern.nbv = 0 then l.nbvVer else k.kern.nbv }
        | .error (.hold b) => .done (launchFault s l b)
        | .error (.code n) => .done (rejectLaunch s l.id n)
      | .insert e need => match insertConversions s l e need with
        | .fails => .done (deliverNomethod s l (faultWord subARENA a b c))
        | .holds b => .done (launchFault s l b)
        | .waits => .done s
        | .made t => .done t
      | .nomethod sub => .done (deliverNomethod s l (faultWord sub a b c)))
    | .error b, _, _ | _, .error b, _ | _, _, .error b => .done (launchFault s l b)

end Sys2Proof.Machine
end

