-- ==== Sys2Proof/Machine/Placing.lean ====
section
/-!
DEFINITION. From the distributor to the cores: room and order of cores (R36, R38, R94), placing a group with its registers
(R7, R8, R10), ranges and their handing out (R35, R36), COR launches (R37), sensors (R39), stealing (R46, R47).
-/
namespace Sys2Proof.Machine

/-! ## Cores -/

/-- Is a core or its cluster fenced (R397)? -/
def coreFenced (s : State) (k : Nat) : Bool :=
  s.sys.fences.contains (.core k) || s.sys.fences.contains (.cluster (clusterOf k))

/-- The cores of a cluster on which placement has not stopped (R396, R397). -/
def liveCores (s : State) (c : Nat) : List Nat :=
  (upTo (c * Config.coresPerCluster) Config.coresPerCluster).filter (fun k => !(s.core k).fenced)

/-- A core's temperature reading (R39). -/
def reading (s : State) (k : Nat) : Nat := (s.core k).temp.getD s.sys.tHot

/-- Is a core avoided (R39)? -/
def avoided (s : State) (k : Nat) : Bool := let c := s.core k; c.hot || c.droopy || c.temp.isNone

/-- The groups on a core. -/
def groupsOn (s : State) (k : Nat) : List Group := (List.range Config.slotsPerCore).filterMap (fun i => s.group? (8 * k + i))

/-- Free group slots of a core. -/
def freeSlots (s : State) (k : Nat) : List Nat := (List.range Config.slotsPerCore).filter (fun i => (s.group? (8 * k + i)).isNone)

/-- Strokes of a group of n that nib i receives (R94). -/
def nibShare (n i : Nat) : Nat := (n + 3 - i) / 4

/-- Does every nib take a group's strokes and rows (R94)? -/
def nibsTake (s : State) (k strokes nregs : Nat) : Bool :=
  (List.range 4).all (fun i =>
    let gs := groupsOn s k
    let st := gs.foldl (fun n g => n + nibShare g.strokes i) (nibShare strokes i)
    let rows := gs.foldl (fun n g => n + nibShare g.strokes i * g.nregs) (nibShare strokes i * nregs)
    decide (st ≤ Config.strokesPerNib) && decide (rows ≤ Config.rowsPerNib))

/-- The lowest place of n free bytes of U, a multiple of 256 (log 8). -/
def freeU (s : State) (k n : Nat) : Option Nat :=
  let gs := groupsOn s k
  let starts := 0 :: gs.map (fun g => (g.ubase + g.reserve + 255) / 256 * 256)
  let fits (a : Nat) : Bool := decide (a + n ≤ Config.uBytes) &&
    gs.all (fun g => g.reserve == 0 || n == 0 || decide (a + n ≤ g.ubase) || decide (g.ubase + g.reserve ≤ a))
  (starts.filter fits).foldl (fun (m : Option Nat) a => match m with
    | none => some a
    | some b => some (min a b)) none

/-- The lowest n free AMEM banks of a core (log 8). -/
def freeBanks (s : State) (k n : Nat) : Option (List Nat) :=
  let used := (groupsOn s k).flatMap (·.banks)
  let l := ((List.range Config.amemBanks).filter (fun b => !used.contains b)).take n
  if l.length = n then some l else none

/-! ## Placing a group -/

/-- The registers of a stroke of a launch (R8). -/
def startRegs (l : Launch) : Regs :=
  let c (i : Nat) : Nat := (l.coords[i]?).getD 0
  let task (x : Nat) : Nat := if l.isTask then x else 0
  let ws : List Nat := [l.arg.toNat, l.arg.toNat / 2 ^ 32, task l.recAddr.toNat, task (l.recAddr.toNat / 2 ^ 32),
    task (c 0 + 2 ^ 16 * c 1), task (c 2 + 2 ^ 16 * c 3)]
  (List.range 6).foldl (fun r i => r.sSet i (BitVec.ofNat 32 ((ws[i]?).getD 0))) {}

/-- Stroke i of a group (R7, R11): its lanes at the thread entry. -/
def startStroke (l : Launch) (g i : Nat) : Stroke :=
  { group := g, index := i, regs := startRegs l
    lanes := (List.range 32).map (fun n =>
      { pc := l.kern.thread, helper := decide (l.dims.tx * l.dims.ty * l.dims.tz ≤ 32 * i + n) }) }

/-- The scribe context of a group (R8), which starts at an address. -/
def startCtx (l : Launch) (pc : Dword) : ScribeCtx :=
  let c : ScribeCtx := { pc := pc }
  (c.kSet 0 l.arg).kSet 1 (if l.isTask then l.recAddr else 0)

/-- The control line of a bound U ring at placement: HEAD, TAIL and CLOSE 0, PRODUCERS 1 (R235). -/
def ringLine : List Byte := natBytes 12 0 ++ natBytes 4 1 ++ List.replicate 112 0

/-- The U offsets of the rings in U that stream bindings name (R12). -/
def uRings (streams : List Dword) : List Nat :=
  ((streams.filter (fun w => bit w.toNat 63 && !bit w.toNat 62)).map (fun w => bits w.toNat 31 0)).eraseDups

/-- A group placed on a core: its allotment reserved whole, its presence bits set (R200), its banks cleared (R284), its U rings set up (R235),
its strokes at the tail of the pending FIFOs. None where the core has no room (R38). Of the free group slots it takes the lowest: DESIGN
CHOICE (log 28). -/
def placeGroup (s : State) (l : Launch) (k lin : Nat) : Option State :=
  let n := l.dims.strokes
  let bytes := reserveBytes l.units n l.kern.stack
  match (freeSlots s k).head?, freeU s k bytes, freeBanks s k l.banks, s.part? l.part with
  | some slot, some u, some banks, some p =>
    if nibsTake s k n l.nregs then
      let g := 8 * k + slot
      let c := clusterOf k
      let sch := mapGet s.scheds c {}
      let index := mapGet sch.firings l.id 0
      let gr : Group :=
        { part := l.part, launch := l.id, cls := l.cls, gx := lin % l.dims.gx, gy := lin / l.dims.gx % l.dims.gy
          gz := lin / (l.dims.gx * l.dims.gy), dims := l.dims, strokes := n, nregs := l.nregs, units := l.units, ubase := u
          stack := l.kern.stack, banks := banks, header := l.header, streams := l.kern.streams, nomerge := l.kern.nomerge
          nbv := l.nbvVer, firing := index, cr := { p.cr with sess := sessWord s l.part, joined := sessionsNow s l.part } }
      let lines := upTo ((uBase k + u) / 128) (bytes / 128)
      let keys := upTo (32 * g) n
      let mem := { s.mem with clear := s.mem.clear.filter (fun e => !lines.contains e.1) }
      let mem := banks.foldl (fun m b => zeroBank m (64 * k + b)) mem
      let s := { s with
        mem := mem
        groups := mapPut s.groups g gr
        strokes := keys.foldl (fun m q => mapPut m q (startStroke l g (q % 32))) s.strokes
        ctxs := match l.kern.scribe with
          | none => mapDel s.ctxs g
          | some pc => mapPut s.ctxs g (startCtx l pc)
        scheds := mapPut s.scheds c { sch with firings := mapPut sch.firings l.id (index + 1) } }
      let s := (uRings l.kern.streams).foldl (fun s o => writeBytes s { home := .u, addr := uBase k + u + o } ringLine) s
      let s := s.modCore k (fun x => { x with
        pending := x.pending.mapIdx (fun i q => q ++ keys.filter (fun e => e % 4 == i)) })
      some (s.modLaunch l.id (fun l => { l with
        placed := l.placed + 1, cluster := c, firstNs := if l.firstNs.isNone then some s.ns else l.firstNs }))
    else none
  | _, _, _, _ => none

/-- The key by which R38 chooses a core. -/
def coreKey (s : State) (k : Nat) : List Nat :=
  let gs := groupsOn s k
  [if avoided s k then 1 else 0, gs.length, gs.foldl (fun n g => n + g.strokes) 0, reading s k, k]

/-- A group placed on the core of a cluster that R38 chooses, of those on which its partition runs (R378); none where no core has room. -/
def placeIn (s : State) (l : Launch) (c lin : Nat) : Option State :=
  match leastBy (coreKey s) ((liveCores s c).filter (fun k => !away s l.part k && (placeGroup s l k lin).isSome)) with
  | some k => placeGroup s l k lin
  | none => none

/-- Groups of a launch placed one after the other in a cluster; none unless all are. -/
def placeAll (l : Launch) (c : Nat) : State → List Nat → Option State
  | s, [] => some s
  | s, n :: ns => (placeIn s l c n).bind (fun s => placeAll l c s ns)

/-- What precedes the first group of a launch: the chunks of its collective (R356). -/
def beforeFirst (s : State) (l : Launch) : Except Bad State :=
  if l.placed = 0 then (match l.coll with
    | some c => makeChunks s l c
    | none => .ok s)
  else .ok s

/-! ## Clusters -/

/-- The clusters of a partition's mask that are not fenced, nor about to be. -/
def clustersOf (s : State) (part : Nat) : List Nat :=
  (List.range Config.clusters).filter (fun c =>
    bit ((s.part? part).elim 0 (·.mask)) c && !(s.sys.fences ++ s.sys.fencing).contains (.cluster c))

/-- Free group slots of a cluster on cores that are not avoided. -/
def clusterFree (s : State) (c : Nat) : Nat :=
  ((liveCores s c).filter (fun k => !avoided s k)).foldl (fun n k => n + (freeSlots s k).length) 0

/-- Sum of the temperature readings of a cluster, and the number of them. -/
def clusterHeat (s : State) (c : Nat) : Nat × Nat :=
  ((liveCores s c).foldl (fun n k => n + reading s k) 0, (liveCores s c).length)

/-- Does cluster a stand before cluster b in the order of R36? -/
def clusterBefore (s : State) (a b : Nat) : Bool :=
  let f := clusterFree s a
  let g := clusterFree s b
  let x := clusterHeat s a
  let y := clusterHeat s b
  decide (g < f) || (f == g && (decide (x.1 * y.2 < y.1 * x.2) || (x.1 * y.2 == y.1 * x.2 && decide (a < b))))

/-- A cluster in a list in the order of R36. -/
def insertCluster (s : State) (a : Nat) : List Nat → List Nat
  | [] => [a]
  | b :: r => if clusterBefore s a b then a :: b :: r else b :: insertCluster s a r

/-- Clusters in the order of R36. -/
def inOrder (s : State) (cs : List Nat) : List Nat := cs.foldr (insertCluster s) []

/-! ## COR launches (R37) -/

/-- The linear group numbers of a launch's range number i. -/
def rangeOf (l : Launch) (i : Nat) : List Nat := upTo (64 * i) (min 64 (l.total - 64 * i))

/-- The assignment: every range from number i on, each on one cluster; fuel is the ranges left. -/
def assign (l : Launch) : Nat → Nat → State → Option State
  | 0, _, s => some s
  | fuel + 1, i, s =>
    match (inOrder s (clustersOf s l.part)).findSome? (fun c => placeAll l c s (rangeOf l i)) with
    | some s => assign l fuel (i + 1) s
    | none => none

/-- Ranges of a launch. -/
def Launch.ranges (l : Launch) : Nat := (l.total + 63) / 64

/-- The assignment of all of a launch. -/
def assignAll (s : State) (l : Launch) : Option State := assign l l.ranges 0 s

/-- The machine with no group on any core, every core running its partition, and what a fence under way will take still there: a launch is
checked against the old capacity until the unit is fenced (R397). -/
def emptied (s : State) : State :=
  { s with
    groups := [], strokes := [], ctxs := [], sys := { s.sys with fencing := [] }
    cores := s.cores.map (fun e => (e.1, { e.2 with fenced := coreFenced s e.1 }))
    parts := s.parts.map (fun e => (e.1, { e.2 with scheduled := true, out := [] })) }

/-- The same on the emptied machine: it tells whether the launch could ever be placed. -/
def fitsEmpty (s : State) (l : Launch) : Bool := (assignAll (emptied s) l).isSome

/-! ## The distributor (R27, R35) -/

/-- The launch of a class that is handed out next: one begun, else the released ones in order, else the queue's head. -/
def candidate (s : State) (part cls : Nat) : Option Launch :=
  match s.part? part with
  | none => none
  | some p =>
    let ls := (((p.ready[cls]?).getD []) ++ ((p.queues[cls]?).getD []).take 1).filterMap (s.launch? ·)
    let ls := ls.filter (fun l => l.phase == .eligible || l.phase == .placing)
    (ls.find? (fun l => l.phase == .placing)).or ls.head?

/-- Places for ranges that a cluster scheduler has left, beside those on their way to it. -/
def Sched.places (x : Sched) : Nat :=
  Config.rangePlaces - (x.ranges.length + (x.steal.bind (·.reply)).elim 0 (·.length))

/-- Does a cluster scheduler have a place for a range? -/
def rangeRoom (s : State) (c : Nat) : Bool := decide (0 < (mapGet s.scheds c {}).places)

/-- Can something of a class be handed out now? A COR launch whose assignment fails blocks its class, and so does a task without a method that
a full hold list keeps at the head (R27). -/
def canHand (s : State) (part cls : Nat) : Bool :=
  match candidate s part cls with
  | none => false
  | some l =>
    if l.nomethod.isSome && !holdRoom s part then false
    else if l.cor && !needsMethod l then (assignAll s l).isSome || !fitsEmpty s l else (clustersOf s part).any (rangeRoom s)

/-- Is a partition served: scheduled, not FAILED, with something to hand out? DESIGN CHOICE: one whose next task is stuck in its dispatch, at a
stage-2 fault or a full queue, is served still, and the round waits for it (log 28). -/
def servable (s : State) (part : Nat) : Bool :=
  (s.part? part).elim false (fun p => p.scheduled && !p.failed) && (List.range 4).any (canHand s part)

/-- May the distributor hand out for a class of a partition now? The partition has some of its weight left, or a new round
begins; no higher class has something to hand out. -/
def mayHand (s : State) (part cls : Nat) : Bool :=
  (s.part? part).elim false (fun p => p.scheduled && !p.failed) && canHand s part cls &&
    (List.range cls).all (fun c => !canHand s part c) &&
    ((s.part? part).elim false (fun p => decide (p.served < p.weight)) ||
      s.parts.all (fun e => decide (e.2.weight ≤ e.2.served) || !servable s e.1))

/-- The distributor's count of ranges: a round that is over begins again. DESIGN CHOICE: a COR launch counts all its ranges at once, past the
partition's weight too (log 28). -/
def countRanges (s : State) (part n : Nat) : State :=
  let full := (s.part? part).elim false (fun p => decide (p.weight ≤ p.served))
  let s := if full then { s with parts := s.parts.map (fun e => (e.1, { e.2 with served := 0 })) } else s
  s.modPart part (fun p => { p with served := p.served + n })

/-- One range of a launch handed to a cluster (R36). -/
def handRange (s : State) (l : Launch) (c : Nat) : State :=
  let n := min 64 (l.total - l.next)
  let sch : Sched := mapGet s.scheds c {}
  let r : Range := { launch := l.id, first := l.next, count := n }
  let s := { s with scheds := mapPut s.scheds c { sch with ranges := sch.ranges ++ [r], tried := [] } }
  let whole := decide (l.total ≤ l.next + n)
  let s := { s with launches := mapPut s.launches l.id { l with
    next := l.next + n, phase := if whole then .resident else .placing } }
  if whole then unlist s l.part l.id else s

/-- RANGE_HANDOUT. -/
def execRangeHandout (part cls : Nat) (s : State) : Host.Outcome State Fault Refusal :=
  match candidate s part cls with
  | some l =>
    if mayHand s part cls && !l.cor then
      match (inOrder s ((clustersOf s part).filter (rangeRoom s))).head? with
      | none => .next s
      | some c =>
        let l := if l.isTask then { l with cluster := c } else l
        let s := { s with launches := mapPut s.launches l.id l }
        match dispatchTask s l with
        | .done t => .next t
        | .place l => .next (handRange (countRanges s part 1) l c)
    else .next s
  | none => .next s

/-- COR_PLACEMENT: every group placed at once, or NOFIT, or the launch waits. An operator task is resolved first. -/
def execCorPlacement (part cls : Nat) (s : State) : Host.Outcome State Fault Refusal :=
  match candidate s part cls with
  | some l =>
    if mayHand s part cls && l.cor then
      if needsMethod l then
        let l := { l with cluster := ((inOrder s (clustersOf s part)).head?).getD 0 }
        let s := { s with launches := mapPut s.launches l.id l }
        match dispatchTask s l with
        | .done t => .next t
        | .place k => .next { s with launches := mapPut s.launches l.id { k with method := some [] } }
      else match beforeFirst s l with
        | .error b => .next (launchFault s l b)
        | .ok t => match assignAll t l with
          | some t =>
            .next (unlist ((countRanges t part l.ranges).modLaunch l.id (fun l => { l with next := l.total, phase := .resident })) part l.id)
          | none => if fitsEmpty s l then .next s else .next (rejectLaunch s l.id codeNOFIT)
    else .next s
  | none => .next s

/-! ## Cluster schedulers (R38) -/

/-- Does a range stand before another: higher class first, then as it came? -/
def firstRange (s : State) (rs : List Range) : Option Range :=
  let cls (r : Range) : Nat := (s.launch? r.launch).elim 4 (·.cls)
  let ok := rs.filter (fun r => match s.launch? r.launch with
    | some l => (s.part? l.part).elim false (fun p => p.scheduled && !p.failed)
    | none => false)
  match ok with
  | [] => none
  | r :: rest => some (rest.foldl (fun m q => if cls q < cls m then q else m) r)

/-- A range without its first group. -/
def Sched.advance (x : Sched) (r : Range) : Sched :=
  { x with ranges := x.ranges.flatMap (fun q =>
      if q = r then (if r.count ≤ 1 then [] else [{ r with first := r.first + 1, count := r.count - 1 }]) else [q]) }

/-- GROUP_PLACEMENT of a cluster scheduler: the first group of its first range, if a core has room. -/
def execGroupPlacement (cluster : Nat) (s : State) : Host.Outcome State Fault Refusal :=
  let sch := mapGet s.scheds cluster {}
  match firstRange s (sch.ranges.filter (fun r => !sch.transit.contains r)) with
  | none => .next s
  | some r => match s.launch? r.launch with
    | none => .next s
    | some l => match beforeFirst s l with
      | .error b => .next (launchFault s l b)
      | .ok t => match placeIn t l cluster r.first with
        | some t => .next { t with scheds := mapPut t.scheds cluster ((mapGet t.scheds cluster {}).advance r) }
        | none => .next s

/-! ## Sensors (R39) -/

/-- The cores of a cluster changed. -/
def modCores (s : State) (c : Nat) (g : Nat → Core → Core) : State :=
  { s with cores := s.cores.map (fun e => if clusterOf e.1 = c then (e.1, g e.1 e.2) else e) }

/-- A core's avoidance for temperature after a sample. -/
def sampled (tHot hyst : Nat) (t : Option Nat) (x : Core) : Core :=
  let hot := match t with
    | none => true
    | some v => if tHot ≤ v then true else if v ≤ tHot - hyst then false else x.hot || x.temp.isNone
  { x with temp := t, hot := hot }

/-- The device with every volatile state lost (R402, R407): flash, fences and fuses stay, and the nonces that the device has used (R312;
DEDUCED, log 17); host memory is not the device's. -/
def powerOff (s : State) : State :=
  { agenda := s.agenda, ns := s.ns, nextId := s.nextId, fresh := s.fresh, mem := { h := s.mem.h }, gate := { nonces := s.gate.nonces }
    sys := { flash := s.sys.flash, fences := s.sys.fences, keyLoads := s.sys.keyLoads, period := s.ns / 1000000 } }

/-- The reading at which the module powers off (R407), in degrees. -/
def tripTemp : Nat := 115

/-- SENSOR_SAMPLE: a reading, or no valid one, of each core named. A core that reads 115 °C or more powers the module
off (R407). -/
def execSensorSample (cluster : Nat) (temps : List (Nat × Option Nat)) (s : State) : Host.Outcome State Fault Refusal :=
  if running s then
    let mine := temps.filter (fun t => clusterOf t.1 == cluster)
    if mine.any (fun t => t.2.any (decide <| tripTemp ≤ ·)) then .next (powerOff s)
    else .next (mine.foldl (fun s t => s.modCore t.1 (sampled s.sys.tHot s.sys.hyst t.2)) s)
  else .next s

/-- DROOP_EVENT: one crossing counted. -/
def execDroopEvent (core : Nat) (s : State) : Host.Outcome State Fault Refusal :=
  .next (if running s then s.modCore core (fun x =>
    let n := x.droops + 1
    { x with droops := n, droopy := x.droopy || decide (s.sys.dMax < n) }) else s)

/-- DROOP_WINDOW_END: avoidance lasts to the end of the window that follows the one in which it began or began again. -/
def execDroopWindowEnd (cluster : Nat) (s : State) : Host.Outcome State Fault Refusal :=
  .next (if running s then modCores s cluster (fun _ x => { x with droopy := decide (s.sys.dMax < x.droops), droops := 0 }) else s)

/-! ## Stealing (R46, R47) -/

/-- The range is an unstarted task of a partition. -/
def isTaskRange (s : State) (part : Nat) (r : Range) : Bool := match s.launch? r.launch with
  | some l => l.isTask && l.part == part
  | none => false

/-- Has a cluster scheduler a runnable task: a task's range that it may place? -/
def hasRunnable (s : State) (x : Sched) : Bool :=
  (firstRange s (x.ranges.filter (fun r => !x.transit.contains r && (s.launch? r.launch).any (·.isTask)))).isSome

/-- The ring of a partition from the place after a cluster on. -/
def ringAfter (ring : List Nat) (c : Nat) : List Nat := match ring.idxOf? c with
  | some i => ring.drop (i + 1) ++ ring.take i
  | none => []

/-- Group slots free on a cluster. -/
def allFree (s : State) (c : Nat) : Nat := (liveCores s c).foldl (fun n k => n + (freeSlots s k).length) 0

/-- STEAL_REQUEST of a cluster with nothing to run, to the next cluster of a partition's ring. -/
def execStealRequest (cluster part : Nat) (s : State) : Host.Outcome State Fault Refusal :=
  let x := mapGet s.scheds cluster {}
  if hasRunnable s x || x.steal.isSome || decide (allFree s cluster < 2) || (s.sys.fences ++ s.sys.fencing).contains (.cluster cluster) then .next s
  else match ((ringAfter ((s.part? part).elim [] (·.ring)) cluster)[mapGet x.tried part 0]?) with
    | some v => .next { s with scheds := mapPut s.scheds cluster { x with steal := some { part := part, victim := v } } }
    | none => .next s

/-- STEAL_REPLY: the victim of a cluster's request sends half of its unstarted tasks, the newest first, and marks them. An
empty reply moves the thief one place on. A thief has no more sent than it has places for (R38; DEDUCED, log 17); records are the thief's from then on, once it has sent its acknowledgement. -/
def execStealReply (cluster : Nat) (s : State) : Host.Outcome State Fault Refusal :=
  let x := mapGet s.scheds cluster {}
  match x.steal with
  | some q =>
    if q.reply.isSome then .next s
    else
      let v := mapGet s.scheds q.victim {}
      let us := v.ranges.filter (fun r => isTaskRange s q.part r && !v.transit.contains r)
      let sent := (us.reverse).take (min x.places (min 16 (us.length / 2)))
      if sent.isEmpty then
        .next { s with scheds := mapPut s.scheds cluster { x with steal := none, tried := mapPut x.tried q.part (mapGet x.tried q.part 0 + 1) } }
      else
        let s := { s with scheds := mapPut s.scheds q.victim { v with transit := v.transit ++ sent } }
        .next { s with scheds := mapPut s.scheds cluster { x with steal := some { q with reply := some sent } } }
  | none => .next s

/-- STEAL_ACK: the thief owns the records; its acknowledgement reaches the victim, which drops them. -/
def execStealAck (cluster : Nat) (s : State) : Host.Outcome State Fault Refusal :=
  let x := mapGet s.scheds cluster {}
  match x.steal with
  | some { part := _, victim := v, reply := some rs } =>
    let y := mapGet s.scheds v {}
    let s := { s with scheds := mapPut s.scheds v { y with
      ranges := y.ranges.filter (fun r => !rs.contains r), transit := y.transit.filter (fun r => !rs.contains r) } }
    let live := rs.filter (fun r => y.ranges.contains r)
    let s := { s with scheds := mapPut s.scheds cluster { x with ranges := x.ranges ++ live.reverse, steal := none, tried := [] } }
    .next (live.foldl (fun s r => s.modLaunch r.launch (fun l => { l with cluster := cluster })) s)
  | _ => .next s

end Sys2Proof.Machine
end

