-- ==== Sys2Proof/Machine/Launching.lean ====
section
/-!
DEFINITION. The launch port (R28), the rereading of wait counters and timed starts (R32, R33), and the retirement of
launches (R389, R18).
-/
namespace Sys2Proof.Machine

/-! ## The launch port -/

/-- Bytes written into the packet buffer at an offset; what lies beyond it is not written. -/
def bufferPut (buf : List Byte) (off : Nat) (data : List Byte) : List Byte :=
  (List.range 128).map (fun i => if off ≤ i ∧ i < off + data.length then (data[i - off]?).getD 0 else (buf[i]?).getD 0)

/-- A partition's launch port: that of its function, or firmware's for it on the physical one. -/
def Partition.portOf (p : Partition) (fw : Bool) : LaunchPort := if fw then p.fwPort else p.port
def Partition.modPort (p : Partition) (fw : Bool) (g : LaunchPort → LaunchPort) : Partition :=
  if fw then { p with fwPort := g p.fwPort } else { p with port := g p.port }

/-- PACKET_CLOSE at a port: the packet as it stands enters its queue, or is discarded and counted. DESIGN CHOICE: REJECTS wraps at 2^32
(log 28). -/
def execPacketClose (port : PortName) (off : Nat) (data : List Byte) (s : State) : Host.Outcome State Fault Refusal :=
  let change (g : LaunchPort → LaunchPort) (s : State) : State := s.modPart port.part (·.modPort port.fw g)
  match s.part? port.part with
  | none => .next s
  | some p =>
    let buf := bufferPut (p.portOf port.fw).buffer off data
    let s := change (fun q => { q with buffer := buf }) s
    if 0x7F < off ∨ off + data.length < 0x80 then .next s
    else
      let l := packetLaunch s.nextId port.part buf false none
      let s := change (fun q => { q with lastCls := l.cls }) s
      if queueRoom s port.part l.cls = 0 then .next (change (fun q => { q with rejects := (q.rejects + 1) % 2 ^ 32 }) s)
      else .next (enqueueLaunch { s with nextId := s.nextId + 1 } l)

/-- The status word at 0x080 of a launch port: FULL in bit 0, REJECTS in bits [63:32]. -/
def portStatus (s : State) (fw : Bool) (part : Nat) : Nat :=
  (s.part? part).elim 0 (fun p => (if queueRoom s part (p.portOf fw).lastCls = 0 then 1 else 0) + (p.portOf fw).rejects * 2 ^ 32)

/-! ## The hold list -/

/-- WAIT_COUNTER_POLL. -/
def execWaitCounterPoll (part : Nat) (s : State) : Host.Outcome State Fault Refusal := .next (pollHold s part)

/-- TIMED_START: device time has reached the start of a launch that waits for nothing else. -/
def execTimedStart (id : Nat) (s : State) : Host.Outcome State Fault Refusal :=
  match s.launch? id with
  | some l =>
    if l.phase == .eligible && l.timed && (s.part? l.part).elim false (fun p => p.hold.contains id) && decide (l.tstart ≤ s.ns) then
      .next (releaseHeld s l)
    else .next s
  | none => .next s

/-! ## Retirement -/

/-- Does a scheduler still hold a range of a launch? -/
def hasRange (s : State) (id : Nat) : Bool := s.scheds.any (fun e => e.2.ranges.any (fun r => r.launch == id))

/-- Every group of a launch that was or will be placed has retired. -/
def allGone (s : State) (l : Launch) : Bool := l.phase == .resident && l.gone == l.placed && !hasRange s l.id

/-- The partition's counters are read again once a launch has left the device (R32, R389 step 7). -/
def afterEnd (s : State) (l : Launch) : State :=
  if (s.launch? l.id).isNone then
    pollHold { s with scheds := s.scheds.map (fun e => (e.1, { e.2 with firings := mapDel e.2.firings l.id })) } l.part
  else s

/-- The final code of a launch (R374). -/
def finalCode (l : Launch) : Nat := if l.failed then codeFAILED else 0

/-- A launch whose groups have all retired ends (R389); one that is ending goes on as far as it can. -/
def retireLaunch (s : State) (l : Launch) : State :=
  if allGone s l then
    if collDone s l then
      afterEnd (concludeLaunch (s.modLaunch l.id (fun l => { l with phase := .ending, code := finalCode l })) l.id) l
    else s
  else afterEnd (concludeLaunch s l.id) l

/-- LAUNCH_RETIRE. -/
def execLaunchRetire (id : Nat) (s : State) : Host.Outcome State Fault Refusal :=
  match s.launch? id with
  | some l => .next (retireLaunch s l)
  | none => .next s

/-- SUCCESSOR_ENQUEUE: the record that a launch's decrement released enters its queue once that has room. -/
def execSuccessorEnqueue (id : Nat) (s : State) : Host.Outcome State Fault Refusal :=
  match s.launch? id with
  | some l => match l.blocked.bind (s.launch? ·) with
    | some t =>
      if queueRoom s t.part t.cls = 0 then .next s
      else
        let s := enqueueLaunch s t
        .next (afterEnd (concludeLaunch (s.modLaunch id (fun l => { l with blocked := none })) id) l)
    | none => .next s
  | none => .next s

end Sys2Proof.Machine
end

