-- ==== Sys2Proof/Machine/Summaries.lean ====
section
/-!
DEFINITION. The summary instructions (R306, R307) and the end of their time at the unit, SUMMARY_COMPLETE.
-/
namespace Sys2Proof.Machine

/-- Spaces of records. -/
def summarySpaces : List Space := [.U, .C]

def readLines (s : State) (ls : List Loc) : List Byte := ls.flatMap (fun l => readBytes s l 128)

def writeRecord (s : State) : List Loc → List Byte → State
  | [], _ => s
  | l :: ls, bs => writeRecord (writeBytes s l (bs.take 128)) ls (bs.drop 128)

/-- The address of a record checked (R213). -/
def checkRecord (s : State) (x : Env) (p : Space) (a : Nat) (acc : Acc) : Except (Bad × Mask) (List (Access × Landing)) :=
  checkEach s x { space := p, spaces := summarySpaces, size := 1024, align := 1024, acc := acc } noBad
    [((lowest x.act).getD 0, a, 1024)]

/-- The trap of a record's address, for all active lanes. -/
def trapRecord (x : Env) (b : Bad × Mask) : Verdict := .trap b.1.cause x.act 0 b.1.addr b.1.acc.code

/-- A record that an instruction reaches: its lines; or the cause it meets, or the absent lines it parks on (R306). -/
def reachRecord (s : State) (x : Env) (p : Space) (a : Nat) (acc : Acc) : Except Verdict (List Loc) :=
  match checkRecord s x p a acc with
  | .error b => .error (trapRecord x b)
  | .ok ls =>
    let away := absentOf s ls
    if away.isEmpty then .ok (recordLines s x p a) else .error (parkOn away)

/-- Does any line of a record carry poison? -/
def recordPoison (s : State) (ls : List Loc) : Bool := ls.any (fun l => s.mem.anyPoison l 128)

/-- A summary instruction commits: its stroke is not picked until the unit is done (R306). -/
def slowly (u : SlowUnit) (s : State) (ws : List WriteBack) (fs : List (Nat × Flags) := []) : Verdict :=
  .commit { st := s, writes := ws, flags := fs, slow := some u }

/-- An instruction that folds into a record of its kind; fresh is the number of entropy bits drawn before. A poisoned line of the
record stays poisoned, as under a store or an atomic (R393). The record is read and written at its unit, behind everything that the
stroke has stored before, path A's stores of the same cycle too (R221, R306). -/
def foldRecord (x : Env) (s : State) (kind : Nat) (ty : Option Nat) (g : List Byte → Nat → List Byte × Nat) : Verdict :=
  match reachRecord s x (spaceOf x.f) (recordAddr x x.f.a) .atomic with
  | .error v => v
  | .ok ls =>
    let t := x.released s
    let r := readLines t ls
    if recordBad r || field r 0 1 != kind || ty.any (· != field r 1 1) then trapLanes cTAGMISMATCH x.act
    else
      let (r', n) := g r t.fresh
      slowly .summary { writeRecord t ls r' with fresh := n } []

/-- An instruction that asks a record of its kind. -/
def askRecord (x : Env) (s : State) (kind : Nat) (ty : Option Nat)
    (g : List Byte → State → List WriteBack × List (Nat × Flags)) : Verdict :=
  match reachRecord s x (spaceOf x.f) (recordAddr x x.f.a) .load with
  | .error v => v
  | .ok ls =>
    let t := x.drained s
    let r := readLines t ls
    if recordBad r || field r 0 1 != kind || ty.any (· != field r 1 1) then trapLanes cTAGMISMATCH x.act
    else
      let (ws, fs) := g r t
      slowly .summary t (ws.map (fun w => { w with poison := recordPoison t ls })) fs

/-- The kind of coin of the issuing group (R297). -/
def coinEnt (x : Env) : Bool := x.was.coin.getLsbD 0

/-- SMINIT. -/
def bodySminit (x : Env) (s : State) : Verdict :=
  match reachRecord s x (spaceOf x.f) (recordAddr x x.f.a) .store with
  | .error v => v
  | .ok ls =>
    slowly .summary (writeRecord (x.released s) ls (freshRecord x.f.c.toNat x.f.t.toNat (x.was.coin.toNat / 2))) []

def execSminit (f : Fields) (s : State) : Host.Outcome State Fault Refusal := issue 0xB0 f (fieldsLen f) bodySminit s

/-- The values that RQS folds, in order, as f32 patterns. -/
def foldValues (x : Env) (s : State) : List Nat :=
  let t := x.ty
  (x.workers s).flatMap (fun l =>
    let v := opC s x l
    if t = .f32 then [v % 2 ^ 32]
    else [v % 2 ^ 16, v / 2 ^ 16 % 2 ^ 16].map (fun e => (cvtFloat t.fmt .f32 .rne false 2 e).1))

/-- RQS (R298). -/
def bodyRqs (x : Env) (s : State) : Verdict :=
  foldRecord x s 1 none (fun r n =>
    let k := (foldValues x s).foldl Sketch.fold (Sketch.ofBytes r (coinEnt x) n)
    (k.bytes, k.coin.n))

def execRqs (f : Fields) (s : State) : Host.Outcome State Fault Refusal := issue 0xB1 f (fieldsLen f) bodyRqs s

/-- The keys that RHH and RDC fold, in lane order. -/
def foldKeys (x : Env) (s : State) : List Nat := (x.workers s).map (fun l => opC s x l % 2 ^ x.ty.bits)

/-- RHH (R303). -/
def bodyRhh (x : Env) (s : State) : Verdict :=
  foldRecord x s 2 (some x.f.t.toNat) (fun r n =>
    (((foldKeys x s).foldl Hitters.fold (Hitters.ofBytes r)).bytes, n))

def execRhh (f : Fields) (s : State) : Host.Outcome State Fault Refusal := issue 0xB2 f (fieldsLen f) bodyRhh s

/-- RDC (R304). -/
def bodyRdc (x : Env) (s : State) : Verdict :=
  foldRecord x s 3 (some x.f.t.toNat) (fun r n =>
    (((foldKeys x s).foldl Distinct.fold (Distinct.ofBytes r)).bytes, n))

def execRdc (f : Fields) (s : State) : Host.Outcome State Fault Refusal := issue 0xB3 f (fieldsLen f) bodyRdc s

/-- Lines that get a poison mark. -/
def poisonLines (s : State) (ls : List Loc) : State :=
  { s with mem := ls.foldl (fun m l => m.setPoison l.home l.line true) s.mem }

/-- SMRG: the checks of both records come first, in their order over both, then the parking (R213). What is merged from a poisoned
source is poisoned too (log 17). The source is a load: it does not see path A's stores of the same cycle (R101). -/
def bodySmrg (x : Env) (s : State) : Verdict :=
  let p := spaceOf x.f
  let q := Space.ofCode (bits x.f.b.toNat 5 3)
  match checkRecord s x p (recordAddr x x.f.a) .atomic, checkRecord s x q (recordAddr x x.f.c) .load with
  | .error b, .error d => trapRecord x (if d.1.order < b.1.order then d else b)
  | .error b, _ => trapRecord x b
  | _, .error d => trapRecord x d
  | .ok as, .ok cs =>
    let away := absentOf s (as ++ cs)
    if !away.isEmpty then parkOn away
    else
      let la := recordLines s x p (recordAddr x x.f.a)
      let lc := recordLines s x q (recordAddr x x.f.c)
      let v := x.drained s
      let t := x.released s
      let a := readLines t la
      let c := readLines v lc
      if mergeable a c then
        let (r, n) := mergeRecords a c (coinEnt x) t.fresh
        let u := writeRecord t la r
        slowly .summary { (if recordPoison v lc then poisonLines u la else u) with fresh := n } []
      else trapLanes cTAGMISMATCH x.act

def execSmrg (f : Fields) (s : State) : Host.Outcome State Fault Refusal := issue 0xB4 f (fieldsLen f) bodySmrg s

/-- SQNT: each active lane's own q. -/
def bodySqnt (x : Env) (s : State) : Verdict :=
  askRecord x s 1 none (fun r t =>
    let k := Sketch.ofBytes r false 0
    let rs := x.lanes.map (fun l => (l, k.query (opC t x l % 2 ^ 32)))
    (putD x (rs.map (fun e => (e.1, e.2.1))), rs.map (fun e => (e.1, e.2.2))))

def execSqnt (f : Fields) (s : State) : Host.Outcome State Fault Refusal := issue 0xB5 f (fieldsLen f) bodySqnt s

/-- SEST. -/
def bodySest (x : Env) (s : State) : Verdict :=
  askRecord x s 3 none (fun r _ =>
    let e := (Distinct.ofBytes r).estimate
    (putD x (x.lanes.map (fun l => (l, e))), []))

def execSest (f : Fields) (s : State) : Host.Outcome State Fault Refusal := issue 0xB6 f (fieldsLen f) bodySest s

/-- Entry i as SHHQ gives it: key, count and error in four words. -/
def Hitters.entry (k : Hitters) (i : Nat) : Nat := match k.entries[i]? with
  | some e => e.key + 2 ^ 64 * e.cnt + 2 ^ 96 * e.err
  | none => 2 ^ 64 - 1

/-- SHHQ. -/
def bodyShhq (x : Env) (s : State) : Verdict :=
  askRecord x s 2 (some x.f.t.toNat) (fun r t =>
    let k := Hitters.ofBytes r
    (putD x (x.lanes.map (fun l => (l, k.entry (opC t x l % 2 ^ 32)))), []))

def execShhq (f : Fields) (s : State) : Host.Outcome State Fault Refusal := issue 0xB7 f (fieldsLen f) bodyShhq s

/-- A unit that keeps a stroke is done: the results land and the stroke may be picked again. SMASK writes every lane of its rows
(R327). -/
def unitDone (s : State) (k : Nat) (u : SlowUnit) : State :=
  let s := s.modStroke k (fun st =>
    let mine := (st.busy.filter (fun b => b.1 == u)).flatMap (·.2)
    let st := if u = .smask then { st with regs := st.regs.applyAll mine } else landWrites st allLanes mine
    { st with busy := st.busy.filter (fun b => b.1 != u) })
  killFinish (retireStroke s k) k

/-- SUMMARY_COMPLETE (R306). -/
def execSummaryComplete (stroke : Nat) (s : State) : Host.Outcome State Fault Refusal := .next (unitDone s stroke .summary)

end Sys2Proof.Machine
end

