-- ==== Sys2Proof/Machine/Shares.lean ====
section
/-!
DEFINITION. The share instructions (R325 to R332) and the end of an SMASK's pool read, SMASK_COMPLETE.
-/
namespace Sys2Proof.Machine

/-- The session of a share instruction, and the party of the issuing partition; none for a session that has ended, or that the group's CR.SESS does not
show, as it was placed before the session: SESSION (R325, R191, R314). -/
def sessionOf (x : Env) (s : State) : Option (Nat × Session × Nat) :=
  let n := bits x.f.b.toNat 4 1
  (s.gate.session? n).bind (fun e => if x.was.cr.joined.contains (n, e.serial) then (partyOf e (x.part s)).map (fun p => (n, e, p)) else none)

/-- A share instruction within its session. -/
def inSession (x : Env) (s : State) (g : Nat → Session → Nat → Verdict) : Verdict :=
  match sessionOf x s with
  | some (n, e, p) => g n e p
  | none => trapLanes cSESSION x.act

/-- The lanes of a mask in which a register does not carry a tag. -/
def wrongTag (x : Env) (m : Mask) (i : Nat) (t : BitVec 2) : Mask :=
  maskOf (fun l => m.getLsbD l && x.regs.tagGet i l != t)

def regA (x : Env) : Nat := (Opnd.ofCode x.f.a).index
def regD (x : Env) : Nat := (Opnd.ofCode x.f.d).index

/-- The lanes in which a v register of field C does not carry a tag; other operands are public. -/
def wrongC (x : Env) (m : Mask) (t : BitVec 2) : Mask :=
  match x.sh.c, Opnd.ofCode x.f.c with
  | .op _, .v i => wrongTag x m i t
  | _, _ => 0

/-- A result of the instruction's share type for each active lane. -/
def shareResult (x : Env) (s : State) (g : Nat → Nat) : Verdict :=
  .commit { st := s, writes := x.lanes.flatMap (fun l => putV (regD x) l (g l % 2 ^ 32) x.ty.tag false 1) }

/-- SADD and SSUB: PUB takes a public C, which party 0 alone adds (R326). -/
def localPair (neg : Bool) (x : Env) (s : State) : Verdict :=
  inSession x s (fun _ _ p =>
    let pub := bit x.f.m.toNat 0
    let bad := wrongTag x x.act (regA x) 1 ||| wrongC x x.act (if pub then 0 else 1)
    if bad ≠ 0 then trapLanes cSHARETAG bad
    else shareResult x s (fun l =>
      let a := opA s x l
      let c := opC s x l % 2 ^ 32
      if pub && p != 0 then a else if neg then a + 2 ^ 32 - c else a + c))

def execSadd (f : Fields) (s : State) : Host.Outcome State Fault Refusal := issue 0xC0 f (fieldsLen f) (localPair false) s
def execSsub (f : Fields) (s : State) : Host.Outcome State Fault Refusal := issue 0xC1 f (fieldsLen f) (localPair true) s

/-- SMULK. -/
def bodySmulk (x : Env) (s : State) : Verdict :=
  inSession x s (fun _ _ _ =>
    let bad := wrongTag x x.act (regA x) 1 ||| wrongC x x.act 0
    if bad ≠ 0 then trapLanes cSHARETAG bad else shareResult x s (fun l => opA s x l * opC s x l))

def execSmulk (f : Fields) (s : State) : Host.Outcome State Fault Refusal := issue 0xC2 f (fieldsLen f) bodySmulk s

/-- SXOR. -/
def bodySxor (x : Env) (s : State) : Verdict :=
  inSession x s (fun _ _ p =>
    let m := x.f.m.toNat
    let bad := wrongTag x x.act (regA x) 2 |||
      (if m = 0 then wrongC x x.act 2 else if m ≤ 2 then wrongC x x.act 0 else 0)
    if bad ≠ 0 then trapLanes cSHARETAG bad
    else shareResult x s (fun l =>
      let a := opA s x l % 2 ^ 32
      let c := opC s x l % 2 ^ 32
      let k := x.f.c.toNat % 32
      match m with
      | 0 => a ^^^ c
      | 1 => a &&& c
      | 2 => if p = 0 then a ^^^ c else a
      | 3 => if p = 0 then 2 ^ 32 - 1 - a else a
      | 4 => a <<< k
      | _ => a >>> k))

def execSxor (f : Fields) (s : State) : Host.Outcome State Fault Refusal := issue 0xC7 f (fieldsLen f) bodySxor s

/-! ## SMASK (R327) -/

/-- The pool kind that SMASK's mode and type select. -/
def maskKind (x : Env) : Nat := match x.f.m.toNat with
  | 0 => if x.ty = .sa32 then 0 else 1
  | 1 => 2
  | _ => 3

/-- Bytes of a record of a kind, and of a lane's entry (R318). -/
def poolRecord (kind : Nat) : Nat := if kind ≤ 1 then 384 else 256
def poolEntry (kind : Nat) : Nat := if kind ≤ 1 then 12 else 8

/-- The five words that SMASK writes in a lane, each with its tag, from the lane's entry. -/
def maskRows (kind : Nat) (x y : Nat) (e : List Byte) : List (Nat × BitVec 2) :=
  let w (i : Nat) : Nat := field e (4 * i) 4
  match kind with
  | 0 => [(x + 2 ^ 32 - w 0, 3), (y + 2 ^ 32 - w 1, 3), (w 0, 1), (w 1, 1), (w 2, 1)]
  | 1 => [(x ^^^ w 0, 3), (y ^^^ w 1, 3), (w 0, 2), (w 1, 2), (w 2, 2)]
  | 2 => [((x ^^^ w 0) % 2, 3), (0, 3), (w 1, 1), (0, 0), (0, 0)]
  | _ => [(x + w 0, 3), (0, 3), (w 1, 2), (w 0, 1), (0, 0)]

/-- The words of lane l, zeros with the same tags in an inactive lane. -/
def maskLane (x : Env) (s : State) (kind : Nat) (rcd : List Byte) (poison : Bool) (l : Nat) : List WriteBack :=
  let rows := maskRows kind (opA s x l % 2 ^ 32) (opC s x l % 2 ^ 32) ((rcd.drop (poolEntry kind * l)).take (poolEntry kind))
  (rows.zipIdx).flatMap (fun r =>
    if x.act.getLsbD l then putV (regD x + r.2) l (r.1.1 % 2 ^ 32) r.1.2 poison 1 else putV (regD x + r.2) l 0 r.1.2 false 1)

/-- The pieces of 128 bytes in which a record is read, those that lie across a page boundary in two. -/
def recordPieces (base n : Nat) : List (Nat × Nat) :=
  (List.range (n / 128)).flatMap (fun i =>
    let a := base + 128 * i
    let k := 4096 - a % 4096
    if k < 128 then [(a, k), (a + k, 128 - k)] else [(a, 128)])

/-- SMASK: the record is read, then NEXT moves and the rows are written. -/
def bodySmask (x : Env) (s : State) : Verdict :=
  inSession x s (fun n e p =>
    let kind := maskKind x
    let bad := wrongTag x x.act (regA x) x.ty.tag ||| (if kind ≤ 1 then wrongC x x.act x.ty.tag else 0)
    let t := e.next? p kind
    match (e.pools[p]?).bind (fun ps => ps.find? (fun q => q.kind == kind)) with
    | none => trapLanes cSESSION x.act
    | some pool =>
      if bad ≠ 0 then trapLanes cSHARETAG bad
      else if pool.count ≤ t then trapLanes cSESSION x.act
      else
        let l0 := (lowest x.act).getD 0
        let base := pool.addr.toNat + poolRecord kind * t
        let want : Want :=
          { space := if pool.inD then .D else .G, spaces := [.D, .G], size := 128, align := 0, acc := .load, share := true }
        match checkEach s x want noBad ((recordPieces base (poolRecord kind)).map (fun p => (l0, p.1, p.2))) with
        | .error b => .trap b.1.cause x.act 0 b.1.addr b.1.acc.code
        | .ok ls =>
          let (u, q) := settle s x (ls.map (fun a => (a.2.loc, a.1.2.2)))
          let rcd := ls.flatMap (fun a => loadBytes u q a.2.loc a.1.2.2)
          let poison := ls.any (fun a => u.mem.anyPoison a.2.loc a.1.2.2)
          let u := u.modGate (fun g => g.modSession n (fun e => { e with next := mapPut e.next (partyKey p kind) (t + 1) }))
          let u := u.modStroke x.key (fun st => { st with
            owes := st.owes ++ [(n, kind, t)]
            regs := { st.regs with
              rows := mapPut (mapPut st.regs.rows (regD x) { kind := kind, index := t }) (regD x + 1) { kind := kind, index := t } } })
          slowly .smask u ((lanesOf allLanes).flatMap (maskLane x s kind rcd poison)))

def execSmask (f : Fields) (s : State) : Host.Outcome State Fault Refusal := issue 0xC3 f (fieldsLen f) bodySmask s

/-- SMASK_COMPLETE (R327). -/
def execSmaskComplete (stroke : Nat) (s : State) : Host.Outcome State Fault Refusal := .next (unitDone s stroke .smask)

/-! ## SXCH and SREV (R328, R332) -/

/-- A future done at once with a word. -/
def futureSet (s : State) (x : Env) (i : Nat) (w : Word) : State :=
  s.modStroke x.key (fun st => { st with regs := st.regs.fSet i (.done w) })

/-- Words sent to the gate behind a pending future: number s.nextId is the operation, the next one the message. -/
def sendGate (x : Env) (s : State) (fut : Nat) (counts : Bool) (m : GateMsg) : Verdict :=
  let op := s.nextId
  let s := futurePending s x fut op
  let s := s.modGate (fun g => { g with inbox := g.inbox ++ [{ m with id := op + 1, stroke := x.key, flight := op, op := op }] })
  .commit { st := { s with nextId := op + 2 }, later := some op, waitFor := 1, counts := counts, engine := true }

/-- A message without its numbers. -/
def gateMsg (x : Env) (s : State) (n p : Nat) (rev : Bool) (kind index : Nat) (reg : Nat) (two : Bool) : GateMsg :=
  let m := maskOf (fun l => (x.workers s).contains l)
  let src := regA x
  { id := 0, session := n, party := p, part := x.part s, rev := rev, kind := kind, index := index
    xor := x.ty == .sx32, mask := m, w0 := (lanesOf m).map (fun l => x.regs.vGet src l)
    w1 := if two then (lanesOf m).map (fun l => x.regs.vGet (src + 1) l) else []
    stroke := x.key, flight := 0, reg := reg, op := 0 }

/-- The type of a masked row's kind (R318). -/
def kindXor (kind : Nat) : Bool := kind == 1 || kind == 2

/-- SXCH. -/
def bodySxch (x : Env) (s : State) : Verdict :=
  inSession x s (fun n e p =>
    let v := regA x
    let fut := regD x
    let m := maskOf (fun l => (x.workers s).contains l)
    let bad := wrongTag x m v 3 ||| wrongTag x m (v + 1) 3
    let r0 := mapGet x.regs.rows v { kind := 0, index := 0 }
    let r1 := mapGet x.regs.rows (v + 1) { kind := 0, index := 0 }
    if bad ≠ 0 then trapLanes cGATEPROV bad
    else if r0 ≠ r1 ∨ kindXor r0.kind ≠ (x.ty == .sx32) then trapLanes cGATEPROV x.act
    else if r0.index < e.lastPlus p r0.kind then plain (futureSet s x fut 1)
    else
      let s := s.modGate (fun g => g.modSession n (fun e => { e with last1 := mapPut e.last1 (partyKey p r0.kind) (r0.index + 1) }))
      let s := s.modStroke x.key (fun st => { st with owes := st.owes.filter (· != (n, r0.kind, r0.index)) })
      sendGate x s fut true (gateMsg x s n p false r0.kind r0.index v true))

def execSxch (f : Fields) (s : State) : Host.Outcome State Fault Refusal := issue 0xC4 f (fieldsLen f) bodySxch s

/-- SREV: the party's next sequence number; that of an aborted round completes at once (R322). -/
def bodySrev (x : Env) (s : State) : Verdict :=
  inSession x s (fun n e p =>
    let m := maskOf (fun l => (x.workers s).contains l)
    let bad := wrongTag x m (regA x) x.ty.tag
    let fut := (Opnd.ofCode x.f.c).index
    let seq := mapGet e.seq p 0
    if bad ≠ 0 then trapLanes cSHARETAG bad
    else
      let s := s.modGate (fun g => g.modSession n (fun e => { e with seq := mapPut e.seq p (seq + 1) }))
      if e.dead.contains seq then plain (futureSet s x fut 1)
      else sendGate x s fut false (gateMsg x s n p true 0 seq (regD x) false))

def execSrev (f : Fields) (s : State) : Host.Outcome State Fault Refusal := issue 0xC9 f (fieldsLen f) bodySrev s

/-! ## SFIN, STRN, SDAB (R329 to R331) -/

/-- Word i of the block that A names. -/
def blockWord (x : Env) (l i : Nat) : Nat := (x.regs.vGet (regA x + i) l).toNat

/-- SFIN. -/
def bodySfin (x : Env) (s : State) : Verdict :=
  inSession x s (fun _ _ p =>
    let t := x.ty.tag
    let v := regA x
    let bad := wrongTag x x.act v 0 ||| wrongTag x x.act (v + 1) 0 ||| wrongTag x x.act (v + 2) t |||
      wrongTag x x.act (v + 3) t ||| wrongTag x x.act (v + 4) t
    if bad ≠ 0 then trapLanes cSHARETAG bad
    else shareResult x s (fun l =>
      let d := blockWord x l 0
      let e := blockWord x l 1
      let a := blockWord x l 2
      let b := blockWord x l 3
      let c := blockWord x l 4
      if x.ty = .sa32 then c + d * b + e * a + (if p = 0 then d * e else 0)
      else c ^^^ (d &&& b) ^^^ (e &&& a) ^^^ (if p = 0 then d &&& e else 0)))

def execSfin (f : Fields) (s : State) : Host.Outcome State Fault Refusal := issue 0xC5 f (fieldsLen f) bodySfin s

/-- STRN: only in a session of two parties. -/
def bodyStrn (x : Env) (s : State) : Verdict :=
  inSession x s (fun _ e p =>
    let bad := wrongTag x x.act (regA x) 1
    let k := x.f.c.toNat % 32
    if e.parties.length ≠ 2 then trapLanes cSESSION x.act
    else if bad ≠ 0 then trapLanes cSHARETAG bad
    else shareResult x s (fun l =>
      let a := opA s x l % 2 ^ 32
      if p = 0 then a >>> k else 2 ^ 32 - ((2 ^ 32 - a) % 2 ^ 32) >>> k))

def execStrn (f : Fields) (s : State) : Host.Outcome State Fault Refusal := issue 0xC6 f (fieldsLen f) bodyStrn s

/-- SDAB. -/
def bodySdab (x : Env) (s : State) : Verdict :=
  inSession x s (fun _ _ p =>
    let bad := wrongTag x x.act (regA x) 0 ||| wrongTag x x.act (regA x + 2) 1
    if bad ≠ 0 then trapLanes cSHARETAG bad
    else shareResult x s (fun l =>
      let c := blockWord x l 0 % 2
      let r := blockWord x l 2
      (if c = 1 then 2 ^ 32 - r else r) + (if p = 0 then c else 0)))

def execSdab (f : Fields) (s : State) : Host.Outcome State Fault Refusal := issue 0xC8 f (fieldsLen f) bodySdab s

end Sys2Proof.Machine
end

