-- ==== Sys2Proof/Machine/Sessions.lean ====
section
/-!
DEFINITION. The events of the share gate: GATE_WORDS and GATE_TIMEOUT (R320, R321), and the life of sessions (R312, R314).
-/
namespace Sys2Proof.Machine

/-- GATE_WORDS: words of a party reach the gate. -/
def execGateWords (id : Nat) (s : State) : Host.Outcome State Fault Refusal :=
  match s.gate.inbox.find? (fun m => m.id == id) with
  | some m => .next (sweepRetired (gateReceive s m))
  | none => .next s

/-- GATE_TIMEOUT: a round that has been open for its session's timeout aborts. -/
def execGateTimeout (session round : Nat) (s : State) : Host.Outcome State Fault Refusal :=
  match s.gate.rounds.find? (fun r => r.id == round && r.session == session), s.gate.session? session with
  | some r, some x => .next (if r.opened + x.timeout ≤ s.ns then sweepRetired (gateSweep (abortRound s r)) else s)
  | _, _ => .next s

/-- The OWNER field of a party. -/
def grantOwner (g : Grant) (p : Nat) : List Byte := (g.record.drop (32 + 32 * p)).take 32

/-- Does the owner of a partition stand in the grant record as a party, and does that owner's signature over the record's digest verify? -/
def ownerOk (s : State) (g : Grant) (party part : Nat) : Bool :=
  (s.part? part).any (fun p =>
    (Config.shake256 p.owner).take 32 == grantOwner g party &&
      Config.ed448Verify p.owner (Config.shake256 g.record) ((g.signatures[party]?).getD []))

/-- Does a grant record pass its check (R312)? -/
def grantOk (s : State) (g : Grant) : Bool :=
  let r := g.record
  let n := field r 4 1
  r.length == 128 && field r 0 4 == 0x53594341 && (n == 2 || n == 3) && g.parties.length == n &&
    decide (g.parties.eraseDups.length = g.parties.length) && decide (field r 5 1 < 8) && field r 6 2 == 0 &&
    !s.gate.nonces.contains (BitVec.ofNat 64 (field r 24 8)) && (n == 3 || (grantOwner g 2).all (· == 0)) &&
    g.parties.zipIdx.all (fun e => ownerOk s g e.2 e.1)

/-- Bytes of a pool's record (R318). -/
def poolStride (kind : Nat) : Nat := if kind ≤ 1 then 384 else 256

/-- Does a pool lie in share pages of its partition, in the space that firmware chose (R312, R318)? -/
def poolShared (s : State) (part : Nat) (p : Pool) : Bool :=
  let n := poolStride p.kind * p.count
  (List.range (n / 4096 + 2)).all (fun i =>
    let a := if i = 0 then p.addr.toNat else p.addr.toNat / 4096 * 4096 + 4096 * i
    decide (p.addr.toNat + n ≤ a) || (match walkPage s part a with
      | .ok e => e.share && e.kind == (if p.inD then 1 else 0)
      | .error _ => false))

/-- Each party has all four pools, each of 1 to 2^24 records, in its own share pages. -/
def poolsOk (s : State) (parties : List Nat) (ps : List (List Pool)) : Bool :=
  decide (ps.length = parties.length) && (ps.zip parties).all (fun e =>
    (List.range 4).all (fun k => (e.1.filter (fun p => p.kind == k)).length == 1) &&
      e.1.all (fun p => decide (1 ≤ p.count) && decide (p.count ≤ 2 ^ 24) && poolShared s e.2 p))

/-- SESSION_CREATE. -/
def execSessionCreate (num : Nat) (grant : Grant) (pools : List (List Pool)) (s : State) : Host.Outcome State Fault Refusal :=
  if num < Config.sessions ∧ (s.gate.session? num).isNone ∧ grantOk s grant = true ∧ poolsOk s grant.parties pools = true then
    let r := grant.record
    let us := if field r 12 4 = 0 then 10000 else field r 12 4
    let x : Session :=
      { parties := grant.parties, recv := BitVec.ofNat 8 (field r 5 1), budget := field r 8 4, timeout := 1000 * us
        expiry := field r 16 8, pools := pools, serial := s.nextId }
    .next ({ s with nextId := s.nextId + 1 }.modGate (fun g => { g with sessions := mapPut g.sessions num x, nonces := BitVec.ofNat 64 (field r 24 8) :: g.nonces }))
  else .next s

/-- SESSION_END. -/
def execSessionEnd (num : Nat) (s : State) : Host.Outcome State Fault Refusal := .next (sweepRetired (endSession s num))

/-- SESSION_EXPIRY. -/
def execSessionExpiry (num : Nat) (s : State) : Host.Outcome State Fault Refusal :=
  match s.gate.session? num with
  | some x => .next (if x.expiry ≠ 0 ∧ x.expiry ≤ s.ns then sweepRetired (endSession s num) else s)
  | none => .next s

end Sys2Proof.Machine
end

