-- ==== Sys2Proof/Machine/Interruption.lean ====
section
/-!
DEFINITION. The delivery of traps (R371), the ends of system-tier faults (R375, R377, R387), kills and resets (R374, R377),
and time slices: saves and restores (R112, R378 to R383).
-/
namespace Sys2Proof.Machine

/-! ## TRAP_DELIVERY -/

/-- TRAP_DELIVERY: a trap that waited for what its stroke had in flight. -/
def execTrapDelivery (agent : AgentId) (s : State) : Host.Outcome State Fault Refusal :=
  match agent with
  | .stroke k => match s.stroke? k with
    | some st => if trapReady st && !halted s ((s.group? st.group).elim 0 (·.part)) (coreOf st.group) then .next (deliverTrap s k) else .next s
    | none => .next s
  | .ctx _ => .next s

/-! ## Kills (R374) -/

/-- KILL_STROKE and KILL_CONTEXT. -/
def execKillStroke (stroke : Nat) (s : State) : Host.Outcome State Fault Refusal := .next (killStroke s stroke)
def execKillContext (ctx : Nat) (s : State) : Host.Outcome State Fault Refusal := .next (killCtx s ctx)

/-- The ranges of a launch gone from the schedulers, those on their way between two of them as well. -/
def dropRanges (s : State) (id : Nat) : State :=
  let keep (l : List Range) : List Range := l.filter (fun r => r.launch != id)
  { s with scheds := s.scheds.map (fun e => (e.1, { e.2 with
      ranges := keep e.2.ranges, transit := keep e.2.transit
      steal := e.2.steal.map (fun q => { q with reply := q.reply.map keep }) })) }

/-- Fault records that hold an access for a launch, withdrawn. -/
def dropLaunchFaults (s : State) (id : Nat) : State :=
  { s with parts := s.parts.map (fun e => (e.1, { e.2 with faults := e.2.faults.filter (fun f => f.launch != some id) })) }

/-- A launch that waited for a successor to find room, which is gone, goes on. -/
def unblock (s : State) (id : Nat) : State :=
  s.launches.foldl (fun s e =>
    if e.2.blocked = some id then concludeLaunch (s.modLaunch e.1 (fun l => { l with blocked := none })) e.1 else s) s

/-- The strokes and contexts of a group killed. -/
def killGroup (s : State) (g : Nat) : State := (strokesOf s g).foldl killStroke (killCtx s g)

/-- The saved groups of a launch killed. -/
def killSaved (s : State) (part id : Nat) : State :=
  let owes := (s.part? part).elim [] (fun p => p.save.strokes.flatMap (fun e =>
    if (mapGet? p.save.groups (groupOf e.1)).any (fun gr => gr.launch == id) && !e.2.killed && !e.2.retired then e.2.owes else []))
  (forfeit s owes).modPart part (fun p =>
    let mine (g : Nat) : Bool := (mapGet? p.save.groups g).any (fun gr => gr.launch == id)
    { p with save := { p.save with
        groups := p.save.groups.map (fun e => (e.1, if mine e.1 && p.save.strokes.any (fun k => groupOf k.1 == e.1 && !k.2.retired) then
          { e.2 with damaged := true } else e.2))
        strokes := p.save.strokes.map (fun e => (e.1, if mine (groupOf e.1) then e.2.slain else e.2))
        ctxs := p.save.ctxs.map (fun e => (e.1, if mine e.1 then e.2.slain else e.2)) } })

/-- A whole launch killed: nothing more of it is placed, what is placed is killed, and it ends FAILED once that is gone. -/
def killLaunch (s : State) (id : Nat) : State :=
  match s.launch? id with
  | none => s
  | some l => match l.phase with
    | .ending | .signalled | .waiting => s
    | _ =>
      let s := dropLaunchFaults (dropRanges (unlist s l.part id) id) id
      let s := s.modLaunch id (fun l => { l with failed := true, killed := true, next := l.total, phase := .resident, nomethod := none })
      let s := ((s.groups.filter (fun e => e.2.launch == id)).map (·.1)).foldl killGroup s
      let s := unblock (killSaved s l.part id) id
      match s.launch? id with
      | some l => retireLaunch s l
      | none => s

/-- KILL_LAUNCH. -/
def execKillLaunch (id : Nat) (s : State) : Host.Outcome State Fault Refusal := .next (killLaunch s id)

/-- The launches of a partition. -/
def launchesOf (s : State) (part : Nat) : List Nat := (s.launches.filter (fun e => e.2.part == part)).map (·.1)

/-- The groups of a partition on the cores. -/
def groupsOfPart (s : State) (part : Nat) : List Nat := (s.groups.filter (fun e => e.2.part == part)).map (·.1)

/-- Copies of a partition end FAULT; firmware's records for them are withdrawn. -/
def faultCopies (s : State) (part : Nat) (which : Copy → Bool) : State :=
  let hit (c : Copy) : Bool := c.part == part && which c
  let ids := (s.copies.filter hit).map (·.id)
  let s := mapCopies s (fun c => if hit c then { c with started := true, fault := true, stalled := none } else c)
  s.modPart part (fun p => { p with faults := p.faults.filter (fun f => !(f.copy.any ids.contains)) })

/-! ## System-tier faults (R375) -/

/-- The fault record with a token. -/
def findFault (s : State) (token : Nat) : Option FaultRec := s.parts.findSome? (fun e => e.2.faults.find? (fun f => f.token == token))

def dropFault (s : State) (token : Nat) : State :=
  { s with parts := s.parts.map (fun e => (e.1, { e.2 with faults := e.2.faults.filter (fun f => f.token != token) })) }

/-- What a peer write does when it is taken up again. -/
def flitEvent (f : Flit) : Instr := match f.body with
  | .signal _ _ _ => .signalArrival { flit := f }
  | _ => .peerStoreArrival { flit := f }

/-- A fault resumed: whatever it held issues afresh. -/
def resumeFault (s : State) (r : FaultRec) : State :=
  let s := dropFault s r.token
  match r.agent, r.copy, r.flit with
  | some (.stroke k), _, _ => s.modStroke k (fun st => { st with fault := if st.fault = some r.token then none else st.fault })
  | some (.ctx g), _, _ => s.modCtx g (fun c => { c with fault := if c.fault = some r.token then none else c.fault })
  | none, some c, _ => modCopy s c (fun c => { c with stalled := none })
  | none, none, some f => { s with agenda := flitEvent f :: s.agenda }
  | none, none, none => s

/-- FAULT_RESUME. -/
def execFaultResume (token : Nat) (s : State) : Host.Outcome State Fault Refusal :=
  match findFault s token with
  | some r => .next (resumeFault s r)
  | none => .next s

/-- Does a fault record hold nothing any more? -/
def FaultRec.idle (r : FaultRec) : Bool := r.agent.isNone && r.copy.isNone && r.launch.isNone && r.flit.isNone

/-- A fault ended: the stroke or context is killed, the copy ends FAULT, the access for a launch or the peer write is given up. One that
firmware ends it reports to the partition's function, with the record. -/
def endFault (s : State) (r : FaultRec) : State :=
  let s := dropFault s r.token
  let s := if r.cause = cPAGEFAULT ∨ r.idle then s else tellFunction (reportError s r.part r.cause r.token) r
  match r.agent, r.copy, r.launch, r.flit with
  | some a, _, _, _ => killAgent s a
  | none, some c, _, _ => modCopy s c (fun c => { c with started := true, fault := true, stalled := none })
  | none, none, some l, _ => s.modLaunch l (fun l => { l with ended := r.va :: l.ended })
  | none, none, none, some f => match f.body with
    | .signal _ _ _ => ackFlit (countUp s r.part 7 1) f
    | _ => dropPeer s (some r.part) f
  | none, none, none, none => s

/-- FAULT_KILL. -/
def execFaultKill (token : Nat) (s : State) : Host.Outcome State Fault Refusal :=
  match findFault s token with
  | some r => .next (endFault s r)
  | none => .next s

/-! ## Firmware and stage 2 (R377, R387) -/

/-- The stage-2 entry at which the walk of an IPA ends: its physical address and level. -/
def entryAt2 (s : State) (ipa : Nat) : Nat → Nat → Nat → Option (Nat × Nat)
  | 0, _, _ => none
  | fuel + 1, lvl, tab =>
    let idx := levelIndex lvl ipa
    match entry2 lvl (bytesNat (memRead s.mem.g (tab + 8 * idx) 8)) with
    | .table t => entryAt2 s ipa fuel (lvl + 1) t
    | _ => some (tab + 8 * idx, lvl)

/-- The entry of a partition, its level, its word, and the size of what it maps, run included (R208). -/
def findEntry2 (s : State) (part ipa : Nat) : Option (Nat × Nat × Nat × Nat) :=
  match s.part? part with
  | some p => (entryAt2 s ipa 4 0 p.s2root).map (fun e =>
      let w := bytesNat (memRead s.mem.g e.1 8)
      (e.1, e.2, w, ((runLength e.2 (bits w 51 50)).getD 1) * 2 ^ levelShift e.2))
  | none => none

/-- The entries of a run rewritten, each by a function of its word. -/
def putEntries (s : State) (at_ lvl size : Nat) (g : Nat → Nat) : State :=
  let n := size / 2 ^ levelShift lvl
  let first := at_ / (8 * n) * (8 * n)
  { s with mem := { s.mem with
      g := (List.range n).foldl (fun m i => memWrite m (first + 8 * i) (natBytes 8 (g (bytesNat (memRead m (first + 8 * i) 8))))) s.mem.g } }

/-- A stage-2 word with a physical address. -/
def withPa (w pa : Nat) : Nat := w - bits w 44 12 * 4096 + bits pa 44 12 * 4096

/-- Does a page of a size at a physical address lie in the memory of its KIND, at an address that an entry can name (R1, R210)? -/
def pageFits (kind pa size : Nat) : Bool := exists_ kind (pa + size - 1) && decide (pa + size ≤ 2 ^ 45)

/-- The lines of a home that hold anything in a range, or have a mark or a key. -/
def linesIn (s : State) (at_ : Home) (lo size : Nat) : List Nat :=
  let here (l : Nat) : Bool := decide (lo / 128 ≤ l) && decide (l < (lo + size) / 128)
  let cells := ((s.mem.home at_).filter (fun c => decide (lo ≤ c.1) && decide (c.1 < lo + size))).foldl (fun (m : Map Unit) (c : Nat × Byte) => mapPut m (c.1 / 128) ()) []
  let marks : Map Bool := match at_ with
    | .u => s.mem.poisU
    | .c => s.mem.poisC
    | .d => s.mem.poisD
    | .g => s.mem.poisG
    | .h => s.mem.poisH
  let keys : List Nat := if at_ = .g then s.mem.keyTag.map (·.1) else []
  (((marks.map (·.1)) ++ keys).filter here).foldl (fun (m : Map Unit) l => mapPut m l ()) cells |>.map (fun e => e.1 - lo / 128)

/-- A page copied to another under one key, with the marks of its lines. -/
def copyPage (s : State) (home : Home) (key old new size : Nat) : State :=
  let lines := (linesIn s home old size ++ linesIn s home new size).eraseDups
  lines.foldl (fun t i =>
    let t := writeBytes t { home := home, addr := new + 128 * i, key := key } (readBytes s { home := home, addr := old + 128 * i, key := key } 128)
    { t with mem := t.mem.setPoison home (new / 128 + i) (s.mem.poisoned home (old / 128 + i)) }) s

/-- The IPA of a virtual address under stage 1. -/
def ipaOf (s : State) (part va : Nat) : Option Nat :=
  match s.part? part with
  | some p => match walk1From s part va 4 0 p.s1root with
    | .ok l => some (l.phys (bits va 56 0))
    | .error _ => none
  | none => none

/-- A page of a partition goes to another place of its KIND, with what it holds and its marks; g is what else becomes of its entries (R387,
R397). -/
def movePage (s : State) (part ipa newPa : Nat) (g : Nat → Nat) : State :=
  match findEntry2 s part ipa with
  | some (at_, lvl, w, size) =>
    if bits w 1 0 ≠ 3 ∨ newPa % size ≠ 0 ∨ pageFits (bits w 11 10) newPa size = false then s
    else
      let hm := homeOfKind (bits w 11 10)
      let t := copyPage s hm (if hm = .g then bits w 63 52 else 0) (bits w 44 12 * 4096) newPa size
      invalidate (putEntries t at_ lvl size (fun w => g (withPa w newPa))) part
  | none => s

/-- A page of a partition that cannot be read is left with V = 0 (R397). -/
def losePage (s : State) (part ipa : Nat) : State :=
  match findEntry2 s part ipa with
  | some (at_, lvl, w, size) =>
    if bits w 1 0 ≠ 3 then s else invalidate (putEntries s at_ lvl size (fun w => w - w % 2)) part
  | none => s

/-- COW_RESOLVE: the steps of R387; an entry whose COW is 0 by now is resumed without a copy. -/
def execCowResolve (token newPa : Nat) (s : State) : Host.Outcome State Fault Refusal :=
  match findFault s token with
  | some r =>
    let ipa := (ipaOf s r.part r.va).getD 0
    match (ipaOf s r.part r.va).bind (findEntry2 s r.part) with
    | some (_, _, w, size) =>
      if r.cause ≠ cS2FAULT ∨ bits w 1 0 ≠ 3 then .next s
      else if bit w 48 = false then .next (resumeFault s r)
      else if newPa % size ≠ 0 ∨ pageFits (bits w 11 10) newPa size = false then .next s
      else .next (resumeFault (movePage s r.part ipa newPa (fun w => w - (if bit w 48 then 2 ^ 48 else 0))) r)
    | none => .next s
  | none => .next s

/-- A launch of a partition that has become FAILED ends at once. -/
def failLaunch (s : State) (id : Nat) : State :=
  match s.launch? id with
  | some l => match l.phase with
    | .queued | .ending | .signalled | .waiting => s
    | _ =>
      let s := dropLaunchFaults (dropRanges (unlist s l.part id) id) id
      concludeLaunch (s.modLaunch id (fun l => { l with phase := .ending, failed := true, code := codeFAILED })) id
  | none => s

/-- A partition becomes FAILED (R377). -/
def failPartition (s : State) (part : Nat) : State :=
  let s := s.modPart part (fun p => { p with failed := true })
  let s := (launchesOf s part).foldl failLaunch s
  sweepRetired (abortRoundsOf (faultCopies s part (fun _ => true)) part)

/-- PAGE_PULL: the page arrives, is installed and the access is resumed; or the pull fails. -/
def execPagePull (token : Nat) (pulled : Option (Nat × List Byte)) (s : State) : Host.Outcome State Fault Refusal :=
  match findFault s token with
  | none => .next s
  | some r =>
    if r.cause ≠ cS2FAULT then .next s
    else match pulled with
      | none =>
        let s := s.modPart r.part (fun p => { p with
          faults := p.faults.map (fun f => if f.token = token then { f with cause := cPAGELOST } else f) })
        .next (reportError (failPartition s r.part) r.part cPAGELOST token)
      | some (pa, bytes) => match findEntry2 s r.part r.va with
        | some (at_, lvl, w, size) =>
          if bit w 0 = true ∨ bits w 11 10 = 3 ∨ pa % size ≠ 0 ∨ pageFits (bits w 11 10) pa size = false then .next s
          else
            let hm := homeOfKind (bits w 11 10)
            let t := writeBytes s { home := hm, addr := pa, key := if hm = .g then bits w 63 52 else 0 } (bytes.take size)
            let t := putEntries t at_ lvl size (fun w => (withPa w pa) ||| (if lvl = 3 then 3 else 1))
            .next (resumeFault (invalidate t r.part) r)
        | none => .next s

/-! ## Time slices (R378 to R383) -/

/-- The FIFO of a stroke drains, and what it completes is delivered. -/
def drainStroke (s : State) (k : Nat) : State :=
  let q := fifoOf s (.stroke k)
  (q.filterMap (·.op?)).foldl (fun s o => completeIfDone s k o) (settleFifo q.length s (.stroke k))

/-- The FIFO of a stroke drains, and its issued work completes. -/
def settleStroke (s : State) (k : Nat) : State :=
  let s := drainStroke s k
  let s := unitDone (unitDone s k .summary) k .smask
  let open_ := (s.stroke? k).elim [] (fun st => st.inflight.filter (fun i => !i.engine))
  let s := open_.foldl (fun s i => if i.waitFor = 0 then opOver (sampleLatency s k i) k i.id 0 else s) s
  killFinish (retireStroke s k) k

/-- Step 2 of R378 for some groups. -/
def settleGroups (s : State) (gs : List Nat) : State :=
  let s := (gs.flatMap (strokesOf s)).foldl settleStroke s
  let s := gs.foldl (fun s g => settleFifo (fifoOf s (.ctx g)).length s (.ctx g)) s
  (s.fired.filter (fun r => gs.contains r.group)).foldl completeFired s

/-- Has a FIFO of a group still to wait for a write to another core? Its core is not saved before that has landed or been dropped. -/
def drained (s : State) (g : Nat) : Bool :=
  (fifoOf s (.ctx g)).isEmpty && (strokesOf s g).all (fun k => (fifoOf s (.stroke k)).isEmpty)

/-- A lane as a save leaves it: waits at FUSE and BAR stay (R379). -/
def savedLane (x : Lane) : Lane := { x with aging := 0 }

/-- A stroke as a save leaves it (R379): waits and an outstanding fault are abandoned. -/
def savedStroke (st : Stroke) : Stroke :=
  { st with
    lanes := st.lanes.map savedLane, fault := none, yielded := false
    park := match st.park with
      | some (.baton m n) => some (.baton m n)
      | _ => none }

def savedCtx (c : ScribeCtx) : ScribeCtx := { c with fault := none, cueWait := none, lockWait := false, parkLine := none, lastIssue := 0 }

/-- The timeout count of a collecting round as cycles gone by, and back (R281). -/
def Group.shift (gr : Group) (g : Nat → Nat) : Group :=
  { gr with cvs := gr.cvs.map (fun e => (e.1, { e.2 with round := e.2.round.map (fun r => { r with started := g r.started }) })) }

/-- Firmware's record of a fault whose instruction has been abandoned: it may still resolve a stage-2 fault while the partition is out, and then
has nothing to resume; what the guest would have answered is withdrawn (R379). -/
def FaultRec.abandoned (mine : Nat → Bool) (f : FaultRec) : Option FaultRec :=
  if f.agent.any (fun a => match a with
    | .stroke k => mine (groupOf k)
    | .ctx g => mine g) then (if f.cause = cS2FAULT then some { f with agent := none } else none)
  else some f

/-- Some groups of a partition brought to rest: their waits and the faults that they stand at are abandoned (R379). -/
def quiesce (s : State) (part : Nat) (gs : List Nat) : State :=
  let mine (g : Nat) : Bool := gs.contains g
  let s := { s with
    strokes := s.strokes.map (fun (e : Nat × Stroke) => (e.1, if mine (groupOf e.1) then savedStroke e.2 else e.2))
    ctxs := s.ctxs.map (fun (e : Nat × ScribeCtx) => (e.1, if mine e.1 then savedCtx e.2 else e.2))
    groups := s.groups.map (fun (e : Nat × Group) => (e.1, if mine e.1 then e.2.shift (s.cycle - ·) else e.2)) }
  s.modPart part (fun p => { p with faults := p.faults.filterMap (·.abandoned mine) })

/-- The request bits of the slots of some groups of a core. -/
def slotBits (gs : List Nat) (core : Nat) : BitVec 8 :=
  (gs.filter (fun g => coreOf g == core)).foldl (fun b g => b ||| BitVec.ofNat 8 (2 ^ slotOf g)) 0

/-- What is saved of a core: its locks and baton state (R112, R380). -/
def savedCore (c : Core) (gs : List Nat) (core part : Nat) : Core :=
  { locks := c.locks.filter (fun l => l.part == part)
    baton := if c.baton.any (fun b => gs.contains (8 * core + b)) then c.baton else none
    request := c.request &&& slotBits gs core, rotation := c.rotation }

/-- The core without what was saved of it (R381). -/
def leftCore (c : Core) (gs : List Nat) (core part : Nat) : Core :=
  let keep (l : List Nat) : List Nat := l.filter (fun k => !gs.contains (groupOf k))
  { c with
    locks := c.locks.filter (fun l => l.part != part)
    baton := if c.baton.any (fun b => gs.contains (8 * core + b)) then none else c.baton
    request := c.request &&& ~~~ slotBits gs core, active := c.active.map keep, pending := c.pending.map keep }

/-- The groups of a partition on a core. -/
def groupsAt (s : State) (part core : Nat) : List Nat := (groupsOfPart s part).filter (fun g => coreOf g == core)

/-- What a save area lists of core k with what the save took of it. -/
def SaveArea.take (a : SaveArea) (s : State) (part core : Nat) : SaveArea :=
  let gs := groupsAt s part core
  let gr := s.groups.filter (fun e => gs.contains e.1)
  let inU (x : Nat) : Bool := gr.any (fun e => e.2.ownsU e.1 x)
  let bank (x : Nat) : Bool := gr.any (fun e => e.2.ownsWord e.1 x)
  { a with
    status := mapPut a.status core 1, ipa := mapDel a.ipa core
    copies := a.copies ++ s.copies.filter (fun c => gs.contains c.group), mms := a.mms ++ s.mms.filter (fun m => gs.contains m.group)
    cores := mapPut a.cores core (savedCore (s.core core) gs core part)
    groups := gr.foldl (fun (m : Map Group) (e : Nat × Group) => mapPut m e.1 e.2) a.groups
    ctxs := (s.ctxs.filter (fun e => gs.contains e.1)).foldl (fun (m : Map ScribeCtx) (e : Nat × ScribeCtx) => mapPut m e.1 e.2) a.ctxs
    strokes := (s.strokes.filter (fun e => gs.contains (groupOf e.1))).foldl (fun (m : Map Stroke) (e : Nat × Stroke) => mapPut m e.1 e.2) a.strokes
    u := (s.mem.u.filter (fun c => inU c.1)).foldl (fun m c => memSet m c.1 c.2) a.u
    clear := (s.mem.clear.filter (fun e => inU (128 * e.1))).foldl (fun (m : Map Bool) (e : Nat × Bool) => mapPut m e.1 e.2) a.clear
    poisU := (s.mem.poisU.filter (fun e => inU (128 * e.1))).foldl (fun (m : Map Bool) (e : Nat × Bool) => mapPut m e.1 e.2) a.poisU
    amem := (s.mem.amem.filter (fun e => bank e.1)).foldl (fun (m : Map Word) (e : Nat × Word) => mapPut m e.1 e.2) a.amem
    poisA := (s.mem.poisA.filter (fun e => bank e.1)).foldl (fun (m : Map Bool) (e : Nat × Bool) => mapPut m e.1 e.2) a.poisA }

/-- What stands in a save area of one core, and the rest. -/
def SaveArea.only (a : SaveArea) (here : Nat → Bool) : SaveArea :=
  { copies := a.copies.filter (fun c => here (coreOf c.group)), mms := a.mms.filter (fun m => here (coreOf m.group))
    cores := a.cores.filter (fun e => here e.1), groups := a.groups.filter (fun e => here (coreOf e.1))
    ctxs := a.ctxs.filter (fun e => here (coreOf e.1)), strokes := a.strokes.filter (fun e => here (coreOf (groupOf e.1)))
    u := a.u.filter (fun c => here (c.1 / Config.uBytes)), clear := a.clear.filter (fun e => here (128 * e.1 / Config.uBytes))
    poisU := a.poisU.filter (fun e => here (128 * e.1 / Config.uBytes)), amem := a.amem.filter (fun e => here (e.1 / 1024 / 64))
    poisA := a.poisA.filter (fun e => here (e.1 / 1024 / 64))
    status := a.status.filter (fun e => here e.1), ipa := a.ipa.filter (fun e => here e.1), stopped := a.stopped.filter here }

/-- Steps 4 and 5 for a core: what is resident of the partition moves into its save area, and the core is scrubbed. -/
def takeSave (s : State) (part core : Nat) : State :=
  let gs := groupsAt s part core
  let out (g : Nat) : Bool := gs.contains g
  let t := s.modPart part (fun p => { p with save := p.save.take s part core })
  let t := { t with
    groups := t.groups.filter (fun e => !out e.1), ctxs := t.ctxs.filter (fun e => !out e.1)
    strokes := t.strokes.filter (fun e => !out (groupOf e.1)), copies := t.copies.filter (fun c => !out c.group)
    mms := t.mms.filter (fun m => !out m.group) }
  batonGrant (scrubCore (t.modCore core (fun c => leftCore c gs core part)) core part gs) core

/-- Bytes of what the groups of a core have resident, behind a header. DESIGN CHOICE: the header takes 4 KiB and threads, strokes, groups and contexts
stand in it; beyond the rows, U and banks that are saved nothing is written (log 23). -/
def areaBytes (gs : List Group) : Nat :=
  min 2097152 (gs.foldl (fun n g => n + 128 * g.nregs * g.strokes + g.reserve + 4096 * g.banks.length) 4096)

/-- The pages of a save area's first n bytes, up to the first that stage 2 faults an access to: each is written, if it is to be, under the key of
its page (R380, R382). i is the page, the number of the write s.fresh. -/
def areaPages (wr : Bool) : Nat → State → Nat → Nat → Nat → Nat → State × Option Nat
  | 0, s, _, _, _, _ => (s, none)
  | fuel + 1, s, part, ipa, n, i =>
    if n ≤ 4096 * i then (s, none)
    else match walk2 s part (ipa + 4096 * i) with
      | some l =>
        if l.kind ≠ 0 ∨ l.perms.getLsbD (if wr then 1 else 0) = false ∨ (wr && l.cow) = true then (s, some (ipa + 4096 * i))
        else
          let bs := (upTo (4096 * i) (min 4096 (n - 4096 * i))).map (Config.saveByte s.fresh)
          areaPages wr fuel (if wr then writeBytes s (l.loc (ipa + 4096 * i)) bs else s) part ipa n (i + 1)
      | none => (s, some (ipa + 4096 * i))

/-- The save area of a core accessed for the groups given: the state after it, and the IPA of a stage-2 fault that stops it. -/
def areaAccess (s : State) (wr : Bool) (part core : Nat) (gs : List Group) : State × Option Nat :=
  let t := areaPages wr 512 s part ((s.part? part).elim 0 (fun p => mapGet p.saveAreas core 0)) (areaBytes gs) 0
  ({ t.1 with fresh := t.1.fresh + 1 }, t.2)

/-- A save that a stage-2 fault stops (R382): STATE becomes 2, the partition stays frozen on the core, the hypervisor firmware is told. -/
def stopSave (s : State) (part core ipa : Nat) : State :=
  let s := s.modPart part (fun p => { p with save := { p.save with status := mapPut p.save.status core 2, ipa := mapPut p.save.ipa core ipa } })
  { s with sys := { s.sys with notices := s.sys.notices ++ [(false, part, core, ipa)] } }

/-- Step 4 and what follows, for a core on which the partition has been brought to rest. -/
def saveCore (part : Nat) (s : State) (core : Nat) : State :=
  let r := areaAccess s true part core ((groupsAt s part core).filterMap (s.group? ·))
  match r.2 with
  | none => takeSave r.1 part core
  | some ipa => stopSave r.1 part core ipa

/-- May the groups of a partition on a core be switched now: firmware has pinned a save area for it there (R380)? -/
def pinned (p : Partition) (core : Nat) : Bool := (mapGet? p.saveAreas core).isSome

/-- Does a list of cores, all of them if it is empty, name a core? -/
def inSet (cores : List Nat) (core : Nat) : Bool := cores.isEmpty || cores.contains core

/-- SLICE_END: a partition's slice on a set of cores ends, on all cores if the list is empty. The groups there stop, their work completes, and each
core of which every FIFO has drained is saved; one with a write still on its way to another core is saved when the event comes again (log 23). -/
def execSliceEnd (part : Nat) (cores : List Nat) (s : State) : Host.Outcome State Fault Refusal :=
  match s.part? part with
  | some p =>
    let here := ((groupsOfPart s part).map coreOf).eraseDups.filter (inSet cores)
    let stays := here.filter (fun k => !pinned p k)
    let ks := here.filter (fun k => pinned p k && (mapGet p.save.status k 0 == 0))
    let out := (if cores.isEmpty then allCores else p.outNow ++ cores.filter (fun k => !p.outNow.contains k)).filter (fun k => !stays.contains k)
    let s := if p.scheduled then s.modPart part (fun p => p.runOn s.ns out) else s
    let s := settleGroups s (ks.flatMap (groupsAt s part))
    let ready := ks.filter (fun k => (groupsAt s part k).all (drained s))
    .next (ready.foldl (saveCore part) (quiesce s part (ready.flatMap (groupsAt s part))))
  | none => .next s

/-- May a core take back what was saved of it: it is not fenced, no other partition stands frozen on it (R382), and the groups find their slots,
their U and their banks free? -/
def restoreRoom (s : State) (part core : Nat) (gs : Map Group) : Bool :=
  !coreFenced s core && s.parts.all (fun e => e.1 == part || mapGet e.2.save.status core 0 != 2) &&
  gs.all (fun e => (s.group? e.1).isNone &&
    (groupsOn s core).all (fun g => decide (g.ubase + g.reserve ≤ e.2.ubase) || decide (e.2.ubase + e.2.reserve ≤ g.ubase) ||
      g.reserve == 0 || e.2.reserve == 0) &&
    (groupsOn s core).all (fun g => g.banks.all (fun b => !e.2.banks.contains b)))

/-- A nib takes its resident strokes: the first into the active set, the rest pending (R112). -/
def seatStrokes (c : Core) (core : Nat) (ks : List Nat) : Core :=
  let mine (i : Nat) : List Nat := ks.filter (fun k => coreOf (groupOf k) == core && k % 4 == i)
  { c with
    active := c.active.mapIdx (fun i l => l ++ (mine i).take (Config.activePlaces - l.length))
    pending := c.pending.mapIdx (fun i l => l ++ (mine i).drop (Config.activePlaces - ((c.active[i]?).getD []).length)) }

/-- The core with what was saved of it. -/
def restoredCore (c saved : Core) : Core :=
  { c with
    locks := c.locks ++ saved.locks, baton := if c.baton.isSome then c.baton else saved.baton
    request := c.request ||| saved.request, rotation := saved.rotation }

/-- Step 6 for a core, of which a holds what was saved: it moves back, and STATE becomes 0. What stood there of its places before is gone. -/
def giveBack (s : State) (part core : Nat) (a : SaveArea) : State :=
  let inU (x : Nat) : Bool := a.groups.any (fun e => e.2.ownsU e.1 x)
  let bank (x : Nat) : Bool := a.groups.any (fun e => e.2.ownsWord e.1 x)
  let mem : MemSys := { s.mem with
    u := a.u.foldl (fun m c => memSet m c.1 c.2) (s.mem.u.filter (fun c => !inU c.1))
    clear := a.clear.foldl (fun m e => mapPut m e.1 e.2) (s.mem.clear.filter (fun e => !inU (128 * e.1)))
    poisU := a.poisU.foldl (fun m e => mapPut m e.1 e.2) (s.mem.poisU.filter (fun e => !inU (128 * e.1)))
    amem := a.amem.foldl (fun m e => mapPut m e.1 e.2) (s.mem.amem.filter (fun e => !bank e.1))
    poisA := a.poisA.foldl (fun m e => mapPut m e.1 e.2) (s.mem.poisA.filter (fun e => !bank e.1)) }
  let ks := (a.strokes.filter (fun e => !e.2.retired)).map (·.1)
  let t := { s with
    mem := mem
    groups := a.groups.foldl (fun (m : Map Group) (e : Nat × Group) => mapPut m e.1 (e.2.shift (s.cycle - ·))) s.groups
    ctxs := a.ctxs.foldl (fun (m : Map ScribeCtx) (e : Nat × ScribeCtx) => mapPut m e.1 { e.2 with lastIssue := s.cycle }) s.ctxs
    strokes := a.strokes.foldl (fun (m : Map Stroke) (e : Nat × Stroke) => mapPut m e.1 { e.2 with entered := s.cycle }) s.strokes
    copies := s.copies ++ a.copies, mms := s.mms ++ a.mms }
  let t := a.cores.foldl (fun t e => t.modCore core (fun c => seatStrokes (restoredCore c e.2) core ks)) t
  let t := t.modPart part (fun p => { p with save := p.save.only (fun k => k != core) })
  sweepRetired (ks.foldl killFinish (batonGrant t core))

/-- A restore that a stage-2 fault stops: the core stays scrubbed, and the hypervisor firmware is told (R382). -/
def stopRestore (s : State) (part core ipa : Nat) : State :=
  let s := s.modPart part (fun p => { p with save := { p.save with
    stopped := if p.save.stopped.contains core then p.save.stopped else p.save.stopped ++ [core], ipa := mapPut p.save.ipa core ipa } })
  { s with sys := { s.sys with notices := s.sys.notices ++ [(true, part, core, ipa)] } }

/-- The restore of one core from an area whose STATE is 1 (R381); where there is no room it waits. -/
def restoreCore (part : Nat) (s : State) (core : Nat) : State :=
  match s.part? part with
  | some p =>
    let a := p.save.only (· == core)
    if mapGet p.save.status core 0 = 1 ∧ restoreRoom s part core a.groups = true then
      match (areaAccess s false part core (a.groups.map (·.2))).2 with
      | none => giveBack (areaAccess s true part core (a.groups.map (·.2))).1 part core a
      | some ipa => stopRestore s part core ipa
    else s
  | none => s

/-- The cores of a set restored: on those with nothing left in an area the partition runs, and the gate gives what it kept (R323). -/
def restoreCores (s : State) (part : Nat) (hit : Nat → Bool) : State :=
  match s.part? part with
  | some p =>
    let s := ((p.save.status.map (·.1)).filter hit).foldl (restoreCore part) s
    let s := s.modPart part (fun p => p.runOn s.ns
      (p.outNow.filter (fun k => !hit k || mapGet p.save.status k 0 != 0)))
    gateRestore s part
  | none => s

/-- SAVE_RESTART: the saves and the restores of a partition that a fault stopped start again. -/
def execSaveRestart (part : Nat) (s : State) : Host.Outcome State Fault Refusal :=
  match s.part? part with
  | some p =>
    let again := (p.save.status.filter (fun e => e.2 == 2)).map (·.1)
    let s := again.foldl (saveCore part) s
    .next (if p.save.stopped.isEmpty then s else restoreCores s part p.save.stopped.contains)
  | none => .next s

/-- PARTITION_RESTORE: a partition begins a slice on a set of cores, on all if the list is empty. -/
def execPartitionRestore (part : Nat) (cores : List Nat) (s : State) : Host.Outcome State Fault Refusal :=
  .next (restoreCores s part (inSet cores))

/-! ## The kill of a partition (R374, R383) -/

/-- A saved group, killed: gone with its part of the area. -/
def dropSaved (part : Nat) (s : State) (e : Nat × Group) : State :=
  let g := e.1
  let s := s.modLaunch e.2.launch (fun l => { l with gone := l.gone + 1, failed := true })
  s.modPart part (fun p => { p with save := { p.save with
    copies := p.save.copies.filter (fun c => c.group != g), mms := p.save.mms.filter (fun m => m.group != g)
    groups := mapDel p.save.groups g, ctxs := mapDel p.save.ctxs g, strokes := p.save.strokes.filter (fun k => groupOf k.1 != g)
    u := p.save.u.filter (fun c => !e.2.ownsU g c.1), clear := p.save.clear.filter (fun c => !e.2.ownsU g (128 * c.1))
    poisU := p.save.poisU.filter (fun c => !e.2.ownsU g (128 * c.1)), amem := p.save.amem.filter (fun c => !e.2.ownsWord g c.1)
    poisA := p.save.poisA.filter (fun c => !e.2.ownsWord g c.1) } })

/-- What is in the save areas of a killed partition: the groups that nothing keeps are dropped; those that have issued copies go back to their
cores, where they have room, for these to complete, or wait for it. Areas with no group left are empty. -/
def endSaved (s : State) (part : Nat) : State :=
  match s.part? part with
  | some p =>
    let kept (g : Nat) : Bool := p.save.copies.any (fun c => c.group == g) || p.save.mms.any (fun m => m.group == g)
    let s := (p.save.groups.filter (fun e => !kept e.1)).foldl (dropSaved part) s
    let left := ((p.save.groups.map (·.1)).filter kept).map coreOf
    let s := s.modPart part (fun p => { p with save := p.save.only left.contains })
    left.eraseDups.foldl (fun s k => match s.part? part with
      | some p =>
        let a := p.save.only (· == k)
        if restoreRoom s part k a.groups then giveBack s part k a else s
      | none => s) s
  | none => s

/-- A write on its way to a core of a killed partition: it is over, and of its copy counts as made. -/
def absorbRemote (s : State) (w : RemoteWrite) : State :=
  endRemote (match w.copy with
    | some (id, i) => modDest s id i (fun d => { d with landed := d.landed + w.data.length })
    | none => s) w

/-- Everything of a partition killed, its queues emptied, its cores scrubbed, its sessions ended (R43, R314, R374, R381). A save in progress is
abandoned (R383). -/
def clearPartition (s : State) (part : Nat) : State :=
  let doom (m : Map Group) : Map Group := m.map (fun e => (e.1, if e.2.part = part then { e.2 with scrub := true } else e.2))
  let s := { s with groups := doom s.groups }
  let s := s.modPart part (fun p => { p with save := { p.save with
    groups := doom p.save.groups, status := p.save.status.filter (fun e => e.2 != 2), stopped := [] } })
  let s := (s.remote.filter (fun w => w.part == part)).foldl absorbRemote s
  let s := faultCopies s part (fun c => c.stalled.isSome)
  let s := (launchesOf s part).foldl killLaunch s
  let s := endSaved ((groupsOfPart s part).foldl killGroup s) part
  let s := s.modPart part (fun p => { p with
    queues := [[], [], [], []], ready := [[], [], [], []], hold := [], arena := [], blocks := [] })
  let s := invalidate (dropCode (endSessionsOf s part)) part
  let s := (dropHeld s (fun f => f.to_ == part)).modLink (fun k => { k with
    early := k.early.filter (fun e => e.1 != part), missed := k.missed.filter (fun e => e.1 != part) })
  let cores := ((s.part? part).elim [] (·.cores)).filter (fun k => !away s part k)
  let s := cores.foldl (fun s k => scrubCore s k part []) (sweepRetired s)
  ((launchesOf s part).filterMap (s.launch? ·)).foldl retireLaunch ((groupsOfPart s part).foldl releaseGroup s)

/-- KILL_PARTITION. -/
def execKillPartition (part : Nat) (s : State) : Host.Outcome State Fault Refusal := .next (clearPartition s part)

/-- PARTITION_RESET: a kill, after which the partition is no longer FAILED. -/
def execPartitionReset (part : Nat) (s : State) : Host.Outcome State Fault Refusal :=
  .next ((clearPartition s part).modPart part (fun p => { p with failed := false }))

end Sys2Proof.Machine
end

