-- ==== Sys2Proof/Machine/Mesh.lean ====
section
/-!
DEFINITION. The cluster mesh: sites, agents and routes (R48, R49, R52 to R54), packets and their sideband (R50, R51, R55, R56), buffers,
relay slots and ejection queues (R57, R58), what agents take (R59, R66), strides and their arbitration (R60, R61), delivery order (R63),
integrity (R65) and gateways (R67).
-/
namespace Sys2Proof.Machine

/-- A site: column and row. -/
abbrev Site := Nat × Nat

/-- A full router stands where column plus row is even (R48). -/
def fullSite (p : Site) : Bool := (p.1 + p.2) % 2 == 0

/-- Is there such a site? -/
def siteOk (p : Site) : Bool := decide (p.1 < 16) && decide (p.2 < 24)

/-! ## Agents (R48, R49) -/

/-- Is there such an agent in a cluster? -/
def agentOk : MeshAgent → Bool
  | .core k | .slice k => decide (k < Config.coresPerCluster)
  | .engine e => decide (e < 16)
  | .scheduler => true
  | .gateway g => decide (g < 24)
  | .clusterGate i => decide (i < 2)
  | .bridge i => decide (i < 3)

/-- The site of an agent: core k and slice k stand in row k div 8, in the even and the odd column of one pair, by the row. -/
def siteOf : MeshAgent → Site
  | .core k => (2 * (k % 8) + k / 8 % 2, k / 8)
  | .slice k => (2 * (k % 8) + (1 - k / 8 % 2), k / 8)
  | .engine e => ([(1, 0), (3, 0), (9, 0), (11, 0), (2, 23), (4, 23), (10, 23), (12, 23)][e / 2]?).getD (0, 0)
  | .scheduler => (5, 0)
  | .gateway g => if g < 12 then (0, 2 * g + 1) else (15, 2 * (g - 12))
  | .clusterGate i => if i = 0 then (7, 0) else (6, 23)
  | .bridge i => if i = 0 then (13, 0) else if i = 1 then (8, 23) else (14, 23)

/-- LTGT of an agent: 0 the core or the slice of its site, 1 and 2 its edge agents (R51). -/
def ltgtOf : MeshAgent → BitVec 2
  | .core _ | .slice _ => 0
  | .engine e => BitVec.ofNat 2 (1 + e % 2)
  | _ => 1

/-- The number of a final destination, on which the choice of its gateway rests (R67). -/
def destNumber : MeshDest → Nat
  | .agent c a => 1024 * c + (match a with
    | .core k => k | .slice k => 192 + k | .engine e => 384 + e | .scheduler => 400 | .gateway g => 401 + g
    | .clusterGate i => 425 + i | .bridge i => 427 + i)
  | .base b ch => 8192 + 1024 * b + ch
  | .hub h => 20480 + h

/-- The agent of a cluster to which a packet for a final destination goes: itself, or a gateway (R67), of base die b one that serves it
(R49); two clusters and three base dies belong to a compute die. -/
def agentFor (cluster : Nat) (d : MeshDest) : MeshAgent :=
  let pick (n : Nat) : Nat := Config.gatewayOf (destNumber d) % n
  match d with
  | .agent c a => if c = cluster then a else if c / 2 = cluster / 2 then .clusterGate (pick 2) else .bridge (pick 3)
  | .base b _ => if b / 3 = cluster / 2 then .gateway (b % 3 + 3 * pick 8) else .bridge (pick 3)
  | .hub _ => .bridge (pick 3)

/-- Is there such a destination? -/
def placeOk : MeshDest → Bool
  | .agent c a => decide (c < Config.clusters) && agentOk a
  | .base b ch => decide (b < 12) && decide (ch < 32)
  | .hub h => decide (h < 2)

/-- Does an agent hold a line, one that there is: a core its U lines, rows and banks, a slice its C lines, a base die lines of D and G? -/
def holdsLine (d : MeshDest) (l : LineId) : Bool := lineOk l && match d, l with
  | .agent c (.core k), .u core _ | .agent c (.core k), .amem core _ _ => core == Config.coresPerCluster * c + k
  | .agent c (.core k), .row st _ => coreOf (groupOf st) == Config.coresPerCluster * c + k
  | .agent c (.slice k), .c cluster line => cluster == c && line / 2048 == k
  | .base _ _, .d _ | .base _ _, .g _ => true
  | _, _ => false

/-! ## Messages (R55, R56, R59) -/

/-- CLS: 0 REQ, 1 RSP, 2 DATA, 3 CTRL. -/
def classOf : MeshMsg → Nat
  | .readRequest | .atomicRequest | .wideRequest | .copyCommand | .recordFetch => 0
  | .completion | .acknowledgement => 1
  | .writeData | .readReturn | .copyBeat => 2
  | .stealRequest | .stealReply | .gateWords | .gateResult | .notification => 3

/-- Is a CTRL packet a reply (R58)? -/
def isReply (m : MeshMsg) : Bool := m == .stealReply || m == .gateResult

/-- The classes in which the answer to a request may come: a read return (DATA), an acknowledgement (RSP), of an atomic or a wide-cell request the
one or the other (R56; DEDUCED, log 30). -/
def answerClasses : MeshMsg → List Nat
  | .copyCommand => [1]
  | .atomicRequest | .wideRequest => [1, 2]
  | _ => [2]

/-- The network of what an agent sends: the partition of the context it serves (R55). A core serves groups, an engine copies, the scheduler
launches; slices and gateways, and the scheduler in answering, serve the partition whose request they carry. -/
def networkOf (s : State) (cluster : Nat) : MeshAgent → Serves → Option Nat
  | .core k, .group g => if coreOf g = Config.coresPerCluster * cluster + k then (s.group? g).map (·.part) else none
  | .engine e, .copy id => ((s.copies.find? (·.id == id)).filter (fun c => (engineOf c).1 == cluster && (engineOf c).2.1 == e)).map (·.part)
  | .scheduler, .launch id => (s.launch? id).map (·.part)
  | .core _, _ | .engine _, _ => none
  | _, .part p => (s.part? p).map (fun _ => p)
  | _, _ => none

/-! ## The sideband (R51) -/

/-- The 128 payload bytes of a flit. -/
def payloadOf (bs : List Byte) : List Byte := bs ++ List.replicate (128 - bs.length) 0

/-- A site as it stands in FIN, SRC and DST. -/
def siteBits (p : Site) : BitVec 9 := BitVec.ofNat 5 p.2 ++ BitVec.ofNat 4 p.1

/-- Bits [75:0] of the sideband, which HECC covers. -/
def headBits (f : MeshFlit) : BitVec 76 :=
  f.packet.txn ++ BitVec.ofNat 2 f.ocls ++ BitVec.ofBool f.psn ++ f.ltgt ++ siteBits f.fin ++ BitVec.ofBool f.rly ++ BitVec.ofNat 1 f.phase ++
    BitVec.ofNat 2 f.cls ++ BitVec.ofNat 3 f.vn ++ siteBits f.src ++ siteBits f.dst

/-- The sideband. -/
def sideband (f : MeshFlit) : BitVec 128 := f.lcrc ++ Config.hecc (headBits f) ++ Config.pecc (payloadOf f.data) f.lcrc ++ headBits f

/-! ## Routes (R53, R54) -/

/-- The column one short of xd, coming from xs. -/
def besideCol (xs xd : Nat) : Nat := if xs < xd then xd - 1 else xd + 1

/-- The ends of the runs of a route, and whether it ends at a bounce site. -/
def routeRuns (a d : Site) : List Site × Bool :=
  let xy : List Site := [(d.1, a.2), d]
  let yx : List Site := [(a.1, d.2), d]
  let odd := (a.1 + d.1) % 2 == 1
  let b := besideCol a.1 d.1
  if a.1 = d.1 ∨ a.2 = d.2 then ([d], false)
  else match fullSite a, fullSite d with
    | true, true => if odd then ([(b, a.2), (b, d.2)], true) else (xy, false)
    | true, false => (if odd then yx else xy, false)
    | false, true => (if odd then xy else yx, false)
    | false, false => (if odd then xy else [(b, a.2), (b, d.2), d], false)

/-- The ends of the runs, a run of length zero omitted. -/
def runsFrom (a : Site) : List Site → List Site
  | [] => []
  | w :: r => if w = a then runsFrom a r else w :: runsFrom w r

/-- Is a flit on its relay leg? Only such a one has the source and the destination of a bounce and RLY = 0. -/
def onRelayLeg (f : MeshFlit) : Bool := !f.rly && (routeRuns f.src f.dst).2

/-- The end of the run on which a flit stands or which it begins next, and whether a turn leads to it. -/
def nextEnd (f : MeshFlit) : Option (Site × Bool) :=
  if onRelayLeg f then some (f.dst, false)
  else match runsFrom f.src (routeRuns f.src f.dst).1 with
  | [] => none
  | [w] => some (w, false)
  | w :: v :: r =>
    if f.phase = 0 then (if f.at_ = w then some (v, true) else some (w, false))
    else if f.at_ = v then (r.head?).map (fun z => (z, true))
    else some (v, false)

/-- What leaves a slot: a packet of a relay slot leaves for its final site as class CTRL (R54). -/
def legOf (f : MeshFlit) : MeshFlit :=
  if f.place = .relay then { f with cls := 3, dst := f.fin, rly := false, phase := 0 } else f

/-- Directions: 0 north, 1 east, 2 south, 3 west; the one from a site to another on a line. -/
def dirTo (a b : Site) : Nat := if a.1 < b.1 then 1 else if b.1 < a.1 then 3 else if b.2 < a.2 then 0 else 2

/-- The next site in a direction, and the input port at which a flit enters it. -/
def siteNext (a : Site) (d : Nat) : Site :=
  match d with
  | 0 => (a.1, a.2 - 1) | 1 => (a.1 + 1, a.2) | 2 => (a.1, a.2 + 1) | _ => (a.1 - 1, a.2)
def inputOf (d : Nat) : Nat := (d + 2) % 4

/-- The output port that a flit wants: its direction. -/
def wants (f : MeshFlit) : Option Nat :=
  match f.place with
  | .eject => none
  | _ => (nextEnd f).map (fun e => dirTo f.at_ e.1)

/-- The input at which a flit stands: 4 for the local port. -/
def MeshFlit.input (f : MeshFlit) : Nat := match f.place with
  | .buffer i _ => i
  | _ => 4

/-- The phase in which a flit travels on its next stride (R57). -/
def nextPhase (f : MeshFlit) : Nat := match nextEnd f with
  | some (_, true) => 1
  | _ => f.phase

/-! ## Room -/

/-- The slot that a flit takes at an input port of a site (R57): shared if one is free, else its own reserved one. -/
def bufferSlot (m : Mesh) (p : Site) (i vn cls phase : Nat) : Option Place :=
  let here := m.flits.filter (fun f => f.at_ == p && f.vn == vn && (match f.place with
    | .buffer j _ => j == i
    | _ => false))
  let shared := here.filter (fun f => f.place == .buffer i false)
  let own := here.any (fun f => f.place == .buffer i true && f.cls == cls && f.phase == phase)
  if shared.length < 4 then some (.buffer i false) else if own then none else some (.buffer i true)

/-- Room in an ejection queue (R58): class cls of a network at the local agent of a site. -/
def ejectRoom (m : Mesh) (p : Site) (vn cls : Nat) (reply : Bool) : Bool :=
  let here := m.flits.filter (fun f => f.at_ == p && f.vn == vn && f.ocls == cls && f.place == .eject)
  let asks := here.filter (fun f => !isReply f.packet.msg)
  decide (here.length < 4) && (cls != 3 || reply || decide (asks.length < 2))

/-- Room in the relay slots of a half site (R54). -/
def relayRoom (m : Mesh) (p : Site) (vn : Nat) : Bool :=
  decide ((m.flits.filter (fun f => f.at_ == p && f.vn == vn && f.place == .relay)).length < 2)

/-- Where a flit may stand at a site that it enters by a direction, if there is room. -/
def slotAt (m : Mesh) (f : MeshFlit) (p : Site) (d : Nat) : Option Place :=
  if p = f.dst then
    if f.rly then (if relayRoom m p f.vn then some .relay else none)
    else if ejectRoom m p f.vn f.ocls (isReply f.packet.msg) then some .eject else none
  else bufferSlot m p (inputOf d) f.vn f.cls (nextPhase f)

/-! ## Arbitration (R61) -/

/-- The key of an output port of a site; port 4 is the far side of its gateway. -/
def portKey (p : Site) (d : Nat) : Nat := (p.2 * 16 + p.1) * 5 + d

/-- A candidate at a port: a flit, its distance and the input by which it comes. -/
structure Claim where
  flit  : MeshFlit
  dist  : Nat
  input : Nat
  deriving DecidableEq, Repr

/-- The first element of a list that no later one beats. -/
def pick (better : Claim → Claim → Bool) : List Claim → Option Claim
  | [] => none
  | c :: r => match pick better r with
    | none => some c
    | some b => if better b c then some b else some c

/-- The network that a port serves: one that is due first, else by weighted round-robin. -/
def chooseVn (s : State) (m : Mesh) (key : Nat) (vns : List Nat) : Option Nat :=
  let wait (v : Nat) : Nat := mapGet m.vnWait (key * 8 + v) 0
  let left (v : Nat) : Nat := (s.part? v).elim 1 (·.vnWeight) - mapGet m.vnUsed (key * 8 + v) 0
  match vns.filter (fun v => decide (8 ≤ wait v)) with
  | d :: ds => some (ds.foldl (fun b v => if wait b < wait v then v else b) d)
  | [] => ((vns.filter (fun v => decide (0 < left v))).head?).or vns.head?

/-- The class that a port serves in a network: the next after the one it served last. -/
def chooseCls (m : Mesh) (key vn : Nat) (clss : List Nat) : Option Nat :=
  let last := mapGet m.clsTurn (key * 8 + vn) 3
  ((List.range 4).map (fun i => (last + 1 + i) % 4)).find? (fun c => clss.contains c)

/-- Has a port a grant to give in this cycle? -/
def portFree (s : State) (m : Mesh) (key : Nat) : Bool := m.now != s.cycle || !m.granted.contains key

/-- The claim that a port grants. DESIGN CHOICE: of several that have each lost 8 times in a row there, the first of the list wins (log 30). -/
def grantAt (s : State) (m : Mesh) (key : Nat) (cs : List Claim) : Option Claim :=
  if !portFree s m key then none
  else match chooseVn s m key ((List.range 8).filter (fun v => cs.any (fun c => c.flit.vn == v))) with
  | none => none
  | some vn =>
    let mine := cs.filter (fun c => c.flit.vn == vn)
    match chooseCls m key vn (mine.map (·.flit.cls)) with
    | none => none
    | some cls =>
      let mine := mine.filter (fun c => c.flit.cls == cls)
      match mine.find? (fun c => decide (8 ≤ mapGet c.flit.losses key 0)) with
      | some c => some c
      | none => pick (fun a b => lexLess a.dist b.dist a.input b.input) mine
where
  /-- Smaller distance first, then the inputs in the order N, E, S, W, local. -/
  lexLess (a b i j : Nat) : Bool := decide (a < b) || (a == b && decide (i < j))

/-- The flits that start at a site by a direction (R61, R63): of each input, network, class and phase the one that came first, of each
network's relay slots the first; each one that has not moved in this cycle and finds a slot at the next site. -/
def startersAt (s : State) (m : Mesh) (p : Site) (d : Nat) : List Claim :=
  let here := m.flits.filter (fun f => f.at_ == p && f.place != .eject)
  let same (a b : MeshFlit) : Bool := a.input == b.input && a.vn == b.vn && (a.place == .relay) == (b.place == .relay) &&
    (a.place == .relay || (a.cls == b.cls && a.phase == b.phase && wants a == wants b))
  ((here.filter (fun f => (here.find? (same f)).any (fun g => g.id == f.id) && f.moved != some s.cycle)).map legOf).filterMap (fun f =>
    if wants f = some d ∧ (slotAt m f (siteNext p d) d).isSome then some ⟨f, 0, f.input⟩ else none)

/-- May a claim go on through a site it has reached (R60): the site does not end its stride, holds no flit that it would pass, and the
claim has a slot there and at the site beyond? -/
def passesOn (m : Mesh) (f : MeshFlit) (p : Site) (d hops : Nat) : Bool :=
  let ends := (nextEnd f).elim true (fun e => e.1 == p)
  let waits := m.flits.any (fun g => g.at_ == p && g.input == inputOf d && g.place != .eject && g.place != .relay && g.vn == f.vn && g.cls == f.cls &&
    g.phase == nextPhase f && wants g == some d)
  !ends && decide (hops < 8) && (slotAt m f p d).isSome && !waits && (slotAt m f (siteNext p d) d).isSome

/-- The candidates of a port: its starters, and the claim granted at the port before it if that one passes. -/
def claimsWith (s : State) (m : Mesh) (d : Nat) (p : Site) (up : Option Claim) : List Claim :=
  startersAt s m p d ++ (match up with
    | some c => if passesOn m c.flit p d (c.dist + 1) then [⟨c.flit, c.dist + 1, inputOf d⟩] else []
    | none => [])

/-- The claim granted at a port; fuel is the sites left upstream. -/
def winner (s : State) (m : Mesh) (d : Nat) : Nat → Site → Option Claim
  | 0, p => grantAt s m (portKey p d) (claimsWith s m d p none)
  | n + 1, p =>
    let back := siteNext p ((d + 2) % 4)
    grantAt s m (portKey p d) (claimsWith s m d p (if siteOk back && back != p then winner s m d n back else none))

/-- The candidates of a port (R61). -/
def claimsAt (s : State) (m : Mesh) (d : Nat) (p : Site) : List Claim :=
  let back := siteNext p ((d + 2) % 4)
  claimsWith s m d p (if siteOk back && back != p then winner s m d 24 back else none)

/-- Does a port grant a flit? -/
def wins (s : State) (m : Mesh) (f : MeshFlit) (d : Nat) (p : Site) : Bool := (winner s m d 24 p).any (fun c => c.flit.id == f.id)

/-- The hops that a flit makes from a site whose port grants it, site by site, each with the slot that it would take there; and the router at which
its claim loses, if it does: the stride then ends at the router before that one (R61). -/
def strideFrom (s : State) (m : Mesh) (f : MeshFlit) (d : Nat) : Nat → Nat → Site → List (Site × Place) × Option Site
  | 0, _, _ => ([], none)
  | n + 1, hops, p =>
    let q := siteNext p d
    match slotAt m f q d with
    | none => ([], none)
    | some pl =>
      if passesOn m f q d (hops + 1) then
        if wins s m f d q then
          let r := strideFrom s m f d n (hops + 1) q
          ((q, pl) :: r.1, r.2)
        else ([], some q)
      else ([(q, pl)], none)

/-- The hops that a flit makes now, and the router at which it loses: a starter that loses stays where it is. -/
def strideOf (s : State) (m : Mesh) (f : MeshFlit) (d : Nat) (p : Site) : List (Site × Place) × Option Site :=
  if wins s m f d p then strideFrom s m f d 8 0 p else ([], some p)

/-! ## Moving -/

/-- The mesh of a cluster. -/
def State.mesh (s : State) (c : Nat) : Mesh := mapGet s.meshes c {}

def State.modMesh (s : State) (c : Nat) (g : Mesh → Mesh) : State :=
  { s with meshes := mapPut s.meshes c (g (mapGet s.meshes c {})) }

/-- The weight of a network (R61). -/
def vnWeight (s : State) (v : Nat) : Nat := (s.part? v).elim 1 (·.vnWeight)

/-- A port grants one of its candidates (R61): the others lose there, the networks that had a candidate and did not get the port wait on,
the network and the class served are noted, and a round that every candidate has used up begins again. -/
def Mesh.grant (m : Mesh) (s : State) (key : Nat) (cs : List Claim) (f : MeshFlit) : Mesh :=
  let vns := (List.range 8).filter (fun v => cs.any (fun c => c.flit.vn == v))
  let wait := vns.foldl (fun t v => mapPut t (key * 8 + v) (if v = f.vn then 0 else mapGet t (key * 8 + v) 0 + 1)) m.vnWait
  let used := mapPut m.vnUsed (key * 8 + f.vn) (mapGet m.vnUsed (key * 8 + f.vn) 0 + 1)
  let used := if vns.all (fun v => decide (vnWeight s v ≤ mapGet used (key * 8 + v) 0)) then vns.foldl (fun t v => mapDel t (key * 8 + v)) used else used
  { m with
    flits := m.flits.map (fun g =>
      if g.id = f.id then { g with losses := mapDel g.losses key }
      else if cs.any (fun c => c.flit.id == g.id) then { g with losses := mapPut g.losses key (mapGet g.losses key 0 + 1) }
      else g)
    vnWait := wait, vnUsed := used, clsTurn := mapPut m.clsTurn (key * 8 + f.vn) f.cls
    granted := if m.now = s.cycle then key :: m.granted else [key], now := s.cycle }

/-- A flit loses at a port that has still to grant in this cycle: its loss is counted, and its network's wait unless another candidate of the
network stands there (R61). -/
def Mesh.lose (m : Mesh) (s : State) (key : Nat) (cs : List Claim) (f : MeshFlit) : Mesh :=
  let m := { m with flits := m.flits.map (fun g => if g.id = f.id then { g with losses := mapPut g.losses key (mapGet g.losses key 0 + 1) } else g) }
  let k := key * 8 + f.vn
  if (grantAt s m key cs).any (fun c => c.flit.vn != f.vn) && cs.all (fun c => c.flit.id == f.id || c.flit.vn != f.vn) then
    { m with vnWait := mapPut m.vnWait k (mapGet m.vnWait k 0 + 1) }
  else m

/-- A mesh without a flit. -/
def Mesh.drop (m : Mesh) (id : Nat) : Mesh := { m with flits := m.flits.filter (fun g => g.id != id) }

/-- A flit with a change made to it, now the last that came. -/
def Mesh.move (m : Mesh) (id : Nat) (g : MeshFlit → MeshFlit) : Mesh :=
  { m with flits := (m.drop id).flits ++ (m.flits.filter (fun f => f.id == id)).map g }

/-- A flit with a change made to it, in its place. -/
def Mesh.modFlit (m : Mesh) (id : Nat) (g : MeshFlit → MeshFlit) : Mesh :=
  { m with flits := m.flits.map (fun f => if f.id = id then g f else f) }

/-- The flit of a mesh with an id. -/
def findFlit (s : State) (c id : Nat) : Option MeshFlit := (s.mesh c).flits.find? (fun f => f.id == id)

/-- The mark of an error in the payload: the codes show it, or they do not (R65, R66). -/
def flipByte (bs : List Byte) (i : Nat) (flip : Byte) : List Byte := bs.mapIdx (fun j b => if j = i then b ^^^ flip else b)

/-- What a router's checks make of a flit (R65): whether it goes on. An error that poisons the payload counts as R395's UNCOR. DESIGN CHOICE: so does
a flit that a header error drops, for which the rule names no counter (log 30). -/
def checked (s : State) (c : Nat) (f : MeshFlit) : FlitCheck → State × Bool
  | .clean => (s, true)
  | .corrected => (countUp s f.vn 2 1, true)
  | .badPayload => (countUp (s.modMesh c (·.modFlit f.id (fun g => { g with psn := true }))) f.vn 3 1, true)
  | .silent i flip => (s.modMesh c (·.modFlit f.id (fun g => { g with data := flipByte g.data i flip })), true)
  | .badHeader =>
    let t := countUp (s.modMesh c (·.drop f.id)) f.vn 3 1
    ({ t with sys := { t.sys with machineChecks := t.sys.machineChecks ++ [c] } }, false)

/-- The stride that a flit makes by its port, if it makes one: each port that it crosses grants it, and it ends in the slot of the last
router that it claims. -/
def strideFlit (s : State) (c : Nat) (f : MeshFlit) (d : Nat) : State :=
  let m := s.mesh c
  let r := strideOf s m f d f.at_
  match r.1.getLast? with
  | none => s
  | some (q, pl) =>
    let crossed := f.at_ :: (if r.2.isSome then r.1 else r.1.dropLast).map (·.1)
    let m' := crossed.foldl (fun t p => t.grant s (portKey p d) (claimsAt s m d p) f) m
    let m' := match r.2 with
      | some p => if portFree s m (portKey p d) then m'.lose s (portKey p d) (claimsAt s m d p) f else m'
      | none => m'
    s.modMesh c (fun _ => m'.move f.id (fun g =>
      { g with cls := f.cls, dst := f.dst, rly := f.rly, at_ := q, place := pl, phase := nextPhase f, moved := some s.cycle }))

/-! ## What agents take (R59, R66) -/

/-- Does LCRC fail over the payload that a flit brings? -/
def lcrcFails (f : MeshFlit) : Bool := f.lcrc != crc32c (payloadOf f.data)

/-- A payload handed over to another domain (R392): one whose LCRC fails counts as an error that poisons data (R395). -/
def handOver (s : State) (f : MeshFlit) : State := if lcrcFails f && !f.psn then countUp s f.vn 3 1 else s

/-- The line that a payload writes, and its bytes: with poison if PSN is set or LCRC does not verify. A copy beat that writes all of a line
clears its mark otherwise (R393). -/
def landLine (s : State) (f : MeshFlit) (l : LineId) : State :=
  let bad := f.psn || lcrcFails f
  let s := handOver s f
  let t := match l with
    | .row k r => s.modStroke k (fun st => { st with regs := { st.regs with
        v := (List.range (f.data.length / 4)).foldl (fun m i =>
          mapSet m 0 (32 * r + i) (BitVec.ofNat 32 (bytesNat ((f.data.drop (4 * i)).take 4)))) st.regs.v } })
    | .amem core bank word => { s with mem := { s.mem with
        amem := (((amemLine core bank word).take (f.data.length / 4)).mapIdx (fun i k => (k, i))).foldl (fun m e =>
          mapSet m 0 e.1 (BitVec.ofNat 32 (bytesNat ((f.data.drop (4 * e.2)).take 4)))) s.mem.amem } }
    | l => match linePlace l with
      | some p => (if f.packet.msg = .copyBeat then writeCopy else writeBytes) s { home := p.1, addr := 128 * p.2, key := f.packet.key } f.data
      | none => s
  if bad then setMark t l true else t

/-- The final destination takes a flit: a payload is written where it belongs. -/
def landFlit (s : State) (f : MeshFlit) : State := match f.packet.line with
  | some l => if classOf f.packet.msg = 2 ∧ holdsLine f.packet.dst l then landLine s f l else s
  | none => s

/-- CTRL replies that an agent holds entries for (R58, R59; log 17). -/
def replyPlaces : Nat := 2

/-- The reply that an agent owes for a CTRL request. -/
def replyDue (a : MeshAgent) (vn : Nat) (txn : BitVec 37) : MeshDue := { agent := a, vn := vn, cls := [3], txn := txn }

/-- Does an agent take the flit now: of CTRL requests only with an entry for the reply, which the packets of one transfer share? -/
def takes (m : Mesh) (a : MeshAgent) (f : MeshFlit) : Bool :=
  f.ocls != 3 || isReply f.packet.msg || f.packet.msg == .notification || m.owed.contains (replyDue a f.vn f.packet.txn) ||
    decide ((m.owed.filter (fun o => o.agent == a && o.vn == f.vn)).length < replyPlaces)

/-- The agent of a site for which a flit is (R51). -/
def agentHere (cluster : Nat) (f : MeshFlit) : MeshAgent := agentFor cluster f.packet.dst

/-- Is a flit at the end of its way, not at a gateway that is to forward it? -/
def atHome (cluster : Nat) (f : MeshFlit) : Bool := f.packet.dst == .agent cluster (agentHere cluster f)

/-- Is a CTRL request at the end of its way one that its agent does not take now? -/
def refuses (cluster : Nat) (m : Mesh) (f : MeshFlit) : Bool := atHome cluster f && !takes m (agentHere cluster f) f

/-- Is a flit the first of its ejection queue (R63)? A CTRL reply, which waits for nothing, passes requests that are not taken (R59; DEDUCED,
log 30). -/
def headOf (cluster : Nat) (m : Mesh) (f : MeshFlit) : Bool :=
  (m.flits.find? (fun g => g.at_ == f.at_ && g.vn == f.vn && g.ocls == f.ocls && g.place == .eject &&
    !(isReply f.packet.msg && refuses cluster m g))).any (fun g => g.id == f.id)

/-- An agent takes the flit at the head of one of its ejection queues (R59): an answer ends what was asked, a CTRL request leaves a reply owed. -/
def acceptFlit (s : State) (c : Nat) (f : MeshFlit) : State :=
  let m := s.mesh c
  let a := agentHere c f
  if headOf c m f && atHome c f && takes m a f then
    (landFlit s f).modMesh c (fun m =>
      let m := m.drop f.id
      if f.ocls = 3 ∧ isReply f.packet.msg = false ∧ f.packet.msg ≠ .notification then
        let due := replyDue a f.vn f.packet.txn
        if m.owed.contains due then m else { m with owed := m.owed ++ [due] }
      else { m with asked := m.asked.filter (fun o => !(o.agent == a && o.vn == f.vn && o.cls.contains f.ocls && o.txn == f.packet.txn)) })
  else s

/-- A packet to another agent of its own site passes the local port in turn into the ejection queue (R50). -/
def passLocal (s : State) (c : Nat) (f : MeshFlit) : State :=
  let m := s.mesh c
  let first := (m.flits.find? (fun g => g.at_ == f.at_ && g.place == .inject && g.vn == f.vn && g.cls == f.cls && g.dst == f.dst)).any (fun g => g.id == f.id)
  if first && ejectRoom m f.at_ f.vn f.cls (isReply f.packet.msg) then
    s.modMesh c (·.move f.id (fun g => { g with place := .eject, moved := some s.cycle }))
  else s

/-! ## The steps -/

/-- STRIDE of a flit that is waiting for injection or buffered. One in an ejection queue is taken by its agent. -/
def execStride (cluster flit : Nat) (check : FlitCheck) (s : State) : Host.Outcome State Fault Refusal :=
  match findFlit s cluster flit with
  | none => .next s
  | some f => match f.place with
    | .relay => .next s
    | .eject => .next (acceptFlit s cluster f)
    | _ => match checked s cluster f check with
      | (t, false) => .next t
      | (t, true) => match wants f with
        | some d => .next (strideFlit t cluster f d)
        | none => .next (passLocal t cluster f)

/-- RELAY_LEG: a packet of a relay slot, in arrival order, goes its last hop as class CTRL (R54). -/
def execRelayLeg (cluster flit : Nat) (check : FlitCheck) (s : State) : Host.Outcome State Fault Refusal :=
  match findFlit s cluster flit with
  | none => .next s
  | some f =>
    if f.place = .relay then
      match checked s cluster f check with
      | (t, false) => .next t
      | (t, true) => match wants (legOf f) with
        | some d => .next (strideFlit t cluster (legOf f) d)
        | none => .next t
    else .next s

/-- A flit offered to a cluster's mesh by one of its agents, which fixes the route (R53, R54). -/
def offer (s : State) (cluster : Nat) (a : MeshAgent) (vn cls origin : Nat) (p : Packet) (data : List Byte) (psn : Bool) (lcrc : Word) : State :=
  let dest := agentFor cluster p.dst
  let src := siteOf a
  let dst := siteOf dest
  let bounce := (routeRuns src dst).2
  let f : MeshFlit :=
    { id := s.nextId, vn := vn, cls := cls, ocls := cls, src := src, dst := if bounce then (besideCol src.1 dst.1, dst.2) else dst
      fin := if bounce then dst else (0, 0), rly := bounce, phase := 0, ltgt := ltgtOf dest, psn := psn, lcrc := lcrc, data := data
      packet := p, origin := origin, at_ := src, place := .inject }
  { s with nextId := s.nextId + 1 }.modMesh cluster (fun m => { m with flits := m.flits ++ [f] })

/-- Bytes in pieces of at most 128, one for each packet of a transfer (R50). -/
def pieces : Nat → List Byte → List (List Byte)
  | 0, _ => []
  | n + 1, bs => if bs.isEmpty then [] else bs.take 128 :: pieces n (bs.drop 128)

/-- The line i lines on. -/
def lineOn (i : Nat) : LineId → LineId
  | .u core l => .u core (l + i)
  | .c cluster l => .c cluster (l + i)
  | .d l => .d (l + i)
  | .g l => .g (l + i)
  | .row k r => .row k (r + i)
  | .amem core b w => .amem core b (w + 32 * i)

/-- What the sender's SRAM gives for a packet (R66): the bytes, and whether a verification of its codes fails. -/
def sourceOf (s : State) (p : Packet) : List Byte × Bool := match p.source.filter lineOk with
  | some l =>
    let b := lineBytes s p.key l
    (b.1, p.spoiled || b.2)
  | none => (p.data, p.spoiled)

/-- The payloads of a transfer's packets: what is longer than 128 bytes is several, a completion or an acknowledgement has none (R50, R56). -/
def payloads (p : Packet) (bs : List Byte) : List (List Byte) :=
  if classOf p.msg = 1 ∨ bs = [] then [[]] else pieces (bs.length / 128 + 1) bs

/-- The packets of a transfer offered one after the other, each with LCRC over its payload; the i-th is for the i-th line. -/
def offerAll (s : State) (cluster vn : Nat) (p : Packet) (psn : Bool) (ps : List (List Byte × Nat)) : State :=
  ps.foldl (fun t b => offer t cluster p.src vn (classOf p.msg) cluster { p with data := [], line := p.line.map (lineOn b.2) } b.1 psn
    (crc32c (payloadOf b.1))) s

/-- May an agent send a packet now (R59): a request with room for its answer, a CTRL reply where one is owed? -/
def maySend (m : Mesh) (vn : Nat) (p : Packet) : Bool :=
  if classOf p.msg = 0 then
    decide ((m.asked.filter (fun o => siteOf o.agent == siteOf p.src && o.vn == vn && o.cls.any (answerClasses p.msg).contains)).length < 4)
  else if isReply p.msg then m.owed.contains (replyDue p.src vn p.txn)
  else true

/-- What is due after an agent has sent a packet. -/
def Mesh.sent (m : Mesh) (vn : Nat) (p : Packet) : Mesh :=
  if classOf p.msg = 0 then { m with asked := m.asked ++ [{ agent := p.src, vn := vn, cls := answerClasses p.msg, txn := p.txn }] }
  else if isReply p.msg then { m with owed := m.owed.filter (fun o => !(o == replyDue p.src vn p.txn)) }
  else m

/-- PACKET_INJECTION: an agent sends a packet, or of a longer transfer a sequence of them, in the network of the partition it serves
(R50, R53, R55). -/
def execPacketInjection (cluster : Nat) (p : Packet) (s : State) : Host.Outcome State Fault Refusal :=
  if cluster < Config.clusters && agentOk p.src && placeOk p.dst && p.dst != .agent cluster p.src then
    match networkOf s cluster p.src p.serves with
    | none => .next s
    | some vn =>
      if maySend (s.mesh cluster) vn p then
        let d := sourceOf s p
        let ps := payloads p d.1
        let s := if p.spoiled then countUp s vn 3 1 else s
        .next ((offerAll s cluster vn p d.2 (ps.zip (List.range ps.length))).modMesh cluster (·.sent vn p))
      else .next s
  else .next s

/-! ## Gateways (R49, R67) -/

/-- The far side of a gateway: a base die or a hub die takes the flit; the mesh of another cluster has it offered by the gateway of the same
number, which keeps network, class, LCRC and PSN. A hub die, where the line leaves the mesh's domain for Inkline or the host link, verifies it, and one
that fails has poison from there on (R392). DESIGN CHOICE: a packet for a base die of another compute die enters the cluster there whose number has the same
parity (log 30). -/
def passFar (s : State) (cluster : Nat) (f : MeshFlit) : State :=
  let on (c : Nat) : State := offer s c (agentHere cluster f) f.vn f.ocls f.origin f.packet f.data f.psn f.lcrc
  match f.packet.dst with
  | .agent c _ => on c
  | .base b _ => if b / 3 = cluster / 2 then landFlit s f else on (2 * (b / 3) + cluster % 2)
  | .hub _ => (handOver s f).modMesh cluster (fun m => { m with hub := m.hub ++ [{ f with cls := f.ocls, psn := f.psn || lcrcFails f }] })

/-- The heads of the ejection queues of a site that its gateway is to forward. -/
def gateClaims (s : State) (cluster : Nat) (f : MeshFlit) : List Claim :=
  let m := s.mesh cluster
  (m.flits.filter (fun g => g.at_ == f.at_ && g.place == .eject && g.ltgt == f.ltgt && headOf cluster m g && !atHome cluster g && g.moved != some s.cycle)).map
    (fun g => ⟨{ g with cls := g.ocls }, 0, 4⟩)

/-- GATEWAY_FORWARD: a flit for a gateway leaves the cluster, in arrival order of its network and class, as the gateway's
arbitration grants. -/
def execGatewayForward (cluster flit : Nat) (s : State) : Host.Outcome State Fault Refusal :=
  match findFlit s cluster flit with
  | none => .next s
  | some f =>
    if f.place = .eject && !atHome cluster f then
      let key := portKey f.at_ 4
      let cs := gateClaims s cluster f
      match grantAt s (s.mesh cluster) key cs with
      | some c =>
        if c.flit.id = f.id then .next (passFar (s.modMesh cluster (fun m => (m.grant s key cs c.flit).drop f.id)) cluster f)
        else .next s
      | none => .next s
    else .next s

end Sys2Proof.Machine
end

