-- ==== Sys2Proof/Machine/Service.lean ====
section
/-!
DEFINITION. What firmware, the host and the board do to the device: register writes (R4), partitions (R395), fences (R394 to
R398), telemetry (R400), boot and recovery (R402, R403), the log and attestation (R404, R405), keys (R406), power (R407, R408),
resets (R409), host memory (R317, R362) and scrubbing (R393).
-/
namespace Sys2Proof.Machine

def State.modSys (s : State) (g : Sys → Sys) : State := { s with sys := g s.sys }

/-! ## Capability words (R398) -/

/-- Bits of the units that are not fenced. -/
def usable (n : Nat) (out : Nat → Bool) : Nat := (List.range n).foldl (fun w i => if out i then w else w + 2 ^ i) 0

def cap0 (s : State) : Nat :=
  (if s.sys.fences.isEmpty then 0 else 2 ^ 63) + usable 16 (fun i => s.sys.fences.contains (.port i)) * 2 ^ 32 +
    ((List.range (Config.clusters * Config.coresPerCluster)).filter (fun k => !coreFenced s k)).length * 2 ^ 16 +
    usable 8 (fun i => s.sys.fences.contains (.cluster i)) * 2 ^ 8

/-- Pseudo-channels that are not fenced. -/
def channels (s : State) : Nat := ((List.range 384).filter (fun n => !s.sys.fences.contains (.channel n))).length

def cap1 (s : State) : Nat := 2 * channels s * 2 ^ 16 + channels s

/-! ## Reads of BAR0 (R4, R28, R395, R398, R408) -/

/-- The power word (R408). -/
def powerWord (s : State) : Nat := (if s.sys.throt then 2 ^ 63 else 0) + s.sys.pwrNow % 2 ^ 16 * 2 ^ 32 + s.sys.pwrCap % 2 ^ 16

/-- The 8 bytes that a read at an offset of a partition's function gives; fw asks firmware's port for it instead. The packet buffer is
write-only, and reads as zero. -/
def functionRead (s : State) (fw : Bool) (part off : Nat) : Nat :=
  if !running s ∨ off < 0x80 then 0
  else if off = 0x80 then portStatus s fw part
  else if 0x1000 ≤ off ∧ off ≤ 0x1040 then (s.part? part).elim 0 (fun p => (p.counters[(off - 0x1000) / 8]?).getD 0)
  else if off = 0x1100 then cap0 s
  else if off = 0x1108 then cap1 s
  else 0

/-- The same of the physical function's own words; before firmware runs and in recovery it exposes none of them (R402, R403). -/
def physicalRead (s : State) (off : Nat) : Nat :=
  if !running s then 0 else if off = 0x2000 then powerWord s else if off = 0x1100 then cap0 s else if off = 0x1108 then cap1 s else 0

/-! ## REGISTER_WRITE (R4) -/

/-- A write to a partition-scope register from outside. -/
def putCr (s : State) (part n v : Nat) : State := s.modPart part (fun p => { p with cr := p.cr.put n (v &&& crMask n) })

/-- Bytes written at an IPA of a partition, within one page. -/
def ipaWrite (s : State) (part ipa : Nat) (bs : List Byte) : State :=
  match walk2 s part ipa with
  | some l => if l.kind = 0 then writeBytes s { home := .g, addr := l.phys ipa, key := l.key } bs else s
  | none => s

/-- Bytes 8 to 1,023 of a telemetry area are zero (R400). -/
def clearArea (s : State) (part ipa : Nat) : State := ipaWrite s part (ipa + 8) (List.replicate 1016 0)

/-- A setting of a partition, kept within its limits. -/
def setPart (s : State) (part : Nat) (ok : Bool) (g : Partition → Partition) : State := if ok then s.modPart part g else s

def writeRegister (s : State) : RegWrite → State
  | .port fw part off data =>
    if off ≤ 0x7F ∧ 0x80 ≤ off + data.length then s
    else s.modPart part (·.modPort fw (fun q => { q with buffer := bufferPut q.buffer off data }))
  | .readOnly _ _ _ => s
  | .nbvVer part v => setPart s part (v == 1 || v == 2) (fun p => { p with cr := { p.cr with nbvVer := v } })
  | .cvto part v => s.modPart part (fun p => { p with cr := { p.cr with cvto := v % 2 ^ 32 } })
  | .mtab part v => putCr s part 0x04 v.toNat
  | .mtabSz part v => putCr s part 0x05 v.toNat
  | .convArena part v => putCr s part 0x06 v.toNat
  | .dispFault part v => putCr s part 0x07 v.toNat
  | .trapBase part v => putCr s part 0x08 v.toNat
  | .weight part v => setPart s part (decide (1 ≤ v) && decide (v ≤ 255)) (fun p => { p with weight := v })
  | .vnWeight part v => setPart s part (decide (1 ≤ v) && decide (v ≤ 15)) (fun p => { p with vnWeight := v })
  | .engineWeight part v => setPart s part (decide (1 ≤ v) && decide (v ≤ 15)) (fun p => { p with engWeight := v })
  | .clusterMask part v => s.modPart part (fun p => { p with mask := v % 256 })
  | .cWindow part cluster slices =>
    setPart s part (decide (cluster < Config.clusters) && slices.all (fun i => decide (i < 192)) && slices.eraseDups.length == slices.length)
      (fun p => { p with cwin := mapPut p.cwin cluster slices })
  | .peer part dev target => setPart s part (decide (dev < 256)) (fun p => { p with
      peers := match target with
        | some t => mapPut p.peers dev t
        | none => mapDel p.peers dev })
  | .stealRing part ring => setPart s part (ring.all (fun c => decide (c < Config.clusters))) (fun p => { p with ring := ring })
  | .holdTimeout part ns => setPart s part (ns != 0) (fun p => { p with hold_ns := ns })
  | .spill part cls entries => setPart s part (decide (cls < 4)) (fun p => { p with spill := listPut p.spill cls entries })
  | .thermal tHot hyst => s.modSys (fun y => { y with tHot := min tHot tripTemp, hyst := hyst })
  | .dMax n => s.modSys (fun y => { y with dMax := n })
  | .route dev port => match port with
    | none => setRoute s dev none
    | some p => if (s.link.ports[p]?).any (·.up) && !s.sys.fences.contains (.port p) then setRoute s dev (some p) else s
  | .telemetryArea part pa =>
    if pa % 16384 = 0 then clearArea (s.modPart part (fun p => { p with telemetry := pa })) part pa else s
  | .deviceNumber n => if n < 256 then s.modLink (fun k => { k with dev := n }) else s
  | .movePage part ipa newPa => movePage s part ipa newPa id
  | .losePage part ipa => losePage s part ipa
  | .expose part ranges => s.modPart part (fun p => { p with exposed := ranges })
  | .saveArea part core pa => setPart s part (pa % 2097152 == 0) (fun p => { p with saveAreas := mapPut p.saveAreas core pa })

/-- REGISTER_WRITE. -/
def execRegisterWrite (w : RegWrite) (s : State) : Host.Outcome State Fault Refusal :=
  .next (if running s then writeRegister s w else s)

/-! ## PARTITION_CREATE (R395) -/

/-- Does a configuration keep to what the device has: clusters, slices and G memory (R1, R196)? -/
def cfgOk (cfg : PartCfg) : Bool :=
  decide (cfg.part < 8) && decide (cfg.key < 4096) && cfg.cells.all (fun c => decide (c.1 < Config.gBytes)) &&
    cfg.cwin.all (fun e => decide (e.1 < Config.clusters) && e.2.all (fun i => decide (i < 192)) && e.2.eraseDups.length == e.2.length)

/-- PARTITION_CREATE: firmware's tables and the image stand in G, counters are 0, and guest time runs from now. -/
def execPartitionCreate (cfg : PartCfg) (s : State) : Host.Outcome State Fault Refusal :=
  if running s && cfgOk cfg && (s.part? cfg.part).isNone then
    let p : Partition :=
      { weight := max 1 (min cfg.weight 255), mask := cfg.mask % 256
        cwin := cfg.cwin.foldl (fun (m : Map (List Nat)) (e : Nat × List Nat) => mapPut m e.1 e.2) []
        peers := cfg.peers, s1root := cfg.s1root, s2root := cfg.s2root, cr := PartCr.put {} 0x08 (cfg.trapBase.toNat &&& crMask 0x08), created := s.ns
        owner := cfg.owner }
    .next (cfg.cells.foldl (fun s c => writeBytes s { home := .g, addr := c.1, key := cfg.key } [c.2])
      { s with parts := mapPut s.parts cfg.part p })
  else .next s

/-! ## UNIT_FENCE (R394, R396, R397) -/

/-- A range on its way to a cluster stays with its victim. -/
def cancelSteal (s : State) (c : Nat) : State :=
  let x : Sched := mapGet s.scheds c {}
  match x.steal with
  | some q =>
    let y : Sched := mapGet s.scheds q.victim {}
    let sent := q.reply.getD []
    let s := { s with scheds := mapPut s.scheds q.victim { y with transit := y.transit.filter (fun r => !sent.contains r) } }
    { s with scheds := mapPut s.scheds c { x with steal := none } }
  | none => s

/-- What the save areas of a partition hold for a cluster, killed as well. -/
def stopSaved (c : Nat) (s : State) (e : Nat × Partition) : State :=
  let dead := e.2.save.groups.filter (fun g => clusterOf (coreOf g.1) == c)
  let owes := (e.2.save.strokes.filter (fun k => dead.any (fun g => g.1 == groupOf k.1))).flatMap (·.2.owes)
  let s := (dead.map (·.1)).foldl (fun s g => s.modPart e.1 (fun p => { p with save := { p.save with
    cores := mapDel p.save.cores (coreOf g), status := mapDel p.save.status (coreOf g) } })) (dead.foldl (dropSaved e.1) s)
  forfeit s owes

/-- Everything on a cluster killed without waiting, the copies of chunks on its engines among it (R394). -/
def stopCluster (s : State) (c : Nat) : State :=
  let s := s.parts.foldl (stopSaved c) s
  let gs := (s.groups.filter (fun e => clusterOf (coreOf e.1) == c)).map (·.1)
  let ks := gs.flatMap (strokesOf s)
  let s := gs.foldl killGroup s
  let s := (s.copies.filter (fun k => gs.contains k.group)).foldl (fun s k => completeCopy s { k with fault := true }) s
  let s := s.copies.foldl (fun s k => match k.kind with
    | .fire l n dev cluster => if cluster = c then completeFiring s { k with fault := true } l n dev else s
    | _ => s) s
  let s := (s.mms.filter (fun m => gs.contains m.group)).foldl (fun s m => mmsDone s m 1 0) s
  let s := (s.fired.filter (fun r => gs.contains r.group)).foldl completeFired s
  gs.foldl releaseGroup (sweepRetired (ks.foldl settleStroke s))

/-- Placement on a cluster stops: its scheduler places nothing more, and a launch with a range there is killed. -/
def fenceCluster (s : State) (c : Nat) : State :=
  let s := cancelSteal s c
  let left := ((mapGet s.scheds c {}).ranges.map (·.launch)).eraseDups
  let s := (upTo (c * Config.coresPerCluster) Config.coresPerCluster).foldl (fun s k => s.modCore k (fun x => { x with fenced := true })) s
  left.foldl killLaunch s

/-- Step 1 of a fence (R397): placement onto the unit stops. -/
def applyFence (s : State) : FenceUnit → State
  | .core k => s.modCore k (fun x => { x with fenced := true })
  | .cluster c => fenceCluster s c
  | .channel _ => s
  | .port n => portDown s n

/-- Is there such a unit? -/
def unitExists : FenceUnit → Bool
  | .core k => decide (k < Config.clusters * Config.coresPerCluster)
  | .cluster c => decide (c < Config.clusters)
  | .channel n => decide (n < 384)
  | .port n => decide (n < 16)

/-- Is there still resident work on a unit (R397): groups on its cores, those saved for them, ranges of a cluster, copies of its engines? -/
def fenceHeld (s : State) (u : FenceUnit) : Bool :=
  let hit (g : Nat) : Bool := match u with
    | .core k => coreOf g == k
    | .cluster c => clusterOf (coreOf g) == c
    | .channel _ | .port _ => false
  s.groups.any (fun e => hit e.1) || s.parts.any (fun e => e.2.save.groups.any (fun g => hit g.1)) || (match u with
    | .cluster c => !(mapGet s.scheds c {}).ranges.isEmpty || s.copies.any (fun k => (engineOf k).1 == c)
    | _ => false)

/-- A machine check of a cluster's router: what is on the cluster is killed without waiting (R394). -/
def machineCheck (s : State) : FenceUnit → State
  | .cluster c =>
    if s.sys.machineChecks.contains c then
      (stopCluster s c).modSys (fun y => { y with machineChecks := y.machineChecks.filter (· != c) })
    else s
  | _ => s

/-- Step 4 of a fence: the unit is fenced, and the capability words change. -/
def endFence (s : State) (u : FenceUnit) : State :=
  s.modSys (fun y => { y with fences := y.fences ++ [u], fencing := y.fencing.filter (· != u) })

/-- UNIT_FENCE: step 1 as it comes first, step 4 once no resident work is left. The pages of a channel firmware moves or takes away in between, by
settings of its own, so that its fence ends when the event comes again. -/
def execUnitFence (u : FenceUnit) (s : State) : Host.Outcome State Fault Refusal :=
  if running s && unitExists u then
    let begun := s.sys.fencing.contains u
    let t := if begun || s.sys.fences.contains u then s
      else (applyFence s u).modSys (fun y => { y with fencing := y.fencing ++ [u] })
    let t := machineCheck t u
    let now := match u with
      | .channel _ => begun
      | _ => true
    .next (if now && t.sys.fencing.contains u && !fenceHeld t u then endFence t u else t)
  else .next s

/-! ## TELEMETRY_PERIOD_END (R400) -/

/-- A partition's records of the period, merged in ascending cluster order. -/
def mergedTelemetry (s : State) (part : Nat) : List Byte × Nat :=
  let one (c : Nat) : List Byte := (mapGet? s.sys.telem (8 * c + part)).getD (freshRecord 1 0x0A 1)
  ((List.range (Config.clusters - 1)).map (· + 1)).foldl (fun (r : List Byte × Nat) c => mergeRecords r.1 (one c) false r.2) (one 0, s.fresh)

/-- A partition's area at the end of a period. -/
def publish (s : State) (e : Nat × Partition) : State :=
  if e.2.telemetry = 0 then s
  else
    let (r, n) := mergedTelemetry s e.1
    let s := ipaWrite (clearArea { s with fresh := n } e.1 e.2.telemetry) e.1 (e.2.telemetry + 1024 * (1 + s.sys.period % 15)) r
    ipaWrite s e.1 e.2.telemetry (natBytes 8 (s.sys.period + 1))

/-- TELEMETRY_PERIOD_END: 1 ms of device time has gone by. -/
def execTelemetryPeriodEnd (s : State) : Host.Outcome State Fault Refusal :=
  if running s && decide (1000000 * (s.sys.period + 1) ≤ s.ns) then
    .next ((s.parts.foldl publish s).modSys (fun y => { y with telem := [], period := y.period + 1 }))
  else .next s

/-! ## Boot (R402 to R404) -/

/-- Exactly n bytes. -/
def fitBytes (n : Nat) (bs : List Byte) : List Byte := (List.range n).map (fun i => (bs[i]?).getD 0)

/-- An entry of the measurement log (R404). -/
def logEntry (kind version : Nat) (digest : List Byte) : List Byte :=
  natBytes 4 kind ++ natBytes 4 version ++ natBytes 8 0 ++ fitBytes 64 digest

/-- An entry appended, and the running digest. -/
def appendLog (y : Sys) (e : List Byte) : Sys :=
  { y with log := y.log ++ [e], digest := fitBytes 64 (Config.shake256 (fitBytes 64 y.digest ++ e)) }

/-- Does an image verify under a vendor key? -/
def imageOk (i : Image) : Bool :=
  decide (Config.minVersion ≤ i.version) && Config.shake256 i.key == Config.vendorDigest &&
    Config.ed448Verify i.key (Config.shake256 i.body) i.signature

/-- The image that the ROM starts: the one of the higher version if it verifies, else the other. -/
def bootImage (flash : Map Image) : Option Image :=
  match mapGet? flash 0, mapGet? flash 1 with
  | some a, some b =>
    if a.version < b.version then (if imageOk b then some b else if imageOk a then some a else none)
    else if imageOk a then some a else if imageOk b then some b else none
  | some a, none => if imageOk a then some a else none
  | none, some b => if imageOk b then some b else none
  | none, none => none

/-- A unit as a number, in the record of fences. -/
def unitCode : FenceUnit → Nat
  | .core k => k
  | .cluster c => 65536 + c
  | .channel n => 131072 + n
  | .port n => 196608 + n

/-- The three entries of the ROM, then the firmware: SRAM and keys are zero, and the fences of the flash apply. -/
def startFirmware (s : State) (i : Image) : State :=
  let s := s.modSys (fun y =>
    let y := appendLog { y with log := [], digest := [], keys := [] } (logEntry 1 Config.romVersion Config.romDigest)
    let y := appendLog y (logEntry 2 i.version (Config.shake256 i.body))
    let y := appendLog y (logEntry 3 Config.fenceVersion (Config.shake256 (Config.fenceRecord (y.fences.map unitCode))))
    { y with stage := .running })
  let s := { s with mem := { s.mem with u := [], c := [], d := [], amem := [], clear := [], poisU := [], poisC := [], poisD := [], poisA := [] } }
  s.sys.fences.foldl applyFence s

/-- The boot ROM. -/
def bootUp (s : State) : State :=
  match bootImage s.sys.flash with
  | some i => startFirmware s i
  | none => s.modSys (fun y => { y with stage := .recovery })

/-- BOOT. -/
def execBoot (s : State) : Host.Outcome State Fault Refusal := .next (if s.sys.stage = .off then bootUp s else s)

/-- MODULE_POWER_DOWN. -/
def execModulePowerDown (s : State) : Host.Outcome State Fault Refusal := .next (powerOff s)

/-- MANAGEMENT_RESET (R409): the device boots again. -/
def execManagementReset (s : State) : Host.Outcome State Fault Refusal :=
  .next (if s.sys.stage = .off then s else bootUp (powerOff s))

/-- RECOVERY_IMAGE_WRITE. -/
def execRecoveryImageWrite (slot : Nat) (image : Image) (s : State) : Host.Outcome State Fault Refusal :=
  .next (if s.sys.stage = .recovery ∧ slot < 2 then s.modSys (fun y => { y with flash := mapPut y.flash slot image }) else s)

/-- RECOVERY_RESET. -/
def execRecoveryReset (s : State) : Host.Outcome State Fault Refusal :=
  .next (if s.sys.stage = .recovery then bootUp (powerOff s) else s)

/-- COMPONENT_START. -/
def execComponentStart (version : Nat) (digest : List Byte) (s : State) : Host.Outcome State Fault Refusal :=
  .next (if running s then s.modSys (fun y => appendLog y (logEntry 4 version digest)) else s)

/-! ## Attestation (R405) -/

/-- The report before its signature. -/
def reportBody (s : State) (part : Option Nat) (nonce : List Byte) : List Byte :=
  fitBytes 32 nonce ++ fitBytes 64 s.sys.digest ++ natBytes 4 s.sys.log.length ++ natBytes 4 (part.getD 0xFFFFFFFF) ++
    natBytes 8 (cap0 s) ++ natBytes 8 (cap1 s) ++ natBytes 8 s.ns

/-- ATTESTATION_REPORT: asked of a partition's function, or of the physical one. -/
def execAttestationReport (part : Option Nat) (nonce : List Byte) (s : State) : Host.Outcome State Fault Refusal :=
  if running s && part.all (fun p => (s.part? p).isSome) then
    let b := reportBody s part nonce
    .next (s.modSys (fun y => { y with reports := y.reports ++ [b ++ fitBytes 114 (Config.ed448Sign (Config.shake256 b))] }))
  else .next s

/-! ## Keys (R406) -/

/-- KEY_LOAD. -/
def execKeyLoad (keyid : Nat) (s : State) : Host.Outcome State Fault Refusal :=
  .next (if running s ∧ keyid < 4096 then
    s.modSys (fun y => { y with keys := mapPut y.keys keyid (y.keyLoads + 1), keyLoads := y.keyLoads + 1 }) else s)

/-- Does an entry of a FIFO go to a page of a key? -/
def FifoEntry.usesKey (k : Nat) (e : FifoEntry) : Bool :=
  let at_ (l : Loc) : Bool := l.home == .g && l.key == k
  match e with
  | .store l _ => at_ l
  | e => e.unitAt.any (fun u => at_ u.1)

/-- Does a peer write come to pages of a key here? -/
def peerUsesKey (s : State) (k part va n : Nat) : Bool := match peerReach s part va n .store with
  | .ok ls => ls.any (fun l => l.1.home == .g && l.1.key == k)
  | .error _ => false

def flitUsesKey (s : State) (k : Nat) (f : Flit) : Bool :=
  f.dst == s.link.dev && (match f.body with
    | .store va bs | .beat va bs _ => peerUsesKey s k f.to_ va bs.length
    | .signal va _ _ => peerUsesKey s k f.to_ va 8
    | _ => false)

/-- Does a write on the mesh go to a page of a key? -/
def MeshFlit.usesKey (k : Nat) (f : MeshFlit) : Bool := f.packet.key == k && (match f.packet.line with
  | some (.g _) => true
  | _ => false)

/-- Is an access to pages of a key issued and not performed: in a FIFO, on the mesh, or among the peer writes that come to this device? -/
def keyInUse (s : State) (k : Nat) : Bool :=
  s.strokes.any (fun e => e.2.fifo.any (·.usesKey k)) || s.ctxs.any (fun e => e.2.fifo.any (·.usesKey k)) ||
    s.meshes.any (fun e => e.2.flits.any (·.usesKey k)) || (s.link.inbox ++ s.link.out).any (flitUsesKey s k) ||
    s.link.signals.any (fun g => g.dev == s.link.dev && peerUsesKey s k g.to_ g.va 8)

/-- KEY_DESTROY: what was issued to pages of the key is performed, and only then the slot is zero. What the FIFOs hold is performed at once;
while something is still on its way the slot stays, and the event comes again. -/
def execKeyDestroy (keyid : Nat) (s : State) : Host.Outcome State Fault Refusal :=
  if running s then
    let hit (q : List FifoEntry) : Bool := q.any (fun e => e.usesKey keyid)
    let s := (s.strokes.filter (fun e => hit e.2.fifo)).foldl (fun s e => killFinish (retireStroke (drainStroke s e.1) e.1) e.1) s
    let s := (s.ctxs.filter (fun e => hit e.2.fifo)).foldl (fun s e => settleFifo e.2.fifo.length s (.ctx e.1)) s
    .next (if keyInUse s keyid then s else s.modSys (fun y => { y with keys := mapDel y.keys keyid }))
  else .next s

/-! ## Power (R407, R408) -/

/-- POWER_SAMPLE: cycles are inserted from a sample above the cap on, until one falls below it (R407). -/
def execPowerSample (watts : Nat) (s : State) : Host.Outcome State Fault Refusal :=
  .next (if running s then s.modSys (fun y => { y with pwrNow := watts % 65536, throt := decide (y.pwrCap < watts) || (y.throt && watts == y.pwrCap) }) else s)

/-- THERMAL_TRIP: a core reads 115 °C or more. -/
def execThermalTrip (core : Nat) (s : State) : Host.Outcome State Fault Refusal :=
  .next (if (s.core core).temp.any (decide <| tripTemp ≤ ·) then powerOff s else s)

/-- PWRCAP_WRITE. -/
def execPwrcapWrite (v : BitVec 16) (s : State) : Host.Outcome State Fault Refusal :=
  .next (if running s then s.modSys (fun y => { y with pwrCap := max 1000 (min v.toNat 4000) }) else s)

/-! ## Host memory (R317, R362) -/

/-- The place of a byte of a share page (R317). -/
def sharePlace (s : State) (part va : Nat) : Option Loc := match walkPage s part va with
  | .ok p => if p.share ∧ p.kind < 2 then some { home := homeOfKind p.kind, addr := p.phys va, key := if p.kind = 0 then p.key else 0 } else none
  | .error _ => none

/-- Bytes at rising addresses, each written where a function of its address places it; those that have no place are not written. -/
def writeEach (place : State → Nat → Option Loc) (bad : Bool) (s : State) (a : Nat) : List Byte → State
  | [] => s
  | b :: bs => writeEach place bad (match place s a with
    | some l => writeMarked s [(l, 1)] [b] bad
    | none => s) (a + 1) bs

/-- An error that a code finds in data of a partition (R391, R395): corrected and counted, by SRAM or HBM; or the line is poisoned. -/
def codeError (s : State) (part : Nat) (line : LineId) (corrected : Bool) : State :=
  if corrected then countUp s part (match line with
    | .g _ => 1
    | _ => 0) 1
  else countUp (setMark s line true) part 3 1

/-- Does firmware expose a range of a partition's G memory to the host (R362)? -/
def shown (s : State) (part va n : Nat) : Bool :=
  (s.part? part).any (fun p => p.exposed.any (fun r => decide (r.1 ≤ va) && decide (va + n ≤ r.2)))

/-- Data that the host link delivers with poison count (R391, R395). -/
def hostBad (s : State) (part : Nat) (bad : Bool) : State := if bad then countUp s part 3 1 else s

/-- What an access of the host or of firmware to the device's memory does. -/
def deviceAccess (s : State) : HostAccess → State
  | .gWrite part va data bad =>
    if shown s part va data.length then (match peerReach s part va data.length .store with
    | .ok ls => hostBad (writeMarked s ls data bad) part bad
    | .error _ => s) else s
  | .gRead _ _ _ => s
  | .share part va data bad => hostBad (writeEach (fun s a => sharePlace s part a) bad s va data) part bad
  | .phys inD pa key data =>
    if (if inD then Config.dBytes else Config.gBytes) < pa + data.length then s
    else writeBytes s { home := if inD then .d else .g, addr := pa, key := if inD then 0 else key } data
  | .cwin part cluster off data bad => hostBad (writeEach (fun s a => cLoc s part cluster a 1) bad s off data) part bad
  | .code part line corrected => if lineOk line then codeError s part line corrected else s
  | .hostMem _ _ | .hostMark _ _ | .iommu _ _ => s

/-- An access to the device before firmware runs, or in recovery, does nothing (R402, R403); host memory is the host's. -/
def hostAccess (s : State) : HostAccess → State
  | .hostMem pa data => { s with mem := { s.mem with h := memWrite s.mem.h pa data } }
  | .hostMark line bad => { s with mem := s.mem.setPoison .h line bad }
  | .iommu page refuse => s.modSys (fun y => { y with refused := y.refused.filter (· != page) ++ (if refuse then [page] else []) })
  | acc => if running s then deviceAccess s acc else s

/-- HOST_MEMORY_ACCESS. -/
def execHostMemoryAccess (acc : HostAccess) (s : State) : Host.Outcome State Fault Refusal := .next (hostAccess s acc)

/-! ## POISON_SCRUB (R393) -/

/-- POISON_SCRUB. -/
def execPoisonScrub (line : LineId) (s : State) : Host.Outcome State Fault Refusal :=
  .next (if running s then setMark s line false else s)

end Sys2Proof.Machine
end

