-- ==== Sys2Proof/Machine/Dispatch.lean ====
section
/-!
DEFINITION. The dispatch of every instruction and event to its meaning.
-/
namespace Sys2Proof.Machine

/-- What an instruction or an event does to the machine. -/
def exec (i : Instr) (s : State) : Host.Outcome State Fault Refusal :=
  match i with
  | .add f => Sys2Proof.Machine.execAdd f s
  | .addC32 f => Sys2Proof.Machine.execAddC32 f s
  | .addImmC32 f => Sys2Proof.Machine.execAddImmC32 f s
  | .sub f => Sys2Proof.Machine.execSub f s
  | .subC32 f => Sys2Proof.Machine.execSubC32 f s
  | .mul f => Sys2Proof.Machine.execMul f s
  | .mulh f => Sys2Proof.Machine.execMulh f s
  | .mad f => Sys2Proof.Machine.execMad f s
  | .min f => Sys2Proof.Machine.execMin f s
  | .max f => Sys2Proof.Machine.execMax f s
  | .abs f => Sys2Proof.Machine.execAbs f s
  | .neg f => Sys2Proof.Machine.execNeg f s
  | .and f => Sys2Proof.Machine.execAnd f s
  | .andC32 f => Sys2Proof.Machine.execAndC32 f s
  | .or f => Sys2Proof.Machine.execOr f s
  | .orC32 f => Sys2Proof.Machine.execOrC32 f s
  | .xor f => Sys2Proof.Machine.execXor f s
  | .xorC32 f => Sys2Proof.Machine.execXorC32 f s
  | .andn f => Sys2Proof.Machine.execAndn f s
  | .not f => Sys2Proof.Machine.execNot f s
  | .shl f => Sys2Proof.Machine.execShl f s
  | .shlC32 f => Sys2Proof.Machine.execShlC32 f s
  | .shr f => Sys2Proof.Machine.execShr f s
  | .shrC32 f => Sys2Proof.Machine.execShrC32 f s
  | .sha f => Sys2Proof.Machine.execSha f s
  | .rot f => Sys2Proof.Machine.execRot f s
  | .bfe f => Sys2Proof.Machine.execBfe f s
  | .bfi f => Sys2Proof.Machine.execBfi f s
  | .popc f => Sys2Proof.Machine.execPopc f s
  | .clz f => Sys2Proof.Machine.execClz f s
  | .brev f => Sys2Proof.Machine.execBrev f s
  | .sel f => Sys2Proof.Machine.execSel f s
  | .cmp f => Sys2Proof.Machine.execCmp f s
  | .mov f => Sys2Proof.Machine.execMov f s
  | .movC32 f => Sys2Proof.Machine.execMovC32 f s
  | .lea f => Sys2Proof.Machine.execLea f s
  | .div f => Sys2Proof.Machine.execDiv f s
  | .rem f => Sys2Proof.Machine.execRem f s
  | .dot4 f => Sys2Proof.Machine.execDot4 f s
  | .prmt f => Sys2Proof.Machine.execPrmt f s
  | .fadd f => Sys2Proof.Machine.execFadd f s
  | .faddC32 f => Sys2Proof.Machine.execFaddC32 f s
  | .fsub f => Sys2Proof.Machine.execFsub f s
  | .fmul f => Sys2Proof.Machine.execFmul f s
  | .fmulC32 f => Sys2Proof.Machine.execFmulC32 f s
  | .ffma f => Sys2Proof.Machine.execFfma f s
  | .fmin f => Sys2Proof.Machine.execFmin f s
  | .fmax f => Sys2Proof.Machine.execFmax f s
  | .fabs f => Sys2Proof.Machine.execFabs f s
  | .fneg f => Sys2Proof.Machine.execFneg f s
  | .fcmp f => Sys2Proof.Machine.execFcmp f s
  | .fclass f => Sys2Proof.Machine.execFclass f s
  | .frcp f => Sys2Proof.Machine.execFrcp f s
  | .frsq f => Sys2Proof.Machine.execFrsq f s
  | .fsqrt f => Sys2Proof.Machine.execFsqrt f s
  | .fexp2 f => Sys2Proof.Machine.execFexp2 f s
  | .flog2 f => Sys2Proof.Machine.execFlog2 f s
  | .fsin f => Sys2Proof.Machine.execFsin f s
  | .fcos f => Sys2Proof.Machine.execFcos f s
  | .ftanh f => Sys2Proof.Machine.execFtanh f s
  | .fscl f => Sys2Proof.Machine.execFscl f s
  | .cvt f => Sys2Proof.Machine.execCvt f s
  | .pack2 f => Sys2Proof.Machine.execPack2 f s
  | .qnt4 f => Sys2Proof.Machine.execQnt4 f s
  | .dqn4 f => Sys2Proof.Machine.execDqn4 f s
  | .spcmp f => Sys2Proof.Machine.execSpcmp f s
  | .spexp f => Sys2Proof.Machine.execSpexp f s
  | .fdot2 f => Sys2Proof.Machine.execFdot2 f s
  | .vsw f => Sys2Proof.Machine.execVsw f s
  | .plop f => Sys2Proof.Machine.execPlop f s
  | .pmov f => Sys2Proof.Machine.execPmov f s
  | .vote f => Sys2Proof.Machine.execVote f s
  | .shfl f => Sys2Proof.Machine.execShfl f s
  | .qxch f => Sys2Proof.Machine.execQxch f s
  | .red f => Sys2Proof.Machine.execRed f s
  | .redx f => Sys2Proof.Machine.execRedx f s
  | .scan f => Sys2Proof.Machine.execScan f s
  | .bra f => Sys2Proof.Machine.execBra f s
  | .braC32 off => Sys2Proof.Machine.execBraC32 off s
  | .brm f => Sys2Proof.Machine.execBrm f s
  | .jmpi f => Sys2Proof.Machine.execJmpi f s
  | .call f => Sys2Proof.Machine.execCall f s
  | .calli f => Sys2Proof.Machine.execCalli f s
  | .ret f => Sys2Proof.Machine.execRet f s
  | .retC32 f => Sys2Proof.Machine.execRetC32 f s
  | .exit f => Sys2Proof.Machine.execExit f s
  | .exitC32 f => Sys2Proof.Machine.execExitC32 f s
  | .fuse f => Sys2Proof.Machine.execFuse f s
  | .fuseC32 f => Sys2Proof.Machine.execFuseC32 f s
  | .nop f => Sys2Proof.Machine.execNop f s
  | .nopC32 f => Sys2Proof.Machine.execNopC32 f s
  | .bar f => Sys2Proof.Machine.execBar f s
  | .btake f => Sys2Proof.Machine.execBtake f s
  | .bgive f => Sys2Proof.Machine.execBgive f s
  | .cue f => Sys2Proof.Machine.execCue f s
  | .waitm f => Sys2Proof.Machine.execWaitm f s
  | .yield f => Sys2Proof.Machine.execYield f s
  | .ld f => Sys2Proof.Machine.execLd f s
  | .st f => Sys2Proof.Machine.execSt f s
  | .ldt f => Sys2Proof.Machine.execLdt f s
  | .stt f => Sys2Proof.Machine.execStt f s
  | .atom f => Sys2Proof.Machine.execAtom f s
  | .cas f => Sys2Proof.Machine.execCas f s
  | .fxadd f => Sys2Proof.Machine.execFxadd f s
  | .fxrd f => Sys2Proof.Machine.execFxrd f s
  | .fxclr f => Sys2Proof.Machine.execFxclr f s
  | .fence f => Sys2Proof.Machine.execFence f s
  | .pset f => Sys2Proof.Machine.execPset f s
  | .parm f => Sys2Proof.Machine.execParm f s
  | .ptest f => Sys2Proof.Machine.execPtest f s
  | .sclose f => Sys2Proof.Machine.execSclose f s
  | .fwait f => Sys2Proof.Machine.execFwait f s
  | .ftst f => Sys2Proof.Machine.execFtst f s
  | .fpass f => Sys2Proof.Machine.execFpass f s
  | .ftake f => Sys2Proof.Machine.execFtake f s
  | .fcan f => Sys2Proof.Machine.execFcan f s
  | .cpy f => Sys2Proof.Machine.execCpy f s
  | .cpyt f => Sys2Proof.Machine.execCpyt f s
  | .cpyr f => Sys2Proof.Machine.execCpyr f s
  | .cpym f => Sys2Proof.Machine.execCpym f s
  | .ccan f => Sys2Proof.Machine.execCcan f s
  | .wcue f => Sys2Proof.Machine.execWcue f s
  | .mmr f => Sys2Proof.Machine.execMmr f s
  | .mms f => Sys2Proof.Machine.execMms f s
  | .aalloc f => Sys2Proof.Machine.execAalloc f s
  | .afree f => Sys2Proof.Machine.execAfree f s
  | .agrant f => Sys2Proof.Machine.execAgrant f s
  | .ald f => Sys2Proof.Machine.execAld f s
  | .ast f => Sys2Proof.Machine.execAst f s
  | .azero f => Sys2Proof.Machine.execAzero f s
  | .cvset f => Sys2Proof.Machine.execCvset f s
  | .cvrst f => Sys2Proof.Machine.execCvrst f s
  | .sminit f => Sys2Proof.Machine.execSminit f s
  | .rqs f => Sys2Proof.Machine.execRqs f s
  | .rhh f => Sys2Proof.Machine.execRhh f s
  | .rdc f => Sys2Proof.Machine.execRdc f s
  | .smrg f => Sys2Proof.Machine.execSmrg f s
  | .sqnt f => Sys2Proof.Machine.execSqnt f s
  | .sest f => Sys2Proof.Machine.execSest f s
  | .shhq f => Sys2Proof.Machine.execShhq f s
  | .sadd f => Sys2Proof.Machine.execSadd f s
  | .ssub f => Sys2Proof.Machine.execSsub f s
  | .smulk f => Sys2Proof.Machine.execSmulk f s
  | .smask f => Sys2Proof.Machine.execSmask f s
  | .sxch f => Sys2Proof.Machine.execSxch f s
  | .sfin f => Sys2Proof.Machine.execSfin f s
  | .strn f => Sys2Proof.Machine.execStrn f s
  | .sxor f => Sys2Proof.Machine.execSxor f s
  | .sdab f => Sys2Proof.Machine.execSdab f s
  | .srev f => Sys2Proof.Machine.execSrev f s
  | .pst f => Sys2Proof.Machine.execPst f s
  | .psig f => Sys2Proof.Machine.execPsig f s
  | .pwait f => Sys2Proof.Machine.execPwait f s
  | .spawn f => Sys2Proof.Machine.execSpawn f s
  | .launch f => Sys2Proof.Machine.execLaunch f s
  | .tagget f => Sys2Proof.Machine.execTagget f s
  | .tagset f => Sys2Proof.Machine.execTagset f s
  | .trap f => Sys2Proof.Machine.execTrap f s
  | .rte f => Sys2Proof.Machine.execRte f s
  | .csrr f => Sys2Proof.Machine.execCsrr f s
  | .csrw f => Sys2Proof.Machine.execCsrw f s
  | .bkpt f => Sys2Proof.Machine.execBkpt f s
  | .packetClose port off data => Sys2Proof.Machine.execPacketClose port off data s
  | .registerWrite w => Sys2Proof.Machine.execRegisterWrite w s
  | .launchCheck part cls => Sys2Proof.Machine.execLaunchCheck part cls s
  | .waitCounterPoll part => Sys2Proof.Machine.execWaitCounterPoll part s
  | .timedStart id => Sys2Proof.Machine.execTimedStart id s
  | .rangeHandout part cls => Sys2Proof.Machine.execRangeHandout part cls s
  | .corPlacement part cls => Sys2Proof.Machine.execCorPlacement part cls s
  | .groupPlacement cluster => Sys2Proof.Machine.execGroupPlacement cluster s
  | .sensorSample cluster temps => Sys2Proof.Machine.execSensorSample cluster temps s
  | .droopWindowEnd cluster => Sys2Proof.Machine.execDroopWindowEnd cluster s
  | .nomethodRetry id => Sys2Proof.Machine.execNomethodRetry id s
  | .stealRequest cluster part => Sys2Proof.Machine.execStealRequest cluster part s
  | .stealReply cluster => Sys2Proof.Machine.execStealReply cluster s
  | .stealAck cluster => Sys2Proof.Machine.execStealAck cluster s
  | .packetInjection cluster p => Sys2Proof.Machine.execPacketInjection cluster p s
  | .stride cluster flit check => Sys2Proof.Machine.execStride cluster flit check s
  | .relayLeg cluster flit check => Sys2Proof.Machine.execRelayLeg cluster flit check s
  | .gatewayForward cluster flit => Sys2Proof.Machine.execGatewayForward cluster flit s
  | .icacheFill core line => Sys2Proof.Machine.execIcacheFill core line s
  | .issueSlot core nib => Sys2Proof.Machine.execIssueSlot core nib s
  | .activeSetEntry core nib => Sys2Proof.Machine.execActiveSetEntry core nib s
  | .longLatencyComplete stroke id => Sys2Proof.Machine.execLongLatencyComplete stroke id s
  | .storeDrain agent => Sys2Proof.Machine.execStoreDrain agent s
  | .scribeIssue core => Sys2Proof.Machine.execScribeIssue core s
  | .walkComplete part core va => Sys2Proof.Machine.execWalkComplete part core va s
  | .tlbInvalidate part => Sys2Proof.Machine.execTlbInvalidate part s
  | .copyStart id => Sys2Proof.Machine.execCopyStart id s
  | .copyBeat id => Sys2Proof.Machine.execCopyBeat id s
  | .copyComplete id => Sys2Proof.Machine.execCopyComplete id s
  | .remoteWriteArrival id => Sys2Proof.Machine.execRemoteWriteArrival id s
  | .armingNotification core line => Sys2Proof.Machine.execArmingNotification core line s
  | .holdTimeout id => Sys2Proof.Machine.execHoldTimeout id s
  | .waitmPoll stroke => Sys2Proof.Machine.execWaitmPoll stroke s
  | .pwaitPoll stroke => Sys2Proof.Machine.execPwaitPoll stroke s
  | .mmrFire group cv => Sys2Proof.Machine.execMmrFire group cv s
  | .mmrComplete id => Sys2Proof.Machine.execMmrComplete id s
  | .cvTimeout group cv => Sys2Proof.Machine.execCvTimeout group cv s
  | .mmsStep id => Sys2Proof.Machine.execMmsStep id s
  | .gateWords id => Sys2Proof.Machine.execGateWords id s
  | .gateTimeout session round => Sys2Proof.Machine.execGateTimeout session round s
  | .sessionCreate num grant pools => Sys2Proof.Machine.execSessionCreate num grant pools s
  | .sessionEnd num => Sys2Proof.Machine.execSessionEnd num s
  | .sessionExpiry num => Sys2Proof.Machine.execSessionExpiry num s
  | .linkReplay port lseq => Sys2Proof.Machine.execLinkReplay port lseq s
  | .portDown port => Sys2Proof.Machine.execPortDown port s
  | .routeTimeout dev => Sys2Proof.Machine.execRouteTimeout dev s
  | .peerStoreArrival f => Sys2Proof.Machine.execPeerStoreArrival f s
  | .signalSend id => Sys2Proof.Machine.execSignalSend id s
  | .signalArrival f => Sys2Proof.Machine.execSignalArrival f s
  | .peerAck f => Sys2Proof.Machine.execPeerAck f s
  | .timeSample remote held => Sys2Proof.Machine.execTimeSample remote held s
  | .chunkFire launch chunk => Sys2Proof.Machine.execChunkFire launch chunk s
  | .chunkFold launch chunk => Sys2Proof.Machine.execChunkFold launch chunk s
  | .chunkTimeout launch chunk => Sys2Proof.Machine.execChunkTimeout launch chunk s
  | .memberTimeout launch chunk => Sys2Proof.Machine.execMemberTimeout launch chunk s
  | .chunkResultLand launch chunk code missing skew data => Sys2Proof.Machine.execChunkResultLand launch chunk code missing skew data s
  | .trapDelivery agent => Sys2Proof.Machine.execTrapDelivery agent s
  | .faultResume token => Sys2Proof.Machine.execFaultResume token s
  | .faultKill token => Sys2Proof.Machine.execFaultKill token s
  | .killStroke stroke => Sys2Proof.Machine.execKillStroke stroke s
  | .killContext ctx => Sys2Proof.Machine.execKillContext ctx s
  | .killLaunch id => Sys2Proof.Machine.execKillLaunch id s
  | .killPartition part => Sys2Proof.Machine.execKillPartition part s
  | .cowResolve token newPa => Sys2Proof.Machine.execCowResolve token newPa s
  | .pagePull token pulled => Sys2Proof.Machine.execPagePull token pulled s
  | .partitionReset part => Sys2Proof.Machine.execPartitionReset part s
  | .sliceEnd part cores => Sys2Proof.Machine.execSliceEnd part cores s
  | .saveRestart part => Sys2Proof.Machine.execSaveRestart part s
  | .partitionRestore part cores => Sys2Proof.Machine.execPartitionRestore part cores s
  | .launchRetire id => Sys2Proof.Machine.execLaunchRetire id s
  | .successorEnqueue id => Sys2Proof.Machine.execSuccessorEnqueue id s
  | .unitFence u => Sys2Proof.Machine.execUnitFence u s
  | .telemetryPeriodEnd => Sys2Proof.Machine.execTelemetryPeriodEnd s
  | .boot => Sys2Proof.Machine.execBoot s
  | .recoveryImageWrite slot image => Sys2Proof.Machine.execRecoveryImageWrite slot image s
  | .recoveryReset => Sys2Proof.Machine.execRecoveryReset s
  | .componentStart version digest => Sys2Proof.Machine.execComponentStart version digest s
  | .attestationReport part nonce => Sys2Proof.Machine.execAttestationReport part nonce s
  | .keyLoad keyid => Sys2Proof.Machine.execKeyLoad keyid s
  | .keyDestroy keyid => Sys2Proof.Machine.execKeyDestroy keyid s
  | .powerSample watts => Sys2Proof.Machine.execPowerSample watts s
  | .thermalTrip core => Sys2Proof.Machine.execThermalTrip core s
  | .pwrcapWrite v => Sys2Proof.Machine.execPwrcapWrite v s
  | .managementReset => Sys2Proof.Machine.execManagementReset s
  | .partitionCreate cfg => Sys2Proof.Machine.execPartitionCreate cfg s
  | .modulePowerDown => Sys2Proof.Machine.execModulePowerDown s
  | .hostMemoryAccess acc => Sys2Proof.Machine.execHostMemoryAccess acc s
  | .summaryComplete stroke => Sys2Proof.Machine.execSummaryComplete stroke s
  | .smaskComplete stroke => Sys2Proof.Machine.execSmaskComplete stroke s
  | .droopEvent core => Sys2Proof.Machine.execDroopEvent core s
  | .poisonScrub line => Sys2Proof.Machine.execPoisonScrub line s

end Sys2Proof.Machine
end

