-- ==== Sys2Proof/Machine/Sched.lean ====
section
/-!
DEFINITION. The order in which events come about by themselves where the agenda leaves it open (log 1): of the events that can
come about, in one fixed order, the first that changes the machine; where none does, a cycle passes.
-/
namespace Sys2Proof.Machine

/-- Cores with a group on them. -/
def busyCores (s : State) : List Nat := (s.groups.map (fun e => coreOf e.1)).eraseDups

/-- The completions of a stroke, and its polls. -/
def strokeEvents (e : Nat × Stroke) : List Instr :=
  [Instr.trapDelivery (.stroke e.1)] ++ (if e.2.fifo.isEmpty then [] else [.storeDrain (.stroke e.1)]) ++
    e.2.inflight.map (fun i => .longLatencyComplete e.1 i.id) ++
    e.2.busy.map (fun b => match b.1 with
      | .summary => .summaryComplete e.1
      | .smask => .smaskComplete e.1) ++
    (match e.2.park with
    | some (.waitm ..) => [.waitmPoll e.1]
    | some (.pwait ..) => [.pwaitPoll e.1]
    | _ => [])

/-- The convergence registers of a group. -/
def groupEvents (e : Nat × Group) : List Instr :=
  e.2.cvs.flatMap (fun c => [.mmrFire e.1 c.1, .cvTimeout e.1 c.1])

def copyEvents (c : Copy) : List Instr := [.copyComplete c.id, .copyStart c.id, .copyBeat c.id]

def remoteEvents (w : RemoteWrite) : List Instr :=
  if w.refused.isSome then [.holdTimeout w.id] else [.remoteWriteArrival w.id]

/-- What a device's own traffic to itself meets, and its signals and routes (R346, R348, R353). -/
def linkEvents (s : State) : List Instr :=
  let own := s.link.out.filter (fun f => f.dst == s.link.dev)
  s.link.signals.map (fun g => .signalSend g.id) ++
    own.flatMap (fun f => match s.link.acks.find? (fun a => a.1 == f) with
      | some a => [.peerAck { flit := f, late := a.2 }]
      | none => [flitEvent f]) ++ s.link.inbox.map flitEvent ++
    s.link.noRoute.map (fun e => .routeTimeout e.1)

/-- Collective chunks. -/
def chunkEvents (s : State) (k : Chunk) : List Instr :=
  resultEvents s k ++ [.chunkFire k.launch k.chunk, .chunkFold k.launch k.chunk, .chunkTimeout k.launch k.chunk, .memberTimeout k.launch k.chunk]

/-- The gate and its sessions. -/
def gateEvents (s : State) : List Instr :=
  s.gate.inbox.map (fun m => .gateWords m.id) ++ s.gate.rounds.map (fun r => .gateTimeout r.session r.id) ++
    s.gate.sessions.map (fun e => .sessionExpiry e.1)

/-- Launches: their checks, waits, handing out, ends. -/
def launchEvents (s : State) : List Instr :=
  s.launches.flatMap (fun e => [.launchRetire e.1, .successorEnqueue e.1, .timedStart e.1, .nomethodRetry e.1]) ++
    s.parts.flatMap (fun e => (List.range 4).map (fun c => .launchCheck e.1 c) ++ [.waitCounterPoll e.1]) ++
    s.parts.flatMap (fun e => (List.range 4).flatMap (fun c => [.rangeHandout e.1 c, .corPlacement e.1 c])) ++
    s.scheds.flatMap (fun e => [.stealAck e.1, .stealReply e.1, .groupPlacement e.1]) ++
    (if s.launches.isEmpty then [] else s.parts.flatMap (fun e => e.2.ring.map (fun c => .stealRequest c e.1)))

/-- Does a flit that is not in an ejection queue have a stride to make, or a local port to pass? -/
def flitMoves (s : State) (c : Nat) (f : MeshFlit) : Bool :=
  let f := legOf f
  (wants f).elim true (fun d => !(strideOf s (s.mesh c) f d f.at_).1.isEmpty)

/-- The mesh of a cluster. -/
def meshEvents (s : State) (e : Nat × Mesh) : List Instr :=
  e.2.flits.flatMap (fun f => match f.place with
    | .eject => if atHome e.1 f then [.stride e.1 f.id .clean] else [.gatewayForward e.1 f.id]
    | .relay => if flitMoves s e.1 f then [.relayLeg e.1 f.id .clean] else []
    | _ => if flitMoves s e.1 f then [.stride e.1 f.id .clean] else [])

/-- The nibs and the scribe of a core. -/
def coreEvents (core : Nat) : List Instr :=
  (List.range 4).flatMap (fun n => [.activeSetEntry core n, .issueSlot core n]) ++ [.scribeIssue core]

/-- The code lines at which some lanes of a stroke stand. -/
def laneLines (s : State) (e : Nat × Stroke) (m : Mask) : List Nat :=
  let part := (s.group? (groupOf e.1)).elim 0 (·.part)
  ((lanesOf m).map (fun l => codeLine part (pcOf e.2 l))).eraseDups

/-- Code lines that the eligible lanes and the contexts of a core need. Where they are more than the cache holds, each stroke that
can issue nothing needs one. -/
def fillEvents (s : State) (core : Nat) : List Instr :=
  let sts := s.strokes.filter (fun e => coreOf (groupOf e.1) == core)
  let ctxs := (s.ctxs.filter (fun e => coreOf e.1 == core && !e.2.exited && !e.2.killed)).map (fun e =>
    codeLine ((s.group? e.1).elim 0 (·.part)) e.2.pc.toNat)
  let all := (sts.flatMap (fun e => laneLines s e (eligible s e.1)) ++ ctxs).eraseDups
  let few := sts.flatMap (fun e => if fetchable s e.1 (eligible s e.1) = 0 then laneLines s e (lowestPath e.2 (eligible s e.1)) else []) ++ ctxs
  (if all.length ≤ icacheLines then all else few).map (fun l => .icacheFill core l)

/-- The events that can come about by themselves, in their order. -/
def candidates (s : State) : List Instr :=
  [.boot] ++ s.armings.map (fun i => .armingNotification (coreOfLine i) i) ++ s.strokes.flatMap strokeEvents ++ (s.ctxs.filter (fun e => !e.2.fifo.isEmpty)).map (fun e => .storeDrain (.ctx e.1)) ++
    s.fired.map (fun r => .mmrComplete r.id) ++ s.groups.flatMap groupEvents ++ s.mms.map (fun m => .mmsStep m.id) ++
    s.copies.flatMap copyEvents ++ s.remote.flatMap remoteEvents ++ linkEvents s ++ s.chunks.flatMap (chunkEvents s) ++
    gateEvents s ++ launchEvents s ++ s.meshes.flatMap (meshEvents s) ++ (busyCores s).flatMap (fun c => coreEvents c ++ fillEvents s c) ++
    [.telemetryPeriodEnd] ++ (s.sys.fencing ++ s.sys.machineChecks.map FenceUnit.cluster).map Instr.unitFence

/-- Does an event change the machine? -/
def changes (s : State) (e : Instr) : Bool := match exec e s with
  | .next t => decide (t ≠ s)
  | _ => false

/-- The event that comes about next by itself, if one can. -/
def nextEvent (s : State) : Option Instr := (candidates s).find? (changes s)

/-- A cycle passes: device time runs on at 10/19 ns a cycle (R2). -/
def tick (s : State) : State :=
  { s with cycle := s.cycle + 1, ns := if s.cycle * 10 / 19 < (s.cycle + 1) * 10 / 19 then (s.ns + 1) % 2 ^ 64 else s.ns }

end Sys2Proof.Machine
end

