-- ==== Sys2Proof/Machine/Step.lean ====
section
/-!
DEFINITION. One step of the machine: the instruction of the agent on turn; else the event that stands first in the
agenda; else the event that comes about by itself; else time passes (log 1).
-/
namespace Sys2Proof.Machine

/-- The step. -/
def step (s : State) : Host.Outcome State Fault Refusal :=
  match fetch s with
  | some (.instr i) => exec i s
  | some (.trap cause addr) => .next (fetchTrap s cause addr)
  | none =>
    if s.turn ≠ .none then .next (passTurn s)
    else match s.agenda with
    | e :: rest => if isEvent e then exec e { s with agenda := rest } else .next { s with agenda := rest }
    | [] => match nextEvent s with
      | some e => if isEvent e then exec e s else .next (tick s)
      | none => .next (tick s)

/-- The state in which the next step fetches and runs the given instruction (log 2). -/
def State.withFetchWord (s : State) (nbits w : Nat) : State :=
  withCode s (match decodeTableWord nbits w with
    | some i => onScribe i
    | none => false) (tableBytes nbits w)

end Sys2Proof.Machine
end

