-- ==== Sys2Proof/Safety.lean ====
section
/-!
DEFINITION. What counts as a safe step, and what it means that an instruction issues, commits, and leaves the rest of the
machine alone, in the terms that statements use.
-/
namespace Sys2Proof.Machine

/-- A step of the machine leads from one state to another. -/
def Steps (s t : State) : Prop := step s = .next t

/-- The machine stops at a state. -/
def Stops (s : State) : Prop := ∀ t, step s ≠ .next t

/-- Every memory is in its canonical form (log 4). -/
def MemSys.wf (m : MemSys) : Bool := memWf m.u && memWf m.c && memWf m.d && memWf m.g && memWf m.h

/-- Every line that n bytes from a place on touch decrypts under the place's key, or the place lies outside G (R214). -/
def writable (s : State) (l : Loc) (n : Nat) : Prop :=
  l.home = .g → ∀ i, i < n → keyFits s ((l.addr + i) / 128) l.key = true

/-! ## An instruction that issues -/

/-- An instruction about to execute: s is the machine and x the issuing agent with its path and its active lanes (R77); t and y are the
two once its input ports have been popped (R236). -/
structure Issued where
  s : State
  x : Env
  t : State
  y : Env
  deriving DecidableEq, Repr

/-- May an instruction execute in its active lanes: no cause is decided from its bits (R89), a scribe context waits for no k register
(R254), a lane is active, the resources it needs remain (R102), and no active lane reads a share tag (R144) or a mark (R376)? -/
def mayExecute (s : State) (x : Env) : Bool :=
  (bitsCause s x).isNone && !(x.scribe && ctxHazard s x) && x.act != 0 && !heldBack s x && taggedLanes s x == 0 && poisonLanes s x == 0

/-- The issue of an opcode by the agent on turn: some if its meaning is reached, that is, if it may execute and its stream ports
let it pass (R236, R237). -/
def issuedAs (s : State) (opc : Nat) (f : Fields) (len : Nat) : Option Issued :=
  match turnEnv s opc f len with
  | none => none
  | some z =>
    let x : Env := { z with act := guardMask s z }
    if mayExecute s x then
      match popPorts s x (inputPorts s x) with
      | .error _ => none
      | .ok q => match readyPush s q.1 q.2 with
        | .error _ => none
        | .ok t => some ⟨s, x, t, q.2⟩
    else none

/-- The issue of an instruction. An event is none. -/
def issued (s : State) : Instr → Option Issued
  | .bra f => issuedAs s 0x50 (branchFields f) 8
  | .braC32 _ => issuedAs s 0x50 plainFields 4
  | .call f => issuedAs s 0x53 (branchFields f) 8
  | i => (codeOf i).bind (fun c => issuedAs s c.1 c.2.1 c.2.2)

/-- Is lane l of the instruction's path active? -/
def Issued.on (q : Issued) (l : Nat) : Bool := q.x.act.getLsbD l

/-- The next instruction in memory. -/
def Issued.next (q : Issued) (_ : Nat) : Dword := q.x.pc + BitVec.ofNat 64 q.x.len

/-! ## What a commit leaves -/

/-- No flag is raised. -/
def noFlags (_ : State) (_ : Env) (_ : Nat) : Flags := 0

/-- A lane past an instruction that leaves the operations is in flight: of its path, each lane stands where the instruction sends it, has the
flags it raised and, if 8 operations are in flight, waits for the oldest of them; the other lanes are as before (R5, R77, R78, R117). -/
def lanePast (q : Issued) (is : List InFlight) (fl : Nat → Flags) (pc : Nat → Dword) (l : Nat) (y : Lane) : Lane :=
  if q.x.path.getLsbD l then { y with pc := pc l, aging := 0, full := limitOf is l, sticky := y.sticky ||| fl l } else y

/-- t is the machine after an instruction that commits: u but for the turn, the special-function unit that it takes (R102), the issuing
stroke's registers, lanes, operations in flight, park and kept records, or the issuing context's registers and PC. -/
def Past (q : Issued) (u t : State) (fl : Nat → Flags) (pc : Nat → Dword) : Prop :=
  t = { takeUnit u q.x with strokes := t.strokes, ctxs := t.ctxs, turn := nextTurn q.s q.x } ∧
  match q.x.agent with
  | .stroke k => t.ctxs = u.ctxs ∧ (∀ j, j ≠ k → t.stroke? j = u.stroke? j) ∧
    ∃ a b, u.stroke? k = some a ∧ t.stroke? k = some b ∧
      b = { a with regs := b.regs, lanes := b.lanes, inflight := b.inflight, busy := b.busy, park := parkLeft q.s a.park
                   kept := a.kept.filter (fun r => r.act &&& q.x.path == 0) } ∧
      ∀ l, b.lanes[l]? = (a.lanes[l]?).map (lanePast q b.inflight fl pc l)
  | .ctx g => t.strokes = u.strokes ∧ (∀ j, j ≠ g → t.ctx? j = u.ctx? j) ∧
    ∃ a b, u.ctx? g = some a ∧ t.ctx? g = some b ∧
      b = { a with k := b.k, kpois := b.kpois, p := b.p, pc := pc 0, lastIssue := q.s.cycle }

/-- A register of a stroke as another one has it, with its tag and its mark. -/
def sameReg (a b : Regs) (l : Nat) : RegName → Prop
  | .v i => b.vGet i l = a.vGet i l ∧ b.tagGet i l = a.tagGet i l ∧ b.poisGet i l = a.poisGet i l
  | .s i => b.sGet i = a.sGet i ∧ mapGet b.spois i false = mapGet a.spois i false
  | .p i => b.pGet i l = a.pGet i l
  | .e i => b.eGet i l = a.eGet i l
  | .f i => b.fGet i = a.fGet i
  | .k _ => True

/-- The operations in flight of the issuing stroke, and what its slow units hold, once an instruction of it has issued: each in flight
counts one more instruction (R78), and path B's s registers are no longer path A's (R81). -/
def counted (q : Issued) (a : Stroke) : List InFlight := countIssue q.x.path (yielded q.s (scalarDests q.x) a).inflight
def waiting (q : Issued) (a : Stroke) : List (SlowUnit × List WriteBack) := (yielded q.s (scalarDests q.x) a).busy

/-- The issuing agent's registers are unchanged from u to t but for the active lanes of the registers listed; its operations in
flight only count one more instruction (R78). -/
def Keeps (q : Issued) (u t : State) (ds : List RegName) : Prop :=
  match q.x.agent with
  | .stroke k => ∀ a b, u.stroke? k = some a → t.stroke? k = some b →
      b.regs.rows = a.regs.rows ∧ b.inflight = counted q a ∧ b.busy = waiting q a ∧
      (∀ i, .s i ∉ ds → ∀ l, sameReg a.regs b.regs l (.s i)) ∧ (∀ i, .f i ∉ ds → ∀ l, sameReg a.regs b.regs l (.f i)) ∧
      ∀ r l, l < 32 → (r ∉ ds ∨ q.on l = false) → (∀ i, r ≠ .s i) → (∀ i, r ≠ .f i) → sameReg a.regs b.regs l r
  | .ctx g => ∀ a b, u.ctx? g = some a → t.ctx? g = some b →
      (∀ i, .k i ∉ ds → b.kGet i = a.kGet i ∧ mapGet b.kpois i false = mapGet a.kpois i false) ∧
      ∀ i, .p i ∉ ds → mapGet b.p i false = mapGet a.p i false

/-- Word j of a number (R113). -/
def wordAt (n j : Nat) : Word := BitVec.ofNat 32 (n / 2 ^ (32 * j))

/-- Field code c, a destination of n registers, holds a value in lane l of registers r: words in ascending registers (R113), public
and unmarked (R315, R376); an s register has the first active lane's value (R81), a predicate its low bit. -/
def RegsHold (x : Env) (r : Regs) (c : Code) (n l val : Nat) : Prop :=
  match Opnd.ofCode c with
  | .v i => ∀ j, j < n → r.vGet (i + j) l = wordAt val j ∧ r.tagGet (i + j) l = 0 ∧ r.poisGet (i + j) l = false
  | .s i => some l = lowest x.act → ∀ j, j < n → r.sGet (i + j) = wordAt val j ∧ mapGet r.spois (i + j) false = false
  | .p i => r.pGet i l = decide (val % 2 = 1)
  | .e i => r.eGet i l = wordAt val 0
  | _ => True

/-- The same of a scribe context: a k register has the value zero-extended (R90). -/
def CtxHolds (b : ScribeCtx) (c : Code) (n val : Nat) : Prop :=
  match Opnd.ofCode c with
  | .k i => b.kGet i = BitVec.ofNat 64 (if n = 1 then val % 2 ^ 32 else val) ∧ mapGet b.kpois i false = false
  | .p i => mapGet b.p i false = decide (val % 2 = 1)
  | _ => True

/-- A destination of the issuing agent holds a value. -/
def Holds (q : Issued) (t : State) (c : Code) (n l val : Nat) : Prop :=
  match q.x.agent with
  | .stroke k => ∃ b, t.stroke? k = some b ∧ RegsHold q.x b.regs c n l val
  | .ctx g => ∃ b, t.ctx? g = some b ∧ CtxHolds b c n val

/-- The registers of one destination value. -/
def Issued.width (q : Issued) : Nat := match q.x.sh.d with
  | .op u => u.regs
  | _ => 0

/-- Where the instruction stands (R88). -/
def Issued.ctx (q : Issued) : Ctx := { scribe := q.x.scribe, bound := boundPorts (q.x.group q.s) }

/-- One value for each active lane, as the writes of field D. -/
def Issued.writes (q : Issued) (val : Nat → Nat) : List WriteBack := putD q.x (q.x.lanes.map (fun l => (l, val l)))

/-- The output ports that the instruction writes; scribe code writes none (R81). -/
def Issued.ports (q : Issued) : List Nat := if q.x.scribe then [] else outputPorts q.s q.x

/-- The machine v, and what the instruction's writes push to the output ports it names (R237). -/
def pushed (q : Issued) (v : State) (ws : List WriteBack) (op : Option Nat) : State :=
  { pushAll v q.x q.ports ws op with turn := v.turn }

/-- No condition on the operands, and no change of the machine besides registers and lanes. -/
def always (_ : State) (_ : Env) : Prop := True
def nothing (s : State) (_ : Env) : State := s

/-- The next instruction in memory, for every lane. -/
def onward (_ : State) (x : Env) (_ : Nat) : Dword := x.pc + BitVec.ofNat 64 x.len

/-- The instruction, wherever it is one (R88) and issues with operands that meet ok, commits: the machine changes as st says, the
destination holds the value given for each active lane, or the values are pushed to the output port that it names; the flags
given are raised; every lane of its path stands past it; and nothing else changes. -/
def GivesIf (i : Instr) (ok : State → Env → Prop) (st : State → Env → State) (val : State → Env → Nat → Nat)
    (fl : State → Env → Nat → Flags := noFlags) : Prop :=
  ∀ s q, issued s i = some q → checkInstr q.ctx i = none → ok q.t q.y →
    let u := st q.t q.y
    ∃ v, exec i s = .next (pushed q v (q.writes (val q.t q.y)) none) ∧
      Past q u v (fun l => if q.on l then fl q.t q.y l else 0) q.next ∧
      if q.ports = [] then
        Keeps q u v (destsOf q.x.sh q.x.f) ∧ ∀ l, q.on l = true → Holds q v q.x.f.d q.width l (val q.t q.y l)
      else Keeps q u v []

/-- The same with no condition and no other change. -/
def Gives (i : Instr) (val : State → Env → Nat → Nat) (fl : State → Env → Nat → Flags := noFlags) : Prop :=
  GivesIf i always nothing val fl

/-- The instruction, wherever it is one and issues with operands that meet ok, commits: the machine changes as st says, each lane of its
path goes to its pc, and no register changes. -/
def Does (i : Instr) (ok : State → Env → Prop) (st : State → Env → State) (pc : State → Env → Nat → Dword := onward) : Prop :=
  ∀ s q, issued s i = some q → checkInstr q.ctx i = none → ok q.t q.y →
    ∃ v, exec i s = .next v ∧ Past q (st q.t q.y) v (fun _ => 0) (pc q.t q.y) ∧ Keeps q (st q.t q.y) v []

/-- The instruction, wherever it is one and issues with operands that meet ok, commits: the machine changes as st says, the writes given
are made to the agent's registers, or pushed to the output port that it names; the flags given are raised; and nothing else
changes. -/
def Writes (i : Instr) (ok : State → Env → Prop) (st : State → Env → State) (ws : State → Env → List WriteBack)
    (fl : State → Env → Nat → Flags := noFlags) : Prop :=
  ∀ s q, issued s i = some q → checkInstr q.ctx i = none → ok q.t q.y →
    let u := st q.t q.y
    ∃ v, exec i s = .next (pushed q v (ws q.t q.y) none) ∧ Past q u v (fl q.t q.y) q.next ∧
      match q.x.agent with
      | .stroke k => ∃ a b, u.stroke? k = some a ∧ v.stroke? k = some b ∧ b.inflight = counted q a ∧
          b.busy = waiting q a ∧ b.regs = a.regs.applyAll ((ws q.t q.y).filter (fun w => !toPort (q.x.group q.s) w))
      | .ctx g => ∃ a, u.ctx? g = some a ∧
          v.ctx? g = some { (ws q.t q.y).foldl ScribeCtx.apply a with pc := q.next 0, lastIssue := q.s.cycle }

/-- The operation in flight with number op that a long-latency instruction leaves (R78): its lanes, its lookahead, its destinations
in the active lanes. -/
def Later (q : Issued) (op : Nat) (i : InFlight) : Prop :=
  i.id = op ∧ i.lanes = q.x.path ∧ i.la = q.x.f.la.toNat ∧ i.count = [] ∧ i.held = (heldDests q.x).map (fun r => (r, q.x.act))

/-- A long-latency instruction, wherever it is one and issues with operands that meet ok (R78): the machine changes as st says and
counts one operation; in thread code no register changes, and the newest operation in flight holds the writes given, with
what it still waits for; in scribe code the writes are made at once (R90). -/
def Flies (i : Instr) (ok : State → Env → Prop) (st : State → Env → State) (ws : State → Env → List WriteBack)
    (waits : State → Env → Nat := fun _ _ => 0) (fl : State → Env → Nat → Flags := noFlags) : Prop :=
  ∀ s q, issued s i = some q → checkInstr q.ctx i = none → ok q.t q.y →
    let u := st q.t q.y
    match q.x.agent with
    | .stroke k => ∃ v, exec i s = .next (pushed q v (ws q.t q.y) (some u.nextId)) ∧
        Past q { u with nextId := u.nextId + 1 } v (fun l => if q.on l then fl q.t q.y l else 0) q.next ∧
        ∃ a b f, u.stroke? k = some a ∧ v.stroke? k = some b ∧ b.regs = a.regs ∧ b.busy = waiting q a ∧
          b.inflight = counted q a ++ [f] ∧ Later q u.nextId f ∧ f.result = ws q.t q.y ∧
          f.waitFor = waits q.t q.y
    | .ctx g => ∃ v a, exec i s = .next v ∧ Past q u v (fun _ => 0) q.next ∧ u.ctx? g = some a ∧
        v.ctx? g = some { (ws q.t q.y).foldl ScribeCtx.apply a with pc := q.next 0, lastIssue := q.s.cycle }

/-- A long-latency instruction that will give a value to each active lane: the writes it leaves are those of D, and once they are made
D holds the value. -/
def GivesLater (i : Instr) (val : State → Env → Nat → Nat) (fl : State → Env → Nat → Flags := noFlags) : Prop :=
  Flies i always nothing (fun s x => putD x (x.lanes.map (fun l => (l, val s x l)))) (fl := fl) ∧
  ∀ s q, issued s i = some q → checkInstr q.ctx i = none → ∀ r l, q.on l = true → q.x.scribe = false →
    RegsHold q.x (Regs.applyAll r (q.writes (val q.t q.y))) q.x.f.d q.width l (val q.t q.y l)

/-- The instruction traps with operands that meet ok: nothing of it commits, and its agent takes the trap of the cause for the lanes
given (R5, R367). -/
def Traps (i : Instr) (ok : State → Env → Prop) (cause : Nat) (lanes : State → Env → Mask) : Prop :=
  ∀ s q, issued s i = some q → checkInstr q.ctx i = none → ok q.t q.y →
    ∃ code addr acc, exec i s = .next (trapAt q.s q.x cause (lanes q.t q.y) code addr acc)

/-- The instruction does not issue with operands that meet ok, as a resource that it needs does not remain: its path counts the slot, and
nothing else changes (R102, R352, R353). -/
def HeldOff (i : Instr) (ok : State → Env → Prop) : Prop :=
  ∀ s q, issued s i = some q → checkInstr q.ctx i = none → ok q.t q.y → exec i s = .next (holdBack q.s q.x)

/-- The instruction waits with operands that meet ok: its stroke parks, its context issues it again, and no register changes (R95). -/
def Parks (i : Instr) (ok : State → Env → Prop) (p : State → Env → Park) : Prop :=
  ∀ s q, issued s i = some q → checkInstr q.ctx i = none → ok q.t q.y → exec i s = .next (parkAt q.s q.x (p q.t q.y))

/-- The same where the instruction has first left its request in the machine; where it will issue afresh, it has popped nothing (R239). -/
def ParksIn (i : Instr) (ok : State → Env → Prop) (st : State → Env → State) (p : State → Env → Park) : Prop :=
  ∀ s q, issued s i = some q → checkInstr q.ctx i = none → ok q.t q.y →
    exec i s = .next { parkAt (parkedIn q.s q.y (p q.t q.y) (st q.t q.y)) q.x (p q.t q.y) with turn := nextTurn q.s { q.x with act := 0 } true }

/-- The instruction, wherever it is one and issues with operands that meet ok, commits with the effect given: the machine as the effect
has it, and on it what every commit does for its writes, flags, lanes and operations. -/
def Commits (i : Instr) (ok : State → Env → Prop) (e : State → Env → Effect) : Prop :=
  ∀ s q, issued s i = some q → checkInstr q.ctx i = none → ok q.t q.y →
    exec i s = .next { commit q.s q.x (e q.t q.y) with turn := nextTurn q.s q.x }

/-- The effect of a long-latency instruction of thread code on the machine s: one operation in flight, that will make the writes once
n more results have come (R78); in scribe code the writes are made at once (R90). -/
def later (x : Env) (s : State) (ws : List WriteBack) (n : Nat := 0) (fl : List (Nat × Flags) := []) : Effect :=
  if x.scribe then { st := s, writes := ws, flags := fl }
  else { st := { s with nextId := s.nextId + 1 }, writes := ws, flags := fl, later := some s.nextId, waitFor := n }

/-- The effect of an instruction at the unit of summaries or of masks: its stroke waits for the unit, and its writes with it (R306, R327). -/
def atUnit (u : SlowUnit) (s : State) (ws : List WriteBack) (fl : List (Nat × Flags) := []) : Effect :=
  { st := s, writes := ws, flags := fl, slow := some u }

/-- An event: in the machine s, where ok holds, it leads to the machine st. -/
def Leads (i : Instr) (ok : State → Prop) (st : State → State) : Prop := ∀ s, ok s → exec i s = .next (st s)

/-- A release that an instruction makes at its issue waits: once its agent's store FIFO is drained as far as it goes, a write to another core is
left there, words are still to be pushed, or, at `.sy`, stores to other devices have not been acknowledged (R342). -/
def releaseOut (sy : Bool) (s : State) (x : Env) : Prop := releaseWaits (x.released s) x.agent sy = true

/-- The write of an instruction with an ordering waits: ORD is .rel or .ar, its scope is not the stroke alone, and of the accesses before it some
stand outside the store FIFO, which it follows in any case: words still to be pushed, or, at `.sy`, stores to other devices (R218 to R221). -/
def writeWaits (s : State) (x : Env) : Prop :=
  let b := x.f.b.toNat
  (b / 64 % 4 = 2 ∨ b / 64 % 4 = 3) ∧ b / 8 % 8 ≠ 0 ∧ accessesOut s x.agent (decide (b / 8 % 8 = 5)) = true

/-- The active lanes that are not helper lanes (R7). -/
def workLanes (s : State) (x : Env) : Mask := maskOf (fun l => (x.workers s).contains l)

/-! ## Operands as rules name them -/

/-- x, y and z of R145 to R147: a, b and c as exact integers of the type (R113). -/
def intA (s : State) (x : Env) (l : Nat) : Int := x.ty.ext (opA s x l)
def intB (s : State) (x : Env) (l : Nat) : Int := x.ty.ext (opB s x l)
def intC (s : State) (x : Env) (l : Nat) : Int := x.ty.ext (opC s x l)

/-- The number of w bits of which bit j is p j. -/
def bitsNat (w : Nat) (p : Nat → Bool) : Nat := (List.range w).foldl (fun n j => if p j then n + 2 ^ j else n) 0

/-- Bit i of the source of a BFE: at or above the width the sign bit of an i type, 0 of an n type (R150). -/
def sourceBit (t : Ty) (a i : Nat) : Bool := if i < t.bits then a.testBit i else t.signed && a.testBit (t.bits - 1)

/-- The sign bits of the elements of a register (R116). -/
def signBits (t : Ty) : Nat := if t.elems = 2 then 0x80008000 else 0x80000000

/-- The rational value of a finite number; a NaN and an infinity have none, and count as 0 (R115). -/
def Num.rat : Num → ℚ
  | .fin neg m e => (if neg then -1 else 1) * (m : ℚ) * (2 : ℚ) ^ e
  | _ => 0

/-- A rational rounded to an integer by a mode (R120, R123). -/
def roundRat (r : Rnd) (q : ℚ) : ℤ := match r with
  | .rne => if q - ⌊q⌋ < 1 / 2 ∨ q - ⌊q⌋ = 1 / 2 ∧ ⌊q⌋ % 2 = 0 then ⌊q⌋ else ⌊q⌋ + 1
  | .rna => if q < 0 then ⌈q - 1 / 2⌉ else ⌊q + 1 / 2⌋
  | .rtz => if q < 0 then ⌈q⌉ else ⌊q⌋
  | .rup => ⌈q⌉
  | .rdn => ⌊q⌋

/-- Does a magnitude overflow a format once it is rounded, the exponent unbounded (R120)? The steps beyond the largest value are as wide as the
last one before it. -/
def overflows (t : Fmt) (r : Rnd) (neg : Bool) (x : ℚ) : Prop :=
  let big := (unpack t t.largest).rat
  let step := big - (unpack t (t.largest - 1)).rat
  match r with
  | .rne => if t.largest % 2 = 0 then big + step / 2 < x else big + step / 2 ≤ x
  | .rna => big + step / 2 ≤ x
  | .rtz => big + step ≤ x
  | .rup => if neg then big + step ≤ x else big < x
  | .rdn => if neg then big < x else big + step ≤ x

/-- What is written for a result that overflows (R120, R122). -/
def overflowCode (t : Fmt) (r : Rnd) (sat : Bool) (nbv : Nat) (neg : Bool) : Nat :=
  let sign := if neg then 2 ^ (t.eb + t.fb) else 0
  if t = .e2m1 ∨ sat = true ∨ t = .e4m3 ∧ nbv ≠ 1 then sign + t.largest
  else if t = .e4m3 then t.qnan
  else
    let inf := sign + (2 ^ t.eb - 1) * 2 ^ t.fb
    match r with
    | .rne | .rna => inf
    | .rtz => sign + t.largest
    | .rup => if neg then sign + t.largest else inf
    | .rdn => if neg then inf else sign + t.largest

end Sys2Proof.Machine
end

