-- ==== Sys2Proof/Certificates/Slice0/Obligations.lean ====
section
/-!
DEFINITION. The statements for the provers, each from the rules of the spec that its docstring names.
-/
open Sys2Proof Sys2Proof.Machine

/-! ## Integers and bits -/

/-- R145 to R147, R87: the exact sum, difference, product, high half, smaller, larger, magnitude or negation of the operands,
clamped with SAT and else taken modulo 2^w, is what D holds, and nothing else changes. -/
def Obligations.IntegerArithmeticIsExactThenInRange : Prop :=
  (∀ f, Gives (.add f) (fun s x l => x.ty.fit x.satBit (intA s x l + intC s x l))) ∧
  (∀ f, Gives (.addC32 f) (fun s x l => Ty.i32.fit false (intA s x l + intC s x l))) ∧
  (∀ f, Gives (.addImmC32 f) (fun s x l => Ty.i32.fit false (intA s x l + intC s x l))) ∧
  (∀ f, Gives (.sub f) (fun s x l => x.ty.fit x.satBit (intA s x l - intC s x l))) ∧
  (∀ f, Gives (.subC32 f) (fun s x l => Ty.i32.fit false (intA s x l - intC s x l))) ∧
  (∀ f, Gives (.mul f) (fun s x l => x.ty.fit x.satBit (intA s x l * intC s x l))) ∧
  (∀ f, Gives (.mulh f) (fun s x l => x.ty.fit false (Int.fdiv (intA s x l * intC s x l) (2 ^ x.ty.bits)))) ∧
  (∀ f, Gives (.mad f) (fun s x l => x.ty.fit (f.m.getLsbD 0) (intA s x l * intB s x l + intC s x l))) ∧
  (∀ f, Gives (.min f) (fun s x l => x.ty.fit false (if intC s x l < intA s x l then intC s x l else intA s x l))) ∧
  (∀ f, Gives (.max f) (fun s x l => x.ty.fit false (if intA s x l < intC s x l then intC s x l else intA s x l))) ∧
  (∀ f, Gives (.abs f) (fun s x l => x.ty.fit x.satBit (if intC s x l < 0 then - intC s x l else intC s x l))) ∧
  (∀ f, Gives (.neg f) (fun s x l => x.ty.fit x.satBit (- intC s x l)))

/-- R113, R145: what range handling leaves. With SAT it reads back in the type as the nearest value of the type's range;
without, as the one value of the range that is the exact result modulo 2^w; and the bits above the type are its sign or zero. -/
def Obligations.RangeHandlingClampsOrWraps : Prop :=
  ∀ t ∈ tyIN, ∀ (sat : Bool) (z : Int),
    let v := t.ext (t.fit sat z)
    t.least ≤ v ∧ v ≤ t.greatest ∧
      (if sat then (z < t.least → v = t.least) ∧ (t.greatest < z → v = t.greatest) ∧ (t.least ≤ z → z ≤ t.greatest → v = z)
        else (2 ^ t.bits : Int) ∣ v - z) ∧
      t.fit sat z < 2 ^ (32 * t.regs) ∧ ((t.fit sat z : Nat) : Int) % 2 ^ (32 * t.regs) = v % 2 ^ (32 * t.regs)

/-- R148, R87: each bit of the result is the operation on that bit of the operands, in the width of the type. R149, R87: shifts
and the rotation, by the low 32 bits of c. -/
def Obligations.LogicShiftsAndRotations : Prop :=
  ((∀ f, Gives (.and f) (fun s x l => bitsNat x.ty.bits (fun j => (opA s x l).testBit j && (opC s x l).testBit j))) ∧
    (∀ f, Gives (.andC32 f) (fun s x l => bitsNat 32 (fun j => (opA s x l).testBit j && (opC s x l).testBit j))) ∧
    (∀ f, Gives (.or f) (fun s x l => bitsNat x.ty.bits (fun j => (opA s x l).testBit j || (opC s x l).testBit j))) ∧
    (∀ f, Gives (.orC32 f) (fun s x l => bitsNat 32 (fun j => (opA s x l).testBit j || (opC s x l).testBit j))) ∧
    (∀ f, Gives (.xor f) (fun s x l => bitsNat x.ty.bits (fun j => (opA s x l).testBit j != (opC s x l).testBit j))) ∧
    (∀ f, Gives (.xorC32 f) (fun s x l => bitsNat 32 (fun j => (opA s x l).testBit j != (opC s x l).testBit j))) ∧
    (∀ f, Gives (.andn f) (fun s x l => bitsNat x.ty.bits (fun j => (opA s x l).testBit j && !(opC s x l).testBit j))) ∧
    (∀ f, Gives (.not f) (fun s x l => bitsNat x.ty.bits (fun j => !(opC s x l).testBit j)))) ∧
  ((∀ f, Gives (.shl f) (fun s x l => (BitVec.ofNat x.ty.bits (opA s x l) <<< (opC s x l % 2 ^ 32)).toNat)) ∧
    (∀ f, Gives (.shlC32 f) (fun s x l => (BitVec.ofNat 32 (opA s x l) <<< f.b.toNat).toNat)) ∧
    (∀ f, Gives (.shr f) (fun s x l => (BitVec.ofNat x.ty.bits (opA s x l) >>> (opC s x l % 2 ^ 32)).toNat)) ∧
    (∀ f, Gives (.shrC32 f) (fun s x l => (BitVec.ofNat 32 (opA s x l) >>> f.b.toNat).toNat)) ∧
    (∀ f, Gives (.sha f) (fun s x l => ((BitVec.ofNat x.ty.bits (opA s x l)).sshiftRight (opC s x l % 2 ^ 32)).toNat)) ∧
    (∀ f, Gives (.rot f) (fun s x l => ((BitVec.ofNat x.ty.bits (opA s x l)).rotateLeft (opC s x l % 2 ^ 32)).toNat)))

/-- R150, R151: fields taken out and put in, and the counts and the reversal of bits. -/
def Obligations.BitFieldsAndCounts : Prop :=
  (∀ f, Gives (.bfe f) (fun s x l =>
    let pos := opB s x l % 256
    let n := min (opC s x l % 256) x.ty.bits
    bitsNat x.ty.bits (fun j =>
      if j < n then sourceBit x.ty (opA s x l) (pos + j)
      else x.ty.signed && decide (0 < n) && sourceBit x.ty (opA s x l) (pos + n - 1)))) ∧
  (∀ f, Gives (.bfi f) (fun s x l =>
    let pos := opC s x l % 256
    let n := opC s x l / 256 % 256
    bitsNat x.ty.bits (fun j => if pos ≤ j ∧ j < pos + n then (opA s x l).testBit (j - pos) else (opB s x l).testBit j))) ∧
  (∀ f, Gives (.popc f) (fun s x l => ((List.range x.ty.bits).filter (fun j => (opC s x l).testBit j)).length)) ∧
  (∀ f, Gives (.clz f) (fun s x l =>
    (((List.range x.ty.bits).reverse.takeWhile (fun j => !(opC s x l).testBit j))).length)) ∧
  (∀ f, Gives (.brev f) (fun s x l => bitsNat x.ty.bits (fun j => (opC s x l).testBit (x.ty.bits - 1 - j))))

/-- R153, R155, R157, R158: comparisons to a predicate, addresses, the four byte products, and bytes selected. -/
def Obligations.CompareAddressDotAndPermute : Prop :=
  (∀ f, Gives (.cmp f) (fun s x l =>
    let a := intA s x l
    let c := intC s x l
    let holds : Bool := match f.m.toNat with
      | 0 => a = c
      | 1 => a ≠ c
      | 2 => a < c
      | 3 => a ≤ c
      | 4 => a > c
      | _ => a ≥ c
    if holds then 1 else 0)) ∧
  (∀ f, Gives (.lea f) (fun s x l =>
    (BitVec.ofNat x.ty.bits (opA s x l) +
      (BitVec.ofNat 32 (opC s x l)).signExtend x.ty.bits <<< (f.b.extractLsb' 3 3).toNat).toNat)) ∧
  (∀ f, Gives (.dot4 f) (fun s x l =>
    let r : Ty := if x.ty.signed then .i32 else .n32
    let p (j : Nat) : Int := x.ty.ext (opA s x l / 256 ^ j) * x.ty.ext (opB s x l / 256 ^ j)
    r.fit (f.m.getLsbD 0) (r.ext (opC s x l) + p 0 + p 1 + p 2 + p 3))) ∧
  (∀ f, Gives (.prmt f) (fun s x l =>
    let byte (n : Nat) : Nat := (if n < 4 then opA s x l / 256 ^ n else opB s x l / 256 ^ (n - 4)) % 256
    let out (i : Nat) : Nat :=
      let n := opC s x l / 16 ^ i % 16
      if n < 8 then byte n else if 128 ≤ byte (n - 8) then 255 else 0
    out 0 + 256 * out 1 + 65536 * out 2 + 16777216 * out 3))

/-- R152: SEL writes a if c ≠ 0 and b otherwise, for b32 and b64; c is read as a 32-bit value for both, and a predicate reads as
0 or 1. -/
def Obligations.SelectWritesAOrB : Prop :=
  (∀ f, Gives (.sel f) (fun s x l => if opC s x l % 2 ^ 32 = 0 then opB s x l else opA s x l)) ∧
  (∀ f x, checkInstr x (.sel f) = none → Ty.ofCode f.t = some .b32 ∨ Ty.ofCode f.t = some .b64) ∧
  (∀ f s q i l, issued s (.sel f) = some q → Opnd.ofCode f.c = .p i → opC q.t q.y l = if q.x.regs.pGet i l then 1 else 0) ∧
  (∀ c, (Opnd.ofCode c).kind ∈ [Kind.p, .v, .s] → checkInstr Ctx.thread (.sel { plainFields with c := c }) = none) ∧
  (∀ w, checkInstr Ctx.thread (.sel { plainFields with c := 0x1FF, ext := .lit w }) = none) ∧
  (∀ f, instrOf 0x17 f = some (.sel f))

/-- R154, R316: MOV writes c unchanged; a v destination takes over the tags of its source registers; a masked source, or any
share bound for an s or e register, traps SHARETAG. -/
def Obligations.MoveCopiesValueAndTag : Prop :=
  (∀ f, Writes (.mov f) (fun _ x => movTagged x = 0) nothing
    (fun s x => movWrites x (putD x (x.lanes.map (fun l => (l, opC s x l)))))) ∧
  (∀ f, Writes (.movC32 f) (fun _ x => movTagged x = 0) nothing
    (fun s x => movWrites x (putD x (x.lanes.map (fun l => (l, opC s x l)))))) ∧
  (∀ (x : Env) (s : State) (d i n l : Nat) (r : Regs), Opnd.ofCode x.f.d = .v d → Opnd.ofCode x.f.c = .v i →
    (∃ u, x.sh.d = .op u ∧ u.regs = n) → (∃ u, x.sh.c = .op u ∧ u.regs = n) → x.pops = [] → 0 < n → l ∈ x.lanes → l < 32 →
    let r' := Regs.applyAll r (movWrites x (putD x (x.lanes.map (fun l => (l, opC s x l)))))
    ∀ j, j < n → r'.vGet (d + j) l = wordAt (opC s x l) j ∧ r'.tagGet (d + j) l = x.regs.tagGet (i + j) l) ∧
  (∀ f, Traps (.mov f) (fun _ x => movTagged x ≠ 0) cSHARETAG (fun _ x => movTagged x)) ∧
  (∀ f, Traps (.movC32 f) (fun _ x => movTagged x ≠ 0) cSHARETAG (fun _ x => movTagged x)) ∧
  (∀ (x : Env) l i n, x.act.getLsbD l = true → l < 32 → Opnd.ofCode x.f.c = .v i → (∃ u, x.sh.c = .op u ∧ u.regs = n) → x.pops = [] →
    ((movTagged x).getLsbD l = true ↔
      ∃ j, j < n ∧ (x.regs.tagGet (i + j) l = 3 ∨ (x.regs.tagGet (i + j) l ≠ 0 ∧ (Opnd.ofCode x.f.d).kind ≠ .v))))

/-- R156, R114: the quotient rounds toward zero, the remainder takes the sign of the dividend; a division by zero gives the
greatest value, or for a negative dividend the least, and the dividend as remainder, and sets DIVZ. -/
def Obligations.DivisionRoundsTowardZero : Prop :=
  (∀ f, GivesLater (.div f)
    (fun s x l =>
      let a := intA s x l
      let c := intC s x l
      x.ty.fit x.satBit (if c = 0 then (if a < 0 then x.ty.least else x.ty.greatest) else Int.tdiv a c))
    (fun s x l => if intC s x l = 0 then flagDIVZ else 0)) ∧
  (∀ f, GivesLater (.rem f)
    (fun s x l =>
      let a := intA s x l
      let c := intC s x l
      x.ty.fit x.satBit (if c = 0 then a else Int.tmod a c))
    (fun s x l => if intC s x l = 0 then flagDIVZ else 0))

/-! ## Floats -/

/-- R159, R164, R165, R118: each element of the result is the exact sum, product, fused sum or scaled value of the elements as
they are read, packed by one rounding; both elements' flags are raised. Of finite terms those values are the rational ones; a NaN, infinities of
both signs and 0 × ∞ give the NaN, the last two with NV, and another infinity stays one. -/
def Obligations.FloatArithmeticRoundsOnce : Prop :=
  let by2 (g : Rnd → Machine.Num → Machine.Num → Machine.Num × Flags) (s : State) (x : Env) (l : Nat) : Nat × Flags :=
    packElems x.ty (fun i => finish x.ty.fmt (roundOf s x) x.satBit (ftzOf s x)
      (g (roundOf s x) (readElem x.ty (ftzOf s x) (opA s x l) i) (readElem x.ty (ftzOf s x) (opC s x l) i)))
  let ffma (s : State) (x : Env) (l : Nat) : Nat × Flags :=
    packElems x.ty (fun i =>
      let p := mulN (readElem x.ty (ftzOf s x) (opA s x l) i) (readElem x.ty (ftzOf s x) (opB s x l) i)
      let z := sumN x.roundM [p.1, readElem x.ty (ftzOf s x) (opC s x l) i]
      finish x.ty.fmt x.roundM x.satLa (ftzOf s x) (z.1, p.2 ||| z.2))
  let fscl (s : State) (x : Env) (l : Nat) : Nat × Flags :=
    packElems x.ty (fun i => finish x.ty.fmt (roundOf s x) x.satBit (ftzOf s x)
      (scaleN (readElem x.ty (ftzOf s x) (opA s x l) i) (Ty.i32.ext (opC s x l))))
  let fdot2 (s : State) (x : Env) (l : Nat) : Nat × Flags :=
    let p (i : Nat) : Machine.Num × Flags := mulN (readElem x.ty (ftzOf s x) (opA s x l) i) (readElem x.ty (ftzOf s x) (opB s x l) i)
    let z := sumN x.roundM [(p 0).1, (p 1).1, readElem .f32 (ftzOf s x) (opC s x l) 0]
    finish .f32 x.roundM x.satLa (ftzOf s x) (z.1, (p 0).2 ||| (p 1).2 ||| z.2)
  let fadd := by2 (fun r a c => sumN r [a, c])
  let fsub := by2 (fun r a c => sumN r [a, c.negate])
  let fmul := by2 (fun _ a c => mulN a c)
  (∀ f, Gives (.fadd f) (fun s x l => (fadd s x l).1) (fun s x l => (fadd s x l).2)) ∧
  (∀ f, Gives (.faddC32 f) (fun s x l => (fadd s x l).1) (fun s x l => (fadd s x l).2)) ∧
  (∀ f, Gives (.fsub f) (fun s x l => (fsub s x l).1) (fun s x l => (fsub s x l).2)) ∧
  (∀ f, Gives (.fmul f) (fun s x l => (fmul s x l).1) (fun s x l => (fmul s x l).2)) ∧
  (∀ f, Gives (.fmulC32 f) (fun s x l => (fmul s x l).1) (fun s x l => (fmul s x l).2)) ∧
  (∀ f, Gives (.ffma f) (fun s x l => (ffma s x l).1) (fun s x l => (ffma s x l).2)) ∧
  (∀ f, Gives (.fscl f) (fun s x l => (fscl s x l).1) (fun s x l => (fscl s x l).2)) ∧
  (∀ f, Gives (.fdot2 f) (fun s x l => (fdot2 s x l).1) (fun s x l => (fdot2 s x l).2)) ∧
  (let sig (ts : List Machine.Num) : Flags := if .nan true ∈ ts then flagNV else 0
   let nan (ts : List Machine.Num) : Prop := ∃ q, .nan q ∈ ts
   let zero (b : Machine.Num) : Prop := ∃ n e, b = .fin n 0 e
   (∀ r ts, ts ≠ [] → (∀ t ∈ ts, t.isFin = true) →
     let z := sumN r ts
     z.2 = 0 ∧ z.1.isFin = true ∧ z.1.rat = (ts.map Machine.Num.rat).sum ∧
       (z.1.rat = 0 → z.1.neg = (if ts.all Machine.Num.neg then true else if ts.all (fun t => !t.neg) then false else decide (r = .rdn)))) ∧
   (∀ r ts, nan ts → sumN r ts = (.nan false, sig ts)) ∧
   (∀ r ts, ¬ nan ts → .inf false ∈ ts → .inf true ∈ ts → sumN r ts = (.nan false, flagNV)) ∧
   (∀ r ts n, ¬ nan ts → .inf n ∈ ts → .inf (!n) ∉ ts → sumN r ts = (.inf n, 0)) ∧
   (∀ a b : Machine.Num, a.isFin = true → b.isFin = true →
     let z := mulN a b
     z.2 = 0 ∧ z.1.isFin = true ∧ z.1.rat = a.rat * b.rat ∧ z.1.neg = (a.neg != b.neg)) ∧
   (∀ a b, nan [a, b] → mulN a b = (.nan false, sig [a, b])) ∧
   (∀ n b, zero b → mulN (.inf n) b = (.nan false, flagNV) ∧ mulN b (.inf n) = (.nan false, flagNV)) ∧
   (∀ n b, ¬ nan [b] → ¬ zero b → mulN (.inf n) b = (.inf (n != b.neg), 0) ∧ mulN b (.inf n) = (.inf (b.neg != n), 0)) ∧
   (∀ (a : Machine.Num) c, a.isFin = true →
     let z := scaleN a c
     z.2 = 0 ∧ z.1.isFin = true ∧ z.1.rat = a.rat * (2 : ℚ) ^ c ∧ z.1.neg = a.neg) ∧
   (∀ n c, scaleN (.inf n) c = (.inf n, 0)) ∧ (∀ q c, scaleN (.nan q) c = (.nan false, sig [.nan q])))

/-- R120: rounding. The magnitude written for a finite value that does not overflow is, by the mode, the nearest one of the
format (a tie to an even code, or away from zero), or the nearest one toward zero, up or down; a result is inexact exactly when
NX is raised. -/
def Obligations.RoundingIsNearest : Prop :=
  ∀ (t : Fmt) (r : Rnd) (neg : Bool) (m : Nat) (e : Int), m ≠ 0 →
    let z := packFin t r false 2 false neg m e
    let x : ℚ := (Machine.Num.fin false m e).rat
    let v (c : Nat) : ℚ := (unpack t c).rat
    let y := v (z.1 % 2 ^ t.top)
    z.2 &&& flagOF = 0 →
      z.1 / 2 ^ t.top = (if neg then 1 else 0) ∧ z.1 % 2 ^ t.top ≤ t.largest ∧ (z.2 &&& flagNX = 0 ↔ y = x) ∧
      ∀ c, c ≤ t.largest →
        match r with
        | .rne => |x - y| ≤ |x - v c| ∧ (|x - y| = |x - v c| → v c ≠ y → z.1 % 2 = 0)
        | .rna => |x - y| ≤ |x - v c| ∧ (|x - y| = |x - v c| → v c ≤ y)
        | .rtz => y ≤ x ∧ (v c ≤ x → v c ≤ y)
        | .rup => if neg then y ≤ x ∧ (v c ≤ x → v c ≤ y) else x ≤ y ∧ (x ≤ v c → y ≤ v c)
        | .rdn => if neg then x ≤ y ∧ (x ≤ v c → y ≤ v c) else y ≤ x ∧ (v c ≤ x → v c ≤ y)

/-- R160: FABS clears and FNEG flips the sign bit of each element, every other bit is kept, NaN payloads included, and no flag
is raised; the types are f32, f16 and bf16, and M is 0. -/
def Obligations.AbsoluteAndNegateTouchSignBitsOnly : Prop :=
  (∀ f, Gives (.fabs f) (fun s x l => opC s x l % 2 ^ 32 &&& (0xFFFFFFFF ^^^ signBits x.ty))) ∧
  (∀ f, Gives (.fneg f) (fun s x l => opC s x l % 2 ^ 32 ^^^ signBits x.ty)) ∧
  (∀ f x, checkInstr x (.fabs f) = none → Ty.ofCode f.t ∈ [some .f32, some .f16, some .bf16] ∧ f.m = 0) ∧
  (∀ f x, checkInstr x (.fneg f) = none → Ty.ofCode f.t ∈ [some .f32, some .f16, some .bf16] ∧ f.m = 0) ∧
  (∀ f, instrOf 0x26 f = some (.fabs f) ∧ instrOf 0x27 f = some (.fneg f))

/-- R159, R161, R162: the smaller and the larger operand, the conditions of FCMP with the NaNs that raise NV, and the classes.
-/
def Obligations.FloatMinMaxCompareAndClass : Prop :=
  let two (x : Env) (s : State) (l i : Nat) : Machine.Num × Machine.Num :=
    (readElem x.ty (ftzOf s x) (opA s x l) i, readElem x.ty (ftzOf s x) (opC s x l) i)
  let nv (p : Machine.Num × Machine.Num) : Flags := if p.1 = .nan true ∨ p.2 = .nan true then flagNV else 0
  let less (a c : Machine.Num) : Bool := ltN a c || (!ltN c a && a.neg && !c.neg)
  let min_ (p : Machine.Num × Machine.Num) : Machine.Num :=
    if p.1.isNan then (if p.2.isNan then .nan false else p.2) else if p.2.isNan || less p.1 p.2 then p.1 else p.2
  let max_ (p : Machine.Num × Machine.Num) : Machine.Num :=
    if p.1.isNan then (if p.2.isNan then .nan false else p.2) else if p.2.isNan || !less p.1 p.2 then p.1 else p.2
  let pick (g : Machine.Num × Machine.Num → Machine.Num) (s : State) (x : Env) (l : Nat) : Nat × Flags :=
    packElems x.ty (fun i => finish x.ty.fmt (roundOf s x) x.satBit (ftzOf s x) (g (two x s l i), nv (two x s l i)))
  (∀ f, Gives (.fmin f) (fun s x l => (pick min_ s x l).1) (fun s x l => (pick min_ s x l).2)) ∧
  (∀ f, Gives (.fmax f) (fun s x l => (pick max_ s x l).1) (fun s x l => (pick max_ s x l).2)) ∧
  (∀ f, Gives (.fcmp f)
    (fun s x l =>
      let a := readElem .f32 (ftzOf s x) (opA s x l) 0
      let c := readElem .f32 (ftzOf s x) (opC s x l) 0
      let un := a.isNan || c.isNan
      let eq := !un && !ltN a c && !ltN c a
      let holds : Bool := match f.m.toNat with
        | 0 => eq
        | 1 => !eq
        | 2 => !un && ltN a c
        | 3 => !un && (ltN a c || eq)
        | 4 => !un && ltN c a
        | 5 => !un && (ltN c a || eq)
        | 6 => un
        | _ => !un
      if holds then 1 else 0)
    (fun s x l =>
      let a := readElem .f32 (ftzOf s x) (opA s x l) 0
      let c := readElem .f32 (ftzOf s x) (opC s x l) 0
      if 2 ≤ f.m.toNat ∧ f.m.toNat ≤ 5 then (if a.isNan || c.isNan then flagNV else 0)
      else if a = .nan true ∨ c = .nan true then flagNV else 0)) ∧
  (∀ f, Gives (.fclass f) (fun s x l => (packElems x.ty (fun i => (fclassNat x.ty.fmt (elemOf x.ty (opC s x l) i), 0))).1)) ∧
  (∀ (t : Fmt) (n : Nat), t ∈ [Fmt.f32, .f16, .bf16] → n < 2 ^ (t.top + 1) →
    let ex := n / 2 ^ t.fb % 2 ^ t.eb
    let fr := n % 2 ^ t.fb
    let neg := n.testBit t.top
    fclassNat t n = 2 ^ (
      if ex = 2 ^ t.eb - 1 then (if fr = 0 then (if neg then 0 else 7) else if fr < 2 ^ (t.fb - 1) then 8 else 9)
      else if ex = 0 then (if fr = 0 then (if neg then 3 else 4) else if neg then 2 else 5)
      else if neg then 1 else 6))

/-- R163: the special functions are long-latency instructions of one operand. R163: the special cases of the table, in every
format, and the exact results that its examples name. -/
def Obligations.SpecialFunctionsAndTheirCases : Prop :=
  (let g (h : SpecialFn) (s : State) (x : Env) (l : Nat) : Nat × Flags :=
     packElems x.ty (fun i => specialFloat h x.ty.fmt (ftzOf s x) (elemOf x.ty (opC s x l) i))
   (∀ f, GivesLater (.frcp f) (fun s x l => (g .rcp s x l).1) (fun s x l => (g .rcp s x l).2)) ∧
   (∀ f, GivesLater (.frsq f) (fun s x l => (g .rsq s x l).1) (fun s x l => (g .rsq s x l).2)) ∧
   (∀ f, GivesLater (.fsqrt f) (fun s x l => (g .sqrt s x l).1) (fun s x l => (g .sqrt s x l).2)) ∧
   (∀ f, GivesLater (.fexp2 f) (fun s x l => (g .exp2 s x l).1) (fun s x l => (g .exp2 s x l).2)) ∧
   (∀ f, GivesLater (.flog2 f) (fun s x l => (g .log2 s x l).1) (fun s x l => (g .log2 s x l).2)) ∧
   (∀ f, GivesLater (.fsin f) (fun s x l => (g .sin s x l).1) (fun s x l => (g .sin s x l).2)) ∧
   (∀ f, GivesLater (.fcos f) (fun s x l => (g .cos s x l).1) (fun s x l => (g .cos s x l).2)) ∧
   (∀ f, GivesLater (.ftanh f) (fun s x l => (g .tanh s x l).1) (fun s x l => (g .tanh s x l).2))) ∧
  (∀ t ∈ [Fmt.f32, .f16, .bf16], ∀ neg ∈ [false, true],
      let z := signBit t neg
      let inf := (2 ^ t.eb - 1) * 2 ^ t.fb
      let one := t.bias * 2 ^ t.fb
      let g (h : SpecialFn) (x : Nat) : Nat × Flags := specialFloat h t false x
      g .rcp z = (z + inf, flagDZ) ∧ g .rcp (z + inf) = (z, 0) ∧
      g .rsq z = (z + inf, 0) ∧ g .rsq inf = (0, 0) ∧ g .rsq (2 ^ t.top + one) = (t.qnan, flagNV) ∧
      g .sqrt z = (z, 0) ∧ g .sqrt inf = (inf, 0) ∧ g .sqrt (2 ^ t.top + one) = (t.qnan, flagNV) ∧
      g .exp2 (2 ^ t.top + inf) = (0, 0) ∧ g .exp2 inf = (inf, 0) ∧
      g .log2 z = (2 ^ t.top + inf, flagDZ) ∧ g .log2 one = (0, 0) ∧ g .log2 inf = (inf, 0) ∧
      g .log2 (2 ^ t.top + one) = (t.qnan, flagNV) ∧
      g .sin (z + inf) = (t.qnan, flagNV) ∧ g .sin (z + one) = (z, 0) ∧ g .sin (one - 2 ^ t.fb) = (one, 0) ∧
      g .cos (z + inf) = (t.qnan, flagNV) ∧ g .cos (z + one - 2 ^ t.fb) = (0, 0) ∧ g .cos z = (one, 0) ∧
      g .tanh (z + inf) = (z + one, 0) ∧ g .tanh z = (z, 0) ∧
      g .exp2 (one + 2 ^ t.fb + 2 ^ (t.fb - 1)) = (one + 3 * 2 ^ t.fb, 0) ∧
      ∀ h, g h t.qnan = (t.qnan, 0) ∧ g h (inf + 1) = (t.qnan, flagNV))

/-! ## Conversions -/

/-- R166, R167, R169: conversions without error feedback. R168: QNT4 encodes the stroke's 32 values once, an inactive lane as
+0, into four words of codes and a scale in the s registers from D on. R120, R122, R123: what a conversion of each kind gives, with the
results and flags of an overflow; R124, R126: the values that a block decodes to; R125, R127: the scale, the codes and the flags that it is
encoded with. That an infinite element with an explicit scale sets OF and NX is the model's reading (log 17). -/
def Obligations.ConversionsGiveTheConvertedValue : Prop :=
  (let cvt (s : State) (x : Env) (l : Nat) : Nat × Flags :=
     convert (tyOf (BitVec.ofNat 5 (x.f.b.toNat / 8))) x.ty (roundOf s x) x.satBit (x.nbv s) (opC s x l x.satBit)
   let pack2 (s : State) (x : Env) (l : Nat) : Nat × Flags :=
     let a := cvtFloat .f32 x.ty.fmt (roundOf s x) x.satBit (x.nbv s) (opA s x l)
     let c := cvtFloat .f32 x.ty.fmt (roundOf s x) x.satBit (x.nbv s) (opC s x l)
     (a.1 + 2 ^ x.ty.bits * c.1, a.2 ||| c.2)
   let dqn4 (_ : State) (x : Env) (l : Nat) : Nat × Flags :=
     let i := (Opnd.ofCode x.f.a).index
     let block := decodeBlock x.ty ((List.range 4).map (fun w => (x.regs.sGet (i + w)).toNat)) (x.regs.sGet (i + 4)).toNat
     let v := (block[l]?).getD (.fin false 0 0, false)
     let z := pack .f32 .rne false 2 false v.1
     (z.1, if v.2 then z.2 ||| flagMALF else z.2)
   (∀ f, GivesIf (.cvt f) (fun _ x => x.f.m ≠ 5) nothing (fun s x l => (cvt s x l).1) (fun s x l => (cvt s x l).2)) ∧
   (∀ f, GivesIf (.pack2 f) (fun _ x => x.f.m ≠ 5) nothing (fun s x l => (pack2 s x l).1) (fun s x l => (pack2 s x l).2)) ∧
   (∀ f, Gives (.dqn4 f) (fun s x l => (dqn4 s x l).1) (fun s x l => (dqn4 s x l).2))) ∧
  (∀ f, Writes (.qnt4 f) always nothing
      (fun s x =>
        let scale := if bit x.f.b.toNat 1 then none else some (opC s x ((lowest x.act).getD 0) % 256)
        let e := encodeBlock x.ty (Rnd.ofCode (bits x.f.b.toNat 4 2)) scale
          ((List.range 32).map (fun l => if x.act.getLsbD l then unpack .f32 (opA s x l) else .fin false 0 0))
        (List.range 4).flatMap (fun w => putS ((Opnd.ofCode x.f.d).index + w) (wordOfCodes (((e.1.map (·.1)).drop (8 * w)).take 8)) false 1) ++
          putS ((Opnd.ofCode x.f.d).index + 4) e.2 false 1)
      (fun s x l => if x.act.getLsbD l then
        let scale := if bit x.f.b.toNat 1 then none else some (opC s x ((lowest x.act).getD 0) % 256)
        let e := encodeBlock x.ty (Rnd.ofCode (bits x.f.b.toNat 4 2)) scale
          ((List.range 32).map (fun l => if x.act.getLsbD l then unpack .f32 (opA s x l) else .fin false 0 0))
        ((e.1[l]?).getD (0, 0)).2 else 0)) ∧
  (∀ (t : Fmt) (r : Rnd) (sat : Bool) (nbv : Nat) (neg : Bool),
    let sign := if neg then 2 ^ (t.eb + t.fb) else 0
    let packed (v : Machine.Num) : Nat × Flags := pack t r sat nbv false v
    (∀ q, packed (.nan q) = (t.qnan, 0)) ∧ (∀ e, packed (.fin neg 0 e) = (sign, 0)) ∧
    packed (.inf neg) = (if t = .e2m1 ∨ sat = true then sign + t.largest else if t = .e4m3 then t.qnan else sign + (2 ^ t.eb - 1) * 2 ^ t.fb, 0) ∧
    (∀ m e, m ≠ 0 → overflows t r neg (Machine.Num.fin false m e).rat →
      packed (.fin neg m e) = (overflowCode t r sat nbv neg, flagOF ||| flagNX)) ∧
    (∀ m e, m ≠ 0 → ¬ overflows t r neg (Machine.Num.fin false m e).rat →
      (packed (.fin neg m e)).2 &&& flagOF = 0 ∧ packed (.fin neg m e) = packFin t r false 2 false neg m e)) ∧
  (∀ (src dst : Ty) (r : Rnd) (sat : Bool) (nbv x : Nat),
    let z := convert src dst r sat nbv x
    (∀ a, src.fmt? = some a → dst ∈ tyIN →
      let v := unpack a (x % 2 ^ (a.eb + a.fb + 1))
      (v.isNan = true → dst.ext z.1 = 0 ∧ z.2 = flagNV) ∧
      (∀ n, v = .inf n → dst.ext z.1 = (if n then dst.least else dst.greatest) ∧ z.2 = flagNV) ∧
      (v.isFin = true →
        let k := roundRat r v.rat
        dst.ext z.1 = max dst.least (min dst.greatest k) ∧
          z.2 = (if k < dst.least ∨ dst.greatest < k then flagNV else if (k : ℚ) = v.rat then 0 else flagNX))) ∧
    (∀ b, src ∈ tyIN → dst.fmt? = some b → z = pack b r sat nbv false (.fin (decide (src.ext x < 0)) (src.ext x).natAbs 0)) ∧
    (src ∈ tyIN → dst ∈ tyIN → z = (dst.fit sat (src.ext x), 0)) ∧
    (∀ a b, src.fmt? = some a → dst.fmt? = some b →
      let y := x % 2 ^ (a.eb + a.fb + 1)
      let v := unpack a y
      let nv : Flags := if v = .nan true then flagNV else 0
      (a ≠ b → z = ((pack b r sat nbv false v).1, (pack b r sat nbv false v).2 ||| nv)) ∧
      (a = b → z = ((match v with
        | .nan _ => b.qnan
        | .inf n => if sat then (if n then 2 ^ (b.eb + b.fb) else 0) + b.largest else y
        | .fin _ _ _ => y), nv)))) ∧
  (∀ (cs : List Nat) (j c : Nat), cs[j]? = some c → wordOfCodes cs / 16 ^ j % 16 = c % 16) ∧
  (∀ (words : List Nat) (sc w j : Nat), w < words.length → j < 8 →
    let c := (words[w]?).getD 0 / 16 ^ j % 16
    let mag : ℚ := (([0, 1 / 2, 1, 3 / 2, 2, 3, 4, 6] : List ℚ)[c % 8]?).getD 0
    ∃ v, (decodeBlock .mxf4 words sc)[8 * w + j]? = some (v, false) ∧ (sc % 256 = 255 → v.isNan = true) ∧
      (sc % 256 ≠ 255 → v.isFin = true ∧ v.neg = decide (8 ≤ c) ∧
        v.rat = (if 8 ≤ c then -mag else mag) * (2 : ℚ) ^ (((sc % 256 : Nat) : ℤ) - 127))) ∧
  (∀ (words : List Nat) (sc w : Nat), w < words.length →
    let c (j : Nat) : Nat := (words[w]?).getD 0 / 16 ^ j % 16
    let scale : ℚ := (2 : ℚ) ^ (((sc % 256 : Nat) : ℤ) - 127)
    ∃ es : List Nat, es.Pairwise (fun a b => a + 3 ≤ b) ∧ (∀ e ∈ es, e ≤ 5 ∧ c e = 8) ∧ ∀ j, j < 8 →
      let inside := es.any (fun e => decide (e < j ∧ j ≤ e + 2))
      let byte := unpack .e4m3 (c (j + 1) + 16 * c (j + 2))
      ∃ v m, (decodeBlock .i4x words sc)[8 * w + j]? = some (v, m) ∧
        (m = true ↔ j ∉ es ∧ inside = false ∧ c j = 8) ∧ (m = true → 6 ≤ j) ∧ (sc % 256 = 255 → v.isNan = true) ∧
        (sc % 256 ≠ 255 →
          (j ∈ es → v.isNan = byte.isNan ∧ (byte.isFin = true → v.isFin = true ∧ v.rat = byte.rat * scale)) ∧
          (j ∉ es → v.isFin = true ∧
            v.rat = (if inside = true ∨ c j = 8 then 0 else if c j < 8 then (c j : ℚ) else (c j : ℚ) - 16) * scale))) ∧
  (∀ (t : Ty) (r : Rnd) (vs : List Machine.Num),
    let z := encodeBlock t r none vs
    let odd : Prop := ∃ v ∈ vs, v.isFin = false
    (odd → z.2 = 0xFF ∧ z.1 = vs.map (fun v => (0, if v.isFin then 0 else flagNV))) ∧
    (¬ odd → z = encodeBlock t r (some z.2) vs ∧ ((∀ v ∈ vs, v.rat = 0) → z.2 = 0) ∧
      ∀ v ∈ vs, (∀ u ∈ vs, |u.rat| ≤ |v.rat|) → ∀ e : ℤ, (2 : ℚ) ^ (e + 2) ≤ |v.rat| → |v.rat| < (2 : ℚ) ^ (e + 3) →
        z.2 = (max (-127) (min 127 e) + 127).toNat)) ∧
  (∀ (t : Ty) (r : Rnd) (vs : List Machine.Num),
    encodeBlock t r (some 0xFF) vs = (vs.map (fun v => (0, if v.isNan then flagNV else 0)), 0xFF)) ∧
  (∀ (r : Rnd) (sc : Nat) (vs : List Machine.Num) (l : Nat) (v : Machine.Num), sc < 255 → vs[l]? = some v →
    (encodeBlock .mxf4 r (some sc) vs).1[l]? = some (match v with
      | .nan _ => (0, flagNV)
      | .inf n => (if n then 15 else 7, flagOF ||| flagNX)
      | .fin n m e =>
        let p := pack .e2m1 r true 2 false (.fin n m (e - ((sc : ℤ) - 127)))
        (p.1, (p.2 &&& (flagOF ||| flagNX)) ||| if p.2 &&& flagNX ≠ 0 ∧ p.1 % 8 < 2 then flagUF else 0))) ∧
  (∀ (r : Rnd) (sc : Nat) (vs : List Machine.Num) (w : Nat), sc < 255 → vs.length = 32 → w < 4 →
    let v (j : Nat) : Machine.Num := (vs[8 * w + j]?).getD (.fin false 0 0)
    let quot (j : Nat) : ℚ := (v j).rat / (2 : ℚ) ^ ((sc : ℤ) - 127)
    let k (j : Nat) : ℤ := match v j with
      | .nan _ => 0
      | .inf n => if n then -8 else 8
      | .fin _ _ _ => roundRat r (quot j)
    let out (j : Nat) : Nat × Flags := match v j with
      | .fin n m e => pack .e4m3 r true 2 false (.fin n m (e - ((sc : ℤ) - 127)))
      | u => (if u.neg then 0xFE else 0x7E, flagOF ||| flagNX)
    ∃ es : List Nat, es.Pairwise (fun a b => a + 3 ≤ b) ∧ (∀ e ∈ es, e ≤ 5) ∧ ∀ j, j < 8 →
      let inside := es.any (fun e => decide (e < j ∧ j ≤ e + 2))
      (inside = false → (j ∈ es ↔ 7 < |k j| ∧ j ≤ 5 ∧ k (j + 1) = 0 ∧ k (j + 2) = 0)) ∧
      (encodeBlock .i4x r (some sc) vs).1[8 * w + j]? = some (
        (if j ∈ es then 8 else if 1 ≤ j ∧ j - 1 ∈ es then (out (j - 1)).1 % 16 else if 2 ≤ j ∧ j - 2 ∈ es then (out (j - 2)).1 / 16
          else if |k j| ≤ 7 then (k j % 16).toNat else if 0 < k j then 7 else 9),
        (if j ∈ es then (out j).2 else if (v j).isNan = true then flagNV
          else if inside = true ∨ |k j| ≤ 7 then (if (k j : ℚ) = quot j then 0 else flagNX) else flagOF ||| flagNX)))

/-! ## Across lanes -/

/-- R121, R166, R167: error feedback. D takes the rounded sum of the source and its residue, the residue register what the
rounding dropped. -/
def Obligations.ErrorFeedbackKeepsTheResidue : Prop :=
  (∀ f, Writes (.cvt f) (fun _ x => x.f.m = 5) nothing
    (fun s x =>
      let r (l : Nat) : Nat × Nat × Flags := efRound x.ty.fmt x.satBit (x.nbv s) (opC s x l x.satBit % 2 ^ 32) (opA s x l)
      putD x (x.lanes.map (fun l => (l, (r l).1))) ++ x.lanes.map (fun l => putE (Opnd.ofCode x.f.a).index l (r l).2.1))
    (fun s x l => if x.act.getLsbD l then
      (efRound x.ty.fmt x.satBit (x.nbv s) (opC s x l x.satBit % 2 ^ 32) (opA s x l)).2.2 else 0)) ∧
  (∀ f, Writes (.pack2 f) (fun _ x => x.f.m = 5) nothing
    (fun s x =>
      let n := bits x.f.b.toNat 5 2
      let a (l : Nat) : Nat × Nat × Flags := efRound x.ty.fmt x.satBit (x.nbv s) (opA s x l) (x.regs.eGet n l).toNat
      let c (l : Nat) : Nat × Nat × Flags := efRound x.ty.fmt x.satBit (x.nbv s) (opC s x l) (x.regs.eGet (n + 1) l).toNat
      putD x (x.lanes.map (fun l => (l, (a l).1 + 2 ^ x.ty.bits * (c l).1))) ++
        x.lanes.flatMap (fun l => [putE n l (a l).2.1, putE (n + 1) l (c l).2.1]))
    (fun s x l => if x.act.getLsbD l then
      let n := bits x.f.b.toNat 5 2
      (efRound x.ty.fmt x.satBit (x.nbv s) (opA s x l) (x.regs.eGet n l).toNat).2.2 |||
        (efRound x.ty.fmt x.satBit (x.nbv s) (opC s x l) (x.regs.eGet (n + 1) l).toNat).2.2 else 0)) ∧
  (∀ (t : Fmt) (sat : Bool) (nbv a e : Nat), t ∈ [Fmt.f16, .bf16, .e4m3, .e5m2] →
    let s := finish .f32 .rne false false (sumN .rne [unpack .f32 a, unpack .f32 e])
    let y := cvtFloat .f32 t .rne sat nbv s.1
    let r := efRound t sat nbv a e
    r.1 = y.1 ∧ r.2.2 = s.2 ||| y.2 ∧
      (notFinite t y.1 ∨ notFinite .f32 s.1 ∨ y.2 &&& flagOF ≠ 0 → r.2.1 = 0) ∧
      (notFinite t y.1 = false → notFinite .f32 s.1 = false → y.2 &&& flagOF = 0 →
        (unpack .f32 r.2.1).rat = (unpack .f32 s.1).rat - (unpack t y.1).rat))

/-- R174: PLOP's bit of each active lane is the operation of M on the bits of A and B; M = 7, a nonzero C or T, and an operand
that is no predicate are no instruction. -/
def Obligations.PredicateOperations : Prop :=
  (∀ f, Gives (.plop f) (fun s x l =>
    let a := opA s x l = 1
    let b := opB s x l = 1
    let r : Prop := match f.m.toNat with
      | 0 => a ∧ b
      | 1 => a ∨ b
      | 2 => ¬ (a ↔ b)
      | 3 => a ∧ ¬ b
      | 4 => ¬ (a ∧ b)
      | 5 => ¬ (a ∨ b)
      | _ => a ↔ b
    open Classical in if r then 1 else 0)) ∧
  (∀ f s q l, issued s (.plop f) = some q → checkInstr q.ctx (.plop f) = none →
    ∃ i j, Opnd.ofCode f.a = .p i ∧ Opnd.ofCode f.b = .p j ∧ (opA q.t q.y l = 1 ↔ q.x.regs.pGet i l = true) ∧
      (opB q.t q.y l = 1 ↔ q.x.regs.pGet j l = true)) ∧
  (∀ f x, checkInstr x (.plop f) = none → f.m ≠ 7 ∧ f.c = 0 ∧ f.t = 0 ∧ (Opnd.ofCode f.d).kind = .p ∧ (Opnd.ofCode f.a).kind = .p ∧
    (Opnd.ofCode f.b).kind = .p) ∧
  (∀ f, instrOf 0x40 f = some (.plop f))

/-- R175, R176: predicates gathered into an s register, scattered from one, and voted on; of no participant, all and uni hold.
Any other kinds of operands, a nonzero unused field and a mode from 3 on are no instruction. -/
def Obligations.PredicateMovesAndVotes : Prop :=
  (∀ f, Writes (.pmov f) (fun _ x => (Opnd.ofCode x.f.d).kind = .s) nothing
    (fun s x => putS (Opnd.ofCode x.f.d).index
      (bitsNat 32 (fun l => (x.workers s).contains l && decide (opA s x l = 1))) false 1)) ∧
  (∀ f, GivesIf (.pmov f) (fun _ x => (Opnd.ofCode x.f.d).kind = .p) nothing (fun s x l => if (opA s x l).testBit l then 1 else 0)) ∧
  (∀ f x, checkInstr x (.pmov f) = none → (Opnd.ofCode f.d).kind = .s ∧ (Opnd.ofCode f.a).kind = .p ∨
    (Opnd.ofCode f.d).kind = .p ∧ (Opnd.ofCode f.a).kind = .s) ∧
  (∀ f, Gives (.vote f) (fun s x _ =>
    let all : Bool := (x.workers s).all (fun l => opA s x l = 1)
    let none_ : Bool := (x.workers s).all (fun l => opA s x l = 0)
    match f.m.toNat with
    | 0 => if all then 1 else 0
    | 1 => if none_ then 0 else 1
    | _ => if all || none_ then 1 else 0)) ∧
  (∀ f x, checkInstr x (.pmov f) = none → f.b = 0 ∧ f.c = 0 ∧ f.t = 0 ∧ f.m = 0) ∧
  (∀ f x, checkInstr x (.vote f) = none → f.m.toNat < 3 ∧ (Opnd.ofCode f.d).kind = .p ∧ (Opnd.ofCode f.a).kind = .p) ∧
  (∀ f, instrOf 0x41 f = some (.pmov f) ∧ instrOf 0x42 f = some (.vote f))

/-- R177, R178: an exchange gives each active lane the value of A in its source lane; it traps SHARETAG where a lane it reads
carries a tag. R170, R171: the sweep's compress keeps two of each quad's four values, and its expand puts them back by their
indices; equal or falling indices give a NaN and raise NV. -/
def Obligations.ExchangesReadOtherLanes : Prop :=
  (let shfl (s : State) (x : Env) (l : Nat) : Nat :=
     let w := 2 ^ bits x.f.b.toNat 3 1
     let base := l / w * w
     let o := l % w
     let n := opC s x l % 2 ^ 32
     match x.f.m.toNat with
     | 0 => base + n % w
     | 1 => if n ≤ o then l - n else l
     | 2 => if o + n < w then l + n else l
     | _ => base + (o ^^^ n % w)
   let qxch (_ : State) (x : Env) (l : Nat) : Nat :=
     4 * (l / 4) + (match x.f.m.toNat with
       | 0 => l % 4 ^^^ 1
       | 1 => l % 4 ^^^ 2
       | 2 => l % 4 ^^^ 3
       | _ => x.f.c.toNat % 4)
   let clean (src : State → Env → Nat → Nat) (s : State) (x : Env) : Prop := ∀ l ∈ x.lanes, ∀ i ∈ fieldRegs x x.sh.a x.f.a,
     x.regs.tagGet i (src s x l) = 0 ∧ x.regs.poisGet i (src s x l) = false
   let tagged (src : State → Env → Nat → Nat) (s : State) (x : Env) : Mask :=
     maskOf (fun l => x.lanes.contains l && (fieldRegs x x.sh.a x.f.a).any (fun i => x.regs.tagGet i (src s x l) != 0))
   (∀ f, GivesIf (.shfl f) (clean shfl) nothing (fun s x l => opA s x (shfl s x l))) ∧
   (∀ f, GivesIf (.qxch f) (clean qxch) nothing (fun s x l => opA s x (qxch s x l))) ∧
   (∀ f, Traps (.shfl f) (fun s x => tagged shfl s x ≠ 0) cSHARETAG (tagged shfl)) ∧
   (∀ f, Traps (.qxch f) (fun s x => tagged qxch s x ≠ 0) cSHARETAG (tagged qxch))) ∧
  (let vals (s : State) (x : Env) (l : Nat) : List Nat := (List.range 4).map (fun j => sparseElem x.ty (opA s x (4 * (l / 4) + j)))
   let kept (s : State) (x : Env) (l : Nat) : Nat × Nat := pick24 ((vals s x l).map (unpack x.ty.fmt))
   let clean (rs : Env → List Nat) (_ : State) (x : Env) : Prop := ∀ l ∈ x.lanes, ∀ j, j < 4 → ∀ i ∈ rs x,
     x.regs.tagGet i (4 * (l / 4) + j) = 0 ∧ x.regs.poisGet i (4 * (l / 4) + j) = false
   (∀ f, Writes (.spcmp f) (clean (fun x => fieldRegs x x.sh.a x.f.a)) nothing (fun s x =>
     putD x (x.lanes.map (fun l => (l,
       if l % 4 = 0 then ((vals s x l)[(kept s x l).1]?).getD 0 else if l % 4 = 1 then ((vals s x l)[(kept s x l).2]?).getD 0 else 0))) ++
     x.lanes.flatMap (fun l => putV (Opnd.ofCode x.f.b).index l ((kept s x l).1 + 4 * (kept s x l).2) 0 false 1))) ∧
   (∀ f, GivesIf (.spexp f) (clean (fun x => fieldRegs x x.sh.a x.f.a ++ fieldRegs x x.sh.b x.f.b)) nothing
     (fun s x l =>
       let q := 4 * (l / 4)
       let i0 := opB s x q % 4
       let i1 := opB s x q / 4 % 4
       if i1 ≤ i0 then x.ty.fmt.qnan
       else if l % 4 = i0 then sparseElem x.ty (opA s x q)
       else if l % 4 = i1 then sparseElem x.ty (opA s x (q + 1)) else 0)
     (fun s x l =>
       let q := 4 * (l / 4)
       if opB s x q / 4 % 4 ≤ opB s x q % 4 then flagNV else 0)) ∧
   (∀ a b c d : Machine.Num,
     let k := pick24 [a, b, c, d]
     let v (i : Nat) : Machine.Num := ([a, b, c, d][i]?).getD a
     let bigger (p q : Machine.Num) : Bool := if p.isNan then !q.isNan else !q.isNan && ltN (Machine.Num.magnitude q) (Machine.Num.magnitude p)
     k.1 < k.2 ∧ k.2 < 4 ∧ ∀ i, i < 4 → i ≠ k.1 → i ≠ k.2 →
       bigger (v i) (v k.1) = false ∧ bigger (v i) (v k.2) = false ∧
       (bigger (v k.1) (v i) = false → k.1 < i) ∧ (bigger (v k.2) (v i) = false → k.2 < i)))

/-- R179 to R181: reductions, extremes with payloads, and scans over the participants, the others contributing the identity. That SCAN
raises the flags of all its additions in every participant is the model's reading (log 17). -/
def Obligations.ReductionsAndScans : Prop :=
  (∀ f, Writes (.red f) always nothing
    (fun s x =>
      let z := redTree (redOp x.f.m.toNat x.ty (ftzOf s x)) (contributed x s x.f.m.toNat)
      putD x (x.lanes.map (fun l => (l, z.1))))
    (fun s x l => if (x.workers s).contains l then (redTree (redOp x.f.m.toNat x.ty (ftzOf s x)) (contributed x s x.f.m.toNat)).2 else 0)) ∧
  (∀ (x : Env) (s : State), x.ty ≠ .f32 →
    let vs := contributed x s x.f.m.toNat
    let z := (redTree (redOp x.f.m.toNat x.ty (ftzOf s x)) vs).1
    match x.f.m.toNat with
    | 0 => z = vs.sum % 2 ^ 32
    | 1 => z ∈ vs ∧ ∀ v ∈ vs, x.ty.ext z ≤ x.ty.ext v
    | 2 => z ∈ vs ∧ ∀ v ∈ vs, x.ty.ext v ≤ x.ty.ext z
    | 3 => z = vs.foldl (· &&& ·) 0xFFFFFFFF
    | 4 => z = vs.foldl (· ||| ·) 0
    | _ => z = vs.foldl (· ^^^ ·) 0) ∧
  (∀ f, Writes (.scan f) always nothing
    (fun s x =>
      let r := scanFrom (redOp x.f.m.toNat x.ty (ftzOf s x)) (bit x.f.b.toNat 0) (redIdentity x.f.m.toNat x.ty) 0 (contributed x s x.f.m.toNat)
      putD x ((x.workers s).map (fun l => (l, (r.1[l]?).getD 0))))
    (fun s x l => if (x.workers s).contains l then
      (scanFrom (redOp x.f.m.toNat x.ty (ftzOf s x)) (bit x.f.b.toNat 0) (redIdentity x.f.m.toNat x.ty) 0 (contributed x s x.f.m.toNat)).2
      else 0)) ∧
  (∀ (op : Nat → Nat → Nat × Flags) (acc : Nat) (vs : List Nat) (l : Nat), l < vs.length →
    let upTo (n : Nat) : Nat := (vs.take n).foldl (fun a v => (op a v).1) acc
    (scanFrom op true acc 0 vs).1[l]? = some (upTo l) ∧ (scanFrom op false acc 0 vs).1[l]? = some (upTo (l + 1))) ∧
  (∀ f, ∃ w : State → Env → Nat,
    Gives (.redx f) (fun s x _ =>
      let v := (contributed x s (if x.f.m.toNat = 1 then 2 else 1)).getD (w s x) 0
      (if x.ty = .f32 ∧ (unpack .f32 v).isNan = true then Fmt.f32.qnan else v) +
        2 ^ 32 * (if (x.workers s).contains (w s x) then opC s x (w s x) % 2 ^ 32 else 0xFFFFFFFF)) ∧
    ∀ s x, w s x < 32 ∧ ∀ l, l < 32 →
      let vs := contributed x s (if x.f.m.toNat = 1 then 2 else 1)
      let larger := x.f.m.toNat == 1
      (w s x < l → redxBeats larger x.ty (vs.getD (w s x) 0) (vs.getD l 0) = false) ∧
      (l < w s x → redxBeats larger x.ty (vs.getD l 0) (vs.getD (w s x) 0) = true))

/-! ## Control -/

/-- R182 to R184: the active lanes of a branch go to its target, the rest of its path to the next instruction; a target that is
not a multiple of 4 traps MISALIGN at the instruction. R92, R182, R184, R185, R253: a call of thread code pushes the next PC in
each active lane and goes to its target, a return of thread or scribe code pops it, and a lane that cannot push or has nothing
to pop traps STACKOVF, one that pops a PC that is not a multiple of 4 MISALIGN. -/
def Obligations.BranchesCallsAndReturns : Prop :=
  (let some_ (t : Env → State → Nat → Dword) (s : State) (x : Env) (l : Nat) : Dword :=
     if x.act.getLsbD l then t x s l else onward s x l
   let ahead (w : Nat) (o : BitVec w) (x : Env) : Dword := x.pc + (o.signExtend 64 <<< 2)
   let target (x : Env) (s : State) (l : Nat) : Dword := BitVec.ofNat 64 (opA s x l)
   let bad (s : State) (x : Env) : Mask := maskOf (fun l => x.act.getLsbD l && decide (opA s x l % 4 ≠ 0))
   (∀ f, Does (.bra f) always nothing (some_ (fun x _ _ => ahead 35 f.off x))) ∧
   (∀ o, Does (.braC32 o) always nothing (some_ (fun x _ _ => ahead 24 o x))) ∧
   (∀ f, Does (.brm f) always nothing (some_ (fun x _ l =>
     let entry (i : Nat) : Code := match i with
       | 0 => f.d | 1 => f.a | 2 => f.b | _ => f.c
     let off (i : Nat) : BitVec 16 := BitVec.ofNat 16 (extX f / 2 ^ (16 * i))
     let takes (i : Nat) : Bool := (entry i).getLsbD 5 && (x.regs.pGet ((entry i).toNat % 16) l != (entry i).getLsbD 4)
     if takes 0 then ahead 16 (off 0) x else if takes 1 then ahead 16 (off 1) x else if takes 2 then ahead 16 (off 2) x
     else if takes 3 then ahead 16 (off 3) x else x.pc + 16))) ∧
   (∀ f, Does (.jmpi f) (fun s x => bad s x = 0) nothing (some_ target)) ∧
   (∀ f, Traps (.jmpi f) (fun s x => bad s x ≠ 0) cMISALIGN bad) ∧
   (∀ f, Traps (.calli f) (fun s x => bad s x ≠ 0) cMISALIGN bad)) ∧
  (let next (x : Env) : Dword := x.pc + BitVec.ofNat 64 x.len
   let some_ (t : Env → State → Nat → Dword) (s : State) (x : Env) (l : Nat) : Dword :=
     if x.act.getLsbD l then t x s l else onward s x l
   let full (s : State) (x : Env) : Mask := match x.agent with
     | .stroke k => maskOf (fun l => x.act.getLsbD l && decide (8 ≤ (laneOf s k l).ret.length) &&
         decide ((x.group s).stack / 8 ≤ (laneOf s k l).spilled))
     | .ctx g => if 8 ≤ ((s.ctx? g).elim [] (·.ret)).length then x.act else 0
   let push (s : State) (x : Env) : State := match x.agent with
     | .stroke k =>
       let gr := x.group s
       x.lanes.foldl (fun s l => pushRet s k gr l (next x)) s
     | .ctx g => s.modCtx g (fun c => { c with ret := next x :: c.ret })
   let top (s : State) (x : Env) (l : Nat) : Option Dword := match x.agent with
     | .stroke k => popAddr s k (x.group s) l
     | .ctx g => ((s.ctx? g).elim [] (·.ret)).head?
   let pop (s : State) (x : Env) : State := match x.agent with
     | .stroke k => s.modStroke k (fun st => st.modLanes x.act (fun _ y => y.popped))
     | .ctx g => s.modCtx g (fun c => { c with ret := c.ret.tail })
   let empty (s : State) (x : Env) : Mask := maskOf (fun l => x.act.getLsbD l && (top s x l).isNone)
   let target (x : Env) (s : State) (l : Nat) : Dword := BitVec.ofNat 64 (opA s x l)
   let aligned (s : State) (x : Env) : Prop := ∀ l ∈ x.lanes, opA s x l % 4 = 0
   let good (s : State) (x : Env) : Prop := ∀ l ∈ x.lanes, ∃ a, top s x l = some a ∧ a.toNat % 4 = 0
   (∀ f, Does (.call f) (fun s x => full s x = 0) push (some_ (fun x _ _ => x.pc + (f.off.signExtend 64 <<< 2)))) ∧
   (∀ f, Does (.calli f) (fun s x => full s x = 0 ∧ aligned s x) push (some_ target)) ∧
   (∀ f, Traps (.call f) (fun s x => full s x ≠ 0) cSTACKOVF full) ∧
   (∀ f, Does (.ret f) good pop (some_ (fun x s l => (top s x l).getD 0))) ∧
   (∀ f, Does (.retC32 f) good pop (some_ (fun x s l => (top s x l).getD 0))) ∧
   let astray (s : State) (x : Env) : Mask := maskOf (fun l => x.act.getLsbD l && (top s x l).any (fun a => a.toNat % 4 != 0))
   (∀ f, Traps (.ret f) (fun s x => empty s x ≠ 0) cSTACKOVF empty) ∧
   (∀ f, Traps (.retC32 f) (fun s x => empty s x ≠ 0) cSTACKOVF empty) ∧
   (∀ f, Traps (.ret f) (fun s x => empty s x = 0 ∧ astray s x ≠ 0) cMISALIGN astray) ∧
   (∀ f, Traps (.retC32 f) (fun s x => empty s x = 0 ∧ astray s x ≠ 0) cMISALIGN astray) ∧
   (∀ f, Traps (.calli f) (fun s x => full s x ≠ 0 ∧ aligned s x) cSTACKOVF full) ∧
   (∀ (s : State) (k l : Nat) (st : Stroke) (x : Lane) (pc : Dword), s.stroke? k = some st → st.lanes[l]? = some x → l < 32 → x.ret.length ≤ 8 →
     ∀ gr, popAddr (pushRet s k gr l pc) k gr l = some pc))

/-- R186, R107, R240: EXIT ends the active lanes and no other: they are no longer live, and the stroke keeps its registers while
a lane is left; the instruction completes even where its stroke or its group is gone with it. R107, R187: every lane of the path
reaches a FUSE and the active ones wait at it, each until every live lane of its own mask has reached it; those that have no more to wait
for are released together. That a lane counts only the lanes that have come since it last went past is the model's reading (log 30). -/
def Obligations.ExitAndFuse : Prop :=
  (let gone (s : State) (x : Env) : Effect := match x.agent with
     | .stroke k => { st := exitLanes s k x.act }
     | .ctx g => { st := barSweep (s.modCtx g (fun c => { c with exited := true })) g }
   (∀ f, Commits (.exit f) always gone) ∧ (∀ f, Commits (.exitC32 f) always gone) ∧
   (∀ (s : State) (k : Nat) (m : Mask) (a : Stroke), s.stroke? k = some a → liveMask a &&& ~~~ m ≠ 0 →
     ∃ b, (exitLanes s k m).stroke? k = some b ∧ liveMask b = liveMask a &&& ~~~ m ∧ b.regs = a.regs ∧ b.fifo = a.fifo ∧
       b.inflight = a.inflight ∧ b.retired = a.retired)) ∧
  (let fuse (s : State) (x : Env) : State :=
     let m : Mask := BitVec.ofNat 32 (opC s x ((lowest x.act).getD 0))
     s.modStroke x.key (fun st => fuseCheck
       { st with
         fuses := mapPut st.fuses x.pc.toNat ((List.range 32).map (fun l =>
           if x.path.getLsbD l && !x.act.getLsbD l then 0 else fuseSeen st x.pc l ||| x.path))
         lanes := st.lanes.mapIdx (fun l y => if x.act.getLsbD l then { y with wait := .fuse x.pc m } else y) } x.pc)
   (∀ f, Does (.fuse f) always fuse) ∧ (∀ f, Does (.fuseC32 f) always fuse) ∧
   (∀ f s q l, issued s (.fuseC32 f) = some q → opC q.t q.y l = 0xFFFFFFFF) ∧
   (∀ (st : Stroke) (pc : Dword), st.lanes.length = 32 →
     let done (l : Nat) : Prop := ∃ y m, st.lanes[l]? = some y ∧ y.wait = .fuse pc m ∧
       ∀ j, m.getLsbD j = true → (liveMask st).getLsbD j = true → (fuseSeen st pc l).getLsbD j = true
     let st' := fuseCheck st pc
     st' = { st with lanes := st'.lanes, fuses := st'.fuses } ∧ ∀ (l : Nat) (y : Lane), st.lanes[l]? = some y →
       (done l → st'.lanes[l]? = some { y with wait := .none } ∧ fuseSeen st' pc l = 0) ∧
       (¬ done l → st'.lanes[l]? = some y ∧ fuseSeen st' pc l = fuseSeen st pc l)))

/-- R188: NOP has no effect, and YIELD moves its stroke to the end of the pending set, where it counts as ready (R97). -/
def Obligations.NopOnlyMovesOnAndYieldLeavesTheActiveSet : Prop :=
  let yields (s : State) (x : Env) : State := (s.modStroke x.key (fun st => { st with yielded := true })).modCore (coreOf (groupOf x.key)) (fun c => { c with
    active := c.active.mapIdx (fun n l => if n = x.key % 4 then l.filter (· ≠ x.key) else l)
    pending := c.pending.mapIdx (fun n l => if n = x.key % 4 then l.filter (· ≠ x.key) ++ [x.key] else l) })
  (∀ f, Does (.nop f) always nothing) ∧ (∀ f, Does (.nopC32 f) always nothing) ∧ (∀ f, Does (.yield f) always yields) ∧
  (∀ f x, checkInstr x (.nop f) = none → f.d = 0 ∧ f.a = 0 ∧ f.b = 0 ∧ f.c = 0 ∧ f.t = 0 ∧ f.m = 0) ∧
  (∀ f x, checkInstr x (.yield f) = none → f.d = 0 ∧ f.a = 0 ∧ f.b = 0 ∧ f.c = 0 ∧ f.t = 0 ∧ f.m = 0) ∧
  (∀ x rest, decode x ([0, 0, 0, 0] ++ rest) = .ok (.nopC32 { d := 0, a := 0, b := 0 }, 4)) ∧
  (∀ f, instrOf 0x58 f = some (.nop f) ∧ instrOf 0x5E f = some (.yield f))

/-- R240, R342: a BAR is a release: the stroke's stores are performed, and while a write of it to another core is on its way the stroke
waits (at issue: the model's choice, log 25); then its active lanes arrive, an early second arrival waiting. The phase ends exactly when every live lane that is no
helper, and for barriers 8 to 15 the context, has arrived or exited, and somebody has arrived or waits; then no lane waits for it
any more, and a lane that waits for it while every participant has arrived or exited is released at once. -/
def Obligations.BarriersEndWhenAllHaveArrived : Prop :=
  let arrives (s : State) (x : Env) : State :=
    let b := x.f.c.toNat % 16
    let s := x.released s
    let bar := mapGet (x.group s).bars b {}
    match x.agent with
    | .stroke k =>
      let before := mapGet bar.arrived (k % 32) 0
      let work := workLanes s x
      let s := s.modGroup x.grp (fun gr => { gr with
        bars := mapPut gr.bars b { bar with arrived := mapPut bar.arrived (k % 32) (before ||| work) } })
      barCheck (s.modStroke k (fun st => st.modLanes x.act (fun l y =>
        if work.getLsbD l && before.getLsbD l then { y with wait := .barEarly b (x.f.m.getLsbD 0) }
        else if x.f.m.getLsbD 0 then y else { y with wait := .bar b bar.phase }))) x.grp b
    | .ctx g =>
      let s := s.modGroup x.grp (fun gr => { gr with bars := mapPut gr.bars b { bar with ctx := true } })
      barCheck (s.modCtx g (fun c => { c with barWait := some (b, bar.phase) })) x.grp b
  (∀ f, Does (.bar f) (fun s x => ¬ releaseOut false s x) arrives) ∧
  (∀ f, ParksIn (.bar f) (releaseOut false) (fun s x => x.released s) (fun _ _ => .fence false)) ∧
  (∀ (s : State) (g b : Nat) (gr : Group), s.group? g = some gr →
    let x := mapGet gr.bars b {}
    let missing : Prop := (∃ k ∈ strokesOf s g, ∃ st, s.stroke? k = some st ∧
        ∃ l, (workMask st).getLsbD l = true ∧ (mapGet x.arrived (k % 32) 0).getLsbD l = false) ∨
      (8 ≤ b ∧ x.ctx = false ∧ ∃ c, s.ctx? g = some c ∧ c.exited = false)
    (barFull s g b x = true ↔ ¬ missing) ∧ (missing → barCheck s g b = s) ∧
    (¬ missing → ∀ k ∈ strokesOf s g, ∀ st, s.stroke? k = some st → ∀ y ∈ st.lanes, y.wait = .bar b x.phase →
      ∀ st', (barCheck s g b).stroke? k = some st' → ∀ y ∈ st'.lanes, y.wait ≠ .bar b x.phase)) ∧
  (∀ (s : State) (g b : Nat) (gr : Group) (k : Nat), s.group? g = some gr → k ∈ strokesOf s g →
    let x := mapGet gr.bars b {}
    let t := barComplete s g b x
    (∀ st, t.stroke? k = some st → ∀ y ∈ st.lanes, y.wait ≠ .bar b x.phase) ∧
      ∃ gr', t.group? g = some gr' ∧ (mapGet gr'.bars b {}).phase = x.phase + 1 ∧ (mapGet gr'.bars b {}).ctx = false)

/-- R108, R241: BTAKE completes once the group holds the baton and parks until then, BGIVE gives it to the first requesting slot
after it, and BGIVE without it traps BATON. R242, R268: CUE adds the sum of the participants' amounts to a counter in one step
(waiting at issue for the accesses before it is the model's choice, log 25), and WCUE takes its amount from the counter or waits for it. R243, R227, R338: WAITM reads its word, as its stroke sees it, its own
operations at the word's unit performed first, and goes on if the condition holds; else its stroke parks, and so it does on an
absent line. -/
def Obligations.BatonCuesAndMemoryWaits : Prop :=
  (let holds (s : State) (x : Env) : Prop := (s.core x.core).baton = some (slotOf x.grp)
   let asks (s : State) (x : Env) : State :=
     batonGrant (s.modCore x.core (fun c => { c with request := c.request ||| BitVec.ofNat 8 (2 ^ slotOf x.grp) })) x.core
   (∀ f, Does (.btake f) holds nothing) ∧
   (∀ f, Does (.btake f) (fun s x => ¬ holds s x ∧ holds (asks s x) x) asks) ∧
   (∀ f, ParksIn (.btake f) (fun s x => ¬ holds s x ∧ ¬ holds (asks s x) x) asks (fun _ x => .baton x.path x.len)) ∧
   (∀ f, Does (.bgive f) holds (fun s x => batonGrant (s.modCore x.core (fun c => { c with baton := none })) x.core)) ∧
   (∀ f, Traps (.bgive f) (fun s x => ¬ holds s x) cBATON (fun _ x => x.act)) ∧
   (∀ (s : State) (c i : Nat), (s.core c).baton = none → i < 8 → (s.core c).rotation < 8 →
     (s.core c).request.getLsbD (((s.core c).rotation + i) % 8) = true →
     (∀ j, j < i → (s.core c).request.getLsbD (((s.core c).rotation + j) % 8) = false) →
     let slot := ((s.core c).rotation + i) % 8
     let k := (batonGrant s c).core c
     k.baton = some slot ∧ k.rotation = (slot + 1) % 8 ∧
       ∀ j, j < 8 → k.request.getLsbD j = ((s.core c).request.getLsbD j && decide (j ≠ slot))) ∧
   (∀ (s : State) (c : Nat), (s.core c).baton.isSome = true ∨ (s.core c).request = 0 → batonGrant s c = s)) ∧
  (let amounts (s : State) (x : Env) : Nat := ((x.workers s).map (fun l => opC s x l % 2 ^ 32)).sum
   let adds (s : State) (x : Env) : State :=
     if x.workers s = [] then s
     else (x.released s).modGroup x.grp (fun gr =>
       let i := x.f.b.toNat / 2 % 16
       { gr with cues := mapPut gr.cues i (BitVec.ofNat 32 (min 0xFFFFFFFF ((mapGet gr.cues i 0).toNat + amounts s x))) })
   let there (s : State) (x : Env) : Nat := (mapGet (x.group s).cues (x.f.b.toNat / 2 % 16) 0).toNat
   let need (s : State) (x : Env) : Nat := opC s x 0 % 2 ^ 32
   (∀ f, Does (.cue f) (fun s x => x.workers s = [] ∨ ¬ releaseOut false s x) adds) ∧
   (∀ f, ParksIn (.cue f) (fun s x => x.workers s ≠ [] ∧ releaseOut false s x) (fun s x => x.released s) (fun _ _ => .fence false)) ∧
   (∀ f, Does (.wcue f) (fun s x => need s x ≤ there s x) (fun s x =>
     (s.modGroup x.grp (fun gr => { gr with cues := mapPut gr.cues (x.f.b.toNat / 2 % 16) (BitVec.ofNat 32 (there s x - need s x)) })).modCtx
       x.key (fun c => { c with cueWait := none }))) ∧
   (∀ f, ParksIn (.wcue f) (fun s x => there s x < need s x)
     (fun s x => s.modCtx x.key (fun c => { c with cueWait := some (x.f.b.toNat / 2 % 16, need s x) })) (fun _ _ => .cue))) ∧
  (let base (s : State) (x : Env) : Nat := opA s x ((lowest x.act).getD 0)
   let want (x : Env) : Want := { space := spaceOf x.f, spaces := [.U, .C, .D, .G], size := x.ty.size, align := x.ty.size, acc := .load }
   let reach (la : Landing) (s : State) (x : Env) : Prop :=
     checkAll s (x.who s) (want x) [((lowest x.act).getD 0, base s x)] = .ok [((lowest x.act).getD 0, la)]
   let here (la : Landing) (s : State) (x : Env) : Prop := absentLines s la.loc x.ty.size = []
   let sees (la : Landing) (s : State) (x : Env) : State × List FifoEntry := settle s x [(la.loc, x.ty.size)]
   let clean (la : Landing) (s : State) (x : Env) : Prop := (sees la s x).1.mem.anyPoison la.loc x.ty.size = false
   let cond (la : Landing) (s : State) (x : Env) : Prop :=
     let m := x.ty.ext (bytesNat (loadBytes (sees la s x).1 (sees la s x).2 la.loc x.ty.size))
     let c := x.ty.ext (opC s x ((lowest x.act).getD 0))
     match x.f.m.toNat with
     | 0 => m = c
     | 1 => m ≠ c
     | 2 => m < c
     | 3 => m ≤ c
     | 4 => m > c
     | _ => m ≥ c
   (∀ f la, Does (.waitm f) (fun s x => reach la s x ∧ here la s x ∧ clean la s x ∧ cond la s x)
     (fun s x => (sees la s x).1)) ∧
   (∀ f la, ParksIn (.waitm f) (fun s x => reach la s x ∧ here la s x ∧ clean la s x ∧ ¬ cond la s x) (fun s x => (sees la s x).1)
     (fun s x => .waitm la.loc (8 * x.ty.size) x.ty.signed (Cond.ofCode x.f.m.toNat) (BitVec.ofNat 64 (opC s x ((lowest x.act).getD 0)))
       x.path x.len)) ∧
   (∀ f la, Parks (.waitm f) (fun s x => reach la s x ∧ ¬ here la s x) (fun s x => .presence x.core (absentLines s la.loc x.ty.size))) ∧
   (∀ f la, Traps (.waitm f) (fun s x => reach la s x ∧ here la s x ∧ ¬ clean la s x) cPOISON (fun _ x => x.act)))

/-! ## Memory -/

/-- R213, R217, R195: the address of a lane, and the first checks: a misaligned lane traps MISALIGN before anything else is
looked at, a space that is not accepted traps SPACE, and an address beyond the group's scratchpad traps PROT. -/
def Obligations.AddressesAreFormedAndChecked : Prop :=
  let off (f : Fields) : Int := match f.ext with
    | .lit w => w.toInt
    | _ => f.c.toInt
  let mis (ls : List Nat) (n : Nat) (s : State) (x : Env) : Mask := maskOf (fun l => ls.contains l && decide (eaOf s x l % n ≠ 0))
  (∀ (s : State) (x : Env) (l : Nat), (eaOf s x l : Int) =
    ((opA s x l : Int) + off x.f) % 2 ^ (if spaceOf x.f = .U ∨ spaceOf x.f = .P ∨ spaceOf x.f = .C then 32 else 64)) ∧
  (∀ f, Traps (.ld f) (fun s x => mis x.lanes x.ty.size s x ≠ 0) cMISALIGN (fun s x => mis x.lanes x.ty.size s x)) ∧
  (∀ f, Traps (.st f) (fun s x => mis (x.workers s) x.ty.size s x ≠ 0) cMISALIGN (fun s x => mis (x.workers s) x.ty.size s x)) ∧
  (∀ f, Traps (.fxadd f) (fun s x => mis (x.workers s) 64 s x ≠ 0) cMISALIGN (fun s x => mis (x.workers s) 64 s x)) ∧
  (∀ f, Traps (.fxadd f) (fun s x => x.workers s ≠ [] ∧ mis (x.workers s) 64 s x = 0 ∧ spaceOf x.f ∉ [Space.C, .D, .G]) cSPACE
    (fun s x => workLanes s x)) ∧
  (∀ (s : State) (w : Who) (q : Want) (a : Nat) (gr : Group), q.space = .U → .U ∈ q.spaces → q.align ≠ 0 → a % q.align = 0 → q.share = false →
    s.group? w.grp = some gr →
    land s w q a =
      if gr.units * 256 < a + q.size then .error ⟨4, cPROT, a, q.acc⟩
      else
        let b := uBase (coreOf w.grp) + gr.ubase + a
        .ok { loc := { home := .u, addr := b }, range := { home := .u, part := w.part, lo := b, hi := b + q.size } })

/-- R222, R224, R228, R250, R172: loads. Once every access of the active lanes is allowed and no scratchpad line is absent, the result
of each lane is what its address holds as the stroke sees it, widened; an LD into an s register accesses for its lowest active lane
alone; on an absent line the stroke parks. R227: what the stroke sees has its own operations at a unit on the same bytes
performed. -/
def Obligations.LoadsGiveWhatTheStrokeSees : Prop :=
  let at_ (n : Nat) (ls : List Nat) (s : State) (x : Env) : List Access := ls.map (fun l => (l, eaOf s x l, n))
  let sees (n : Nat) (ls : List (Access × Landing)) (s : State) (x : Env) : State × List FifoEntry :=
    settle s x (ls.map (fun a => (a.2.loc, n)))
  let got (n : Nat) (g : State → Env → Nat → Nat) (tag : BitVec 2) (ls : List (Access × Landing)) (s : State) (x : Env) : Effect :=
    let r := sees n ls s x
    later x r.1 (putLoaded x tag (ls.map (fun a =>
      (a.1.1, g s x (bytesNat (loadBytes r.1 r.2 a.2.loc n)), r.1.mem.anyPoison a.2.loc n))))
  let ld (ls : List (Access × Landing)) (s : State) (x : Env) : Prop :=
    checkEach s x (x.want [.U, .P, .C, .D, .G, .H] x.ty.size .load x.ty.share) noBad (at_ x.ty.size x.lanes s x) = .ok ls
  let mine (ls : List (Access × Landing)) (x : Env) : List (Access × Landing) :=
    if (Opnd.ofCode x.f.d).kind = .s then ls.take 1 else ls
  (∀ f ls, Commits (.ld f) (fun s x => ld ls s x ∧ absentOf s (mine ls x) = [])
    (fun s x => got x.ty.size (fun _ x v => if x.ty.size < 4 then x.ty.widen v else v) x.ty.tag (mine ls x) s x)) ∧
  (∀ f ls, Parks (.ld f) (fun s x => ld ls s x ∧ absentOf s (mine ls x) ≠ []) (fun s x =>
    .presence (coreOfLine ((absentOf s (mine ls x)).headD 0)) (absentOf s (mine ls x)))) ∧
  (∀ f ls, Commits (.fxrd f) (fun s x =>
      checkEach s x (x.want [.C, .D, .G] 64 .load) noBad (at_ 64 x.lanes s x) = .ok ls)
    (got 64 (fun s x v => wideRead (x.group s).nbv v) 0 ls)) ∧
  (∀ f ls, Commits (.tagget f) (fun s x => (∀ l ∈ x.lanes, eaOf s x l % 32 = 0) ∧
      checkEach s x { x.want [.U, .C, .D, .G] 4 .load with align := 0 } noBad (x.lanes.map (fun l => (l, eaOf s x l + 20, 4))) = .ok ls ∧
      absentOf s ls = [])
    (got 4 (fun _ _ v => v) 0 ls)) ∧
  (∀ f ls, Commits (.vsw f) (fun s x => x.f.m.getLsbD 0 = false ∧
      checkEach s x (x.want [.U, .C, .D, .G] x.ty.size .load) noBad ((sweep s x x.lanes).map (·.2)) = .ok ls ∧ absentOf s ls = [])
    (fun s x =>
      let r := sees x.ty.size ls s x
      later x r.1 ((((sweep s x x.lanes).map (·.1)).zip ls).flatMap (fun e =>
        putV ((Opnd.ofCode x.f.d).index + e.1) e.2.1.1
          (memWiden x.ty (bytesNat (loadBytes r.1 r.2 e.2.2.loc x.ty.size))) 0 (r.1.mem.anyPoison e.2.2.loc x.ty.size) 1)))) ∧
  (∀ (s : State) (x : Env) (ls : List (Loc × Nat)),
    let meets : Prop := ∃ e ∈ x.fifo, ∃ u k, e.unitAt = some (u, k) ∧ ∃ l ∈ ls, u.home = l.1.home ∧ u.addr < l.1.addr + l.2 ∧ l.1.addr < u.addr + k
    (meets → settle s x ls = (x.drained s, x.was.veil)) ∧ (¬ meets → settle s x ls = (s, x.fifo ++ x.was.veil))) ∧
  (∀ (s : State) (fifo : List FifoEntry) (l : Loc) (n i : Nat), i < n →
    let a := l.addr + i
    let pieces (e : FifoEntry) : List (Home × Nat × List Byte) := match e with
      | .store m bs => [(m.home, m.addr, bs)]
      | .remote _ ps _ _ => ps.map (fun p => (.u, p))
      | _ => []
    let stores := (fifo.flatMap pieces).filterMap (fun p => if p.1 = l.home ∧ p.2.1 ≤ a then p.2.2[a - p.2.1]? else none)
    (loadBytes s fifo l n)[i]? = some ((stores.getLast?).getD (readByte s (l.plus i))))

/-- R172, R223, R228, R251: stores. The stores of the lanes that are not helper lanes enter the store FIFO in lane order, VSW's
in register order first, and the instruction completes; a share-tagged register goes to no page but a share page. R220: a releasing
one waits first for what its scope includes and the FIFO does not hold (at issue: the model's choice, log 25). -/
def Obligations.StoresEnterTheFifoInLaneOrder : Prop :=
  let at_ (n : Nat) (s : State) (x : Env) : List Access := (x.workers s).map (fun l => (l, eaOf s x l, n))
  let puts (es : State → Env → List FifoEntry) (s : State) (x : Env) : State := match x.agent with
    | .stroke k => s.modStroke k (fun st => { st with fifo := fifoOf s x.agent ++ es s x })
    | .ctx g => s.modCtx g (fun c => { c with fifo := fifoOf s x.agent ++ es s x })
  let st (ls : List (Access × Landing)) (s : State) (x : Env) : Prop :=
    checkEach s x (x.want [.U, .P, .C, .D, .G, .H] x.ty.size .store x.ty.share) (taggedData x) (at_ x.ty.size s x) = .ok ls
  let fxclr (ls : List (Access × Landing)) (s : State) (x : Env) : Prop :=
    checkEach s x (x.want [.C, .D, .G] 64 .store) noBad (at_ 64 s x) = .ok ls
  (∀ f ls, Does (.st f) (fun s x => st ls s x ∧ ¬ writeWaits s x)
    (puts (fun s x => ls.map (fun a => .store a.2.loc (natBytes x.ty.size (opD s x a.1.1)))))) ∧
  (∀ f ls, Does (.fxclr f) (fun s x => fxclr ls s x ∧ ¬ writeWaits s x) (puts (fun _ _ => ls.map (fun a => .fxclr a.2.loc)))) ∧
  (∀ f ls, ParksIn (.st f) (fun s x => st ls s x ∧ writeWaits s x) (fun s x => x.released s)
    (fun _ x => .fence (decide (x.f.b.toNat / 8 % 8 = 5)))) ∧
  (∀ f ls, ParksIn (.fxclr f) (fun s x => fxclr ls s x ∧ writeWaits s x) (fun s x => x.released s)
    (fun _ x => .fence (decide (x.f.b.toNat / 8 % 8 = 5)))) ∧
  let tagset (ls : List (Access × Landing)) (s : State) (x : Env) : Prop :=
    tagPlaces x s (x.workers s) .store = .ok ls ∧ ∀ l ∈ x.workers s, tagOk (opD s x l % 2 ^ 16) = true
  (∀ f ls, ParksIn (.tagset f) (fun s x => tagset ls s x ∧ writeWaits s x) (fun s x => x.released s)
    (fun _ x => .fence (decide (x.f.b.toNat / 8 % 8 = 5)))) ∧
  (∀ f ls, Does (.tagset f) (fun s x => tagset ls s x ∧ ¬ writeWaits s x)
    (puts (fun s x => ls.map (fun a => .retag a.2.loc (some (BitVec.ofNat 16 (opD s x a.1.1))))))) ∧
  (∀ f ls, Traps (.tagset f) (fun s x => tagPlaces x s (x.workers s) .store = .ok ls ∧ ∃ l ∈ x.workers s, tagOk (opD s x l % 2 ^ 16) = false)
    cTAGMISMATCH (fun s x => maskOf (fun l => (x.workers s).contains l && !tagOk (opD s x l % 2 ^ 16)))) ∧
  (∀ f ls, Commits (.vsw f) (fun s x => x.f.m.getLsbD 0 = true ∧
      checkEach s x (x.want [.U, .C, .D, .G] x.ty.size .store) noBad ((sweep s x (x.workers s)).map (·.2)) = .ok ls)
    (fun s x => { st := puts (fun s x => (((sweep s x (x.workers s)).map (·.1)).zip ls).map (fun e =>
      .store e.2.2.loc (natBytes x.ty.size (x.vWord s ((Opnd.ofCode x.f.d).index + e.1) e.2.1.1).toNat))) s x })) ∧
  (∀ (s : State) (x : Env) (ls : List Nat),
    let e := extX x.f
    let n := e % 64
    (sweep s x ls).length = n * ls.length ∧ ∀ i j l, i < n → ls[j]? = some l →
      (sweep s x ls)[i * ls.length + j]? = some (i, l, addrPlus (spaceOf x.f) (opA s x l)
        (x.f.c.toInt + i * (BitVec.ofNat 24 (e / 2 ^ 8)).toInt + l * (BitVec.ofNat 16 (e / 2 ^ 32)).toInt), x.ty.size))

/-- R223, R227, R228, R232, R251: the oldest entry of a store FIFO is performed at its place, and memory changes there alone. R201, R338: a write
to another core goes out, and its entry stays until it has landed (that it blocks its FIFO is the model's reading, log 30). -/
def Obligations.StoreDrainPerformsTheOldestEntry : Prop :=
  let raw (s : State) (l : Loc) (n : Nat) : Nat := bytesNat ((List.range n).map (fun i => memByte (s.mem.home l.home) (l.addr + i)))
  let only (s t : State) (l : Loc) (n : Nat) : Prop := ∀ k b, ¬ (k = l.home ∧ l.addr ≤ b ∧ b < l.addr + n) →
    memByte (t.mem.home k) b = memByte (s.mem.home k) b
  let change (a : AgentId) (e : FifoEntry) (s t : State) : Prop := match e with
    | .store l bs => writable s l bs.length → only s t l bs.length ∧ ∀ i b, bs[i]? = some b → memByte (t.mem.home l.home) (l.addr + i) = b
    | .atom l w sg op x _ _ _ _ => w = 32 ∨ w = 64 → writable s l (w / 8) → x.toNat < 2 ^ w →
      let old := readNat s l (w / 8)
      only s t l (w / 8) ∧ raw t l (w / 8) = (match op with
        | .add => (old + x.toNat) % 2 ^ w
        | .min => if (if sg then decide (sext w old < sext w x.toNat) else decide (old < x.toNat)) then old else x.toNat
        | .max => if (if sg then decide (sext w old < sext w x.toNat) else decide (old < x.toNat)) then x.toNat else old
        | .and => old &&& x.toNat
        | .or => old ||| x.toNat
        | .xor => old ^^^ x.toNat
        | .exch => x.toNat)
    | .cas l w ex nw _ _ _ _ => w = 32 ∨ w = 64 → writable s l (w / 8) → nw.toNat < 2 ^ w →
      only s t l (w / 8) ∧ (readNat s l (w / 8) = ex.toNat → raw t l (w / 8) = nw.toNat) ∧
        (readNat s l (w / 8) ≠ ex.toNat → t.mem = s.mem)
    | .fxadd l a _ => writable s l 64 → only s t l 64 ∧ raw t l 64 = wideAdd (readNat s l 64) a.toNat % 2 ^ 512
    | .fxclr l => writable s l 64 → only s t l 64 ∧ raw t l 64 = 0
    | .retag l tag => writable s l 4 →
      let old := readNat s l 4
      only s t l 4 ∧ raw t l 4 / 2 ^ 16 = (old / 2 ^ 16 + 1) % 2 ^ 16 ∧
        (∀ v, tag = some v → raw t l 4 % 2 ^ 16 = v.toNat) ∧
        (tag = none → ∀ i, i < 16 → (raw t l 4).testBit i = (old.testBit i && !(decide (5 ≤ i) && decide (i ≤ 7))))
    | .remote core ps part sent => t.mem = s.mem ∧ (match sent, ps with
      | some n, _ => t = setFifo s a (.remote core ps part (some n) :: fifoOf s a)
      | none, [] => t = s
      | none, p :: more => ∃ w : RemoteWrite,
        t = setFifo { s with remote := s.remote ++ [w], nextId := s.nextId + 1 } a (.remote core ps part (some s.nextId) :: fifoOf s a) ∧
          w.id = s.nextId ∧ w.core = core ∧ w.addr = p.1 ∧ w.data = p.2 ∧ w.more = more ∧ w.part = part ∧ w.sender = some a)
    | .asyncDone op =>
      let f (m : Map Fut) : Map Fut := m.map (fun u => (u.1, if u.2 = .pending op then .done 0 else u.2))
      t.mem = s.mem ∧ t.strokes = s.strokes.map (fun e => (e.1, { e.2 with regs := { e.2.regs with f := f e.2.regs.f } }))
  (∀ a e q, Leads (.storeDrain a) (fun s => fifoOf s a = e :: q) (fun s =>
    let t := performEntry (setFifo s a q) a e
    match a with
    | .ctx _ => t
    | .stroke k => killFinish (retireStroke (match e with
      | .atom _ _ _ _ _ o _ _ _ | .cas _ _ _ _ o _ _ _ | .fxadd _ _ o => completeIfDone t k o
      | _ => t) k) k)) ∧
  (∀ s a e, change a e s (performEntry s a e)) ∧
  (∀ a, Leads (.storeDrain a) (fun s => fifoOf s a = []) id)

/-- R225 to R228, R81: an atomic of thread code puts one operation at its unit for each lane that is no helper into the FIFO,
all behind one operation in flight; the old value goes back to the lane, or for an s register that of the first lane; in scribe
code it is done at once. R220, R341: a releasing one waits first for the writes to other cores and devices that its scope includes;
while an acquiring one is in flight no lane of its stroke issues an access of memory. The model's readings are here the pair of a scribe CAS (log
16), the wait at issue (log 25), and that every worker lane's operation is made where D is an s register (log 17). -/
def Obligations.AtomicsGoToTheirUnits : Prop :=
  let at_ (n : Nat) (s : State) (x : Env) : List Access := (x.workers s).map (fun l => (l, addrPlus (spaceOf x.f) (opA s x l) 0, n))
  let checked (n : Nat) (ls : List (Access × Landing)) (s : State) (x : Env) : Prop :=
    checkEach s x (x.want [.U, .P, .C, .D, .G] n .atomic) noBad (at_ n s x) = .ok ls
  let flies (es : State → Env → List FifoEntry) (s : State) (x : Env) : Effect :=
    if es s x = [] then { st := s }
    else { later x (setFifo s x.agent (fifoOf s x.agent ++ es s x)) [] (es s x).length with
      acq := decide (x.f.b.toNat / 64 % 4 = 1) || decide (x.f.b.toNat / 64 % 4 = 3) }
  let fxadd (ls : List (Access × Landing)) (s : State) (x : Env) : Prop :=
    checkEach s x (x.want [.C, .D, .G] 64 .atomic) noBad ((x.workers s).map (fun l => (l, eaOf s x l, 64))) = .ok ls
  let old (s : State) (x : Env) (l : Nat) : Nat × Bool := match Opnd.ofCode x.f.d with
    | .s i => (if some l = (x.workers s).head? then i else 64, true)
    | o => (o.index, false)
  let atOnce (new : State → Env → Nat → Option Nat) (a : Access × Landing) (s : State) (x : Env) : Effect :=
    let n := x.ty.size
    let t := x.drained s
    let w := readNat t a.2.loc n
    { st := match new s x w with
        | some v => writeNat t a.2.loc n v
        | none => t
      writes := (putD x [(0, w)]).map (fun r => { r with poison := t.mem.anyPoison a.2.loc n }) }
  (∀ f ls, Commits (.atom f) (fun s x => x.scribe = false ∧ checked x.ty.size ls s x ∧ ¬ writeWaits s x) (flies (fun s x => ls.map (fun a =>
    .atom a.2.loc (8 * x.ty.size) x.ty.signed (AtomOp.ofCode x.f.m.toNat) (BitVec.ofNat 64 (opC s x a.1.1)) s.nextId a.1.1
      (old s x a.1.1).1 (old s x a.1.1).2)))) ∧
  (∀ f ls, Commits (.cas f) (fun s x => x.scribe = false ∧ checked x.ty.size ls s x ∧ ¬ writeWaits s x) (flies (fun s x => ls.map (fun a =>
    let w := 8 * x.ty.size
    .cas a.2.loc w (BitVec.ofNat 64 (opC s x a.1.1 % 2 ^ w)) (BitVec.ofNat 64 (opC s x a.1.1 / 2 ^ w % 2 ^ w)) s.nextId a.1.1
      (old s x a.1.1).1 (old s x a.1.1).2)))) ∧
  (∀ f a ls, Commits (.atom f) (fun s x => x.scribe = true ∧ checked x.ty.size (a :: ls) s x ∧ ¬ writeWaits s x)
    (atOnce (fun s x w => some (atomNew (AtomOp.ofCode x.f.m.toNat) (8 * x.ty.size) x.ty.signed w (opC s x 0))) a)) ∧
  (∀ f a ls, Commits (.cas f) (fun s x => x.scribe = true ∧ checked x.ty.size (a :: ls) s x ∧ ¬ writeWaits s x)
    (atOnce (fun s x w =>
      let n := 8 * x.ty.size
      if w = opC s x 0 % 2 ^ n then some (opC s x 0 / 2 ^ n % 2 ^ n) else none) a)) ∧
  (∀ f ls, Commits (.fxadd f) (fun s x => x.scribe = false ∧ fxadd ls s x ∧ ¬ writeWaits s x)
    (flies (fun s x => ls.map (fun a =>
      .fxadd a.2.loc (BitVec.ofNat 32 (if x.ty = .bf16 then opD s x a.1.1 % 2 ^ 16 * 2 ^ 16 else opD s x a.1.1 % 2 ^ 32)) s.nextId)))) ∧
  (∀ f ls, ParksIn (.atom f) (fun s x => checked x.ty.size ls s x ∧ writeWaits s x) (fun s x => x.released s)
    (fun _ x => .fence (decide (x.f.b.toNat / 8 % 8 = 5)))) ∧
  (∀ f ls, ParksIn (.cas f) (fun s x => checked x.ty.size ls s x ∧ writeWaits s x) (fun s x => x.released s)
    (fun _ x => .fence (decide (x.f.b.toNat / 8 % 8 = 5)))) ∧
  (∀ f ls, ParksIn (.fxadd f) (fun s x => fxadd ls s x ∧ writeWaits s x) (fun s x => x.released s)
    (fun _ x => .fence (decide (x.f.b.toNat / 8 % 8 = 5)))) ∧
  (∀ (s : State) (x : Env) (l : Nat), accesses x.opc = true → (∃ i ∈ x.was.st.inflight, i.acq = true) → laneHazard s x l ≠ none) ∧
  (∀ c, c < 7 → AtomOp.ofCode c = ([.add, .min, .max, .and, .or, .xor, .exch][c]?).getD .exch)

/-- R229, R348, R352: what each form of FENCE does: .sk holds the stroke's accesses until its operations at units are performed; .spw and every wider scope perform what stands in the FIFO and wait for
the agent's writes to other cores, at .sy for its stores to other devices as well, and .spw then empties the core's operand cache.
R200, R201, R234: PSET sets, PARM clears, and PTEST reads the presence bit of the line of each active lane's address; PARM sends each line's
arming notification. R238: SCLOSE adds 1 to the ring's CLOSE word once the stroke's FIFO has drained, its writes to other cores have
arrived and no push of its own stroke to the ring is under way; it waits for these, and traps STREAM on an unbound port and on a
ring that is closed or broken. That FENCE and the signalling forms wait at issue is the model's choice (log 25). -/
def Obligations.FencesPresenceAndClosing : Prop :=
  (let scope (x : Env) : Nat := x.f.b.toNat / 8 % 8
   let sy (x : Env) : Bool := decide (x.f.m ≠ 1 ∧ scope x = 5)
   let held (st : Stroke) : Stroke := { st with inflight := st.inflight.map (fun i => { i with
     acq := if i.waitFor ≠ 0 ∧ i.engine = false then true else i.acq }) }
   (∀ f, Does (.fence f) (fun _ x => x.f.m ≠ 1 ∧ scope x = 0) (fun s x => match x.agent with
     | .stroke k => s.modStroke k held
     | .ctx _ => s)) ∧
   (∀ f, Does (.fence f) (fun s x => x.f.m = 1 ∧ ¬ releaseOut false s x)
     (fun s x => (x.released s).modCore x.core (fun c => { c with opcache := [] }))) ∧
   (∀ f, Does (.fence f) (fun s x => x.f.m ≠ 1 ∧ scope x ≠ 0 ∧ ¬ releaseOut (sy x) s x) (fun s x => x.released s)) ∧
   (∀ f, ParksIn (.fence f) (fun s x => (x.f.m = 1 ∨ scope x ≠ 0) ∧ releaseOut (sy x) s x) (fun s x => x.released s)
     (fun _ x => .fence (sy x))) ∧
   (∀ (s : State) (x : Env) (l : Loc) (bs : List Byte) (q : List FifoEntry), fifoOf s x.agent = .store l bs :: q →
     x.released s = drainFifo (writeBytes (setFifo s x.agent q) l bs) x.agent) ∧
   (∀ (s : State) (x : Env) core ps part n q, fifoOf s x.agent = FifoEntry.remote core ps part (some n) :: q → x.released s = s) ∧
   (∀ (s : State) (a : AgentId) (sy : Bool), releaseWaits s a sy = true ↔
     (∃ core ps part sent, FifoEntry.remote core ps part sent ∈ fifoOf s a) ∨ (∃ r ∈ s.resv, a = .stroke r.stroke) ∨
     (sy = true ∧ ∃ fl ∈ s.link.out, (fl, a) ∈ s.link.sentBy))) ∧
  (let put (b : Bool) (ls : List (Nat × Nat)) (s : State) : State := ls.foldl (fun s l => s.setPresent l.2 b) s
   (∀ f ls, Does (.pset f) (fun s x => lineAccess x s .store = .ok ls) (fun s _ => put true ls s)) ∧
   (∀ f ls, Does (.parm f) (fun s x => lineAccess x s .store = .ok ls) (fun s _ =>
     { put false ls s with armings := (s.armings ++ ls.map (·.2)).eraseDups })) ∧
   (∀ f ls, Writes (.ptest f) (fun s x => lineAccess x s .load = .ok ls) nothing
     (fun s x => putD x (ls.map (fun l => (l.1, if s.present l.2 then 1 else 0))))) ∧
   (∀ (b : Bool) (ls : List (Nat × Nat)) (s : State) (i : Nat),
     (put b ls s).present i = (if i ∈ ls.map (·.2) then b else s.present i)) ∧
   (∀ s x acc ls, lineAccess x s acc = .ok ls → ls.map (·.1) = x.lanes ∧ ∀ e ∈ ls, ∃ gr, s.group? x.grp = some gr ∧
     eaOf s x e.1 < gr.units * 256 ∧ e.2 = (uBase (coreOf x.grp) + gr.ubase + eaOf s x e.1) / 128)) ∧
  (let port (x : Env) : Nat := 2 + x.f.c.toNat % 2
   let at_ (b : Binding) (r : Loc) (s : State) (x : Env) : Prop := bindingOf (x.group s) (port x) = some b ∧ ringLoc s x.grp b 0 = some r ∧
     (ringView s x.grp b).broken = false ∧ (ringView s x.grp b).closed = false
   let pushing (r : Loc) (s : State) (x : Env) : Prop := ∃ q ∈ s.resv, q.ring = r ∧ q.stroke = x.key
   (∀ f b r, Does (.sclose f) (fun s x => at_ b r s x ∧ ¬ pushing r s x ∧ ¬ releaseOut false s x) (fun s x =>
     let t := x.released s
     ringPut t x.grp b 8 ((ringWord t x.grp b 8 + 1) % 2 ^ 32))) ∧
   (∀ f b r, Parks (.sclose f) (fun s x => at_ b r s x ∧ pushing r s x) (fun _ x => .closing (252 + port x))) ∧
   (∀ f b r, ParksIn (.sclose f) (fun s x => at_ b r s x ∧ ¬ pushing r s x ∧ releaseOut false s x) (fun s x => x.released s)
     (fun _ _ => .fence false)) ∧
   (∀ f, Traps (.sclose f) (fun s x => bindingOf (x.group s) (port x) = none) cSTREAM (fun _ x => x.act)) ∧
   (∀ f b, Traps (.sclose f) (fun s x => bindingOf (x.group s) (port x) = some b ∧
     ((ringView s x.grp b).broken = true ∨ (ringView s x.grp b).closed = true)) cSTREAM (fun _ x => x.act)))

/-! ## Futures and work -/

/-- R230 to R233: LDT and STT. After the record, read as one unit, and the checks, each lane's words of the tile are loaded or
stored; elements outside the tile are zero and never accessed; STT's FIFO entries end with the update of the record's tag; an
asynchronous form has a future. R106: with helper lanes alone an STT does nothing (the model's reading, log 17); R220: a releasing one waits as a store does, at issue (log 25). -/
def Obligations.TileRowsAreLoadedAndStored : Prop :=
  let row (x : Env) : Nat := (x.regs.sGet (x.f.c.toNat % 64)).toNat
  let col (x : Env) : Nat := (x.regs.sGet (x.f.c.toNat % 64 + 1)).toNat
  let as_ (x : Env) : Bool := x.f.m.getLsbD 2
  let fut (s : State) (x : Env) : State :=
    if as_ x then s.modStroke x.key (fun st => { st with regs := st.regs.fSet (x.f.c.toNat / 64) (.pending s.nextId) }) else s
  let d (x : Env) : Nat := (Opnd.ofCode x.f.d).index
  let loadOk (u : State) (q : List FifoEntry) (la : Landing) (t : Tile) (ls : List (Access × Landing)) (s : State) (x : Env) : Prop :=
    tileRecord x s = .ok (u, q, la, t) ∧
    checkEach u x (x.wantTile .load) noBad (pieceAccess x (tilePieces x t false (row x) (col x) x.lanes)) = .ok ls ∧ absentOf u ls = []
  let storeOk (u : State) (q : List FifoEntry) (la : Landing) (t : Tile) (ls : List (Access × Landing)) (s : State) (x : Env) : Prop :=
    x.workers s ≠ [] ∧ tileRecord x s = .ok (u, q, la, t) ∧
    checkEach u x (x.wantTile .store) noBad (pieceAccess x (tilePieces x t true (row x) (col x) (x.workers u)) ++
      [((lowest x.act).getD 0, opA u x ((lowest x.act).getD 0) + 20, 4)]) = .ok ls
  (∀ f u q la t ls, Commits (.ldt f) (loadOk u q la t ls) (fun _ x =>
    let r := settle u x (ls.map (fun a => (a.2.loc, a.1.2.2)))
    let got := ((tilePieces x t false (row x) (col x) x.lanes).zip ls).map (fun p =>
      (p.1.lane, p.1.word, bytesNat (loadBytes r.1 r.2 p.2.2.loc (p.1.bytes x.ty.bits)) % 2 ^ (p.1.elems * x.ty.bits),
        r.1.mem.anyPoison p.2.2.loc (p.1.bytes x.ty.bits)))
    let word (l i : Nat) : Nat × Bool := ((got.find? (fun g => g.1 == l && g.2.1 == i)).map (·.2.2)).getD (0, false)
    { st := { fut r.1 x with nextId := r.1.nextId + 1 }, later := some r.1.nextId, counts := !as_ x
      writes := x.lanes.flatMap (fun l => (List.range (countOf x.f.m.toNat)).flatMap (fun i => putV (d x + i) l (word l i).1 0 (word l i).2 1)) })) ∧
  (∀ f, Does (.stt f) (fun s x => x.workers s = []) nothing) ∧
  (∀ f u q la t ls, ParksIn (.stt f) (fun s x => storeOk u q la t ls s x ∧ writeWaits u x) (fun _ x => x.released u)
    (fun _ x => .fence (decide (x.f.b.toNat / 8 % 8 = 5)))) ∧
  (∀ f u q la t ls, Commits (.stt f) (fun s x => storeOk u q la t ls s x ∧ ¬ writeWaits u x) (fun _ x =>
    let ps := tilePieces x t true (row x) (col x) (x.workers u)
    let es := (ps.zip ls).map (fun p => FifoEntry.store p.2.2.loc
      (pieceData u q p.2.2.loc p.1 x.ty.bits (x.vWord u (d x + p.1.word) p.1.lane).toNat))
    let tag := (ls.drop ps.length).map (fun a => FifoEntry.retag a.2.loc none)
    let done := if as_ x then [FifoEntry.asyncDone u.nextId] else []
    let v := setFifo u x.agent (fifoOf u x.agent ++ (es ++ tag ++ done))
    { st := if as_ x then { fut v x with nextId := u.nextId + 1 } else v })) ∧
  (∀ (x : Env) (t : Tile) (store : Bool) (r c : Nat) (lanes : List Nat) (p : Piece),
    let e := 32 / x.ty.bits
    p ∈ tilePieces x t store r c lanes ↔
      p.lane ∈ lanes ∧ p.word < countOf x.f.m.toNat ∧ r + p.lane < t.rows ∧ c + e * p.word < t.cols ∧ (store = true ∨ t.sparse ≠ 2) ∧
      p.addr = (t.base + (r + p.lane) * t.stride + (c + e * p.word) * x.ty.bits / 8) % 2 ^ 64 ∧ p.elems = min e (t.cols - (c + e * p.word))) ∧
  (∀ f, Traps (.ldt f) (fun s x => opA s x ((lowest x.act).getD 0) % 32 ≠ 0 ∨ col x % (32 / x.ty.bits) ≠ 0) cMISALIGN (fun _ x => x.act)) ∧
  (∀ f, Traps (.stt f) (fun s x => x.workers s ≠ [] ∧ (opA s x ((lowest x.act).getD 0) % 32 ≠ 0 ∨ col x % (32 / x.ty.bits) ≠ 0)) cMISALIGN
    (fun _ x => x.act))

/-- R244 to R246: FWAIT waits while its future is pending and FTST says whether it is; FPASS and FTAKE move a future between a
register and a slot of the group's table, and wait while the slot is not free or holds none. -/
def Obligations.FuturesAreWaitedForAndMoved : Prop :=
  let pending (x : Env) : Prop := ∃ op, x.regs.fGet (Opnd.ofCode x.f.a).index = .pending op
  let slot (s : State) (x : Env) : Fut := mapGet ((s.group? x.grp).elim [] (·.futs)) x.f.c.toNat .empty
  let puts (s : State) (x : Env) (i : Nat) (r t : Fut) : State :=
    (s.modStroke x.key (fun st => { st with regs := st.regs.fSet i r })).modGroup x.grp (fun g => { g with
      futs := mapSet g.futs .empty x.f.c.toNat t })
  (∀ f, Does (.fwait f) (fun _ x => ¬ pending x) nothing) ∧
  (∀ f, Parks (.fwait f) (fun _ x => pending x) (fun _ x => .future (Opnd.ofCode x.f.a).index)) ∧
  (∀ f, Gives (.ftst f) (fun _ x _ => open Classical in if pending x then 0 else 1)) ∧
  (∀ f, Does (.fpass f) (fun s x => slot s x = .empty)
    (fun s x => puts s x (Opnd.ofCode x.f.a).index .empty (x.regs.fGet (Opnd.ofCode x.f.a).index))) ∧
  (∀ f, Parks (.fpass f) (fun s x => slot s x ≠ .empty) (fun _ x => .slotFull x.f.c.toNat)) ∧
  (∀ f, Does (.ftake f) (fun s x => slot s x ≠ .empty) (fun s x => puts s x (Opnd.ofCode x.f.d).index (slot s x) .empty)) ∧
  (∀ f, Parks (.ftake f) (fun s x => slot s x = .empty) (fun _ x => .slotEmpty x.f.c.toNat)) ∧
  (∀ (s : State) (op : Nat) (w : Word) (k i : Nat) (st : Stroke), s.stroke? k = some st →
    ∃ st', (futureDone s op w).stroke? k = some st' ∧
      st'.regs.fGet i = (if st.regs.fGet i = .pending op then .done w else st.regs.fGet i))

/-- R247, R249, R281: FCAN withdraws the operation behind a pending future where it has not started, its future then being done
with 0xFFFFFFFF, and otherwise does nothing; SPAWN and LAUNCH, each a release, read their records once at issue and put them into
their class queues all together, or wait for room with the records that they have read (R29). The release's wait at issue is the model's choice (log 25). -/
def Obligations.WorkIsEnqueuedAndWithdrawn : Prop :=
  let enters (s : State) (l : Launch) : State :=
    ({ s with launches := mapPut s.launches l.id l }).modPart l.part (fun p => { p with
      queues := p.queues.mapIdx (fun i q => if i = l.cls then q ++ [l.id] else q) })
  let tasks (rs : List (Nat × List Byte × Bool)) (p : Nat) (t : State) (x : Env) : State :=
    rs.foldl (fun t r => enters { t with nextId := t.nextId + 1 } (taskLaunch t.nextId p r.2.1 (levelAddr x r.1) r.2.2)) t
  let classes (rs : List (Nat × List Byte × Bool)) : List (Nat × Nat) := queueNeed (rs.map (fun r => bits (field r.2.1 2 1) 3 2))
  let packet (r : Nat × List Byte × Bool) (t s : State) (x : Env) : Launch :=
    packetLaunch (t.nextId + 1) (x.part s) r.2.1 r.2.2 (some t.nextId)
  let names (one : Bool) (s : State) (x : Env) : List Nat :=
    if one = true ∨ (Opnd.ofCode x.f.a).kind ≠ .v then (x.workers s).take 1 else x.workers s
  let waiting_ (x : Env) : Option Kept := x.was.st.kept.find? (fun r => r.pc == x.pc && r.act == x.act)
  let checked (n : Nat) (one : Bool) (as : List (Access × Landing)) (s : State) (x : Env) : Prop :=
    waiting_ x = none ∧ names one s x ≠ [] ∧
      checkEach s x (x.want [.C, .D, .G] n .load) noBad ((names one s x).map (fun l => (l, eaOf s x l, n))) = .ok as
  let sees (n : Nat) (as : List (Access × Landing)) (s : State) (x : Env) : State × List FifoEntry := settle s x (as.map (fun a => (a.2.loc, n)))
  let gets (n : Nat) (one : Bool) (t : State) (rs : List (Nat × List Byte × Bool)) (s : State) (x : Env) : Prop :=
    (∃ r, waiting_ x = some r ∧ t = s ∧ rs = r.recs) ∨
    ∃ as, checked n one as s x ∧ ¬ releaseOut false s x ∧ t = x.released s ∧
      rs = as.map (fun a => (a.1.2.1, loadBytes (sees n as s x).1 (sees n as s x).2 a.2.loc n, (sees n as s x).1.mem.anyPoison a.2.loc n))
  let keeps (rs : List (Nat × List Byte × Bool)) (t : State) (x : Env) : State := t.modStroke x.key (fun st => { st with
    kept := st.kept.filter (fun r => r.act &&& x.act == 0) ++ [{ pc := x.pc, act := x.act, recs := rs }] })
  (∀ f, Does (.fcan f) (fun _ x => ∀ op, x.regs.fGet (Opnd.ofCode x.f.a).index ≠ .pending op) nothing) ∧
  (∀ f op, Commits (.fcan f) (fun _ x => x.regs.fGet (Opnd.ofCode x.f.a).index = .pending op) (fun s _ => { st := withdraw s op })) ∧
  (∀ (s : State) (l : Launch) (op : Nat), s.launches.find? (fun e => e.2.op == some op) = some (l.id, l) → l.op = some op →
    (0 < l.next → withdraw s op = s) ∧
    (l.phase = .queued → l.next = 0 → (withdraw s op).launches = mapDel s.launches l.id ∧
      ∀ k i st, s.stroke? k = some st → st.regs.fGet i = .pending op →
        ∃ st', (withdraw s op).stroke? k = some st' ∧ st'.regs.fGet i = .done 0xFFFFFFFF)) ∧
  (∀ f, Does (.spawn f) (fun s x => waiting_ x = none ∧ names false s x = []) nothing) ∧
  (∀ f, Does (.launch f) (fun s x => waiting_ x = none ∧ names true s x = []) nothing) ∧
  (∀ f as, ParksIn (.spawn f) (fun s x => checked 64 false as s x ∧ releaseOut false s x) (fun s x => x.released s) (fun _ _ => .fence false)) ∧
  (∀ f as, ParksIn (.launch f) (fun s x => checked 128 true as s x ∧ releaseOut false s x) (fun s x => x.released s) (fun _ _ => .fence false)) ∧
  (∀ f t rs, Does (.spawn f) (fun s x => gets 64 false t rs s x ∧ roomFor t (x.part s) (classes rs) = true)
    (fun s x => tasks rs (x.part s) t x)) ∧
  (∀ f t rs, ParksIn (.spawn f) (fun s x => gets 64 false t rs s x ∧ roomFor t (x.part s) (classes rs) = false)
    (fun _ x => keeps rs t x) (fun _ _ => .queue (classes rs))) ∧
  (∀ f t r rs, Does (.launch f) (fun s x => gets 128 true t (r :: rs) s x ∧ roomFor t (x.part s) [((packet r t s x).cls, 1)] = true)
    (fun s x =>
      let u := t.modStroke x.key (fun st => { st with regs := st.regs.fSet (Opnd.ofCode x.f.d).index (.pending t.nextId) })
      enters { u with nextId := t.nextId + 2 } (packet r t s x))) ∧
  (∀ f t r rs, ParksIn (.launch f) (fun s x => gets 128 true t (r :: rs) s x ∧ roomFor t (x.part s) [((packet r t s x).cls, 1)] = false)
    (fun _ x => keeps (r :: rs) t x) (fun s x => .queue [((packet r t s x).cls, 1)]))

/-! ## The engines and the matrix unit -/

/-- R202, R254 to R258, R262 to R268: a copy is entered with its locks, its status register pending and its destination lines
absent, behind the context's stores; where the lock table refuses its locks the context waits; CCAN cancels a copy that is
pending. R202, R254, R291: MMS enters its multiplication with locks on its records and tiles and its status register pending,
behind the context's stores, or its context waits for the locks. That a lock of a tile covers what its record names at issue, and that a CPYM's one
destination entry covers the destinations that its list names then, is the model's choice (log 17). -/
def Obligations.CopiesAndTileProductsAreEntered : Prop :=
  (let len (f : Fields) (t : State) (x : Env) : Dword := ((t.ctx? x.key).getD {}).kGet (f.c.toNat % 32)
   let slot (x : Env) : Nat := slotOf x.grp
   let ends (c : Copy) (t : State) (x : Env) : List Lock :=
     ((copyRange t c.group c.part c.src c.sBase.toNat c.len).map (lockOf · .source c.id (slot x))).toList ++
     ((copyRange t c.group c.part c.dst c.dBase.toNat c.len).map (lockOf · .dest c.id (slot x))).toList
   let spaces (f : Fields) : Space × Space := (Space.ofCode f.m.toNat, Space.ofCode (f.c.toNat / 32 % 8))
   let plainCopy (k : CopyKind) (f : Fields) (t : State) (x : Env) : Copy × List Lock × List Nat :=
     let c := newCopy x t k (spaces f).1 (spaces f).2 (len f t x)
     (c, ends c t x, destLines t c.group c.dst c.dBase.toNat c.len)
   let tileCopy (f : Fields) (t : State) (x : Env) : Copy × List Lock × List Nat :=
     let c := newCopy x t (.tile (extX f % 8) ((extX f).testBit 3)) (Space.ofCode f.m.toNat) (Space.ofCode (f.c.toNat % 8)) 0
     let a := tileOrBad (peekRecord t c.group c.part c.src c.sBase.toNat)
     let b := tileOrBad (peekRecord t c.group c.part c.dst c.dBase.toNat)
     let data (k : Tile) (p : Space) (kind : LockKind) : List Lock :=
       if k.malformed then [] else ((copyRange t c.group c.part p k.base k.allBytes).map (lockOf · kind c.id (slot x))).toList
     (c, ([(c.src, c.sBase), (c.dst, c.dBase)].filterMap (fun r => copyRange t c.group c.part r.1 r.2.toNat 32)).map
         (lockOf · .record c.id (slot x)) ++ data a c.src .source ++ data b c.dst .dest,
       if b.malformed then [] else (b.units.flatMap (fun u =>
         let z := beatSpan 64 b.base b.allBytes u
         destLines t c.group c.dst z.1 (z.2 - z.1))).eraseDups)
   let manyCopy (f : Fields) (t : State) (x : Env) : Copy × List Lock × List Nat :=
     let c := newCopy x t (.mcast (f.m.getLsbD 0) (extX f % 32)) .U (spaces f).2 (len f t x)
     let dest (i : Nat) : Option (Nat × Nat) :=
       if f.m.getLsbD 0 ∨ c.dBase.toNat % 16 ≠ 0 then none
       else (uLoc t c.group (c.dBase.toNat + 16 * i) 4).bind (fun l => (pLoc t c.group (readNat t l 4) c.len).map (fun p => (p.addr, p.addr + c.len)))
     let zs := (List.range (extX f % 32)).filterMap dest
     (c, ((copyRange t c.group c.part c.src c.sBase.toNat c.len).map (lockOf · .source c.id (slot x))).toList ++
       [{ home := .u, part := c.part, lo := (zs.headD (0, 0)).1, hi := (zs.headD (0, 0)).2, kind := .dest, owner := c.id, slot := slot x
          more := zs.drop 1 }] ++
       ((uRange t c.group c.dBase.toNat (16 * (extX f % 32))).map (lockOf · .record c.id (slot x))).toList, [])
   let enters (i : Instr) (g : State → Env → Copy × List Lock × List Nat) : Prop :=
     Does i (fun s x => locksStall (x.drained s) x.core (g (x.drained s) x).2.1 = false)
       (fun s x =>
         let t := x.drained s
         let c := (g t x).1
         let u := { t with nextId := t.nextId + 1, copies := t.copies ++ [c] }.modCore x.core (fun k => { k with locks := k.locks ++ (g t x).2.1 })
         ((g t x).2.2.foldl (fun s l => s.setPresent l false) u).modCtx x.grp (fun k => { k with
           pending := mapPut k.pending c.kS c.id, kpois := mapSet k.kpois false c.kS false })) ∧
     ParksIn i (fun s x => locksStall (x.drained s) x.core (g (x.drained s) x).2.1 = true) (fun s x => x.drained s) (fun _ _ => .locked)
   let held (x : Env) (s : State) : Option Nat := mapGet? ((s.ctx? x.key).getD {}).pending (Opnd.ofCode x.f.a).index
   (∀ f, enters (.cpy f) (plainCopy .plain f)) ∧ (∀ f, enters (.cpyr f) (plainCopy (.reduce (extX f % 16)) f)) ∧
   (∀ f, enters (.cpyt f) (tileCopy f)) ∧ (∀ f, enters (.cpym f) (manyCopy f)) ∧
   (∀ f, Does (.ccan f) (fun s x => held x s = none) nothing) ∧
   (∀ f id, Does (.ccan f) (fun s x => held x s = some id) (fun s _ =>
     let t := modCopy s id (fun c => { c with cancel := true })
     { t with remote := t.remote.filter (fun w => !((w.copy.any (fun p => p.1 == id)) && w.refused.isSome)) })) ∧
   (∀ (s : State) (core : Nat) (want : List Lock), locksStall s core want = true ↔
     32 < (s.core core).locks.length + want.length ∨
     ∃ w ∈ want, ∃ k ∈ (s.core core).locks, w.home = k.home ∧ w.part = k.part ∧
       (∃ p ∈ (w.lo, w.hi) :: w.more, ∃ q ∈ (k.lo, k.hi) :: k.more, p.1 < q.2 ∧ q.1 < p.2) ∧
       (w.kind = .dest ∧ (k.kind = .dest ∨ k.kind = .source) ∨ w.kind = .source ∧ k.kind = .dest))) ∧
  (let k (s : State) (x : Env) (c : Code) : Nat := (((s.ctx? x.key).getD {}).kGet (Opnd.ofCode c).index).toNat % 2 ^ 32
   let a (t : State) (x : Env) : Tile := tileAt t x.grp (k t x x.f.a)
   let b (t : State) (x : Env) : Tile := tileAt t x.grp (k t x x.f.b)
   let want (t : State) (x : Env) : List Lock :=
     ([k t x x.f.a, k t x x.f.b].filterMap (fun r => uRange t x.grp r 32)).map (lockOf · .record t.nextId (slotOf x.grp)) ++
     ([a t x, b t x].filterMap (fun q => if q.malformed then none else uRange t x.grp q.base q.extent)).map (lockOf · .source t.nextId (slotOf x.grp))
   (∀ f, Does (.mms f) (fun s x => locksStall (x.drained s) x.core (want (x.drained s) x) = false) (fun s x =>
     let t := x.drained s
     let n := extX x.f % 64
     let m : Mms :=
       { id := t.nextId, group := x.grp, kS := (Opnd.ofCode x.f.d).index, bank := n, zero := (extX x.f).testBit 8, aRec := k t x x.f.a
         bRec := k t x x.f.b, banks := if mmsTiles t x.grp (a t x) (b t x) then mmsBanks n (a t x) (b t x) else [] }
     ({ t with nextId := t.nextId + 1, mms := t.mms ++ [m] }.modCore x.core (fun c => { c with locks := c.locks ++ want t x })).modCtx x.grp
       (fun c => { c with pending := mapPut c.pending m.kS t.nextId, kpois := mapSet c.kpois false m.kS false }))) ∧
   (∀ f, ParksIn (.mms f) (fun s x => locksStall (x.drained s) x.core (want (x.drained s) x) = true) (fun s x => x.drained s)
     (fun _ _ => .locked)))

/-! ## Summaries -/

/-- R285, R288, R289: AALLOC takes the lowest run of free banks or answers 0xFFFFFFFF; AFREE, AZERO and AGRANT act on banks of
the group that no operation still writes, AGRANT for another group of the partition; a range that is not the group's traps
AMEMOWN. While an operation still to complete writes one of the banks, they do not issue (R287). -/
def Obligations.BanksAreAllocatedZeroedAndGranted : Prop :=
  let count (s : State) (x : Env) : Nat := opC s x ((lowest x.act).getD 0) % 2 ^ 32
  let first (x : Env) : Nat := x.f.b.toNat / 2 % 64
  let mine (s : State) (x : Env) : Prop := 0 < count s x ∧ first x + count s x ≤ 64 ∧ first x + count s x ≤ ownBanks s x.grp
  let banks (s : State) (x : Env) : List Nat := (List.range (count s x)).map (fun i => first x + i)
  let quiet (s : State) (x : Env) : Prop := ∀ n ∈ banks s x, bankBusy s x.grp n = false
  let taken (s : State) (x : Env) : Prop := ∀ n ∈ banks s x, allocated s x.grp n = true
  let free (s : State) (x : Env) (b : Nat) : Prop := 0 < count s x ∧ count s x ≤ 64 ∧ b + count s x ≤ ownBanks s x.grp ∧
    ∀ i, i < count s x → allocated s x.grp (b + i) = false
  let slot (x : Env) : Nat := x.f.a.toNat % 8
  (∀ f b, GivesIf (.aalloc f) (fun s x => free s x b ∧ ∀ c, c < b → ¬ free s x c)
    (fun s x => setAlloc s x.grp ((List.range (count s x)).map (fun i => b + i)) true) (fun _ _ _ => b)) ∧
  (∀ f, GivesIf (.aalloc f) (fun s x => ∀ b, ¬ free s x b) nothing (fun _ _ _ => 0xFFFFFFFF)) ∧
  (∀ (s : State) (g : Nat) (ns : List Nat) (b : Bool) (n : Nat), n < ownBanks s g →
    allocated (setAlloc s g ns b) g n = (if n ∈ ns then b else allocated s g n)) ∧
  (∀ f, Does (.afree f) (fun s x => mine s x ∧ quiet s x) (fun s x =>
    (setAlloc s x.grp (banks s x) false).modGroup x.grp (fun gr => { gr with grants := gr.grants.filter (fun q => !(banks s x).contains q.1) }))) ∧
  (∀ f, Does (.azero f) (fun s x => mine s x ∧ taken s x ∧ quiet s x) (fun s x =>
    { s with mem := (banks s x).foldl (fun m n => zeroBank m (bankKey s x.grp n)) s.mem })) ∧
  (∀ f, Does (.agrant f) (fun s x => mine s x ∧ grantee x s (slot x) = true ∧ taken s x ∧ quiet s x) (fun s x =>
    s.modGroup x.grp (fun gr => { gr with grants := gr.grants.filter (fun q => !((banks s x).contains q.1 && q.2 == slot x)) ++
      (if x.f.m.getLsbD 0 then [] else (banks s x).map (fun n => (n, slot x))) }))) ∧
  (∀ f, HeldOff (.afree f) (fun s x => mine s x ∧ ¬ quiet s x)) ∧
  (∀ f, HeldOff (.azero f) (fun s x => mine s x ∧ taken s x ∧ ¬ quiet s x)) ∧
  (∀ f, HeldOff (.agrant f) (fun s x => mine s x ∧ grantee x s (slot x) = true ∧ taken s x ∧ ¬ quiet s x)) ∧
  (∀ (s : State) (x : Env) (l : Nat), x.opc ∈ [0xA3, 0xA4, 0xA7] → count s x ≤ 64 → ∀ n, n ∈ banksOf s x l ↔
    ∃ i, i < opC s x l % 2 ^ 32 ∧ i < 64 ∧ n = first x + i ∧ bankBusy s x.grp n = true) ∧
  (∀ f, Traps (.afree f) (fun s x => ¬ mine s x) cAMEMOWN (fun _ x => x.act)) ∧
  (∀ f, Traps (.azero f) (fun s x => ¬ mine s x) cAMEMOWN (fun _ x => x.act)) ∧
  (∀ f, Traps (.azero f) (fun s x => mine s x ∧ ¬ taken s x) cAMEMWR (fun _ x => x.act)) ∧
  (∀ f, Traps (.agrant f) (fun s x => ¬ mine s x ∨ grantee x s (slot x) = false ∨ ¬ taken s x) cAMEMOWN (fun _ x => x.act)) ∧
  (∀ (m : MemSys) (bank row col k : Nat), row < 32 → col < 32 →
    (zeroBank m bank).acc (amemKey bank row col) = 0 ∧ (k / 1024 ≠ bank → (zeroBank m bank).acc k = m.acc k))

/-- R286, R287, R290: ALD and AST move words between registers and rows of banks that the group owns or was granted; a read of a
bank of the group's own that is not allocated gives a NaN and sets the stroke's AMEM bit, a write of one traps AMEMWR; while an operation still
to complete writes one of the banks, neither issues. -/
def Obligations.AccumulatorRowsMove : Prop :=
  let d (x : Env) : Nat := (Opnd.ofCode x.f.d).index
  let ws (s : State) (x : Env) : List (Nat × Nat × Nat × Nat) := x.lanes.flatMap (fun l =>
    (List.range (countOf x.f.m.toNat)).map (fun i =>
      let r := opC s x l % 2 ^ 32 + i
      (l, i, x.f.b.toNat % 64 + r / 32, r % 32)))
  let rowsOk (s : State) (x : Env) : Prop := (∀ l ∈ x.lanes, opC s x l % 2 ^ 32 ≤ 255) ∧ ∀ w ∈ ws s x, reachable x s w.2.2.1 = true
  let key (s : State) (x : Env) (w : Nat × Nat × Nat × Nat) : Nat := amemKey (bankKey s (bankOwner x) w.2.2.1) w.2.2.2 w.1
  let quiet (s : State) (x : Env) : Prop := ∀ w ∈ ws s x, bankBusy s (bankOwner x) w.2.2.1 = false
  let closed (s : State) (x : Env) (n : Nat) : Bool := !x.f.b.getLsbD 6 && !allocated s x.grp n
  (∀ f, Writes (.ald f)
    (fun s x => rowsOk s x ∧ quiet s x ∧ ∀ w ∈ ws s x, closed s x w.2.2.1 = false → s.mem.accBad (key s x w) = false)
    (fun s x => if (ws s x).any (fun w => closed s x w.2.2.1) then s.modStroke x.key (fun st => { st with amemBit := true }) else s)
    (fun s x => (ws s x).flatMap (fun w =>
      putV (d x + w.2.1) w.1 (if closed s x w.2.2.1 then 0x7FC00000 else (s.mem.acc (key s x w)).toNat) 0 false 1))) ∧
  (∀ f, Does (.ast f) (fun s x => rowsOk s x ∧ quiet s x ∧ ∀ w ∈ ws s x, closed s x w.2.2.1 = false) (fun s x =>
    { s with mem := (ws s x).foldl (fun m w => m.putAcc (key s x w) (x.vWord s (d x + w.2.1) w.1)) s.mem })) ∧
  (∀ f, HeldOff (.ald f) (fun s x => rowsOk s x ∧ ¬ quiet s x)) ∧
  (∀ f, HeldOff (.ast f) (fun s x => rowsOk s x ∧ (∀ w ∈ ws s x, closed s x w.2.2.1 = false) ∧ ¬ quiet s x)) ∧
  (∀ f, Traps (.ald f) (fun s x => rowsOk s x ∧ quiet s x ∧ ∃ w ∈ ws s x, closed s x w.2.2.1 = false ∧ s.mem.accBad (key s x w) = true) cPOISON
    (fun s x => maskOf (fun l => (ws s x).any (fun w => w.1 == l && !closed s x w.2.2.1 && s.mem.accBad (key s x w))))) ∧
  (∀ f, Traps (.ast f) (fun s x => rowsOk s x ∧ ∃ w ∈ ws s x, closed s x w.2.2.1 = true) cAMEMWR
    (fun s x => maskOf (fun l => (ws s x).any (fun w => w.1 == l && closed s x w.2.2.1)))) ∧
  (∀ f, Traps (.ald f) (fun s x => ¬ rowsOk s x) cAMEMOWN (fun s x => badRows x s)) ∧
  (∀ f, Traps (.ast f) (fun s x => ¬ rowsOk s x) cAMEMOWN (fun s x => badRows x s)) ∧
  (∀ (m : MemSys) (k j : Nat) (w : Word) (b : Bool),
    (m.putAcc k w b).acc j = (if j = k then w else m.acc j) ∧ (m.putAcc k w b).accBad j = (if j = k then b else m.accBad j))

/-- R273 to R276, R279 to R282, R287: CVSET declares a signing set, CVRST discards the register's round; an MMR whose banks are
allocated, with public and unmarked operands, signs for each lane that is no helper and leaves one operation at the engine; its bank, tag, mark and signing
traps. The lanes that CVDOUBLE names, all of them where the round refuses the signature, are the model's choice (log 17). -/
def Obligations.RoundsAreDeclaredSignedAndDiscarded : Prop :=
  let cv (x : Env) : Nat := (Opnd.ofCode x.f.d).index
  let set (s : State) (x : Env) : Option (Nat × BitVec 4) := signingSet s x.grp (BitVec.ofNat 32 (opC s x ((lowest x.act).getD 0)))
  let o (x : Env) : MmrOp := mmrOp x.f
  let c (s : State) (x : Env) : Cv := (cvOf s x.grp (o x).cv).forOp (o x)
  let owns (s : State) (x : Env) : Prop := (o x).n < 63 ∧ (o x).n + 2 ≤ ownBanks s x.grp
  let open_ (s : State) (x : Env) : Prop := allocated s x.grp (o x).n = true ∧ allocated s x.grp ((o x).n + 1) = true
  let clean (s : State) (x : Env) : Prop := ∀ l ∈ x.workers s, ∀ i ∈ (c s x).regs (o x), x.regs.tagGet i l = 0 ∧ x.regs.poisGet i l = false
  let double (s : State) (x : Env) : Mask := signingTrap x (c s x) (o x) (workLanes s x)
  let own (s : State) (x : Env) : Prop := ∃ p r, x.regs.fGet (Opnd.ofCode x.f.d).index = .pending p ∧ (c s x).round = some r ∧
    (x.key % 32, p) ∈ r.futs
  (∀ f, Commits (.cvset f) (fun s x => set s x = none) (fun s x => { st := resetCv s x.grp (cv x) })) ∧
  (∀ f d, Does (.cvset f) (fun s x => set s x = some d ∧ (cvOf s x.grp (cv x)).decl = some d) nothing) ∧
  (∀ f d, Does (.cvset f) (fun s x => set s x = some d ∧ (cvOf s x.grp (cv x)).decl ≠ some d ∧ (cvOf s x.grp (cv x)).round = none)
    (fun s x => putCv s x.grp (cv x) { decl := some d })) ∧
  (∀ f d, Traps (.cvset f) (fun s x => set s x = some d ∧ (cvOf s x.grp (cv x)).decl ≠ some d ∧ (cvOf s x.grp (cv x)).round ≠ none)
    cCVDOUBLE (fun _ x => x.act)) ∧
  (∀ f, Commits (.cvrst f) always (fun s x => { st := resetCv s x.grp (cv x) })) ∧
  (∀ s g i, cvOf (resetCv s g i) g i = {}) ∧
  (∀ f, Commits (.mmr f)
    (fun s x => owns s x ∧ open_ s x ∧ clean s x ∧ x.workers s ≠ [] ∧ double s x = 0)
    (fun s x => open Classical in
      let t := putCv { s with nextId := s.nextId + 1 } x.grp (o x).cv
        { c s x with round := some (signRound x s (c s x) (o x) (x.workers s) s.nextId) }
      { st := if x.f.d = 0 ∨ own s x then t
          else t.modStroke x.key (fun st => { st with regs := st.regs.fSet (Opnd.ofCode x.f.d).index (.pending s.nextId) })
        later := some s.nextId, waitFor := 1, engine := true })) ∧
  (∀ f, Does (.mmr f) (fun s x => owns s x ∧ open_ s x ∧ x.workers s = []) nothing) ∧
  (∀ f, Traps (.mmr f) (fun s x => ¬ owns s x) cAMEMOWN (fun _ x => x.act)) ∧
  (∀ f, Traps (.mmr f) (fun s x => owns s x ∧ ¬ open_ s x) cAMEMWR (fun _ x => x.act)) ∧
  (let tagged (s : State) (x : Env) : Mask := maskOf (fun l => (x.workers s).contains l && ((c s x).regs (o x)).any (fun i => x.regs.tagGet i l != 0))
   let marked (s : State) (x : Env) : Mask := maskOf (fun l => (x.workers s).contains l && ((c s x).regs (o x)).any (fun i => x.regs.poisGet i l))
   (∀ f, Traps (.mmr f) (fun s x => owns s x ∧ open_ s x ∧ tagged s x ≠ 0) cSHARETAG tagged) ∧
   (∀ f, Traps (.mmr f) (fun s x => owns s x ∧ open_ s x ∧ tagged s x = 0 ∧ marked s x ≠ 0) cPOISON marked)) ∧
  (∀ f, Traps (.mmr f) (fun s x => owns s x ∧ open_ s x ∧ clean s x ∧ x.workers s ≠ [] ∧ double s x ≠ 0) cCVDOUBLE double) ∧
  (∀ (x : Env) (s : State) (k : Cv) (p : MmrOp) (ls : List Nat) (op : Nat),
    let r := signRound x s k p ls op
    r.sigs.length = (k.round.elim 0 (·.sigs.length)) + ls.length ∧ (x.key % 32, op) ∈ r.futs ∧
      ∀ l ∈ ls, ∃ g ∈ r.sigs, g.q = x.key % 32 ∧ g.lane = l ∧ g.pc = x.pc ∧
        (k.latchA = none → g.a = (List.range g.aN).map (fun i => x.regs.vGet (p.aReg + i) l)) ∧
        (k.latchB = none → g.b = (List.range g.bN).map (fun i => x.regs.vGet (p.bReg + i) l)))

/-- R295 to R307: the summary instructions act on a record that its lines hold, behind the stroke's stores, and keep their
stroke at the unit; folds and merges write the record, queries give each active lane its answer; a malformed record, or one of
another kind or type, traps TAGMISMATCH; a query of a poisoned record marks its answer. R297, R298, R304: the coin of a record, a fold
that compacts nothing, and the registers of a distinct count. That the merge of a poisoned source is poisoned is the model's choice (log 17). -/
def Obligations.SummariesFoldMergeAndAnswer : Prop :=
  (let behind (w : Bool) (s : State) (x : Env) : State := if w then x.released s else x.drained s
   let rcd (w : Bool) (s : State) (x : Env) (ls : List Loc) : List Byte := ls.flatMap (fun l => readBytes (behind w s x) l 128)
   let reach (acc : Acc) (ls : List Loc) (s : State) (x : Env) : Prop := reachRecord s x (spaceOf x.f) (recordAddr x x.f.a) acc = .ok ls
   let marked (s : State) (x : Env) (ls : List Loc) : Bool := ls.any (fun l => (x.drained s).mem.anyPoison l 128)
   let fits (w : Bool) (kind : Nat) (typed : Bool) (s : State) (x : Env) (ls : List Loc) : Prop :=
     recordBad (rcd w s x ls) = false ∧ field (rcd w s x ls) 0 1 = kind ∧ (typed = true → field (rcd w s x ls) 1 1 = x.f.t.toNat)
   let folds (i : Instr) (kind : Nat) (typed : Bool) (g : State → Env → List Byte → Nat → List Byte × Nat) : Prop := ∀ ls,
     Commits i (fun s x => reach .atomic ls s x ∧ fits true kind typed s x ls) (fun s x =>
       let t := x.released s
       let r := g s x (rcd true s x ls) t.fresh
       atUnit .summary { writeRecord t ls r.1 with fresh := r.2 } []) ∧
     Traps i (fun s x => reach .atomic ls s x ∧ ¬ fits true kind typed s x ls) cTAGMISMATCH (fun _ x => x.act)
   let asks (i : Instr) (kind : Nat) (typed : Bool) (g : State → Env → List Byte → Nat → Nat × Flags) : Prop := ∀ ls,
     Commits i (fun s x => reach .load ls s x ∧ fits false kind typed s x ls) (fun s x =>
       let t := x.drained s
       atUnit .summary t ((putD x (x.lanes.map (fun l => (l, (g t x (rcd false s x ls) l).1)))).map (fun w => { w with poison := marked s x ls }))
         (if kind = 1 then x.lanes.map (fun l => (l, (g t x (rcd false s x ls) l).2)) else [])) ∧
     Traps i (fun s x => reach .load ls s x ∧ ¬ fits false kind typed s x ls) cTAGMISMATCH (fun _ x => x.act)
   let keys (s : State) (x : Env) : List Nat := (x.workers s).map (fun l => opC s x l % 2 ^ x.ty.bits)
   let ent (x : Env) : Bool := x.was.coin.getLsbD 0
   let both (la lc : List Loc) (s : State) (x : Env) : Prop := reach .atomic la s x ∧
     reachRecord s x (Space.ofCode (x.f.b.toNat / 8 % 8)) (recordAddr x x.f.c) .load = .ok lc
   (∀ f ls, Commits (.sminit f) (reach .store ls) (fun s x =>
     atUnit .summary (writeRecord (x.released s) ls (freshRecord x.f.c.toNat x.f.t.toNat (x.was.coin.toNat / 2))) [])) ∧
   (∀ f, folds (.rqs f) 1 false (fun s x r n =>
     let k := (foldValues x s).foldl Sketch.fold (Sketch.ofBytes r (ent x) n)
     (k.bytes, k.coin.n))) ∧
   (∀ f, folds (.rhh f) 2 true (fun s x r n => (((keys s x).foldl Hitters.fold (Hitters.ofBytes r)).bytes, n))) ∧
   (∀ f, folds (.rdc f) 3 true (fun s x r n => (((keys s x).foldl Distinct.fold (Distinct.ofBytes r)).bytes, n))) ∧
   (∀ f la lc, Commits (.smrg f) (fun s x => both la lc s x ∧ mergeable (rcd true s x la) (rcd false s x lc) = true)
     (fun s x =>
       let t := x.released s
       let r := mergeRecords (rcd true s x la) (rcd false s x lc) (ent x) t.fresh
       let u := writeRecord t la r.1
       let mem := if marked s x lc then la.foldl (fun m l => m.setPoison l.home l.line true) u.mem else u.mem
       atUnit .summary { u with mem := mem, fresh := r.2 } [])) ∧
   (∀ f la lc, Traps (.smrg f) (fun s x => both la lc s x ∧ mergeable (rcd true s x la) (rcd false s x lc) = false) cTAGMISMATCH (fun _ x => x.act)) ∧
   (∀ f, asks (.sqnt f) 1 false (fun t x r l => (Sketch.ofBytes r false 0).query (opC t x l % 2 ^ 32))) ∧
   (∀ f, asks (.sest f) 3 false (fun _ _ r _ => ((Distinct.ofBytes r).estimate, 0))) ∧
   (∀ f, asks (.shhq f) 2 true (fun t x r l =>
     let es := (Hitters.ofBytes r).entries
     (match es[opC t x l % 2 ^ 32]? with
       | some e => e.key + 2 ^ 64 * e.cnt + 2 ^ 96 * e.err
       | none => 2 ^ 64 - 1, 0)))) ∧
  ((∀ (c : Coin), c.ent = false →
      let s : Word := if c.lfsr = 0 then 1 else c.lfsr
      c.draw = ((s &&& 1).toNat, { c with lfsr := if s &&& 1 = 1 then s >>> 1 ^^^ 0x80200003 else s >>> 1 })) ∧
    (∀ (k : Sketch) (x : Nat), nan32 x = true → k.fold x = { k with nans := min (k.nans + 1) (2 ^ 64 - 1) }) ∧
    (∀ (k : Sketch) (x : Nat), nan32 x = false → (k.level 0).length < 63 → k.levels.length = 8 →
      let j := k.fold x
      j.level 0 = k.level 0 ++ [x] ∧ (∀ h, h ≠ 0 → j.level h = k.level h) ∧ j.count = min (k.count + 1) (2 ^ 64 - 1) ∧
        j.least = (if itemKey x < itemKey k.least then x else k.least) ∧ j.most = (if itemKey k.most < itemKey x then x else k.most) ∧
        j.nans = k.nans ∧ j.coin = k.coin ∧ j.cmps = k.cmps) ∧
    (∀ (k : Distinct) (x : Nat), k.regs.length = 1024 →
      let h := mix64 x
      let j := h / 2 ^ 54
      let r := (k.fold x).regs
      (k.fold x).count = min (k.count + 1) (2 ^ 64 - 1) ∧ (∀ i, i ≠ j → r[i]? = k.regs[i]?) ∧
        ∃ rho, r[j]? = some (max ((k.regs[j]?).getD 0) rho) ∧ 1 ≤ rho ∧ rho ≤ 55 ∧
          (∀ i, i < rho - 1 → h.testBit (53 - i) = false) ∧ (rho < 55 → h.testBit (54 - rho) = true)) ∧
    mix64 0 = 0)

/-! ## Shares -/

/-- R302, R303: whatever is folded and merged, an entry's count is at most the true count of its key, which is at most its count
and error, and a key without an entry was folded at most DEC times. The fresh record has these bounds, no error above DEC, and each fold and each
merge keeps them, so long as no count or error saturates. -/
def Obligations.HeavyHittersBoundTrueCounts : Prop :=
  let fresh (t : Nat) : Hitters := { ty := t, count := 0, dec := 0, entries := [] }
  let bounds (k : Hitters) (n : Nat → Nat) : Prop :=
    (∀ e ∈ k.entries, e.cnt ≤ n e.key ∧ n e.key ≤ e.cnt + e.err) ∧ (∀ x, (∀ e ∈ k.entries, e.key ≠ x) → n x ≤ k.dec) ∧
    k.entries.length ≤ 62 ∧ (k.entries.map (·.key)).Nodup ∧
    k.entries.Pairwise (fun a b => b.cnt < a.cnt ∨ (a.cnt = b.cnt ∧ a.key < b.key)) ∧ ∀ e ∈ k.entries, e.err ≤ k.dec
  let small (k : Hitters) (m : Nat) : Prop := k.dec ≤ m ∧ ∀ e ∈ k.entries, e.cnt ≤ m ∧ e.err ≤ m
  let of (t : Nat) (xs : List Nat) : Hitters := xs.foldl Hitters.fold (fresh t)
  (∀ t, bounds (fresh t) (fun _ => 0) ∧ small (fresh t) 0) ∧
  (∀ k n x m, bounds k n → small k m → m + 1 < 2 ^ 32 → bounds (k.fold x) (fun y => if y = x then n y + 1 else n y) ∧ small (k.fold x) (m + 1)) ∧
  (∀ a b p q m n, bounds a p → bounds b q → small a m → small b n → m + n < 2 ^ 31 →
    bounds (a.merge b) (fun y => p y + q y) ∧ small (a.merge b) (2 * (m + n))) ∧
  (∀ t xs, xs.length < 2 ^ 32 → bounds (of t xs) (fun x => xs.count x)) ∧
  (∀ t xs ys, xs.length + ys.length < 2 ^ 31 → bounds ((of t xs).merge (of t ys)) (fun x => xs.count x + ys.count x))

/-- R325, R326, R329 to R331: the local share instructions, in a session to which the partition is a party and with the tags
they ask for, give each active lane its share, tagged; other tags trap SHARETAG, no session SESSION (tested before the tags: the model's choice,
log 17). The parties' SFIN results over one masked block add up to the product of what they masked. -/
def Obligations.SharesAreComputedLocally : Prop :=
  let w (n : Nat) : Word := BitVec.ofNat 32 n
  let tags (x : Env) (i : Nat) (t : BitVec 2) : Prop := ∀ l ∈ x.lanes, x.regs.tagGet i l = t
  let cTags (x : Env) (t : BitVec 2) : Prop := ∀ u i, x.sh.c = .op u → Opnd.ofCode x.f.c = .v i → tags x i t
  let a (x : Env) : Nat := (Opnd.ofCode x.f.a).index
  let b (x : Env) (l i : Nat) : Word := x.regs.vGet (a x + i) l
  let gives (i : Instr) (ok : Session → Env → Prop) (tagOk : Env → Prop) (z : Nat → State → Env → Nat → Word) : Prop := ∀ n e p,
    Writes i (fun s x => sessionOf x s = some (n, e, p) ∧ ok e x ∧ tagOk x) nothing
      (fun s x => x.lanes.flatMap (fun l => putV (Opnd.ofCode x.f.d).index l (z p s x l).toNat x.ty.tag false 1)) ∧
    (∀ s q, issued s i = some q → checkInstr q.ctx i = none → sessionOf q.y q.t = some (n, e, p) → ok e q.y → ¬ tagOk q.y →
      ∃ m, m ≠ 0 ∧ exec i s = .next (trapAt q.s q.x cSHARETAG m 0 0 0)) ∧
    Traps i (fun s x => sessionOf x s = none) cSESSION (fun _ x => x.act)
  let any (_ : Session) (_ : Env) : Prop := True
  let pub (x : Env) : Bool := x.f.m.getLsbD 0
  let fin (p : Nat) (d e a b c : Word) : Word := c + d * b + e * a + (if p = 0 then d * e else 0)
  (∀ f, gives (.sadd f) any (fun x => tags x (a x) 1 ∧ cTags x (if pub x then 0 else 1))
    (fun p s x l => if pub x ∧ p ≠ 0 then w (opA s x l) else w (opA s x l) + w (opC s x l))) ∧
  (∀ f, gives (.ssub f) any (fun x => tags x (a x) 1 ∧ cTags x (if pub x then 0 else 1))
    (fun p s x l => if pub x ∧ p ≠ 0 then w (opA s x l) else w (opA s x l) - w (opC s x l))) ∧
  (∀ f, gives (.smulk f) any (fun x => tags x (a x) 1 ∧ cTags x 0) (fun _ s x l => w (opA s x l) * w (opC s x l))) ∧
  (∀ f, gives (.sxor f) any (fun x => tags x (a x) 2 ∧ (x.f.m = 0 → cTags x 2) ∧ (x.f.m = 1 ∨ x.f.m = 2 → cTags x 0)) (fun p s x l =>
    let a := w (opA s x l)
    let c := w (opC s x l)
    let k := x.f.c.toNat % 32
    match x.f.m.toNat with
    | 0 => a ^^^ c
    | 1 => a &&& c
    | 2 => if p = 0 then a ^^^ c else a
    | 3 => if p = 0 then ~~~ a else a
    | 4 => a <<< k
    | _ => a >>> k)) ∧
  (∀ f, gives (.sfin f) any (fun x => tags x (a x) 0 ∧ tags x (a x + 1) 0 ∧ tags x (a x + 2) x.ty.tag ∧ tags x (a x + 3) x.ty.tag ∧
      tags x (a x + 4) x.ty.tag)
    (fun p _ x l =>
      if x.ty = .sa32 then fin p (b x l 0) (b x l 1) (b x l 2) (b x l 3) (b x l 4)
      else b x l 4 ^^^ (b x l 0 &&& b x l 3) ^^^ (b x l 1 &&& b x l 2) ^^^ (if p = 0 then b x l 0 &&& b x l 1 else 0))) ∧
  (∀ f, gives (.strn f) (fun e _ => e.parties.length = 2) (fun x => tags x (a x) 1) (fun p s x l =>
    let a := w (opA s x l)
    let k := x.f.c.toNat % 32
    if p = 0 then a >>> k else 0 - (0 - a) >>> k)) ∧
  (∀ f n e p, Traps (.strn f) (fun s x => sessionOf x s = some (n, e, p) ∧ e.parties.length ≠ 2) cSESSION (fun _ x => x.act)) ∧
  (∀ f, gives (.sdab f) any (fun x => tags x (a x) 0 ∧ tags x (a x + 2) 1) (fun p _ x l =>
    let c := b x l 0 &&& 1
    b x l 2 * (1 - 2 * c) + (if p = 0 then c else 0))) ∧
  (∀ n ∈ [2, 3], ∀ (x y : Nat → Word) (e : Nat → List Byte),
    let row (i p : Nat) : Word := w (((maskRows 0 (x p).toNat (y p).toNat (e p))[i]?).getD (0, 0)).1
    let sum (g : Nat → Word) : Word := ((List.range n).map g).sum
    sum (row 4) = sum (row 2) * sum (row 3) →
      sum (fun p => fin p (sum (row 0)) (sum (row 1)) (row 2 p) (row 3 p) (row 4 p)) = sum x * sum y)

/-- R317 to R319, R327, R328, R332: SMASK takes the next record of its pool and writes its five rows; SXCH and SREV send their
words to the gate behind a pending future, or end at once where the round is dead; a pool that is used up traps SESSION, and
words that no SMASK left together, or of another type, GATEPROV. That SESSION is tested before the tags is the model's choice (log 17). -/
def Obligations.SharesAreMaskedAndExchanged : Prop :=
  let a (x : Env) : Nat := (Opnd.ofCode x.f.a).index
  let kind (x : Env) : Nat := match x.f.m.toNat with
    | 0 => if x.ty = .sa32 then 0 else 1
    | 1 => 2
    | _ => 3
  let tags (m : Mask) (x : Env) (i : Nat) (t : BitVec 2) : Prop := ∀ l, m.getLsbD l = true → x.regs.tagGet i l = t
  let wants (pool : Pool) : Want :=
    { space := if pool.inD then .D else .G, spaces := [.D, .G], size := 128, align := 0, acc := .load, share := true }
  let masks (n : Nat) (e : Session) (p : Nat) (pool : Pool) (s : State) (x : Env) : Prop := sessionOf x s = some (n, e, p) ∧
    (e.pools[p]?).bind (fun ps => ps.find? (fun q => q.kind == kind x)) = some pool ∧ tags x.act x (a x) x.ty.tag ∧
    (x.f.m = 0 → ∀ u i, x.sh.c = .op u → Opnd.ofCode x.f.c = .v i → tags x.act x i x.ty.tag)
  let round (x : Env) : RowField := mapGet x.regs.rows (a x) { kind := 0, index := 0 }
  let sends (f : Env → Nat) (m : GateMsg) (counts : Bool) (s : State) (x : Env) : Effect :=
    let t := s.modStroke x.key (fun st => { st with regs := st.regs.fSet (f x) (.pending s.nextId) })
    let v := t.modGate (fun g => { g with inbox := g.inbox ++ [{ m with id := s.nextId + 1, stroke := x.key, flight := s.nextId, op := s.nextId }] })
    { st := { v with nextId := s.nextId + 2 }, later := some s.nextId, waitFor := 1, counts := counts, engine := true }
  let ends (f : Env → Nat) (s : State) (x : Env) : State :=
    s.modStroke x.key (fun st => { st with regs := st.regs.fSet (f x) (.done 1) })
  let exchange (n : Nat) (e : Session) (p : Nat) (s : State) (x : Env) : Prop := sessionOf x s = some (n, e, p) ∧
    tags (workLanes s x) x (a x) 3 ∧ tags (workLanes s x) x (a x + 1) 3 ∧
    round x = mapGet x.regs.rows (a x + 1) { kind := 0, index := 0 } ∧ (kindXor (round x).kind = true ↔ x.ty = .sx32)
  let reveals (n : Nat) (e : Session) (p : Nat) (s : State) (x : Env) : Prop := sessionOf x s = some (n, e, p) ∧
    tags (workLanes s x) x (a x) x.ty.tag
  let counts (n : Nat) (e : Session) (p : Nat) (s : State) : State :=
    s.modGate (fun g => g.modSession n (fun e' => { e' with seq := mapPut e'.seq p (mapGet e.seq p 0 + 1) }))
  let pieces (base n : Nat) : List (Nat × Nat) := (List.range (n / 128)).flatMap (fun i =>
    let a := base + 128 * i
    let left := 4096 - a % 4096
    if left < 128 then [(a, left), (a + left, 128 - left)] else [(a, 128)])
  (∀ f n e p pool ls, Commits (.smask f) (fun s x => masks n e p pool s x ∧ e.next? p (kind x) < pool.count ∧
      checkEach s x (wants pool) noBad ((pieces (pool.addr.toNat + poolRecord (kind x) * e.next? p (kind x)) (poolRecord (kind x))).map (fun z =>
        ((lowest x.act).getD 0, z.1, z.2))) = .ok ls)
    (fun s x =>
      let t := e.next? p (kind x)
      let r := settle s x (ls.map (fun a => (a.2.loc, a.1.2.2)))
      let rcd := ls.flatMap (fun a => loadBytes r.1 r.2 a.2.loc a.1.2.2)
      let u := r.1.modGate (fun g => g.modSession n (fun e => { e with next := mapPut e.next (4 * p + kind x) (t + 1) }))
      let d := (Opnd.ofCode x.f.d).index
      let tag : RowField := { kind := kind x, index := t }
      let u := u.modStroke x.key (fun st => { st with owes := st.owes ++ [(n, kind x, t)], regs := { st.regs with rows := mapPut (mapPut st.regs.rows d tag) (d + 1) tag } })
      atUnit .smask u ((List.range 32).flatMap
        (maskLane x s (kind x) rcd (ls.any (fun a => r.1.mem.anyPoison a.2.loc a.1.2.2)))))) ∧
  (∀ f n e p pool, Traps (.smask f) (fun s x => masks n e p pool s x ∧ pool.count ≤ e.next? p (kind x)) cSESSION (fun _ x => x.act)) ∧
  (∀ f n e p, Commits (.sxch f) (fun s x => exchange n e p s x ∧ e.lastPlus p (round x).kind ≤ (round x).index) (fun s x =>
    sends (fun x => (Opnd.ofCode x.f.d).index) (gateMsg x s n p false (round x).kind (round x).index (a x) true) true
      ((s.modGate (fun g => g.modSession n (fun e => { e with last1 := mapPut e.last1 (4 * p + (round x).kind) ((round x).index + 1) }))).modStroke
        x.key (fun st => { st with owes := st.owes.filter (· != (n, (round x).kind, (round x).index)) })) x)) ∧
  (∀ f n e p, Does (.sxch f) (fun s x => exchange n e p s x ∧ (round x).index < e.lastPlus p (round x).kind)
    (ends (fun x => (Opnd.ofCode x.f.d).index))) ∧
  (∀ f n e p, Commits (.srev f) (fun s x => reveals n e p s x ∧ mapGet e.seq p 0 ∉ e.dead) (fun s x =>
    sends (fun x => (Opnd.ofCode x.f.c).index)
      (gateMsg x (counts n e p s) n p true 0 (mapGet e.seq p 0) (Opnd.ofCode x.f.d).index false) false (counts n e p s) x)) ∧
  (∀ f n e p, Does (.srev f) (fun s x => reveals n e p s x ∧ mapGet e.seq p 0 ∈ e.dead)
    (fun s x => ends (fun x => (Opnd.ofCode x.f.c).index) (counts n e p s) x)) ∧
  (∀ f n e p s q, issued s (.sxch f) = some q → checkInstr q.ctx (.sxch f) = none → sessionOf q.y q.t = some (n, e, p) →
    (∃ l, (workLanes q.t q.y).getLsbD l = true ∧ (q.y.regs.tagGet (a q.y) l ≠ 3 ∨ q.y.regs.tagGet (a q.y + 1) l ≠ 3)) →
    ∃ m, m ≠ 0 ∧ exec (.sxch f) s = .next (trapAt q.s q.x cGATEPROV m 0 0 0)) ∧
  (∀ f n e p, Traps (.sxch f) (fun s x => sessionOf x s = some (n, e, p) ∧
      tags (workLanes s x) x (a x) 3 ∧ tags (workLanes s x) x (a x + 1) 3 ∧
      (round x ≠ mapGet x.regs.rows (a x + 1) { kind := 0, index := 0 } ∨ ¬ (kindXor (round x).kind = true ↔ x.ty = .sx32)))
    cGATEPROV (fun _ x => x.act)) ∧
  (∀ f, Traps (.smask f) (fun s x => sessionOf x s = none) cSESSION (fun _ x => x.act)) ∧
  (∀ f, Traps (.sxch f) (fun s x => sessionOf x s = none) cSESSION (fun _ x => x.act)) ∧
  (∀ f, Traps (.srev f) (fun s x => sessionOf x s = none) cSESSION (fun _ x => x.act))

/-! ## Peers -/

/-- R350 to R354: PST puts its stores into the store FIFO for P and into the link for G, in lane order, and does not issue while the send
queue lacks room for a device that its lanes name; PSIG makes one signal for each word that its lanes name, behind its stroke's
stores to that device, and does not issue while a signal to one of them is open; an offset never changes the device of a peer
address; PWAIT goes on once its word is at least D. The lanes of one PST that write one line of a core make one remote write (R201). How much
credit the send queue has (log 27), and that PSIG waits for its own stroke's stores alone (log 17), are the model's choices. -/
def Obligations.PeerStoresAndSignals : Prop :=
  let ea (s : State) (x : Env) (l : Nat) : Nat := opA s x l / 2 ^ 56 * 2 ^ 56 + eaOf s x l % 2 ^ 56
  let dev (a : Nat) : Nat := a / 2 ^ 56 % 2 ^ 8
  let words (s : State) (x : Env) : List Nat := ((x.workers s).map (ea s x)).eraseDups
  let sum (s : State) (x : Env) (a : Nat) : Nat := (((x.workers s).filter (fun l => ea s x l = a)).map (opD s x)).sum % 2 ^ 64
  let word (a : Access × Landing) (s : State) (x : Env) : Prop :=
    checkEach s x (x.want [.G] 8 .load) noBad [((lowest x.act).getD 0, eaOf s x ((lowest x.act).getD 0), 8)] = .ok [a]
  let sees (a : Access × Landing) (s : State) (x : Env) : State × List FifoEntry := settle s x [(a.2.loc, 8)]
  let clean (a : Access × Landing) (s : State) (x : Env) : Prop := (sees a s x).1.mem.anyPoison a.2.loc 8 = false
  let reached (a : Access × Landing) (s : State) (x : Env) : Prop :=
    opD s x ((lowest x.act).getD 0) ≤ bytesNat (loadBytes (sees a s x).1 (sees a s x).2 a.2.loc 8)
  let room (s : State) (x : Env) : Prop := ∀ l ∈ x.workers s, (s.link.out.filter (fun f => f.dst == dev (ea s x l))).length +
    ((x.workers s).filter (fun k => dev (ea s x k) == dev (ea s x l))).length ≤ 32 + Config.sendCredit
  let opens (s : State) (x : Env) : Prop := ∃ a ∈ words s x, ∃ g ∈ s.link.signals, g.part = x.part s ∧ g.dev = dev a ∧ g.va = a % 2 ^ 56
  (∀ f ls, Does (.pst f) (fun s x => spaceOf x.f = .P ∧
      checkEach s x (x.want [.P, .G] x.ty.size .store) noBad ((x.workers s).map (fun l => (l, eaOf s x l, x.ty.size))) = .ok ls)
    (fun s x =>
      let line (a : Access × Landing) : Nat := a.2.loc.addr / 128
      setFifo s x.agent (fifoOf s x.agent ++ ((ls.map line).eraseDups).map (fun i => .remote (coreOfLine i)
        ((ls.filter (fun a => line a == i)).map (fun a => (a.2.loc.addr, natBytes x.ty.size (opD s x a.1.1)))) (x.part s) none)))) ∧
  (∀ f, Does (.pst f) (fun s x => spaceOf x.f ≠ .P ∧ peerBad x s [.P, .G] (x.workers s) = none ∧ room s x)
    (fun s x => (x.workers s).foldl (fun t l =>
      let a := ea t x l
      let q := sendFlit t (x.part s) (dev a) (.store (a % 2 ^ 56) (natBytes x.ty.size (opD s x l)))
      q.1.modLink (fun k => { k with sentBy := k.sentBy ++ [(q.2, x.agent)] })) s)) ∧
  (∀ f, HeldOff (.pst f) (fun s x => spaceOf x.f ≠ .P ∧ peerBad x s [.P, .G] (x.workers s) = none ∧ ¬ room s x)) ∧
  (∀ f, Does (.psig f) (fun s x => peerBad x s [.G] (x.workers s) = none ∧ ¬ opens s x)
    (fun s x => (words s x).foldl (fun t a => raiseSignal t x.agent (x.part s) (dev a) (a % 2 ^ 56) (sum s x a)) s)) ∧
  (∀ f, HeldOff (.psig f) (fun s x => peerBad x s [.G] (x.workers s) = none ∧ opens s x)) ∧
  (∀ (s : State) (a : AgentId) (part dev va add : Nat),
    let t := raiseSignal s a part dev va add
    ∃ g, t.link.signals = s.link.signals ++ [g] ∧ g.part = part ∧ g.dev = dev ∧ g.va = va ∧ g.addend = BitVec.ofNat 64 add ∧ g.sent = false ∧
      t.link.out = s.link.out ∧ ∀ f, f ∈ g.behind ↔ f ∈ s.link.out ∧ f.dst = dev ∧ f.part = part ∧ (f, a) ∈ s.link.sentBy) ∧
  (∀ f a, Does (.pwait f) (fun s x => word a s x ∧ clean a s x ∧ reached a s x) (fun s x => (sees a s x).1)) ∧
  (∀ f a, ParksIn (.pwait f) (fun s x => word a s x ∧ clean a s x ∧ ¬ reached a s x) (fun s x => (sees a s x).1)
    (fun s x => .pwait a.2.loc (BitVec.ofNat 64 (opD s x ((lowest x.act).getD 0))) x.path x.len)) ∧
  (∀ f a, Traps (.pwait f) (fun s x => word a s x ∧ ¬ clean a s x) cPOISON (fun _ x => x.act)) ∧
  (∀ (s : State) (part dst : Nat) (b : FlitBody),
    let r := sendFlit s part dst b
    r.1.link.out = s.link.out ++ [r.2] ∧ r.2.src = s.link.dev ∧ r.2.dst = dst ∧ r.2.part = part ∧ r.2.body = b ∧
      r.2.tseq = mapGet s.link.tx (linkKey dst part) 0 + 1 ∧ mapGet r.1.link.tx (linkKey dst part) 0 = r.2.tseq ∧ r.1.mem = s.mem)

/-! ## Issue, traps and control registers -/

/-- R77, R89, R101, R102: an issue decides in this order: the causes told from the bits; no active lane, which only moves the path on;
the resources that it needs; a source with a share tag or a poison mark. Path A reads its stroke and its group as they stand, path B
as they stood before the cycle. R102: an instruction waits for the special-function unit for ⌈active lanes / 8⌉ cycles after the issue
that holds it, for the summary unit while another stroke of its nib waits there, and path B for the unit that path A took and for a
third read of a register bank, counting distinct rows (log 17); it waits for its store FIFO, too, while an operation at a unit that it might
read stands there behind a write to another core, and a summary or SMASK while such a write stands there at all (log 30). R235, R236, R237: a pop gives its lanes the ring's next words in lane order, 0 and $eos beyond the
last word of a closed ring, and moves HEAD; it waits for its words. A push waits for room counting what is reserved, traps STREAM on
a closed ring, and, as a release, waits at its issue for its stroke's writes to other cores and for words owed to other rings (log 25);
of several ports, the first that is not ready decides (log 17). -/
def Obligations.IssueIsDecidedInOrderAndPortsMove : Prop :=
  ((∀ i s opc f len x, issueCode i = some (opc, f, len) → turnEnv s opc f len = some x →
     let y : Env := { x with act := guardMask s x }
     let go : Prop := bitsCause s x = none ∧ (x.scribe = true → ctxHazard s x = false)
     (∀ c, bitsCause s x = some c → exec i s = .next (trapAt s x c x.path 0 0 0)) ∧
     (x.scribe = true → bitsCause s x = none → ctxHazard s x = true → exec i s = .next { s with turn := .none }) ∧
     (go → y.act = 0 → ∃ v, exec i s = .next v ∧
       let q : Issued := ⟨s, y, s, y⟩
       Past q s v (fun _ => 0) q.next ∧ Keeps q s v []) ∧
     (go → y.act ≠ 0 → heldBack s y = true → exec i s = .next (holdBack s y)) ∧
     (go → y.act ≠ 0 → heldBack s y = false → taggedLanes s y ≠ 0 → exec i s = .next (trapAt s y cSHARETAG (taggedLanes s y) 0 0 0)) ∧
     (go → y.act ≠ 0 → heldBack s y = false → taggedLanes s y = 0 → poisonLanes s y ≠ 0 →
       exec i s = .next (trapAt s y cPOISON (poisonLanes s y) 0 0 0))) ∧
   (∀ s opc f len x k, turnEnv s opc f len = some x → x.agent = .stroke k → x.regs = x.was.st.regs ∧ x.fifo = x.was.st.fifo ∧
     (∀ m b ds, s.turn = .pathA k m b ds → s.stroke? k = some x.was.st ∧ x.was.coin = (x.group s).coin ∧ x.was.cr = (x.group s).cr) ∧
     (∀ m w ds, s.turn = .pathB k m w ds → x.was = w.was)) ∧
   (∀ (s : State) (x : Env), x.act ≠ 0 →
     let sfu := ((s.core (coreOf (groupOf x.key))).sfu[x.key % 4]?).getD (0, 0)
     let unit : Prop := (unitOf x.opc = 1 ∧ sfu.1 < s.cycle ∧ s.cycle < sfu.1 + (sfu.2 + 7) / 8) ∨
       (unitOf x.opc = 4 ∧ ∃ k st, (k, st) ∈ s.strokes ∧ k ≠ x.key ∧ k % 4 = x.key % 4 ∧ coreOf (groupOf k) = coreOf (groupOf x.key) ∧
         ∃ b ∈ st.busy, b.1 = .summary)
     let loads : Prop := x.opc ∈ [0x60, 0x62, 0x63, 0x67, 0xD5, 0x5D, 0xD2] ∨ (x.opc = 0x3A ∧ x.f.m.toNat.testBit 0 = false)
     let atOnce : Prop := (0xB0 ≤ x.opc ∧ x.opc ≤ 0xB7) ∨ x.opc = 0xC3
     let shut : Prop := (loads ∧ ∃ pre e post u, fifoOf s x.agent = pre ++ e :: post ∧ e.away = true ∧ u ∈ post ∧ u.unitAt.isSome = true) ∨
       (atOnce ∧ ∃ e ∈ fifoOf s x.agent, e.away = true)
     ((∀ k m b ds, s.turn ≠ .pathA k m b ds) → (∀ k m w ds, s.turn ≠ .pathB k m w ds) → (heldBack s x = true ↔ shut)) ∧
     (∀ k m b ds, s.turn = .pathA k m b ds → (heldBack s x = true ↔ shut ∨ unit)) ∧
     (∀ k m w ds, s.turn = .pathB k m w ds → (heldBack s x = true ↔ shut ∨ unit ∨ (unitOf x.opc ≠ 0 ∧ w.unit = unitOf x.opc) ∨
       ∃ b, b < 4 ∧ 0 < ((rowsRead s x).filter (fun i => i % 4 == b)).length ∧
         2 < ((rowsRead s x).filter (fun i => i % 4 == b)).length + (w.reads[b]?).getD 0))) ∧
   (∀ s x,
     let far : Prop := ∃ i w, (RegName.v i, w) ∈ usesOf x.sh x.f ∧ (x.group s).nregs ≤ i ∧
       ¬ (252 ≤ i ∧ (boundPorts (x.group s)).getLsbD (i - 252) = true)
     let only : Prop := (0x90 ≤ x.opc ∧ x.opc ≤ 0x95) ∨ x.opc = 0xA1
     let priv : Prop := x.was.st.handler = false ∧ (x.opc = 0xE1 ∨
       (x.opc = 0xE2 ∧ 0x09 ≤ x.f.b.toNat ∧ x.f.b.toNat ≤ 0x0B) ∨ (x.opc = 0xE3 ∧ 0x04 ≤ x.f.b.toNat ∧ x.f.b.toNat ≤ 0x0B))
     (x.scribe = true → bitsCause s x = none) ∧
     (x.scribe = false → (only → bitsCause s x = some 0x05) ∧ (¬ only → priv → bitsCause s x = some 0x04) ∧
       (¬ only → ¬ priv → far → bitsCause s x = some 0x03) ∧ (¬ only → ¬ priv → ¬ far → bitsCause s x = none))) ∧
   (∀ (s : State) (x : Env) (l : Nat), l < 32 → x.scribe = false → (guardMask s x).getLsbD l =
     (x.path.getLsbD l && (!x.f.g || (x.regs.pGet x.f.pred.toNat l != x.f.n))))) ∧
  ((∀ (s : State) (x : Env) (port : Nat) (b : Binding) (r : Loc), bindingOf (x.group s) (port - 252) = some b → ringLoc s x.grp b 0 = some r →
     let v := ringView s x.grp b
     let ls := x.workers s
     let behind (push : Bool) := ringBehind s push r (arrival s x port) x.key
     let k := min ls.length v.count
     (ls = [] → popPort s x port = .ok (s, (x.lanes.filter (fun l => x.helper s l)).map (fun l => (l, 0)))) ∧
     (ls ≠ [] → v.broken = true → popPort s x port = .error (.trap cSTREAM x.act 0 0 0)) ∧
     (ls ≠ [] → v.broken = false → (behind false = true ∨ (v.count < ls.length ∧ v.closed = false)) →
       popPort s x port = .error (.park (.pop port ls.length (arrival s x port)))) ∧
     (ls ≠ [] → v.broken = false → behind false = false → (ls.length ≤ v.count ∨ v.closed = true) → ∃ ws,
       popPort s x port = .ok ((ringPut s x.grp b 0 ((v.head + k) % 2 ^ 32)).modStroke x.key (fun st =>
         st.modLanes allLanes (fun l y => if l ∈ ls.drop k then { y with eos := true } else y)), ws) ∧
       (∀ j l, ls[j]? = some l → mapGet? ws l =
         some (if j < k then BitVec.ofNat 32 (ringWord s x.grp b (128 + 4 * ((v.head + j) % (32 * (b.lines - 1))))) else 0)) ∧
       ∀ l ∈ x.lanes, x.helper s l = true → mapGet? ws l = some 0) ∧
     (pushCheck s x port =
       if ls = [] then none
       else if v.broken = true ∨ v.closed = true then some (.trap cSTREAM x.act 0 0 0)
       else if behind true = true ∨ 32 * (b.lines - 1) < v.count + reservedIn s r + ls.length then
         some (.park (.push port ls.length (arrival s x port)))
       else none)) ∧
   (∀ (s t : State) (x : Env),
     let u := x.released t
     let waits : Prop := (∃ e ∈ fifoOf u x.agent, e.away = true) ∨ ∃ r ∈ u.resv, r.stroke = x.key ∧
       ∀ p ∈ outputPorts u x, ∀ b, bindingOf (x.group u) (p - 252) = some b → ringLoc u x.grp b 0 ≠ some r.ring
     (∀ v, (outputPorts t x).findSome? (pushCheck t x) = some v → readyPush s t x = .error v) ∧
     ((outputPorts t x).findSome? (pushCheck t x) = none →
       ((outputPorts t x = [] ∨ x.workers t = []) → readyPush s t x = .ok t) ∧
       (outputPorts t x ≠ [] → x.workers t ≠ [] →
         (waits → readyPush s t x = .error (.parkIn (.fence false) (x.released s))) ∧ (¬ waits → readyPush s t x = .ok t)))) ∧
   (∀ (s : State) (push : Bool) (r : Loc) (seq self : Nat), ringBehind s push r seq self = true ↔ ∃ k st, (k, st) ∈ s.strokes ∧ k ≠ self ∧
     ∃ port m n gr b, st.park = some (if push then .push port m n else .pop port m n) ∧ n < seq ∧ s.group? st.group = some gr ∧
       bindingOf gr (port - 252) = some b ∧ ringLoc s st.group b 0 = some r) ∧
   (∀ (s : State) (g : Nat) (b : Binding), let v := ringView s g b
     v.head = ringWord s g b 0 ∧ v.tail = ringWord s g b 4 ∧ v.count = (ringWord s g b 4 + 2 ^ 32 - ringWord s g b 0) % 2 ^ 32 ∧
       (v.closed = true ↔ (if ringWord s g b 12 = 0 then 1 else ringWord s g b 12) ≤ ringWord s g b 8)))

/-- R192, R367, R371, R373, R375, R376: TRAP and BKPT stop the stroke at themselves with their code; the trap path is every live lane at
their address. A user-tier trap of a stroke with nothing in flight enters the handler, or escalates; a system-tier fault parks the stroke
with a fault record, which for a PAGEFAULT the partition's function is sent. R193,
R372: RTE ends handler mode. A live lane of the trap path resumes at CR.TRAPADDR, any other, and each after an asynchronous
trap, at its shadow PC; a BAR wait comes back if its phase still stands. -/
def Obligations.TrapsEnterTheHandlerAndReturn : Prop :=
  (let enters (t : Trap) (base : Dword) (y : Stroke) : Stroke := { y with
     cause := BitVec.ofNat 32 (t.cause + t.code * 2 ^ 16 + (if t.async then 2 ^ 24 else 0)), addr := t.addr &&& ~~~ 3, mask := t.mask
     handler := true, park := none
     shadows := (List.range 32).map (fun l =>
       let x := (y.lanes[l]?).getD {}
       { pc := x.pc, wait := x.wait, onPath := t.path.getLsbD l })
     lanes := y.lanes.map (fun x => if x.live then { x with pc := base &&& ~~~ 3, wait := .none, aging := 0 } else x) }
   let still (st : Stroke) : Prop := (∀ i ∈ st.inflight, i.engine = true) ∧ st.busy = []
   let escalates (s : State) (k : Nat) (gr : Group) (t : Trap) (g : Stroke → Stroke) : State :=
     killStroke ((s.modStroke k (fun y => { g y with cause := if y.handler then causeWord t else y.cause })).modPart gr.part
       (fun p => { p with errors := p.errors ++ [(t.cause, k)] })) k
   (∀ i c cause, ((∃ f, i = .trap f ∧ c = f.c ∧ cause = 0x15) ∨ (∃ f, i = .bkpt f ∧ c = f.c ∧ cause = 0x16)) →
     ∀ s q k st gr, issued s i = some q → checkInstr q.ctx i = none → q.x.agent = .stroke k → q.s.stroke? k = some st →
       q.s.group? st.group = some gr → still st → gr.cr.trapBase.getLsbD 0 = true → st.handler = false →
       let t : Trap :=
         { cause := cause, code := c.toNat, addr := q.x.pc, mask := q.x.act, async := false
           path := maskOf (fun l => (st.lanes[l]?).any (fun y => y.live && y.pc == q.x.pc)) }
       exec i s = .next ({ q.s with turn := donorTurn (donorsOf q.s.turn) }.modStroke k (fun y => { enters t gr.cr.trapBase y with trap := none }))) ∧
   (∀ (s : State) (k : Nat) (t : Trap) (va acc : Nat) (st : Stroke) (gr : Group), s.stroke? k = some st → s.group? st.group = some gr →
     let user : Prop := t.cause ∉ [0x08, 0x09, 0x0C, 0x17]
     let r : FaultRec :=
       { token := s.nextId, part := gr.part, va := va, cause := t.cause, access := acc, core := coreOf st.group, agent := some (.stroke k), copy := none }
     (user → still st → gr.cr.trapBase.getLsbD 0 = true → st.handler = false →
       takeTrap s (.stroke k) t va acc = s.modStroke k (fun y => { enters t gr.cr.trapBase y with trap := none })) ∧
     (user → still st → gr.cr.trapBase.getLsbD 0 = false ∨ st.handler = true →
       takeTrap s (.stroke k) t va acc = escalates s k gr t (fun y => { y with trap := none })) ∧
     (user ∨ t.cause = 0x0C → ¬ still st → takeTrap s (.stroke k) t va acc = s.modStroke k (fun y => { y with trap := some t })) ∧
     (t.cause = 0x0C → still st → takeTrap s (.stroke k) t va acc =
       killStroke (countUp (s.modStroke k (fun y => { y with trap := none })) gr.part 4 1) k) ∧
     (t.cause ∈ [0x08, 0x09, 0x17] →
       let u : State := { s.modPart gr.part (fun p => { p with faults := p.faults ++ [r] }) with nextId := s.nextId + 1 }
       takeTrap s (.stroke k) t va acc =
         (if t.cause = 0x08 then u.modPart gr.part (fun p => { p with records := p.records ++ [faultBytes u r] }) else u).modStroke k
           (fun y => { y with fault := some s.nextId, park := none }))) ∧
   (∀ (s : State) (k : Nat) (st : Stroke) (gr : Group) (t : Trap) (r : List Trap), s.stroke? k = some st → s.group? st.group = some gr →
     ((st.trap = some t ∧ r = st.async) ∨ (st.trap = none ∧ st.async = t :: r)) → still st → halted s gr.part (coreOf st.group) = false →
     t.cause ≠ 0x0C → gr.cr.trapBase.getLsbD 0 = true → st.handler = false →
     ∃ v, exec (.trapDelivery (.stroke k)) s = .next v ∧ v = { s with strokes := v.strokes } ∧ (∀ j, j ≠ k → v.stroke? j = s.stroke? j) ∧
       v.stroke? k = some { enters t gr.cr.trapBase st with trap := none, async := r }) ∧
   (∀ (s : State) (g : Nat) (t : Trap) (va acc : Nat), t.cause ∉ [0x08, 0x09, 0x0C, 0x17] →
     takeTrap s (.ctx g) t va acc =
       killCtx ((s.modCtx g (fun c => { c with trap := some t })).modPart ((s.group? g).elim 0 (·.part))
         (fun p => { p with errors := p.errors ++ [(t.cause, g)] })) g)) ∧
  ((∀ f, Does (.rte f) always (fun s x => returnFromTrap s x.key) (fun s x l => (laneOf (returnFromTrap s x.key) x.key l).pc)) ∧
   (∀ (s : State) (k : Nat) (st : Stroke), s.stroke? k = some st → ∃ t, (returnFromTrap s k).stroke? k = some t ∧
     t.handler = false ∧ t.shadows = [] ∧ t.regs = st.regs ∧ t.fifo = st.fifo ∧
     ∀ (l : Nat) (x : Lane) (h : Shadow), st.lanes[l]? = some x → st.shadows[l]? = some h → l < 32 → ∃ y, t.lanes[l]? = some y ∧
       (x.live = false → y = x) ∧
       (x.live = true → y.live = true ∧ y.aging = 0 ∧ y.ret = x.ret ∧ y.sticky = x.sticky ∧
         y.pc = (if st.cause.getLsbD 24 = false ∧ h.onPath = true then st.addr &&& ~~~ 3 else h.pc) ∧
         (∀ b p, h.wait = .bar b p →
           y.wait = if (mapGet ((s.group? st.group).elim [] (·.bars)) b {}).phase = p then .bar b p else .none) ∧
         (∀ p m, h.wait = .fuse p m → y.wait = .fuse p m ∨ y.wait = .none) ∧
         ((∀ b p, h.wait ≠ .bar b p) → (∀ p m, h.wait ≠ .fuse p m) → (∀ b v, h.wait ≠ .barEarly b v) → y.wait = .none))))

/-- R189, R190, R191, R117, R101: CSRR gives the register of its number as it stood before the cycle, and CSRW writes the bits that are not reserved: CR.FPM for
the stroke and lane by lane, CR.COIN for the group, the trap registers for the stroke, a partition-scope register for the
partition and the writing group. CR.SESS reads as the group's copy at its placement gave it (log 17). -/
def Obligations.ControlRegistersAreReadAndWritten : Prop :=
  (∀ f, Gives (.csrr f) (fun s x l =>
    let gr := x.group s
    let st := x.was.st
    let cr := x.was.cr
    let p := s.part? gr.part
    match f.b.toNat with
    | 0x00 => if x.scribe then 0 else st.rm.toNat + (if st.ftz then 8 else 0) + 64 * ((st.lanes[l]?).getD {}).sticky.toNat +
        (if st.amemBit then 65536 else 0)
    | 0x01 => cr.nbvVer + 256 * gr.nbv
    | 0x02 => cr.cvto
    | 0x03 => x.was.coin.toNat
    | 0x04 => cr.mtab.toNat
    | 0x05 => cr.mtabSz.toNat
    | 0x06 => cr.convArena.toNat
    | 0x07 => cr.dispFault.toNat
    | 0x08 => cr.trapBase.toNat
    | 0x09 => if x.scribe then 0 else st.cause.toNat
    | 0x0A => if x.scribe then 0 else st.addr.toNat
    | 0x0B => if x.scribe then 0 else st.mask.toNat
    | 0x0C => p.elim 0 (fun p => p.gtime s.ns % 2 ^ 64)
    | 0x0D => p.elim 0 (fun p => p.stolenAt s.ns % 2 ^ 64)
    | 0x0E => cr.sess
    | _ => gr.part)) ∧
  (let v (s : State) (x : Env) : Nat := opC s x ((lowest x.act).getD 0)
   let stroke (n : Nat) (g : Nat → Stroke → Stroke) : Prop :=
    ∀ f, f.b = BitVec.ofNat 9 n → Does (.csrw f) always (fun s x => s.modStroke x.key (g (v s x)))
   let part (n : Nat) (g : Dword → PartCr → PartCr) : Prop :=
    ∀ f, f.b = BitVec.ofNat 9 n → Does (.csrw f) always (fun s x =>
      (s.modGroup x.grp (fun gr => { gr with cr := g (BitVec.ofNat 64 (v s x)) gr.cr })).modPart (x.part s)
        (fun p => { p with cr := g (BitVec.ofNat 64 (v s x)) p.cr }))
   (∀ f, f.b = 0x00 → Does (.csrw f) always (fun s x => s.modStroke x.key (fun st => { st with
      rm := if v s x % 8 ≤ 4 then BitVec.ofNat 3 (v s x) else st.rm
      ftz := (v s x).testBit 3
      amemBit := st.amemBit && !(x.lanes.any (fun l => (opC s x l).testBit 16))
      lanes := st.lanes.mapIdx (fun l y => if x.act.getLsbD l then
        { y with sticky := y.sticky &&& ~~~ BitVec.ofNat 7 (opC s x l / 64) } else y) }))) ∧
   (∀ f, f.b = 0x03 → Does (.csrw f) always (fun s x => s.modGroup x.grp (fun gr => { gr with coin := BitVec.ofNat 32 (v s x) }))) ∧
   stroke 0x09 (fun v st => { st with cause := BitVec.ofNat 32 v &&& 0x01FF00FF }) ∧
   stroke 0x0A (fun v st => { st with addr := BitVec.ofNat 64 v &&& ~~~ 3 }) ∧
   stroke 0x0B (fun v st => { st with mask := BitVec.ofNat 32 v }) ∧
   part 0x04 (fun v c => { c with mtab := v &&& ~~~ 31 }) ∧
   part 0x05 (fun v c => { c with mtabSz := v.truncate 32 }) ∧
   part 0x06 (fun v c => { c with convArena := v &&& ~~~ 0xE0 }) ∧
   part 0x07 (fun v c => { c with dispFault := v &&& ~~~ 127 }) ∧
   part 0x08 (fun v c => { c with trapBase := v &&& ~~~ 2 }))

/-! ## Steps, words, and the state at power-up -/

/-- R68 to R72, R89: a step executes the instruction to which the bytes at the PC of the agent on turn decode; bytes that cannot
be read, that reach beyond their block, or that are no instruction make it take the trap that R89 names. The turn of an agent that is gone passes on. With nobody on turn the
step is an event: that the agenda's first comes before the next that is due, and that before the passing of a cycle, is the model's
order (log 1). -/
def Obligations.AStepRunsTheDecodedInstruction : Prop :=
  ∀ (s : State),
    (∀ (x : Env) (w : Who), turnEnv s 0x58 plainFields 0 = some x → w = { grp := x.grp, part := x.part s, core := x.core } →
      let want : Want := { space := .G, spaces := [.G], size := 32 - x.pc.toNat % 32, align := 0, acc := .fetch }
      let c : Ctx := { scribe := x.scribe, bound := boundPorts (x.group s) }
      (∀ la, landVirtual s w want x.pc.toNat = .ok la → s.mem.anyPoison la.loc (32 - x.pc.toNat % 32) = false →
        (∀ i n, decode c (readBytes s la.loc (32 - x.pc.toNat % 32)) = .ok (i, n) → step s = exec i s) ∧
        (decode c (readBytes s la.loc (32 - x.pc.toNat % 32)) = .error .truncated →
          step s = .next (trapAt s x cFETCHX x.path 0 x.pc.toNat 3)) ∧
        (∀ r, r ≠ .truncated → decode c (readBytes s la.loc (32 - x.pc.toNat % 32)) = .error r →
          step s = .next (trapAt s x cILLENC x.path 0 x.pc.toNat 3))) ∧
      (∀ la, landVirtual s w want x.pc.toNat = .ok la → s.mem.anyPoison la.loc (32 - x.pc.toNat % 32) = true →
        step s = .next (trapAt s x cPOISON x.path 0 x.pc.toNat 3)) ∧
      (∀ b, landVirtual s w want x.pc.toNat = .error b →
        step s = .next (trapAt s x (if b.cause = cSHARETAG ∨ b.cause = cSPACE then cPROT else b.cause) x.path 0 b.addr 3))) ∧
    (turnEnv s 0x58 plainFields 0 = none → s.turn ≠ .none → step s = .next { s with turn := donorTurn (donorsOf s.turn) }) ∧
    (∀ e rest, s.turn = .none → s.agenda = e :: rest → isEvent e = true → step s = exec e { s with agenda := rest }) ∧
    (∀ e, s.turn = .none → s.agenda = [] → nextEvent s = some e → isEvent e = true → step s = exec e s) ∧
    (s.turn = .none → s.agenda = [] → nextEvent s = none → step s = .next (tick s))

/-- R73, R74, R86, R87 and the worked encodings of the spec: words written out bit by bit from the layouts decode to the
instructions that they stand for. -/
def Obligations.WordsDecodeToTheirInstructions : Prop :=
  let thread (bs : List Byte) (i : Instr) (n : Nat) : Prop := decode Ctx.thread bs = .ok (i, n)
  let z : Fields := plainFields
  thread [0x8D, 0x8C, 0xA0, 0x60, 0x01, 0x83, 0x06, 0x0A]
    (.ffma { z with g := true, pred := 3, d := 0x00A, a := 0x00B, b := 0x00C, c := 0x00D, t := 0x0A }) 8 ∧
  thread [0x66, 0x00, 0x10, 0x00, 0x00, 0x80, 0xFF, 0x00, 0x00, 0x00, 0x80, 0x3F] (.mov { z with d := 1, c := 0x1FF, ext := .lit 0x3F800000 }) 12 ∧
  thread [0x0C, 0x03, 0x03, 0xFC] (.addImmC32 { d := 3, a := 3, b := 0xFC }) 4 ∧
  thread [0x41, 0x01, 0x00, 0x80, 0xFF, 0xFF, 0xFF, 0xFF] (.bra { g := false, n := false, pred := 0, la := 0, d := 0, off := -4 }) 8 ∧
  thread [0x81, 0x01, 0x40, 0x80, 0x02, 0x19, 0x20, 0x00] (.ld { z with d := 0x004, a := 0x014, b := 0x064, c := 64 }) 8 ∧
  thread [0x41, 0x02, 0x80, 0xB5, 0xAA, 0xD5, 0x44, 0x00] (.cpy { z with d := 0x158, a := 0x155, b := 0x156, c := 0x089 }) 8 ∧
  thread [0x83, 0x02, 0x00, 0x00, 0x02, 0x06, 0xBC, 0x0C, 0x0C, 0x04, 0x02, 0x00, 0x00, 0x00, 0x00, 0x00]
    (.mmr { z with a := 0x010, b := 0x018, c := 0x178, t := 0x0C, ext := .wide 0x2040C }) 16 ∧
  thread [0x95, 0x02, 0x80, 0x00, 0x00, 0x10, 0x8B, 0x4A] (.ald { z with d := 0x008, b := 0x040, c := 0x116, t := 0x0A, m := 2 }) 8 ∧
  thread [0x87, 0x02, 0x00, 0xD6, 0xEB, 0x57, 0x00, 0x00, 0x00, 0x01, 0x00, 0x00, 0x00, 0x00, 0x00, 0x00]
    (.mms { z with d := 0x160, a := 0x15E, b := 0x15F, ext := .wide 0x100 }) 16 ∧
  thread [0xC5, 0x02, 0x00, 0x00, 0x21, 0x00, 0x03, 0x0A] (.rqs { z with a := 0x108, c := 0x006, t := 0x0A }) 8 ∧
  thread [0x0D, 0x03, 0xA0, 0x40, 0x00, 0x80, 0x01, 0x11] (.smask { z with d := 0x00A, a := 0x002, c := 0x003, t := 0x11 }) 8 ∧
  thread [0x11, 0x03, 0x10, 0x57, 0x01, 0x00, 0x00, 0x11] (.sxch { z with d := 0x171, a := 0x00A, t := 0x11 }) 8 ∧
  thread [0x45, 0x03, 0x60, 0x80, 0x02, 0x01, 0x04, 0x04] (.psig { z with d := 0x006, a := 0x014, b := 0x004, c := 8, t := 0x04 }) 8 ∧
  thread [0x81, 0x8B, 0x00, 0x00, 0x00, 0x80, 0x03, 0x00] (.trap { z with g := true, pred := 2, c := 7 }) 8 ∧
  thread [0x85, 0x03, 0x00, 0x00, 0x00, 0x00, 0x00, 0x00] (.rte z) 8 ∧
  thread [0x00, 0x00, 0x00, 0x00] (.nopC32 { d := 0, a := 0, b := 0 }) 4 ∧
  decode Ctx.thread (List.replicate 32 0xFF) = .error .opcode

/-- R71, R72, R73: decoding what the encoder writes gives the instruction back, with its length, for every well-formed
instruction and every value of its operands, whatever follows it; and an encoding has the length that its first bits say. -/
def Obligations.DecodingGivesBackWhatWasEncoded : Prop :=
  ∀ (x : Ctx) (i : Instr) (rest : List Byte), isEvent i = false → checkInstr x i = none →
    ∃ bs, encode i = some bs ∧ decode x (bs ++ rest) = .ok (i, bs.length) ∧
      (bs.length = 4 ∨ bs.length = 8 ∨ bs.length = 12 ∨ bs.length = 16) ∧ bs.length = 4 * ((bs.headD 0).toNat % 4 + 1)

/-- R4, R24, R41, R44, R117, R131, R278, R368, R369, R370, R402, R408: what power-up leaves: no partition, no launch, nothing placed, firmware not running, no unit fenced on
its own; and the register values that the spec states for a partition, a group and a stroke when they come to be. Nothing else
is claimed of reset (log 13). R195: at reset every memory is in canonical form, and a byte of it that nothing has written reads
as the model's empty byte (log 4, the model's choice). -/
def Obligations.ResetLeavesTheStatedValues : Prop :=
  (State.reset.sys.stage = .off ∧ State.reset.parts = [] ∧ State.reset.launches = [] ∧ State.reset.groups = [] ∧ State.reset.strokes = [] ∧
   State.reset.ctxs = [] ∧ State.reset.sys.log = [] ∧ State.reset.sys.keys = [] ∧ State.reset.sys.pwrCap = 4000 ∧
   State.reset.gate.sessions = [] ∧
   (let c : PartCr := {}
    c.nbvVer = 2 ∧ c.cvto = 0x100000 ∧ c.mtab = 0 ∧ c.mtabSz = 0 ∧ c.convArena = 0 ∧ c.dispFault = 0 ∧ c.trapBase = 0) ∧
   (let st : Stroke := { group := 0, index := 0 }
    st.rm = 0 ∧ st.ftz = false ∧ st.amemBit = false ∧ st.cause = 0 ∧ st.addr = 0 ∧ st.mask = 0 ∧ st.handler = false)) ∧
  (State.reset.mem.wf = true ∧ ∀ a, memByte State.reset.mem.u a = Config.emptyByte ∧ memByte State.reset.mem.c a = Config.emptyByte ∧
     memByte State.reset.mem.d a = Config.emptyByte ∧ memByte State.reset.mem.g a = Config.emptyByte ∧ memByte State.reset.mem.h a = Config.emptyByte)

/-- R195: every step of the machine, whichever instruction or event it is, keeps every memory in canonical form (log 4, the
model's form of it), so that memories with equal bytes are equal. -/
def Obligations.EveryStepKeepsMemoryCanonical : Prop :=
  (∀ s t, s.mem.wf = true → step s = .next t → t.mem.wf = true) ∧
  (∀ m n : Memory, memWf m = true → memWf n = true → (∀ a, memByte m a = memByte n a) → m = n)


/-! ## Launches and placement -/

/-- R28, R29, R31: a packet enters the tail of its class's queue, or is discarded and counted. R15, R31: the head of a queue is
checked, and is rejected with its code, held, or goes on. R32, R33: a launch waits for its counter and its start time, then
becomes eligible. R18, R30, R31, R374, R389: a launch whose groups have all gone writes its status word, decrements its
successor's counter, and is over; a counter that comes to 0 enqueues its task. R44, R45: a task without a method is delivered to
the fault block, now or when that has room. That REJECTS wraps at 2^32, and that heads are checked and counters polled while the
partition is descheduled, are the model's choices (log 28). -/
def Obligations.LaunchesAreQueuedCheckedReleasedAndEnded : Prop :=
  ((∀ (s : State) (fw : Bool) (part off : Nat) (data : List Byte) (p : Partition), s.part? part = some p → off ≤ 0x7F → 0x80 ≤ off + data.length →
     let port : LaunchPort := if fw then p.fwPort else p.port
     let buf := bufferPut port.buffer off data
     let l := packetLaunch s.nextId part buf false none
     let full : Prop := queueRoom s part l.cls = 0
     let port' : LaunchPort := { buffer := buf, lastCls := l.cls, rejects := open Classical in if full then (port.rejects + 1) % 2 ^ 32 else port.rejects }
     let put (s : State) : State := s.modPart part (fun p => if fw then { p with fwPort := port' } else { p with port := port' })
     (full → exec (.packetClose ⟨fw, part⟩ off data) s = .next (put s)) ∧
     (¬ full → exec (.packetClose ⟨fw, part⟩ off data) s = .next (enqueueLaunch { put s with nextId := s.nextId + 1 } l))) ∧
   (∀ (buf data : List Byte) (off i : Nat), i < 128 → (bufferPut buf off data)[i]? =
     some (if off ≤ i ∧ i < off + data.length then (data[i - off]?).getD 0 else (buf[i]?).getD 0)) ∧
   (∀ (s : State) (l : Launch) (p : Partition), s.part? l.part = some p → ∃ q, (enqueueLaunch s l).part? l.part = some q ∧
     (enqueueLaunch s l).launch? l.id = some l ∧ q = { p with queues := q.queues } ∧
     ∀ c : Nat, q.queues[c]? = (p.queues[c]?).map (fun ids => if c = l.cls then ids ++ [l.id] else ids)) ∧
   (∀ (s : State) (part cls : Nat) (p : Partition) (l : Launch) (rest : List Nat), s.part? part = some p →
     p.queues[cls]? = some (l.id :: rest) → s.launch? l.id = some l →
     let goes (t : State) : Prop := exec (.launchCheck part cls) s = .next t
     (p.failed = true → l.phase = .queued ∨ l.phase = .checked → goes (rejectLaunch s l.id 6)) ∧
     (p.failed = false → l.phase = .checked → goes (goOn s l)) ∧
     (p.failed = false → l.phase = .queued →
       (∀ n, checkLaunch s l = .error (.code n) → goes (rejectLaunch s l.id n)) ∧
       (∀ b, checkLaunch s l = .error (.hold b) → goes (launchFault s l b)) ∧
       (∀ k, checkLaunch s l = .ok k → goes (goOn (dropCode s) k)))) ∧
   (∀ (s : State) (l : Launch),
     let waits : Prop := l.waitAddr ≠ 0 ∨ (l.timed = true ∧ s.ns < l.tstart)
     let put (k : Launch) : State := { s with launches := mapPut s.launches l.id k }
     (¬ waits → goOn s l = put { l with phase := .eligible, late := l.timed && decide (l.tstart < s.ns) }) ∧
     (waits → holdRoom s l.part = false → goOn s l = put { l with phase := .checked }) ∧
     (holdRoom s l.part = true → l.waitAddr ≠ 0 → goOn s l = pollHeld (joinHold s l) l.id) ∧
     (holdRoom s l.part = true → l.waitAddr = 0 → waits → goOn s l = satisfied (joinHold s l) { l with phase := .held }) ∧
     (l.timed = false → satisfied s l = releaseHeld (put { l with phase := .eligible }) { l with phase := .eligible })) ∧
   (∀ (s : State) (l : Launch), l.isTask = false → l.poisoned = true ∨ packetOk l.packet = false → checkLaunch s l = .error (.code 1)) ∧
   (∀ (s : State) (part id : Nat) (p : Partition) (l : Launch) (bs : List Byte), s.part? part = some p → p.hold = [id] → s.launch? id = some l →
     l.phase = .held → l.nomethod = none → hubRead s l.part l.ended l.waitAddr.toNat 8 [0, 1, 2] = .ok bs →
     exec (.waitCounterPoll part) s = .next (if l.waitVal ≤ bytesNat bs then satisfied s l else s)) ∧
   (∀ (s : State) (id : Nat) (p : Partition) (l : Launch), s.launch? id = some l → l.phase = .eligible → l.timed = true → s.part? l.part = some p →
     id ∈ p.hold → l.tstart ≤ s.ns → exec (.timedStart id) s = .next (releaseHeld s l))) ∧
  ((∀ (s : State) (id : Nat) (l : Launch), s.launch? id = some l → l.id = id → l.phase = .resident → l.coll = none →
     let done : Prop := l.gone = l.placed ∧ ∀ e ∈ s.scheds, ∀ r ∈ e.2.ranges, r.launch ≠ id
     (done → exec (.launchRetire id) s = .next (afterEnd (concludeLaunch
       (s.modLaunch id (fun l => { l with phase := .ending, code := if l.failed then 6 else 0 })) id) l)) ∧
     (¬ done → exec (.launchRetire id) s = .next s)) ∧
   (∀ (s : State) (id : Nat) (l : Launch), s.launch? id = some l → l.phase = .ending → l.succ = 0 → l.succErr = false →
     let l' : Launch := { l with phase := .signalled }
     let put (t : State) : State := { t with launches := mapPut t.launches id l' }
     (l.status = 0 → concludeLaunch s id = endLaunch (put s) l') ∧
     (∀ ls, l.status ≠ 0 → hubReach s l.part l.ended l.status.toNat 8 .store [0, 1, 2] = .ok ls →
       concludeLaunch s id = endLaunch (put (writePlaces s ls (natBytes 8 (statusWord l)))) l') ∧
     (l.status ≠ 0 → hubReach s l.part l.ended l.status.toNat 8 .store [0, 1, 2] = .error .gone →
       concludeLaunch s id = endLaunch (put (countUp s l.part 8 1)) l') ∧
     (∀ b, l.status ≠ 0 → hubReach s l.part l.ended l.status.toNat 8 .store [0, 1, 2] = .error (.hold b) →
       concludeLaunch s id = launchFault s l b)) ∧
   (∀ l : Launch, l.code < 256 → statusWord l / 2 ^ 56 = l.code ∧ (statusWord l).testBit 51 = l.late ∧ (statusWord l).testBit 50 = l.skew ∧
     (statusWord l).testBit 49 = l.succErr ∧ (statusWord l).testBit 48 = l.conv ∧ statusWord l % 2 ^ 48 = l.good % 2 ^ 32) ∧
   (∀ (s : State) (l : Launch) c, waitBlock s l l.succ.toNat 8 .atomic = .ok c →
     let n := bytesNat (readPlaces s c)
     let t := writePlaces s c (natBytes 8 (n - 1))
     ((∃ p ∈ c, s.mem.anyPoison p.1 p.2 = true) ∨ n = 0 → decrement s l = .fails) ∧
     ((∀ p ∈ c, s.mem.anyPoison p.1 p.2 = false) → 1 < n → decrement s l = .made t) ∧
     ∀ hs ls, (∀ p ∈ c, s.mem.anyPoison p.1 p.2 = false) → n = 1 → waitBlock s l l.succ.toNat 64 .load = .ok hs →
       waitBlock s l l.succ.toNat 128 .load = .ok ls → ∃ bad, decrement s l = .zero t (readPlaces s hs ++ (readPlaces s ls).drop 64) bad ∧
         (bad = true ↔ ∃ p ∈ ls, s.mem.anyPoison p.1 p.2 = true)) ∧
   (∀ (s : State) (l : Launch) (id : Nat) (bs : List Byte) (bad : Bool), let t := blockTask s l id bs bad
     t.isTask = true ∧ t.record = bs.drop 64 ∧ t.poisoned = bad ∧ t.recAddr = BitVec.ofNat 64 (l.succ.toNat + 64) ∧ (bad = true → checkLaunch s t = .error (.code 1))) ∧
   (∀ (s : State) (id b : Nat) (l t : Launch), s.launch? id = some l → l.blocked = some b → s.launch? b = some t → 0 < queueRoom s t.part t.cls →
     exec (.successorEnqueue id) s =
       .next (afterEnd (concludeLaunch ((enqueueLaunch s t).modLaunch id (fun l => { l with blocked := none })) id) l)) ∧
   (∀ (s : State) (id w : Nat) (l : Launch), s.launch? id = some l → l.nomethod = some w →
     exec (.nomethodRetry id) s = .next (deliverNomethod s l w)) ∧
   (∀ (s : State) (l : Launch) (w : Nat) (p : Partition), s.part? l.part = some p → p.cr.dispFault.toNat / 128 = 0 →
     deliverNomethod s l w = rejectLaunch (s.modPart l.part (fun p => { p with errors := p.errors ++ [(0x13, l.id)] })) l.id 7))

/-- R27: a class hands out when no higher one of its partition can; a task that a full hold list keeps at the head blocks its class alone, as a
COR launch does. R35 to R38: ranges go to the cluster with the most free slots, a COR launch is placed whole or not at all, and groups take a
core with room, their first lanes at the thread entry. R39, R407: sensors decide which cores are avoided, and a reading of 115
degrees powers the module off. R46, R47: an idle cluster
takes half of another's unstarted tasks, newest first. -/
def Obligations.WorkIsHandedOutPlacedAndStolen : Prop :=
  (∀ (s : State) (part cls : Nat), (mayHand s part cls = true ↔ ∃ p, s.part? part = some p ∧ p.scheduled = true ∧ p.failed = false ∧
      canHand s part cls = true ∧ (∀ c, c < cls → canHand s part c = false) ∧
      (p.served < p.weight ∨ ∀ e ∈ s.parts, e.2.weight ≤ e.2.served ∨ servable s e.1 = false)) ∧
    (candidate s part cls = none → canHand s part cls = false) ∧
    ∀ l, candidate s part cls = some l → (l.nomethod.isSome = true → holdRoom s part = false → canHand s part cls = false) ∧
      (l.nomethod = none → (l.cor = false ∨ needsMethod l = true → (canHand s part cls = true ↔ ∃ c ∈ clustersOf s part, rangeRoom s c = true)) ∧
        (l.cor = true → needsMethod l = false → (canHand s part cls = true ↔ assignAll s l ≠ none ∨ fitsEmpty s l = false)))) ∧
  (∀ (s : State) (part cls c : Nat) (rest : List Nat) (l : Launch), candidate s part cls = some l → mayHand s part cls = true → l.cor = false →
    inOrder s ((clustersOf s part).filter (rangeRoom s)) = c :: rest →
    let k := if l.isTask then { l with cluster := c } else l
    let u := { s with launches := mapPut s.launches k.id k }
    (∀ t, dispatchTask u k = .done t → exec (.rangeHandout part cls) s = .next t) ∧
    (∀ m, dispatchTask u k = .place m → exec (.rangeHandout part cls) s = .next (handRange (countRanges u part 1) m c))) ∧
  (∀ (s : State) (l : Launch) (c : Nat), let n := min 64 (l.total - l.next)
    (mapGet (handRange s l c).scheds c {}).ranges = (mapGet s.scheds c {}).ranges ++ [⟨l.id, l.next, n⟩] ∧
    (rangeRoom s c = true → (mapGet (handRange s l c).scheds c {}).ranges.length ≤ 16) ∧
    (∀ d, d ≠ c → mapGet (handRange s l c).scheds d {} = mapGet s.scheds d {}) ∧ (l.isTask = false → dispatchTask s l = .place l)) ∧
  (∀ (s : State) (cs rest : List Nat) (c : Nat), inOrder s cs = c :: rest → c ∈ cs ∧ ∀ d ∈ cs, clusterFree s d ≤ clusterFree s c) ∧
  (∀ (s t : State) (part cls : Nat) (l : Launch), candidate s part cls = some l → mayHand s part cls = true → l.cor = true →
    needsMethod l = false → beforeFirst s l = .ok t →
    (∀ v, assignAll t l = some v → exec (.corPlacement part cls) s = .next (unlist ((countRanges v part ((l.total + 63) / 64)).modLaunch l.id
      (fun l => { l with next := l.total, phase := .resident })) part l.id)) ∧
    (assignAll t l = none → fitsEmpty s l = false → exec (.corPlacement part cls) s = .next (rejectLaunch s l.id 5))) ∧
  (∀ (s : State) (part cls : Nat) (l : Launch), candidate s part cls = some l → l.cor = true → needsMethod l = false →
    assignAll s l = none → fitsEmpty s l = true → exec (.corPlacement part cls) s = .next s) ∧
  (∀ (s t : State) (c : Nat) (r : Range) (l : Launch), let x := mapGet s.scheds c {}
    firstRange s (x.ranges.filter (fun r => !x.transit.contains r)) = some r → s.launch? r.launch = some l → beforeFirst s l = .ok t →
    (∀ v, placeIn t l c r.first = some v → exec (.groupPlacement c) s =
      .next { v with scheds := mapPut v.scheds c ((mapGet v.scheds c {}).advance r) }) ∧
    (placeIn t l c r.first = none → exec (.groupPlacement c) s = .next s)) ∧
  (∀ (s t : State) (l : Launch) (k lin : Nat), placeGroup s l k lin = some t → 0 < l.dims.gx → 0 < l.dims.gy → l.dims.strokes ≤ 32 →
    ∃ slot gr, slot < 8 ∧ s.group? (8 * k + slot) = none ∧ t.group? (8 * k + slot) = some gr ∧ gr.part = l.part ∧ gr.strokes = l.dims.strokes ∧
      gr.units = l.units ∧ gr.banks.length = l.banks ∧ gr.ubase + gr.reserve ≤ 393216 ∧
      gr.gx + l.dims.gx * (gr.gy + l.dims.gy * gr.gz) = lin ∧
      (∀ c, l.kern.scribe = some c → ∃ x, t.ctx? (8 * k + slot) = some x ∧ x.pc = c) ∧ (l.kern.scribe = none → t.ctx? (8 * k + slot) = none) ∧
      (∀ (j : Nat) (o : Dword), l.kern.streams[j]? = some o → o.getLsbD 63 = true → o.getLsbD 62 = false →
        readBytes t { home := .u, addr := uBase k + gr.ubase + o.toNat % 2 ^ 32 } 16 = natBytes 12 0 ++ natBytes 4 1 ∨
        ∃ (j' : Nat) (o' : Dword), l.kern.streams[j']? = some o' ∧ o'.getLsbD 63 = true ∧ o'.getLsbD 62 = false ∧ o'.toNat % 2 ^ 32 ≠ o.toNat % 2 ^ 32 ∧
          o.toNat % 2 ^ 32 < o'.toNat % 2 ^ 32 + 128 ∧ o'.toNat % 2 ^ 32 < o.toNat % 2 ^ 32 + 128) ∧
      ∀ i n, i < gr.strokes → n < 32 → ∃ st y, t.stroke? (32 * (8 * k + slot) + i) = some st ∧ st.lanes[n]? = some y ∧ y.pc = l.kern.thread ∧
        (y.helper = true ↔ l.dims.tx * l.dims.ty * l.dims.tz ≤ 32 * i + n)) ∧
  (∀ (s : State) (k t : Nat), running s = true → 115 ≤ t → exec (.sensorSample (clusterOf k) [(k, some t)]) s = .next (powerOff s)) ∧
  (∀ (s : State) (k : Nat) (v : Option Nat), running s = true → (∀ t, v = some t → t < 115) →
    let hot (x : Core) : Bool := match v with
      | none => true
      | some t => decide (s.sys.tHot ≤ t) || (decide (s.sys.tHot - s.sys.hyst < t) && (x.hot || x.temp.isNone))
    exec (.sensorSample (clusterOf k) [(k, v)]) s = .next (s.modCore k (fun x => { x with temp := v, hot := hot x }))) ∧
  (∀ k, Leads (.droopEvent k) (fun s => running s = true) (fun s => s.modCore k (fun x => { x with
    droops := x.droops + 1, droopy := x.droopy || decide (s.sys.dMax < x.droops + 1) }))) ∧
  (∀ c, Leads (.droopWindowEnd c) (fun s => running s = true) (fun s => { s with cores := s.cores.map (fun e =>
    if clusterOf e.1 = c then (e.1, { e.2 with droopy := decide (s.sys.dMax < e.2.droops), droops := 0 }) else e) })) ∧
  (∀ (s : State) (c part v : Nat), let x : Sched := mapGet s.scheds c {}
    hasRunnable s x = false → x.steal = none → 2 ≤ allFree s c → FenceUnit.cluster c ∉ s.sys.fences ++ s.sys.fencing →
    (ringAfter ((s.part? part).elim [] (·.ring)) c)[mapGet x.tried part 0]? = some v →
    exec (.stealRequest c part) s = .next { s with scheds := mapPut s.scheds c { x with steal := some { part := part, victim := v } } }) ∧
  (∀ (s : State) (c : Nat) (q : Steal), let x : Sched := mapGet s.scheds c {}
    let v : Sched := mapGet s.scheds q.victim {}
    let us := v.ranges.filter (fun r => isTaskRange s q.part r && !v.transit.contains r)
    let sent := us.reverse.take (min (16 - x.ranges.length) (min 16 (us.length / 2)))
    x.steal = some q → q.reply = none → q.victim ≠ c →
    let empty : Sched := { x with steal := none, tried := mapPut x.tried q.part (mapGet x.tried q.part 0 + 1) }
    let given : Sched := { x with steal := some { q with reply := some sent } }
    exec (.stealReply c) s = .next (if us.length < 2 ∨ 16 ≤ x.ranges.length then { s with scheds := mapPut s.scheds c empty }
      else { s with scheds := mapPut (mapPut s.scheds q.victim { v with transit := v.transit ++ sent }) c given })) ∧
  (∀ (s : State) (c v part : Nat) (rs : List Range), (mapGet s.scheds c {}).steal = some ⟨part, v, some rs⟩ → v ≠ c →
    ∃ t, exec (.stealAck c) s = .next t ∧
      (∀ r, r ∈ (mapGet t.scheds v {}).ranges ↔ r ∈ (mapGet s.scheds v {}).ranges ∧ r ∉ rs) ∧
      (∀ r, r ∈ (mapGet t.scheds c {}).ranges ↔ r ∈ (mapGet s.scheds c {}).ranges ∨ (r ∈ rs ∧ r ∈ (mapGet s.scheds v {}).ranges)) ∧
      (mapGet t.scheds c {}).steal = none)


/-! ## The mesh, the nibs and the scribe -/

/-- R52 to R54: a route runs straight from turn to turn, turns only at full sites, and a packet between cores with odd
differences is bounced beside its destination. R48, R49, R55: every site has a core or a slice, every gateway its base die. R50, R66: a
transfer is sent in packets of 128 bytes, each with LCRC over them. R57, R58, R60, R61, R65: strides, which end before the router at which the claim loses, relay legs, dropped flits. R66, R67:
a payload whose check fails is written with poison, and gateways carry on what they are given. -/
def Obligations.PacketsFollowTheirRoutes : Prop :=
  (∀ a d : Site, siteOk a = true → siteOk d = true → a ≠ d →
    let r := routeRuns a d
    r.1.getLast? = some (if r.2 then ((if a.1 < d.1 then d.1 - 1 else d.1 + 1), d.2) else d) ∧ r.1.length ≤ 3 ∧
    (r.2 = true ↔ fullSite a = true ∧ fullSite d = true ∧ (a.1 + d.1) % 2 = 1) ∧
    (∀ w ∈ r.1.dropLast, w = a ∨ (w.1 + w.2) % 2 = 0) ∧
    (∀ (l m : List Site) (p q : Site), a :: r.1 = l ++ p :: q :: m → p.1 = q.1 ∨ p.2 = q.2)) ∧
  (∀ p : Site, siteOk p = true → let k := 8 * p.2 + p.1 / 2
    if (p.1 + p.2) % 2 = 0 then siteOf (.core k) = p else siteOf (.slice k) = p) ∧
  (∀ (c b ch : Nat), b / 3 = c / 2 → ∃ g, g < 24 ∧ g % 3 = b % 3 ∧ agentFor c (.base b ch) = .gateway g) ∧
  (∀ (s : State) (c : Nat) (p : Packet),
    (∀ vn, c < 8 → agentOk p.src = true → placeOk p.dst = true → p.dst ≠ .agent c p.src → networkOf s c p.src p.serves = some vn →
      maySend (s.mesh c) vn p = true →
      let from_ := siteOf p.src
      let to_ := siteOf (agentFor c p.dst)
      let bounce := (routeRuns from_ to_).2
      let bs := if classOf p.msg = 1 then [] else (sourceOf s p).1
      ∃ t fs, exec (.packetInjection c p) s = .next t ∧ t.mem = s.mem ∧ t.strokes = s.strokes ∧ (t.mesh c).flits = (s.mesh c).flits ++ fs ∧
        fs.length = (if bs = [] then 1 else (bs.length + 127) / 128) ∧
        ∀ i f, fs[i]? = some f → f.vn = vn ∧ f.cls = classOf p.msg ∧ f.ocls = classOf p.msg ∧ f.data = (bs.drop (128 * i)).take 128 ∧
          f.lcrc = crc32c (f.data ++ List.replicate (128 - f.data.length) 0) ∧ f.psn = (sourceOf s p).2 ∧ f.rly = bounce ∧ f.src = from_ ∧
          f.at_ = from_ ∧ f.place = .inject ∧ (bounce = false → f.dst = to_) ∧
          (bounce = true → f.fin = to_ ∧ f.dst = (besideCol from_.1 to_.1, to_.2))) ∧
    (networkOf s c p.src p.serves = none → exec (.packetInjection c p) s = .next s)) ∧
  (∀ (s : State) (c id : Nat) (f : MeshFlit), findFlit s c id = some f →
    let m := s.mesh c
    let goes (e : Instr) (ok : State → Prop) : Prop := ∃ t, exec e s = .next t ∧ t.strokes = s.strokes ∧ ok t
    let onTheWay : Prop := f.place ≠ .relay ∧ f.place ≠ .eject
    (∀ d q pl, onTheWay → wants f = some d → (strideOf s m f d f.at_).1.getLast? = some (q, pl) → goes (.stride c id .clean) (fun t => t.mem = s.mem ∧
      ∃ ls, findFlit t c id = some { f with at_ := q, place := pl, phase := nextPhase f, moved := some s.cycle, losses := ls })) ∧
    (∀ d, onTheWay → wants f = some d → (strideOf s m f d f.at_).1 = [] → exec (.stride c id .clean) s = .next s) ∧
    (onTheWay → goes (.stride c id .badPayload) (fun t => ∃ g, findFlit t c id = some g ∧ g.psn = true ∧ g.data = f.data)) ∧
    (onTheWay → goes (.stride c id .badHeader) (fun t => findFlit t c id = none ∧ t.sys.machineChecks = s.sys.machineChecks ++ [c])) ∧
    (∀ d q pl, f.place = .relay → wants (legOf f) = some d → (strideOf s m (legOf f) d f.at_).1.getLast? = some (q, pl) →
      goes (.relayLeg c id .clean) (fun t => t.mem = s.mem ∧ ∃ g, findFlit t c id = some g ∧ g.at_ = q ∧ g.cls = 3 ∧ g.ocls = f.ocls ∧
        g.src = f.src ∧ g.dst = f.fin ∧ g.rly = false ∧ g.vn = f.vn ∧ g.data = f.data)) ∧
    (∀ l q chk, f.place = .eject → headOf c m f = true → atHome c f = true → takes m (agentHere c f) f = true → f.packet.line = some l →
      classOf f.packet.msg = 2 → holdsLine f.packet.dst l = true → linePlace l = some q →
      let bad : Prop := f.psn = true ∨ f.lcrc ≠ crc32c (f.data ++ List.replicate (128 - f.data.length) 0)
      let v := (if f.packet.msg = .copyBeat then writeCopy else writeBytes) s { home := q.1, addr := 128 * q.2, key := f.packet.key } f.data
      goes (.stride c id chk) (fun t => findFlit t c id = none ∧ (∀ k, t.mem.home k = v.mem.home k) ∧ (bad → t.mem.poisoned q.1 q.2 = true) ∧
        (¬ bad → t.mem = v.mem))) ∧
    (f.place = .eject → atHome c f = false → ∀ k, let key := portKey f.at_ 4
      let cs := gateClaims s c f
      grantAt s m key cs = some k → k.flit.id = f.id →
        exec (.gatewayForward c id) s = .next (passFar (s.modMesh c (fun m => (m.grant s key cs k.flit).drop f.id)) c f))) ∧
  (∀ (s : State) (c k : Nat) (f : MeshFlit) (a : MeshAgent), f.packet.dst = .agent k a → ∃ g,
    ((passFar s c f).mesh k).flits = (s.mesh k).flits ++ [g] ∧ g.vn = f.vn ∧ g.cls = f.ocls ∧ g.data = f.data ∧ g.psn = f.psn ∧ g.lcrc = f.lcrc ∧
    g.src = siteOf (agentHere c f)) ∧
  (∀ (s : State) (m : Mesh) (key : Nat) (cs : List Claim) (c : Claim), grantAt s m key cs = some c → c ∈ cs ∧ portFree s m key = true ∧
    (∀ a ∈ cs, a.flit.vn = c.flit.vn → a.flit.cls = c.flit.cls → 8 ≤ mapGet a.flit.losses key 0 → 8 ≤ mapGet c.flit.losses key 0) ∧
    (mapGet c.flit.losses key 0 < 8 → ∀ a ∈ cs, a.flit.vn = c.flit.vn → a.flit.cls = c.flit.cls → c.dist ≤ a.dist)) ∧
  (∀ (s : State) (m : Mesh) (f : MeshFlit) (d : Nat) (p : Site), (strideOf s m f d p).1.length ≤ 8 ∧
    (winner s m d 24 p = none → strideOf s m f d p = ([], some p)) ∧
    ∀ q, (strideOf s m f d p).2 = some q → ∀ c, winner s m d 24 q = some c → c.flit.id ≠ f.id)

/-- R69, R212: code lines and translations come into their caches. R95 to R98, R100, R103, R253: nibs and the scribe pick what
is ready, a path is the lanes at one PC, and the eligible lanes that do not issue age. R78: a lane at the limit of 8 waits for the oldest. R104, R105: what donors may join it. R78, R306, R327: results land. R243, R354: a poll that
finds its condition lets the stroke go on. -/
def Obligations.NibsAndUnitsGoOn : Prop :=
  (∀ (s : State) (core line : Nat), let c := s.core core
    (line ∈ c.icache → exec (.icacheFill core line) s = .next s) ∧
    (line ∉ c.icache → c.icache.length < 512 → exec (.icacheFill core line) s = .next (s.modCore core (fun c => { c with icache := c.icache ++ [line] }))) ∧
    (line ∉ c.icache → c.icache.length = 512 →
      exec (.icacheFill core line) s = .next (s.modCore core (fun c => { c with icache := c.icache.tail ++ [line] })))) ∧
  (∀ (s : State) (part core : Nat) (va : Dword), (∀ e, walkPage s part va.toNat = .ok e → ∃ t, exec (.walkComplete part core va) s = .next t ∧
      e ∈ (t.core core).tlb ∧ e ∈ mapGet t.shared (core / 192) [] ∧ t = { s with cores := t.cores, shared := t.shared }) ∧
    (∀ e, walkPage s part va.toNat = .error e → exec (.walkComplete part core va) s = .next s)) ∧
  (∀ (s : State) (part : Nat), ∃ t, exec (.tlbInvalidate part) s = .next t ∧ t = { s with cores := t.cores, shared := t.shared } ∧
    ∀ (k : Nat) (e : TlbEntry), (e ∈ (t.core k).tlb ↔ e ∈ (s.core k).tlb ∧ e.part ≠ part) ∧
      (e ∈ mapGet t.shared k [] ↔ e ∈ mapGet s.shared k [] ∧ e.part ≠ part)) ∧
  (∀ (s : State) (core nib k : Nat), let c := s.core core
    let act := (c.active[nib]?).getD []
    let pend := (c.pending[nib]?).getD []
    nib < 4 → c.waits.length = 4 → c.active.length = 4 → c.pending.length = 4 → pend.find? (fun k => eligible s k != 0 || (s.stroke? k).any (·.yielded)) = some k →
    (act.length < 8 → ∃ t, exec (.activeSetEntry core nib) s = .next t ∧ (t.core core).active[nib]? = some (act ++ [k]) ∧
      (t.core core).pending[nib]? = some (pend.filter (· ≠ k)) ∧ (t.core core).waits[nib]? = some none) ∧
    (8 ≤ act.length → (∀ n, c.waits[nib]? ≠ some (some (k, n))) → ∃ t, exec (.activeSetEntry core nib) s = .next t ∧ (t.core core).active = c.active ∧
      (t.core core).waits[nib]? = some (some (k, s.cycle))) ∧
    (∀ n, 8 ≤ act.length → c.waits[nib]? = some (some (k, n)) → s.cycle < n + 4 → exec (.activeSetEntry core nib) s = .next s) ∧
    (∀ n, 8 ≤ act.length → act.Nodup → c.waits[nib]? = some (some (k, n)) → n + 4 ≤ s.cycle → ∃ t out, exec (.activeSetEntry core nib) s = .next t ∧
      out ∈ act ∧ (t.core core).active[nib]? = some (act.filter (· ≠ out) ++ [k]) ∧
      (t.core core).pending[nib]? = some (pend.filter (· ≠ k) ++ [out]) ∧
      ∀ j ∈ act, (eligible s j = 0 → eligible s out = 0) ∧ ((eligible s j = 0 ↔ eligible s out = 0) →
        (s.stroke? out).elim 0 (·.lastPick) ≤ (s.stroke? j).elim 0 (·.lastPick)))) ∧
  (∀ (s : State) (k l : Nat) (st : Stroke), l < 32 → s.stroke? k = some st → (eligible s k).getLsbD l = true → stopped s k st = false ∧
    ∃ y, st.lanes[l]? = some y ∧ y.live = true ∧ y.wait = .none ∧ windowShut st.inflight l = false ∧
      ∀ x, planAt s k ((((lanesOf (liveMask st)).filter (fun j => ((st.lanes[j]?).getD {}).wait == .none)).find? (fun j =>
        ((st.lanes[j]?).getD {}).pc == y.pc)).getD 32) = some x → laneHazard s x l = none) ∧
  (∀ (s : State) (core nib k : Nat), let c := s.core core
    let act := (c.active[nib]?).getD []
    let u := (act ++ (c.pending[nib]?).getD []).foldl ageOut s
    let v := u.modCore core (fun c => { c with picked := listPut c.picked nib (s.cycle + 1) })
    let ready (s : State) (j : Nat) : Mask := fetchable s j (eligible s j)
    s.turn = .none → (c.picked[nib]?).getD 0 ≠ s.cycle + 1 → (∀ j ∈ act, leaves s j = false) →
    leastBy (pickKey u) (act.filter (fun k => (readyPaths u k).1 ||| (readyPaths u k).2 != 0)) = some k → (s.stroke? k).isSome = true →
    let ps := readyPaths v k
    ∃ t ds st st', exec (.issueSlot core nib) s = .next t ∧ t.turn = (if ps.1 = 0 then .pathA k ps.2 0 [] else .pathA k ps.1 ps.2 ds) ∧
      v.stroke? k = some st ∧ t.stroke? k = some st' ∧ ps.1 = fetchable v k (pathsOf st (eligible v k)).1 ∧
      ps.2 = fetchable v k (pathsOf st (eligible v k)).2 ∧ (∀ l, (ps.1 ||| ps.2).getLsbD l = true → (ready v k).getLsbD l = true) ∧
      (∀ l y, l < 32 → st.lanes[l]? = some y →
        let n := if (eligible v k).getLsbD l then (if (ps.1 ||| ps.2).getLsbD l then y.aging else y.aging + 1) else 0
        st'.lanes[l]? = some { y with aging := n }) ∧
      ∀ j m, (j, m) ∈ ds → ∀ l, m.getLsbD l = true → ∃ d, (j, d) ∈ donorsFor v k st ps.1 ∧ d.getLsbD l = true) ∧
  (∀ (s : State) (j l : Nat) (st : Stroke), l < 32 → s.stroke? j = some st → ∃ st', (ageOut s j).stroke? j = some st' ∧
    st'.lanes[l]? = (st.lanes[l]?).map (fun y => if (eligible s j).getLsbD l then y else { y with aging := 0 })) ∧
  (∀ (s : State) (k : Nat) (st : Stroke) (a : Mask), s.stroke? k = some st → (donorsFor s k st a).length ≤ 8 ∧
    ∀ j q, (j, q) ∈ donorsFor s k st a → j ≠ k ∧ j / 32 = k / 32 ∧ j ∈ ((s.core (coreOf st.group)).active[k % 4]?).getD [] ∧
      ∃ dt l n, s.stroke? j = some dt ∧ lowest a = some l ∧ n < 8 ∧ q = liveMask dt &&& quadMask n ∧ q ≠ 0 ∧
        ∀ i, q.getLsbD i = true → (eligible s j).getLsbD i = true ∧ pcOf dt i = pcOf st l) ∧
  (∀ (s : State) (k : Nat) (st : Stroke) (a : Mask) (x : Env) (l : Nat), lowest a = some l → planAt s k l = some x →
    st.handler = true ∨ (x.group s).nomerge = true ∨ x.opc ∈ [0x35, 0x36, 0x41, 0x42, 0x43, 0x45, 0x46, 0x47, 0xC3, 0xC4, 0xC9] ∨
      (0xB0 ≤ x.opc ∧ x.opc ≤ 0xB7) → donorsFor s k st a = []) ∧
  (∀ (st : Stroke) (m : Mask), let p := pathsOf st m
    (∀ l, l < 32 → p.1.getLsbD l = true → m.getLsbD l = true ∧ p.2.getLsbD l = false) ∧ (∀ l, p.2.getLsbD l = true → m.getLsbD l = true) ∧
    (∀ l j, l < 32 → j < 32 → p.1.getLsbD l = true → m.getLsbD j = true → (p.1.getLsbD j = true ↔ pcOf st j = pcOf st l)) ∧
    ((∀ l, l < 32 → m.getLsbD l = true → ((st.lanes[l]?).getD {}).aging < 64) →
      ∀ l j, l < 32 → j < 32 → p.1.getLsbD l = true → m.getLsbD j = true → pcOf st l ≤ pcOf st j)) ∧
  (∀ (s : State) (core g : Nat), let c := s.core core
    s.turn = .none → (c.picked[4]?).getD 0 ≠ s.cycle + 1 →
    leastBy (fun g => [(s.ctx? g).elim 0 (·.lastIssue), g]) ((upTo (8 * core) 8).filter (ctxReady s)) = some g →
    ∃ t, exec (.scribeIssue core) s = .next t ∧ t.turn = .ctx g ∧ t.mem = s.mem ∧ t.strokes = s.strokes) ∧
  (∀ (s : State) (k id : Nat) (st : Stroke) (i : InFlight), s.stroke? k = some st → st.inflight.find? (fun i => i.id == id) = some i →
    i.waitFor = 0 → i.engine = false → exec (.longLatencyComplete k id) s = .next (opOver (sampleLatency s k i) k id 0)) ∧
  (∀ (s : State) (k op : Nat) (st : Stroke) (gr : Group) (i : InFlight), s.stroke? k = some st → s.group? st.group = some gr →
    st.inflight.find? (fun i => i.id == op) = some i → (∀ w ∈ i.result, toPort gr w = false) → ∃ st', (completeOp s k op).stroke? k = some st' ∧
    st'.inflight = st.inflight.filter (fun j => j.id ≠ op) ∧ st'.fifo = st.fifo ∧
    ((∀ w ∈ i.result, ∀ y, st.lanes[w.lane]? = some y → y.live = true) → (∀ w ∈ i.result, w.lane < st.lanes.length) →
      st'.regs = st.regs.applyAll (i.result.filter (fun w => !i.void.contains w.reg)))) ∧
  (∀ k, Leads (.summaryComplete k) (fun _ => True) (fun s => unitDone s k .summary)) ∧
  (∀ k, Leads (.smaskComplete k) (fun _ => True) (fun s => unitDone s k .smask)) ∧
  (∀ (s : State) (k : Nat) (st : Stroke) (u : SlowUnit) (ws : List WriteBack), s.stroke? k = some st → st.killed = false → st.busy = [(u, ws)] →
    (∀ y ∈ st.lanes, y.live = true) → st.lanes.length = 32 → (∀ w ∈ ws, w.lane < 32) →
    ∃ st', (unitDone s k u).stroke? k = some st' ∧ st'.busy = [] ∧ st'.regs = st.regs.applyAll ws) ∧
  (∀ (s : State) (k : Nat) (st : Stroke) (l : Loc) (w : Nat) (sg : Bool) (c : Cond) (x : Dword) (m : Mask) (n : Nat), s.stroke? k = some st →
    st.park = some (.waitm l w sg c x m n) → s.mem.anyPoison l (w / 8) = false → absentLines s l (w / 8) = [] →
    let v (n : Nat) : Int := if sg then sext w n else ((n % 2 ^ w : Nat) : Int)
    exec (.waitmPoll k) s = .next (if c.holds (v (bytesNat (loadBytes s st.fifo l (w / 8)))) (v x.toNat) then
      s.modStroke k (fun st => parkPass st m n) else s)) ∧
  (∀ (s : State) (k : Nat) (st : Stroke) (l : Loc) (d : Dword) (m : Mask) (n : Nat), s.stroke? k = some st → st.park = some (.pwait l d m n) →
    exec (.pwaitPoll k) s = .next (if d.toNat ≤ bytesNat (loadBytes s st.fifo l 8) then s.modStroke k (fun st => parkPass st m n) else s)) ∧
  (∀ (st : Stroke) (m : Mask) (n l : Nat), (parkPass st m n).park = none ∧ (parkPass st m n).regs = st.regs ∧
    (parkPass st m n).lanes[l]? = (st.lanes[l]?).map (fun y =>
      if m.getLsbD l then { y with pc := y.pc + BitVec.ofNat 64 n, aging := 0, full := limitOf (parkPass st m n).inflight l } else y)) ∧
  (∀ (is : List InFlight) (l : Nat), (limitOf is l = none ↔ windowShut is l = true ∨ (flights is l).length < 8) ∧
    ∀ o, limitOf is l = some o → ∃ i ∈ is, i.id = o ∧ i.lanes.getLsbD l = true)

/-! ## Copies -/

/-- R256, R258 to R263, R265 to R267, R201: a copy starts with its checks, moves a unit of its bytes at each beat, and ends with
its status word; a beat between share pages and ordinary ones ends it. A remote write lands on an armed line, is held by a present one, and is
dropped after the hold timeout; its sender's store queue then goes on. -/
def Obligations.CopiesMoveBytesAndEnd : Prop :=
  let change (s : State) (id : Nat) (g : Copy → Copy) : List Copy := s.copies.map (fun k => if k.id = id then g k else k)
  let plainKind (c : Copy) : Prop := c.kind = .plain ∨ ∃ op, c.kind = .reduce op
  (∀ (s : State) (id : Nat) (c : Copy), s.copies.find? (fun c => c.id == id) = some c → mayStart s c = true → c.cancel = false →
    (plainKind c → copyOk s c = true → ∃ t, exec (.copyStart id) s = .next t ∧ t.mem = s.mem ∧
      t.copies = change s id (fun k => { k with started := true })) ∧
    (plainKind c → copyOk s c = false → ∃ t, exec (.copyStart id) s = .next t ∧ t.mem = s.mem ∧
      t.copies = change s id (fun k => { k with started := true, fault := true }))) ∧
  (∀ (s : State) (id n : Nat) (c : Copy) (ink : Bool) (l : Loc), s.copies.find? (fun c => c.id == id) = some c → mayStart s c = true → c.cancel = false →
    c.kind = .mcast ink n → c.dBase.toNat % 16 = 0 → uLoc s c.group c.dBase.toNat (16 * n) = some l →
    let ds := (List.range n).map (fun i => mcastDest s c ink (readBytes s (l.plus (16 * i)) 16))
    let ended : List McastDest := ds.map (fun d => { d with code := 1, stopped := true })
    (mcastOk s c ink ds = true → ∃ t, exec (.copyStart id) s = .next t ∧ t.copies = change s id (fun k => { k with started := true, dests := ds })) ∧
    (mcastOk s c ink ds = false → ∃ t, exec (.copyStart id) s = .next t ∧
      t.copies = change s id (fun k => { k with started := true, fault := true, dests := ended })) ∧
    (c.lenBad = true ∨ (∃ b ∈ rangeShares s c.part c.src c.sBase.toNat c.len, b = true) → mcastOk s c ink ds = false)) ∧
  (∀ (s : State) (c : Copy), c.kind = .plain → let d := c.dBase.toNat; let a := c.sBase.toNat
    copyOk s c = true → c.lenBad = false ∧ c.dst ≠ .P ∧ a % 16 = 0 ∧ d % 16 = 0 ∧ c.len % 16 = 0 ∧
      (c.src = c.dst → 0 < c.len → a + c.len ≤ d ∨ d + c.len ≤ a)) ∧
  (∀ (s : State) (id : Nat) (c : Copy) (la lb : List (Loc × Nat)), s.copies.find? (fun c => c.id == id) = some c → mayBeat s c = true →
    slotGranted s c = true → c.kind = .plain →
    let u := takeSlot s c
    let d := c.dBase.toNat
    let lo := max d (64 * (d / 64 + c.beat))
    let hi := min (d + c.len) (64 * (d / 64 + c.beat + 1))
    copyReach u c c.src (c.sBase.toNat + (lo - d)) (hi - lo) .load = .ok la → copyReach u c c.dst lo (hi - lo) .store = .ok lb →
    let zs := rangeShares u c.part c.src (c.sBase.toNat + (lo - d)) (hi - lo) ++ rangeShares u c.part c.dst lo (hi - lo)
    (true ∈ zs → false ∈ zs → exec (.copyBeat id) s = .next (modCopy u id (fun k => { k with started := true, fault := true }))) ∧
    (¬ (true ∈ zs ∧ false ∈ zs) → ∃ t, exec (.copyBeat id) s = .next t ∧ (∀ k, t.mem.home k = (writePlaces u lb (readPlaces u la)).mem.home k) ∧
      (la.any (fun l => u.mem.anyPoison l.1 l.2) = true → ∀ l ∈ lb, l.1.home ≠ .h → t.mem.poisoned l.1.home l.1.line = true) ∧
      (c.dst = .U → hi % 128 = 0 ∨ hi = d + c.len → ∀ l ∈ lb, t.present l.1.line = true) ∧
      ∀ k, t.copies.find? (fun c => c.id == id) = some k → k.beat = c.beat + 1 ∧ k.bytes = c.bytes + (hi - lo))) ∧
  (∀ (s : State) (id : Nat) (c : Copy), s.copies.find? (fun c => c.id == id) = some c →
    (mayBeat s c && slotGranted s c) = false → exec (.copyBeat id) s = .next s) ∧
  (∀ (s : State) (id : Nat) (c : Copy) (x : ScribeCtx) (gr : Group), s.copies.find? (fun c => c.id == id) = some c → plainKind c ∨ (∃ r b, c.kind = .tile r b) →
    c.dests = [] → copyAway s c = false → outstanding s id = false →
    c.fault = true ∨ c.cancel = true ∨ (c.started = true ∧ c.stalled = none ∧ c.beats ≤ c.beat) →
    s.ctx? c.group = some x → mapGet? x.pending c.kS = some id → s.group? c.group = some gr → gr.retired = false → c.bytes < 2 ^ 48 →
    ∃ t y, exec (.copyComplete id) s = .next t ∧ t.mem = s.mem ∧ t.strokes = s.strokes ∧ t.ctx? c.group = some y ∧
      (∀ k ∈ t.copies, k.id ≠ id) ∧ mapGet? y.pending c.kS = none ∧
      y.kGet c.kS = BitVec.ofNat 64 ((if c.fault then 1 else if c.cancel then 3 else if c.poisoned then 4 else 0) * 2 ^ 48 + c.bytes)) ∧
  (∀ (s : State) (id : Nat) (w : RemoteWrite), s.remote.find? (fun w => w.id == id) = some w → w.refused = none → gone s w.part w.core = false →
    (s.present (w.addr / 128) = false → exec (.remoteWriteArrival id) s = .next (landRemote s w)) ∧
    (s.present (w.addr / 128) = true → withdrawn s w = false → exec (.remoteWriteArrival id) s =
      .next { s with remote := s.remote.filter (fun v => v.id != id) ++ [{ w with refused := some s.ns }] }) ∧
    (s.present (w.addr / 128) = true → withdrawn s w = true → exec (.remoteWriteArrival id) s =
      .next { s with remote := s.remote.filter (fun v => v.id != id) })) ∧
  (∀ (s : State) (w : RemoteWrite), ∃ u, landRemote s w = endRemote u w ∧ u.remote = s.remote ∧ u.strokes = s.strokes ∧
    u.mem.u = (((w.addr, w.data) :: w.more).foldl (fun s p => writeBytes s { home := .u, addr := p.1 } p.2) s).mem.u ∧
    (w.spoiled = true → u.mem.poisoned .u (w.addr / 128) = true) ∧ (moreOfLine s w = false → u.present (w.addr / 128) = true)) ∧
  (∀ (s : State) (w : RemoteWrite), let u : State := { s with remote := s.remote.filter (fun v => v.id != w.id) }
    (w.sender = none → endRemote s w = u) ∧
    (∀ k st, w.sender = some (.stroke k) → s.stroke? k = some st → endRemote s w =
      killFinish (retireStroke (u.modStroke k (fun x => { x with fifo := st.fifo.filter (fun e => match e with
        | .remote _ _ _ sent => sent != some w.id
        | _ => true) })) k) k)) ∧
  (∀ (s : State) (core line : Nat),
    let due : Prop := line ∈ s.armings ∧ coreOfLine line = core
    let held := s.remote.filter (fun w => w.refused.isSome && w.addr / 128 == line && w.core == core)
    let settled_ (t : State) : State := { t with armings := t.armings.filter (· != line) }
    (¬ due → exec (.armingNotification core line) s = .next s) ∧
    (due → s.present line = true → exec (.armingNotification core line) s = .next (settled_ s)) ∧
    (due → s.present line = false → (∀ w ∈ held, gone s w.part w.core = false) →
      exec (.armingNotification core line) s = .next (settled_ (held.foldl landRemote s))) ∧
    (due → s.present line = false → (∀ w ∈ held, gone s w.part w.core = true) → held ≠ [] → exec (.armingNotification core line) s = .next s)) ∧
  (∀ (s : State) (id t : Nat) (w : RemoteWrite) (p : Partition), s.remote.find? (fun w => w.id == id) = some w → w.refused = some t →
    s.part? w.part = some p →
    (s.ns < t + p.hold_ns → exec (.holdTimeout id) s = .next s) ∧
    (t + p.hold_ns ≤ s.ns → w.copy = none → exec (.holdTimeout id) s = .next (endRemote (countUp s w.part 5 1) w)) ∧
    (∀ c i, t + p.hold_ns ≤ s.ns → w.copy = some (c, i) → ∃ u, exec (.holdTimeout id) s = .next u ∧ u.mem = s.mem ∧
      (∀ v, v ∈ u.remote ↔ v ∈ s.remote ∧ v.copy ≠ some (c, i)) ∧
      ∀ k ∈ u.copies, k.id = c → ∀ d, k.dests[i]? = some d → d.code = 2 ∧ d.stopped = true))

/-! ## The arrays -/

/-- R277, R278, R280, R283, R128 to R130, R291 to R293: a complete round fires with the operands signed and later writes its
products to its two banks; one that is not fired in time is discarded and its live signers trap CVTIMEOUT; an MMS is checked,
then taken step by step, one round and one step in turn while both wait. -/
def Obligations.RoundsFireAndStepsAccumulate : Prop :=
  let f32 (a : Nat) (ps : List Machine.Num) : Nat := (finish .f32 .rne false false (sumN .rne (unpack .f32 a :: ps))).1
  (∀ (s : State) (g cv : Nat) (r : Round) (d : Nat × BitVec 4) (gr : Group), let c := cvOf s g cv
    c.round = some r → c.decl = some d → s.group? g = some gr →
    let fires : Prop := roundComplete s g d r = true ∧ ((s.core (coreOf g)).baton = none ∨ (s.core (coreOf g)).baton = some (slotOf g)) ∧
      away s gr.part (coreOf g) = false ∧
      ((s.core (coreOf g)).fedStep = true ∨ ∀ m ∈ s.mms, m.started = true → coreOf m.group = coreOf g → runs s m.group = false)
    (¬ fires → exec (.mmrFire g cv) s = .next s) ∧
    (fires → ∃ t x, exec (.mmrFire g cv) s = .next t ∧ t.mem = s.mem ∧ t.fired = s.fired ++ [x] ∧
      ((t.core (coreOf g)).fedStep = true ↔ (s.core (coreOf g)).fedStep = true ∧ ∃ y ∈ s.fired, coreOf y.group = coreOf g) ∧ x.group = g ∧ x.quart = d.1 ∧ x.ta = r.ta ∧ x.tb = r.tb ∧ x.bank = r.bank ∧ x.zero = r.zero ∧ x.nbv = gr.nbv ∧ x.futs = r.futs ∧
      (∀ l, c.latchA = some l → x.a = l.frag) ∧ (c.latchA = none → x.a = signed r (·.a)) ∧
      (∀ l, c.latchB = some l → x.b = l.frag) ∧ (c.latchB = none → x.b = signed r (·.b)) ∧
      let e := cvOf t g cv
      e.decl = some d ∧ e.round = none ∧ e.latchA = (if r.rua then some ⟨r.ta, r.tb, x.a⟩ else none) ∧
        e.latchB = (if r.rub then some ⟨r.ta, r.tb, x.b⟩ else none))) ∧
  (∀ (s : State) (g : Nat) (d : Nat × BitVec 4) (r : Round), roundComplete s g d r = true ↔
    ∀ q l, q < 4 → l < 32 → d.2.getLsbD q = true → let k := 4 * d.1 + q; let y := laneOf s (32 * g + k) l
      s.stroke? (32 * g + k) = none ∨ y.helper = true ∨ y.live = false ∨ ∃ e ∈ r.sigs, e.q = k ∧ e.lane = l) ∧
  (∀ (s : State) (id : Nat) (r : Fired), s.fired.find? (fun r => r.id == id) = some r →
    (s.fired.find? (fun q => coreOf q.group == coreOf r.group) = some r → exec (.mmrComplete id) s = .next (completeFired s r)) ∧
    (∀ q, s.fired.find? (fun q => coreOf q.group == coreOf r.group) = some q → q.id ≠ id → exec (.mmrComplete id) s = .next s)) ∧
  (∀ (s : State) (r : Fired) (gr : Group), r.futs = [] → s.group? r.group = some gr → gr.retired = false →
    (completeFired s r).mem = roundResult s r ∧ ∀ q ∈ (completeFired s r).fired, q.id ≠ r.id) ∧
  (∀ (s : State) (r : Fired) (i c : Nat), i < 64 → c < 32 → bankKey s r.group r.bank ≠ bankKey s r.group (r.bank + 1) →
    let ta := tyOf (BitVec.ofNat 5 r.ta)
    let tb := tyOf (BitVec.ofNat 5 r.tb)
    let k := amemKey (bankKey s r.group (r.bank + i / 32)) (i % 32) c
    let acc : Nat := if r.zero then 0 else (s.mem.acc k).toNat
    (roundResult s r).acc k = BitVec.ofNat 32 (addChunks (ta == .i8) r.nbv acc (rowChunks ta r.a i)
      (colChunks tb (ta.bits != 4 && tb.bits == 4) r.b c))) ∧
  (∀ (s : State) (r : Fired) (k : Nat), k / 1024 ≠ bankKey s r.group r.bank → k / 1024 ≠ bankKey s r.group (r.bank + 1) →
    (roundResult s r).acc k = s.mem.acc k) ∧
  (∀ (int : Bool) (nbv acc : Nat) (a b : List Machine.Num) (as bs : List (List Machine.Num)),
    addChunks int nbv acc (a :: as) (b :: bs) = addChunks int nbv (addChunk int nbv acc (a.zipWith (fun x y => (mulN x y).1) b)) as bs ∧
    addChunks int nbv acc [] bs = acc ∧ addChunks int nbv acc as [] = acc) ∧
  (∀ (acc : Nat) (ps : List Machine.Num),
    addChunk false 2 acc ps = f32 acc ps ∧
    addChunk false 1 acc ps =
      (let f (i : Nat) : Nat := (finish .f32 .rne false false (sumN .rne ((ps.drop (8 * i)).take 8))).1
       let pair (a b : Nat) : Nat := (finish .f32 .rne false false (sumN .rne [unpack .f32 a, unpack .f32 b])).1
       pair acc (pair (pair (f 0) (f 1)) (pair (f 2) (f 3))))) ∧
  (∀ (acc : Nat) (zs : List Int) (nbv : Nat), (addChunk true nbv acc (zs.map intN) : Int) = ((acc : Int) + zs.sum) % 2 ^ 32) ∧
  (∀ (s : State) (g cv : Nat) (r : Round) (gr : Group), (cvOf s g cv).round = some r → s.group? g = some gr →
    let trapped (q : Nat) (l : Nat) : Prop := (laneOf s (32 * g + q) l).live = true ∧ ∃ e ∈ r.sigs, e.q = q ∧ e.lane = l
    let late : Prop := away s gr.part (coreOf g) = false ∧ r.started + max gr.cr.cvto 4096 ≤ s.cycle
    (¬ late → exec (.cvTimeout g cv) s = .next s) ∧
    (late → ∃ t, exec (.cvTimeout g cv) s = .next (discardRound t g cv) ∧ t = { s with strokes := t.strokes } ∧
      ∀ q st, q < 32 → s.stroke? (32 * g + q) = some st → ∃ b ts, t.stroke? (32 * g + q) = some b ∧ b = { st with async := st.async ++ ts } ∧
        ((∀ l, l < 32 → ¬ trapped q l) → ts = []) ∧
        ∀ l, l < 32 → trapped q l → ∃ x, ts = [x] ∧ x.cause = 0x0F ∧ x.async = true ∧ ∀ j, j < 32 → (x.mask.getLsbD j = true ↔ trapped q j))) ∧
  (∀ (s : State) (g cv : Nat), let e := cvOf s g cv
    (∀ r, e.round = some r → r.futs = [] → s.group? g ≠ none → cvOf (discardRound s g cv) g cv = { e with round := none }) ∧
    (e.round = none → discardRound s g cv = s)) ∧
  (∀ (s : State) (id : Nat) (m : Mms), s.mms.find? (fun m => m.id == id) = some m → runs s m.group = true →
    s.mms.find? (fun k => coreOf k.group == coreOf m.group && runs s k.group) = some m →
    let a := tileAt s m.group m.aRec
    let b := tileAt s m.group m.bRec
    let ok : Prop := mmsTiles s m.group a b = true ∧ (∀ n ∈ mmsBanks m.bank a b, n < 64 ∧ allocated s m.group n = true) ∧
      ∀ r ∈ [m.aRec, m.bRec], ∀ l, uLoc s m.group r 32 = some l → s.mem.anyPoison l 32 = false
    (m.started = false → ok → ∃ t, exec (.mmsStep id) s = .next t ∧ t.mem = s.mem ∧ t.mms = s.mms.map (fun k => if k.id = id then
      { k with started := true, recA := (recordAt s m.group m.aRec).getD [], recB := (recordAt s m.group m.bRec).getD []
               banks := mmsBanks m.bank a b } else k)) ∧
    (∀ gr x, m.started = false → ¬ ok → s.group? m.group = some gr → gr.retired = false → s.ctx? m.group = some x →
      mapGet? x.pending m.kS = some id → ∃ t y, exec (.mmsStep id) s = .next t ∧ t.mem = s.mem ∧ (∀ k ∈ t.mms, k.id ≠ id) ∧
        t.ctx? m.group = some y ∧ y.kGet m.kS = 0x0001000000000000) ∧
    (m.started = true → let a := tileOf m.recA
      let b := tileOf m.recB
      let nb := (b.cols + 31) / 32
      let chunks := (a.cols + a.ty.chunk - 1) / a.ty.chunk
      let blk := m.step / chunks
      let core := coreOf m.group
      let u := mmsBlock (s.modCore core (fun k => { k with fedStep := true })) m a b (blk / nb) (blk % nb) (m.step % chunks)
      let yields : Prop := (s.core core).fedStep = true ∧ (roundWaits s core = true ∨ ∃ y ∈ s.fired, coreOf y.group = core)
      (yields → exec (.mmsStep id) s = .next s) ∧
      (¬ yields → m.step + 1 ≠ a.rows / 32 * nb * chunks → exec (.mmsStep id) s =
        .next (modMms u.1 id (fun _ => { m with step := m.step + 1, poison := m.poison || u.2 }))) ∧
      (¬ yields → m.step + 1 = a.rows / 32 * nb * chunks → exec (.mmsStep id) s =
        .next (mmsDone u.1 m (if m.poison || u.2 then 4 else 0) (4 * a.rows * b.cols))))) ∧
  (∀ (s : State) (g : Nat) (a b : Tile), mmsTiles s g a b = true → a.malformed = false ∧ b.malformed = false ∧
    a.rows ∈ [32, 64, 96, 128] ∧ 1 ≤ b.cols ∧ b.cols ≤ 64 ∧ a.cols % 32 = 0 ∧ a.cols = b.rows ∧ pairOk a.ty b.ty = true ∧ a.sparse ≠ 1 ∧ b.sparse ≠ 1 ∧
    a.layout ≠ 3 ∧ b.layout ≠ 3 ∧ (a.blocked = true → a.layout = 0) ∧ (b.blocked = true → b.layout = 1) ∧ (uLoc s g a.base a.extent).isSome ∧ (uLoc s g b.base b.extent).isSome) ∧
  (∀ (s : State) (m : Mms) (a b : Tile) (i j c : Nat),
    let len := a.ty.chunk
    let p := readBlock s (coreOf m.group) (blockNow s m.group m.aRec a true i c len)
    let q := readBlock p.1 (coreOf m.group) (blockNow p.1 m.group m.bRec b false j c len)
    q.2.data.length ≤ 32 → ∀ r v, r < 32 → v < q.2.data.length →
      let k := amemKey (bankKey s m.group (m.bank + i * ((b.cols + 31) / 32) + j)) r v
      let acc : Nat := if m.zero && c == 0 then 0 else (s.mem.acc k).toNat
      (mmsBlock s m a b i j c).1.mem.acc k = BitVec.ofNat 32 (addChunks (a.ty == .i8) ((s.group? m.group).elim 2 (·.nbv)) acc
        (blockChunks a.ty p.2 r) (blockChunks b.ty q.2 v))) ∧
  (∀ (s : State) (core : Nat) (n : OpEntry),
    let old := (s.core core).opcache.find? (fun e => e.group == n.group && e.recOff == n.recOff && e.gen == n.gen && e.isA == n.isA &&
      e.blk == n.blk && e.chunk == n.chunk && e.len == n.len)
    (readBlock s core n).1.mem = s.mem ∧ ((readBlock s core n).2 = n ∨ some (readBlock s core n).2 = old) ∧
      (old = none → (readBlock s core n).2 = n ∧ n ∈ ((readBlock s core n).1.core core).opcache) ∧
      ((s.core core).opcache.length ≤ 32 → ((readBlock s core n).1.core core).opcache.length ≤ 32))

/-! ## The share gate -/

/-- R312, R314, R319 to R323, R328, R332: a session is created from a grant that passes its checks. Words join or open their
round; a round completes for every party or aborts for every party: by another index, other words, the timeout, a party that can
never send, or the end of its session. -/
def Obligations.RoundsOfTheGateAreOneDecision : Prop :=
  (∀ (s : State) (num : Nat) (g : Grant) (pools : List (List Pool)), let n := g.parties.length
    let r := g.record
    let nonce : Dword := BitVec.ofNat 64 (field r 24 8)
    let ok : Prop := num < 16 ∧ s.gate.session? num = none ∧ r.length = 128 ∧ field r 0 4 = 0x53594341 ∧ (n = 2 ∨ n = 3) ∧ field r 4 1 = n ∧
      g.parties.Nodup ∧ field r 5 1 < 8 ∧ field r 6 2 = 0 ∧ nonce ∉ s.gate.nonces ∧ (n = 2 → ∀ b ∈ (r.drop 96).take 32, b = 0) ∧
      (∀ i p : Nat, g.parties[i]? = some p → ∃ q, s.part? p = some q ∧ (Config.shake256 q.owner).take 32 = (r.drop (32 + 32 * i)).take 32 ∧
        Config.ed448Verify q.owner (Config.shake256 r) ((g.signatures[i]?).getD []) = true) ∧
      pools.length = n ∧ ∀ (i : Nat) (ps : List Pool) (part : Nat), pools[i]? = some ps → g.parties[i]? = some part →
        (∀ k, k < 4 → (ps.filter (fun p => p.kind == k)).length = 1) ∧ ∀ p ∈ ps, 1 ≤ p.count ∧ p.count ≤ 2 ^ 24 ∧ poolShared s part p = true
    (¬ ok → exec (.sessionCreate num g pools) s = .next s) ∧
    (ok → ∃ t x, exec (.sessionCreate num g pools) s = .next t ∧ t.gate.session? num = some x ∧ nonce ∈ t.gate.nonces ∧
      x.parties = g.parties ∧ x.recv.toNat = field r 5 1 ∧ x.budget = field r 8 4 ∧ x.revealed = 0 ∧ x.expiry = field r 16 8 ∧ x.pools = pools ∧
      x.timeout = (if field r 12 4 = 0 then 10000000 else 1000 * field r 12 4) ∧
      ∀ p k, x.next? p k = 0 ∧ x.lastPlus p k = 0)) ∧
  (∀ (s : State) (id : Nat) (m : GateMsg), s.gate.inbox.find? (fun m => m.id == id) = some m →
    let at_ (r : GateRound) : Bool := r.session == m.session && r.rev == m.rev && r.kind == m.kind && r.index == m.index
    let inbox := s.gate.inbox.filter (fun k => k.id != id)
    (s.gate.rounds.find? at_ = none → exec (.gateWords id) s = .next (sweepRetired (gateSweep { s with nextId := s.nextId + 1, gate := { s.gate with
      inbox := inbox
      rounds := s.gate.rounds ++ [{ id := s.nextId, session := m.session, rev := m.rev, kind := m.kind, index := m.index, opened := s.ns, msgs := [m] }] } }))) ∧
    (∀ r, s.gate.rounds.find? at_ = some r → exec (.gateWords id) s = .next (sweepRetired (gateSweep { s with gate := { s.gate with
      inbox := inbox
      rounds := s.gate.rounds.map (fun q => if q.id = r.id then { r with msgs := r.msgs ++ [m] } else q) } })))) ∧
  (∀ (s : State) (r : GateRound), gateSweep { s with gate := { s.gate with rounds := [r] } } = gateCheck { s with gate := { s.gate with rounds := [r] } } r) ∧
  (∀ (s : State) (r : GateRound) (x : Session), s.gate.session? r.session = some x → r ∈ s.gate.rounds →
    let sent (p : Nat) : Prop := ∃ m ∈ r.msgs, m.party = p
    let onWay (p : Nat) : Prop := ∃ m ∈ s.gate.inbox, m.session = r.session ∧ m.party = p ∧ m.rev = r.rev ∧ m.kind = r.kind ∧ m.index = r.index
    let differ : Prop := ∃ m, r.msgs.head? = some m ∧ ∃ k ∈ r.msgs, k.xor ≠ m.xor ∨ k.mask ≠ m.mask
    let never : Prop := r.rev = false ∧ ∃ p, p < x.parties.length ∧ ¬ sent p ∧ ¬ onWay p ∧ r.index < x.lastPlus p r.kind
    let killed : Prop := r.rev = false ∧ (r.session, r.kind, r.index) ∈ s.gate.forfeit
    let fails : Prop := differ ∨ never ∨ killed ∨ (r.rev = true ∧ r.index ∈ x.dead)
    (fails → gateCheck s r = abortRound s r) ∧
    (¬ fails → (∀ p, p < x.parties.length → sent p) → gateCheck s r = completeRound s r) ∧
    (¬ fails → ¬ (∀ p, p < x.parties.length → sent p) → gateCheck s r = s)) ∧
  (∀ (xor : Bool) (n j : Nat) (ws : List (List Word)), ws ≠ [] → (∀ w ∈ ws, w.length = n) → j < n →
    (combine xor ws)[j]? = some ((ws.map (fun w => (w[j]?).getD 0)).foldl (fun a b => if xor then a ^^^ b else a + b) 0)) ∧
  (∀ (s : State) (r : GateRound) (x : Session), s.gate.session? r.session = some x → x.parties ≠ [] → ∃ u : State,
    let within : Prop := x.budget = 0xFFFFFFFF ∨ x.revealed < x.budget
    completeRound s r = gateResults u (r.msgs.map (fun m => open Classical in
      let give : Prop := r.rev = false ∨ (within ∧ x.recv.getLsbD m.party = true)
      { msg := m, word := if give then 0 else 2, w0 := combine (r.msgs.head?.elim false (·.xor)) (r.msgs.map (·.w0))
        w1 := combine (r.msgs.head?.elim false (·.xor)) (r.msgs.map (·.w1)), give := decide give })) ∧
    u = { s with gate := u.gate } ∧ u.gate.rounds = s.gate.rounds.filter (fun q => q.id ≠ r.id) ∧
    ∃ y, u.gate.session? r.session = some y ∧ y.revealed = (open Classical in x.revealed +
      if r.rev = true ∧ within ∧ (∃ p, p < x.parties.length ∧ x.recv.getLsbD p = true) then 1 else 0)) ∧
  (∀ (s : State) (r : GateRound) (x : Session), s.gate.session? r.session = some x → ∃ u : State,
    abortRound s r = gateResults u (r.msgs.map (fun m => { msg := m, word := 1, w0 := [], w1 := [], give := false })) ∧
    u = { s with gate := u.gate } ∧ u.gate.rounds = s.gate.rounds.filter (fun q => q.id ≠ r.id) ∧
    ∃ y, u.gate.session? r.session = some y ∧ (r.rev = true → y = { x with dead := r.index :: x.dead }) ∧
      (r.rev = false → ∀ p, p < x.parties.length → y.next? p r.kind = max (x.next? p r.kind) (r.index + 1) ∧
        y.lastPlus p r.kind = max (x.lastPlus p r.kind) (r.index + 1))) ∧
  (∀ (s : State) (r : GateResult), let out : Bool := away s r.msg.part (coreOf (groupOf r.msg.stroke))
    (out = true → gateResult s r = { s with gate := { s.gate with results := s.gate.results ++ [r] } }) ∧
    (out = false → gateResult s r = gateLand s r) ∧ (gateLand s r).gate = s.gate ∧
    (r.give = false → gateLand s r = completeOp (futureDone s r.msg.op r.word) r.msg.stroke r.msg.flight) ∧
    (r.give = true → gateLand s r =
      completeOp (deliver (futureDone s r.msg.op r.word) r.msg.stroke r.msg.flight (roundWrites r.msg r.w0 r.w1)) r.msg.stroke r.msg.flight)) ∧
  (∀ (s : State) (op k i : Nat) (w : Word) (st : Stroke), s.stroke? k = some st → ∃ t, (futureDone s op w).stroke? k = some t ∧
    t.regs.fGet i = (if st.regs.fGet i = .pending op then .done w else st.regs.fGet i) ∧ t = { st with regs := t.regs } ∧
    t.regs = { st.regs with f := t.regs.f }) ∧
  (∀ (m : GateMsg) (w0 w1 : List Word) (x : WriteBack), x ∈ roundWrites m w0 w1 ↔ ∃ (j l : Nat), (lanesOf m.mask)[j]? = some l ∧
    ((∃ a : Word, w0[j]? = some a ∧ x = { reg := .v m.reg, lane := l, val := BitVec.zeroExtend 64 a }) ∨
      (m.rev = false ∧ ∃ b : Word, w1[j]? = some b ∧ x = { reg := .v (m.reg + 1), lane := l, val := BitVec.zeroExtend 64 b }))) ∧
  (∀ (s : State) (n id : Nat) (r : GateRound) (x : Session), s.gate.rounds.find? (fun r => r.id == id && r.session == n) = some r →
    s.gate.session? n = some x → exec (.gateTimeout n id) s = .next (if r.opened + x.timeout ≤ s.ns then sweepRetired (gateSweep (abortRound s r)) else s)) ∧
  (∀ n, Leads (.sessionEnd n) (fun _ => True) (fun s => sweepRetired (endSession s n))) ∧
  (∀ (s : State) (n : Nat) (x : Session), s.gate.session? n = some x →
    exec (.sessionExpiry n) s = .next (if x.expiry ≠ 0 ∧ x.expiry ≤ s.ns then sweepRetired (endSession s n) else s)) ∧
  (∀ (s : State) (n : Nat), (endSession s n).gate.session? n = none ∧
    (∀ j, j ≠ n → (endSession s n).gate.session? j = s.gate.session? j) ∧
    (s.gate.session? n ≠ none → (∀ r ∈ (endSession s n).gate.rounds, r.session ≠ n) ∧ (∀ m ∈ (endSession s n).gate.inbox, m.session ≠ n) ∧
      (∀ o ∈ (endSession s n).gate.forfeit, o.1 ≠ n) ∧ (∀ e ∈ (endSession s n).strokes, ∀ o ∈ e.2.owes, o.1 ≠ n) ∧
      ∀ p, n < 16 → sessWord (endSession s n) p / 4 ^ n % 4 = 0))

/-! ## Inkline and collectives -/

/-- R345 to R350, R353: a replay starts again at the refused flit, and after eight that fail the port goes down; what has no
route for 10 ms is dropped and counted; an idle flit brings its LACK alone. A flit whose FCRC fails is refused, and a line whose check fails is written with poison. A target
applies each transport number once, in order, and a signal once for each stamp; a signal waits for the stores of its stroke before it. R357
to R360: chunks fire to their home, which folds the slots present in rank order, and each member's record takes its code; what comes for a slot
after the fold is discarded. R393: a line that one copy has written whole loses its mark. -/
def Obligations.InklineAppliesOnceAndChunksFold : Prop :=
  (∀ (s : State) (port : Nat) (lseq : BitVec 16) (p : Port), s.link.ports[port]? = some p → p.up = true → (∃ f, (lseq, f) ∈ p.retry) →
    (8 ≤ p.fails → exec (.linkReplay port lseq) s = .next (portDown s port)) ∧
    (p.fails < 8 → ∃ t q, exec (.linkReplay port lseq) s = .next t ∧ t.mem = s.mem ∧ t.link.out = s.link.out ∧
      t.link.ports[port]? = some q ∧ q.fails = p.fails + 1 ∧ q.up = true ∧
      (p.waiting = [] → q.lseq = p.lseq ∧ q.retry = p.retry.filter (fun e => decide (2 ^ 15 ≤ (lseq - 1 - e.1).toNat))) ∧
      ∀ i, i ≠ port → t.link.ports[i]? = s.link.ports[i]?)) ∧
  (∀ (p : Port) (f : Flit), (p.retry.length < 1024 → (p.put f).lseq = p.lseq + 1 ∧ (p.put f).retry = p.retry ++ [(p.lseq, f)]) ∧
    (1024 ≤ p.retry.length → p.put f = { p with waiting := p.waiting ++ [f] })) ∧
  (∀ (f : Flit) (lseq lack : BitVec 16), (flitHeader f lseq lack).length = 12 ∧ field (flitHeader f lseq lack) 0 2 = lseq.toNat ∧
    field (flitHeader f lseq lack) 2 2 = lack.toNat ∧ ((∀ va a st, f.body ≠ .signal va a st) → field (flitHeader f lseq lack) 8 4 = f.tseq.toNat)) ∧
  (∀ (s : State) (port : Nat), running s = true → ∃ t, exec (.portDown port) s = .next t ∧ t = portDown s port ∧ t.mem = s.mem ∧ t.link.out = s.link.out ∧
    (∀ p, t.link.ports[port]? = some p → p.up = false ∧ p.retry = []) ∧
    (∀ e, e ∈ t.link.routes ↔ e ∈ s.link.routes ∧ e.2 ≠ port) ∧
    ∀ d, (d, port) ∈ s.link.routes → mapGet? s.link.noRoute d = none → mapGet? t.link.noRoute d = some s.ns) ∧
  (∀ (s : State) (dev t0 : Nat), mapGet? s.link.noRoute dev = some t0 →
    (s.ns < t0 + 10000000 ∨ routeOf s dev ≠ none → exec (.routeTimeout dev) s = .next s) ∧
    (t0 + 10000000 ≤ s.ns → routeOf s dev = none → ∃ t, exec (.routeTimeout dev) s = .next (sweepReleased t) ∧ t.mem = s.mem ∧
      (∀ f, f ∈ t.link.out ↔ f ∈ s.link.out ∧ (f.dst ≠ dev ∨ dev = s.link.dev)) ∧
      (∀ part p, s.part? part = some p → p.counters.length = 9 → (p.counters[6]?).getD 0 < 2 ^ 64 → dev ≠ s.link.dev → ∃ q, t.part? part = some q ∧
        (q.counters[6]?).getD 0 = min (2 ^ 64 - 1) ((p.counters[6]?).getD 0 + (s.link.out.filter (fun f => f.dst == dev && f.part == part)).length +
          (s.link.signals.filter (fun g => g.dev == dev && g.part == part && !g.sent)).length)) ∧
      ∀ c ∈ t.copies, (∃ n, c.kind = .mcast true n) ∨ (∃ l i v k, c.kind = .fire l i v k) → ∀ d ∈ c.dests, d.dev = dev →
        d.landed < c.len ∨ (∃ e ∈ s.link.copyOf, e.1.dst = dev ∧ e.2.1 = c.id) → d.code = 1 ∧ d.stopped = true)) ∧
  (∀ s : State, (∀ e ∈ s.groups, e.2.retired = false) → sweepReleased s = s) ∧
  (∀ (s : State) (f : Flit) (c : Came) (p : Port), f.body = .idle → s.link.ports[c.port]? = some p → p.up = true →
    ∃ t q, exec (.peerStoreArrival ⟨f, some c⟩) s = .next t ∧ t = { s with link := { s.link with ports := t.link.ports } } ∧
      t.link.ports[c.port]? = some q ∧ q.got = p.got ∧ q.corrected = p.corrected + c.corrected ∧
      (c.fcrc = false → q.refused = some (p.got + 1) ∧ q.retry = p.retry) ∧
      (c.fcrc = true → p.waiting = [] → q.retry = p.retry.filter (fun e => decide (2 ^ 15 ≤ (c.lack - e.1).toNat)))) ∧
  (∀ (s : State) (f : Flit) (va part : Nat) (bs : List Byte) (of : Option Nat), f.dst = s.link.dev → (f.body = .store va bs ∧ of = none) ∨ f.body = .beat va bs of →
    targetPart s f = some part →
    let seen := mapGet s.link.rx (linkKey f.src f.part) 0
    let goes (t : State) : Prop := exec (.peerStoreArrival ⟨f, none⟩) s = .next t
    let applies : Prop := f.tseq ≠ seen ∧ (f.tseq - seen).toNat < 2 ^ 31
    (¬ applies → (∀ g ∈ s.link.held, ¬ (g.src = f.src ∧ g.part = f.part ∧ g.tseq = f.tseq)) →
      goes (ackFlit s f (s.link.late.contains (f.src, f.part, f.tseq)))) ∧
    (applies → heldBefore s f = true → goes s) ∧
    (applies → heldBefore s f = false → f.body = .beat va bs of → lateSlot s part f.src va = true → goes (ackFlit (received s f) f)) ∧
    (applies → heldBefore s f = false → f.body = .store va bs ∨ lateSlot s part f.src va = false →
      (∀ ls, peerReach s part va bs.length .store = .ok ls → ∃ t, goes t ∧ (∀ k, t.mem.home k = (writePlaces s ls bs).mem.home k) ∧
        (f.poison = false → of = none → t.mem = (writePlaces s ls bs).mem) ∧ (f.poison = true → ∀ l ∈ ls, t.mem.poisoned l.1.home l.1.line = true) ∧
        (∀ c e, of = some c → f.poison = false → s.link.halves.find? (fun e => e.1 == f.src && e.2.1 == c && e.2.2.1 == va / 128) = some e →
          e.2.2.2 = true → ∀ l ∈ ls, t.mem.poisoned l.1.home l.1.line = false) ∧
        mapGet t.link.rx (linkKey f.src f.part) 0 = f.tseq ∧ (f.src = s.link.dev → t.link.acks = s.link.acks ++ [(f, false)]) ∧ t.strokes = s.strokes) ∧
      (peerReach s part va bs.length .store = .error .gone → ∃ t, goes t ∧ t.mem = s.mem ∧
        mapGet t.link.rx (linkKey f.src f.part) 0 = f.tseq ∧ t.parts = (countUp s part 7 1).parts) ∧
      (∀ b, peerReach s part va bs.length .store = .error (.hold b) → goes (flitFault s part f b)))) ∧
  (∀ (s : State) (f : Flit) (c : Came) (p : Port), f.dst = s.link.dev → flitKind f.body ∉ [0, 2, 4] → s.link.ports[c.port]? = some p →
    p.up = true →
    let goes (t : State) : Prop := exec (.peerStoreArrival ⟨f, some c⟩) s = .next t
    (c.fcrc = false → ∃ t q, goes t ∧ t.mem = s.mem ∧ t.link.inbox = s.link.inbox ∧ t.link.rx = s.link.rx ∧ t.link.ports[c.port]? = some q ∧
      q.refused = some (p.got + 1) ∧ q.got = p.got ∧ q.corrected = p.corrected + c.corrected) ∧
    (c.fcrc = true → c.lseq ≠ p.got + 1 → ∃ t q, goes t ∧ t.mem = s.mem ∧ t.link.inbox = s.link.inbox ∧ t.link.rx = s.link.rx ∧
      t.link.ports[c.port]? = some q ∧ q.got = p.got) ∧
    let g : Flit := { f with poison := f.poison || c.spoiled }
    (c.fcrc = true → c.lseq = p.got + 1 → ∃ (u : State) (q : Port),
      exec (.peerStoreArrival ⟨f, some c⟩) s = exec (.peerStoreArrival ⟨g, none⟩) { u with link := { u.link with inbox := u.link.inbox ++ [g] } } ∧
      (let v : State := if c.spoiled = true then countUp s f.to_ 3 1 else s
       u = { v with link := { v.link with ports := u.link.ports } }) ∧ u.link.ports[c.port]? = some q ∧ q.got = c.lseq ∧ q.refused = none)) ∧
  (∀ (s : State) (id : Nat) (g : Signal), s.link.signals.find? (fun g => g.id == id) = some g → g.sent = false →
    let before : Prop := ∃ f ∈ g.behind, f ∈ s.link.out
    (before → exec (.signalSend id) s = .next s) ∧
    (¬ before → ∃ t f, exec (.signalSend id) s = .next t ∧ t.link.out = s.link.out ++ [f] ∧ f.src = s.link.dev ∧ f.dst = g.dev ∧
      f.part = g.part ∧ f.body = .signal g.va g.addend g.stamp ∧ ∀ k ∈ t.link.signals, k.id = id → k.sent = true)) ∧
  (∀ (s : State) (f : Flit) (va part : Nat) (add : Dword) (st : BitVec 16), f.dst = s.link.dev → f.body = .signal va add st →
    let again : Prop := (f.src, f.part, va, st.toNat) ∈ s.link.applied
    (again → exec (.signalArrival ⟨f, none⟩) s = .next (ackFlit s f)) ∧
    (∀ ls, ¬ again → targetPart s f = some part → va % 8 = 0 → peerReach s part va 8 .atomic = .ok ls → ∃ t, exec (.signalArrival ⟨f, none⟩) s = .next t ∧
      (∀ k, t.mem.home k = (writePlaces s ls (natBytes 8 ((bytesNat (readPlaces s ls) + add.toNat) % 2 ^ 64))).mem.home k) ∧
      (f.poison = true → ∀ l ∈ ls, t.mem.poisoned l.1.home l.1.line = true) ∧
      (f.src, f.part, va, st.toNat) ∈ t.link.applied ∧ (f.src = s.link.dev → t.link.acks = s.link.acks ++ [(f, false)]))) ∧
  (∀ (s : State) (f : Flit) (late : Bool), f ∈ s.link.out → f.dst ≠ s.link.dev ∨ (f, late) ∈ s.link.acks → ∃ t, exec (.peerAck ⟨f, late, none⟩) s = .next (sweepReleased t) ∧
    t.mem = s.mem ∧ (∀ g, g ∈ t.link.out ↔ g ∈ s.link.out ∧ g ≠ f) ∧ (∀ e ∈ t.link.sentBy, e.1 ≠ f) ∧
    (∀ va a st, f.body = .signal va a st → ∀ g ∈ t.link.signals, ¬ (g.sent = true ∧ g.dev = f.dst ∧ g.part = f.part ∧ g.va = va ∧ g.stamp = st)) ∧
    ((∀ va a st, f.body ≠ .signal va a st) → t.link.signals = s.link.signals)) ∧
  (∀ (n : Dword) (b : Bool), Leads (.timeSample n b) (fun _ => True) (fun s =>
    { s with ns := if b then max s.ns n.toNat else s.ns, sys := { s.sys with timeLost := !b } })) ∧
  (∀ (s : State) (id i : Nat) (l : Launch) (c : Coll) (k : Chunk), chunkState s id i = some (l, c, k) → l.id = id →
    let h := i % c.nmem
    let tile := tileOf ((c.tiles[i]?).getD [])
    let slot (r : Nat) : Nat := c.stage + (i / c.nmem * c.nmem + r) * c.slotBytes
    let due : Prop := k.fired = false ∧ chunkReady l c i = true ∧ descheduled s l.part = false
    (due → ∃ t w, exec (.chunkFire id i) s = .next t ∧ t.mem = s.mem ∧ (∃ q, findChunk t id i = some q ∧ q.fired = true ∧ q.firedAt = s.ns) ∧
      t.copies = s.copies ++ [w] ∧ w.kind = .fire id i ((c.devs[h]?).getD 0) (lastCluster l c i) ∧ w.part = l.part ∧ w.started = false ∧
      w.sBase = BitVec.ofNat 64 tile.base ∧ w.dBase = BitVec.ofNat 64 (slot c.rank) ∧ w.len = tileBytes ((c.tiles[i]?).getD [])) ∧
    (¬ due → h ≠ c.rank → exec (.chunkFire id i) s = .next s) ∧
    (∀ cp dev cl, s.copies.find? (fun e => e.id == cp.id) = some cp → cp.kind = .fire id i dev cl → copyOver s cp = true → cp.code ≠ 1 →
      cp.told = false → dev ≠ s.link.dev → ∃ t f, exec (.copyComplete cp.id) s = .next t ∧ t.mem = s.mem ∧ t.link.out = s.link.out ++ [f] ∧
        f.dst = dev ∧ f.part = cp.part ∧ f.body = .control cp.dBase.toNat (contribution l c cp.len)) ∧
    (h = c.rank → k.folded = false → (∀ r, r < c.nmem → ∃ f ∈ k.filled, f.1 = r) → exec (.chunkFold id i) s = .next (foldChunk s l c k)) ∧
    (h = c.rank → k.folded = false → c.timeout ≠ 0 → k.filled ≠ [] → exec (.chunkTimeout id i) s =
      .next (if k.firstAt + 1000 * c.timeout ≤ s.ns then foldChunk s l c k else s)) ∧
    (c.timeout = 0 → exec (.chunkTimeout id i) s = .next s ∧ exec (.memberTimeout id i) s = .next s) ∧
    (∀ u, h ≠ c.rank → k.fired = true → k.result = 0 → c.timeout ≠ 0 → k.firedAt + 2000 * c.timeout ≤ s.ns →
      (∀ f ∈ s.link.held, resultFor s l c i f = true → resultEnd f = false) →
      putG s l (c.cstat + 64 * i) (chunkRecord 3 0 s.ns 0) = .ok u → ∃ t q, exec (.memberTimeout id i) s = .next t ∧ t.mem = u.mem ∧
        findChunk t id i = some q ∧ q.result = 3) ∧
    (∀ (code : Byte) (missing : Nat) (skew : Bool) (data : List Byte) (poison : Bool) (u v : State), h ≠ c.rank → k.fired = true → k.result = 0 →
      code = 1 ∨ code = 2 → putTile s l tile.base data poison = .ok u → putG u l (c.cstat + 64 * i) (chunkRecord code.toNat 0 s.ns missing) = .ok v →
      ∃ t q, exec (.chunkResultLand id i code missing skew ⟨data, poison⟩) s = .next t ∧ t.mem = v.mem ∧ findChunk t id i = some q ∧
        q.result = code.toNat)) ∧
  (∀ (s : State) (l : Launch) (c : Coll) (k : Chunk) (ps : List (Nat × List Byte × Bool)), findChunk s l.id k.chunk = some k →
    foldSlots s l c k = .ok ps → ps ≠ [] → c.op ≠ 8 → ∃ u q, foldChunk s l c k = landHome u l c k.chunk ∧ findChunk u l.id k.chunk = some q ∧
      u.mem = s.mem ∧ q.folded = true ∧ q.image = (ps.map (·.2.1)).tail.foldl (fun a b => reduceBytes c.op a b) ((ps.map (·.2.1)).headD []) ∧
      (q.bad = true ↔ ∃ p ∈ ps, p.2.2 = true) ∧ (∀ r, r < c.nmem → (q.missing.testBit r = true ↔ ∀ p ∈ ps, p.1 ≠ r)) ∧
      u.link.out.length = s.link.out.length + ((List.range c.nmem).filter (fun r => r ≠ c.rank)).length * ((q.image.length + 63) / 64 + 1)) ∧
  (∀ (s : State) (l : Launch) (c : Coll) (k : Chunk) (ps : List (Nat × List Byte × Bool)), foldSlots s l c k = .ok ps →
    (ps.map (·.1)).Pairwise (· < ·) ∧ ∀ p ∈ ps, p.1 < c.nmem ∧ (∃ f ∈ k.filled, f.1 = p.1 ∧ f.2.1 = tileBytes ((c.tiles[k.chunk]?).getD [])) ∧
      ∃ ls, hubReach s l.part l.ended (slotAddr c k.chunk p.1) (tileBytes ((c.tiles[k.chunk]?).getD [])) .load [0] = .ok ls ∧
        p.2.1 = readPlaces s ls ∧ (p.2.2 = true ↔ ∃ e ∈ ls, s.mem.anyPoison e.1 e.2 = true)) ∧
  (∀ (code late whence missing : Nat), missing < 2 ^ 256 → code < 2 ^ 32 → late < 2 ^ 32 → whence < 2 ^ 64 → let r := chunkRecord code late whence missing
    r.length = 64 ∧ field r 0 4 = code ∧ field r 4 4 = late ∧ field r 8 8 = whence ∧ field r 32 32 = missing)

/-! ## Interruption -/

/-- R374, R375, R377 to R384, R387: a fault that firmware resumes lets its stroke, context or copy go on, one that it ends kills
the stroke or ends the copy FAULT; kills; a copy-on-write page is copied and its entry rewritten; a failed pull makes the
partition FAILED; firmware moves or takes away a page of a fenced channel (R397). A slice on a set of cores ends by saving what the partition has
there and scrubbing those cores, and a restore gives it back; a stage-2 fault on a save area stops either, and the hypervisor firmware is
told. How the area is laid out is the model's choice (log 23), so is STROKE of a fault record (log 30). -/
def Obligations.FaultsKillsAndSlices : Prop :=
  let emptied (p : Partition) : Prop := p.queues = [[], [], [], []] ∧ p.ready = [[], [], [], []] ∧ p.hold = [] ∧ p.arena = [] ∧ p.blocks = []
  (∀ (s : State) (token : Nat) (r : FaultRec), findFault s token = some r → r.token = token → ∃ t, exec (.faultResume token) s = .next t ∧
    t.mem = s.mem ∧ findFault t token = none ∧
    (∀ k st, r.agent = some (.stroke k) → s.stroke? k = some st → st.fault = some token → ∃ b, t.stroke? k = some b ∧ b = { st with fault := none }) ∧
    (∀ g x, r.agent = some (.ctx g) → s.ctx? g = some x → x.fault = some token → ∃ b, t.ctx? g = some b ∧ b = { x with fault := none }) ∧
    (∀ c, r.agent = none → r.copy = some c → ∀ k ∈ t.copies, k.id = c → k.stalled = none) ∧
    (∀ f, r.agent = none → r.copy = none → r.flit = some f → t.agenda = flitEvent f :: s.agenda)) ∧
  (∀ (s : State) (token : Nat) (r : FaultRec), findFault s token = some r → r.token = token →
    let e := reportError (dropFault s token) r.part r.cause token
    let u := if r.cause = 0x08 then dropFault s token else e.modPart r.part (fun p => { p with records := p.records ++ [faultBytes e r] })
    (∀ k, r.agent = some (.stroke k) → exec (.faultKill token) s = .next (killStroke u k)) ∧
    (∀ g, r.agent = some (.ctx g) → exec (.faultKill token) s = .next (killCtx u g)) ∧
    (∀ c, r.agent = none → r.copy = some c → ∃ t, exec (.faultKill token) s = .next t ∧ t.mem = s.mem ∧
      t.copies = s.copies.map (fun k => if k.id = c then { k with started := true, fault := true, stalled := none } else k)) ∧
    (∀ l, r.agent = none → r.copy = none → r.launch = some l → exec (.faultKill token) s =
      .next (u.modLaunch l (fun l => { l with ended := r.va :: l.ended })))) ∧
  (∀ (s : State) (k : Nat), ∃ t, exec (.killStroke k) s = .next t ∧ t = killStroke s k ∧
    ∀ st, s.stroke? k = some st → st.killed = false → st.retired = false → st.lanes.length ≤ 32 → st.inflight = [] → st.fifo = [] → st.busy = [] →
      (∀ b, t.stroke? k = some b → b.killed = true ∧ ∀ y ∈ b.lanes, y.live = false) ∧
      ∀ gr l, s.group? (groupOf k) = some gr → s.launch? gr.launch = some l → ∃ l', t.launch? gr.launch = some l' ∧ l'.failed = true) ∧
  (∀ (s : State) (g : Nat) (c : ScribeCtx), s.ctx? g = some c → c.killed = false → (fifoOf s (.ctx g)).isEmpty = true → ∃ t b,
    exec (.killContext g) s = .next t ∧ t = killCtx s g ∧ t.ctx? g = some b ∧ b.killed = true ∧ b.exited = true ∧ b.k = c.k) ∧
  (∀ (s : State) (id : Nat) (l : Launch), s.launch? id = some l → l.id = id →
    (l.phase = .ending ∨ l.phase = .signalled ∨ l.phase = .waiting → exec (.killLaunch id) s = .next s) ∧
    (∀ p, l.phase = .queued ∨ l.phase = .checked ∨ l.phase = .held ∨ l.phase = .eligible → l.placed = 0 → l.gone = 0 → l.coll = none → s.part? l.part = some p →
      p.save.groups = [] → p.save.strokes = [] → p.save.ctxs = [] → (∀ e ∈ s.groups, e.2.launch ≠ id) → (∀ e ∈ s.launches, e.2.blocked ≠ some id) → ∃ u k,
      exec (.killLaunch id) s = .next (afterEnd (concludeLaunch u id) k) ∧ k.id = id ∧ k.part = l.part ∧
      u.launch? id = some { l with failed := true, killed := true, next := l.total, phase := .ending, nomethod := none, code := 6 } ∧
      (∀ e ∈ u.scheds, ∀ r ∈ e.2.ranges ++ e.2.transit, r.launch ≠ id) ∧
      ∃ q, u.part? l.part = some q ∧ id ∉ q.hold ∧ ∀ ids ∈ q.queues ++ q.ready, id ∉ ids)) ∧
  (∀ (s : State) (part : Nat), ∃ t, exec (.killPartition part) s = .next t ∧ ∀ p, t.part? part = some p → emptied p) ∧
  (∀ (s : State) (part : Nat), ∃ t, exec (.partitionReset part) s = .next t ∧ ∀ p, t.part? part = some p → emptied p ∧ p.failed = false) ∧
  (∀ (s : State) (token pa at_ lvl w size : Nat) (r : FaultRec), findFault s token = some r → r.cause = 0x09 →
    (ipaOf s r.part r.va).bind (findEntry2 s r.part) = some (at_, lvl, w, size) → w % 4 = 3 →
    (w.testBit 48 = false → exec (.cowResolve token pa) s = .next (resumeFault s r)) ∧
    (w.testBit 48 = true → pa % size ≠ 0 ∨ pageFits (w / 2 ^ 10 % 4) pa size = false → exec (.cowResolve token pa) s = .next s) ∧
    (w.testBit 48 = true → pa % size = 0 → pageFits (w / 2 ^ 10 % 4) pa size = true → let hm := homeOfKind (w / 2 ^ 10 % 4)
      exec (.cowResolve token pa) s = .next (resumeFault (invalidate (putEntries
        (copyPage s hm (if hm = .g then bits w 63 52 else 0) (bits w 44 12 * 4096) pa size) at_ lvl size
        (fun w => withPa w pa - (if (withPa w pa).testBit 48 then 2 ^ 48 else 0))) r.part) r))) ∧
  (∀ w pa : Nat, w < 2 ^ 64 → pa < 2 ^ 45 → ∀ i, (withPa w pa).testBit i = if 12 ≤ i ∧ i ≤ 44 then pa.testBit i else w.testBit i) ∧
  (∀ (s : State) (old new size key i : Nat), old % 128 = 0 → new % 128 = 0 → size % 128 = 0 → old + size ≤ new ∨ new + size ≤ old → i < size →
    readByte (copyPage s .d key old new size) { home := .d, addr := new + i } = readByte s { home := .d, addr := old + i }) ∧
  (∀ (s : State) (token : Nat) (r : FaultRec), findFault s token = some r → r.cause = 0x09 →
    (∃ t, exec (.pagePull token none) s = .next t ∧ ∀ p, t.part? r.part = some p → p.failed = true) ∧
    (∀ pa bytes at_ lvl w size, findEntry2 s r.part r.va = some (at_, lvl, w, size) → w % 2 = 0 → w / 2 ^ 10 % 4 ≠ 3 → pa % size = 0 →
      pageFits (w / 2 ^ 10 % 4) pa size = true → let hm := homeOfKind (w / 2 ^ 10 % 4)
      exec (.pagePull token (some (pa, bytes))) s = .next (resumeFault (invalidate (putEntries
        (writeBytes s { home := hm, addr := pa, key := if hm = .g then bits w 63 52 else 0 } (bytes.take size)) at_ lvl size
        (fun w => withPa w pa ||| (if lvl = 3 then 3 else 1))) r.part) r))) ∧
  (∀ (pa size : Nat), 0 < size → (pageFits 0 pa size = true ↔ pa + size ≤ 768 * 2 ^ 30) ∧ (pageFits 1 pa size = true ↔ pa + size ≤ 384 * 2 ^ 20)) ∧
  (∀ (s : State) (part ipa at_ lvl w size : Nat), findEntry2 s part ipa = some (at_, lvl, w, size) → w % 4 = 3 →
    writeRegister s (.losePage part ipa) = invalidate (putEntries s at_ lvl size (fun w => w - w % 2)) part ∧
    ∀ pa, pa % size = 0 → pageFits (w / 2 ^ 10 % 4) pa size = true → let hm := homeOfKind (w / 2 ^ 10 % 4)
      writeRegister s (.movePage part ipa pa) = invalidate (putEntries
        (copyPage s hm (if hm = .g then bits w 63 52 else 0) (bits w 44 12 * 4096) pa size) at_ lvl size (fun w => withPa w pa)) part) ∧
  (∀ (s : State) (r : FaultRec), r.va < 2 ^ 64 → r.cause < 256 → r.access < 256 → r.token < 2 ^ 64 → r.core < 1536 → let b := faultBytes s r
    b.length = 32 ∧ field b 0 8 = r.va ∧ field b 8 1 = r.cause ∧ field b 9 1 = r.access ∧ field b 10 1 = r.core % 192 ∧
      field b 11 1 = r.core / 192 ∧ field b 13 3 = 0 ∧ field b 16 8 = r.token ∧ field b 24 8 = 0 ∧
      (∀ g, r.agent = some (.ctx g) → field b 12 1 = 0xE0 + g % 8) ∧ (r.agent = none → field b 12 1 = 0xFF)) ∧
  (∀ (s : State) (part : Nat) (p : Partition) (cores : List Nat), s.part? part = some p →
    let here := ((groupsOfPart s part).map coreOf).eraseDups.filter (fun k => cores.isEmpty || cores.contains k)
    let saves := here.filter (fun k => (mapGet? p.saveAreas k).isSome && (mapGet p.save.status k 0 == 0))
    let u := settleGroups (s.modPart part (fun p => p.runOn s.ns ((if cores.isEmpty then allCores else
      p.outNow ++ cores.filter (fun k => !p.outNow.contains k)).filter (fun k => !(here.filter (fun k => (mapGet? p.saveAreas k).isNone)).contains k))))
      (saves.flatMap (groupsAt s part))
    let ready := saves.filter (fun k => (groupsAt u part k).all (drained u))
    (p.scheduled = true → exec (.sliceEnd part cores) s =
      .next (ready.foldl (saveCore part) (quiesce u part (ready.flatMap (groupsAt u part))))) ∧
    (p.scheduled = true → here = [] → ∃ t, exec (.sliceEnd part cores) s = .next t ∧
      (∀ k, k < 1536 → (cores = [] ∨ k ∈ cores) → away t part k = true) ∧
      ∀ k ∈ p.cores, cores ≠ [] → k ∉ cores → away t part k = away s part k) ∧
    (p.save.stopped = [] → exec (.saveRestart part) s =
      .next (((p.save.status.filter (fun e => e.2 == 2)).map (·.1)).foldl (saveCore part) s))) ∧
  (∀ (s : State) (part : Nat) (gs : List Nat), let t := quiesce s part gs
    (∀ p, t.part? part = some p → ∀ f ∈ p.faults, (∀ k, f.agent = some (.stroke k) → groupOf k ∉ gs) ∧ ∀ g, f.agent = some (.ctx g) → g ∉ gs) ∧
    (∀ k st, t.stroke? k = some st → groupOf k ∈ gs → st.fault = none ∧ (st.park = none ∨ ∃ m n, st.park = some (.baton m n))) ∧
    ∀ k, groupOf k ∉ gs → t.stroke? k = s.stroke? k) ∧
  (∀ (s : State) (part core : Nat), let r := areaAccess s true part core ((groupsAt s part core).filterMap (s.group? ·))
    r.1 = { s with fresh := r.1.fresh, mem := r.1.mem } ∧ (∀ h, h ≠ .g → r.1.mem.home h = s.mem.home h) ∧
    (r.2 = none → saveCore part s core = takeSave r.1 part core) ∧
    (∀ ipa p, r.2 = some ipa → s.part? part = some p → (∀ l, walk2 r.1 part ipa = some l → l.kind ≠ 0 ∨ l.perms.getLsbD 1 = false ∨ l.cow = true) ∧
      ∃ q, (saveCore part s core).part? part = some q ∧ mapGet q.save.status core 0 = 2 ∧ mapGet? q.save.ipa core = some ipa ∧
        (saveCore part s core).groups = s.groups ∧ (saveCore part s core).strokes = s.strokes ∧
        (saveCore part s core).sys.notices = s.sys.notices ++ [(false, part, core, ipa)])) ∧
  (∀ (s : State) (part core : Nat) (p : Partition), s.part? part = some p → s.mem.wf = true → p.save = {} →
    (s.groups.map (·.1)).Nodup → (s.strokes.map (·.1)).Nodup → (s.ctxs.map (·.1)).Nodup →
    let mine (g : Nat) : Prop := coreOf g = core ∧ ∃ gr, s.group? g = some gr ∧ gr.part = part
    let t := takeSave s part core
    ∃ q, t.part? part = some q ∧ mapGet q.save.status core 0 = 1 ∧ (∀ g, mine g → mapGet? q.save.groups g = s.group? g) ∧
      (∀ k, mine (groupOf k) → mapGet? q.save.strokes k = s.stroke? k) ∧ (∀ g, mine g → mapGet? q.save.ctxs g = s.ctx? g) ∧
      (∀ c, c ∈ q.save.copies ↔ c ∈ s.copies ∧ mine c.group) ∧ (∀ c, c ∈ t.copies ↔ c ∈ s.copies ∧ ¬ mine c.group) ∧
      (∀ e ∈ t.groups, ¬ mine e.1) ∧
      ∀ g gr a, s.group? g = some gr → gr.part = part → coreOf g = core → gr.ownsU g a = true → a < uBase (core + 1) →
        (∀ h hr, s.group? h = some hr → coreOf h = core → ¬ mine h → hr.ownsU h a = false) →
        memByte t.mem.u a = Config.emptyByte ∧ memByte q.save.u a = memByte s.mem.u a) ∧
  (∀ (s : State) (part core : Nat) (p : Partition), s.part? part = some p → let a := p.save.only (· == core)
    let r := areaAccess s false part core (a.groups.map (·.2))
    (mapGet p.save.status core 0 ≠ 1 ∨ restoreRoom s part core a.groups = false → restoreCore part s core = s) ∧
    (mapGet p.save.status core 0 = 1 → restoreRoom s part core a.groups = true →
      (r.2 = none → ∃ u q, restoreCore part s core = giveBack u part core a ∧ u = { s with fresh := u.fresh, mem := u.mem } ∧
        (restoreCore part s core).part? part = some q ∧ mapGet q.save.status core 0 = 0) ∧
      ∀ ipa, r.2 = some ipa → ∃ q, (restoreCore part s core).part? part = some q ∧ core ∈ q.save.stopped ∧ mapGet? q.save.ipa core = some ipa ∧
        (restoreCore part s core).mem = s.mem ∧ (restoreCore part s core).groups = s.groups ∧
        (restoreCore part s core).sys.notices = s.sys.notices ++ [(true, part, core, ipa)])) ∧
  (∀ (s : State) (part : Nat) (p : Partition) (cores : List Nat), s.part? part = some p →
    exec (.partitionRestore part cores) s = .next (restoreCores s part (fun k => cores.isEmpty || cores.contains k)) ∧
    (p.save = {} → cores = [] → ∃ t q, exec (.partitionRestore part []) s = .next t ∧ t.part? part = some q ∧ q.scheduled = true ∧
      q.out = [] ∧ q.stolen = p.stolenAt s.ns))

/-! ## Firmware, host and board -/

/-- R1, R4, R28, R391 to R398, R400, R402 to R409, R317, R362: registers written and read from outside, partitions created, units fenced,
telemetry periods, boot, recovery, the measurement log, reports, keys, power, resets, host memory and scrubbing. Before firmware runs, and in
recovery, nothing else is seen or changed. What power loss
keeps and what a reset does are the model's choices (logs 13, 22). -/
def Obligations.FirmwareHostAndBoard : Prop :=
  let on (s : State) : Prop := s.sys.stage = .running
  let lost (s : State) (y : Sys) : State :=
    { agenda := s.agenda, ns := s.ns, nextId := s.nextId, fresh := s.fresh, mem := { h := s.mem.h }
      gate := { nonces := s.gate.nonces }, sys := y }
  let kept (s : State) : Sys := { flash := s.sys.flash, fences := s.sys.fences, keyLoads := s.sys.keyLoads, period := s.ns / 1000000 }
  let good (i : Image) : Prop := Config.minVersion ≤ i.version ∧ Config.shake256 i.key = Config.vendorDigest ∧
    Config.ed448Verify i.key (Config.shake256 i.body) i.signature = true
  let slot (s : State) (i : Image) : Prop := mapGet? s.sys.flash 0 = some i ∨ mapGet? s.sys.flash 1 = some i
  let entry (kind version : Nat) (d : List Byte) : List Byte := natBytes 4 kind ++ natBytes 4 version ++ natBytes 8 0 ++ fitBytes 64 d
  let boots (s t : State) : Prop :=
    (∀ i, slot s i → good i → (∀ j, slot s j → good j → j.version < i.version ∨ j = i) → t.sys.stage = .running ∧
      t.sys.log = [entry 1 Config.romVersion Config.romDigest, entry 2 i.version (Config.shake256 i.body),
        entry 3 Config.fenceVersion (Config.shake256 (Config.fenceRecord (s.sys.fences.map unitCode)))]) ∧
    ((∀ i, slot s i → ¬ good i) → t.sys.stage = .recovery) ∧ t.parts = [] ∧ t.sys.flash = s.sys.flash ∧ t.sys.keys = []
  (∀ (s : State) (w : RegWrite), (¬ on s → exec (.registerWrite w) s = .next s) ∧ (on s → exec (.registerWrite w) s = .next (writeRegister s w))) ∧
  (let cr (part : Nat) (g : PartCr → PartCr) (s : State) : State := s.modPart part (fun p => { p with cr := g p.cr })
   ∀ (s : State) (part : Nat), (∀ off bs, writeRegister s (.readOnly part off bs) = s) ∧
    (∀ off (bs : List Byte), ¬ (off ≤ 0x7F ∧ 0x80 ≤ off + bs.length) →
      writeRegister s (.port false part off bs) = s.modPart part (fun p => { p with port := { p.port with buffer := bufferPut p.port.buffer off bs } }) ∧
      writeRegister s (.port true part off bs) =
        s.modPart part (fun p => { p with fwPort := { p.fwPort with buffer := bufferPut p.fwPort.buffer off bs } })) ∧
    (¬ on s → ∀ fw off, functionRead s fw part off = 0 ∧ physicalRead s off = 0) ∧
    (∀ off fw, off < 0x80 → functionRead s fw part off = 0) ∧ (on s → ∀ p, s.part? part = some p → ∀ i, i < 9 →
      functionRead s false part (0x1000 + 8 * i) = (p.counters[i]?).getD 0) ∧
    (on s → ∀ fw, functionRead s fw part 0x80 % 2 = 1 ↔ ∃ p, s.part? part = some p ∧ queueRoom s part (if fw then p.fwPort else p.port).lastCls = 0) ∧
    (on s → ∀ fw p, s.part? part = some p → functionRead s fw part 0x80 / 2 ^ 32 = (if fw then p.fwPort else p.port).rejects) ∧
    (on s → functionRead s false part 0x1100 = cap0 s ∧ functionRead s false part 0x1108 = cap1 s) ∧
    (on s → let w := physicalRead s 0x2000
      w % 2 ^ 16 = s.sys.pwrCap % 2 ^ 16 ∧ w / 2 ^ 16 % 2 ^ 16 = 0 ∧ w / 2 ^ 32 % 2 ^ 16 = s.sys.pwrNow % 2 ^ 16 ∧ w / 2 ^ 48 % 2 ^ 15 = 0 ∧
        w.testBit 63 = s.sys.throt) ∧
    (∀ n, writeRegister s (.deviceNumber n) = if n < 256 then { s with link := { s.link with dev := n } } else s) ∧
    (∀ rs, writeRegister s (.expose part rs) = s.modPart part (fun p => { p with exposed := rs })) ∧
    (∀ core pa, writeRegister s (.saveArea part core pa) =
      if pa % 2097152 = 0 then s.modPart part (fun p => { p with saveAreas := mapPut p.saveAreas core pa }) else s) ∧
    (∀ hot hyst, writeRegister s (.thermal hot hyst) = { s with sys := { s.sys with tHot := min hot 115, hyst := hyst } }) ∧
    (∀ c sl, c < 8 → (∀ i ∈ sl, i < 192) → sl.Nodup →
      writeRegister s (.cWindow part c sl) = s.modPart part (fun p => { p with cwin := mapPut p.cwin c sl })) ∧
    (∀ c sl, 8 ≤ c ∨ (∃ i ∈ sl, 192 ≤ i) → writeRegister s (.cWindow part c sl) = s) ∧
    (∀ v, writeRegister s (.mtab part v) = cr part (fun c => { c with mtab := v &&& ~~~ 31 }) s) ∧
    (∀ v, writeRegister s (.mtabSz part v) = cr part (fun c => { c with mtabSz := v }) s) ∧
    (∀ v, writeRegister s (.convArena part v) = cr part (fun c => { c with convArena := v &&& ~~~ 0xE0 }) s) ∧
    (∀ v, writeRegister s (.dispFault part v) = cr part (fun c => { c with dispFault := v &&& ~~~ 127 }) s) ∧
    (∀ v, writeRegister s (.trapBase part v) = cr part (fun c => { c with trapBase := v &&& ~~~ 2 }) s) ∧
    (∀ v, writeRegister s (.nbvVer part v) = if v = 1 ∨ v = 2 then cr part (fun c => { c with nbvVer := v }) s else s) ∧
    (∀ v, writeRegister s (.weight part v) = if 1 ≤ v ∧ v ≤ 255 then s.modPart part (fun p => { p with weight := v }) else s) ∧
    (∀ v, writeRegister s (.engineWeight part v) = if 1 ≤ v ∧ v ≤ 15 then s.modPart part (fun p => { p with engWeight := v }) else s) ∧
    (∀ v, writeRegister s (.holdTimeout part v) = if v ≠ 0 then s.modPart part (fun p => { p with hold_ns := v }) else s)) ∧
  (∀ (s : State) (cfg : PartCfg), let ok : Prop := on s ∧ cfg.part < 8 ∧ s.part? cfg.part = none ∧ cfg.key < 4096 ∧
      (∀ e ∈ cfg.cells, e.1 < 768 * 2 ^ 30) ∧ ∀ e ∈ cfg.cwin, e.1 < 8 ∧ (∀ i ∈ e.2, i < 192) ∧ e.2.Nodup
    (¬ ok → exec (.partitionCreate cfg) s = .next s) ∧
    (ok → ∃ t p, exec (.partitionCreate cfg) s = .next t ∧ t.part? cfg.part = some p ∧ p.counters = List.replicate 9 0 ∧ p.created = s.ns ∧ p.stolen = 0 ∧
      p.failed = false ∧ p.scheduled = true ∧ p.s1root = cfg.s1root ∧ p.s2root = cfg.s2root ∧ p.peers = cfg.peers ∧ p.cr = { trapBase := cfg.trapBase &&& ~~~ 2 } ∧
      p.queues = [[], [], [], []] ∧ p.hold = [] ∧ p.mask = cfg.mask % 256 ∧ 1 ≤ p.weight ∧ p.weight ≤ 255)) ∧
  (∀ (s : State) (u : FenceUnit),
    let v : State := { applyFence s u with sys := { (applyFence s u).sys with fencing := s.sys.fencing ++ [u] } }
    let settled_ (t : State) : State := { t with sys := { t.sys with fences := s.sys.fences ++ [u], fencing := t.sys.fencing.filter (· != u) } }
    let checked : Prop := ∃ c, u = .cluster c ∧ c ∈ s.sys.machineChecks
    (¬ on s ∨ unitExists u = false → exec (.unitFence u) s = .next s) ∧
    (u ∈ s.sys.fences → u ∉ s.sys.fencing → ¬ checked → exec (.unitFence u) s = .next s) ∧
    (on s → unitExists u = true → u ∉ s.sys.fences → u ∉ s.sys.fencing → ¬ checked →
      (fenceHeld v u = true ∨ (∃ n, u = .channel n) → exec (.unitFence u) s = .next v) ∧
      (fenceHeld v u = false → (∀ n, u ≠ .channel n) → exec (.unitFence u) s = .next (settled_ v)) ∧
      (∀ k, u = .core k → (v.core k).fenced = true) ∧ ∀ n p, u = .port n → v.link.ports[n]? = some p → p.up = false) ∧
    (on s → unitExists u = true → u ∈ s.sys.fencing → ¬ checked →
      exec (.unitFence u) s = .next (if fenceHeld s u then s else settled_ s)) ∧
    (∀ c, on s → c < 8 → u = .cluster c → u ∈ s.sys.fences → u ∉ s.sys.fencing → c ∈ s.sys.machineChecks → let t := stopCluster s c
      exec (.unitFence u) s = .next { t with sys := { t.sys with machineChecks := t.sys.machineChecks.filter (· != c) } })) ∧
  (∀ s : State, ((cap0 s).testBit 63 = true ↔ s.sys.fences ≠ []) ∧ (∀ i, i < 16 → ((cap0 s).testBit (32 + i) = true ↔ .port i ∉ s.sys.fences)) ∧
    (∀ i, i < 8 → ((cap0 s).testBit (8 + i) = true ↔ .cluster i ∉ s.sys.fences)) ∧ cap1 s = 131072 * channels s + channels s) ∧
  (∀ s : State, (on s → 1000000 * (s.sys.period + 1) ≤ s.ns → ∃ t, exec .telemetryPeriodEnd s = .next t ∧ t.sys.period = s.sys.period + 1 ∧ t.sys.telem = []) ∧
    (¬ on s ∨ s.ns < 1000000 * (s.sys.period + 1) → exec .telemetryPeriodEnd s = .next s)) ∧
  (∀ s : State, s.parts = [] → s.sys.keys = [] → (s.sys.stage = .off → ∃ t, exec .boot s = .next t ∧ boots s t)) ∧
  (∀ s : State, s.sys.stage ≠ .off → exec .boot s = .next s) ∧
  (∀ s : State, exec .modulePowerDown s = .next (lost s (kept s)) ∧ ∀ k, exec (.thermalTrip k) s =
    .next (if (s.core k).temp.any (fun t => decide (115 ≤ t)) then lost s (kept s) else s)) ∧
  (∀ s : State, (s.sys.stage ≠ .off → ∃ t, exec .managementReset s = .next t ∧ boots s t) ∧ (s.sys.stage = .off → exec .managementReset s = .next s) ∧
    (s.sys.stage = .recovery → ∃ t, exec .recoveryReset s = .next t ∧ boots s t) ∧ (s.sys.stage ≠ .recovery → exec .recoveryReset s = .next s)) ∧
  (∀ (s : State) (n : Nat) (i : Image), exec (.recoveryImageWrite n i) s = .next (if s.sys.stage = .recovery ∧ n < 2 then
    { s with sys := { s.sys with flash := mapPut s.sys.flash n i } } else s)) ∧
  (∀ (s : State) (v : Nat) (d : List Byte), on s → exec (.componentStart v d) s = .next { s with sys := { s.sys with
    log := s.sys.log ++ [entry 4 v d], digest := fitBytes 64 (Config.shake256 (fitBytes 64 s.sys.digest ++ entry 4 v d)) } }) ∧
  (∀ (s : State) (part : Option Nat) (nonce : List Byte), on s → (∀ p, part = some p → s.part? p ≠ none) →
    let b := fitBytes 32 nonce ++ fitBytes 64 s.sys.digest ++ natBytes 4 s.sys.log.length ++ natBytes 4 (part.getD 0xFFFFFFFF) ++ natBytes 8 (cap0 s) ++
      natBytes 8 (cap1 s) ++ natBytes 8 s.ns
    b.length = 128 ∧ exec (.attestationReport part nonce) s = .next { s with sys := { s.sys with
      reports := s.sys.reports ++ [b ++ fitBytes 114 (Config.ed448Sign (Config.shake256 b))] } }) ∧
  (∀ (s : State) (k : Nat), on s → k < 4096 → ∃ t, exec (.keyLoad k) s = .next t ∧ t.mem = s.mem ∧ keyLoad t k = s.sys.keyLoads + 1 ∧
    ∀ j, j ≠ k → keyLoad t j = keyLoad s j) ∧
  (∀ (s : State) (k : Nat), on s → let settled_ (u : State) : State := { u with sys := { u.sys with keys := mapDel u.sys.keys k } }
    keyLoad (settled_ s) k = 0 ∧ (∀ j, j ≠ k → keyLoad (settled_ s) j = keyLoad s j) ∧
    (∃ u, u.sys.keys = s.sys.keys ∧ exec (.keyDestroy k) s = .next (if keyInUse u k = true then u else settled_ u)) ∧
    ((∀ e ∈ s.strokes, ∀ q ∈ e.2.fifo, q.usesKey k = false) → (∀ e ∈ s.ctxs, ∀ q ∈ e.2.fifo, q.usesKey k = false) →
      exec (.keyDestroy k) s = .next (if keyInUse s k = true then s else settled_ s))) ∧
  (∀ (s : State) (w : Nat), on s → exec (.powerSample w) s = .next { s with sys := { s.sys with
    pwrNow := w % 65536, throt := decide (s.sys.pwrCap < w ∨ (w = s.sys.pwrCap ∧ s.sys.throt = true)) } }) ∧
  (∀ (s : State) (v : BitVec 16), on s → exec (.pwrcapWrite v) s = .next { s with sys := { s.sys with
    pwrCap := if 4000 < v.toNat then 4000 else if v.toNat < 1000 then 1000 else v.toNat } }) ∧
  (∀ (s : State) (part va n : Nat) (bs : List Byte) (bad : Bool),
    (¬ on s ∨ shown s part va bs.length = false → exec (.hostMemoryAccess (.gWrite part va bs bad)) s = .next s) ∧
    (∀ ls, on s → shown s part va bs.length = true → peerReach s part va bs.length .store = .ok ls →
      ∃ t, exec (.hostMemoryAccess (.gWrite part va bs bad)) s = .next t ∧
      (∀ k, t.mem.home k = (writePlaces s ls bs).mem.home k) ∧ (bad = false → t = writePlaces s ls bs) ∧
      (bad = true → ∀ l ∈ ls, t.mem.poisoned l.1.home l.1.line = true)) ∧
    exec (.hostMemoryAccess (.gRead part va n)) s = .next s ∧
    (768 * 2 ^ 30 < va + bs.length → ∀ key, exec (.hostMemoryAccess (.phys false va key bs)) s = .next s) ∧
    (384 * 2 ^ 20 < va + bs.length → ∀ key, exec (.hostMemoryAccess (.phys true va key bs)) s = .next s) ∧
    ∃ t, exec (.hostMemoryAccess (.hostMem va bs)) s = .next t ∧ t = { s with mem := { s.mem with h := t.mem.h } } ∧
      ∀ a, memByte t.mem.h a = if va ≤ a ∧ a < va + bs.length then (bs[a - va]?).getD 0 else memByte s.mem.h a) ∧
  (∀ (s : State) (part va n : Nat), shown s part va n = true ↔ ∃ p, s.part? part = some p ∧ ∃ r ∈ p.exposed, r.1 ≤ va ∧ va + n ≤ r.2) ∧
  (∀ (s : State) (line : Nat) (bad : Bool), ∃ t, exec (.hostMemoryAccess (.hostMark line bad)) s = .next t ∧ t.mem.poisoned .h line = bad ∧
    (∀ k, t.mem.home k = s.mem.home k)) ∧
  (∀ (s : State) (page : Nat) (no : Bool), ∃ t, exec (.hostMemoryAccess (.iommu page no)) s = .next t ∧
    t = { s with sys := { s.sys with refused := t.sys.refused } } ∧ ∀ n, n ∈ t.sys.refused ↔ (n = page ∧ no = true) ∨ (n ≠ page ∧ n ∈ s.sys.refused)) ∧
  (∀ (s : State) (part a : Nat) (b : Byte), (∀ p, walkPage s part a = .ok p → p.share = false → exec (.hostMemoryAccess (.share part a [b] false)) s = .next s) ∧
    (∀ p, on s → walkPage s part a = .ok p → p.share = true → p.kind = 1 → exec (.hostMemoryAccess (.share part a [b] false)) s =
      .next (writeBytes s { home := .d, addr := p.phys a } [b]))) ∧
  (∀ (s : State) (part : Nat) (p : Partition) (l : LineId), s.part? part = some p → p.counters.length = 9 →
    (¬ on s ∨ lineOk l = false → ∀ fix, exec (.hostMemoryAccess (.code part l fix)) s = .next s) ∧ (on s → lineOk l = true →
    (∃ t q, exec (.hostMemoryAccess (.code part l true)) s = .next t ∧ t.mem = s.mem ∧ t.part? part = some q ∧
      let i := match l with | .g _ => 1 | _ => 0
      (q.counters[i]?).getD 0 = min (2 ^ 64 - 1) ((p.counters[i]?).getD 0 + 1)) ∧
    ∃ t q, exec (.hostMemoryAccess (.code part l false)) s = .next t ∧ t.part? part = some q ∧
      (q.counters[3]?).getD 0 = min (2 ^ 64 - 1) ((p.counters[3]?).getD 0 + 1) ∧ ∀ hm n, linePlace l = some (hm, n) → t.mem.poisoned hm n = true)) ∧
  (∀ (s : State) (l : LineId), ¬ on s → exec (.poisonScrub l) s = .next s) ∧
  (∀ (s : State) (l : LineId), on s → ∃ t, exec (.poisonScrub l) s = .next t ∧ (∀ k, t.mem.home k = s.mem.home k) ∧
    (∀ hm n, linePlace l = some (hm, n) → t.mem.poisoned hm n = false ∧ ∀ k m, k ≠ hm ∨ m ≠ n → t.mem.poisoned k m = s.mem.poisoned k m) ∧
    (∀ k r, l = .row k r → t.mem = s.mem ∧ ∀ st, s.stroke? k = some st → ∃ b, t.stroke? k = some b ∧ b.regs.v = st.regs.v ∧
      ∀ i n, n < 32 → b.regs.poisGet i n = if i = r then false else st.regs.poisGet i n) ∧
    (∀ c b w, l = .amem c b w → t.strokes = s.strokes ∧ t.mem.amem = s.mem.amem ∧ t.mem.accBad ((64 * c + b) * 1024 + w) = false))
end

