-- ==== Sys2Proof/Laws/Data.lean ====
section
/-!
SUPPORT. What the operations of Machine/Data.lean do: maps, memories and their canonical form, masks and lanes.
-/
namespace Sys2Proof.Machine

/-! ## Maps -/

@[simp] theorem mapGet?_nil {α : Type} (k : Nat) : mapGet? ([] : Map α) k = none := rfl

theorem mapGet?_put {α : Type} (m : Map α) (k j : Nat) (a : α) :
    mapGet? (mapPut m k a) j = if k = j then some a else mapGet? m j := by
  induction m with
  | nil => simp [mapPut, mapGet?]
  | cons e m ih =>
    obtain ⟨i, b⟩ := e
    simp only [mapPut]
    split
    · simp [mapGet?]
    · split
      · subst_vars; simp only [mapGet?]; split <;> simp_all
      · simp only [mapGet?, ih]; split <;> split <;> simp_all

theorem mapGet?_del {α : Type} (m : Map α) (k j : Nat) :
    mapGet? (mapDel m k) j = if k = j then none else mapGet? m j := by
  induction m with
  | nil => simp [mapDel, mapGet?]
  | cons e m ih =>
    obtain ⟨i, b⟩ := e
    simp only [mapDel] at ih
    by_cases h : i = k
    · subst h
      simp only [mapDel, List.filter_cons, beq_self_eq_true, Bool.not_true, Bool.false_eq_true, if_false, ih, mapGet?]
      split <;> simp_all
    · simp only [mapDel, List.filter_cons, h, not_false_eq_true, Bool.not_eq_true', beq_eq_false_iff_ne, ne_eq, if_true, mapGet?, ih]
      split <;> split <;> simp_all

theorem mapGet_put {α : Type} (m : Map α) (k j : Nat) (a d : α) :
    mapGet (mapPut m k a) j d = if k = j then a else mapGet m j d := by
  simp only [mapGet, mapGet?_put]; split <;> rfl

theorem mapGet_set {α : Type} [BEq α] [LawfulBEq α] (m : Map α) (k j : Nat) (a d : α) :
    mapGet (mapSet m d k a) j d = if k = j then a else mapGet m j d := by
  unfold mapSet
  split
  · rename_i h
    simp only [mapGet, mapGet?_del]
    split
    · simpa using (eq_of_beq h).symm
    · rfl
  · exact mapGet_put ..

theorem mapGet?_mod {α : Type} (m : Map α) (k j : Nat) (g : α → α) :
    mapGet? (mapMod m k g) j = if k = j then (mapGet? m j).map g else mapGet? m j := by
  induction m with
  | nil => simp [mapMod, mapGet?]
  | cons e m ih =>
    obtain ⟨i, b⟩ := e
    simp only [mapMod] at ih
    simp only [mapMod, List.map_cons]
    by_cases h : i = k
    · subst h; by_cases hj : i = j <;> simp_all [mapGet?]
    · by_cases hj : i = j
      · subst hj; simp [mapGet?, h, Ne.symm h]
      · simp only [h, if_false, mapGet?, hj]; simpa using ih

@[simp] theorem mapGet?_mod_self {α : Type} (m : Map α) (k : Nat) (g : α → α) :
    mapGet? (mapMod m k g) k = (mapGet? m k).map g := by simp [mapGet?_mod]

theorem mapGet?_mod_ne {α : Type} (m : Map α) {k j : Nat} (h : j ≠ k) (g : α → α) :
    mapGet? (mapMod m k g) j = mapGet? m j := by simp [mapGet?_mod, Ne.symm h]

/-! ## Memories -/

/-- A read after a write of one byte. -/
theorem memByte_memSet (m : Memory) (a j : Nat) (b : Byte) :
    memByte (memSet m a b) j = if a = j then b else memByte m j := mapGet_set m a j b Config.emptyByte

/-- A read after a write of bytes. -/
theorem memByte_memWrite (bs : List Byte) (m : Memory) (a j : Nat) :
    memByte (memWrite m a bs) j = if a ≤ j ∧ j < a + bs.length then (bs[j - a]?).getD Config.emptyByte else memByte m j := by
  induction bs generalizing m a with
  | nil => simp [memWrite]
  | cons b bs ih =>
    simp only [memWrite, ih, memByte_memSet, List.length_cons]
    by_cases h : j = a
    · subst h
      rw [if_neg (by omega), if_pos rfl, if_pos (by omega)]; simp
    · by_cases h2 : a + 1 ≤ j ∧ j < a + 1 + bs.length
      · have : j - a = (j - (a + 1)) + 1 := by omega
        rw [if_pos h2, if_pos (by omega), this]; simp
      · rw [if_neg h2, if_neg (by omega), if_neg (by omega)]

theorem memWf_cons {a : Nat} {b : Byte} {m : Memory} (h : memWf ((a, b) :: m) = true) :
    b ≠ Config.emptyByte ∧ memWf m = true ∧ ∀ e ∈ m, a < e.1 := by
  induction m generalizing a b with
  | nil => simp [memWf] at *; exact h
  | cons e m ih =>
    obtain ⟨a', b'⟩ := e
    simp only [memWf, Bool.and_eq_true, decide_eq_true_eq, bne_iff_ne, ne_eq] at h
    obtain ⟨⟨h1, h2⟩, h3⟩ := h
    have := ih h3
    refine ⟨h2, h3, ?_⟩
    intro e he
    rcases List.mem_cons.1 he with rfl | he
    · exact h1
    · have := this.2.2 e he; omega

theorem memWf_of_cons {a : Nat} {b : Byte} {m : Memory} (hb : b ≠ Config.emptyByte) (hm : memWf m = true)
    (ha : ∀ e ∈ m, a < e.1) : memWf ((a, b) :: m) = true := by
  cases m with
  | nil => simpa [memWf] using hb
  | cons e m =>
    obtain ⟨a', b'⟩ := e
    simp only [memWf, Bool.and_eq_true, decide_eq_true_eq, bne_iff_ne, ne_eq]
    exact ⟨⟨ha (a', b') (by simp), hb⟩, hm⟩

/-- Leaving entries out keeps the canonical form. -/
theorem memWf_filter (p : Host.Cell → Bool) (m : Memory) (h : memWf m = true) : memWf (m.filter p) = true := by
  induction m with
  | nil => rfl
  | cons e m ih =>
    obtain ⟨a, b⟩ := e
    obtain ⟨hb, hm, ha⟩ := memWf_cons h
    simp only [List.filter_cons]
    split
    · exact memWf_of_cons hb (ih hm) (fun e he => ha e (List.mem_filter.1 he).1)
    · exact ih hm

theorem mapPut_mem {α : Type} {m : Map α} {k : Nat} {a : α} {e : Nat × α} (h : e ∈ mapPut m k a) : e = (k, a) ∨ e ∈ m := by
  induction m with
  | nil => simpa [mapPut] using h
  | cons f m ih =>
    obtain ⟨j, b⟩ := f
    simp only [mapPut] at h
    split at h
    · simpa using h
    · split at h
      · rcases List.mem_cons.1 h with h | h
        · exact .inl h
        · exact .inr (List.mem_cons_of_mem _ h)
      · rcases List.mem_cons.1 h with h | h
        · exact .inr (by simp [h])
        · rcases ih h with h | h
          · exact .inl h
          · exact .inr (List.mem_cons_of_mem _ h)

theorem memWf_put (m : Memory) (k : Nat) (b : Byte) (hb : b ≠ Config.emptyByte) (h : memWf m = true) :
    memWf (mapPut m k b) = true := by
  induction m with
  | nil => simpa [mapPut, memWf] using hb
  | cons e m ih =>
    obtain ⟨a, c⟩ := e
    obtain ⟨hc, hm, ha⟩ := memWf_cons h
    simp only [mapPut]
    split
    · rename_i hk
      refine memWf_of_cons hb h ?_
      intro e he
      rcases List.mem_cons.1 he with rfl | he
      · exact hk
      · have := ha e he; omega
    · split
      · rename_i _ hk; subst hk; exact memWf_of_cons hb hm ha
      · rename_i h1 h2
        refine memWf_of_cons hc (ih hm) ?_
        intro e he
        rcases mapPut_mem he with rfl | he
        · simp; omega
        · exact ha e he

/-- Every write of a byte keeps the canonical form. -/
theorem memWf_memSet (m : Memory) (a : Nat) (b : Byte) (h : memWf m = true) : memWf (memSet m a b) = true := by
  unfold memSet mapSet
  split
  · exact memWf_filter _ m h
  · rename_i hb; exact memWf_put m a b (by simpa using hb) h

/-- Every write of bytes keeps the canonical form. -/
theorem memWf_memWrite (bs : List Byte) (m : Memory) (a : Nat) (h : memWf m = true) : memWf (memWrite m a bs) = true := by
  induction bs generalizing m a with
  | nil => exact h
  | cons b bs ih => exact ih _ _ (memWf_memSet m a b h)

/-! ## Lanes -/

theorem mem_lanesOf {m : Mask} {l : Nat} : l ∈ lanesOf m ↔ l < 32 ∧ m.getLsbD l = true := by simp [lanesOf]

theorem lanesOf_nodup (m : Mask) : (lanesOf m).Nodup := List.Nodup.filter _ List.nodup_range

theorem getLsbD_laneBit (l j : Nat) (h : j < 32) : (laneBit l).getLsbD j = decide (l = j) := by
  simp only [laneBit, BitVec.getLsbD_ofNat, Nat.testBit_two_pow, h, decide_true, Bool.true_and]

theorem getLsbD_foldl_laneBit (t : Nat → Bool) (ls : List Nat) (m : Mask) (j : Nat) (h : j < 32) :
    (ls.foldl (fun m l => if t l then m ||| laneBit l else m) m).getLsbD j = (m.getLsbD j || (decide (j ∈ ls) && t j)) := by
  induction ls generalizing m with
  | nil => simp
  | cons l ls ih =>
    simp only [List.foldl_cons, ih]
    by_cases hl : l = j
    · subst hl
      cases ht : t l
      · simp
      · simp only [if_true, BitVec.getLsbD_or, getLsbD_laneBit l l h]; simp
    · have hj : ¬ j = l := fun e => hl e.symm
      cases t l
      · simp [hj]
      · simp only [if_true, BitVec.getLsbD_or, getLsbD_laneBit l j h]; simp [hl, hj]

/-- A lane is in the mask of a test if it meets it. -/
theorem getLsbD_maskOf (t : Nat → Bool) (j : Nat) (h : j < 32) : (maskOf t).getLsbD j = t j := by
  simp only [maskOf, getLsbD_foldl_laneBit t _ _ j h]; simp [h]

theorem maskOf_false : maskOf (fun _ => false) = 0 := by decide

end Sys2Proof.Machine
end

