-- ==== Sys2Proof/Laws/State.lean ====
section
/-!
SUPPORT. What each update of the state changes, field by field, and what the lookups find after it.
-/
namespace Sys2Proof.Machine

/-! ## modStroke -/

@[simp] theorem State.modStroke_agenda (s : State) (k : Nat) (g : Stroke → Stroke) : (s.modStroke k g).agenda = s.agenda := rfl
@[simp] theorem State.modStroke_turn (s : State) (k : Nat) (g : Stroke → Stroke) : (s.modStroke k g).turn = s.turn := rfl
@[simp] theorem State.modStroke_cycle (s : State) (k : Nat) (g : Stroke → Stroke) : (s.modStroke k g).cycle = s.cycle := rfl
@[simp] theorem State.modStroke_ns (s : State) (k : Nat) (g : Stroke → Stroke) : (s.modStroke k g).ns = s.ns := rfl
@[simp] theorem State.modStroke_nextId (s : State) (k : Nat) (g : Stroke → Stroke) : (s.modStroke k g).nextId = s.nextId := rfl
@[simp] theorem State.modStroke_fresh (s : State) (k : Nat) (g : Stroke → Stroke) : (s.modStroke k g).fresh = s.fresh := rfl
@[simp] theorem State.modStroke_mem (s : State) (k : Nat) (g : Stroke → Stroke) : (s.modStroke k g).mem = s.mem := rfl
@[simp] theorem State.modStroke_strokes (s : State) (k : Nat) (g : Stroke → Stroke) : (s.modStroke k g).strokes = mapMod s.strokes k g := rfl
@[simp] theorem State.modStroke_groups (s : State) (k : Nat) (g : Stroke → Stroke) : (s.modStroke k g).groups = s.groups := rfl
@[simp] theorem State.modStroke_ctxs (s : State) (k : Nat) (g : Stroke → Stroke) : (s.modStroke k g).ctxs = s.ctxs := rfl
@[simp] theorem State.modStroke_cores (s : State) (k : Nat) (g : Stroke → Stroke) : (s.modStroke k g).cores = s.cores := rfl
@[simp] theorem State.modStroke_copies (s : State) (k : Nat) (g : Stroke → Stroke) : (s.modStroke k g).copies = s.copies := rfl
@[simp] theorem State.modStroke_engines (s : State) (k : Nat) (g : Stroke → Stroke) : (s.modStroke k g).engines = s.engines := rfl
@[simp] theorem State.modStroke_mms (s : State) (k : Nat) (g : Stroke → Stroke) : (s.modStroke k g).mms = s.mms := rfl
@[simp] theorem State.modStroke_fired (s : State) (k : Nat) (g : Stroke → Stroke) : (s.modStroke k g).fired = s.fired := rfl
@[simp] theorem State.modStroke_remote (s : State) (k : Nat) (g : Stroke → Stroke) : (s.modStroke k g).remote = s.remote := rfl
@[simp] theorem State.modStroke_armings (s : State) (k : Nat) (g : Stroke → Stroke) : (s.modStroke k g).armings = s.armings := rfl
@[simp] theorem State.modStroke_resv (s : State) (k : Nat) (g : Stroke → Stroke) : (s.modStroke k g).resv = s.resv := rfl
@[simp] theorem State.modStroke_parts (s : State) (k : Nat) (g : Stroke → Stroke) : (s.modStroke k g).parts = s.parts := rfl
@[simp] theorem State.modStroke_launches (s : State) (k : Nat) (g : Stroke → Stroke) : (s.modStroke k g).launches = s.launches := rfl
@[simp] theorem State.modStroke_scheds (s : State) (k : Nat) (g : Stroke → Stroke) : (s.modStroke k g).scheds = s.scheds := rfl
@[simp] theorem State.modStroke_gate (s : State) (k : Nat) (g : Stroke → Stroke) : (s.modStroke k g).gate = s.gate := rfl
@[simp] theorem State.modStroke_meshes (s : State) (k : Nat) (g : Stroke → Stroke) : (s.modStroke k g).meshes = s.meshes := rfl
@[simp] theorem State.modStroke_shared (s : State) (k : Nat) (g : Stroke → Stroke) : (s.modStroke k g).shared = s.shared := rfl
@[simp] theorem State.modStroke_link (s : State) (k : Nat) (g : Stroke → Stroke) : (s.modStroke k g).link = s.link := rfl
@[simp] theorem State.modStroke_chunks (s : State) (k : Nat) (g : Stroke → Stroke) : (s.modStroke k g).chunks = s.chunks := rfl
@[simp] theorem State.modStroke_sys (s : State) (k : Nat) (g : Stroke → Stroke) : (s.modStroke k g).sys = s.sys := rfl

/-! ## modGroup -/

@[simp] theorem State.modGroup_agenda (s : State) (k : Nat) (g : Group → Group) : (s.modGroup k g).agenda = s.agenda := rfl
@[simp] theorem State.modGroup_turn (s : State) (k : Nat) (g : Group → Group) : (s.modGroup k g).turn = s.turn := rfl
@[simp] theorem State.modGroup_cycle (s : State) (k : Nat) (g : Group → Group) : (s.modGroup k g).cycle = s.cycle := rfl
@[simp] theorem State.modGroup_ns (s : State) (k : Nat) (g : Group → Group) : (s.modGroup k g).ns = s.ns := rfl
@[simp] theorem State.modGroup_nextId (s : State) (k : Nat) (g : Group → Group) : (s.modGroup k g).nextId = s.nextId := rfl
@[simp] theorem State.modGroup_fresh (s : State) (k : Nat) (g : Group → Group) : (s.modGroup k g).fresh = s.fresh := rfl
@[simp] theorem State.modGroup_mem (s : State) (k : Nat) (g : Group → Group) : (s.modGroup k g).mem = s.mem := rfl
@[simp] theorem State.modGroup_strokes (s : State) (k : Nat) (g : Group → Group) : (s.modGroup k g).strokes = s.strokes := rfl
@[simp] theorem State.modGroup_groups (s : State) (k : Nat) (g : Group → Group) : (s.modGroup k g).groups = mapMod s.groups k g := rfl
@[simp] theorem State.modGroup_ctxs (s : State) (k : Nat) (g : Group → Group) : (s.modGroup k g).ctxs = s.ctxs := rfl
@[simp] theorem State.modGroup_cores (s : State) (k : Nat) (g : Group → Group) : (s.modGroup k g).cores = s.cores := rfl
@[simp] theorem State.modGroup_copies (s : State) (k : Nat) (g : Group → Group) : (s.modGroup k g).copies = s.copies := rfl
@[simp] theorem State.modGroup_engines (s : State) (k : Nat) (g : Group → Group) : (s.modGroup k g).engines = s.engines := rfl
@[simp] theorem State.modGroup_mms (s : State) (k : Nat) (g : Group → Group) : (s.modGroup k g).mms = s.mms := rfl
@[simp] theorem State.modGroup_fired (s : State) (k : Nat) (g : Group → Group) : (s.modGroup k g).fired = s.fired := rfl
@[simp] theorem State.modGroup_remote (s : State) (k : Nat) (g : Group → Group) : (s.modGroup k g).remote = s.remote := rfl
@[simp] theorem State.modGroup_armings (s : State) (k : Nat) (g : Group → Group) : (s.modGroup k g).armings = s.armings := rfl
@[simp] theorem State.modGroup_resv (s : State) (k : Nat) (g : Group → Group) : (s.modGroup k g).resv = s.resv := rfl
@[simp] theorem State.modGroup_parts (s : State) (k : Nat) (g : Group → Group) : (s.modGroup k g).parts = s.parts := rfl
@[simp] theorem State.modGroup_launches (s : State) (k : Nat) (g : Group → Group) : (s.modGroup k g).launches = s.launches := rfl
@[simp] theorem State.modGroup_scheds (s : State) (k : Nat) (g : Group → Group) : (s.modGroup k g).scheds = s.scheds := rfl
@[simp] theorem State.modGroup_gate (s : State) (k : Nat) (g : Group → Group) : (s.modGroup k g).gate = s.gate := rfl
@[simp] theorem State.modGroup_meshes (s : State) (k : Nat) (g : Group → Group) : (s.modGroup k g).meshes = s.meshes := rfl
@[simp] theorem State.modGroup_shared (s : State) (k : Nat) (g : Group → Group) : (s.modGroup k g).shared = s.shared := rfl
@[simp] theorem State.modGroup_link (s : State) (k : Nat) (g : Group → Group) : (s.modGroup k g).link = s.link := rfl
@[simp] theorem State.modGroup_chunks (s : State) (k : Nat) (g : Group → Group) : (s.modGroup k g).chunks = s.chunks := rfl
@[simp] theorem State.modGroup_sys (s : State) (k : Nat) (g : Group → Group) : (s.modGroup k g).sys = s.sys := rfl

/-! ## modCtx -/

@[simp] theorem State.modCtx_agenda (s : State) (k : Nat) (g : ScribeCtx → ScribeCtx) : (s.modCtx k g).agenda = s.agenda := rfl
@[simp] theorem State.modCtx_turn (s : State) (k : Nat) (g : ScribeCtx → ScribeCtx) : (s.modCtx k g).turn = s.turn := rfl
@[simp] theorem State.modCtx_cycle (s : State) (k : Nat) (g : ScribeCtx → ScribeCtx) : (s.modCtx k g).cycle = s.cycle := rfl
@[simp] theorem State.modCtx_ns (s : State) (k : Nat) (g : ScribeCtx → ScribeCtx) : (s.modCtx k g).ns = s.ns := rfl
@[simp] theorem State.modCtx_nextId (s : State) (k : Nat) (g : ScribeCtx → ScribeCtx) : (s.modCtx k g).nextId = s.nextId := rfl
@[simp] theorem State.modCtx_fresh (s : State) (k : Nat) (g : ScribeCtx → ScribeCtx) : (s.modCtx k g).fresh = s.fresh := rfl
@[simp] theorem State.modCtx_mem (s : State) (k : Nat) (g : ScribeCtx → ScribeCtx) : (s.modCtx k g).mem = s.mem := rfl
@[simp] theorem State.modCtx_strokes (s : State) (k : Nat) (g : ScribeCtx → ScribeCtx) : (s.modCtx k g).strokes = s.strokes := rfl
@[simp] theorem State.modCtx_groups (s : State) (k : Nat) (g : ScribeCtx → ScribeCtx) : (s.modCtx k g).groups = s.groups := rfl
@[simp] theorem State.modCtx_ctxs (s : State) (k : Nat) (g : ScribeCtx → ScribeCtx) : (s.modCtx k g).ctxs = mapMod s.ctxs k g := rfl
@[simp] theorem State.modCtx_cores (s : State) (k : Nat) (g : ScribeCtx → ScribeCtx) : (s.modCtx k g).cores = s.cores := rfl
@[simp] theorem State.modCtx_copies (s : State) (k : Nat) (g : ScribeCtx → ScribeCtx) : (s.modCtx k g).copies = s.copies := rfl
@[simp] theorem State.modCtx_engines (s : State) (k : Nat) (g : ScribeCtx → ScribeCtx) : (s.modCtx k g).engines = s.engines := rfl
@[simp] theorem State.modCtx_mms (s : State) (k : Nat) (g : ScribeCtx → ScribeCtx) : (s.modCtx k g).mms = s.mms := rfl
@[simp] theorem State.modCtx_fired (s : State) (k : Nat) (g : ScribeCtx → ScribeCtx) : (s.modCtx k g).fired = s.fired := rfl
@[simp] theorem State.modCtx_remote (s : State) (k : Nat) (g : ScribeCtx → ScribeCtx) : (s.modCtx k g).remote = s.remote := rfl
@[simp] theorem State.modCtx_armings (s : State) (k : Nat) (g : ScribeCtx → ScribeCtx) : (s.modCtx k g).armings = s.armings := rfl
@[simp] theorem State.modCtx_resv (s : State) (k : Nat) (g : ScribeCtx → ScribeCtx) : (s.modCtx k g).resv = s.resv := rfl
@[simp] theorem State.modCtx_parts (s : State) (k : Nat) (g : ScribeCtx → ScribeCtx) : (s.modCtx k g).parts = s.parts := rfl
@[simp] theorem State.modCtx_launches (s : State) (k : Nat) (g : ScribeCtx → ScribeCtx) : (s.modCtx k g).launches = s.launches := rfl
@[simp] theorem State.modCtx_scheds (s : State) (k : Nat) (g : ScribeCtx → ScribeCtx) : (s.modCtx k g).scheds = s.scheds := rfl
@[simp] theorem State.modCtx_gate (s : State) (k : Nat) (g : ScribeCtx → ScribeCtx) : (s.modCtx k g).gate = s.gate := rfl
@[simp] theorem State.modCtx_meshes (s : State) (k : Nat) (g : ScribeCtx → ScribeCtx) : (s.modCtx k g).meshes = s.meshes := rfl
@[simp] theorem State.modCtx_shared (s : State) (k : Nat) (g : ScribeCtx → ScribeCtx) : (s.modCtx k g).shared = s.shared := rfl
@[simp] theorem State.modCtx_link (s : State) (k : Nat) (g : ScribeCtx → ScribeCtx) : (s.modCtx k g).link = s.link := rfl
@[simp] theorem State.modCtx_chunks (s : State) (k : Nat) (g : ScribeCtx → ScribeCtx) : (s.modCtx k g).chunks = s.chunks := rfl
@[simp] theorem State.modCtx_sys (s : State) (k : Nat) (g : ScribeCtx → ScribeCtx) : (s.modCtx k g).sys = s.sys := rfl

/-! ## modPart -/

@[simp] theorem State.modPart_agenda (s : State) (k : Nat) (g : Partition → Partition) : (s.modPart k g).agenda = s.agenda := rfl
@[simp] theorem State.modPart_turn (s : State) (k : Nat) (g : Partition → Partition) : (s.modPart k g).turn = s.turn := rfl
@[simp] theorem State.modPart_cycle (s : State) (k : Nat) (g : Partition → Partition) : (s.modPart k g).cycle = s.cycle := rfl
@[simp] theorem State.modPart_ns (s : State) (k : Nat) (g : Partition → Partition) : (s.modPart k g).ns = s.ns := rfl
@[simp] theorem State.modPart_nextId (s : State) (k : Nat) (g : Partition → Partition) : (s.modPart k g).nextId = s.nextId := rfl
@[simp] theorem State.modPart_fresh (s : State) (k : Nat) (g : Partition → Partition) : (s.modPart k g).fresh = s.fresh := rfl
@[simp] theorem State.modPart_mem (s : State) (k : Nat) (g : Partition → Partition) : (s.modPart k g).mem = s.mem := rfl
@[simp] theorem State.modPart_strokes (s : State) (k : Nat) (g : Partition → Partition) : (s.modPart k g).strokes = s.strokes := rfl
@[simp] theorem State.modPart_groups (s : State) (k : Nat) (g : Partition → Partition) : (s.modPart k g).groups = s.groups := rfl
@[simp] theorem State.modPart_ctxs (s : State) (k : Nat) (g : Partition → Partition) : (s.modPart k g).ctxs = s.ctxs := rfl
@[simp] theorem State.modPart_cores (s : State) (k : Nat) (g : Partition → Partition) : (s.modPart k g).cores = s.cores := rfl
@[simp] theorem State.modPart_copies (s : State) (k : Nat) (g : Partition → Partition) : (s.modPart k g).copies = s.copies := rfl
@[simp] theorem State.modPart_engines (s : State) (k : Nat) (g : Partition → Partition) : (s.modPart k g).engines = s.engines := rfl
@[simp] theorem State.modPart_mms (s : State) (k : Nat) (g : Partition → Partition) : (s.modPart k g).mms = s.mms := rfl
@[simp] theorem State.modPart_fired (s : State) (k : Nat) (g : Partition → Partition) : (s.modPart k g).fired = s.fired := rfl
@[simp] theorem State.modPart_remote (s : State) (k : Nat) (g : Partition → Partition) : (s.modPart k g).remote = s.remote := rfl
@[simp] theorem State.modPart_armings (s : State) (k : Nat) (g : Partition → Partition) : (s.modPart k g).armings = s.armings := rfl
@[simp] theorem State.modPart_resv (s : State) (k : Nat) (g : Partition → Partition) : (s.modPart k g).resv = s.resv := rfl
@[simp] theorem State.modPart_parts (s : State) (k : Nat) (g : Partition → Partition) : (s.modPart k g).parts = mapMod s.parts k g := rfl
@[simp] theorem State.modPart_launches (s : State) (k : Nat) (g : Partition → Partition) : (s.modPart k g).launches = s.launches := rfl
@[simp] theorem State.modPart_scheds (s : State) (k : Nat) (g : Partition → Partition) : (s.modPart k g).scheds = s.scheds := rfl
@[simp] theorem State.modPart_gate (s : State) (k : Nat) (g : Partition → Partition) : (s.modPart k g).gate = s.gate := rfl
@[simp] theorem State.modPart_meshes (s : State) (k : Nat) (g : Partition → Partition) : (s.modPart k g).meshes = s.meshes := rfl
@[simp] theorem State.modPart_shared (s : State) (k : Nat) (g : Partition → Partition) : (s.modPart k g).shared = s.shared := rfl
@[simp] theorem State.modPart_link (s : State) (k : Nat) (g : Partition → Partition) : (s.modPart k g).link = s.link := rfl
@[simp] theorem State.modPart_chunks (s : State) (k : Nat) (g : Partition → Partition) : (s.modPart k g).chunks = s.chunks := rfl
@[simp] theorem State.modPart_sys (s : State) (k : Nat) (g : Partition → Partition) : (s.modPart k g).sys = s.sys := rfl

/-! ## modCore -/

@[simp] theorem State.modCore_agenda (s : State) (k : Nat) (g : Core → Core) : (s.modCore k g).agenda = s.agenda := rfl
@[simp] theorem State.modCore_turn (s : State) (k : Nat) (g : Core → Core) : (s.modCore k g).turn = s.turn := rfl
@[simp] theorem State.modCore_cycle (s : State) (k : Nat) (g : Core → Core) : (s.modCore k g).cycle = s.cycle := rfl
@[simp] theorem State.modCore_ns (s : State) (k : Nat) (g : Core → Core) : (s.modCore k g).ns = s.ns := rfl
@[simp] theorem State.modCore_nextId (s : State) (k : Nat) (g : Core → Core) : (s.modCore k g).nextId = s.nextId := rfl
@[simp] theorem State.modCore_fresh (s : State) (k : Nat) (g : Core → Core) : (s.modCore k g).fresh = s.fresh := rfl
@[simp] theorem State.modCore_mem (s : State) (k : Nat) (g : Core → Core) : (s.modCore k g).mem = s.mem := rfl
@[simp] theorem State.modCore_strokes (s : State) (k : Nat) (g : Core → Core) : (s.modCore k g).strokes = s.strokes := rfl
@[simp] theorem State.modCore_groups (s : State) (k : Nat) (g : Core → Core) : (s.modCore k g).groups = s.groups := rfl
@[simp] theorem State.modCore_ctxs (s : State) (k : Nat) (g : Core → Core) : (s.modCore k g).ctxs = s.ctxs := rfl
@[simp] theorem State.modCore_cores (s : State) (k : Nat) (g : Core → Core) : (s.modCore k g).cores = mapPut s.cores k (g (s.core k)) := rfl
@[simp] theorem State.modCore_copies (s : State) (k : Nat) (g : Core → Core) : (s.modCore k g).copies = s.copies := rfl
@[simp] theorem State.modCore_engines (s : State) (k : Nat) (g : Core → Core) : (s.modCore k g).engines = s.engines := rfl
@[simp] theorem State.modCore_mms (s : State) (k : Nat) (g : Core → Core) : (s.modCore k g).mms = s.mms := rfl
@[simp] theorem State.modCore_fired (s : State) (k : Nat) (g : Core → Core) : (s.modCore k g).fired = s.fired := rfl
@[simp] theorem State.modCore_remote (s : State) (k : Nat) (g : Core → Core) : (s.modCore k g).remote = s.remote := rfl
@[simp] theorem State.modCore_armings (s : State) (k : Nat) (g : Core → Core) : (s.modCore k g).armings = s.armings := rfl
@[simp] theorem State.modCore_resv (s : State) (k : Nat) (g : Core → Core) : (s.modCore k g).resv = s.resv := rfl
@[simp] theorem State.modCore_parts (s : State) (k : Nat) (g : Core → Core) : (s.modCore k g).parts = s.parts := rfl
@[simp] theorem State.modCore_launches (s : State) (k : Nat) (g : Core → Core) : (s.modCore k g).launches = s.launches := rfl
@[simp] theorem State.modCore_scheds (s : State) (k : Nat) (g : Core → Core) : (s.modCore k g).scheds = s.scheds := rfl
@[simp] theorem State.modCore_gate (s : State) (k : Nat) (g : Core → Core) : (s.modCore k g).gate = s.gate := rfl
@[simp] theorem State.modCore_meshes (s : State) (k : Nat) (g : Core → Core) : (s.modCore k g).meshes = s.meshes := rfl
@[simp] theorem State.modCore_shared (s : State) (k : Nat) (g : Core → Core) : (s.modCore k g).shared = s.shared := rfl
@[simp] theorem State.modCore_link (s : State) (k : Nat) (g : Core → Core) : (s.modCore k g).link = s.link := rfl
@[simp] theorem State.modCore_chunks (s : State) (k : Nat) (g : Core → Core) : (s.modCore k g).chunks = s.chunks := rfl
@[simp] theorem State.modCore_sys (s : State) (k : Nat) (g : Core → Core) : (s.modCore k g).sys = s.sys := rfl

/-! ## modLaunch -/

@[simp] theorem State.modLaunch_agenda (s : State) (k : Nat) (g : Launch → Launch) : (s.modLaunch k g).agenda = s.agenda := rfl
@[simp] theorem State.modLaunch_turn (s : State) (k : Nat) (g : Launch → Launch) : (s.modLaunch k g).turn = s.turn := rfl
@[simp] theorem State.modLaunch_cycle (s : State) (k : Nat) (g : Launch → Launch) : (s.modLaunch k g).cycle = s.cycle := rfl
@[simp] theorem State.modLaunch_ns (s : State) (k : Nat) (g : Launch → Launch) : (s.modLaunch k g).ns = s.ns := rfl
@[simp] theorem State.modLaunch_nextId (s : State) (k : Nat) (g : Launch → Launch) : (s.modLaunch k g).nextId = s.nextId := rfl
@[simp] theorem State.modLaunch_fresh (s : State) (k : Nat) (g : Launch → Launch) : (s.modLaunch k g).fresh = s.fresh := rfl
@[simp] theorem State.modLaunch_mem (s : State) (k : Nat) (g : Launch → Launch) : (s.modLaunch k g).mem = s.mem := rfl
@[simp] theorem State.modLaunch_strokes (s : State) (k : Nat) (g : Launch → Launch) : (s.modLaunch k g).strokes = s.strokes := rfl
@[simp] theorem State.modLaunch_groups (s : State) (k : Nat) (g : Launch → Launch) : (s.modLaunch k g).groups = s.groups := rfl
@[simp] theorem State.modLaunch_ctxs (s : State) (k : Nat) (g : Launch → Launch) : (s.modLaunch k g).ctxs = s.ctxs := rfl
@[simp] theorem State.modLaunch_cores (s : State) (k : Nat) (g : Launch → Launch) : (s.modLaunch k g).cores = s.cores := rfl
@[simp] theorem State.modLaunch_copies (s : State) (k : Nat) (g : Launch → Launch) : (s.modLaunch k g).copies = s.copies := rfl
@[simp] theorem State.modLaunch_engines (s : State) (k : Nat) (g : Launch → Launch) : (s.modLaunch k g).engines = s.engines := rfl
@[simp] theorem State.modLaunch_mms (s : State) (k : Nat) (g : Launch → Launch) : (s.modLaunch k g).mms = s.mms := rfl
@[simp] theorem State.modLaunch_fired (s : State) (k : Nat) (g : Launch → Launch) : (s.modLaunch k g).fired = s.fired := rfl
@[simp] theorem State.modLaunch_remote (s : State) (k : Nat) (g : Launch → Launch) : (s.modLaunch k g).remote = s.remote := rfl
@[simp] theorem State.modLaunch_armings (s : State) (k : Nat) (g : Launch → Launch) : (s.modLaunch k g).armings = s.armings := rfl
@[simp] theorem State.modLaunch_resv (s : State) (k : Nat) (g : Launch → Launch) : (s.modLaunch k g).resv = s.resv := rfl
@[simp] theorem State.modLaunch_parts (s : State) (k : Nat) (g : Launch → Launch) : (s.modLaunch k g).parts = s.parts := rfl
@[simp] theorem State.modLaunch_launches (s : State) (k : Nat) (g : Launch → Launch) : (s.modLaunch k g).launches = mapMod s.launches k g := rfl
@[simp] theorem State.modLaunch_scheds (s : State) (k : Nat) (g : Launch → Launch) : (s.modLaunch k g).scheds = s.scheds := rfl
@[simp] theorem State.modLaunch_gate (s : State) (k : Nat) (g : Launch → Launch) : (s.modLaunch k g).gate = s.gate := rfl
@[simp] theorem State.modLaunch_meshes (s : State) (k : Nat) (g : Launch → Launch) : (s.modLaunch k g).meshes = s.meshes := rfl
@[simp] theorem State.modLaunch_shared (s : State) (k : Nat) (g : Launch → Launch) : (s.modLaunch k g).shared = s.shared := rfl
@[simp] theorem State.modLaunch_link (s : State) (k : Nat) (g : Launch → Launch) : (s.modLaunch k g).link = s.link := rfl
@[simp] theorem State.modLaunch_chunks (s : State) (k : Nat) (g : Launch → Launch) : (s.modLaunch k g).chunks = s.chunks := rfl
@[simp] theorem State.modLaunch_sys (s : State) (k : Nat) (g : Launch → Launch) : (s.modLaunch k g).sys = s.sys := rfl

/-! ## modGate -/

@[simp] theorem State.modGate_agenda (s : State) (g : Gate → Gate) : (s.modGate g).agenda = s.agenda := rfl
@[simp] theorem State.modGate_turn (s : State) (g : Gate → Gate) : (s.modGate g).turn = s.turn := rfl
@[simp] theorem State.modGate_cycle (s : State) (g : Gate → Gate) : (s.modGate g).cycle = s.cycle := rfl
@[simp] theorem State.modGate_ns (s : State) (g : Gate → Gate) : (s.modGate g).ns = s.ns := rfl
@[simp] theorem State.modGate_nextId (s : State) (g : Gate → Gate) : (s.modGate g).nextId = s.nextId := rfl
@[simp] theorem State.modGate_fresh (s : State) (g : Gate → Gate) : (s.modGate g).fresh = s.fresh := rfl
@[simp] theorem State.modGate_mem (s : State) (g : Gate → Gate) : (s.modGate g).mem = s.mem := rfl
@[simp] theorem State.modGate_strokes (s : State) (g : Gate → Gate) : (s.modGate g).strokes = s.strokes := rfl
@[simp] theorem State.modGate_groups (s : State) (g : Gate → Gate) : (s.modGate g).groups = s.groups := rfl
@[simp] theorem State.modGate_ctxs (s : State) (g : Gate → Gate) : (s.modGate g).ctxs = s.ctxs := rfl
@[simp] theorem State.modGate_cores (s : State) (g : Gate → Gate) : (s.modGate g).cores = s.cores := rfl
@[simp] theorem State.modGate_copies (s : State) (g : Gate → Gate) : (s.modGate g).copies = s.copies := rfl
@[simp] theorem State.modGate_engines (s : State) (g : Gate → Gate) : (s.modGate g).engines = s.engines := rfl
@[simp] theorem State.modGate_mms (s : State) (g : Gate → Gate) : (s.modGate g).mms = s.mms := rfl
@[simp] theorem State.modGate_fired (s : State) (g : Gate → Gate) : (s.modGate g).fired = s.fired := rfl
@[simp] theorem State.modGate_remote (s : State) (g : Gate → Gate) : (s.modGate g).remote = s.remote := rfl
@[simp] theorem State.modGate_armings (s : State) (g : Gate → Gate) : (s.modGate g).armings = s.armings := rfl
@[simp] theorem State.modGate_resv (s : State) (g : Gate → Gate) : (s.modGate g).resv = s.resv := rfl
@[simp] theorem State.modGate_parts (s : State) (g : Gate → Gate) : (s.modGate g).parts = s.parts := rfl
@[simp] theorem State.modGate_launches (s : State) (g : Gate → Gate) : (s.modGate g).launches = s.launches := rfl
@[simp] theorem State.modGate_scheds (s : State) (g : Gate → Gate) : (s.modGate g).scheds = s.scheds := rfl
@[simp] theorem State.modGate_gate (s : State) (g : Gate → Gate) : (s.modGate g).gate = g s.gate := rfl
@[simp] theorem State.modGate_meshes (s : State) (g : Gate → Gate) : (s.modGate g).meshes = s.meshes := rfl
@[simp] theorem State.modGate_shared (s : State) (g : Gate → Gate) : (s.modGate g).shared = s.shared := rfl
@[simp] theorem State.modGate_link (s : State) (g : Gate → Gate) : (s.modGate g).link = s.link := rfl
@[simp] theorem State.modGate_chunks (s : State) (g : Gate → Gate) : (s.modGate g).chunks = s.chunks := rfl
@[simp] theorem State.modGate_sys (s : State) (g : Gate → Gate) : (s.modGate g).sys = s.sys := rfl

/-! ## modLink -/

@[simp] theorem State.modLink_agenda (s : State) (g : Link → Link) : (s.modLink g).agenda = s.agenda := rfl
@[simp] theorem State.modLink_turn (s : State) (g : Link → Link) : (s.modLink g).turn = s.turn := rfl
@[simp] theorem State.modLink_cycle (s : State) (g : Link → Link) : (s.modLink g).cycle = s.cycle := rfl
@[simp] theorem State.modLink_ns (s : State) (g : Link → Link) : (s.modLink g).ns = s.ns := rfl
@[simp] theorem State.modLink_nextId (s : State) (g : Link → Link) : (s.modLink g).nextId = s.nextId := rfl
@[simp] theorem State.modLink_fresh (s : State) (g : Link → Link) : (s.modLink g).fresh = s.fresh := rfl
@[simp] theorem State.modLink_mem (s : State) (g : Link → Link) : (s.modLink g).mem = s.mem := rfl
@[simp] theorem State.modLink_strokes (s : State) (g : Link → Link) : (s.modLink g).strokes = s.strokes := rfl
@[simp] theorem State.modLink_groups (s : State) (g : Link → Link) : (s.modLink g).groups = s.groups := rfl
@[simp] theorem State.modLink_ctxs (s : State) (g : Link → Link) : (s.modLink g).ctxs = s.ctxs := rfl
@[simp] theorem State.modLink_cores (s : State) (g : Link → Link) : (s.modLink g).cores = s.cores := rfl
@[simp] theorem State.modLink_copies (s : State) (g : Link → Link) : (s.modLink g).copies = s.copies := rfl
@[simp] theorem State.modLink_engines (s : State) (g : Link → Link) : (s.modLink g).engines = s.engines := rfl
@[simp] theorem State.modLink_mms (s : State) (g : Link → Link) : (s.modLink g).mms = s.mms := rfl
@[simp] theorem State.modLink_fired (s : State) (g : Link → Link) : (s.modLink g).fired = s.fired := rfl
@[simp] theorem State.modLink_remote (s : State) (g : Link → Link) : (s.modLink g).remote = s.remote := rfl
@[simp] theorem State.modLink_armings (s : State) (g : Link → Link) : (s.modLink g).armings = s.armings := rfl
@[simp] theorem State.modLink_resv (s : State) (g : Link → Link) : (s.modLink g).resv = s.resv := rfl
@[simp] theorem State.modLink_parts (s : State) (g : Link → Link) : (s.modLink g).parts = s.parts := rfl
@[simp] theorem State.modLink_launches (s : State) (g : Link → Link) : (s.modLink g).launches = s.launches := rfl
@[simp] theorem State.modLink_scheds (s : State) (g : Link → Link) : (s.modLink g).scheds = s.scheds := rfl
@[simp] theorem State.modLink_gate (s : State) (g : Link → Link) : (s.modLink g).gate = s.gate := rfl
@[simp] theorem State.modLink_meshes (s : State) (g : Link → Link) : (s.modLink g).meshes = s.meshes := rfl
@[simp] theorem State.modLink_shared (s : State) (g : Link → Link) : (s.modLink g).shared = s.shared := rfl
@[simp] theorem State.modLink_link (s : State) (g : Link → Link) : (s.modLink g).link = g s.link := rfl
@[simp] theorem State.modLink_chunks (s : State) (g : Link → Link) : (s.modLink g).chunks = s.chunks := rfl
@[simp] theorem State.modLink_sys (s : State) (g : Link → Link) : (s.modLink g).sys = s.sys := rfl

/-! ## modMesh -/

@[simp] theorem State.modMesh_agenda (s : State) (k : Nat) (g : Mesh → Mesh) : (s.modMesh k g).agenda = s.agenda := rfl
@[simp] theorem State.modMesh_turn (s : State) (k : Nat) (g : Mesh → Mesh) : (s.modMesh k g).turn = s.turn := rfl
@[simp] theorem State.modMesh_cycle (s : State) (k : Nat) (g : Mesh → Mesh) : (s.modMesh k g).cycle = s.cycle := rfl
@[simp] theorem State.modMesh_ns (s : State) (k : Nat) (g : Mesh → Mesh) : (s.modMesh k g).ns = s.ns := rfl
@[simp] theorem State.modMesh_nextId (s : State) (k : Nat) (g : Mesh → Mesh) : (s.modMesh k g).nextId = s.nextId := rfl
@[simp] theorem State.modMesh_fresh (s : State) (k : Nat) (g : Mesh → Mesh) : (s.modMesh k g).fresh = s.fresh := rfl
@[simp] theorem State.modMesh_mem (s : State) (k : Nat) (g : Mesh → Mesh) : (s.modMesh k g).mem = s.mem := rfl
@[simp] theorem State.modMesh_strokes (s : State) (k : Nat) (g : Mesh → Mesh) : (s.modMesh k g).strokes = s.strokes := rfl
@[simp] theorem State.modMesh_groups (s : State) (k : Nat) (g : Mesh → Mesh) : (s.modMesh k g).groups = s.groups := rfl
@[simp] theorem State.modMesh_ctxs (s : State) (k : Nat) (g : Mesh → Mesh) : (s.modMesh k g).ctxs = s.ctxs := rfl
@[simp] theorem State.modMesh_cores (s : State) (k : Nat) (g : Mesh → Mesh) : (s.modMesh k g).cores = s.cores := rfl
@[simp] theorem State.modMesh_copies (s : State) (k : Nat) (g : Mesh → Mesh) : (s.modMesh k g).copies = s.copies := rfl
@[simp] theorem State.modMesh_engines (s : State) (k : Nat) (g : Mesh → Mesh) : (s.modMesh k g).engines = s.engines := rfl
@[simp] theorem State.modMesh_mms (s : State) (k : Nat) (g : Mesh → Mesh) : (s.modMesh k g).mms = s.mms := rfl
@[simp] theorem State.modMesh_fired (s : State) (k : Nat) (g : Mesh → Mesh) : (s.modMesh k g).fired = s.fired := rfl
@[simp] theorem State.modMesh_remote (s : State) (k : Nat) (g : Mesh → Mesh) : (s.modMesh k g).remote = s.remote := rfl
@[simp] theorem State.modMesh_armings (s : State) (k : Nat) (g : Mesh → Mesh) : (s.modMesh k g).armings = s.armings := rfl
@[simp] theorem State.modMesh_resv (s : State) (k : Nat) (g : Mesh → Mesh) : (s.modMesh k g).resv = s.resv := rfl
@[simp] theorem State.modMesh_parts (s : State) (k : Nat) (g : Mesh → Mesh) : (s.modMesh k g).parts = s.parts := rfl
@[simp] theorem State.modMesh_launches (s : State) (k : Nat) (g : Mesh → Mesh) : (s.modMesh k g).launches = s.launches := rfl
@[simp] theorem State.modMesh_scheds (s : State) (k : Nat) (g : Mesh → Mesh) : (s.modMesh k g).scheds = s.scheds := rfl
@[simp] theorem State.modMesh_gate (s : State) (k : Nat) (g : Mesh → Mesh) : (s.modMesh k g).gate = s.gate := rfl
@[simp] theorem State.modMesh_shared (s : State) (k : Nat) (g : Mesh → Mesh) : (s.modMesh k g).shared = s.shared := rfl
@[simp] theorem State.modMesh_link (s : State) (k : Nat) (g : Mesh → Mesh) : (s.modMesh k g).link = s.link := rfl
@[simp] theorem State.modMesh_chunks (s : State) (k : Nat) (g : Mesh → Mesh) : (s.modMesh k g).chunks = s.chunks := rfl
@[simp] theorem State.modMesh_sys (s : State) (k : Nat) (g : Mesh → Mesh) : (s.modMesh k g).sys = s.sys := rfl

/-! ## modSys -/

@[simp] theorem State.modSys_agenda (s : State) (g : Sys → Sys) : (s.modSys g).agenda = s.agenda := rfl
@[simp] theorem State.modSys_turn (s : State) (g : Sys → Sys) : (s.modSys g).turn = s.turn := rfl
@[simp] theorem State.modSys_cycle (s : State) (g : Sys → Sys) : (s.modSys g).cycle = s.cycle := rfl
@[simp] theorem State.modSys_ns (s : State) (g : Sys → Sys) : (s.modSys g).ns = s.ns := rfl
@[simp] theorem State.modSys_nextId (s : State) (g : Sys → Sys) : (s.modSys g).nextId = s.nextId := rfl
@[simp] theorem State.modSys_fresh (s : State) (g : Sys → Sys) : (s.modSys g).fresh = s.fresh := rfl
@[simp] theorem State.modSys_mem (s : State) (g : Sys → Sys) : (s.modSys g).mem = s.mem := rfl
@[simp] theorem State.modSys_strokes (s : State) (g : Sys → Sys) : (s.modSys g).strokes = s.strokes := rfl
@[simp] theorem State.modSys_groups (s : State) (g : Sys → Sys) : (s.modSys g).groups = s.groups := rfl
@[simp] theorem State.modSys_ctxs (s : State) (g : Sys → Sys) : (s.modSys g).ctxs = s.ctxs := rfl
@[simp] theorem State.modSys_cores (s : State) (g : Sys → Sys) : (s.modSys g).cores = s.cores := rfl
@[simp] theorem State.modSys_copies (s : State) (g : Sys → Sys) : (s.modSys g).copies = s.copies := rfl
@[simp] theorem State.modSys_engines (s : State) (g : Sys → Sys) : (s.modSys g).engines = s.engines := rfl
@[simp] theorem State.modSys_mms (s : State) (g : Sys → Sys) : (s.modSys g).mms = s.mms := rfl
@[simp] theorem State.modSys_fired (s : State) (g : Sys → Sys) : (s.modSys g).fired = s.fired := rfl
@[simp] theorem State.modSys_remote (s : State) (g : Sys → Sys) : (s.modSys g).remote = s.remote := rfl
@[simp] theorem State.modSys_armings (s : State) (g : Sys → Sys) : (s.modSys g).armings = s.armings := rfl
@[simp] theorem State.modSys_resv (s : State) (g : Sys → Sys) : (s.modSys g).resv = s.resv := rfl
@[simp] theorem State.modSys_parts (s : State) (g : Sys → Sys) : (s.modSys g).parts = s.parts := rfl
@[simp] theorem State.modSys_launches (s : State) (g : Sys → Sys) : (s.modSys g).launches = s.launches := rfl
@[simp] theorem State.modSys_scheds (s : State) (g : Sys → Sys) : (s.modSys g).scheds = s.scheds := rfl
@[simp] theorem State.modSys_gate (s : State) (g : Sys → Sys) : (s.modSys g).gate = s.gate := rfl
@[simp] theorem State.modSys_meshes (s : State) (g : Sys → Sys) : (s.modSys g).meshes = s.meshes := rfl
@[simp] theorem State.modSys_shared (s : State) (g : Sys → Sys) : (s.modSys g).shared = s.shared := rfl
@[simp] theorem State.modSys_link (s : State) (g : Sys → Sys) : (s.modSys g).link = s.link := rfl
@[simp] theorem State.modSys_chunks (s : State) (g : Sys → Sys) : (s.modSys g).chunks = s.chunks := rfl
@[simp] theorem State.modSys_sys (s : State) (g : Sys → Sys) : (s.modSys g).sys = g s.sys := rfl

/-! ## setPresent -/

@[simp] theorem State.setPresent_agenda (s : State) (k : Nat) (b : Bool) : (s.setPresent k b).agenda = s.agenda := rfl
@[simp] theorem State.setPresent_turn (s : State) (k : Nat) (b : Bool) : (s.setPresent k b).turn = s.turn := rfl
@[simp] theorem State.setPresent_cycle (s : State) (k : Nat) (b : Bool) : (s.setPresent k b).cycle = s.cycle := rfl
@[simp] theorem State.setPresent_ns (s : State) (k : Nat) (b : Bool) : (s.setPresent k b).ns = s.ns := rfl
@[simp] theorem State.setPresent_nextId (s : State) (k : Nat) (b : Bool) : (s.setPresent k b).nextId = s.nextId := rfl
@[simp] theorem State.setPresent_fresh (s : State) (k : Nat) (b : Bool) : (s.setPresent k b).fresh = s.fresh := rfl
@[simp] theorem State.setPresent_strokes (s : State) (k : Nat) (b : Bool) : (s.setPresent k b).strokes = s.strokes := rfl
@[simp] theorem State.setPresent_groups (s : State) (k : Nat) (b : Bool) : (s.setPresent k b).groups = s.groups := rfl
@[simp] theorem State.setPresent_ctxs (s : State) (k : Nat) (b : Bool) : (s.setPresent k b).ctxs = s.ctxs := rfl
@[simp] theorem State.setPresent_cores (s : State) (k : Nat) (b : Bool) : (s.setPresent k b).cores = s.cores := rfl
@[simp] theorem State.setPresent_copies (s : State) (k : Nat) (b : Bool) : (s.setPresent k b).copies = s.copies := rfl
@[simp] theorem State.setPresent_engines (s : State) (k : Nat) (b : Bool) : (s.setPresent k b).engines = s.engines := rfl
@[simp] theorem State.setPresent_mms (s : State) (k : Nat) (b : Bool) : (s.setPresent k b).mms = s.mms := rfl
@[simp] theorem State.setPresent_fired (s : State) (k : Nat) (b : Bool) : (s.setPresent k b).fired = s.fired := rfl
@[simp] theorem State.setPresent_remote (s : State) (k : Nat) (b : Bool) : (s.setPresent k b).remote = s.remote := rfl
@[simp] theorem State.setPresent_armings (s : State) (k : Nat) (b : Bool) : (s.setPresent k b).armings = s.armings := rfl
@[simp] theorem State.setPresent_resv (s : State) (k : Nat) (b : Bool) : (s.setPresent k b).resv = s.resv := rfl
@[simp] theorem State.setPresent_parts (s : State) (k : Nat) (b : Bool) : (s.setPresent k b).parts = s.parts := rfl
@[simp] theorem State.setPresent_launches (s : State) (k : Nat) (b : Bool) : (s.setPresent k b).launches = s.launches := rfl
@[simp] theorem State.setPresent_scheds (s : State) (k : Nat) (b : Bool) : (s.setPresent k b).scheds = s.scheds := rfl
@[simp] theorem State.setPresent_gate (s : State) (k : Nat) (b : Bool) : (s.setPresent k b).gate = s.gate := rfl
@[simp] theorem State.setPresent_meshes (s : State) (k : Nat) (b : Bool) : (s.setPresent k b).meshes = s.meshes := rfl
@[simp] theorem State.setPresent_shared (s : State) (k : Nat) (b : Bool) : (s.setPresent k b).shared = s.shared := rfl
@[simp] theorem State.setPresent_link (s : State) (k : Nat) (b : Bool) : (s.setPresent k b).link = s.link := rfl
@[simp] theorem State.setPresent_chunks (s : State) (k : Nat) (b : Bool) : (s.setPresent k b).chunks = s.chunks := rfl
@[simp] theorem State.setPresent_sys (s : State) (k : Nat) (b : Bool) : (s.setPresent k b).sys = s.sys := rfl

/-! ## Lookups -/

theorem State.modStroke_stroke_get (s : State) (k : Nat) (g : Stroke → Stroke) (j : Nat) :
    (s.modStroke k g).stroke? j = if k = j then (s.stroke? j).map g else s.stroke? j := mapGet?_mod ..
@[simp] theorem State.modStroke_stroke_get_self (s : State) (k : Nat) (g : Stroke → Stroke) : (s.modStroke k g).stroke? k = (s.stroke? k).map g := mapGet?_mod_self ..
theorem State.modStroke_stroke_get_ne (s : State) {k : Nat} (g : Stroke → Stroke) {j : Nat} (h : j ≠ k) : (s.modStroke k g).stroke? j = s.stroke? j := mapGet?_mod_ne _ h _
@[simp] theorem State.modGroup_stroke_get (s : State) (k : Nat) (g : Group → Group) (j : Nat) : (s.modGroup k g).stroke? j = s.stroke? j := rfl
@[simp] theorem State.modCtx_stroke_get (s : State) (k : Nat) (g : ScribeCtx → ScribeCtx) (j : Nat) : (s.modCtx k g).stroke? j = s.stroke? j := rfl
@[simp] theorem State.modPart_stroke_get (s : State) (k : Nat) (g : Partition → Partition) (j : Nat) : (s.modPart k g).stroke? j = s.stroke? j := rfl
@[simp] theorem State.modCore_stroke_get (s : State) (k : Nat) (g : Core → Core) (j : Nat) : (s.modCore k g).stroke? j = s.stroke? j := rfl
@[simp] theorem State.modLaunch_stroke_get (s : State) (k : Nat) (g : Launch → Launch) (j : Nat) : (s.modLaunch k g).stroke? j = s.stroke? j := rfl
@[simp] theorem State.modGate_stroke_get (s : State) (g : Gate → Gate) (j : Nat) : (s.modGate g).stroke? j = s.stroke? j := rfl
@[simp] theorem State.modLink_stroke_get (s : State) (g : Link → Link) (j : Nat) : (s.modLink g).stroke? j = s.stroke? j := rfl
@[simp] theorem State.modMesh_stroke_get (s : State) (k : Nat) (g : Mesh → Mesh) (j : Nat) : (s.modMesh k g).stroke? j = s.stroke? j := rfl
@[simp] theorem State.modSys_stroke_get (s : State) (g : Sys → Sys) (j : Nat) : (s.modSys g).stroke? j = s.stroke? j := rfl
@[simp] theorem State.setPresent_stroke_get (s : State) (k : Nat) (b : Bool) (j : Nat) : (s.setPresent k b).stroke? j = s.stroke? j := rfl
@[simp] theorem State.modStroke_group_get (s : State) (k : Nat) (g : Stroke → Stroke) (j : Nat) : (s.modStroke k g).group? j = s.group? j := rfl
theorem State.modGroup_group_get (s : State) (k : Nat) (g : Group → Group) (j : Nat) :
    (s.modGroup k g).group? j = if k = j then (s.group? j).map g else s.group? j := mapGet?_mod ..
@[simp] theorem State.modGroup_group_get_self (s : State) (k : Nat) (g : Group → Group) : (s.modGroup k g).group? k = (s.group? k).map g := mapGet?_mod_self ..
theorem State.modGroup_group_get_ne (s : State) {k : Nat} (g : Group → Group) {j : Nat} (h : j ≠ k) : (s.modGroup k g).group? j = s.group? j := mapGet?_mod_ne _ h _
@[simp] theorem State.modCtx_group_get (s : State) (k : Nat) (g : ScribeCtx → ScribeCtx) (j : Nat) : (s.modCtx k g).group? j = s.group? j := rfl
@[simp] theorem State.modPart_group_get (s : State) (k : Nat) (g : Partition → Partition) (j : Nat) : (s.modPart k g).group? j = s.group? j := rfl
@[simp] theorem State.modCore_group_get (s : State) (k : Nat) (g : Core → Core) (j : Nat) : (s.modCore k g).group? j = s.group? j := rfl
@[simp] theorem State.modLaunch_group_get (s : State) (k : Nat) (g : Launch → Launch) (j : Nat) : (s.modLaunch k g).group? j = s.group? j := rfl
@[simp] theorem State.modGate_group_get (s : State) (g : Gate → Gate) (j : Nat) : (s.modGate g).group? j = s.group? j := rfl
@[simp] theorem State.modLink_group_get (s : State) (g : Link → Link) (j : Nat) : (s.modLink g).group? j = s.group? j := rfl
@[simp] theorem State.modMesh_group_get (s : State) (k : Nat) (g : Mesh → Mesh) (j : Nat) : (s.modMesh k g).group? j = s.group? j := rfl
@[simp] theorem State.modSys_group_get (s : State) (g : Sys → Sys) (j : Nat) : (s.modSys g).group? j = s.group? j := rfl
@[simp] theorem State.setPresent_group_get (s : State) (k : Nat) (b : Bool) (j : Nat) : (s.setPresent k b).group? j = s.group? j := rfl
@[simp] theorem State.modStroke_ctx_get (s : State) (k : Nat) (g : Stroke → Stroke) (j : Nat) : (s.modStroke k g).ctx? j = s.ctx? j := rfl
@[simp] theorem State.modGroup_ctx_get (s : State) (k : Nat) (g : Group → Group) (j : Nat) : (s.modGroup k g).ctx? j = s.ctx? j := rfl
theorem State.modCtx_ctx_get (s : State) (k : Nat) (g : ScribeCtx → ScribeCtx) (j : Nat) :
    (s.modCtx k g).ctx? j = if k = j then (s.ctx? j).map g else s.ctx? j := mapGet?_mod ..
@[simp] theorem State.modCtx_ctx_get_self (s : State) (k : Nat) (g : ScribeCtx → ScribeCtx) : (s.modCtx k g).ctx? k = (s.ctx? k).map g := mapGet?_mod_self ..
theorem State.modCtx_ctx_get_ne (s : State) {k : Nat} (g : ScribeCtx → ScribeCtx) {j : Nat} (h : j ≠ k) : (s.modCtx k g).ctx? j = s.ctx? j := mapGet?_mod_ne _ h _
@[simp] theorem State.modPart_ctx_get (s : State) (k : Nat) (g : Partition → Partition) (j : Nat) : (s.modPart k g).ctx? j = s.ctx? j := rfl
@[simp] theorem State.modCore_ctx_get (s : State) (k : Nat) (g : Core → Core) (j : Nat) : (s.modCore k g).ctx? j = s.ctx? j := rfl
@[simp] theorem State.modLaunch_ctx_get (s : State) (k : Nat) (g : Launch → Launch) (j : Nat) : (s.modLaunch k g).ctx? j = s.ctx? j := rfl
@[simp] theorem State.modGate_ctx_get (s : State) (g : Gate → Gate) (j : Nat) : (s.modGate g).ctx? j = s.ctx? j := rfl
@[simp] theorem State.modLink_ctx_get (s : State) (g : Link → Link) (j : Nat) : (s.modLink g).ctx? j = s.ctx? j := rfl
@[simp] theorem State.modMesh_ctx_get (s : State) (k : Nat) (g : Mesh → Mesh) (j : Nat) : (s.modMesh k g).ctx? j = s.ctx? j := rfl
@[simp] theorem State.modSys_ctx_get (s : State) (g : Sys → Sys) (j : Nat) : (s.modSys g).ctx? j = s.ctx? j := rfl
@[simp] theorem State.setPresent_ctx_get (s : State) (k : Nat) (b : Bool) (j : Nat) : (s.setPresent k b).ctx? j = s.ctx? j := rfl
@[simp] theorem State.modStroke_part_get (s : State) (k : Nat) (g : Stroke → Stroke) (j : Nat) : (s.modStroke k g).part? j = s.part? j := rfl
@[simp] theorem State.modGroup_part_get (s : State) (k : Nat) (g : Group → Group) (j : Nat) : (s.modGroup k g).part? j = s.part? j := rfl
@[simp] theorem State.modCtx_part_get (s : State) (k : Nat) (g : ScribeCtx → ScribeCtx) (j : Nat) : (s.modCtx k g).part? j = s.part? j := rfl
theorem State.modPart_part_get (s : State) (k : Nat) (g : Partition → Partition) (j : Nat) :
    (s.modPart k g).part? j = if k = j then (s.part? j).map g else s.part? j := mapGet?_mod ..
@[simp] theorem State.modPart_part_get_self (s : State) (k : Nat) (g : Partition → Partition) : (s.modPart k g).part? k = (s.part? k).map g := mapGet?_mod_self ..
theorem State.modPart_part_get_ne (s : State) {k : Nat} (g : Partition → Partition) {j : Nat} (h : j ≠ k) : (s.modPart k g).part? j = s.part? j := mapGet?_mod_ne _ h _
@[simp] theorem State.modCore_part_get (s : State) (k : Nat) (g : Core → Core) (j : Nat) : (s.modCore k g).part? j = s.part? j := rfl
@[simp] theorem State.modLaunch_part_get (s : State) (k : Nat) (g : Launch → Launch) (j : Nat) : (s.modLaunch k g).part? j = s.part? j := rfl
@[simp] theorem State.modGate_part_get (s : State) (g : Gate → Gate) (j : Nat) : (s.modGate g).part? j = s.part? j := rfl
@[simp] theorem State.modLink_part_get (s : State) (g : Link → Link) (j : Nat) : (s.modLink g).part? j = s.part? j := rfl
@[simp] theorem State.modMesh_part_get (s : State) (k : Nat) (g : Mesh → Mesh) (j : Nat) : (s.modMesh k g).part? j = s.part? j := rfl
@[simp] theorem State.modSys_part_get (s : State) (g : Sys → Sys) (j : Nat) : (s.modSys g).part? j = s.part? j := rfl
@[simp] theorem State.setPresent_part_get (s : State) (k : Nat) (b : Bool) (j : Nat) : (s.setPresent k b).part? j = s.part? j := rfl
@[simp] theorem State.modStroke_launch_get (s : State) (k : Nat) (g : Stroke → Stroke) (j : Nat) : (s.modStroke k g).launch? j = s.launch? j := rfl
@[simp] theorem State.modGroup_launch_get (s : State) (k : Nat) (g : Group → Group) (j : Nat) : (s.modGroup k g).launch? j = s.launch? j := rfl
@[simp] theorem State.modCtx_launch_get (s : State) (k : Nat) (g : ScribeCtx → ScribeCtx) (j : Nat) : (s.modCtx k g).launch? j = s.launch? j := rfl
@[simp] theorem State.modPart_launch_get (s : State) (k : Nat) (g : Partition → Partition) (j : Nat) : (s.modPart k g).launch? j = s.launch? j := rfl
@[simp] theorem State.modCore_launch_get (s : State) (k : Nat) (g : Core → Core) (j : Nat) : (s.modCore k g).launch? j = s.launch? j := rfl
theorem State.modLaunch_launch_get (s : State) (k : Nat) (g : Launch → Launch) (j : Nat) :
    (s.modLaunch k g).launch? j = if k = j then (s.launch? j).map g else s.launch? j := mapGet?_mod ..
@[simp] theorem State.modLaunch_launch_get_self (s : State) (k : Nat) (g : Launch → Launch) : (s.modLaunch k g).launch? k = (s.launch? k).map g := mapGet?_mod_self ..
theorem State.modLaunch_launch_get_ne (s : State) {k : Nat} (g : Launch → Launch) {j : Nat} (h : j ≠ k) : (s.modLaunch k g).launch? j = s.launch? j := mapGet?_mod_ne _ h _
@[simp] theorem State.modGate_launch_get (s : State) (g : Gate → Gate) (j : Nat) : (s.modGate g).launch? j = s.launch? j := rfl
@[simp] theorem State.modLink_launch_get (s : State) (g : Link → Link) (j : Nat) : (s.modLink g).launch? j = s.launch? j := rfl
@[simp] theorem State.modMesh_launch_get (s : State) (k : Nat) (g : Mesh → Mesh) (j : Nat) : (s.modMesh k g).launch? j = s.launch? j := rfl
@[simp] theorem State.modSys_launch_get (s : State) (g : Sys → Sys) (j : Nat) : (s.modSys g).launch? j = s.launch? j := rfl
@[simp] theorem State.setPresent_launch_get (s : State) (k : Nat) (b : Bool) (j : Nat) : (s.setPresent k b).launch? j = s.launch? j := rfl
@[simp] theorem State.modStroke_core (s : State) (k : Nat) (g : Stroke → Stroke) (j : Nat) : (s.modStroke k g).core j = s.core j := rfl
@[simp] theorem State.modGroup_core (s : State) (k : Nat) (g : Group → Group) (j : Nat) : (s.modGroup k g).core j = s.core j := rfl
@[simp] theorem State.modCtx_core (s : State) (k : Nat) (g : ScribeCtx → ScribeCtx) (j : Nat) : (s.modCtx k g).core j = s.core j := rfl
@[simp] theorem State.modPart_core (s : State) (k : Nat) (g : Partition → Partition) (j : Nat) : (s.modPart k g).core j = s.core j := rfl
theorem State.modCore_core (s : State) (k : Nat) (g : Core → Core) (j : Nat) :
    (s.modCore k g).core j = if k = j then g (s.core k) else s.core j := mapGet_put ..
@[simp] theorem State.modCore_core_self (s : State) (k : Nat) (g : Core → Core) : (s.modCore k g).core k = g (s.core k) := by
  simp [State.modCore_core]
@[simp] theorem State.modLaunch_core (s : State) (k : Nat) (g : Launch → Launch) (j : Nat) : (s.modLaunch k g).core j = s.core j := rfl
@[simp] theorem State.modGate_core (s : State) (g : Gate → Gate) (j : Nat) : (s.modGate g).core j = s.core j := rfl
@[simp] theorem State.modLink_core (s : State) (g : Link → Link) (j : Nat) : (s.modLink g).core j = s.core j := rfl
@[simp] theorem State.modMesh_core (s : State) (k : Nat) (g : Mesh → Mesh) (j : Nat) : (s.modMesh k g).core j = s.core j := rfl
@[simp] theorem State.modSys_core (s : State) (g : Sys → Sys) (j : Nat) : (s.modSys g).core j = s.core j := rfl
@[simp] theorem State.setPresent_core (s : State) (k : Nat) (b : Bool) (j : Nat) : (s.setPresent k b).core j = s.core j := rfl

end Sys2Proof.Machine
end

