-- ==== Sys2Proof/Laws/Issue.lean ====
section
/-!
SUPPORT. What an issue does: it reaches the meaning of the instruction exactly as `issued` says, and a commit leaves what `Past`
and `Keeps` say.
-/
namespace Sys2Proof.Machine

/-! ## Reaching the meaning -/

/-- All that an issue which reaches a meaning has found. -/
theorem issuedAs_cases {s : State} {opc len : Nat} {f : Fields} {q : Issued} (hq : issuedAs s opc f len = some q) :
    ∃ z, turnEnv s opc f len = some z ∧ q.s = s ∧ q.x = { z with act := guardMask s z } ∧ mayExecute s q.x = true ∧
      ∃ t, popPorts s q.x (inputPorts s q.x) = .ok (t, q.y) ∧ readyPush s t q.y = .ok q.t := by
  unfold issuedAs at hq
  cases hz : turnEnv s opc f len with
  | none => simp [hz] at hq
  | some z =>
    simp only [hz] at hq
    split at hq
    · rename_i hm
      split at hq
      · cases hq
      · rename_i r hr
        split at hq
        · cases hq
        · rename_i t ht
          cases hq
          exact ⟨z, rfl, rfl, rfl, hm, r.1, hr, ht⟩
    · cases hq

theorem mayExecute_iff {s : State} {x : Env} : mayExecute s x = true ↔
    bitsCause s x = none ∧ (x.scribe && ctxHazard s x) = false ∧ x.act ≠ 0 ∧ heldBack s x = false ∧ taggedLanes s x = 0 ∧
      poisonLanes s x = 0 := by
  simp only [mayExecute, Bool.and_eq_true, Bool.not_eq_true', Option.isNone_iff_eq_none, bne_iff_ne, ne_eq, beq_iff_eq,
    and_assoc]

/-- An instruction that issues is executed, and what its meaning answers decides how the step ends. -/
theorem issue_eq_conclude {s : State} {opc len : Nat} {f : Fields} {q : Issued} (body : Env → State → Verdict)
    (hq : issuedAs s opc f len = some q) :
    issue opc f len body s = .next (conclude q.s q.x ((body q.y q.t).unpop q.s q.y)) := by
  obtain ⟨z, hz, hs, hx, hm, t, hp, ht⟩ := issuedAs_cases hq
  obtain ⟨hb, hc, ha, hh, htg, hpo⟩ := mayExecute_iff.1 hm
  have hb' : bitsCause s z = none := by rw [hx] at hb; exact hb
  have key : execute s q.x body = conclude s q.x ((body q.y q.t).unpop s q.y) := by
    simp [execute, htg, hpo, hp, ht]
  rw [hs]
  unfold issue
  simp only [hz, hb']
  rw [← hx]
  have hc' : (z.scribe && ctxHazard s z) = false := by rw [hx] at hc; exact hc
  have ha' : guardMask s z ≠ 0 := by rw [hx] at ha; exact ha
  simp only [hc', Bool.false_eq_true, if_false, ha', hh, key]

@[simp] theorem Verdict.unpop_commit (s : State) (y : Env) (e : Effect) : (Verdict.commit e).unpop s y = .commit e := rfl
@[simp] theorem Verdict.unpop_park (s : State) (y : Env) (p : Park) : (Verdict.park p).unpop s y = .park p := rfl
@[simp] theorem Verdict.unpop_hold (s : State) (y : Env) : Verdict.hold.unpop s y = .hold := rfl
@[simp] theorem Verdict.unpop_trap (s : State) (y : Env) (c : Nat) (m : Mask) (code addr acc : Nat) :
    (Verdict.trap c m code addr acc).unpop s y = .trap c m code addr acc := rfl
@[simp] theorem Verdict.unpop_parkIn (s : State) (y : Env) (p : Park) (t : State) :
    (Verdict.parkIn p t).unpop s y = .parkIn p (parkedIn s y p t) := rfl

/-! ## What an issue leaves before the meaning -/

/-- Popping ports changes only what comes with an input port: the environment's popped words. -/
theorem popPorts_env {x y : Env} {ps : List Nat} {s t : State} (hp : popPorts s x ps = .ok (t, y)) :
    y = { x with pops := y.pops } := by
  induction ps generalizing s x with
  | nil => simp only [popPorts, Except.ok.injEq, Prod.mk.injEq] at hp; simp [← hp.2]
  | cons p ps ih =>
    simp only [popPorts] at hp
    split at hp
    · cases hp
    · simpa using ih hp

/-- What may push is the machine with its pops. -/
theorem readyPush_cases {s t u : State} {x : Env} (h : readyPush s t x = .ok u) : u = t := by
  unfold readyPush at h
  split at h
  · cases h
  · split at h
    · cases h; rfl
    · split at h
      · cases h
      · cases h; rfl

end Sys2Proof.Machine
end

