-- ==== Sys2Proof/Laws/Memory.lean ====
section
/-!
SUPPORT. What a write of bytes does: it changes memory alone, keeps every memory's canonical form, and leaves every other byte as
it was.
-/
namespace Sys2Proof.Machine

/-! ## The canonical form -/

theorem MemSys.wf_iff {m : MemSys} : m.wf = true ↔
    memWf m.u = true ∧ memWf m.c = true ∧ memWf m.d = true ∧ memWf m.g = true ∧ memWf m.h = true := by
  simp only [MemSys.wf, Bool.and_eq_true, and_assoc]

theorem MemSys.wf_home {m : MemSys} (h : m.wf = true) (k : Home) : memWf (m.home k) = true := by
  obtain ⟨h1, h2, h3, h4, h5⟩ := MemSys.wf_iff.1 h
  cases k <;> assumption

theorem MemSys.wf_write {m : MemSys} (l : Loc) (bs : List Byte) (h : m.wf = true) : (m.write l bs).wf = true := by
  obtain ⟨h1, h2, h3, h4, h5⟩ := MemSys.wf_iff.1 h
  unfold MemSys.write
  split <;> refine MemSys.wf_iff.2 ⟨?_, ?_, ?_, ?_, ?_⟩ <;> first | assumption | exact memWf_memWrite _ _ _ ‹_›

theorem MemSys.wf_setPoison {m : MemSys} (k : Home) (i : Nat) (b : Bool) : (m.setPoison k i b).wf = m.wf := by
  cases k <;> rfl

/-- A byte of a home after a write of bytes. -/
theorem MemSys.memByte_write (m : MemSys) (l : Loc) (bs : List Byte) (k : Home) (a : Nat) :
    memByte ((m.write l bs).home k) a =
      if k = l.home ∧ l.addr ≤ a ∧ a < l.addr + bs.length then (bs[a - l.addr]?).getD Config.emptyByte
      else memByte (m.home k) a := by
  unfold MemSys.write
  cases hl : l.home <;> cases k <;> simp [MemSys.home, memByte_memWrite]

/-! ## Writes change memory alone -/

theorem rekeyLine_frame (s : State) (l : Loc) : rekeyLine s l = { s with mem := (rekeyLine s l).mem } := by
  unfold rekeyLine; split <;> rfl

theorem writeLine_frame (s : State) (l : Loc) (bs : List Byte) :
    writeLine s l bs = { s with mem := (writeLine s l bs).mem } := by
  have := rekeyLine_frame s l
  unfold writeLine
  split
  · dsimp only; rw [this]
  · rfl

theorem writeLines_frame (n : Nat) (s : State) (l : Loc) (bs : List Byte) :
    writeLines n s l bs = { s with mem := (writeLines n s l bs).mem } := by
  induction n generalizing s l bs with
  | zero => rfl
  | succ n ih =>
    unfold writeLines
    split
    · rfl
    · dsimp only
      rw [ih, writeLine_frame s l]

/-- A write of bytes changes memory alone. -/
theorem writeBytes_frame (s : State) (l : Loc) (bs : List Byte) :
    writeBytes s l bs = { s with mem := (writeBytes s l bs).mem } := writeLines_frame ..

theorem writeNat_frame (s : State) (l : Loc) (n x : Nat) :
    writeNat s l n x = { s with mem := (writeNat s l n x).mem } := writeBytes_frame ..

theorem ringPut_frame (s : State) (g : Nat) (b : Binding) (off x : Nat) :
    ringPut s g b off x = { s with mem := (ringPut s g b off x).mem } := by
  unfold ringPut; split
  · exact writeNat_frame ..
  · rfl

/-! ## Writes keep the canonical form -/

theorem rekeyLine_wf {s : State} (l : Loc) (h : s.mem.wf = true) : (rekeyLine s l).mem.wf = true := by
  obtain ⟨h1, h2, h3, h4, h5⟩ := MemSys.wf_iff.1 h
  unfold rekeyLine; split
  · exact h
  · exact MemSys.wf_iff.2 ⟨h1, h2, h3, memWf_memWrite _ _ _ h4, h5⟩

theorem writeLine_wf {s : State} (l : Loc) (bs : List Byte) (h : s.mem.wf = true) : (writeLine s l bs).mem.wf = true := by
  unfold writeLine; split
  · exact MemSys.wf_write l bs (rekeyLine_wf l h)
  · exact MemSys.wf_write l bs h

theorem writeLines_wf (n : Nat) {s : State} (l : Loc) (bs : List Byte) (h : s.mem.wf = true) :
    (writeLines n s l bs).mem.wf = true := by
  induction n generalizing s l bs with
  | zero => exact h
  | succ n ih =>
    unfold writeLines; split
    · exact h
    · exact ih _ _ (writeLine_wf _ _ h)

/-- A write of bytes keeps every memory's canonical form. -/
theorem writeBytes_wf {s : State} (l : Loc) (bs : List Byte) (h : s.mem.wf = true) : (writeBytes s l bs).mem.wf = true :=
  writeLines_wf _ l bs h

theorem writeNat_wf {s : State} (l : Loc) (n x : Nat) (h : s.mem.wf = true) : (writeNat s l n x).mem.wf = true :=
  writeBytes_wf l _ h

/-- Nothing is listed at power-up, which is the canonical form. -/
theorem reset_wf : State.reset.mem.wf = true := rfl

/-! ## Read after write -/

/-- Outside G, a write is a write of the home's bytes. -/
theorem writeLine_mem (s : State) (l : Loc) (bs : List Byte) (h : l.home ≠ .g) :
    (writeLine s l bs).mem = s.mem.write l bs := by
  unfold writeLine; split
  · rename_i e; exact absurd e h
  · rfl

/-- In a G line that decrypts, a write is a write of the home's bytes under the line's new key tag. -/
theorem writeLine_mem_g (s : State) (l : Loc) (bs : List Byte) (h : l.home = .g) (hk : keyFits s l.line l.key = true) :
    (writeLine s l bs).mem = { s.mem.write l bs with keyTag := mapPut s.mem.keyTag l.line (l.key, keyLoad s l.key) } := by
  unfold writeLine rekeyLine; simp [h, hk]

theorem Loc.line_plus_ne {l : Loc} {k : Nat} (h : 128 - l.addr % 128 ≤ k) : l.line < (l.plus k).line := by
  simp only [Loc.line, Loc.plus]; omega

theorem memByte_writeLines (n : Nat) (s : State) (l : Loc) (bs : List Byte) (k : Home) (a : Nat)
    (hw : writable s l bs.length) (hn : l.addr % 128 + bs.length ≤ 128 * n) :
    memByte ((writeLines n s l bs).mem.home k) a =
      if k = l.home ∧ l.addr ≤ a ∧ a < l.addr + bs.length then (bs[a - l.addr]?).getD Config.emptyByte
      else memByte (s.mem.home k) a := by
  induction n generalizing s l bs with
  | zero =>
    have : bs = [] := by cases bs with
      | nil => rfl
      | cons _ _ => simp at hn
    subst this; simp [writeLines]
  | succ n ih =>
    unfold writeLines
    split
    · rename_i h; simp only [List.isEmpty_iff] at h; subst h; simp
    · rename_i hne
      have hlen : 0 < bs.length := List.length_pos_iff.2 (by simpa using hne)
      dsimp only
      have hmem : ∀ k a, memByte ((writeLine s l (bs.take (128 - l.addr % 128))).mem.home k) a =
          memByte ((s.mem.write l (bs.take (128 - l.addr % 128))).home k) a := by
        intro k a
        by_cases hg : l.home = .g
        · rw [writeLine_mem_g s l _ hg (by simpa [Loc.line] using hw hg 0 hlen)]; cases k <;> rfl
        · rw [writeLine_mem s l _ hg]
      have hw' : writable (writeLine s l (bs.take (128 - l.addr % 128))) (l.plus (128 - l.addr % 128))
          (bs.drop (128 - l.addr % 128)).length := by
        intro hg i hi
        simp only [List.length_drop] at hi
        have h0 := hw hg (128 - l.addr % 128 + i) (by omega)
        have hne2 : ¬ l.line = ((l.plus (128 - l.addr % 128)).addr + i) / 128 := by
          simp only [Loc.line, Loc.plus]; omega
        have e : (l.plus (128 - l.addr % 128)).addr + i = l.addr + (128 - l.addr % 128 + i) := by simp [Loc.plus]; omega
        have hkey : keyLoad (writeLine s l (bs.take (128 - l.addr % 128))) = keyLoad s := by
          funext j; rw [writeLine_frame]; rfl
        simp only [keyFits, hkey]
        rw [writeLine_mem_g s l _ hg (by simpa [Loc.line] using hw hg 0 hlen)]
        simp only [mapGet?_put, hne2, if_false]
        rw [e]
        exact h0
      rw [ih _ _ _ hw' (by simp [Loc.plus]; omega)]
      rw [hmem, MemSys.memByte_write]
      simp only [Loc.plus, List.length_drop, List.length_take, List.getElem?_drop]
      by_cases hk : k = l.home
      · by_cases h1 : l.addr + (128 - l.addr % 128) ≤ a ∧ a < l.addr + bs.length
        · rw [if_pos ⟨hk, by omega⟩, if_pos ⟨hk, by omega⟩]
          have : 128 - l.addr % 128 + (a - (l.addr + (128 - l.addr % 128))) = a - l.addr := by omega
          rw [this]
        · rw [if_neg (by omega)]
          by_cases h2 : l.addr ≤ a ∧ a < l.addr + bs.length
          · rw [if_pos ⟨hk, by omega⟩, if_pos ⟨hk, by omega⟩, List.getElem?_take_of_lt (by omega)]
          · rw [if_neg (by omega), if_neg (by omega)]
      · simp [hk]

/-- A byte after a write of bytes: the byte written there, or what stood there. -/
theorem memByte_writeBytes (s : State) (l : Loc) (bs : List Byte) (k : Home) (a : Nat) (hw : writable s l bs.length) :
    memByte ((writeBytes s l bs).mem.home k) a =
      if k = l.home ∧ l.addr ≤ a ∧ a < l.addr + bs.length then (bs[a - l.addr]?).getD Config.emptyByte
      else memByte (s.mem.home k) a := memByte_writeLines _ s l bs k a hw (by omega)

end Sys2Proof.Machine
end

