-- ==== Sys2Proof/Laws/Registers.lean ====
section
/-!
SUPPORT. What register writes do: which registers a list of writes leaves alone, and what the one write to a register leaves in it.
-/
namespace Sys2Proof.Machine

/-! ## One write -/

theorem laneKey_inj {i l j m : Nat} (hl : l < 32) (hm : m < 32) : laneKey i l = laneKey j m ↔ i = j ∧ l = m := by
  unfold laneKey; omega

@[simp] theorem Regs.apply_rows (r : Regs) (w : WriteBack) : (r.apply w).rows = r.rows := by
  unfold Regs.apply; split <;> rfl

theorem Regs.vSet_get (r : Regs) (i l j m : Nat) (x : Word) (t : BitVec 2) (p : Bool) :
    (r.vSet i l x t p).vGet j m = (if laneKey i l = laneKey j m then x else r.vGet j m) ∧
    (r.vSet i l x t p).tagGet j m = (if laneKey i l = laneKey j m then t else r.tagGet j m) ∧
    (r.vSet i l x t p).poisGet j m = (if laneKey i l = laneKey j m then p else r.poisGet j m) :=
  ⟨mapGet_set .., mapGet_set .., mapGet_set ..⟩

theorem Regs.sSet_get (r : Regs) (i j : Nat) (x : Word) (p : Bool) :
    (r.sSet i x p).sGet j = (if i = j then x else r.sGet j) ∧
    mapGet (r.sSet i x p).spois j false = (if i = j then p else mapGet r.spois j false) :=
  ⟨mapGet_set .., mapGet_set ..⟩

theorem Regs.pSet_get (r : Regs) (i l j m : Nat) (b : Bool) (hm : m < 32) :
    (r.pSet i l b).pGet j m = if i = j ∧ l = m then b else r.pGet j m := by
  have e : (r.pSet i l b).pMask j = if i = j then (if b then r.pMask i ||| laneBit l else r.pMask i &&& ~~~ laneBit l)
      else r.pMask j := mapGet_set ..
  unfold Regs.pGet
  rw [e]
  by_cases h : i = j
  · subst h
    cases b
    · by_cases hl : l = m
      · subst hl; simp only [if_true, if_false, Bool.false_eq_true, BitVec.getLsbD_and, BitVec.getLsbD_not, getLsbD_laneBit l l hm]
        simp
      · simp only [if_true, if_false, Bool.false_eq_true, BitVec.getLsbD_and, BitVec.getLsbD_not, getLsbD_laneBit l m hm]
        simp only [hl, hm, decide_true, decide_false, Bool.not_false, Bool.and_true, and_false, if_false]
    · by_cases hl : l = m
      · subst hl; simp only [if_true, BitVec.getLsbD_or, getLsbD_laneBit l l hm]; simp
      · simp only [if_true, BitVec.getLsbD_or, getLsbD_laneBit l m hm]; simp only [hl, decide_false, Bool.or_false, and_false, if_false]
  · simp [h]

theorem Regs.eSet_get (r : Regs) (i l j m : Nat) (x : Word) :
    (r.eSet i l x).eGet j m = if laneKey i l = laneKey j m then x else r.eGet j m := mapGet_set ..

theorem Regs.fSet_get (r : Regs) (i j : Nat) (x : Fut) : (r.fSet i x).fGet j = if i = j then x else r.fGet j := mapGet_set ..

/-- One write changes no register but its own, and that in its own lane alone; s and f registers belong to no lane. -/
theorem Regs.apply_same (r : Regs) (w : WriteBack) (n : RegName) (l : Nat) (hl : l < 32) (hw : w.lane < 32)
    (hn : n ≠ w.reg ∨ (l ≠ w.lane ∧ (∀ i, n ≠ .s i) ∧ ∀ i, n ≠ .f i)) : sameReg r (r.apply w) l n := by
  obtain ⟨reg, lane, val, tag, poison⟩ := w
  dsimp only at *
  cases reg <;> cases n <;>
    simp_all [Regs.apply, sameReg, Regs.vSet_get, Regs.sSet_get, Regs.pSet_get, Regs.eSet_get, Regs.fSet_get, laneKey_inj] <;>
    first
    | (intros; omega)
    | rfl
    | exact ⟨rfl, rfl, rfl⟩
    | exact ⟨rfl, rfl⟩

theorem sameReg_refl (r : Regs) (l : Nat) (n : RegName) : sameReg r r l n := by cases n <;> simp [sameReg]

theorem sameReg_trans {a b c : Regs} {l : Nat} {n : RegName} (h : sameReg a b l n) (h' : sameReg b c l n) : sameReg a c l n := by
  cases n <;> simp_all [sameReg]

/-! ## Writes in order -/

theorem Regs.applyAll_rows (ws : List WriteBack) (r : Regs) : (r.applyAll ws).rows = r.rows := by
  induction ws generalizing r with
  | nil => rfl
  | cons w ws ih => exact (ih _).trans (Regs.apply_rows ..)

/-- Writes leave every register alone that none of them names, and every lane that none of them is for. -/
theorem Regs.applyAll_same (ws : List WriteBack) (r : Regs) (n : RegName) (l : Nat) (hl : l < 32)
    (hw : ∀ w ∈ ws, w.lane < 32 ∧ (n ≠ w.reg ∨ (l ≠ w.lane ∧ (∀ i, n ≠ .s i) ∧ ∀ i, n ≠ .f i))) :
    sameReg r (r.applyAll ws) l n := by
  induction ws generalizing r with
  | nil => exact sameReg_refl ..
  | cons w ws ih =>
    have h := hw w (by simp)
    exact sameReg_trans (Regs.apply_same r w n l hl h.1 h.2) (ih _ (fun v hv => hw v (List.mem_cons_of_mem _ hv)))

/-- The value, tag and mark that writes leave in a lane of a v register, where all writes to it agree. -/
theorem Regs.applyAll_v (ws : List WriteBack) (r : Regs) (w : WriteBack) (i : Nat) (hw : w ∈ ws) (hr : w.reg = .v i)
    (hl : ∀ v ∈ ws, v.lane < 32) (hu : ∀ v ∈ ws, v.reg = .v i → v.lane = w.lane → v = w) :
    (r.applyAll ws).vGet i w.lane = w.val.truncate 32 ∧ (r.applyAll ws).tagGet i w.lane = w.tag ∧
      (r.applyAll ws).poisGet i w.lane = w.poison := by
  induction ws generalizing r with
  | nil => cases hw
  | cons v ws ih =>
    by_cases h : w ∈ ws
    · exact ih _ h (fun u hu' => hl u (List.mem_cons_of_mem _ hu')) (fun u hu' => hu u (List.mem_cons_of_mem _ hu'))
    · have e : v = w := by rcases List.mem_cons.1 hw with e | e; exacts [e.symm, absurd e h]
      subst e
      have key := Regs.applyAll_same ws (r.apply v) (.v i) v.lane (hl v (by simp)) (fun u hu' => by
        refine ⟨hl u (List.mem_cons_of_mem _ hu'), ?_⟩
        by_cases hreg : RegName.v i = u.reg
        · refine .inr ⟨fun hlane => h ?_, by simp, by simp⟩
          rwa [hu u (List.mem_cons_of_mem _ hu') hreg.symm hlane.symm] at hu'
        · exact .inl hreg)
      obtain ⟨k1, k2, k3⟩ := key
      have a : r.apply v = r.vSet i v.lane (v.val.truncate 32) v.tag v.poison := by simp [Regs.apply, hr]
      change (Regs.applyAll (r.apply v) ws).vGet i v.lane = _ ∧ _
      refine ⟨k1.trans ?_, k2.trans ?_, k3.trans ?_⟩ <;> rw [a] <;> simp [Regs.vSet_get]

theorem Regs.applyAll_s (ws : List WriteBack) (r : Regs) (w : WriteBack) (i : Nat) (hw : w ∈ ws) (hr : w.reg = .s i)
    (hl : ∀ v ∈ ws, v.lane < 32) (hu : ∀ v ∈ ws, v.reg = .s i → v = w) :
    (r.applyAll ws).sGet i = w.val.truncate 32 ∧ mapGet (r.applyAll ws).spois i false = w.poison := by
  induction ws generalizing r with
  | nil => cases hw
  | cons v ws ih =>
    by_cases h : w ∈ ws
    · exact ih _ h (fun u hu' => hl u (List.mem_cons_of_mem _ hu')) (fun u hu' => hu u (List.mem_cons_of_mem _ hu'))
    · have e : v = w := by rcases List.mem_cons.1 hw with e | e; exacts [e.symm, absurd e h]
      subst e
      have key := Regs.applyAll_same ws (r.apply v) (.s i) v.lane (hl v (by simp)) (fun u hu' => by
        refine ⟨hl u (List.mem_cons_of_mem _ hu'), .inl fun hreg => h ?_⟩
        rwa [hu u (List.mem_cons_of_mem _ hu') hreg.symm] at hu')
      obtain ⟨k1, k2⟩ := key
      have a : r.apply v = r.sSet i (v.val.truncate 32) v.poison := by simp [Regs.apply, hr]
      change (Regs.applyAll (r.apply v) ws).sGet i = _ ∧ _
      refine ⟨k1.trans ?_, k2.trans ?_⟩ <;> rw [a] <;> simp [Regs.sSet_get]

theorem Regs.applyAll_p (ws : List WriteBack) (r : Regs) (w : WriteBack) (i : Nat) (hw : w ∈ ws) (hr : w.reg = .p i)
    (hl : ∀ v ∈ ws, v.lane < 32) (hu : ∀ v ∈ ws, v.reg = .p i → v.lane = w.lane → v = w) :
    (r.applyAll ws).pGet i w.lane = (w.val != 0) := by
  induction ws generalizing r with
  | nil => cases hw
  | cons v ws ih =>
    by_cases h : w ∈ ws
    · exact ih _ h (fun u hu' => hl u (List.mem_cons_of_mem _ hu')) (fun u hu' => hu u (List.mem_cons_of_mem _ hu'))
    · have e : v = w := by rcases List.mem_cons.1 hw with e | e; exacts [e.symm, absurd e h]
      subst e
      have key := Regs.applyAll_same ws (r.apply v) (.p i) v.lane (hl v (by simp)) (fun u hu' => by
        refine ⟨hl u (List.mem_cons_of_mem _ hu'), ?_⟩
        by_cases hreg : RegName.p i = u.reg
        · refine .inr ⟨fun hlane => h ?_, by simp, by simp⟩
          rwa [hu u (List.mem_cons_of_mem _ hu') hreg.symm hlane.symm] at hu'
        · exact .inl hreg)
      have a : r.apply v = r.pSet i v.lane (v.val != 0) := by simp [Regs.apply, hr]
      change (Regs.applyAll (r.apply v) ws).pGet i v.lane = _
      refine Eq.trans key ?_
      rw [a, Regs.pSet_get _ _ _ _ _ _ (hl v (by simp))]; simp

theorem Regs.applyAll_e (ws : List WriteBack) (r : Regs) (w : WriteBack) (i : Nat) (hw : w ∈ ws) (hr : w.reg = .e i)
    (hl : ∀ v ∈ ws, v.lane < 32) (hu : ∀ v ∈ ws, v.reg = .e i → v.lane = w.lane → v = w) :
    (r.applyAll ws).eGet i w.lane = w.val.truncate 32 := by
  induction ws generalizing r with
  | nil => cases hw
  | cons v ws ih =>
    by_cases h : w ∈ ws
    · exact ih _ h (fun u hu' => hl u (List.mem_cons_of_mem _ hu')) (fun u hu' => hu u (List.mem_cons_of_mem _ hu'))
    · have e : v = w := by rcases List.mem_cons.1 hw with e | e; exacts [e.symm, absurd e h]
      subst e
      have key := Regs.applyAll_same ws (r.apply v) (.e i) v.lane (hl v (by simp)) (fun u hu' => by
        refine ⟨hl u (List.mem_cons_of_mem _ hu'), ?_⟩
        by_cases hreg : RegName.e i = u.reg
        · refine .inr ⟨fun hlane => h ?_, by simp, by simp⟩
          rwa [hu u (List.mem_cons_of_mem _ hu') hreg.symm hlane.symm] at hu'
        · exact .inl hreg)
      have a : r.apply v = r.eSet i v.lane (v.val.truncate 32) := by simp [Regs.apply, hr]
      change (Regs.applyAll (r.apply v) ws).eGet i v.lane = _
      refine Eq.trans key ?_
      rw [a]; simp [Regs.eSet_get]

/-! ## The writes of a destination -/

theorem mem_putV {i l x n : Nat} {t : BitVec 2} {p : Bool} {w : WriteBack} : w ∈ putV i l x t p n ↔
    ∃ j, j < n ∧ w = { reg := .v (i + j), lane := l, val := BitVec.ofNat 64 (x / 2 ^ (32 * j) % 2 ^ 32), tag := t, poison := p } := by
  induction n generalizing i x with
  | zero => simp [putV]
  | succ n ih =>
    simp only [putV, List.mem_cons, ih]
    constructor
    · rintro (h | ⟨j, hj, h⟩)
      · exact ⟨0, by omega, by simpa using h⟩
      · refine ⟨j + 1, by omega, ?_⟩
        rw [h, Nat.div_div_eq_div_mul, ← Nat.pow_add]
        have e1 : i + 1 + j = i + (j + 1) := by omega
        have e2 : 32 + 32 * j = 32 * (j + 1) := by omega
        rw [e1, e2]
    · rintro ⟨j, hj, h⟩
      cases j with
      | zero => exact .inl (by simpa using h)
      | succ j =>
        refine .inr ⟨j, by omega, ?_⟩
        rw [h, Nat.div_div_eq_div_mul, ← Nat.pow_add]
        have e1 : i + 1 + j = i + (j + 1) := by omega
        have e2 : 32 + 32 * j = 32 * (j + 1) := by omega
        rw [e1, e2]

theorem mem_putS {i x n : Nat} {p : Bool} {w : WriteBack} : w ∈ putS i x p n ↔
    ∃ j, j < n ∧ w = { reg := .s (i + j), lane := 0, val := BitVec.ofNat 64 (x / 2 ^ (32 * j) % 2 ^ 32), poison := p } := by
  induction n generalizing i x with
  | zero => simp [putS]
  | succ n ih =>
    simp only [putS, List.mem_cons, ih]
    constructor
    · rintro (h | ⟨j, hj, h⟩)
      · exact ⟨0, by omega, by simpa using h⟩
      · refine ⟨j + 1, by omega, ?_⟩
        rw [h, Nat.div_div_eq_div_mul, ← Nat.pow_add]
        have e1 : i + 1 + j = i + (j + 1) := by omega
        have e2 : 32 + 32 * j = 32 * (j + 1) := by omega
        rw [e1, e2]
    · rintro ⟨j, hj, h⟩
      cases j with
      | zero => exact .inl (by simpa using h)
      | succ j =>
        refine .inr ⟨j, by omega, ?_⟩
        rw [h, Nat.div_div_eq_div_mul, ← Nat.pow_add]
        have e1 : i + 1 + j = i + (j + 1) := by omega
        have e2 : 32 + 32 * j = 32 * (j + 1) := by omega
        rw [e1, e2]

theorem truncate_word (n : Nat) : (BitVec.ofNat 64 (n % 2 ^ 32)).truncate 32 = BitVec.ofNat 32 n := by
  apply BitVec.eq_of_toNat_eq
  simp only [BitVec.truncate_eq_setWidth, BitVec.toNat_setWidth, BitVec.toNat_ofNat]
  omega

end Sys2Proof.Machine
end

