-- ==== Sys2Proof/Laws/Commit.lean ====
section
/-!
SUPPORT. The issuing agent before its meaning, and the machine after a commit, in the terms of `Past`, `Keeps` and `Holds`.
-/
namespace Sys2Proof.Machine

/-! ## The issuing agent -/

theorem turnEnv_code {s : State} {opc len : Nat} {f : Fields} {x : Env} (hx : turnEnv s opc f len = some x) :
    x.opc = opc ∧ x.f = f ∧ x.len = len ∧ x.sh = (shape opc f).getD { mOk := false } ∧ x.pops = [] := by
  unfold turnEnv at hx
  repeat' split at hx
  all_goals first | cases hx; exact ⟨rfl, rfl, rfl, rfl, rfl⟩ | cases hx

/-- The agent on turn is a stroke or a scribe context of the machine. -/
theorem turnEnv_agent {s : State} {opc len : Nat} {f : Fields} {x : Env} (hx : turnEnv s opc f len = some x) :
    match x.agent with
    | .stroke k => ∃ a, s.stroke? k = some a
    | .ctx g => (∃ c, s.ctx? g = some c) ∧ x.grp = g ∧ x.path = 1 ∧ x.regs = {} := by
  unfold turnEnv at hx
  repeat' split at hx
  all_goals cases hx
  all_goals first | exact ⟨_, by assumption⟩ | exact ⟨⟨_, by assumption⟩, rfl, rfl, rfl⟩

theorem popPort_keeps {s t : State} {x : Env} {p : Nat} {w : Map Word} (hp : popPort s x p = .ok (t, w)) :
    t = { s with mem := t.mem, strokes := t.strokes } ∧ ∀ j, (t.stroke? j).isSome = (s.stroke? j).isSome := by
  unfold popPort at hp
  dsimp only at hp
  repeat' split at hp
  all_goals simp only [Except.ok.injEq, Prod.mk.injEq, reduceCtorEq] at hp
  all_goals obtain ⟨rfl, -⟩ := hp
  · exact ⟨rfl, fun _ => rfl⟩
  · exact ⟨rfl, fun _ => rfl⟩
  all_goals
    rw [ringPut_frame]
    refine ⟨rfl, fun j => ?_⟩
    simp only [State.modStroke_stroke_get]
    split <;> simp [State.stroke?]

/-- Popping ports changes memory and lanes' eos flags alone. -/
theorem popPorts_keeps {ps : List Nat} {s t : State} {x y : Env} (hp : popPorts s x ps = .ok (t, y)) :
    t = { s with mem := t.mem, strokes := t.strokes } ∧ ∀ j, (t.stroke? j).isSome = (s.stroke? j).isSome := by
  induction ps generalizing s x with
  | nil => simp only [popPorts, Except.ok.injEq, Prod.mk.injEq] at hp; obtain ⟨rfl, -⟩ := hp; exact ⟨rfl, fun _ => rfl⟩
  | cons p ps ih =>
    simp only [popPorts] at hp
    split at hp
    · cases hp
    · rename_i r hr
      obtain ⟨h1, h2⟩ := popPort_keeps hr
      obtain ⟨h3, h4⟩ := ih hp
      exact ⟨by rw [h3, h1], fun j => (h4 j).trans (h2 j)⟩

theorem deliver_isSome (s : State) (k op : Nat) (ws : List WriteBack) (j : Nat) :
    ((deliver s k op ws).stroke? j).isSome = (s.stroke? j).isSome ∧ (deliver s k op ws).ctxs = s.ctxs := by
  refine ⟨?_, rfl⟩
  simp only [deliver, State.modStroke_stroke_get]; split <;> simp

theorem futureDone_isSome (s : State) (op : Nat) (w : Word) (j : Nat) :
    ((futureDone s op w).stroke? j).isSome = (s.stroke? j).isSome ∧ (futureDone s op w).ctxs = s.ctxs := by
  refine ⟨?_, rfl⟩
  simp only [futureDone, State.stroke?]
  induction s.strokes with
  | nil => rfl
  | cons e m ih =>
    obtain ⟨i, a⟩ := e
    simp only [List.map_cons, mapGet?]
    split
    · rfl
    · exact ih

theorem setFifo_isSome (s : State) (a : AgentId) (q : List FifoEntry) (j : Nat) :
    ((setFifo s a q).stroke? j).isSome = (s.stroke? j).isSome ∧ ((setFifo s a q).ctx? j).isSome = (s.ctx? j).isSome := by
  cases a with
  | stroke k => refine ⟨?_, rfl⟩; simp only [setFifo, State.modStroke_stroke_get]; split <;> simp
  | ctx k => refine ⟨rfl, ?_⟩; simp only [setFifo, State.modCtx_ctx_get]; split <;> simp

theorem sendRemote_isSome (s : State) (a : AgentId) (core : Nat) (ps : List (Nat × List Byte)) (part : Nat) (sent : Option Nat) (j : Nat) :
    ((sendRemote s a core ps part sent).stroke? j).isSome = (s.stroke? j).isSome ∧
      ((sendRemote s a core ps part sent).ctx? j).isSome = (s.ctx? j).isSome := by
  unfold sendRemote
  cases sent with
  | some n => exact setFifo_isSome ..
  | none => cases ps with
    | nil => exact ⟨rfl, rfl⟩
    | cons p more => exact setFifo_isSome ..

/-- Performing an entry of a FIFO makes and ends no agent. -/
theorem performEntry_isSome (s : State) (a : AgentId) (e : FifoEntry) (j : Nat) :
    ((performEntry s a e).stroke? j).isSome = (s.stroke? j).isSome ∧ ((performEntry s a e).ctx? j).isSome = (s.ctx? j).isSome := by
  have hw : ∀ (l : Loc) (bs : List Byte), ((writeBytes s l bs).stroke? j).isSome = (s.stroke? j).isSome ∧
      ((writeBytes s l bs).ctx? j).isSome = (s.ctx? j).isSome := by
    intro l bs; rw [writeBytes_frame]; exact ⟨rfl, rfl⟩
  have hd : ∀ (t : State) (op : Nat) (ws : List WriteBack), (t.stroke? j).isSome = (s.stroke? j).isSome →
      (t.ctx? j).isSome = (s.ctx? j).isSome →
      ((match a with | .stroke k => deliver t k op ws | .ctx _ => t).stroke? j).isSome = (s.stroke? j).isSome ∧
      ((match a with | .stroke k => deliver t k op ws | .ctx _ => t).ctx? j).isSome = (s.ctx? j).isSome := by
    intro t op ws h1 h2
    cases a with
    | stroke k =>
      refine ⟨(deliver_isSome t k op ws j).1.trans h1, Eq.trans ?_ h2⟩
      simp only [State.ctx?, (deliver_isSome t k op ws j).2]
    | ctx k => exact ⟨h1, h2⟩
  unfold performEntry
  dsimp only
  cases e with
  | store l bs => exact hw ..
  | atom l w sg op x o lane dst toS => exact hd _ _ _ (hw ..).1 (hw ..).2
  | cas l w ex nw o lane dst toS =>
    dsimp only
    by_cases hc : readNat s l (w / 8) = ex.toNat
    · simp only [hc, if_true]; exact hd _ _ _ (hw ..).1 (hw ..).2
    · simp only [hc, if_false]; exact hd _ _ _ rfl rfl
  | fxadd l x o => exact hd _ _ _ (hw ..).1 (hw ..).2
  | fxclr l => exact hw ..
  | retag l t => exact hw ..
  | remote core ps part sent => exact sendRemote_isSome ..
  | asyncDone op =>
    refine ⟨(futureDone_isSome ..).1, ?_⟩
    simp only [State.ctx?, (futureDone_isSome s op 0 j).2]

/-- Draining a FIFO makes and ends no agent. -/
theorem drain_isSome (n : Nat) (s : State) (a : AgentId) (j : Nat) :
    ((drain n s a).stroke? j).isSome = (s.stroke? j).isSome ∧ ((drain n s a).ctx? j).isSome = (s.ctx? j).isSome := by
  induction n generalizing s with
  | zero => exact ⟨rfl, rfl⟩
  | succ n ih =>
    unfold drain
    split
    · exact ⟨rfl, rfl⟩
    · split
      · exact ⟨rfl, rfl⟩
      · have h1 := performEntry_isSome (setFifo s a ‹_›) a ‹_› j
        have h2 := setFifo_isSome s a ‹_› j
        exact ⟨(ih _).1.trans (h1.1.trans h2.1), (ih _).2.trans (h1.2.trans h2.2)⟩

/-- What a release performs makes and ends no agent. -/
theorem released_isSome (x : Env) (s : State) (j : Nat) :
    ((x.released s).stroke? j).isSome = (s.stroke? j).isSome ∧ ((x.released s).ctx? j).isSome = (s.ctx? j).isSome :=
  drain_isSome ..

/-- What holds of the agent that reaches a meaning. -/
theorem issuedAs_agent {s : State} {opc len : Nat} {f : Fields} {q : Issued} (hq : issuedAs s opc f len = some q) :
    q.x.opc = opc ∧ q.x.f = f ∧ q.x.len = len ∧ q.x.sh = (shape opc f).getD { mOk := false } ∧ q.y = { q.x with pops := q.y.pops } ∧
    match q.x.agent with
    | .stroke k => ∃ a, q.t.stroke? k = some a
    | .ctx g => (∃ c, q.t.ctx? g = some c) ∧ q.x.path = 1 ∧ q.x.act = 1 := by
  obtain ⟨z, hz, -, hx, hm, t, hp, ht⟩ := issuedAs_cases hq
  obtain ⟨c1, c2, c3, c4, -⟩ := turnEnv_code hz
  have ha := turnEnv_agent hz
  have hk := popPorts_keeps hp
  obtain ⟨-, -, hact, -, -, -⟩ := mayExecute_iff.1 hm
  refine ⟨by rw [hx]; exact c1, by rw [hx]; exact c2, by rw [hx]; exact c3, by rw [hx]; exact c4, popPorts_env hp, ?_⟩
  have eag : q.x.agent = z.agent := by rw [hx]
  have hsome : ∀ j, (q.t.stroke? j).isSome = (s.stroke? j).isSome ∧ (q.t.ctx? j).isSome = (s.ctx? j).isSome := fun j => by
    have hc : t.ctx? j = s.ctx? j := by rw [hk.1]; rfl
    rw [readyPush_cases ht, hk.2 j, hc]; exact ⟨rfl, rfl⟩
  rw [eag]
  revert ha
  cases hag : z.agent with
  | stroke k =>
    rintro ⟨a, h⟩
    have := (hsome k).1; rw [h] at this
    exact Option.isSome_iff_exists.1 this
  | ctx g =>
    rintro ⟨⟨c, h⟩, hg, hpath, hr⟩
    refine ⟨?_, by rw [hx]; exact hpath, ?_⟩
    · have := (hsome g).2; rw [h] at this
      exact Option.isSome_iff_exists.1 this
    · rw [hx] at hact ⊢
      simp only [guardMask, hpath, guarded, hag] at hact ⊢
      revert hact
      split
      · split <;> simp
      · simp

/-! ## The state after a commit -/

theorem modLanes_get (st : Stroke) (m : Mask) (g : Nat → Lane → Lane) (l : Nat) :
    (st.modLanes m g).lanes[l]? = (st.lanes[l]?).map (fun y => if m.getLsbD l then g l y else y) := by
  simp [Stroke.modLanes]

theorem countLoad_of_ne (s : State) (x : Env) (h : loadCodes.contains x.opc = false) : countLoad s x = s := by
  simp only [countLoad, farLoad, h, Bool.false_and, Bool.false_eq_true, false_and, if_false]

/-- Where a stroke's lane stands after a commit. -/
def nextPc (q : Issued) (e : Effect) (l : Nat) : Dword :=
  ((e.jumps.find? (fun j => j.1 == l)).map (·.2)).getD (q.next l)

/-- The issuing stroke after a commit. -/
def strokeAfter (q : Issued) (e : Effect) (st : Stroke) : Stroke := commitTo q.s q.x e st

theorem takeUnit_frame (s : State) (x : Env) : takeUnit s x = { s with cores := (takeUnit s x).cores } := by
  unfold takeUnit; split <;> rfl

theorem takeUnit_modStroke (s : State) (x : Env) (k : Nat) (g : Stroke → Stroke) :
    takeUnit (s.modStroke k g) x = (takeUnit s x).modStroke k g := by
  unfold takeUnit; split <;> rfl

theorem takeUnit_scribe {s : State} {x : Env} (h : x.scribe = true) : takeUnit s x = s := by
  simp [takeUnit, h]

/-- The machine after a commit of stroke k, before anything is pushed. -/
def commitAfter (q : Issued) (e : Effect) (k : Nat) : State := takeUnit ((countLoad e.st q.x).modStroke k (strokeAfter q e)) q.x

theorem commit_stroke {q : Issued} {e : Effect} {k : Nat} (hag : q.x.agent = .stroke k) :
    commit q.s q.x e = pushAll (commitAfter q e k) q.x (outputPorts q.s q.x) e.writes e.later := by
  have hkey : q.x.key = k := by simp [Env.key, hag]
  simp only [commit, hag, commitStroke, hkey]; rfl

theorem commitAfter_get {q : Issued} {e : Effect} {k : Nat} {a : Stroke} (ha : e.st.stroke? k = some a) (tn : Turn) :
    State.stroke? { commitAfter q e k with turn := tn } k = some (strokeAfter q e a) := by
  have hu : (countLoad e.st q.x).stroke? k = some a := by unfold countLoad; split <;> exact ha
  have h : State.stroke? { commitAfter q e k with turn := tn } k = ((countLoad e.st q.x).modStroke k (strokeAfter q e)).stroke? k := by
    unfold commitAfter; rw [takeUnit_frame]; rfl
  rw [h]
  exact (mapGet?_mod_self ..).trans (congrArg (Option.map _) hu)

theorem strokeAfter_frame (q : Issued) (e : Effect) (a : Stroke) : strokeAfter q e a =
    { a with regs := (strokeAfter q e a).regs, lanes := (strokeAfter q e a).lanes, inflight := (strokeAfter q e a).inflight,
             busy := (strokeAfter q e a).busy, park := parkLeft q.s a.park
             kept := a.kept.filter (fun r => r.act &&& q.x.path == 0) } := by
  unfold strokeAfter commitTo Stroke.modLanes yielded parkLeft
  cases e.later <;> cases e.slow <;> cases q.s.turn <;> rfl

theorem strokeAfter_lanes (q : Issued) (e : Effect) (a : Stroke) (l : Nat) :
    (strokeAfter q e a).lanes[l]? = (a.lanes[l]?).map (lanePast q (strokeAfter q e a).inflight (flagsOf e.flags) (nextPc q e) l) := by
  unfold strokeAfter commitTo yielded
  cases e.later <;> cases e.slow <;> cases q.s.turn <;> exact modLanes_get ..

/-- A commit of a stroke, before anything is pushed. -/
theorem commit_past_stroke {q : Issued} {e : Effect} {k : Nat} {a : Stroke} (hag : q.x.agent = .stroke k)
    (ha : e.st.stroke? k = some a) :
    Past q (countLoad e.st q.x) { commitAfter q e k with turn := nextTurn q.s q.x } (flagsOf e.flags) (nextPc q e) := by
  have hu : (countLoad e.st q.x).stroke? k = some a := by unfold countLoad; split <;> exact ha
  have hc : commitAfter q e k = (takeUnit (countLoad e.st q.x) q.x).modStroke k (strokeAfter q e) := takeUnit_modStroke ..
  have hs : ∀ j, (takeUnit (countLoad e.st q.x) q.x).stroke? j = (countLoad e.st q.x).stroke? j := fun j => by
    rw [takeUnit_frame]; rfl
  have hx : (takeUnit (countLoad e.st q.x) q.x).ctxs = (countLoad e.st q.x).ctxs := by rw [takeUnit_frame]
  simp only [Past, hag]
  refine ⟨by rw [hc]; rfl, by rw [hc]; exact hx, fun j hj => ?_, a, _, hu, commitAfter_get ha _, strokeAfter_frame q e a,
    strokeAfter_lanes q e a⟩
  rw [hc]; exact (mapGet?_mod_ne _ hj _).trans (hs j)

/-- The issuing context after a commit. -/
def ctxAfter (q : Issued) (e : Effect) (c : ScribeCtx) : ScribeCtx :=
  { e.writes.foldl ScribeCtx.apply c with pc := ((e.jumps.head?).map (·.2)).getD (q.next 0), lastIssue := q.s.cycle }

theorem commit_ctx {q : Issued} {e : Effect} {g : Nat} (hag : q.x.agent = .ctx g) :
    commit q.s q.x e = e.st.modCtx g (ctxAfter q e) := by
  have hkey : q.x.key = g := by simp [Env.key, hag]
  simp only [commit, hag, commitCtx, hkey]; rfl

theorem applyCtx_frame (ws : List WriteBack) (c : ScribeCtx) : ws.foldl ScribeCtx.apply c =
    { c with k := (ws.foldl ScribeCtx.apply c).k, kpois := (ws.foldl ScribeCtx.apply c).kpois,
             p := (ws.foldl ScribeCtx.apply c).p } := by
  induction ws generalizing c with
  | nil => rfl
  | cons w ws ih =>
    simp only [List.foldl_cons]
    rw [ih]
    simp only [ScribeCtx.apply, ScribeCtx.kSet]
    split <;> rfl

theorem ctxAfter_frame (q : Issued) (e : Effect) (c : ScribeCtx) : ctxAfter q e c =
    { c with k := (ctxAfter q e c).k, kpois := (ctxAfter q e c).kpois, p := (ctxAfter q e c).p,
             pc := ((e.jumps.head?).map (·.2)).getD (q.next 0), lastIssue := q.s.cycle } := by
  unfold ctxAfter
  conv_lhs => rw [applyCtx_frame]

/-- A commit of a scribe context. -/
theorem commit_past_ctx {q : Issued} {e : Effect} {g : Nat} {c : ScribeCtx} (hag : q.x.agent = .ctx g)
    (hc : e.st.ctx? g = some c) (fl : Nat → Flags) (pc : Nat → Dword)
    (hpc : pc 0 = ((e.jumps.head?).map (·.2)).getD (q.next 0)) :
    Past q e.st { commit q.s q.x e with turn := nextTurn q.s q.x } fl pc := by
  have hs : q.x.scribe = true := by simp [Env.scribe, hag]
  rw [commit_ctx hag]
  simp only [Past, hag, takeUnit_scribe hs]
  refine ⟨rfl, rfl, fun j hj => mapGet?_mod_ne _ hj _, c, _, hc,
    (mapGet?_mod_self ..).trans (congrArg (Option.map _) hc), ?_⟩
  rw [hpc]; exact ctxAfter_frame q e c

/-- The machine after a commit, before anything is pushed. -/
def landed (q : Issued) (e : Effect) : State :=
  match q.x.agent with
  | .stroke k => { commitAfter q e k with turn := nextTurn q.s q.x }
  | .ctx _ => { commit q.s q.x e with turn := nextTurn q.s q.x }

theorem writeLine_turn (s : State) (l : Loc) (bs : List Byte) (tn : Turn) :
    writeLine { s with turn := tn } l bs = { writeLine s l bs with turn := tn } := by
  have h : rekeyLine { s with turn := tn } l = { rekeyLine s l with turn := tn } := by
    unfold rekeyLine
    have e : keyFits { s with turn := tn } l.line l.key = keyFits s l.line l.key := rfl
    rw [e]; split <;> rfl
  unfold writeLine
  cases l.home
  case g => simp only [h]; rfl
  all_goals rfl

theorem writeBytes_turn (s : State) (l : Loc) (bs : List Byte) (tn : Turn) :
    writeBytes { s with turn := tn } l bs = { writeBytes s l bs with turn := tn } := by
  unfold writeBytes
  generalize bs.length / 128 + 2 = n
  induction n generalizing s l bs with
  | zero => rfl
  | succ n ih =>
    simp only [writeLines]
    split
    · rfl
    · rw [writeLine_turn, ih]

theorem ringPut_turn (s : State) (g : Nat) (b : Binding) (off x : Nat) (tn : Turn) :
    ringPut { s with turn := tn } g b off x = { ringPut s g b off x with turn := tn } := by
  have e : ringLoc { s with turn := tn } g b off = ringLoc s g b off := rfl
  unfold ringPut
  rw [e]; split
  · exact writeBytes_turn ..
  · rfl

theorem ringFill_turn (ws : List Word) (s : State) (g : Nat) (b : Binding) (i : Nat) (tn : Turn) :
    ringFill { s with turn := tn } g b i ws = { ringFill s g b i ws with turn := tn } := by
  induction ws generalizing s i with
  | nil => rfl
  | cons w ws ih => simp only [ringFill, ringPut_turn, ih]

theorem ringAdvance_turn (rs : List Resv) (s : State) (ring : Loc) (tn : Turn) :
    ringAdvance { s with turn := tn } ring rs = ({ (ringAdvance s ring rs).1 with turn := tn }, (ringAdvance s ring rs).2) := by
  induction rs generalizing s with
  | nil => rfl
  | cons r rs ih =>
    have e : State.group? { s with turn := tn } r.group = s.group? r.group := rfl
    simp only [ringAdvance, e]
    split
    · split
      · split
        · rw [ringFill_turn, ringPut_turn, ih]
        · exact ih s
      · rfl
    · rw [ih]

/-- What is pushed does not depend on whose turn it is. -/
theorem pushWords_turn (s : State) (x : Env) (p : Nat) (ws : List WriteBack) (op : Option Nat) (tn : Turn) :
    { pushWords s x p ws op with turn := tn } = { pushWords { s with turn := tn } x p ws op with turn := tn } := by
  unfold pushWords
  have e1 : x.group { s with turn := tn } = x.group s := rfl
  have e2 : x.workers { s with turn := tn } = x.workers s := rfl
  simp only [e1, e2]
  cases bindingOf (x.group s) (p - 252) with
  | none => rfl
  | some b =>
    have e3 : ringLoc { s with turn := tn } x.grp b 0 = ringLoc s x.grp b 0 := rfl
    simp only [e3]
    cases ringLoc s x.grp b 0 with
    | none => rfl
    | some r =>
      dsimp only
      split
      · rfl
      · unfold State.advanceRing
        dsimp only
        have e4 : ringView { s with turn := tn } x.grp b = ringView s x.grp b := rfl
        have e5 : reservedIn { s with turn := tn } r = reservedIn s r := rfl
        simp only [e4, e5]
        generalize hr : s.resv ++ [_] = rs
        generalize hn : (if op.isNone = true then s.nextId + 1 else s.nextId) = n
        have e6 := ringAdvance_turn rs { s with resv := rs, nextId := n } r tn
        have e7 : ({ s with turn := tn, resv := rs, nextId := n } : State) =
          { ({ s with resv := rs, nextId := n } : State) with turn := tn } := rfl
        rw [e7, e6]

theorem performEntry_turn (s : State) (a : AgentId) (e : FifoEntry) (tn : Turn) :
    performEntry { s with turn := tn } a e = { performEntry s a e with turn := tn } := by
  have hr : ∀ (l : Loc) (n : Nat), readNat { s with turn := tn } l n = readNat s l n := fun _ _ => rfl
  have hw : ∀ (l : Loc) (n x : Nat), writeNat { s with turn := tn } l n x = { writeNat s l n x with turn := tn } :=
    fun _ _ _ => writeBytes_turn ..
  have hd : ∀ (t : State) (k op : Nat) (ws : List WriteBack),
      deliver { t with turn := tn } k op ws = { deliver t k op ws with turn := tn } := fun _ _ _ _ => rfl
  unfold performEntry
  dsimp only
  cases e with
  | store l bs => exact writeBytes_turn ..
  | atom l w sg op x o lane dst toS => dsimp only; rw [hr, hw]; cases a <;> rfl
  | cas l w ex nw o lane dst toS =>
    dsimp only
    rw [hr]
    by_cases hc : readNat s l (w / 8) = ex.toNat
    · simp only [hc, if_true, hw]; cases a <;> rfl
    · simp only [hc, if_false]; cases a <;> rfl
  | fxadd l x o => dsimp only; rw [hr, hw]; cases a <;> rfl
  | fxclr l => exact hw ..
  | retag l t => dsimp only; rw [hr]; exact hw ..
  | remote core ps part sent => cases sent <;> cases ps <;> cases a <;> rfl
  | asyncDone op => rfl

theorem setFifo_turn (s : State) (a : AgentId) (q : List FifoEntry) (tn : Turn) :
    setFifo { s with turn := tn } a q = { setFifo s a q with turn := tn } := by cases a <;> rfl

theorem drain_turn (n : Nat) (s : State) (a : AgentId) (tn : Turn) :
    drain n { s with turn := tn } a = { drain n s a with turn := tn } := by
  induction n generalizing s with
  | zero => rfl
  | succ n ih =>
    have hq : fifoOf { s with turn := tn } a = fifoOf s a := by cases a <;> rfl
    unfold drain
    rw [hq]
    cases fifoOf s a with
    | nil => rfl
    | cons e q =>
      dsimp only
      split
      · rfl
      · rw [setFifo_turn, performEntry_turn, ih]

theorem released_turn (x : Env) (s : State) (tn : Turn) : x.released { s with turn := tn } = { x.released s with turn := tn } := by
  have hq : fifoOf { s with turn := tn } x.agent = fifoOf s x.agent := by cases x.agent <;> rfl
  unfold Env.released drainFifo
  rw [hq]; exact drain_turn ..

theorem pushFold_turn (ps : List Nat) (s : State) (x : Env) (ws : List WriteBack) (op : Option Nat) (tn : Turn) :
    { ps.foldl (fun s p => pushWords s x p ws op) s with turn := tn } =
      { ps.foldl (fun s p => pushWords s x p ws op) { s with turn := tn } with turn := tn } := by
  induction ps generalizing s with
  | nil => rfl
  | cons p ps ih =>
    simp only [List.foldl_cons]
    rw [ih (pushWords s x p ws op), ih (pushWords { s with turn := tn } x p ws op), pushWords_turn]

theorem pushAll_turn (ps : List Nat) (s : State) (x : Env) (ws : List WriteBack) (op : Option Nat) (tn : Turn) :
    { pushAll s x ps ws op with turn := tn } = { pushAll { s with turn := tn } x ps ws op with turn := tn } := by
  have e : x.workers { s with turn := tn } = x.workers s := rfl
  unfold pushAll
  rw [e]
  split
  · rfl
  · rw [released_turn x s tn]; exact pushFold_turn ..

/-- How a commit ends a step: what the commit leaves, and then what is pushed. -/
theorem conclude_commit (q : Issued) (e : Effect) :
    conclude q.s q.x (.commit e) = pushed q (landed q e) e.writes e.later := by
  unfold conclude pushed landed Issued.ports
  cases hag : q.x.agent with
  | stroke k =>
    have hs : q.x.scribe = false := by simp [Env.scribe, hag]
    simp only [hs, Bool.false_eq_true, if_false]
    rw [commit_stroke hag]
    exact pushAll_turn ..
  | ctx c =>
    have hs : q.x.scribe = true := by simp [Env.scribe, hag]
    simp only [hs, if_true]
    rfl

/-! ## Registers after a commit -/

theorem landed_get {q : Issued} {e : Effect} {k : Nat} {a : Stroke} (hag : q.x.agent = .stroke k) (ha : e.st.stroke? k = some a) :
    (landed q e).stroke? k = some (strokeAfter q e a) := by
  simp only [landed, hag]; exact commitAfter_get ha _

theorem landed_ctx {q : Issued} {e : Effect} {g : Nat} {c : ScribeCtx} (hag : q.x.agent = .ctx g) (hc : e.st.ctx? g = some c) :
    (landed q e).ctx? g = some (ctxAfter q e c) := by
  simp only [landed, hag]; rw [commit_ctx hag]
  exact (mapGet?_mod_self ..).trans (congrArg (Option.map _) hc)

/-- The agent that issues is there in the state that the effect is laid over. -/
def Lives (q : Issued) (u : State) : Prop :=
  match q.x.agent with
  | .stroke k => ∃ a, u.stroke? k = some a
  | .ctx g => ∃ c, u.ctx? g = some c

theorem issuedAs_lives {s : State} {opc len : Nat} {f : Fields} {q : Issued} (hq : issuedAs s opc f len = some q) : Lives q q.t := by
  have h := (issuedAs_agent hq).2.2.2.2.2
  unfold Lives
  revert h
  cases q.x.agent with
  | stroke k => exact id
  | ctx c => exact And.left

/-- What a commit that counts no load leaves. -/
theorem landed_past {q : Issued} {e : Effect} (hu : Lives q e.st) (hop : loadCodes.contains q.x.opc = false) (fl : Nat → Flags) (pc : Nat → Dword)
    (hfl : fl = flagsOf e.flags) (hpc : pc = nextPc q e) (hpc0 : pc 0 = ((e.jumps.head?).map (·.2)).getD (q.next 0)) :
    Past q e.st (landed q e) fl pc := by
  subst hfl
  cases hag : q.x.agent with
  | stroke k =>
    simp only [Lives, hag] at hu
    obtain ⟨a, ha⟩ := hu
    have := commit_past_stroke (e := e) hag ha
    rw [countLoad_of_ne _ _ hop] at this
    simpa only [landed, hag, hpc] using this
  | ctx c =>
    simp only [Lives, hag] at hu
    obtain ⟨a, ha⟩ := hu
    simpa only [landed, hag] using commit_past_ctx (e := e) hag ha (flagsOf e.flags) pc hpc0

/-- No destination of an instruction that names no bound output port is one. -/
theorem toPort_false {s : State} {x : Env} (hport : outputPorts s x = []) {w : WriteBack} (hw : w.reg ∈ destsOf x.sh x.f) :
    toPort (x.group s) w = false := by
  unfold toPort
  split
  · rename_i i hi
    rw [hi] at hw
    simp only [outputPorts, List.filter_eq_nil_iff] at hport
    by_cases ho : isOutput i = true
    · have hi' : i = 254 ∨ i = 255 := by simpa [isOutput] using ho
      have hmem : (usesOf x.sh x.f).contains (RegName.v i, true) = true := by
        simp only [destsOf, List.mem_filterMap] at hw
        obtain ⟨⟨r, b⟩, hu, hb⟩ := hw
        split at hb
        · cases hb
          rename_i hb'
          subst hb'
          simpa using hu
        · cases hb
      have := hport i (by rcases hi' with rfl | rfl <;> simp)
      rw [hmem] at this
      simp only [Bool.and_true, Bool.not_eq_true] at this
      simp [this]
    · simp [ho]
  · rfl

/-- Writes at once, each to a destination listed, in an active lane. -/
structure AtOnce (q : Issued) (e : Effect) (ds : List RegName) : Prop where
  later : e.later = none
  slow  : e.slow = none
  own   : q.x.scribe = false → e.writes.filter (fun w => !toPort (q.x.group q.s) w) = e.writes
  dests : ∀ w ∈ e.writes, w.reg ∈ ds ∧ w.lane < 32 ∧ (q.on w.lane = true ∨ (∃ i, w.reg = .s i) ∨ ∃ i, w.reg = .k i)

theorem strokeAfter_atOnce {q : Issued} {e : Effect} {ds : List RegName} (h : AtOnce q e ds) (hs : q.x.scribe = false) (a : Stroke) :
    (strokeAfter q e a).regs = a.regs.applyAll e.writes ∧ (strokeAfter q e a).inflight = counted q a ∧
      (strokeAfter q e a).busy = waiting q a := by
  have hr : (yielded q.s (scalarDests q.x) a).regs = a.regs := by unfold yielded; split <;> rfl
  unfold strokeAfter commitTo Stroke.modLanes counted waiting
  simp only [h.later, h.slow, h.own hs, hr, and_self]

theorem scribe_of_stroke {x : Env} {k : Nat} (h : x.agent = .stroke k) : x.scribe = false := by simp [Env.scribe, h]
theorem scribe_of_ctx {x : Env} {k : Nat} (h : x.agent = .ctx k) : x.scribe = true := by simp [Env.scribe, h]

theorem applyAll_kept {q : Issued} {ds : List RegName} (ws : List WriteBack) (a : Regs)
    (h : ∀ w ∈ ws, w.reg ∈ ds ∧ w.lane < 32 ∧ (q.on w.lane = true ∨ (∃ i, w.reg = .s i) ∨ ∃ i, w.reg = .k i)) :
    (∀ i, .s i ∉ ds → ∀ l, sameReg a (a.applyAll ws) l (.s i)) ∧ (∀ i, .f i ∉ ds → ∀ l, sameReg a (a.applyAll ws) l (.f i)) ∧
      ∀ r l, l < 32 → (r ∉ ds ∨ q.on l = false) → (∀ i, r ≠ .s i) → (∀ i, r ≠ .f i) → sameReg a (a.applyAll ws) l r := by
  refine ⟨?_, ?_, ?_⟩
  · intro i hi l
    exact Regs.applyAll_same ws a (.s i) 0 (by omega) (fun w hw => ⟨(h w hw).2.1, .inl fun hr => hi (hr ▸ (h w hw).1)⟩)
  · intro i hi l
    exact Regs.applyAll_same ws a (.f i) 0 (by omega) (fun w hw => ⟨(h w hw).2.1, .inl fun hr => hi (hr ▸ (h w hw).1)⟩)
  · intro r l hl hr hs hf
    by_cases hk : ∃ i, r = .k i
    · obtain ⟨i, rfl⟩ := hk; trivial
    refine Regs.applyAll_same ws a r l hl (fun w hw => ⟨(h w hw).2.1, ?_⟩)
    obtain ⟨d1, d2, d3⟩ := h w hw
    rcases hr with hr | hr
    · exact .inl fun e => hr (e ▸ d1)
    · by_cases e : r = w.reg
      · rcases d3 with d3 | ⟨i, d3⟩ | ⟨i, d3⟩
        · exact .inr ⟨fun e => (by rw [e, d3] at hr; cases hr), hs, hf⟩
        · exact absurd (e.trans d3) (hs i)
        · exact absurd ⟨i, e.trans d3⟩ hk
      · exact .inl e

theorem applyCtx_kept {ds : List RegName} (ws : List WriteBack) (c : ScribeCtx) (h : ∀ w ∈ ws, w.reg ∈ ds) :
    (∀ i, .k i ∉ ds → (ws.foldl ScribeCtx.apply c).kGet i = c.kGet i ∧
      mapGet (ws.foldl ScribeCtx.apply c).kpois i false = mapGet c.kpois i false) ∧
    ∀ i, .p i ∉ ds → mapGet (ws.foldl ScribeCtx.apply c).p i false = mapGet c.p i false := by
  induction ws generalizing c with
  | nil => exact ⟨fun _ _ => ⟨rfl, rfl⟩, fun _ _ => rfl⟩
  | cons w ws ih =>
    obtain ⟨i1, i2⟩ := ih (c.apply w) (fun v hv => h v (List.mem_cons_of_mem _ hv))
    have hd := h w (by simp)
    simp only [List.foldl_cons]
    refine ⟨fun i hi => ?_, fun i hi => ?_⟩
    · rw [(i1 i hi).1, (i1 i hi).2]
      unfold ScribeCtx.apply
      split
      · rename_i j hj
        have hne : j ≠ i := fun e => hi (by rw [← e, ← hj]; exact hd)
        exact ⟨(mapGet_set ..).trans (if_neg hne), (mapGet_set ..).trans (if_neg hne)⟩
      · exact ⟨rfl, rfl⟩
      · exact ⟨rfl, rfl⟩
    · rw [i2 i hi]
      unfold ScribeCtx.apply
      split
      · rfl
      · rename_i j hj
        have hne : j ≠ i := fun e => hi (by rw [← e, ← hj]; exact hd)
        exact (mapGet_set ..).trans (if_neg hne)
      · rfl

theorem commit_keeps {q : Issued} {e : Effect} {ds : List RegName} (h : AtOnce q e ds) : Keeps q e.st (landed q e) ds := by
  unfold Keeps
  split
  · rename_i k hag
    intro a b ha hb
    rw [landed_get hag ha] at hb
    cases hb
    obtain ⟨h1, h2, h3⟩ := strokeAfter_atOnce h (scribe_of_stroke hag) a
    rw [h1, h2, h3]
    exact ⟨Regs.applyAll_rows .., rfl, rfl, applyAll_kept e.writes a.regs h.dests⟩
  · rename_i g hag
    intro a b ha hb
    rw [landed_ctx hag ha] at hb
    cases hb
    exact applyCtx_kept e.writes a (fun w hw => (h.dests w hw).1)

/-! ## The destination after a commit -/

/-- Field D, where it is an operand, is a destination, and its registers are among those it names. -/
def destOk (sh : Shape) : Bool :=
  match sh.d with
  | .op u => (u.both || u.dst) && decide (u.regs ≤ u.span) && decide (1 ≤ u.kspan)
  | _ => true

theorem mem_upTo {a n i : Nat} : i ∈ upTo a n ↔ ∃ j, j < n ∧ i = a + j := by
  simp only [upTo, List.mem_map, List.mem_range]
  constructor
  · rintro ⟨j, h, rfl⟩; exact ⟨j, h, rfl⟩
  · rintro ⟨j, h, rfl⟩; exact ⟨j, h, rfl⟩

theorem mem_destsOf_d {sh : Shape} {f : Fields} {u : Use} {r : RegName} (hd : sh.d = .op u) (hu : (u.both || u.dst) = true)
    (hr : r ∈ regRun (Opnd.ofCode f.d) u.span u.span u.kspan) : r ∈ destsOf sh f := by
  simp only [destsOf, List.mem_filterMap]
  refine ⟨(r, true), ?_, by simp⟩
  simp only [usesOf, List.mem_append]
  refine .inl (.inl (.inl (.inl ?_)))
  simp only [usesOfRole, hd]
  split
  · simp [hr]
  · rename_i hb; simp only [hb, Bool.false_or] at hu; simp [hr, hu]

/-- Every write that puts values into D is one to a destination, in one of the lanes given or in no lane. -/
theorem putD_dests {x : Env} {vals : List (Nat × Nat)} (hok : destOk x.sh = true) {w : WriteBack} (hw : w ∈ putD x vals) :
    w.reg ∈ destsOf x.sh x.f ∧ ((∃ p ∈ vals, w.lane = p.1) ∨ (w.lane = 0 ∧ ((∃ i, w.reg = .s i) ∨ ∃ i, w.reg = .k i))) := by
  unfold putD at hw
  split at hw
  · rename_i u hu
    simp only [destOk, hu, Bool.and_eq_true, decide_eq_true_eq] at hok
    obtain ⟨⟨hd, hs⟩, hk⟩ := hok
    unfold putDest at hw
    split at hw
    · rename_i i ho
      simp only [List.mem_flatMap, mem_putV] at hw
      obtain ⟨p, hp, j, hj, rfl⟩ := hw
      refine ⟨mem_destsOf_d hu hd ?_, .inl ⟨p, hp, rfl⟩⟩
      simp only [regRun, ho, List.mem_map, mem_upTo]
      exact ⟨i + j, ⟨j, by omega, rfl⟩, rfl⟩
    · rename_i i ho
      simp only [List.mem_map] at hw
      obtain ⟨p, hp, rfl⟩ := hw
      exact ⟨mem_destsOf_d hu hd (by simp [regRun, ho]), .inl ⟨p, hp, rfl⟩⟩
    · rename_i i ho
      simp only [List.mem_map] at hw
      obtain ⟨p, hp, rfl⟩ := hw
      exact ⟨mem_destsOf_d hu hd (by simp [regRun, ho]), .inl ⟨p, hp, rfl⟩⟩
    · rename_i i ho
      split at hw
      · simp only [mem_putS] at hw
        obtain ⟨j, hj, rfl⟩ := hw
        refine ⟨mem_destsOf_d hu hd ?_, .inr ⟨rfl, .inl ⟨_, rfl⟩⟩⟩
        simp only [regRun, ho, List.mem_map, mem_upTo]
        exact ⟨i + j, ⟨j, by omega, rfl⟩, rfl⟩
      · cases hw
    · rename_i i ho
      split at hw
      · simp only [List.mem_singleton] at hw
        subst hw
        refine ⟨mem_destsOf_d hu hd ?_, .inr ⟨rfl, .inr ⟨_, rfl⟩⟩⟩
        simp only [regRun, ho, List.mem_map, mem_upTo]
        exact ⟨i, ⟨0, by omega, rfl⟩, rfl⟩
      · cases hw
    · cases hw
  · cases hw

theorem mem_lanes_iff {q : Issued} {l : Nat} : l ∈ q.x.lanes ↔ q.on l = true := by
  rw [Env.lanes, mem_lanesOf]
  refine ⟨And.right, fun hl => ⟨?_, hl⟩⟩
  by_contra hc
  rw [Issued.on, BitVec.getLsbD_of_ge _ _ (by omega)] at hl; cases hl

theorem on_lt {q : Issued} {l : Nat} (hl : q.on l = true) : l < 32 := (mem_lanesOf.1 (mem_lanes_iff.2 hl)).1

theorem writes_dests {q : Issued} {val : Nat → Nat} (hok : destOk q.x.sh = true) {w : WriteBack} (hw : w ∈ q.writes val) :
    w.reg ∈ destsOf q.x.sh q.x.f ∧ w.lane < 32 ∧ (q.on w.lane = true ∨ (∃ i, w.reg = .s i) ∨ ∃ i, w.reg = .k i) := by
  obtain ⟨h1, ⟨p, hp, h2⟩ | ⟨h2, h3⟩⟩ := putD_dests hok hw
  · simp only [List.mem_map] at hp
    obtain ⟨l, hl, rfl⟩ := hp
    have hon := mem_lanes_iff.1 hl
    exact ⟨h1, h2 ▸ on_lt hon, .inl (h2 ▸ hon)⟩
  · exact ⟨h1, by omega, .inr h3⟩

/-- The writes of D put each lane's value there, whatever the registers held. -/
theorem regsHold_writes {q : Issued} {val : Nat → Nat} (r : Regs) {l : Nat} (hok : destOk q.x.sh = true)
    (hwidth : q.width ≠ 0) (hl : q.on l = true) : RegsHold q.x (r.applyAll (q.writes val)) q.x.f.d q.width l (val l) := by
  have hin : (l, val l) ∈ q.x.lanes.map (fun l => (l, val l)) := List.mem_map.2 ⟨l, mem_lanes_iff.2 hl, rfl⟩
  have hmem : ∀ p ∈ q.x.lanes.map (fun l => (l, val l)), p.2 = val p.1 := by
    intro p hp
    obtain ⟨m, hm, rfl⟩ := List.mem_map.1 hp
    rfl
  have hlanes : ∀ w ∈ q.writes val, w.lane < 32 := fun w hw => (writes_dests hok hw).2.1
  cases hd : q.x.sh.d with
  | op u =>
    have hwr : q.writes val = putDest u q.x.f.d (q.x.lanes.map (fun l => (l, val l))) := by simp [Issued.writes, putD, hd]
    have hwd : q.width = u.regs := by simp [Issued.width, hd]
    unfold RegsHold
    split
    · rename_i i ho
      intro j hj
      simp only [putDest, ho] at hwr
      rw [hwr] at hlanes ⊢
      have hm := Regs.applyAll_v _ r
        { reg := .v (i + j), lane := l, val := BitVec.ofNat 64 (val l / 2 ^ (32 * j) % 2 ^ 32) } (i + j)
        (List.mem_flatMap.2 ⟨_, hin, mem_putV.2 ⟨j, by omega, rfl⟩⟩) rfl hlanes
        (fun v hv hr hlv => by
          obtain ⟨p, hp, hv⟩ := List.mem_flatMap.1 hv
          obtain ⟨j', hj', rfl⟩ := mem_putV.1 hv
          simp only [RegName.v.injEq] at hr
          dsimp only at hlv
          have e1 : j' = j := by omega
          rw [hmem p hp, hlv, e1])
      simpa only [truncate_word, wordAt] using hm
    · rename_i i ho
      intro hlow j hj
      have hhead : ∃ t, q.x.lanes.map (fun l => (l, val l)) = (l, val l) :: t := by
        simp only [lowest] at hlow
        unfold Env.lanes
        cases hls : lanesOf q.x.act with
        | nil => rw [hls] at hlow; cases hlow
        | cons m t => rw [hls] at hlow; cases hlow; exact ⟨_, rfl⟩
      obtain ⟨t, ht⟩ := hhead
      simp only [putDest, ho, ht] at hwr
      rw [hwr] at hlanes ⊢
      have hm := Regs.applyAll_s (putS i (val l) false u.regs) r
        { reg := .s (i + j), lane := 0, val := BitVec.ofNat 64 (val l / 2 ^ (32 * j) % 2 ^ 32) } (i + j)
        (mem_putS.2 ⟨j, by omega, rfl⟩) rfl hlanes
        (fun v hv hr => by
          obtain ⟨j', hj', rfl⟩ := mem_putS.1 hv
          simp only [RegName.s.injEq] at hr
          have e1 : j' = j := by omega
          rw [e1])
      simpa only [truncate_word, wordAt] using hm
    · rename_i i ho
      simp only [putDest, ho] at hwr
      rw [hwr] at hlanes ⊢
      have hm := Regs.applyAll_p _ r { reg := .p i, lane := l, val := BitVec.ofNat 64 (val l % 2) } i
        (List.mem_map.2 ⟨_, hin, rfl⟩) rfl hlanes
        (fun v hv hr hlv => by
          obtain ⟨p, hp, rfl⟩ := List.mem_map.1 hv
          dsimp only at hlv
          rw [hmem p hp, hlv])
      rw [hm]
      rcases Nat.mod_two_eq_zero_or_one (val l) with e1 | e1 <;> simp [e1]
    · rename_i i ho
      simp only [putDest, ho] at hwr
      rw [hwr] at hlanes ⊢
      have hm := Regs.applyAll_e _ r { reg := .e i, lane := l, val := BitVec.ofNat 64 (val l % 2 ^ 32) } i
        (List.mem_map.2 ⟨_, hin, rfl⟩) rfl hlanes
        (fun v hv hr hlv => by
          obtain ⟨p, hp, rfl⟩ := List.mem_map.1 hv
          dsimp only at hlv
          rw [hmem p hp, hlv])
      rw [hm, truncate_word]; simp [wordAt]
    · trivial
  | _ => exact absurd (by simp [Issued.width, hd]) hwidth

theorem lane_of_one {l : Nat} (h : ¬ l = 0) : (1 : Mask).getLsbD l = false := by
  show (1#32).getLsbD l = false
  rw [BitVec.getLsbD_one]; simp [h]

theorem ctxHolds_writes {q : Issued} {val : Nat → Nat} (c : ScribeCtx) {l : Nat} (hact : q.x.act = 1)
    (hwidth : q.width ≠ 0) (hl : q.on l = true) : CtxHolds ((q.writes val).foldl ScribeCtx.apply c) q.x.f.d q.width (val l) := by
  have hl0 : l = 0 := by
    rw [Issued.on, hact] at hl
    by_contra hc
    rw [lane_of_one hc] at hl; cases hl
  have hv1 : q.x.lanes.map (fun l => (l, val l)) = [(0, val 0)] := by simp only [Env.lanes, hact]; rfl
  cases hd : q.x.sh.d with
  | op u =>
    have hwr : q.writes val = putDest u q.x.f.d [(0, val 0)] := by simp [Issued.writes, putD, hd, hv1]
    have hwd : q.width = u.regs := by simp [Issued.width, hd]
    unfold CtxHolds
    split
    · rename_i i ho
      simp only [putDest, ho] at hwr
      simp only [hwr, List.foldl_cons, List.foldl_nil, ScribeCtx.apply, hwd, hl0]
      refine ⟨(mapGet_set ..).trans (if_pos rfl), ?_⟩
      exact (mapGet_set c.kpois i i false false).trans (if_pos rfl)
    · rename_i i ho
      simp only [putDest, ho, List.map_cons, List.map_nil] at hwr
      simp only [hwr, List.foldl_cons, List.foldl_nil, ScribeCtx.apply, hl0]
      refine (mapGet_set ..).trans ((if_pos rfl).trans ?_)
      rcases Nat.mod_two_eq_zero_or_one (val 0) with e1 | e1 <;> simp [e1]
    · trivial
  | _ => exact absurd (by simp [Issued.width, hd]) hwidth

/-- After writes of D alone, D holds each lane's value. -/
theorem holds_writes {q : Issued} {e : Effect} {ds : List RegName} {val : Nat → Nat} (h : AtOnce q e ds)
    (hok : destOk q.x.sh = true) (hw : e.writes = q.writes val) (hlive : Lives q e.st)
    (hact : q.x.scribe = true → q.x.act = 1) (hwidth : q.width ≠ 0) (l : Nat) (hl : q.on l = true) :
    Holds q (landed q e) q.x.f.d q.width l (val l) := by
  unfold Holds
  cases hag : q.x.agent with
  | stroke k =>
    simp only [Lives, hag] at hlive
    obtain ⟨a, ha⟩ := hlive
    refine ⟨_, landed_get hag ha, ?_⟩
    rw [(strokeAfter_atOnce h (scribe_of_stroke hag) a).1, hw]
    exact regsHold_writes _ hok hwidth hl
  | ctx g =>
    simp only [Lives, hag] at hlive
    obtain ⟨c, hc⟩ := hlive
    refine ⟨_, landed_ctx hag hc, ?_⟩
    have := ctxHolds_writes (val := val) c (hact (scribe_of_ctx hag)) hwidth hl
    rw [← hw] at this
    exact this

/-! ## Output ports -/

/-- A field that writes nothing. -/
def readsOnly : Role → Bool
  | .op u => !u.both && !u.dst
  | _ => true

/-- Field D is the one destination of a shape. -/
def onlyD (sh : Shape) : Bool :=
  readsOnly sh.a && readsOnly sh.b && readsOnly sh.c && sh.extra.all (fun u => !u.2)

theorem usesOfRole_readsOnly {r : Role} {c : Code} {n : RegName} (h : readsOnly r = true) : (n, true) ∉ usesOfRole r c := by
  unfold usesOfRole
  split
  · rename_i u
    simp only [readsOnly, Bool.and_eq_true, Bool.not_eq_true'] at h
    simp only [h.1, h.2, Bool.false_eq_true, if_false, List.mem_map, Prod.mk.injEq, and_false, exists_false, not_false_eq_true]
  · simp

theorem mem_usesOf_onlyD {sh : Shape} {f : Fields} {n : RegName} (h : onlyD sh = true) (hm : (n, true) ∈ usesOf sh f) :
    (n, true) ∈ usesOfRole sh.d f.d := by
  simp only [onlyD, Bool.and_eq_true, List.all_eq_true] at h
  obtain ⟨⟨⟨ha, hb⟩, hc⟩, he⟩ := h
  simp only [usesOf, List.mem_append] at hm
  rcases hm with (((hm | hm) | hm) | hm) | hm
  · exact hm
  · exact absurd hm (usesOfRole_readsOnly ha)
  · exact absurd hm (usesOfRole_readsOnly hb)
  · exact absurd hm (usesOfRole_readsOnly hc)
  · have := he _ hm; simp at this

/-- All the checks of R88 that an instruction passes. -/
theorem checkFields_cases {x : Ctx} {opc : Nat} {f : Fields} (h : checkFields x opc f = none) :
    ∃ sh, shape opc f = some sh ∧ checkExt sh f = none ∧
      checkGuard { x with scribe := x.scribe || scribeOnly opc } opc f.g f.n f.pred = none ∧
      checkType { x with scribe := x.scribe || scribeOnly opc } opc sh f.t = none ∧ sh.mOk = true ∧ sh.xOk = true ∧
      checkRole { x with scribe := x.scribe || scribeOnly opc } opc sh.d false f.d = none ∧
      checkRole { x with scribe := x.scribe || scribeOnly opc } opc sh.a false f.a = none ∧
      checkRole { x with scribe := x.scribe || scribeOnly opc } opc sh.b (match f.ext with
        | .lit _ => true
        | _ => false) f.b = none ∧
      checkRole { x with scribe := x.scribe || scribeOnly opc } opc sh.c (match f.ext with
        | .lit _ => true
        | _ => false) f.c = none := by
  unfold checkFields at h
  split at h
  · cases h
  · rename_i sh hs
    simp only [firstReject, List.findSome?_eq_none_iff, id_eq, List.mem_cons, List.not_mem_nil, or_false, forall_eq_or_imp,
      forall_eq] at h
    obtain ⟨h1, h2, h3, h4, h5, h6, h7, h8, h9, h10, h11, h12⟩ := h
    refine ⟨sh, hs, h1, h3, h5, ?_, ?_, h8, h9, h10, h11⟩
    · by_contra hc; simp [hc] at h6
    · by_contra hc; simp [hc] at h7

theorem role_port {x : Ctx} {opc i : Nat} {u : Use} {c : Code} {lit : Bool} (h : checkRole x opc (.op u) lit c = none)
    (ho : Opnd.ofCode c = .v i) : portOk x u i = true := by
  simp only [checkRole, checkUse, ho] at h
  repeat' split at h
  all_goals first
    | assumption
    | cases h

/-- A legal instruction whose one destination is D, and which names a bound output port, writes that port alone. -/
theorem port_writes {q : Issued} {opc p : Nat} (hl : checkFields q.ctx opc q.x.f = none) (hsh : shape opc q.x.f = some q.x.sh)
    (honly : onlyD q.x.sh = true) (hp : p ∈ outputPorts q.s q.x) (val : Nat → Nat) :
    ∀ w ∈ q.writes val, toPort (q.x.group q.s) w = true := by
  obtain ⟨sh, hs, -, -, -, -, -, hd, -⟩ := checkFields_cases hl
  rw [hsh] at hs; cases hs
  obtain ⟨hm, hf⟩ := List.mem_filter.1 hp
  simp only [Bool.and_eq_true, List.contains_iff_mem] at hf
  obtain ⟨hb, hu⟩ := hf
  have hu' := mem_usesOf_onlyD honly hu
  unfold usesOfRole at hu'
  split at hu'
  · rename_i u hrole
    have hrun : RegName.v p ∈ regRun (Opnd.ofCode q.x.f.d) u.span u.span u.kspan := by
      split at hu' <;> simp only [List.mem_append, List.mem_map, Prod.mk.injEq, Bool.false_eq_true, and_false,
        exists_false, false_or, exists_eq_right, and_true] at hu'
      · exact hu'
      · obtain ⟨_, h1, rfl, -⟩ := hu'; exact h1
    cases ho : Opnd.ofCode q.x.f.d with
    | v i =>
      rw [hrole] at hd
      have hpo := role_port hd ho
      simp only [regRun, ho, List.mem_map, mem_upTo, RegName.v.injEq] at hrun
      obtain ⟨_, ⟨j, hj, rfl⟩, hij⟩ := hrun
      have hport : Ctx.port { q.ctx with scribe := q.ctx.scribe || scribeOnly opc } p = true := by
        simp only [Ctx.port, Bool.and_eq_true, decide_eq_true_eq]
        refine ⟨?_, hb⟩
        simp only [List.mem_cons, List.not_mem_nil, or_false] at hm
        omega
      have hany : (upTo i u.span).any (Ctx.port { q.ctx with scribe := q.ctx.scribe || scribeOnly opc }) = true := by
        rw [List.any_eq_true]
        exact ⟨p, mem_upTo.2 ⟨j, hj, hij.symm⟩, hport⟩
      simp only [portOk, hany, if_true, Bool.and_eq_true, beq_iff_eq] at hpo
      obtain ⟨⟨⟨⟨-, h1⟩, h2⟩, -⟩, -⟩ := hpo
      have hip : i = p := by omega
      intro w hw
      simp only [Issued.writes, putD, hrole, putDest, ho, List.mem_flatMap, mem_putV] at hw
      obtain ⟨_, _, j', hj', rfl⟩ := hw
      have : j' = 0 := by omega
      subst this
      simp only [toPort, Nat.add_zero, hip, Bool.and_eq_true]
      refine ⟨?_, hb⟩
      simp only [List.mem_cons, List.not_mem_nil, or_false] at hm
      simpa [isOutput] using hm
    | _ => simp_all [regRun]
  · cases hu'

end Sys2Proof.Machine
end

