-- ==== Sys2Proof/Laws/Results.lean ====
section
/-!
SUPPORT. The two shapes of most instructions: one result for each active lane, at once or when an operation in flight completes. A
meaning of either shape gives what `Gives` and `GivesLater` say.
-/
namespace Sys2Proof.Machine

theorem flagsOf_map (ls : List Nat) (g : Nat → Flags) (l : Nat) (hn : ls.Nodup) :
    flagsOf (ls.map (fun l => (l, g l))) l = if l ∈ ls then g l else 0 := by
  have key : ∀ (ls : List Nat) (z : Flags), ls.Nodup →
      (ls.map (fun l => (l, g l))).foldl (fun a f => if f.1 = l then a ||| f.2 else a) z =
        if l ∈ ls then z ||| g l else z := by
    intro ls
    induction ls with
    | nil => intro z _; simp
    | cons m ls ih =>
      intro z hn
      obtain ⟨h1, h2⟩ := List.nodup_cons.1 hn
      simp only [List.map_cons, List.foldl_cons, ih _ h2, List.mem_cons]
      by_cases e : m = l
      · subst e; simp [h1]
      · simp [e, Ne.symm e]
  rw [flagsOf, key ls 0 hn]
  split
  · exact BitVec.zero_or
  · rfl

theorem flagsOf_lanes (q : Issued) (g : Nat → Flags) :
    flagsOf (q.x.lanes.map (fun l => (l, g l))) = fun l => if q.on l then g l else 0 := by
  funext l
  rw [flagsOf_map q.x.lanes g l (lanesOf_nodup _)]
  simp only [mem_lanes_iff]

theorem nextPc_of_nil (q : Issued) (e : Effect) (h : e.jumps = []) : nextPc q e = q.next := by
  funext l; simp [nextPc, h]

/-- What an instruction's form must be for the laws of results: its bits are those of an opcode, whose one destination is D. -/
structure Form (i : Instr) (opc : Nat) (f : Fields) (len : Nat) : Prop where
  issued : ∀ s, issued s i = issuedAs s opc f len
  legal  : ∀ x, checkInstr x i = none → checkFields x opc f = none
  load   : loadCodes.contains opc = false
  dest   : ∀ sh, shape opc f = some sh → destOk sh = true ∧ onlyD sh = true ∧ ∃ u, sh.d = .op u ∧ u.regs ≠ 0

/-- What the form gives of an issue. -/
theorem Form.facts {i : Instr} {opc len : Nat} {f : Fields} (hf : Form i opc f len) {s : State} {q : Issued}
    (hq : issuedAs s opc f len = some q) (hl : checkInstr q.ctx i = none) :
    shape opc f = some q.x.sh ∧ q.x.f = f ∧ q.x.opc = opc ∧ destOk q.x.sh = true ∧ onlyD q.x.sh = true ∧ q.width ≠ 0 ∧
      checkFields q.ctx opc f = none := by
  obtain ⟨h1, h2, h3, h4, h5, h6⟩ := issuedAs_agent hq
  have hc := hf.legal _ hl
  obtain ⟨sh, hs, -⟩ := checkFields_cases hc
  have hsh : q.x.sh = sh := by rw [h4, hs]; rfl
  obtain ⟨d1, d2, u, d3, d4⟩ := hf.dest sh hs
  exact ⟨by rw [hsh]; exact hs, h2, h1, by rw [hsh]; exact d1, by rw [hsh]; exact d2, by simp [Issued.width, hsh, d3, d4], hc⟩

theorem issuedAs_act {s : State} {opc len : Nat} {f : Fields} {q : Issued} (hq : issuedAs s opc f len = some q) :
    q.x.scribe = true → q.x.act = 1 := by
  have h := (issuedAs_agent hq).2.2.2.2.2
  intro hs
  revert h
  cases hag : q.x.agent with
  | stroke k => rw [scribe_of_stroke hag] at hs; cases hs
  | ctx c => exact fun h => h.2.2

/-- A commit at once whose writes are those of D. -/
theorem gives_core {i : Instr} {opc len : Nat} {f : Fields} (hf : Form i opc f len) {s : State} {q : Issued} {e : Effect} {u : State}
    {val : Nat → Nat} {fl : Nat → Flags}
    (hq : issuedAs s opc f len = some q) (hl : checkInstr q.ctx i = none) (hst : e.st = u) (hlive : Lives q u) (hj : e.jumps = [])
    (h1 : e.later = none) (h2 : e.slow = none) (hw : e.writes = q.writes val) (hfl : flagsOf e.flags = fl) :
    conclude q.s q.x (.commit e) = pushed q (landed q e) (q.writes val) none ∧ Past q u (landed q e) fl q.next ∧
      if q.ports = [] then
        Keeps q u (landed q e) (destsOf q.x.sh q.x.f) ∧
          ∀ l, q.on l = true → Holds q (landed q e) q.x.f.d q.width l (val l)
      else Keeps q u (landed q e) [] := by
  subst hst
  obtain ⟨f1, f2, f3, f4, f5, f6, f7⟩ := hf.facts hq hl
  refine ⟨by rw [conclude_commit, hw, h1], ?_, ?_⟩
  · exact landed_past (e := e) hlive (f3 ▸ hf.load) fl q.next hfl.symm (nextPc_of_nil q e hj).symm (by simp [hj])
  · split
    · rename_i hp
      have hat : AtOnce q e (destsOf q.x.sh q.x.f) := by
        refine ⟨h1, h2, fun hs => ?_, fun w hw' => writes_dests f4 (hw ▸ hw')⟩
        have hport : outputPorts q.s q.x = [] := by simpa [Issued.ports, hs] using hp
        rw [List.filter_eq_self]
        intro w hw'
        simp [toPort_false hport (writes_dests f4 (hw ▸ hw')).1]
      exact ⟨commit_keeps hat, fun l hl => holds_writes hat f4 hw hlive (issuedAs_act hq) f6 l hl⟩
    · rename_i hp
      unfold Keeps
      cases hag : q.x.agent with
      | stroke k =>
        dsimp only
        intro a b ha hb
        have hs := scribe_of_stroke hag
        obtain ⟨p, hport⟩ : ∃ p, p ∈ outputPorts q.s q.x := by
          simp only [Issued.ports, hs, Bool.false_eq_true, if_false] at hp
          exact List.exists_mem_of_ne_nil _ hp
        rw [landed_get hag ha] at hb
        cases hb
        have hall := port_writes (f2 ▸ f7) (f2 ▸ f1) f5 hport val
        have hnil : e.writes.filter (fun w => !toPort (q.x.group q.s) w) = [] := by
          rw [List.filter_eq_nil_iff]
          intro w hw'
          simp [hall w (hw ▸ hw')]
        have hr : (strokeAfter q e a).regs = a.regs ∧ (strokeAfter q e a).inflight = counted q a ∧
            (strokeAfter q e a).busy = waiting q a := by
          have hy : (yielded q.s (scalarDests q.x) a).regs = a.regs := by unfold yielded; split <;> rfl
          unfold strokeAfter commitTo Stroke.modLanes counted waiting
          simp only [h1, h2, hnil, hy, and_self, Regs.applyAll, List.foldl_nil]
        rw [hr.1, hr.2.1, hr.2.2]
        exact ⟨rfl, rfl, rfl, fun _ _ _ => sameReg_refl .., fun _ _ _ => sameReg_refl .., fun _ _ _ _ _ _ => sameReg_refl ..⟩
      | ctx c =>
        have hs := scribe_of_ctx hag
        simp [Issued.ports, hs] at hp

/-- An instruction that commits at once with the writes of D gives the value. -/
theorem gives_of_commit {i : Instr} {opc len : Nat} {f : Fields} {body : Env → State → Verdict} {ok : State → Env → Prop}
    {st : State → Env → State} {val : State → Env → Nat → Nat} {fl : State → Env → Nat → Flags}
    (hf : Form i opc f len) (hexec : ∀ s, exec i s = issue opc f len body s)
    (hbody : ∀ s q, issuedAs s opc f len = some q → checkInstr q.ctx i = none → ok q.t q.y → Lives q (st q.t q.y) ∧
      ∃ e : Effect, body q.y q.t = .commit e ∧ e.st = st q.t q.y ∧ e.jumps = [] ∧ e.later = none ∧ e.slow = none ∧
        e.writes = q.writes (val q.t q.y) ∧ flagsOf e.flags = fun l => if q.on l then fl q.t q.y l else 0) :
    GivesIf i ok st val fl := by
  intro s q hq hl ho
  rw [hf.issued] at hq
  obtain ⟨hlive, e, he, hst, hj, h1, h2, hw, hfl⟩ := hbody s q hq hl ho
  obtain ⟨c1, c2, c3⟩ := gives_core hf hq hl hst hlive hj h1 h2 hw hfl
  exact ⟨landed q e, by rw [hexec, issue_eq_conclude body hq, he, Verdict.unpop_commit, c1], c2, c3⟩

theorem env_lanes {q : Issued} (h : q.y = { q.x with pops := q.y.pops }) : q.y.lanes = q.x.lanes := by rw [h]; rfl

theorem env_putD {q : Issued} (h : q.y = { q.x with pops := q.y.pops }) (vals : List (Nat × Nat)) : putD q.y vals = putD q.x vals := by
  rw [h]; rfl

theorem env_scribe {q : Issued} (h : q.y = { q.x with pops := q.y.pops }) : q.y.scribe = q.x.scribe := by rw [h]; rfl

/-- An instruction whose meaning is one result for each active lane gives that result. -/
theorem gives_of_results {i : Instr} {opc len : Nat} {f : Fields} {body : Env → State → Verdict} {ok : State → Env → Prop}
    {g : State → Env → Nat → Nat × Flags}
    (hf : Form i opc f len) (hexec : ∀ s, exec i s = issue opc f len body s)
    (hbody : ∀ s q, issuedAs s opc f len = some q → checkInstr q.ctx i = none → ok q.t q.y →
      body q.y q.t = results q.y q.t (g q.t q.y)) :
    GivesIf i ok nothing (fun s x l => (g s x l).1) (fun s x l => (g s x l).2) := by
  refine gives_of_commit hf hexec fun s q hq hl ho => ⟨issuedAs_lives hq, ?_⟩
  have h5 := (issuedAs_agent hq).2.2.2.2.1
  refine ⟨_, hbody s q hq hl ho, rfl, rfl, rfl, rfl, ?_, ?_⟩
  · simp [Issued.writes, env_lanes h5, env_putD h5, List.map_map, Function.comp_def]
  · rw [← flagsOf_lanes q fun l => (g q.t q.y l).2]
    simp [env_lanes h5, List.map_map, Function.comp_def]

/-- A form that writes no v register, so that it pushes to no port. -/
structure Quiet (i : Instr) (opc : Nat) (f : Fields) (len : Nat) : Prop where
  issued : ∀ s, issued s i = issuedAs s opc f len
  load   : loadCodes.contains opc = false
  dest   : ∀ x, checkInstr x i = none → ∀ sh, shape opc f = some sh → ∀ n, (RegName.v n, true) ∉ usesOf sh f
  legal  : ∀ x, checkInstr x i = none → (shape opc f).isSome

theorem Quiet.ports {i : Instr} {opc len : Nat} {f : Fields} (hf : Quiet i opc f len) {s : State} {q : Issued}
    (hq : issuedAs s opc f len = some q) (hl : checkInstr q.ctx i = none) : q.ports = [] := by
  obtain ⟨h1, h2, h3, h4, h5, h6⟩ := issuedAs_agent hq
  obtain ⟨sh, hs⟩ := Option.isSome_iff_exists.1 (hf.legal _ hl)
  have hsh : q.x.sh = sh := by rw [h4, hs]; rfl
  have hp : outputPorts q.s q.x = [] := by
    unfold outputPorts
    rw [List.filter_eq_nil_iff]
    intro p _
    simp only [Bool.and_eq_true, not_and, List.contains_iff_mem]
    intro _
    rw [hsh, h2]
    exact hf.dest _ hl sh hs p
  unfold Issued.ports; split <;> simp [hp]

/-- An instruction that commits at once without writes, flags or a port. -/
theorem does_of_commit {i : Instr} {opc len : Nat} {f : Fields} {body : Env → State → Verdict} {ok : State → Env → Prop}
    {st : State → Env → State} {pc : State → Env → Nat → Dword}
    (hf : Quiet i opc f len) (hexec : ∀ s, exec i s = issue opc f len body s)
    (hbody : ∀ s q, issuedAs s opc f len = some q → checkInstr q.ctx i = none → ok q.t q.y → Lives q (st q.t q.y) ∧
      ∃ e : Effect, body q.y q.t = .commit e ∧ e.st = st q.t q.y ∧ e.writes = [] ∧ e.flags = [] ∧ e.later = none ∧ e.slow = none ∧
        nextPc q e = pc q.t q.y ∧ ((e.jumps.head?).map (·.2)).getD (q.next 0) = pc q.t q.y 0) :
    Does i ok st pc := by
  intro s q hq hl ho
  rw [hf.issued] at hq
  obtain ⟨hlive, e, he, hst, hw, hfl, h1, h2, hpc, hpc0⟩ := hbody s q hq hl ho
  rw [← hst] at hlive ⊢
  have hport := hf.ports hq hl
  have h3 := (issuedAs_agent hq).1
  refine ⟨landed q e, ?_, ?_, ?_⟩
  · rw [hexec, issue_eq_conclude body hq, he, Verdict.unpop_commit, conclude_commit]
    simp [pushed, hport, pushAll]
  · refine landed_past hlive (h3 ▸ hf.load) _ _ ?_ hpc.symm hpc0.symm
    funext l; simp [flagsOf, hfl]
  · exact commit_keeps ⟨h1, h2, fun _ => by rw [hw]; rfl, fun w hw' => by rw [hw] at hw'; cases hw'⟩

/-- A commit at once with any writes. -/
theorem writes_of_commit {i : Instr} {opc len : Nat} {f : Fields} {body : Env → State → Verdict} {ok : State → Env → Prop}
    {st : State → Env → State} {ws : State → Env → List WriteBack} {fl : State → Env → Nat → Flags}
    (hissued : ∀ s, issued s i = issuedAs s opc f len) (hload : loadCodes.contains opc = false) (hexec : ∀ s, exec i s = issue opc f len body s)
    (hbody : ∀ s q, issuedAs s opc f len = some q → checkInstr q.ctx i = none → ok q.t q.y → Lives q (st q.t q.y) ∧
      ∃ e : Effect, body q.y q.t = .commit e ∧ e.st = st q.t q.y ∧ e.jumps = [] ∧ e.later = none ∧ e.slow = none ∧
        e.writes = ws q.t q.y ∧ flagsOf e.flags = fl q.t q.y) :
    Writes i ok st ws fl := by
  intro s q hq hl ho
  rw [hissued] at hq
  obtain ⟨hlive, e, he, hst, hj, h1, h2, hw, hfl⟩ := hbody s q hq hl ho
  have h3 := (issuedAs_agent hq).1
  rw [← hst] at hlive ⊢
  refine ⟨landed q e, by rw [hexec, issue_eq_conclude body hq, he, Verdict.unpop_commit, conclude_commit, hw, h1],
    landed_past hlive (h3 ▸ hload) _ _ hfl.symm (nextPc_of_nil q e hj).symm (by simp [hj]), ?_⟩
  cases hag : q.x.agent with
  | stroke k =>
    simp only [Lives, hag] at hlive
    obtain ⟨a, ha⟩ := hlive
    have hy : (yielded q.s (scalarDests q.x) a).regs = a.regs := by unfold yielded; split <;> rfl
    refine ⟨a, strokeAfter q e a, ha, landed_get hag ha, ?_, ?_, ?_⟩ <;>
    · unfold strokeAfter commitTo Stroke.modLanes; simp only [h1, h2, hw, hy, counted, waiting]
  | ctx c =>
    simp only [Lives, hag] at hlive
    obtain ⟨a, ha⟩ := hlive
    refine ⟨a, ha, ?_⟩
    simp only [landed, hag, commit_ctx hag]
    refine ((mapGet?_mod_self e.st.ctxs c (ctxAfter q e)).trans (congrArg (Option.map _) ha)).trans ?_
    simp [ctxAfter, hw, hj]

/-- A commit whose writes an operation in flight will make. -/
theorem flies_of_commit {i : Instr} {opc len : Nat} {f : Fields} {body : Env → State → Verdict} {ok : State → Env → Prop}
    {st : State → Env → State} {ws : State → Env → List WriteBack} {waits : State → Env → Nat} {fl : State → Env → Nat → Flags}
    (hissued : ∀ s, issued s i = issuedAs s opc f len) (hload : loadCodes.contains opc = false) (hexec : ∀ s, exec i s = issue opc f len body s)
    (hbody : ∀ s q, issuedAs s opc f len = some q → checkInstr q.ctx i = none → ok q.t q.y → Lives q (st q.t q.y) ∧
      ∃ e : Effect, body q.y q.t = .commit e ∧ e.jumps = [] ∧ e.writes = ws q.t q.y ∧
        (q.x.scribe = true → e.st = st q.t q.y ∧ q.ports = []) ∧
        (q.x.scribe = false → e.st = { st q.t q.y with nextId := (st q.t q.y).nextId + 1 } ∧ e.later = some (st q.t q.y).nextId ∧
          e.held = [] ∧ e.waitFor = waits q.t q.y ∧ flagsOf e.flags = fun l => if q.on l then fl q.t q.y l else 0)) :
    Flies i ok st ws waits fl := by
  intro s q hq hl ho
  rw [hissued] at hq
  obtain ⟨hlive, e, he, hj, hw, hscr, hstr⟩ := hbody s q hq hl ho
  have h3 := (issuedAs_agent hq).1
  dsimp only
  have hexe : exec i s = .next (pushed q (landed q e) (ws q.t q.y) e.later) := by
    rw [hexec, issue_eq_conclude body hq, he, Verdict.unpop_commit, conclude_commit, hw]
  cases hag : q.x.agent with
  | stroke k =>
    obtain ⟨hst, h1, hh, hwf, hfl⟩ := hstr (scribe_of_stroke hag)
    simp only [Lives, hag] at hlive
    obtain ⟨a, ha⟩ := hlive
    have hst' : e.st.stroke? k = some a := by rw [hst]; exact ha
    have hlive' : Lives q e.st := by simp only [Lives, hag]; exact ⟨a, hst'⟩
    refine ⟨landed q e, by rw [hexe, h1], ?_, a, strokeAfter q e a, flightOf q.s q.x e (st q.t q.y).nextId, ha, landed_get hag hst', ?_, ?_, ?_⟩
    · rw [← hst]
      exact landed_past hlive' (h3 ▸ hload) _ _ hfl.symm (nextPc_of_nil q e hj).symm (by simp [hj])
    · have hy : (yielded q.s (scalarDests q.x) a).regs = a.regs := by unfold yielded; split <;> rfl
      unfold strokeAfter commitTo Stroke.modLanes; simp only [h1, hy]
    · unfold strokeAfter commitTo Stroke.modLanes waiting; simp only [h1]
    · refine ⟨?_, ⟨rfl, rfl, rfl, rfl, ?_⟩, hw, hwf⟩
      · unfold strokeAfter commitTo Stroke.modLanes counted; simp only [h1]
      · simp [flightOf, hh]
  | ctx c =>
    obtain ⟨hst, hport⟩ := hscr (scribe_of_ctx hag)
    have hlive' := hlive
    simp only [Lives, hag] at hlive
    obtain ⟨a, ha⟩ := hlive
    have hst' : e.st.ctx? c = some a := by rw [hst]; exact ha
    refine ⟨landed q e, a, by rw [hexe]; simp [pushed, hport, pushAll], ?_, ha, ?_⟩
    · have := commit_past_ctx (e := e) hag hst' (fun _ => 0) q.next (by simp [hj])
      rw [hst] at this
      simpa only [landed, hag] using this
    · simp only [landed, hag, commit_ctx hag]
      have := mapGet?_mod_self e.st.ctxs c (ctxAfter q e)
      refine (this.trans (congrArg (Option.map _) hst')).trans ?_
      simp [ctxAfter, hw, hj]

/-- A long-latency instruction whose meaning is one result for each active lane gives that result. -/
theorem gives_later_of_results {i : Instr} {opc len : Nat} {f : Fields} {body : Env → State → Verdict}
    {g : State → Env → Nat → Nat × Flags} (hf : Form i opc f len) (hexec : ∀ s, exec i s = issue opc f len body s)
    (hbody : ∀ s q, issuedAs s opc f len = some q → checkInstr q.ctx i = none →
      body q.y q.t = resultsLater q.y q.t (g q.t q.y)) :
    GivesLater i (fun s x l => (g s x l).1) (fun s x l => (g s x l).2) := by
  constructor
  · refine flies_of_commit hf.issued hf.load hexec fun s q hq hl _ => ⟨issuedAs_lives hq, ?_⟩
    have h5 := (issuedAs_agent hq).2.2.2.2.1
    rw [hbody s q hq hl]
    unfold resultsLater
    by_cases hs : q.x.scribe = true
    · simp only [env_scribe h5, hs, if_true]
      refine ⟨_, rfl, rfl, ?_, fun _ => ⟨rfl, by simp [Issued.ports, hs]⟩, fun h => absurd h (by simp)⟩
      simp [List.map_map, Function.comp_def]
    · simp only [Bool.not_eq_true] at hs
      simp only [env_scribe h5, hs, Bool.false_eq_true, if_false]
      refine ⟨_, rfl, rfl, ?_, fun h => absurd h (by simp), fun _ => ⟨rfl, rfl, rfl, rfl, ?_⟩⟩
      · simp [List.map_map, Function.comp_def]
      · rw [← flagsOf_lanes q fun l => (g q.t q.y l).2]
        simp [env_lanes h5, List.map_map, Function.comp_def]
  · intro s q hq hl r l hon _
    rw [hf.issued] at hq
    obtain ⟨-, -, -, f4, -, f6, -⟩ := hf.facts hq hl
    exact regsHold_writes r f4 f6 hon

end Sys2Proof.Machine
end

