-- ==== Sys2Proof/Laws/Forms.lean ====
section
/-!
SUPPORT. The forms of instructions: what the laws of results need to know of an opcode's bits.
-/
namespace Sys2Proof.Machine

theorem len_ne_four (f : Fields) : fieldsLen f ≠ 4 := by unfold fieldsLen; split <;> decide

/-- An instruction of the longer formats is judged by the checks of its fields. -/
theorem legal_of_code {i : Instr} {opc : Nat} {f : Fields} (hc : codeOf i = some (opc, f, fieldsLen f))
    (hi : ∀ x, checkInstr x i = match codeOf i with
      | some (o, g, n) => if n = 4 then checkCompact x o g [] false else checkFields x o g
      | none => none) (x : Ctx) (h : checkInstr x i = none) : checkFields x opc f = none := by
  rw [hi, hc] at h
  simpa [len_ne_four f] using h

theorem legal_of_compact {x : Ctx} {opc : Nat} {g : Fields} {unused : List Byte} {ok : Bool}
    (h : checkCompact x opc g unused ok = none) : checkFields x opc g = none := by
  unfold checkCompact at h
  repeat' split at h
  all_goals first | exact h | cases h

theorem regs_pos (t : Ty) : t.regs ≠ 0 := by cases t <;> decide

/-- D is a destination of n registers, and no other field is one. -/
def oneResult (sh : Shape) : Prop := destOk sh = true ∧ onlyD sh = true ∧ ∃ u, sh.d = .op u ∧ u.regs ≠ 0

theorem readsOnly_immOr (f : Fields) (u : Role) (t : Ty) (h : readsOnly u = true) : readsOnly (immOr f u t) = true := by
  unfold immOr; split
  · rfl
  · exact h

theorem oneResult_binary (f : Fields) (types : List Ty) (sat rnd long : Bool) : oneResult (binary f types sat rnd long) := by
  refine ⟨by simp [destOk, binary, dst], ?_, _, rfl, regs_pos _⟩
  simp only [onlyD, binary, Bool.and_eq_true]
  exact ⟨⟨⟨rfl, rfl⟩, readsOnly_immOr _ _ _ rfl⟩, rfl⟩

theorem oneResult_unary (f : Fields) (types : List Ty) (sat : Bool) (dw : Option Nat) (ks more : List Kind) (long : Bool)
    (hw : dw.getD (tyOf f.t).regs ≠ 0) : oneResult (unary f types sat dw ks more long) := by
  refine ⟨by simp [destOk, unary], ?_, _, rfl, hw⟩
  simp only [onlyD, unary, Bool.and_eq_true]
  exact ⟨⟨⟨rfl, rfl⟩, readsOnly_immOr _ _ _ rfl⟩, rfl⟩

theorem oneResult_ternary (f : Fields) (types : List Ty) (wd wa wb wc : Nat) (tc : Ty) (mOk : Bool) (hw : wd ≠ 0) :
    oneResult (ternary f types wd wa wb wc tc mOk) :=
  ⟨by simp [destOk, ternary, dst], rfl, _, rfl, hw⟩

theorem oneResult_compare (f : Fields) (types : List Ty) (mOk : Bool) : oneResult (compare f types mOk) := by
  refine ⟨rfl, ?_, _, rfl, by decide⟩
  simp only [onlyD, compare, binary, Bool.and_eq_true]
  exact ⟨⟨⟨rfl, rfl⟩, readsOnly_immOr _ _ _ rfl⟩, rfl⟩

/-- The form of an opcode whose shape is known. -/
theorem form_of {i : Instr} {opc len : Nat} {f : Fields} {sh : Shape} (h1 : ∀ s, issued s i = issuedAs s opc f len)
    (h2 : ∀ x, checkInstr x i = none → checkFields x opc f = none) (h3 : loadCodes.contains opc = false) (h4 : shape opc f = some sh)
    (h5 : oneResult sh) : Form i opc f len :=
  ⟨h1, h2, h3, fun sh' hs => by rw [h4] at hs; cases hs; exact h5⟩

/-- The form of an opcode that writes no v register. -/
theorem quiet_of {i : Instr} {opc len : Nat} {f : Fields} {sh : Shape} (h1 : ∀ s, issued s i = issuedAs s opc f len)
    (h3 : loadCodes.contains opc = false) (h4 : shape opc f = some sh) (h5 : ∀ n, (RegName.v n, true) ∉ usesOf sh f) : Quiet i opc f len :=
  ⟨h1, h3, fun _ _ sh' hs => by rw [h4] at hs; cases hs; exact h5, fun _ _ => by rw [h4]; rfl⟩

/-- A shape without any destination writes nothing. -/
theorem no_dest {sh : Shape} {f : Fields} (hd : readsOnly sh.d = true) (h : onlyD sh = true) (n : Nat) :
    (RegName.v n, true) ∉ usesOf sh f :=
  fun hm => usesOfRole_readsOnly hd (mem_usesOf_onlyD h hm)

theorem legal_of_compact_code {i : Instr} {opc : Nat} {f : Fields} (hc : codeOf i = some (opc, f, 4))
    (hi : ∀ x, checkInstr x i = match codeOf i with
      | some (o, g, n) => if n = 4 then checkCompact x o g [] false else checkFields x o g
      | none => none) (x : Ctx) (h : checkInstr x i = none) : checkFields x opc f = none := by
  rw [hi, hc] at h
  exact legal_of_compact (unused := []) (ok := false) (by simpa using h)

theorem oneResult_memory (f : Fields) (types : List Ty) (ords : List Nat) (d : Role) (ks : List Kind) (long : Bool) :
    onlyD (memory f types ords d ks long) = true := by
  simp only [onlyD, memory, Bool.and_eq_true]
  refine ⟨⟨⟨rfl, rfl⟩, ?_⟩, rfl⟩
  unfold offset; split <;> rfl

/-! ## The forms of instructions with one result -/

theorem form_add (f : Fields) : Form (.add f) 0x00 f (fieldsLen f) :=
  form_of (fun _ => rfl) (legal_of_code rfl fun _ => rfl) (by decide) rfl (oneResult_binary ..)
theorem form_sub (f : Fields) : Form (.sub f) 0x01 f (fieldsLen f) :=
  form_of (fun _ => rfl) (legal_of_code rfl fun _ => rfl) (by decide) rfl (oneResult_binary ..)
theorem form_mul (f : Fields) : Form (.mul f) 0x02 f (fieldsLen f) :=
  form_of (fun _ => rfl) (legal_of_code rfl fun _ => rfl) (by decide) rfl (oneResult_binary ..)
theorem form_mulh (f : Fields) : Form (.mulh f) 0x03 f (fieldsLen f) :=
  form_of (fun _ => rfl) (legal_of_code rfl fun _ => rfl) (by decide) rfl (oneResult_binary ..)
theorem form_min (f : Fields) : Form (.min f) 0x05 f (fieldsLen f) :=
  form_of (fun _ => rfl) (legal_of_code rfl fun _ => rfl) (by decide) rfl (oneResult_binary ..)
theorem form_max (f : Fields) : Form (.max f) 0x06 f (fieldsLen f) :=
  form_of (fun _ => rfl) (legal_of_code rfl fun _ => rfl) (by decide) rfl (oneResult_binary ..)
theorem form_and (f : Fields) : Form (.and f) 0x09 f (fieldsLen f) :=
  form_of (fun _ => rfl) (legal_of_code rfl fun _ => rfl) (by decide) rfl (oneResult_binary ..)
theorem form_or (f : Fields) : Form (.or f) 0x0A f (fieldsLen f) :=
  form_of (fun _ => rfl) (legal_of_code rfl fun _ => rfl) (by decide) rfl (oneResult_binary ..)
theorem form_xor (f : Fields) : Form (.xor f) 0x0B f (fieldsLen f) :=
  form_of (fun _ => rfl) (legal_of_code rfl fun _ => rfl) (by decide) rfl (oneResult_binary ..)
theorem form_andn (f : Fields) : Form (.andn f) 0x0C f (fieldsLen f) :=
  form_of (fun _ => rfl) (legal_of_code rfl fun _ => rfl) (by decide) rfl (oneResult_binary ..)
theorem form_shl (f : Fields) : Form (.shl f) 0x0E f (fieldsLen f) :=
  form_of (fun _ => rfl) (legal_of_code rfl fun _ => rfl) (by decide) rfl (oneResult_binary ..)
theorem form_shr (f : Fields) : Form (.shr f) 0x0F f (fieldsLen f) :=
  form_of (fun _ => rfl) (legal_of_code rfl fun _ => rfl) (by decide) rfl (oneResult_binary ..)
theorem form_sha (f : Fields) : Form (.sha f) 0x10 f (fieldsLen f) :=
  form_of (fun _ => rfl) (legal_of_code rfl fun _ => rfl) (by decide) rfl (oneResult_binary ..)
theorem form_rot (f : Fields) : Form (.rot f) 0x11 f (fieldsLen f) :=
  form_of (fun _ => rfl) (legal_of_code rfl fun _ => rfl) (by decide) rfl (oneResult_binary ..)
theorem form_div (f : Fields) : Form (.div f) 0x1B f (fieldsLen f) :=
  form_of (fun _ => rfl) (legal_of_code rfl fun _ => rfl) (by decide) rfl (oneResult_binary ..)
theorem form_rem (f : Fields) : Form (.rem f) 0x1C f (fieldsLen f) :=
  form_of (fun _ => rfl) (legal_of_code rfl fun _ => rfl) (by decide) rfl (oneResult_binary ..)
theorem form_fadd (f : Fields) : Form (.fadd f) 0x20 f (fieldsLen f) :=
  form_of (fun _ => rfl) (legal_of_code rfl fun _ => rfl) (by decide) rfl (oneResult_binary ..)
theorem form_fsub (f : Fields) : Form (.fsub f) 0x21 f (fieldsLen f) :=
  form_of (fun _ => rfl) (legal_of_code rfl fun _ => rfl) (by decide) rfl (oneResult_binary ..)
theorem form_fmul (f : Fields) : Form (.fmul f) 0x22 f (fieldsLen f) :=
  form_of (fun _ => rfl) (legal_of_code rfl fun _ => rfl) (by decide) rfl (oneResult_binary ..)
theorem form_fmin (f : Fields) : Form (.fmin f) 0x24 f (fieldsLen f) :=
  form_of (fun _ => rfl) (legal_of_code rfl fun _ => rfl) (by decide) rfl (oneResult_binary ..)
theorem form_fmax (f : Fields) : Form (.fmax f) 0x25 f (fieldsLen f) :=
  form_of (fun _ => rfl) (legal_of_code rfl fun _ => rfl) (by decide) rfl (oneResult_binary ..)
theorem form_mad (f : Fields) : Form (.mad f) 0x04 f (fieldsLen f) :=
  form_of (fun _ => rfl) (legal_of_code rfl fun _ => rfl) (by decide) rfl (oneResult_ternary _ _ _ _ _ _ _ _ (regs_pos _))
theorem form_bfe (f : Fields) : Form (.bfe f) 0x12 f (fieldsLen f) :=
  form_of (fun _ => rfl) (legal_of_code rfl fun _ => rfl) (by decide) rfl (oneResult_ternary _ _ _ _ _ _ _ _ (regs_pos _))
theorem form_bfi (f : Fields) : Form (.bfi f) 0x13 f (fieldsLen f) :=
  form_of (fun _ => rfl) (legal_of_code rfl fun _ => rfl) (by decide) rfl (oneResult_ternary _ _ _ _ _ _ _ _ (regs_pos _))
theorem form_sel (f : Fields) : Form (.sel f) 0x17 f (fieldsLen f) :=
  form_of (fun _ => rfl) (legal_of_code rfl fun _ => rfl) (by decide) rfl (oneResult_ternary _ _ _ _ _ _ _ _ (regs_pos _))
theorem form_dot4 (f : Fields) : Form (.dot4 f) 0x1D f (fieldsLen f) :=
  form_of (fun _ => rfl) (legal_of_code rfl fun _ => rfl) (by decide) rfl (oneResult_ternary _ _ _ _ _ _ _ _ Nat.one_ne_zero)
theorem form_prmt (f : Fields) : Form (.prmt f) 0x1E f (fieldsLen f) :=
  form_of (fun _ => rfl) (legal_of_code rfl fun _ => rfl) (by decide) rfl (oneResult_ternary _ _ _ _ _ _ _ _ Nat.one_ne_zero)
theorem form_ffma (f : Fields) : Form (.ffma f) 0x23 f (fieldsLen f) :=
  form_of (fun _ => rfl) (legal_of_code rfl fun _ => rfl) (by decide) rfl (oneResult_ternary _ _ _ _ _ _ _ _ Nat.one_ne_zero)
theorem form_fdot2 (f : Fields) : Form (.fdot2 f) 0x39 f (fieldsLen f) :=
  form_of (fun _ => rfl) (legal_of_code rfl fun _ => rfl) (by decide) rfl (oneResult_ternary _ _ _ _ _ _ _ _ Nat.one_ne_zero)
theorem form_abs (f : Fields) : Form (.abs f) 0x07 f (fieldsLen f) :=
  form_of (fun _ => rfl) (legal_of_code rfl fun _ => rfl) (by decide) rfl (oneResult_unary _ _ _ _ _ _ _ (regs_pos _))
theorem form_neg (f : Fields) : Form (.neg f) 0x08 f (fieldsLen f) :=
  form_of (fun _ => rfl) (legal_of_code rfl fun _ => rfl) (by decide) rfl (oneResult_unary _ _ _ _ _ _ _ (regs_pos _))
theorem form_not (f : Fields) : Form (.not f) 0x0D f (fieldsLen f) :=
  form_of (fun _ => rfl) (legal_of_code rfl fun _ => rfl) (by decide) rfl (oneResult_unary _ _ _ _ _ _ _ (regs_pos _))
theorem form_brev (f : Fields) : Form (.brev f) 0x16 f (fieldsLen f) :=
  form_of (fun _ => rfl) (legal_of_code rfl fun _ => rfl) (by decide) rfl (oneResult_unary _ _ _ _ _ _ _ (regs_pos _))
theorem form_mov (f : Fields) : Form (.mov f) 0x19 f (fieldsLen f) :=
  form_of (fun _ => rfl) (legal_of_code rfl fun _ => rfl) (by decide) rfl (oneResult_unary _ _ _ _ _ _ _ (regs_pos _))
theorem form_fabs (f : Fields) : Form (.fabs f) 0x26 f (fieldsLen f) :=
  form_of (fun _ => rfl) (legal_of_code rfl fun _ => rfl) (by decide) rfl (oneResult_unary _ _ _ _ _ _ _ (regs_pos _))
theorem form_fneg (f : Fields) : Form (.fneg f) 0x27 f (fieldsLen f) :=
  form_of (fun _ => rfl) (legal_of_code rfl fun _ => rfl) (by decide) rfl (oneResult_unary _ _ _ _ _ _ _ (regs_pos _))
theorem form_fclass (f : Fields) : Form (.fclass f) 0x29 f (fieldsLen f) :=
  form_of (fun _ => rfl) (legal_of_code rfl fun _ => rfl) (by decide) rfl (oneResult_unary _ _ _ _ _ _ _ (regs_pos _))
theorem form_frcp (f : Fields) : Form (.frcp f) 0x2A f (fieldsLen f) :=
  form_of (fun _ => rfl) (legal_of_code rfl fun _ => rfl) (by decide) rfl (oneResult_unary _ _ _ _ _ _ _ (regs_pos _))
theorem form_frsq (f : Fields) : Form (.frsq f) 0x2B f (fieldsLen f) :=
  form_of (fun _ => rfl) (legal_of_code rfl fun _ => rfl) (by decide) rfl (oneResult_unary _ _ _ _ _ _ _ (regs_pos _))
theorem form_fsqrt (f : Fields) : Form (.fsqrt f) 0x2C f (fieldsLen f) :=
  form_of (fun _ => rfl) (legal_of_code rfl fun _ => rfl) (by decide) rfl (oneResult_unary _ _ _ _ _ _ _ (regs_pos _))
theorem form_fexp2 (f : Fields) : Form (.fexp2 f) 0x2D f (fieldsLen f) :=
  form_of (fun _ => rfl) (legal_of_code rfl fun _ => rfl) (by decide) rfl (oneResult_unary _ _ _ _ _ _ _ (regs_pos _))
theorem form_flog2 (f : Fields) : Form (.flog2 f) 0x2E f (fieldsLen f) :=
  form_of (fun _ => rfl) (legal_of_code rfl fun _ => rfl) (by decide) rfl (oneResult_unary _ _ _ _ _ _ _ (regs_pos _))
theorem form_fsin (f : Fields) : Form (.fsin f) 0x2F f (fieldsLen f) :=
  form_of (fun _ => rfl) (legal_of_code rfl fun _ => rfl) (by decide) rfl (oneResult_unary _ _ _ _ _ _ _ (regs_pos _))
theorem form_fcos (f : Fields) : Form (.fcos f) 0x30 f (fieldsLen f) :=
  form_of (fun _ => rfl) (legal_of_code rfl fun _ => rfl) (by decide) rfl (oneResult_unary _ _ _ _ _ _ _ (regs_pos _))
theorem form_ftanh (f : Fields) : Form (.ftanh f) 0x31 f (fieldsLen f) :=
  form_of (fun _ => rfl) (legal_of_code rfl fun _ => rfl) (by decide) rfl (oneResult_unary _ _ _ _ _ _ _ (regs_pos _))
theorem form_popc (f : Fields) : Form (.popc f) 0x14 f (fieldsLen f) :=
  form_of (fun _ => rfl) (legal_of_code rfl fun _ => rfl) (by decide) rfl (oneResult_unary _ _ _ _ _ _ _ Nat.one_ne_zero)
theorem form_clz (f : Fields) : Form (.clz f) 0x15 f (fieldsLen f) :=
  form_of (fun _ => rfl) (legal_of_code rfl fun _ => rfl) (by decide) rfl (oneResult_unary _ _ _ _ _ _ _ Nat.one_ne_zero)
theorem form_cmp (f : Fields) : Form (.cmp f) 0x18 f (fieldsLen f) :=
  form_of (fun _ => rfl) (legal_of_code rfl fun _ => rfl) (by decide) rfl (oneResult_compare ..)
theorem form_fcmp (f : Fields) : Form (.fcmp f) 0x28 f (fieldsLen f) :=
  form_of (fun _ => rfl) (legal_of_code rfl fun _ => rfl) (by decide) rfl (oneResult_compare ..)
theorem form_lea (f : Fields) : Form (.lea f) 0x1A f (fieldsLen f) :=
  form_of (fun _ => rfl) (legal_of_code rfl fun _ => rfl) (by decide) rfl ⟨by simp [destOk, binary, dst], by simp only [onlyD, binary, Bool.and_eq_true]; exact ⟨⟨⟨rfl, rfl⟩, readsOnly_immOr _ _ _ rfl⟩, rfl⟩, _, rfl, regs_pos _⟩
theorem form_fscl (f : Fields) : Form (.fscl f) 0x32 f (fieldsLen f) :=
  form_of (fun _ => rfl) (legal_of_code rfl fun _ => rfl) (by decide) rfl ⟨by simp [destOk, binary, dst], by simp only [onlyD, binary, Bool.and_eq_true]; exact ⟨⟨⟨rfl, rfl⟩, readsOnly_immOr _ _ _ rfl⟩, rfl⟩, _, rfl, regs_pos _⟩
theorem form_plop (f : Fields) : Form (.plop f) 0x40 f (fieldsLen f) :=
  form_of (fun _ => rfl) (legal_of_code rfl fun _ => rfl) (by decide) rfl ⟨rfl, rfl, _, rfl, Nat.one_ne_zero⟩
theorem form_vote (f : Fields) : Form (.vote f) 0x42 f (fieldsLen f) :=
  form_of (fun _ => rfl) (legal_of_code rfl fun _ => rfl) (by decide) rfl ⟨rfl, rfl, _, rfl, Nat.one_ne_zero⟩
theorem form_dqn4 (f : Fields) : Form (.dqn4 f) 0x36 f (fieldsLen f) :=
  form_of (fun _ => rfl) (legal_of_code rfl fun _ => rfl) (by decide) rfl ⟨rfl, rfl, _, rfl, Nat.one_ne_zero⟩
theorem form_spexp (f : Fields) : Form (.spexp f) 0x38 f (fieldsLen f) :=
  form_of (fun _ => rfl) (legal_of_code rfl fun _ => rfl) (by decide) rfl ⟨rfl, rfl, _, rfl, Nat.one_ne_zero⟩
theorem form_red (f : Fields) : Form (.red f) 0x45 f (fieldsLen f) :=
  form_of (fun _ => rfl) (legal_of_code rfl fun _ => rfl) (by decide) rfl ⟨rfl, rfl, _, rfl, Nat.one_ne_zero⟩
theorem form_scan (f : Fields) : Form (.scan f) 0x47 f (fieldsLen f) :=
  form_of (fun _ => rfl) (legal_of_code rfl fun _ => rfl) (by decide) rfl ⟨rfl, rfl, _, rfl, Nat.one_ne_zero⟩
theorem form_ftst (f : Fields) : Form (.ftst f) 0x81 f (fieldsLen f) :=
  form_of (fun _ => rfl) (legal_of_code rfl fun _ => rfl) (by decide) rfl ⟨rfl, rfl, _, rfl, Nat.one_ne_zero⟩
theorem form_qxch (f : Fields) : Form (.qxch f) 0x44 f (fieldsLen f) :=
  form_of (fun _ => rfl) (legal_of_code rfl fun _ => rfl) (by decide) rfl ⟨by simp [destOk, oneDst, dst], by simp only [onlyD, Bool.and_eq_true]; refine ⟨⟨⟨rfl, rfl⟩, ?_⟩, rfl⟩; split <;> rfl, _, rfl, regs_pos _⟩
theorem form_shfl (f : Fields) : Form (.shfl f) 0x43 f (fieldsLen f) :=
  form_of (fun _ => rfl) (legal_of_code rfl fun _ => rfl) (by decide) rfl ⟨by simp [destOk, oneDst, dst], by simp only [onlyD, amount, Bool.and_eq_true]; refine ⟨⟨⟨rfl, rfl⟩, ?_⟩, rfl⟩; split <;> rfl, _, rfl, regs_pos _⟩
theorem form_redx (f : Fields) : Form (.redx f) 0x46 f (fieldsLen f) :=
  form_of (fun _ => rfl) (legal_of_code rfl fun _ => rfl) (by decide) rfl ⟨by simp [destOk, oneDst, dst], by simp only [onlyD, amount, Bool.and_eq_true]; refine ⟨⟨⟨rfl, rfl⟩, ?_⟩, rfl⟩; split <;> rfl, _, rfl, by decide⟩
theorem form_aalloc (f : Fields) : Form (.aalloc f) 0xA2 f (fieldsLen f) :=
  form_of (fun _ => rfl) (legal_of_code rfl fun _ => rfl) (by decide) rfl ⟨by simp [destOk, oneDst, dst], by simp only [onlyD, amount, Bool.and_eq_true]; refine ⟨⟨⟨rfl, rfl⟩, ?_⟩, rfl⟩; split <;> rfl, _, rfl, Nat.one_ne_zero⟩
theorem form_ptest (f : Fields) : Form (.ptest f) 0x6C f (fieldsLen f) :=
  form_of (fun _ => rfl) (legal_of_code rfl fun _ => rfl) (by decide) rfl ⟨rfl, oneResult_memory .., _, rfl, Nat.one_ne_zero⟩
theorem form_addC32 (f : CompactFields) : Form (.addC32 f) 0x00 (compactVV .i32 f) 4 :=
  form_of (fun _ => rfl) (legal_of_compact_code rfl fun _ => rfl) (by decide) rfl (oneResult_binary ..)
theorem form_addImmC32 (f : CompactFields) : Form (.addImmC32 f) 0x00 (compactVI .i32 true f) 4 :=
  form_of (fun _ => rfl) (legal_of_compact_code rfl fun _ => rfl) (by decide) rfl (oneResult_binary ..)
theorem form_subC32 (f : CompactFields) : Form (.subC32 f) 0x01 (compactVV .i32 f) 4 :=
  form_of (fun _ => rfl) (legal_of_compact_code rfl fun _ => rfl) (by decide) rfl (oneResult_binary ..)
theorem form_andC32 (f : CompactFields) : Form (.andC32 f) 0x09 (compactVV .b32 f) 4 :=
  form_of (fun _ => rfl) (legal_of_compact_code rfl fun _ => rfl) (by decide) rfl (oneResult_binary ..)
theorem form_orC32 (f : CompactFields) : Form (.orC32 f) 0x0A (compactVV .b32 f) 4 :=
  form_of (fun _ => rfl) (legal_of_compact_code rfl fun _ => rfl) (by decide) rfl (oneResult_binary ..)
theorem form_xorC32 (f : CompactFields) : Form (.xorC32 f) 0x0B (compactVV .b32 f) 4 :=
  form_of (fun _ => rfl) (legal_of_compact_code rfl fun _ => rfl) (by decide) rfl (oneResult_binary ..)
theorem form_shlC32 (f : CompactFields) : Form (.shlC32 f) 0x0E (compactVI .b32 false f) 4 :=
  form_of (fun _ => rfl) (legal_of_compact_code rfl fun _ => rfl) (by decide) rfl (oneResult_binary ..)
theorem form_shrC32 (f : CompactFields) : Form (.shrC32 f) 0x0F (compactVI .n32 false f) 4 :=
  form_of (fun _ => rfl) (legal_of_compact_code rfl fun _ => rfl) (by decide) rfl (oneResult_binary ..)
theorem form_faddC32 (f : CompactFields) : Form (.faddC32 f) 0x20 (compactVV .f32 f) 4 :=
  form_of (fun _ => rfl) (legal_of_compact_code rfl fun _ => rfl) (by decide) rfl (oneResult_binary ..)
theorem form_fmulC32 (f : CompactFields) : Form (.fmulC32 f) 0x22 (compactVV .f32 f) 4 :=
  form_of (fun _ => rfl) (legal_of_compact_code rfl fun _ => rfl) (by decide) rfl (oneResult_binary ..)
theorem form_movC32 (f : CompactFields) : Form (.movC32 f) 0x19 (compactMov f) 4 :=
  form_of (fun _ => rfl) (fun _ h => legal_of_compact h) (by decide) rfl
    (oneResult_unary _ _ _ _ _ _ _ (by rw [Option.getD_none]; exact regs_pos _))

/-! ## The forms of instructions that write no v register -/

theorem quiet_nop (f : Fields) : Quiet (.nop f) 0x58 f (fieldsLen f) :=
  quiet_of (fun _ => rfl) (by decide) rfl (no_dest rfl rfl)
theorem quiet_exit (f : Fields) : Quiet (.exit f) 0x56 f (fieldsLen f) :=
  quiet_of (fun _ => rfl) (by decide) rfl (no_dest rfl rfl)
theorem quiet_ret (f : Fields) : Quiet (.ret f) 0x55 f (fieldsLen f) :=
  quiet_of (fun _ => rfl) (by decide) rfl (no_dest rfl rfl)
theorem quiet_yield (f : Fields) : Quiet (.yield f) 0x5E f (fieldsLen f) :=
  quiet_of (fun _ => rfl) (by decide) rfl (no_dest rfl rfl)
theorem quiet_btake (f : Fields) : Quiet (.btake f) 0x5A f (fieldsLen f) :=
  quiet_of (fun _ => rfl) (by decide) rfl (no_dest rfl rfl)
theorem quiet_bgive (f : Fields) : Quiet (.bgive f) 0x5B f (fieldsLen f) :=
  quiet_of (fun _ => rfl) (by decide) rfl (no_dest rfl rfl)
theorem quiet_rte (f : Fields) : Quiet (.rte f) 0xE1 f (fieldsLen f) :=
  quiet_of (fun _ => rfl) (by decide) rfl (no_dest rfl rfl)
theorem quiet_fence (f : Fields) : Quiet (.fence f) 0x69 f (fieldsLen f) :=
  quiet_of (fun _ => rfl) (by decide) rfl (no_dest rfl rfl)
theorem quiet_sclose (f : Fields) : Quiet (.sclose f) 0x6D f (fieldsLen f) :=
  quiet_of (fun _ => rfl) (by decide) rfl (no_dest rfl rfl)
theorem quiet_fwait (f : Fields) : Quiet (.fwait f) 0x80 f (fieldsLen f) :=
  quiet_of (fun _ => rfl) (by decide) rfl (no_dest rfl rfl)
theorem quiet_fcan (f : Fields) : Quiet (.fcan f) 0x84 f (fieldsLen f) :=
  quiet_of (fun _ => rfl) (by decide) rfl (no_dest rfl rfl)
theorem quiet_trap (f : Fields) : Quiet (.trap f) 0xE0 f (fieldsLen f) :=
  quiet_of (fun _ => rfl) (by decide) rfl (no_dest rfl rfl)
theorem quiet_bkpt (f : Fields) : Quiet (.bkpt f) 0xE4 f (fieldsLen f) :=
  quiet_of (fun _ => rfl) (by decide) rfl (no_dest rfl rfl)
theorem quiet_bar (f : Fields) : Quiet (.bar f) 0x59 f (fieldsLen f) :=
  quiet_of (fun _ => rfl) (by decide) rfl (no_dest rfl rfl)
theorem quiet_jmpi (f : Fields) : Quiet (.jmpi f) 0x52 f (fieldsLen f) :=
  quiet_of (fun _ => rfl) (by decide) rfl (no_dest rfl rfl)
theorem quiet_calli (f : Fields) : Quiet (.calli f) 0x54 f (fieldsLen f) :=
  quiet_of (fun _ => rfl) (by decide) rfl (no_dest rfl rfl)
theorem quiet_brm (f : Fields) : Quiet (.brm f) 0x51 f (fieldsLen f) :=
  quiet_of (fun _ => rfl) (by decide) rfl (no_dest rfl rfl)
theorem quiet_waitm (f : Fields) : Quiet (.waitm f) 0x5D f (fieldsLen f) :=
  quiet_of (fun _ => rfl) (by decide) rfl (no_dest rfl rfl)
theorem quiet_fuse (f : Fields) : Quiet (.fuse f) 0x57 f (fieldsLen f) :=
  quiet_of (fun _ => rfl) (by decide) rfl (no_dest rfl (by simp only [onlyD, amount, Bool.and_eq_true]; refine ⟨⟨⟨rfl, rfl⟩, ?_⟩, rfl⟩; split <;> rfl))
theorem quiet_cue (f : Fields) : Quiet (.cue f) 0x5C f (fieldsLen f) :=
  quiet_of (fun _ => rfl) (by decide) rfl (no_dest rfl (by simp only [onlyD, amount, Bool.and_eq_true]; refine ⟨⟨⟨rfl, rfl⟩, ?_⟩, rfl⟩; split <;> rfl))
theorem quiet_st (f : Fields) : Quiet (.st f) 0x61 f (fieldsLen f) :=
  quiet_of (fun _ => rfl) (by decide) rfl (no_dest rfl (oneResult_memory ..))
theorem quiet_fxadd (f : Fields) : Quiet (.fxadd f) 0x66 f (fieldsLen f) :=
  quiet_of (fun _ => rfl) (by decide) rfl (no_dest rfl (oneResult_memory ..))
theorem quiet_fxclr (f : Fields) : Quiet (.fxclr f) 0x68 f (fieldsLen f) :=
  quiet_of (fun _ => rfl) (by decide) rfl (no_dest rfl (oneResult_memory ..))
theorem quiet_pset (f : Fields) : Quiet (.pset f) 0x6A f (fieldsLen f) :=
  quiet_of (fun _ => rfl) (by decide) rfl (no_dest rfl (oneResult_memory ..))
theorem quiet_parm (f : Fields) : Quiet (.parm f) 0x6B f (fieldsLen f) :=
  quiet_of (fun _ => rfl) (by decide) rfl (no_dest rfl (oneResult_memory ..))
theorem quiet_pst (f : Fields) : Quiet (.pst f) 0xD0 f (fieldsLen f) :=
  quiet_of (fun _ => rfl) (by decide) rfl (no_dest rfl (oneResult_memory ..))
theorem quiet_psig (f : Fields) : Quiet (.psig f) 0xD1 f (fieldsLen f) :=
  quiet_of (fun _ => rfl) (by decide) rfl (no_dest rfl (oneResult_memory ..))
theorem quiet_pwait (f : Fields) : Quiet (.pwait f) 0xD2 f (fieldsLen f) :=
  quiet_of (fun _ => rfl) (by decide) rfl (no_dest rfl (oneResult_memory ..))
theorem quiet_spawn (f : Fields) : Quiet (.spawn f) 0xD3 f (fieldsLen f) :=
  quiet_of (fun _ => rfl) (by decide) rfl (no_dest rfl (oneResult_memory ..))
theorem quiet_tagset (f : Fields) : Quiet (.tagset f) 0xD6 f (fieldsLen f) :=
  quiet_of (fun _ => rfl) (by decide) rfl (no_dest rfl (oneResult_memory ..))
theorem quiet_afree (f : Fields) : Quiet (.afree f) 0xA3 f (fieldsLen f) :=
  quiet_of (fun _ => rfl) (by decide) rfl (no_dest rfl (by simp only [onlyD, amount, Bool.and_eq_true]; refine ⟨⟨⟨rfl, rfl⟩, ?_⟩, rfl⟩; split <;> rfl))
theorem quiet_azero (f : Fields) : Quiet (.azero f) 0xA7 f (fieldsLen f) :=
  quiet_of (fun _ => rfl) (by decide) rfl (no_dest rfl (by simp only [onlyD, amount, Bool.and_eq_true]; refine ⟨⟨⟨rfl, rfl⟩, ?_⟩, rfl⟩; split <;> rfl))
theorem quiet_agrant (f : Fields) : Quiet (.agrant f) 0xA4 f (fieldsLen f) :=
  quiet_of (fun _ => rfl) (by decide) rfl (no_dest rfl (by simp only [onlyD, amount, Bool.and_eq_true]; refine ⟨⟨⟨rfl, rfl⟩, ?_⟩, rfl⟩; split <;> rfl))
theorem quiet_nopC32 (f : CompactFields) : Quiet (.nopC32 f) 0x58 (plainFields) 4 :=
  quiet_of (fun _ => rfl) (by decide) rfl (no_dest rfl rfl)
theorem quiet_exitC32 (f : CompactFields) : Quiet (.exitC32 f) 0x56 (plainFields) 4 :=
  quiet_of (fun _ => rfl) (by decide) rfl (no_dest rfl rfl)
theorem quiet_retC32 (f : CompactFields) : Quiet (.retC32 f) 0x55 (plainFields) 4 :=
  quiet_of (fun _ => rfl) (by decide) rfl (no_dest rfl rfl)
theorem quiet_fuseC32 (f : CompactFields) : Quiet (.fuseC32 f) 0x57 (compactFuse) 4 :=
  quiet_of (fun _ => rfl) (by decide) rfl (no_dest rfl rfl)

end Sys2Proof.Machine
end

