-- ==== Sys2Proof/Tests/Slice0.lean ====
section
/-!
SUPPORT. The model's own tests: words written out from the layouts of R73, R74, R79, R82 and R86, ill-formed terms that each check of R88
refuses, and states in which the hypotheses of the statements are met.
-/
namespace Sys2Proof.Tests
set_option Elab.async false
open Machine

/-! ## Words (R72 to R76, R86, R87) -/

def z : Fields := plainFields

/-- Does a word of n bytes decode, in thread code, to an instruction of that length? -/
def reads (w : Nat × Nat × Instr) : Bool := decide (decode Ctx.thread (natBytes w.1 w.2.1) = .ok (w.2.2, w.1))

theorem test_decode_integer : [
    (8, 0x01FF80C220800001, .add { z with d := 8, a := 0x11, b := 3, c := 0x1FF, t := 0x01 }),
    (8, 0x070D000220800005, .sub { z with d := 8, a := 0x11, c := 0x1A, t := 0x07 }),
    (8, 0x080D000220800009, .mul { z with d := 8, a := 0x11, c := 0x1A, t := 0x08 }),
    (8, 0x020D00022080000D, .mulh { z with d := 8, a := 0x11, c := 0x1A, t := 0x02 }),
    (8, 0x090D000220800015, .min { z with d := 8, a := 0x11, c := 0x1A, t := 0x09 }),
    (8, 0x060D000220800019, .max { z with d := 8, a := 0x11, c := 0x1A, t := 0x06 }),
    (8, 0x000D000220800025, .and { z with d := 8, a := 0x11, c := 0x1A }),
    (8, 0x140D000220800029, .or { z with d := 8, a := 0x11, c := 0x1A, t := 0x14 }),
    (8, 0x130D00022080002D, .xor { z with d := 8, a := 0x11, c := 0x1A, t := 0x13 }),
    (8, 0x000D000220800031, .andn { z with d := 8, a := 0x11, c := 0x1A }),
    (8, 0x000D000220800039, .shl { z with d := 8, a := 0x11, c := 0x1A }),
    (8, 0x020D00022080003D, .shr { z with d := 8, a := 0x11, c := 0x1A, t := 0x02 }),
    (8, 0x010D000220800041, .sha { z with d := 8, a := 0x11, c := 0x1A, t := 0x01 }),
    (8, 0x000D000220800045, .rot { z with d := 8, a := 0x11, c := 0x1A }),
    (8, 0x010D00022080006D, .div { z with d := 8, a := 0x11, c := 0x1A, t := 0x01 }),
    (8, 0x020D000220800071, .rem { z with d := 8, a := 0x11, c := 0x1A, t := 0x02 }),
    (8, 0x040D860240800069, .lea { z with d := 8, a := 0x12, b := 0x18, c := 0x1B, t := 0x04 }),
    (8, 0x010D00000080001D, .abs { z with d := 8, c := 0x1A, t := 0x01 }),
    (8, 0x080D000000800021, .neg { z with d := 8, c := 0x1A, t := 0x08 }),
    (8, 0x000D000000800035, .not { z with d := 8, c := 0x1A }),
    (8, 0x000D000000800051, .popc { z with d := 8, c := 0x1A }),
    (8, 0x050D000000800055, .clz { z with d := 8, c := 0x1A, t := 0x05 }),
    (8, 0x000D000000800059, .brev { z with d := 8, c := 0x1A }),
    (12, 0x3F80000000FF800000100066, .mov { z with d := 1, c := 0x1FF, ext := .lit 0x3F800000 }),
    (8, 0x020E868220800011, .mad { z with d := 8, a := 0x11, b := 0x1A, c := 0x1D, t := 0x02 }),
    (8, 0x010E868220800049, .bfe { z with d := 8, a := 0x11, b := 0x1A, c := 0x1D, t := 0x01 }),
    (8, 0x000E86822080004D, .bfi { z with d := 8, a := 0x11, b := 0x1A, c := 0x1D }),
    (8, 0x00A186822080005D, .sel { z with d := 8, a := 0x11, b := 0x1A, c := 0x143 }),
    (8, 0x280E868220800075, .dot4 { z with d := 8, a := 0x11, b := 0x1A, c := 0x1D, t := 0x08, m := 1 }),
    (8, 0x000E868220800079, .prmt { z with d := 8, a := 0x11, b := 0x1A, c := 0x1D }),
    (8, 0x610D000234200061, .cmp { z with d := 0x142, a := 0x11, c := 0x1A, t := 0x01, m := 3 })].all reads = true := by decide +kernel

theorem test_decode_float : [
    (8, 0x0A0D000220800091, .fmin { z with d := 8, a := 0x11, c := 0x1A, t := 0x0A }),
    (8, 0x0B0D000220800095, .fmax { z with d := 8, a := 0x11, c := 0x1A, t := 0x0B }),
    (8, 0x4A0D000220800081, .fadd { z with d := 8, a := 0x11, c := 0x1A, t := 0x0A, m := 2 }),
    (8, 0x2C0D000220800085, .fsub { z with d := 8, a := 0x11, c := 0x1A, t := 0x0C, m := 1 }),
    (8, 0x6B0D000220800089, .fmul { z with d := 8, a := 0x11, c := 0x1A, t := 0x0B, m := 3 }),
    (8, 0x0A0D000000800099, .fabs { z with d := 8, c := 0x1A, t := 0x0A }),
    (8, 0x0B0D00000080009D, .fneg { z with d := 8, c := 0x1A, t := 0x0B }),
    (8, 0x0C0D0000008000A5, .fclass { z with d := 8, c := 0x1A, t := 0x0C }),
    (8, 0x0A0D0000008000A9, .frcp { z with d := 8, c := 0x1A, t := 0x0A }),
    (8, 0x0A0D0000008000AD, .frsq { z with d := 8, c := 0x1A, t := 0x0A }),
    (8, 0x0B0D0000008000B1, .fsqrt { z with d := 8, c := 0x1A, t := 0x0B }),
    (8, 0x0C0D0000008000B5, .fexp2 { z with d := 8, c := 0x1A, t := 0x0C }),
    (8, 0x0A0D0000008000B9, .flog2 { z with d := 8, c := 0x1A, t := 0x0A }),
    (8, 0x0A0D0000008000BD, .fsin { z with d := 8, c := 0x1A, t := 0x0A }),
    (8, 0x0A0D0000008000C1, .fcos { z with d := 8, c := 0x1A, t := 0x0A }),
    (8, 0x0A0D0000008000C5, .ftanh { z with d := 8, c := 0x1A, t := 0x0A }),
    (8, 0x0A06830160A08C8D, .ffma { z with g := true, pred := 3, d := 0xA, a := 0xB, b := 0xC, c := 0xD, t := 0x0A }),
    (8, 0xAA0D0002344000A1, .fcmp { z with d := 0x144, a := 0x11, c := 0x1A, t := 0x0A, m := 5 }),
    (8, 0x8AFF0042208000C9, .fscl { z with d := 8, a := 0x11, b := 1, c := 0x1FE, t := 0x0A, m := 4 })].all reads = true := by decide +kernel

theorem test_decode_formats : [
    (8, 0x0C0E8682208100E5, .fdot2 { z with la := 1, d := 8, a := 0x11, b := 0x1A, c := 0x1D, t := 0x0C }),
    (8, 0xAC0D1430608000CD, .cvt { z with d := 8, a := 0x183, b := 0x50, c := 0x1A, t := 0x0C, m := 5 }),
    (8, 0xAB0D0602208000D1, .pack2 { z with d := 8, a := 0x11, b := 0x18, c := 0x1A, t := 0x0B, m := 5 }),
    (8, 0x0F000082308000D5, .qnt4 { z with d := 0x108, a := 0x11, b := 2, t := 0x0F }),
    (8, 0x10000022008000D9, .dqn4 { z with d := 8, a := 0x110, t := 0x10 }),
    (8, 0x0A000682208000DD, .spcmp { z with d := 8, a := 0x11, b := 0x1A, t := 0x0A }),
    (8, 0x0C000682208000E1, .spexp { z with d := 8, a := 0x11, b := 0x1A, t := 0x0C }),
    (16, 0x000000002000100420F80120808000EB, .vsw { z with d := 8, a := 0x104, b := 4, c := 0x1F0, m := 1, ext := .wide 0x20001004 })].all reads = true := by decide +kernel

theorem test_decode_lanes : [
    (8, 0x400050E854100101, .plop { z with d := 0x141, a := 0x142, b := 0x143, m := 2 }),
    (8, 0x00000028D0500105, .pmov { z with d := 0x105, a := 0x146 }),
    (8, 0x2000002854100109, .vote { z with d := 0x141, a := 0x142, m := 1 }),
    (8, 0x400180422080010D, .shfl { z with d := 8, a := 0x11, b := 1, c := 3, m := 2 }),
    (8, 0x6001004220800111, .qxch { z with d := 8, a := 0x11, b := 1, c := 2, m := 3 }),
    (8, 0x2A00000220800115, .red { z with d := 8, a := 0x11, t := 0x0A, m := 1 }),
    (8, 0x2102804220800119, .redx { z with d := 8, a := 0x11, b := 1, c := 5, t := 0x01, m := 1 }),
    (8, 0x420000422080011D, .scan { z with d := 8, a := 0x11, b := 1, t := 0x02, m := 2 })].all reads = true := by decide +kernel

theorem test_decode_control : [
    (16, 0x00000000FFF0000400000004A2300147, .brm { z with d := 0x23, a := 0x25, ext := .wide 0xFFF00004 }),
    (8, 0x0000000240000149, .jmpi { z with a := 0x12 }),
    (8, 0x00000020C0000151, .calli { z with a := 0x106 }),
    (8, 0x0000000000000155, .ret z),
    (8, 0x000000000000D559, .exit { z with g := true, n := true, pred := 5 }),
    (8, 0x000F80400000015D, .fuse { z with b := 1, c := 0x1F }),
    (8, 0x0000000000000161, .nop z),
    (8, 0x2004800000000165, .bar { z with c := 9, m := 1 }),
    (8, 0x0000000000000169, .btake z),
    (8, 0x000000000000016D, .bgive z),
    (8, 0x0000000000000179, .yield z),
    (8, 0x000381C000000171, .cue { z with b := 7, c := 7 }),
    (8, 0xA485012100000175, .waitm { z with a := 0x108, b := 4, c := 0x10A, t := 0x04, m := 5 }),
    (8, 0xFFFFFFFF80008941, .bra { g := true, n := false, pred := 2, la := 0, d := 0, off := -4 }),
    (8, 0x000000200000014D, .call { g := false, n := false, pred := 0, la := 0, d := 0, off := 0x100 })].all reads = true := by decide +kernel

theorem test_decode_memory : [
    (8, 0x0120190280400181, .ld { z with d := 4, a := 0x14, b := 0x64, c := 0x40, t := 0x01 }),
    (8, 0x0AFE000220800185, .st { z with d := 8, a := 0x11, c := 0x1FC, t := 0x0A }),
    (8, 0x2A0300A080800189, .ldt { z with d := 8, a := 0x104, b := 2, c := 6, t := 0x0A, m := 1 }),
    (8, 0x8C6329208080018D, .stt { z with d := 8, a := 0x104, b := 0xA4, c := 0xC6, t := 0x0C, m := 4 }),
    (8, 0x210D390240800191, .atom { z with d := 8, a := 0x12, b := 0xE4, c := 0x1A, t := 0x01, m := 1 }),
    (8, 0x000D00C240800195, .cas { z with d := 8, a := 0x12, b := 3, c := 0x1A }),
    (8, 0x0A02010240800199, .fxadd { z with d := 8, a := 0x12, b := 4, c := 4, t := 0x0A }),
    (8, 0x0A0400824080019D, .fxrd { z with d := 8, a := 0x12, b := 2, c := 8, t := 0x0A }),
    (8, 0x000600C2400001A1, .fxclr { z with a := 0x12, b := 3, c := 0xC }),
    (8, 0x00000800000001A5, .fence { z with b := 0x20 }),
    (8, 0x00000002400001A9, .pset { z with a := 0x12 }),
    (8, 0x00080002400001AD, .parm { z with a := 0x12, c := 0x10 }),
    (8, 0x00100002541001B1, .ptest { z with d := 0x141, a := 0x12, c := 0x20 }),
    (8, 0x00008000000001B5, .sclose { z with c := 1 })].all reads = true := by decide +kernel

theorem test_decode_futures : [
    (8, 0x0000002E40000201, .fwait { z with a := 0x172 }),
    (8, 0x0000002E54300205, .ftst { z with d := 0x143, a := 0x172 }),
    (8, 0x0004802E40000209, .fpass { z with a := 0x172, c := 9 }),
    (8, 0x000480001750020D, .ftake { z with d := 0x175, c := 9 }),
    (8, 0x0000002EE0000211, .fcan { z with a := 0x177 })].all reads = true := by decide +kernel

theorem test_decode_copies : [
    (8, 0x0044D5AAB5800241, .cpy { z with d := 0x158, a := 0x155, b := 0x156, c := 0x89 }),
    (16, 0x000000000000000A000255AAB5800247, .cpyt { z with d := 0x158, a := 0x155, b := 0x156, c := 4, ext := .wide 0xA }),
    (16, 0x00000000000000084004D5AAB580024B, .cpyr { z with d := 0x158, a := 0x155, b := 0x156, c := 9, m := 2, ext := .wide 0x8 }),
    (16, 0x00000000000000030001D46A5540024F, .cpym { z with d := 0x154, a := 0x152, b := 0x151, c := 3, ext := .wide 0x3 }),
    (8, 0x0000002A80000251, .ccan { z with a := 0x154 }),
    (8, 0x000302C000000255, .wcue { z with b := 0xB, c := 6 })].all reads = true := by decide +kernel

theorem test_decode_arrays : [
    (16, 0x000000000002040C0CBC060200000283, .mmr { z with a := 0x10, b := 0x18, c := 0x178, t := 0x0C, ext := .wide 0x2040C }),
    (16, 0x0000000000000100000057EBD6000287, .mms { z with d := 0x160, a := 0x15E, b := 0x15F, ext := .wide 0x100 }),
    (8, 0x0001004000800289, .aalloc { z with d := 8, b := 1, c := 2 }),
    (8, 0x000102400000028D, .afree { z with b := 9, c := 2 }),
    (8, 0x2001024060000291, .agrant { z with a := 3, b := 9, c := 2, m := 1 }),
    (8, 0x000102400000029D, .azero { z with b := 9, c := 2 }),
    (8, 0x4A8B100000800295, .ald { z with d := 8, b := 0x40, c := 0x116, t := 0x0A, m := 2 }),
    (8, 0x000D008000800299, .ast { z with d := 8, b := 2, c := 0x1A }),
    (8, 0x00078040178002A1, .cvset { z with d := 0x178, b := 1, c := 0xF }),
    (8, 0x0000000017B002A5, .cvrst { z with d := 0x17B })].all reads = true := by decide +kernel

theorem test_decode_summaries : [
    (8, 0x0A008021000002C1, .sminit { z with a := 0x108, c := 1, t := 0x0A }),
    (8, 0x0A030021000002C5, .rqs { z with a := 0x108, c := 6, t := 0x0A }),
    (8, 0x050300A1000002C9, .rhh { z with a := 0x108, b := 2, c := 6, t := 0x05 }),
    (8, 0x00030021000002CD, .rdc { z with a := 0x108, c := 6 }),
    (8, 0x00848421000002D1, .smrg { z with a := 0x108, b := 0x10, c := 0x109 }),
    (8, 0x0A030021004002D5, .sqnt { z with d := 4, a := 0x108, c := 6, t := 0x0A }),
    (8, 0x0A000021004002D9, .sest { z with d := 4, a := 0x108, t := 0x0A }),
    (8, 0x00030021004002DD, .shhq { z with d := 4, a := 0x108, c := 6 })].all reads = true := by decide +kernel

theorem test_decode_shares : [
    (8, 0x11030000A0400301, .sadd { z with d := 4, a := 5, c := 6, t := 0x11 }),
    (8, 0x31030000A0400305, .ssub { z with d := 4, a := 5, c := 6, t := 0x11, m := 1 }),
    (8, 0x11FF0040A0400309, .smulk { z with d := 4, a := 5, b := 1, c := 0x1FE, t := 0x11 }),
    (8, 0x1101800040A0030D, .smask { z with d := 0xA, a := 2, c := 3, t := 0x11 }),
    (8, 0x1100000157100311, .sxch { z with d := 0x171, a := 0xA, t := 0x11 }),
    (8, 0x12000080A0400315, .sfin { z with d := 4, a := 5, b := 2, t := 0x12 }),
    (8, 0x11080000A0400319, .strn { z with d := 4, a := 5, c := 0x10, t := 0x11 }),
    (8, 0x12030000A040031D, .sxor { z with d := 4, a := 5, c := 6, t := 0x12 }),
    (8, 0x11000000A0400321, .sdab { z with d := 4, a := 5, t := 0x11 }),
    (8, 0x11B90000A0400325, .srev { z with d := 4, a := 5, c := 0x172, t := 0x11 })].all reads = true := by decide +kernel

theorem test_decode_peers : [
    (8, 0x1508010240800341, .pst { z with d := 8, a := 0x12, b := 4, c := 0x10, t := 0x15 }),
    (8, 0x0404010280600345, .psig { z with d := 6, a := 0x14, b := 4, c := 8, t := 0x04 }),
    (8, 0x0404012110600349, .pwait { z with d := 0x106, a := 0x108, b := 4, c := 8, t := 0x04 }),
    (8, 0x000001024000034D, .spawn { z with a := 0x12, b := 4 }),
    (8, 0x0000010257300351, .launch { z with d := 0x173, a := 0x12, b := 4 }),
    (8, 0x0000168240800355, .tagget { z with d := 8, a := 0x12, b := 0x5A }),
    (8, 0x0002268240800359, .tagset { z with d := 8, a := 0x12, b := 0x9A, c := 4 })].all reads = true := by decide +kernel

theorem test_decode_system : [
    (8, 0x0003800000008B81, .trap { z with g := true, pred := 2, c := 7 }),
    (8, 0x0000000000000385, .rte z),
    (8, 0x0000030000800389, .csrr { z with d := 8, b := 0xC }),
    (8, 0x000300C00000038D, .csrw { z with b := 3, c := 6 }),
    (8, 0x007F800000000391, .bkpt { z with c := 0xFF })].all reads = true := by decide +kernel

theorem test_decode_compact : [
    (4, 0x05040308, .addC32 { d := 0x03, a := 0x04, b := 0x05 }),
    (4, 0xFC03030C, .addImmC32 { d := 0x03, a := 0x03, b := 0xFC }),
    (4, 0x05040310, .subC32 { d := 0x03, a := 0x04, b := 0x05 }),
    (4, 0x05040314, .andC32 { d := 0x03, a := 0x04, b := 0x05 }),
    (4, 0x05040318, .orC32 { d := 0x03, a := 0x04, b := 0x05 }),
    (4, 0x0504031C, .xorC32 { d := 0x03, a := 0x04, b := 0x05 }),
    (4, 0x1F040320, .shlC32 { d := 0x03, a := 0x04, b := 0x1F }),
    (4, 0xFF040324, .shrC32 { d := 0x03, a := 0x04, b := 0xFF }),
    (4, 0x00040304, .movC32 { d := 0x03, a := 0x04, b := 0x00 }),
    (4, 0x05040328, .faddC32 { d := 0x03, a := 0x04, b := 0x05 }),
    (4, 0x0504032C, .fmulC32 { d := 0x03, a := 0x04, b := 0x05 }),
    (4, 0x00000030, .exitC32 { d := 0x00, a := 0x00, b := 0x00 }),
    (4, 0x00000034, .fuseC32 { d := 0x00, a := 0x00, b := 0x00 }),
    (4, 0x00000038, .retC32 { d := 0x00, a := 0x00, b := 0x00 }),
    (4, 0x00000000, .nopC32 { d := 0x00, a := 0x00, b := 0x00 }),
    (4, 0xFFFFFE3C, .braC32 0xFFFFFE)].all reads = true := by decide +kernel

/-! ## Ill-formed terms (R88) -/

/-- Is an instruction of thread code refused under a name? -/
def refused (r : Reject) (i : Instr) : Bool := decide (checkInstr Ctx.thread i = some r)

def scribeCtx : Ctx := { scribe := true, bound := 0 }

theorem test_refused_truncated : decode Ctx.thread (natBytes 4 0x00200001) = .error .truncated := by decide +kernel
theorem test_refused_opcode : decode Ctx.thread (natBytes 8 (0x5F * 4 + 1)) = .error .opcode := by decide +kernel
theorem test_refused_format : refused .format (.mov { z with d := 1, ext := .wide 0 }) = true := by decide +kernel
theorem test_refused_literal : refused .literal (.add { z with d := 1, t := 1, ext := .lit 7 }) = true := by decide +kernel
theorem test_refused_guard : refused .guard (.add { z with d := 1, t := 1, n := true }) = true := by decide +kernel
theorem test_refused_lookahead : refused .lookahead (.add { z with d := 1, t := 1, la := 3 }) = true := by decide +kernel
theorem test_refused_operand : refused .operand (.add { z with d := 0x150, t := 1 }) = true := by decide +kernel
theorem test_refused_pair : refused .pairOdd (.add { z with d := 1, t := 3 }) = true := by decide +kernel
theorem test_refused_type : refused .type (.add { z with d := 1, t := 0x0A }) = true := by decide +kernel
theorem test_refused_modifier : refused .modifier (.add { z with d := 1, t := 1, m := 1 }) = true := by decide +kernel
theorem test_refused_immediate : refused .immediate (.trap { z with c := 0x100 }) = true := by decide +kernel
theorem test_refused_nonzero : refused .nonzero (.not { z with d := 1, a := 2 }) = true := by decide +kernel
theorem test_refused_scribe : checkInstr scribeCtx (.fadd { z with d := 0x150, a := 0x151, c := 0x152, t := 0x0A }) = some .scribe := by decide +kernel
theorem test_refused_well_formed : (Instr.add { z with d := 1, t := 1, m := 1 }).wellFormed Ctx.thread = false := by decide +kernel

/-! ## States in which an instruction stands next -/

/-- A device whose stroke, or whose scribe context, is about to issue an instruction: in handler mode, with p2 and p3 set. -/
def ready (i : Instr) : State :=
  (withCode State.reset (onScribe i) ((encode i).getD [])).modStroke 0 (fun st => { st with
    handler := true, regs := { st.regs with p := [(2, allLanes), (3, allLanes)] } })

/-- The same for an instruction of scribe code. -/
def readyCtx (i : Instr) : State := withCode State.reset true ((encode i).getD [])

/-- Is an instruction one where it stands, does it issue in a state, and are its operands as ok says? -/
def meets (s : State) (i : Instr) (ok : State → Env → Bool) : Bool := match issued s i with
  | some q => (checkInstr q.ctx i).isNone && ok q.t q.y
  | none => false

/-- Does an instruction issue where it stands? -/
def issues (i : Instr) : Bool := meets (ready i) i (fun _ _ => true)

/-- A v register set lane by lane, an s register, a k register, bytes of a memory. -/
def vr (r : Nat) (g : Nat → Nat) (s : State) : State := s.modStroke 0 (fun st => { st with regs := { st.regs with
  v := st.regs.v ++ (List.range 32).map (fun l => (32 * r + l, BitVec.ofNat 32 (g l))) } })
def sr (r v : Nat) (s : State) : State :=
  s.modStroke 0 (fun st => { st with regs := { st.regs with s := (r, BitVec.ofNat 32 v) :: st.regs.s } })
def kr (r v : Nat) (s : State) : State := s.modCtx 0 (fun c => { c with k := (r, BitVec.ofNat 64 v) :: c.k })
def fr (r : Nat) (v : Fut) (s : State) : State := s.modStroke 0 (fun st => { st with regs := { st.regs with f := (r, v) :: st.regs.f } })
def bytesAt (k : Home) (a : Nat) (bs : List Byte) (s : State) : State := writeBytes s { home := k, addr := a } bs
def vtag (r : Nat) (t : BitVec 2) (s : State) : State := s.modStroke 0 (fun st => { st with regs := { st.regs with
  tag := st.regs.tag ++ (List.range 32).map (fun l => (32 * r + l, t)) } })
def group0 (g : Group → Group) (s : State) : State := s.modGroup 0 g
def lanes0 (g : Nat → Lane → Lane) (s : State) : State := s.modStroke 0 (fun st => { st with lanes := st.lanes.mapIdx g })
def helpers (s : State) : State := lanes0 (fun _ y => { y with helper := true }) s
def baton0 (b : Option Nat) (s : State) : State := s.modCore 0 (fun c => { c with baton := b })
def isOk {e a : Type} : Except e a → Bool
  | .ok _ => true
  | .error _ => false
def okWith {e a : Type} (p : a → Bool) : Except e a → Bool
  | .ok x => p x
  | .error _ => false
def first (x : Env) : Nat := (lowest x.act).getD 0

/-! ## Every instruction issues somewhere, statement by statement -/

theorem test_issues_integer_arithmetic_is_exact_then_in_range : [
    .add { z with d := 8, a := 0x11, b := 3, c := 0x1FF, t := 0x01 },
    .addC32 { d := 0x03, a := 0x04, b := 0x05 },
    .addImmC32 { d := 0x03, a := 0x03, b := 0xFC },
    .sub { z with d := 8, a := 0x11, c := 0x1A, t := 0x07 },
    .subC32 { d := 0x03, a := 0x04, b := 0x05 },
    .mul { z with d := 8, a := 0x11, c := 0x1A, t := 0x08 },
    .mulh { z with d := 8, a := 0x11, c := 0x1A, t := 0x02 },
    .mad { z with d := 8, a := 0x11, b := 0x1A, c := 0x1D, t := 0x02 },
    .min { z with d := 8, a := 0x11, c := 0x1A, t := 0x09 },
    .max { z with d := 8, a := 0x11, c := 0x1A, t := 0x06 },
    .abs { z with d := 8, c := 0x1A, t := 0x01 },
    .neg { z with d := 8, c := 0x1A, t := 0x08 }].all issues = true := by decide +kernel

theorem test_issues_logic_shifts_and_rotations : [
    .and { z with d := 8, a := 0x11, c := 0x1A },
    .andC32 { d := 0x03, a := 0x04, b := 0x05 },
    .or { z with d := 8, a := 0x11, c := 0x1A, t := 0x14 },
    .orC32 { d := 0x03, a := 0x04, b := 0x05 },
    .xor { z with d := 8, a := 0x11, c := 0x1A, t := 0x13 },
    .xorC32 { d := 0x03, a := 0x04, b := 0x05 },
    .andn { z with d := 8, a := 0x11, c := 0x1A },
    .not { z with d := 8, c := 0x1A },
    .shl { z with d := 8, a := 0x11, c := 0x1A },
    .shlC32 { d := 0x03, a := 0x04, b := 0x1F },
    .shr { z with d := 8, a := 0x11, c := 0x1A, t := 0x02 },
    .shrC32 { d := 0x03, a := 0x04, b := 0xFF },
    .sha { z with d := 8, a := 0x11, c := 0x1A, t := 0x01 },
    .rot { z with d := 8, a := 0x11, c := 0x1A }].all issues = true := by decide +kernel

theorem test_issues_bit_fields_and_counts : [
    .bfe { z with d := 8, a := 0x11, b := 0x1A, c := 0x1D, t := 0x01 },
    .bfi { z with d := 8, a := 0x11, b := 0x1A, c := 0x1D },
    .popc { z with d := 8, c := 0x1A },
    .clz { z with d := 8, c := 0x1A, t := 0x05 },
    .brev { z with d := 8, c := 0x1A }].all issues = true := by decide +kernel

theorem test_issues_compare_address_dot_and_permute : [
    .cmp { z with d := 0x142, a := 0x11, c := 0x1A, t := 0x01, m := 3 },
    .lea { z with d := 8, a := 0x12, b := 0x18, c := 0x1B, t := 0x04 },
    .dot4 { z with d := 8, a := 0x11, b := 0x1A, c := 0x1D, t := 0x08, m := 1 },
    .prmt { z with d := 8, a := 0x11, b := 0x1A, c := 0x1D }].all issues = true := by decide +kernel

theorem test_issues_select_writes_a_or_b : [
    .sel { z with d := 8, a := 0x11, b := 0x1A, c := 0x143 }].all issues = true := by decide +kernel

theorem test_issues_move_copies_value_and_tag : [
    .mov { z with d := 1, c := 0x1FF, ext := .lit 0x3F800000 },
    .movC32 { d := 0x03, a := 0x04, b := 0x00 }].all issues = true := by decide +kernel

theorem test_issues_division_rounds_toward_zero : [
    .div { z with d := 8, a := 0x11, c := 0x1A, t := 0x01 },
    .rem { z with d := 8, a := 0x11, c := 0x1A, t := 0x02 }].all issues = true := by decide +kernel

theorem test_issues_float_arithmetic_rounds_once : [
    .fadd { z with d := 8, a := 0x11, c := 0x1A, t := 0x0A, m := 2 },
    .faddC32 { d := 0x03, a := 0x04, b := 0x05 },
    .fsub { z with d := 8, a := 0x11, c := 0x1A, t := 0x0C, m := 1 },
    .fmul { z with d := 8, a := 0x11, c := 0x1A, t := 0x0B, m := 3 },
    .fmulC32 { d := 0x03, a := 0x04, b := 0x05 },
    .ffma { z with g := true, pred := 3, d := 0xA, a := 0xB, b := 0xC, c := 0xD, t := 0x0A },
    .fscl { z with d := 8, a := 0x11, b := 1, c := 0x1FE, t := 0x0A, m := 4 },
    .fdot2 { z with la := 1, d := 8, a := 0x11, b := 0x1A, c := 0x1D, t := 0x0C }].all issues = true := by decide +kernel

theorem test_issues_absolute_and_negate_touch_sign_bits_only : [
    .fabs { z with d := 8, c := 0x1A, t := 0x0A },
    .fneg { z with d := 8, c := 0x1A, t := 0x0B }].all issues = true := by decide +kernel

theorem test_issues_float_min_max_compare_and_class : [
    .fmin { z with d := 8, a := 0x11, c := 0x1A, t := 0x0A },
    .fmax { z with d := 8, a := 0x11, c := 0x1A, t := 0x0B },
    .fcmp { z with d := 0x144, a := 0x11, c := 0x1A, t := 0x0A, m := 5 },
    .fclass { z with d := 8, c := 0x1A, t := 0x0C }].all issues = true := by decide +kernel

theorem test_issues_special_functions_and_their_cases : [
    .frcp { z with d := 8, c := 0x1A, t := 0x0A },
    .frsq { z with d := 8, c := 0x1A, t := 0x0A },
    .fsqrt { z with d := 8, c := 0x1A, t := 0x0B },
    .fexp2 { z with d := 8, c := 0x1A, t := 0x0C },
    .flog2 { z with d := 8, c := 0x1A, t := 0x0A },
    .fsin { z with d := 8, c := 0x1A, t := 0x0A },
    .fcos { z with d := 8, c := 0x1A, t := 0x0A },
    .ftanh { z with d := 8, c := 0x1A, t := 0x0A }].all issues = true := by decide +kernel

theorem test_issues_conversions_give_the_converted_value : [
    .cvt { z with d := 8, a := 0x183, b := 0x50, c := 0x1A, t := 0x0C, m := 5 },
    .pack2 { z with d := 8, a := 0x11, b := 0x18, c := 0x1A, t := 0x0B, m := 5 },
    .dqn4 { z with d := 8, a := 0x110, t := 0x10 },
    .qnt4 { z with d := 0x108, a := 0x11, b := 2, t := 0x0F }].all issues = true := by decide +kernel

theorem test_issues_predicate_operations : [
    .plop { z with d := 0x141, a := 0x142, b := 0x143, m := 2 }].all issues = true := by decide +kernel

theorem test_issues_predicate_moves_and_votes : [
    .pmov { z with d := 0x105, a := 0x146 },
    .vote { z with d := 0x141, a := 0x142, m := 1 }].all issues = true := by decide +kernel

theorem test_issues_exchanges_read_other_lanes : [
    .shfl { z with d := 8, a := 0x11, b := 1, c := 3, m := 2 },
    .qxch { z with d := 8, a := 0x11, b := 1, c := 2, m := 3 },
    .spcmp { z with d := 8, a := 0x11, b := 0x1A, t := 0x0A },
    .spexp { z with d := 8, a := 0x11, b := 0x1A, t := 0x0C }].all issues = true := by decide +kernel

theorem test_issues_reductions_and_scans : [
    .red { z with d := 8, a := 0x11, t := 0x0A, m := 1 },
    .scan { z with d := 8, a := 0x11, b := 1, t := 0x02, m := 2 },
    .redx { z with d := 8, a := 0x11, b := 1, c := 5, t := 0x01, m := 1 }].all issues = true := by decide +kernel

theorem test_issues_branches_calls_and_returns : [
    .bra { g := true, n := false, pred := 2, la := 0, d := 0, off := -4 },
    .braC32 0xFFFFFE,
    .brm { z with d := 0x23, a := 0x25, ext := .wide 0xFFF00004 },
    .jmpi { z with a := 0x12 },
    .calli { z with a := 0x106 },
    .call { g := true, n := false, pred := 2, la := 0, d := 0, off := 0x100 },
    .ret z,
    .retC32 { d := 0x00, a := 0x00, b := 0x00 }].all issues = true := by decide +kernel

theorem test_issues_exit_and_fuse : [
    .exit { z with g := true, n := true, pred := 5 },
    .exitC32 { d := 0x00, a := 0x00, b := 0x00 },
    .fuse { z with b := 1, c := 0x1F },
    .fuseC32 { d := 0x00, a := 0x00, b := 0x00 }].all issues = true := by decide +kernel

theorem test_issues_nop_only_moves_on_and_yield_leaves_the_active_set : [
    .nop z,
    .nopC32 { d := 0x00, a := 0x00, b := 0x00 },
    .yield z].all issues = true := by decide +kernel

theorem test_issues_barriers_end_when_all_have_arrived : [
    .bar { z with c := 9, m := 1 }].all issues = true := by decide +kernel

theorem test_issues_baton_cues_and_memory_waits : [
    .btake z,
    .bgive z,
    .cue { z with b := 7, c := 7 },
    .wcue { z with b := 0xB, c := 6 },
    .waitm { z with a := 0x108, b := 4, c := 0x10A, t := 0x04, m := 5 }].all issues = true := by decide +kernel

theorem test_issues_addresses_are_formed_and_checked : [
    .ld { z with d := 4, a := 0x14, b := 0x64, c := 0x40, t := 0x01 },
    .st { z with d := 8, a := 0x11, c := 0x1FC, t := 0x0A },
    .fxadd { z with d := 8, a := 0x12, b := 4, c := 4, t := 0x0A }].all issues = true := by decide +kernel

theorem test_issues_loads_give_what_the_stroke_sees : [
    .fxrd { z with d := 8, a := 0x12, b := 2, c := 8, t := 0x0A },
    .tagget { z with d := 8, a := 0x12, b := 0x5A },
    .vsw { z with d := 8, a := 0x104, b := 4, c := 0x1F0, m := 1, ext := .wide 0x20001004 }].all issues = true := by decide +kernel

theorem test_issues_stores_enter_the_fifo_in_lane_order : [
    .fxclr { z with a := 0x12, b := 3, c := 0xC },
    .tagset { z with d := 8, a := 0x12, b := 0x9A, c := 4 }].all issues = true := by decide +kernel

theorem test_issues_atomics_go_to_their_units : [
    .atom { z with d := 8, a := 0x12, b := 0xE4, c := 0x1A, t := 0x01, m := 1 },
    .cas { z with d := 8, a := 0x12, b := 3, c := 0x1A }].all issues = true := by decide +kernel

theorem test_issues_fences_presence_and_closing : [
    .fence { z with b := 0x20 },
    .pset { z with a := 0x12 },
    .parm { z with a := 0x12, c := 0x10 },
    .ptest { z with d := 0x141, a := 0x12, c := 0x20 },
    .sclose { z with c := 1 }].all issues = true := by decide +kernel

theorem test_issues_tile_rows_are_loaded_and_stored : [
    .ldt { z with d := 8, a := 0x104, b := 2, c := 6, t := 0x0A, m := 1 },
    .stt { z with d := 8, a := 0x104, b := 0xA4, c := 0xC6, t := 0x0C, m := 4 }].all issues = true := by decide +kernel

theorem test_issues_futures_are_waited_for_and_moved : [
    .fwait { z with a := 0x172 },
    .ftst { z with d := 0x143, a := 0x172 },
    .fpass { z with a := 0x172, c := 9 },
    .ftake { z with d := 0x175, c := 9 }].all issues = true := by decide +kernel

theorem test_issues_work_is_enqueued_and_withdrawn : [
    .fcan { z with a := 0x177 },
    .spawn { z with a := 0x12, b := 4 },
    .launch { z with d := 0x173, a := 0x12, b := 4 }].all issues = true := by decide +kernel

theorem test_issues_copies_and_tile_products_are_entered : [
    .cpy { z with d := 0x158, a := 0x155, b := 0x156, c := 0x89 },
    .cpyr { z with d := 0x158, a := 0x155, b := 0x156, c := 9, m := 2, ext := .wide 0x8 },
    .cpyt { z with d := 0x158, a := 0x155, b := 0x156, c := 4, ext := .wide 0xA },
    .cpym { z with d := 0x154, a := 0x152, b := 0x151, c := 3, ext := .wide 0x3 },
    .ccan { z with a := 0x154 },
    .mms { z with d := 0x160, a := 0x15E, b := 0x15F, ext := .wide 0x100 }].all issues = true := by decide +kernel

theorem test_issues_banks_are_allocated_zeroed_and_granted : [
    .aalloc { z with d := 8, b := 1, c := 2 },
    .afree { z with b := 9, c := 2 },
    .azero { z with b := 9, c := 2 },
    .agrant { z with a := 3, b := 9, c := 2, m := 1 }].all issues = true := by decide +kernel

theorem test_issues_accumulator_rows_move : [
    .ald { z with d := 8, b := 0x40, c := 0x116, t := 0x0A, m := 2 },
    .ast { z with d := 8, b := 2, c := 0x1A }].all issues = true := by decide +kernel

theorem test_issues_rounds_are_declared_signed_and_discarded : [
    .cvset { z with d := 0x178, b := 1, c := 0xF },
    .cvrst { z with d := 0x17B },
    .mmr { z with a := 0x10, b := 0x18, c := 0x178, t := 0x0C, ext := .wide 0x2040C }].all issues = true := by decide +kernel

theorem test_issues_summaries_fold_merge_and_answer : [
    .sminit { z with a := 0x108, c := 1, t := 0x0A },
    .rqs { z with a := 0x108, c := 6, t := 0x0A },
    .rhh { z with a := 0x108, b := 2, c := 6, t := 0x05 },
    .rdc { z with a := 0x108, c := 6 },
    .smrg { z with a := 0x108, b := 0x10, c := 0x109 },
    .sqnt { z with d := 4, a := 0x108, c := 6, t := 0x0A },
    .sest { z with d := 4, a := 0x108, t := 0x0A },
    .shhq { z with d := 4, a := 0x108, c := 6 }].all issues = true := by decide +kernel

theorem test_issues_shares_are_computed_locally : [
    .sadd { z with d := 4, a := 5, c := 6, t := 0x11 },
    .ssub { z with d := 4, a := 5, c := 6, t := 0x11, m := 1 },
    .smulk { z with d := 4, a := 5, b := 1, c := 0x1FE, t := 0x11 },
    .sxor { z with d := 4, a := 5, c := 6, t := 0x12 },
    .sfin { z with d := 4, a := 5, b := 2, t := 0x12 },
    .strn { z with d := 4, a := 5, c := 0x10, t := 0x11 },
    .sdab { z with d := 4, a := 5, t := 0x11 }].all issues = true := by decide +kernel

theorem test_issues_shares_are_masked_and_exchanged : [
    .smask { z with d := 0xA, a := 2, c := 3, t := 0x11 },
    .sxch { z with d := 0x171, a := 0xA, t := 0x11 },
    .srev { z with d := 4, a := 5, c := 0x172, t := 0x11 }].all issues = true := by decide +kernel

theorem test_issues_peer_stores_and_signals : [
    .pst { z with d := 8, a := 0x12, b := 4, c := 0x10, t := 0x15 },
    .psig { z with d := 6, a := 0x14, b := 4, c := 8, t := 0x04 },
    .pwait { z with d := 0x106, a := 0x108, b := 4, c := 8, t := 0x04 }].all issues = true := by decide +kernel

theorem test_issues_traps_enter_the_handler_and_return : [
    .trap { z with g := true, pred := 2, c := 7 },
    .bkpt { z with c := 0xFF },
    .rte z].all issues = true := by decide +kernel

theorem test_issues_control_registers_are_read_and_written : [
    .csrr { z with d := 8, b := 0xC },
    .csrw { z with b := 3, c := 6 }].all issues = true := by decide +kernel

/-! ## Operands that meet the conditions of the statements -/

theorem test_meets_range : (tyIN.contains .i8 && decide (Ty.i8.least = -128) && decide (Ty.i8.greatest = 127) &&
    decide (Ty.i8.fit true (-129) = 0xFFFFFF80) && decide (Ty.i8.fit false 128 = 0xFFFFFF80)) = true := by decide +kernel

theorem test_meets_select : (checkInstr Ctx.thread (.sel z) = none) ∧ (Opnd.ofCode 0x143).kind = .p ∧ Opnd.ofCode 0x143 = .p 3 := by decide +kernel

def movIn : Fields := { z with d := 1, c := 2 }
def movOut : Fields := { z with d := 0x101, c := 0x102 }
theorem test_meets_move : [
    meets (vtag 2 1 (ready (.mov movIn))) (.mov movIn) (fun _ x => movTagged x == 0 && x.pops.isEmpty && x.lanes.contains 31),
    meets (vtag 2 3 (ready (.mov movIn))) (.mov movIn) (fun _ x => movTagged x != 0),
    meets (vtag 2 1 (ready (.movC32 { d := 3, a := 2, b := 0 }))) (.movC32 { d := 3, a := 2, b := 0 }) (fun _ x => movTagged x == 0),
    meets (vtag 2 3 (ready (.movC32 { d := 3, a := 2, b := 0 }))) (.movC32 { d := 3, a := 2, b := 0 }) (fun _ x => movTagged x != 0),
    meets (ready (.mov movOut)) (.mov movOut) (fun _ x => movTagged x == 0)].all id = true := by decide +kernel

theorem test_meets_rounding : (packFin .f32 .rne false 2 false false 1 0).2 &&& flagOF = 0 ∧
    (packFin .f32 .rdn false 2 false true 0x1000001 (-150)).2 &&& flagOF = 0 ∧ 0 ≤ Fmt.f32.largest := by decide +kernel

/-- 2^20 overflows f16, and 1 does not; 4 is in its block the value of the largest magnitude, 2^2 to 2^3. -/
theorem test_meets_overflow : overflows .f16 .rne false (Num.fin false 1 20).rat ∧ ¬ overflows .f16 .rne false (Num.fin false 1 0).rat := by
  have hb : (unpack .f16 (Fmt.largest .f16)).rat = 2047 * 2 ^ (5 : ℤ) := by
    have : unpack .f16 (Fmt.largest .f16) = .fin false 2047 5 := by decide +kernel
    rw [this]; norm_num [Num.rat]
  have hl : (unpack .f16 (Fmt.largest .f16 - 1)).rat = 2046 * 2 ^ (5 : ℤ) := by
    have : unpack .f16 (Fmt.largest .f16 - 1) = .fin false 2046 5 := by decide +kernel
    rw [this]; norm_num [Num.rat]
  have ho : Fmt.largest .f16 % 2 = 1 := by decide +kernel
  constructor <;> simp only [overflows, hb, hl, ho] <;> norm_num [Num.rat]
theorem test_meets_block_scale : (2 : ℚ) ^ ((0 : ℤ) + 2) ≤ |(Num.fin false 1 2).rat| ∧ |(Num.fin false 1 2).rat| < (2 : ℚ) ^ ((0 : ℤ) + 3) ∧
    (Num.fin false 1 2).isFin = true ∧ Ty.f32.fmt? = some .f32 ∧ Ty.f16.fmt? = some .f16 ∧ (tyIN.contains .i8) = true ∧ (Num.nan true).isNan = true := by
  refine ⟨?_, ?_, rfl, rfl, rfl, rfl, rfl⟩ <;> norm_num [Num.rat]

theorem test_meets_classes : 0x7F800000 < 2 ^ (Fmt.f32.top + 1) ∧ fclassNat .f32 0x7F800000 = 128 ∧ fclassNat .f32 0x80000000 = 8 := by decide +kernel

def cvt0 : Fields := { z with d := 8, b := 0x50, c := 0x1A, t := 0x0C }
def cvt5 : Fields := { cvt0 with a := 0x183, m := 5 }
def pack0 : Fields := { z with d := 8, a := 0x11, c := 0x1A, t := 0x0B }
theorem test_meets_conversions : [
    meets (ready (.cvt cvt0)) (.cvt cvt0) (fun _ x => x.f.m != 5), meets (ready (.cvt cvt5)) (.cvt cvt5) (fun _ x => x.f.m == 5),
    meets (ready (.pack2 pack0)) (.pack2 pack0) (fun _ x => x.f.m != 5),
    meets (ready (.pack2 { pack0 with b := 0x18, m := 5 })) (.pack2 { pack0 with b := 0x18, m := 5 }) (fun _ x => x.f.m == 5),
    !notFinite .f16 (efRound .f16 false 2 0x3F800001 0).1, notFinite .e5m2 (efRound .e5m2 false 2 0x7F800000 0).1].all id = true := by decide +kernel

def pmovIn : Fields := { z with d := 0x142, a := 0x105 }
def pmovOut : Fields := { z with d := 0x105, a := 0x142 }
theorem test_meets_predicates : [
    meets (ready (.pmov pmovOut)) (.pmov pmovOut) (fun _ x => (Opnd.ofCode x.f.d).kind == .s),
    meets (ready (.pmov pmovIn)) (.pmov pmovIn) (fun _ x => (Opnd.ofCode x.f.d).kind == .p)].all id = true := by decide +kernel

def pr (i : Nat) (m : Mask) (s : State) : State := s.modStroke 0 (fun st => { st with regs := { st.regs with p := mapPut st.regs.p i m } })
def laneTag (r l : Nat) (s : State) : State := s.modStroke 0 (fun st => { st with regs := { st.regs with tag := (32 * r + l, 1) :: st.regs.tag } })
def shfl1 : Fields := { z with g := true, pred := 2, d := 8, a := 0x11, c := 0x1A, m := 0 }
def qxch1 : Fields := { z with g := true, pred := 2, d := 8, a := 0x11, m := 0 }
def spcmp1 : Fields := { z with d := 8, a := 0x11, b := 0x1A, t := 0x0A }
theorem test_meets_exchanges : [
    meets (ready (.shfl shfl1)) (.shfl shfl1) (fun _ x => x.lanes.contains 31 && x.regs.tagGet 0x11 0 == 0 && !x.regs.poisGet 0x11 0),
    meets (laneTag 0x11 0 (pr 2 0xFFFFFFFE (ready (.shfl shfl1)))) (.shfl shfl1) (fun _ x => x.regs.tagGet 0x11 0 != 0 && x.lanes.contains 31),
    meets (ready (.qxch qxch1)) (.qxch qxch1) (fun _ x => x.lanes.contains 31 && x.regs.tagGet 0x11 30 == 0),
    meets (laneTag 0x11 0 (pr 2 0xFFFFFFFE (ready (.qxch qxch1)))) (.qxch qxch1) (fun _ x => x.lanes.contains 1 && x.regs.tagGet 0x11 0 != 0),
    meets (ready (.spcmp spcmp1)) (.spcmp spcmp1) (fun _ x => x.lanes.all (fun l => x.regs.tagGet 0x11 l == 0 && !x.regs.poisGet 0x11 l)),
    meets (ready (.spexp spcmp1)) (.spexp spcmp1) (fun _ x => x.lanes.all (fun l => x.regs.tagGet 0x11 l == 0 && x.regs.tagGet 0x1A l == 0))].all
    id = true := by decide +kernel

theorem test_meets_reductions : meets (ready (.scan { z with d := 8, a := 0x11, b := 1, t := 2, m := 2 })) (.scan { z with d := 8, a := 0x11, b := 1, t := 2, m := 2 })
    (fun s x => x.ty != .f32 && (contributed x s 2).length == 32) = true := by decide +kernel

def rets (n : Nat) (s : State) : State := lanes0 (fun _ y => { y with ret := List.replicate n 0x88 }) s
def astray (s : State) : State := lanes0 (fun _ y => { y with ret := [0x8A] }) s
def call1 : Instr := .call { g := false, n := false, pred := 0, la := 0, d := 0, off := 0x100 }
theorem test_meets_branches : [
    meets (ready (.jmpi { z with a := 0x12 })) (.jmpi { z with a := 0x12 }) (fun s x => opA s x 31 % 4 == 0),
    meets (vr 0x12 (fun l => l) (ready (.jmpi { z with a := 0x12 }))) (.jmpi { z with a := 0x12 }) (fun s x => opA s x 31 % 4 != 0),
    meets (vr 0x12 (fun l => l) (ready (.calli { z with a := 0x12 }))) (.calli { z with a := 0x12 }) (fun s x => opA s x 31 % 4 != 0),
    meets (rets 7 (ready call1)) call1 (fun s _ => (laneOf s 0 31).ret.length < 8),
    meets (ready (.calli { z with a := 0x12 })) (.calli { z with a := 0x12 }) (fun s x => x.lanes.all (fun l => opA s x l % 4 == 0)),
    meets (rets 8 (ready call1)) call1 (fun s x => 8 ≤ (laneOf s 0 31).ret.length && (x.group s).stack / 8 ≤ (laneOf s 0 31).spilled),
    meets (rets 1 (ready (.ret z))) (.ret z) (fun s x => x.lanes.all (fun l => popAddr s 0 (x.group s) l == some 0x88)),
    meets (rets 1 (ready (.retC32 { d := 0, a := 0, b := 0 }))) (.retC32 { d := 0, a := 0, b := 0 }) (fun s x =>
      x.lanes.all (fun l => popAddr s 0 (x.group s) l == some 0x88)),
    meets (ready (.ret z)) (.ret z) (fun s x => popAddr s 0 (x.group s) 31 == none),
    meets (ready (.retC32 { d := 0, a := 0, b := 0 })) (.retC32 { d := 0, a := 0, b := 0 }) (fun s x => popAddr s 0 (x.group s) 31 == none),
    meets (astray (ready (.ret z))) (.ret z) (fun s x => x.lanes.all (fun l => popAddr s 0 (x.group s) l == some 0x8A)),
    meets (astray (ready (.retC32 { d := 0, a := 0, b := 0 }))) (.retC32 { d := 0, a := 0, b := 0 }) (fun s x =>
      x.lanes.all (fun l => popAddr s 0 (x.group s) l == some 0x8A)),
    meets (rets 8 (ready (.calli { z with a := 0x12 }))) (.calli { z with a := 0x12 }) (fun s x => 8 ≤ (laneOf s 0 31).ret.length &&
      (x.group s).stack / 8 ≤ (laneOf s 0 31).spilled && x.lanes.all (fun l => opA s x l % 4 == 0))].all id = true := by decide +kernel

theorem test_meets_exit_and_fuse : (ready (.exit z)).stroke? 0 ≠ none ∧
    (((ready (.exit z)).stroke? 0).any (fun a => decide (liveMask a &&& ~~~ 1 ≠ 0) && decide (a.lanes.length = 32))) = true := by decide +kernel

theorem test_meets_barriers : ((ready (.bar { z with m := 1, c := 9 })).group? 0).isSome = true ∧ (strokesOf (ready (.bar z)) 0).contains 0 = true := by
  decide +kernel

def holder (s : State) (x : Env) : Bool := decide ((s.core x.core).baton = some (slotOf x.grp))
def asking (s : State) (x : Env) : State :=
  batonGrant (s.modCore x.core (fun c => { c with request := c.request ||| BitVec.ofNat 8 (2 ^ slotOf x.grp) })) x.core
def wcue1 : Fields := { z with b := 0x0B, c := 6 }
def waitm1 : Fields := { z with a := 0x108, c := 0x10A, t := 4, m := 5 }
def absent (line : Nat) (s : State) : State := s.setPresent line false
def marks (f : MemSys → MemSys) (s : State) : State := { s with mem := f s.mem }
def reachWaitm (s : State) (x : Env) : Bool := isOk (checkAll s (x.who s) { space := spaceOf x.f, spaces := [.U, .C, .D, .G], size := x.ty.size, align := x.ty.size, acc := .load }
  [(first x, opA s x (first x))])
theorem test_meets_baton_and_waits : [
    meets (baton0 (some 0) (ready (.btake z))) (.btake z) holder,
    meets (ready (.btake z)) (.btake z) (fun s x => !holder s x && holder (asking s x) x),
    meets (baton0 (some 1) (ready (.btake z))) (.btake z) (fun s x => !holder s x && !holder (asking s x) x),
    meets (baton0 (some 0) (ready (.bgive z))) (.bgive z) holder,
    meets (ready (.bgive z)) (.bgive z) (fun s x => !holder s x),
    meets (group0 (fun g => { g with cues := [(5, 6)] }) (ready (.wcue wcue1))) (.wcue wcue1) (fun s x => decide (opC s x 0 ≤ 6)),
    meets (ready (.wcue wcue1)) (.wcue wcue1) (fun s x => decide (0 < opC s x 0)),
    meets (ready (.waitm waitm1)) (.waitm waitm1) (fun s x => reachWaitm s x && (absentLines s { home := .u, addr := 0 } 8).isEmpty),
    meets (sr 0x0A 1 (ready (.waitm waitm1))) (.waitm waitm1) (fun s x => reachWaitm s x && decide (0 < opC s x (first x))),
    meets (absent 0 (ready (.waitm waitm1))) (.waitm waitm1) (fun s x => reachWaitm s x && !(absentLines s { home := .u, addr := 0 } 8).isEmpty),
    meets (marks (fun m => { m with poisU := [(0, true)] }) (ready (.waitm waitm1))) (.waitm waitm1) (fun s x =>
      reachWaitm s x && s.mem.anyPoison { home := .u, addr := 0 } 8)].all id = true := by decide +kernel

/-! ### Memory -/

def ld1 : Fields := { z with a := 0x12, d := 8, t := 1 }
def misaligned (i : Instr) : State := vr 0x12 (fun l => 64 * l + 2) (ready i)
theorem test_meets_addresses : [
    meets (misaligned (.ld ld1)) (.ld ld1) (fun s x => x.lanes.any (fun l => eaOf s x l % x.ty.size != 0)),
    meets (misaligned (.st ld1)) (.st ld1) (fun s x => (x.workers s).any (fun l => eaOf s x l % x.ty.size != 0)),
    meets (misaligned (.fxadd { z with d := 8, a := 0x12, t := 0x0A })) (.fxadd { z with d := 8, a := 0x12, t := 0x0A })
      (fun s x => (x.workers s).any (fun l => eaOf s x l % 64 != 0)),
    meets (ready (.fxadd { z with d := 8, a := 0x12, t := 0x0A })) (.fxadd { z with d := 8, a := 0x12, t := 0x0A })
      (fun s x => !(x.workers s).isEmpty && !([Space.C, .D, .G].contains (spaceOf x.f)))].all id = true ∧
    ((ready (.ld ld1)).group? 0).any (fun gr => decide (0xFFC + 4 ≤ gr.units * 256) && decide (gr.units * 256 < 0x1000 + 4)) = true := by decide +kernel

/-- The same with lanes 0 and 1 alone on the path. -/
def few (s : State) : State := { s with turn := .pathA 0 3 0 [] }
def fifo0 (es : List FifoEntry) (s : State) : State := s.modStroke 0 (fun st => { st with fifo := es })
def ldOk (s : State) (x : Env) : Except (Bad × Mask) (List (Access × Landing)) :=
  checkEach s x (x.want [.U, .P, .C, .D, .G, .H] x.ty.size .load x.ty.share) noBad (x.lanes.map (fun l => (l, eaOf s x l, x.ty.size)))
def fxrd1 : Fields := { z with d := 8, a := 0x12, b := 4, t := 0x0A }
def tagget1 : Fields := { z with d := 8, a := 0x12, b := 0x40 }
def vswLd : Fields := { z with d := 8, a := 0x104, ext := .wide 0x800001004 }
def rows64 (i : Instr) : State := few (vr 0x12 (fun l => 0x9000 + 64 * l) (ready i))
theorem test_meets_loads : [
    meets (few (vr 0x12 (fun l => 4 * l) (ready (.ld ld1)))) (.ld ld1) (fun s x => okWith (fun ls => (absentOf s ls).isEmpty) (ldOk s x)),
    meets (absent 0 (few (vr 0x12 (fun l => 4 * l) (ready (.ld ld1))))) (.ld ld1) (fun s x => okWith (fun ls => !(absentOf s ls).isEmpty) (ldOk s x)),
    meets (absent 1 (few (vr 0x12 (fun l => 128 * l) (ready (.ld { ld1 with d := 0x104 }))))) (.ld { ld1 with d := 0x104 }) (fun s x =>
      okWith (fun ls => (absentOf s (ls.take 1)).isEmpty && !(absentOf s ls).isEmpty) (ldOk s x)),
    meets (fifo0 [.fxadd { home := .u, addr := 0x40 } 0 9] (ready (.nop z))) (.nop z) (fun _ x => x.fifo.any (fun e => e.unitAt.isSome)),
    meets (rows64 (.fxrd fxrd1)) (.fxrd fxrd1) (fun s x => isOk (checkEach s x (x.want [.C, .D, .G] 64 .load) noBad (x.lanes.map (fun l => (l, eaOf s x l, 64))))),
    meets (few (vr 0x12 (fun l => 32 * l) (ready (.tagget tagget1)))) (.tagget tagget1) (fun s x => x.lanes.all (fun l => eaOf s x l % 32 == 0) &&
      okWith (fun ls => (absentOf s ls).isEmpty)
        (checkEach s x { x.want [.U, .C, .D, .G] 4 .load with align := 0 } noBad (x.lanes.map (fun l => (l, eaOf s x l + 20, 4))))),
    meets (few (sr 4 0x280 (ready (.vsw vswLd)))) (.vsw vswLd) (fun s x => okWith (fun ls => (absentOf s ls).isEmpty)
      (checkEach s x (x.want [.U, .C, .D, .G] x.ty.size .load) noBad ((sweep s x x.lanes).map (·.2))))].all id = true := by decide +kernel

/-- A write of the stroke to another core that has not arrived, and words that it has still to push: a release waits for either, a `.rel`
write, which follows what is in the FIFO, for the words. -/
def remote1 : RemoteWrite := { id := 7, part := 0, core := 1, addr := 0x100, data := [1], copy := none, sender := some (.stroke 0), more := [] }
def sent1 : FifoEntry := .remote 1 [(0x100, [1])] 0 (some 7)
def outside (s : State) : State := fifo0 [sent1] { s with remote := [remote1] }
def owing (s : State) : State := { s with resv := [{ ring := { home := .u, addr := 0x300 }, group := 0, stroke := 0, port := 3, start := 0, m := 1, vals := [], ready := false, op := 0 }] }
def waits (s : State) (x : Env) : Bool := accessesOut s x.agent false && decide (x.f.b.toNat / 64 % 4 = 2) && decide (x.f.b.toNat / 8 % 8 = 2)
def releases (s : State) (x : Env) : Bool := releaseWaits (x.released s) x.agent false
def rel (f : Fields) : Fields := { f with b := f.b ||| 0x90 }
def relCtx (f : Fields) : Fields := { f with b := 0x90 }
def stOk (n : Nat) (sp : List Space) (s : State) (x : Env) : Bool :=
  isOk (checkEach s x (x.want sp n .store x.ty.share) noBad ((x.workers s).map (fun l => (l, eaOf s x l, n))))
def tagset1 : Fields := { z with d := 8, a := 0x12, b := 0x84 }
theorem test_meets_stores : [
    meets (few (vr 0x12 (fun l => 4 * l) (ready (.st ld1)))) (.st ld1) (stOk 4 [.U, .P, .C, .D, .G, .H]),
    meets (rows64 (.fxclr { z with a := 0x12, b := 4 })) (.fxclr { z with a := 0x12, b := 4 }) (stOk 64 [.C, .D, .G]),
    meets (owing (few (vr 0x12 (fun l => 4 * l) (ready (.st (rel ld1)))))) (.st (rel ld1)) (fun s x => stOk 4 [.U, .P, .C, .D, .G, .H] s x && waits s x),
    meets (owing (rows64 (.fxclr (rel { z with a := 0x12, b := 4 })))) (.fxclr (rel { z with a := 0x12, b := 4 })) (fun s x => stOk 64 [.C, .D, .G] s x && waits s x),
    meets (owing (rows64 (.tagset (rel tagset1)))) (.tagset (rel tagset1)) (fun s x => isOk (tagPlaces x s (x.workers s) .store) &&
      tagOk (opD s x 1 % 2 ^ 16) && waits s x),
    meets (rows64 (.tagset tagset1)) (.tagset tagset1) (fun s x => isOk (tagPlaces x s (x.workers s) .store) && tagOk (opD s x 1 % 2 ^ 16)),
    meets (vr 8 (fun _ => 31) (rows64 (.tagset tagset1))) (.tagset tagset1) (fun s x =>
      isOk (tagPlaces x s (x.workers s) .store) && !tagOk (opD s x 1 % 2 ^ 16)),
    meets (few (sr 4 0x280 (ready (.vsw { vswLd with m := 1 })))) (.vsw { vswLd with m := 1 }) (fun s x =>
      isOk (checkEach s x (x.want [.U, .C, .D, .G] x.ty.size .store) noBad ((sweep s x (x.workers s)).map (·.2))))].all id = true := by decide +kernel

def here : Loc := { home := .u, addr := 0x40 }
theorem test_meets_drain : fifoOf (fifo0 [.fxclr here] (ready (.nop z))) (.stroke 0) = [.fxclr here] ∧ fifoOf (ready (.nop z)) (.stroke 0) = [] ∧
    fifoOf (ready (.nop z)) (.ctx 0) = [] := by decide +kernel

def atom1 : Fields := { z with d := 8, a := 0x12, c := 0x1A, t := 1 }
def atomCtx : Fields := { z with d := 0x158, a := 0x152, c := 0x15A, t := 1 }
def atomOk (n : Nat) (s : State) (x : Env) : Bool :=
  isOk (checkEach s x (x.want [.U, .P, .C, .D, .G] n .atomic) noBad ((x.workers s).map (fun l => (l, addrPlus (spaceOf x.f) (opA s x l) 0, n))))
theorem test_meets_atomics : [
    meets (few (vr 0x12 (fun l => 4 * l) (ready (.atom atom1)))) (.atom atom1) (fun s x => !x.scribe && atomOk 4 s x),
    meets (few (vr 0x12 (fun l => 4 * l) (ready (.cas { atom1 with t := 0 })))) (.cas { atom1 with t := 0 }) (fun s x => !x.scribe && atomOk 4 s x),
    meets (readyCtx (.atom atomCtx)) (.atom atomCtx) (fun s x => x.scribe && atomOk 4 s x),
    meets (readyCtx (.cas { atomCtx with t := 0 })) (.cas { atomCtx with t := 0 }) (fun s x => x.scribe && atomOk 4 s x),
    meets (rows64 (.fxadd { z with d := 8, a := 0x12, b := 4, t := 0x0A })) (.fxadd { z with d := 8, a := 0x12, b := 4, t := 0x0A }) (fun s x => !x.scribe &&
      isOk (checkEach s x (x.want [.C, .D, .G] 64 .atomic) noBad ((x.workers s).map (fun l => (l, eaOf s x l, 64))))),
    meets (owing (few (vr 0x12 (fun l => 4 * l) (ready (.atom (rel atom1)))))) (.atom (rel atom1)) (fun s x => atomOk 4 s x && waits s x),
    meets (owing (few (vr 0x12 (fun l => 4 * l) (ready (.cas (rel { atom1 with t := 0 })))))) (.cas (rel { atom1 with t := 0 })) (fun s x => atomOk 4 s x && waits s x),
    meets (owing (rows64 (.fxadd (rel { z with d := 8, a := 0x12, b := 4, t := 0x0A })))) (.fxadd (rel { z with d := 8, a := 0x12, b := 4, t := 0x0A })) (fun s x =>
      isOk (checkEach s x (x.want [.C, .D, .G] 64 .atomic) noBad ((x.workers s).map (fun l => (l, eaOf s x l, 64)))) && waits s x),
    (match turnEnv ((ready (.nop z)).modStroke 0 (fun st => { st with inflight := [{ id := 1, lanes := 1, counts := true, la := 15, acq := true }] })) 0x60 ld1 8 with
      | some x => accesses x.opc && x.was.st.inflight.any (·.acq)
      | none => false)].all id = true := by decide +kernel

def ring0 : Binding := { inC := false, lines := 3, offset := 0x180 }
def bound (ctl : List Nat) (s : State) : State :=
  bytesAt .u 0x180 (ctl.flatMap (natBytes 4)) (group0 (fun g => { g with streams := [0x8000000300000180, 0, 0, 0x8000000300000180] }) s)
def sclose1 : Fields := { z with c := 1 }
def pset1 : Fields := { z with a := 0x12 }
theorem test_meets_fences : [
    meets (ready (.fence z)) (.fence z) (fun _ x => x.f.m == 0 && x.f.b == 0),
    meets (outside (ready (.fence { z with b := 0x10 }))) (.fence { z with b := 0x10 }) (fun s x => fifoOf s x.agent == [sent1]),
    meets (ready (.fence { z with b := 8, m := 1 })) (.fence { z with b := 8, m := 1 }) (fun s x => x.f.m == 1 && !releases s x),
    meets (ready (.fence { z with b := 0x28 })) (.fence { z with b := 0x28 }) (fun s x => !releaseWaits (x.released s) x.agent true),
    meets (outside (ready (.fence { z with b := 0x10 }))) (.fence { z with b := 0x10 }) releases,
    meets (outside (ready (.bar { z with c := 9 }))) (.bar { z with c := 9 }) releases,
    meets (ready (.bar { z with c := 9 })) (.bar { z with c := 9 }) (fun s x => !releases s x),
    meets (outside (ready (.cue { z with b := 7, c := 7 }))) (.cue { z with b := 7, c := 7 }) (fun s x => !(x.workers s).isEmpty && releases s x),
    meets (fifo0 [.store { home := .u, addr := 0x40 } [1]] (ready (.fence { z with b := 8 }))) (.fence { z with b := 8 }) (fun s x =>
      x.fifo == fifoOf s x.agent && !x.fifo.isEmpty && !releases s x),
    meets (ready (.pset pset1)) (.pset pset1) (fun s x => isOk (lineAccess x s .store)),
    meets (ready (.parm pset1)) (.parm pset1) (fun s x => isOk (lineAccess x s .store)),
    meets (ready (.ptest { pset1 with d := 0x141 })) (.ptest { pset1 with d := 0x141 }) (fun s x => isOk (lineAccess x s .load)),
    meets (bound [3, 9, 0, 2] (ready (.sclose sclose1))) (.sclose sclose1) (fun s x =>
      decide (bindingOf (x.group s) 3 = some ring0) && (ringLoc s 0 ring0 0).isSome && !(ringView s 0 ring0).broken && !(ringView s 0 ring0).closed && s.resv.isEmpty && !releases s x),
    meets (outside (bound [3, 9, 0, 2] (ready (.sclose sclose1)))) (.sclose sclose1) (fun s x => s.resv.isEmpty && releases s x),
    meets { bound [3, 9, 0, 2] (ready (.sclose sclose1)) with resv := [{ ring := { home := .u, addr := 0x180 }, group := 0, stroke := 0, port := 3, start := 0, m := 1, vals := [], ready := false, op := 0 }] }
      (.sclose sclose1) (fun s x => s.resv.any (fun q => some q.ring == ringLoc s 0 ring0 0 && q.stroke == x.key)),
    meets (ready (.sclose sclose1)) (.sclose sclose1) (fun s x => decide (bindingOf (x.group s) 3 = none)),
    meets (bound [3, 9, 2, 2] (ready (.sclose sclose1))) (.sclose sclose1) (fun s _ => (ringView s 0 ring0).closed)].all id = true := by decide +kernel

/-- A tile record of 20 rows of 9 f32 elements at 0x240, at 0x40 of the scratchpad. -/
def tileRec (tag : Nat) : List Byte :=
  natBytes 8 0x240 ++ natBytes 4 20 ++ natBytes 4 9 ++ natBytes 4 48 ++ natBytes 2 tag ++ natBytes 2 3 ++ natBytes 8 0
def ldt1 : Fields := { z with d := 8, a := 0x104, c := 6, t := 0x0A, m := 1 }
def tiled (i : Instr) : State := bytesAt .u 0x40 (tileRec 0x0A) (sr 4 0x40 (ready i))
theorem test_meets_tile_rows : [
    meets (tiled (.ldt ldt1)) (.ldt ldt1) (fun s x => okWith (fun r => okWith (fun ls => (absentOf r.1 ls).isEmpty)
      (checkEach r.1 x (x.wantTile .load) noBad (pieceAccess x (tilePieces x r.2.2.2 false 0 0 x.lanes)))) (tileRecord x s)),
    meets (tiled (.stt ldt1)) (.stt ldt1) (fun s x => okWith (fun r => isOk
      (checkEach r.1 x (x.wantTile .store) noBad (pieceAccess x (tilePieces x r.2.2.2 true 0 0 (x.workers r.1)) ++ [(first x, opA r.1 x (first x) + 20, 4)]))) (tileRecord x s)),
    meets (helpers (tiled (.stt ldt1))) (.stt ldt1) (fun s x => (x.workers s).isEmpty),
    meets (owing (tiled (.stt (rel ldt1)))) (.stt (rel ldt1)) (fun s x => !(x.workers s).isEmpty && okWith (fun r => waits r.1 x) (tileRecord x s)),
    meets (sr 4 0x48 (ready (.ldt ldt1))) (.ldt ldt1) (fun s x => opA s x (first x) % 32 != 0),
    meets (sr 4 0x48 (ready (.stt ldt1))) (.stt ldt1) (fun s x => opA s x (first x) % 32 != 0)].all id = true := by decide +kernel

/-! ### Futures, work and engines -/

def slot9 (f : Fut) (s : State) : State := group0 (fun g => { g with futs := [(9, f)] }) s
theorem test_meets_futures : [
    meets (fr 2 (.done 3) (ready (.fwait { z with a := 0x172 }))) (.fwait { z with a := 0x172 }) (fun _ x => x.regs.fGet 2 == .done 3),
    meets (fr 2 (.pending 3) (ready (.fwait { z with a := 0x172 }))) (.fwait { z with a := 0x172 }) (fun _ x => x.regs.fGet 2 == .pending 3),
    meets (fr 2 (.pending 3) (ready (.fpass { z with a := 0x172, c := 9 }))) (.fpass { z with a := 0x172, c := 9 }) (fun s x => (x.group s).futs.isEmpty),
    meets (slot9 (.done 1) (ready (.fpass { z with a := 0x172, c := 9 }))) (.fpass { z with a := 0x172, c := 9 }) (fun s x => mapGet (x.group s).futs 9 .empty == .done 1),
    meets (slot9 (.done 1) (ready (.ftake { z with d := 0x175, c := 9 }))) (.ftake { z with d := 0x175, c := 9 }) (fun s x => mapGet (x.group s).futs 9 .empty == .done 1),
    meets (ready (.ftake { z with d := 0x175, c := 9 })) (.ftake { z with d := 0x175, c := 9 }) (fun s x => (x.group s).futs.isEmpty)].all id = true := by decide +kernel

def queued1 (op : Option Nat) : Launch := { id := 8, part := 0, cls := 1, isTask := false, packet := [], op := op }
def full (s : State) : State := s.modPart 0 (fun p => { p with queues := (List.range 4).map (fun _ => List.replicate 1024 1) })
def spawn1 : Fields := { z with a := 0x12, b := 4 }
def records (i : Instr) (n : Nat) : State := few (vr 0x12 (fun l => 0x9000 + n * l) (ready i))
def launch3 : Fields := { spawn1 with d := 0x173 }
def kept1 (n : Nat) (s : State) : State := s.modStroke 0 (fun st => { st with kept := [{ pc := 0x8000, act := 3, recs := [(0x9000, natBytes n 0, false)] }] })
def readsRecords (n : Nat) (ls : Env → List Nat) (s : State) (x : Env) : Bool := x.was.st.kept.isEmpty && !(ls x).isEmpty &&
  isOk (checkEach s x (x.want [.C, .D, .G] n .load) noBad ((ls x).map (fun l => (l, eaOf s x l, n))))
def keptHere (x : Env) : Bool := x.was.st.kept.any (fun r => r.pc == x.pc && r.act == x.act)
theorem test_meets_work : [
    meets (ready (.fcan { z with a := 0x177 })) (.fcan { z with a := 0x177 }) (fun _ x => x.regs.fGet 7 == .empty),
    meets (fr 7 (.pending 3) (ready (.fcan { z with a := 0x177 }))) (.fcan { z with a := 0x177 }) (fun _ x => x.regs.fGet 7 == .pending 3),
    meets (records (.spawn spawn1) 64) (.spawn spawn1) (fun s x => readsRecords 64 (fun x => x.workers s) s x && !releases s x && roomFor s 0 [(0, 2)]),
    meets (full (records (.spawn spawn1) 64)) (.spawn spawn1) (fun s x => readsRecords 64 (fun x => x.workers s) s x && !releases s x && !roomFor s 0 [(0, 2)]),
    meets (outside (records (.spawn spawn1) 64)) (.spawn spawn1) (fun s x => readsRecords 64 (fun x => x.workers s) s x && releases s x),
    meets (kept1 64 (records (.spawn spawn1) 64)) (.spawn spawn1) (fun s x => keptHere x && roomFor s 0 [(0, 1)]),
    meets (kept1 64 (full (records (.spawn spawn1) 64))) (.spawn spawn1) (fun s x => keptHere x && !roomFor s 0 [(0, 1)]),
    meets (records (.launch launch3) 128) (.launch launch3) (fun s x => readsRecords 128 (fun x => (x.workers s).take 1) s x && !releases s x && roomFor s 0 [(0, 1)]),
    meets (outside (records (.launch launch3) 128)) (.launch launch3) (fun s x => readsRecords 128 (fun x => (x.workers s).take 1) s x && releases s x),
    meets (kept1 128 (full (records (.launch launch3) 128))) (.launch launch3) (fun s x => keptHere x && !roomFor s 0 [(0, 1)]),
    meets (helpers (ready (.spawn spawn1))) (.spawn spawn1) (fun s x => x.was.st.kept.isEmpty && (x.workers s).isEmpty),
    meets (helpers (ready (.launch launch3))) (.launch launch3) (fun s x => x.was.st.kept.isEmpty && (x.workers s).isEmpty)].all id = true := by decide +kernel

def withLaunch : State := enqueueLaunch (ready (.nop z)) (queued1 (some 3))
theorem test_meets_withdrawal : withLaunch.launches.find? (fun e => e.2.op == some 3) = some (8, queued1 (some 3)) ∧ (queued1 (some 3)).op = some 3 ∧
    (queued1 (some 3)).phase = .queued ∧ (queued1 (some 3)).next = 0 ∧ 0 < ({ queued1 (some 3) with next := 1 } : Launch).next := by decide +kernel

def cpy1 : Fields := { z with d := 0x158, a := 0x155, b := 0x156, c := 0x89 }
def fullLocks (s : State) : State :=
  s.modCore 0 (fun c => { c with locks := (List.range 32).map (fun i => ⟨.u, 0, 0x20000 + i, 0x20001 + i, .record, 77, 0, []⟩) })
def endsOf (f : Fields) (s : State) (x : Env) : List Lock :=
  let t := drainFifo s x.agent
  let c := newCopy x t .plain (Space.ofCode f.m.toNat) (Space.ofCode (f.c.toNat / 32 % 8)) (((t.ctx? x.key).getD {}).kGet (f.c.toNat % 32))
  ((copyRange t c.group c.part c.src c.sBase.toNat c.len).map (lockOf · .source c.id 0)).toList ++
    ((copyRange t c.group c.part c.dst c.dBase.toNat c.len).map (lockOf · .dest c.id 0)).toList
def copying (s : State) : State := kr 5 0x9000 (kr 6 0x240 (kr 9 0x90 s))
def ccan1 : Fields := { z with a := 0x154 }
theorem test_meets_copies : [
    meets (copying (ready (.cpy cpy1))) (.cpy cpy1) (fun s x => !locksStall (drainFifo s x.agent) x.core (endsOf cpy1 s x)),
    meets (fullLocks (copying (ready (.cpy cpy1)))) (.cpy cpy1) (fun s x => locksStall (drainFifo s x.agent) x.core (endsOf cpy1 s x)),
    meets (ready (.ccan ccan1)) (.ccan ccan1) (fun s x => mapGet? ((s.ctx? x.key).getD {}).pending 4 == none),
    meets ((ready (.ccan ccan1)).modCtx 0 (fun c => { c with pending := [(4, 12)] })) (.ccan ccan1) (fun s x => mapGet? ((s.ctx? x.key).getD {}).pending 4 == some 12),
    meets (ready (.cpyr { cpy1 with c := 9, m := 2, ext := .wide 8 })) (.cpyr { cpy1 with c := 9, m := 2, ext := .wide 8 }) (fun s x => (s.core x.core).locks.isEmpty),
    meets (ready (.cpyt { cpy1 with c := 4, ext := .wide 0xA })) (.cpyt { cpy1 with c := 4, ext := .wide 0xA }) (fun s x => (s.core x.core).locks.isEmpty),
    meets (ready (.cpym { z with d := 0x154, a := 0x152, b := 0x151, c := 3, ext := .wide 3 })) (.cpym { z with d := 0x154, a := 0x152, b := 0x151, c := 3, ext := .wide 3 })
      (fun s x => (s.core x.core).locks.isEmpty),
    meets (ready (.mms { z with d := 0x160, a := 0x15E, b := 0x15F, ext := .wide 0x100 })) (.mms { z with d := 0x160, a := 0x15E, b := 0x15F, ext := .wide 0x100 })
      (fun s x => (s.core x.core).locks.isEmpty),
    meets (fullLocks (ready (.mms { z with d := 0x160, a := 0x15E, b := 0x15F, ext := .wide 0x100 }))) (.mms { z with d := 0x160, a := 0x15E, b := 0x15F, ext := .wide 0x100 })
      (fun s x => (s.core x.core).locks.length == 32)].all id = true := by decide +kernel

/-! ### Banks, rounds, summaries, shares, peers -/

def own (alloc : Nat) (s : State) : State := group0 (fun g => { g with banks := (List.range 8).map (· + 3), alloc := alloc }) s
def peer3 (s : State) : State := { s with groups := mapPut s.groups 3 { part := 0, launch := 0 } }
def writing (s : State) : State := { s with mms := [{ id := 9, group := 0, kS := 1, bank := 0, zero := true, aRec := 0, bRec := 0, banks := List.range 6 }] }
def aalloc2 : Fields := { z with d := 8, b := 1, c := 2 }
def afree2 : Fields := { z with b := 9, c := 2 }
def agrant2 : Fields := { afree2 with a := 3 }
theorem test_meets_banks : [
    meets (own 0b110011 (ready (.aalloc aalloc2))) (.aalloc aalloc2) (fun s _ => !allocated s 0 2 && !allocated s 0 3 && allocated s 0 1 && ownBanks s 0 == 8),
    meets (own 0xFF (ready (.aalloc aalloc2))) (.aalloc aalloc2) (fun s _ => (List.range 8).all (fun b => allocated s 0 b)),
    meets (own 0xFF (ready (.afree afree2))) (.afree afree2) (fun s _ => ownBanks s 0 == 8 && !bankBusy s 0 4 && !bankBusy s 0 5),
    meets (own 0xFF (ready (.azero afree2))) (.azero afree2) (fun s _ => allocated s 0 4 && allocated s 0 5 && !bankBusy s 0 4 && !bankBusy s 0 5),
    meets (peer3 (own 0xFF (ready (.agrant agrant2)))) (.agrant agrant2) (fun s x => grantee x s 3 && allocated s 0 4 && allocated s 0 5 && !bankBusy s 0 4),
    meets (ready (.afree afree2)) (.afree afree2) (fun s _ => ownBanks s 0 < 6), meets (ready (.azero afree2)) (.azero afree2) (fun s _ => ownBanks s 0 < 6),
    meets (writing (own 0xFF (ready (.afree afree2)))) (.afree afree2) (fun s _ => bankBusy s 0 4),
    meets (writing (own 0xFF (ready (.azero afree2)))) (.azero afree2) (fun s _ => allocated s 0 4 && allocated s 0 5 && bankBusy s 0 4),
    meets (peer3 (writing (own 0xFF (ready (.agrant agrant2))))) (.agrant agrant2) (fun s x => grantee x s 3 && allocated s 0 4 && bankBusy s 0 4),
    meets (own 0 (ready (.azero afree2))) (.azero afree2) (fun s _ => ownBanks s 0 == 8 && !allocated s 0 4),
    meets (own 0xFF (ready (.agrant agrant2))) (.agrant agrant2) (fun s x => !grantee x s 3)].all id = true := by decide +kernel

def ald1 : Fields := { z with d := 8, b := 1, c := 0x1A, t := 0x0A }
theorem test_meets_accumulator_rows : [
    meets (own 0xFF (ready (.ald ald1))) (.ald ald1) (fun s x => x.lanes.all (fun l => opC s x l == 0) && reachable x s 1 && !bankBusy s 0 1 && allocated s 0 1),
    meets (own 0 (ready (.ald ald1))) (.ald ald1) (fun s x => reachable x s 1 && !allocated s 0 1),
    meets (own 0xFF (ready (.ast { ald1 with t := 0 }))) (.ast { ald1 with t := 0 }) (fun s x => x.lanes.all (fun l => opC s x l == 0) && reachable x s 1 && allocated s 0 1),
    meets (writing (own 0xFF (ready (.ald ald1)))) (.ald ald1) (fun s x => x.lanes.all (fun l => opC s x l == 0) && reachable x s 1 && bankBusy s 0 1),
    meets (writing (own 0xFF (ready (.ast { ald1 with t := 0 })))) (.ast { ald1 with t := 0 }) (fun s x => x.lanes.all (fun l => opC s x l == 0) &&
      reachable x s 1 && allocated s 0 1 && bankBusy s 0 1),
    meets (own 0 (ready (.ast { ald1 with t := 0 }))) (.ast { ald1 with t := 0 }) (fun s x => x.lanes.all (fun l => opC s x l == 0) && reachable x s 1 && !allocated s 0 1),
    meets (marks (fun m => { m with poisA := [(amemKey (bankKey State.reset 0 1) 0 31, true)] }) (own 0xFF (ready (.ald ald1)))) (.ald ald1)
      (fun s x => x.lanes.all (fun l => opC s x l == 0) && reachable x s 1 && !bankBusy s 0 1 && allocated s 0 1),
    meets (vr 0x1A (fun _ => 256) (own 0xFF (ready (.ald ald1)))) (.ald ald1) (fun s x => opC s x 31 == 256),
    meets (vr 0x1A (fun _ => 256) (own 0xFF (ready (.ast { ald1 with t := 0 })))) (.ast { ald1 with t := 0 }) (fun s x => opC s x 31 == 256)].all id = true := by decide +kernel

def vbad (r l : Nat) (s : State) : State := s.modStroke 0 (fun st => { st with regs := { st.regs with poison := (32 * r + l, true) :: st.regs.poison } })
def cvset1 : Fields := { z with d := 0x178, b := 1, c := 1 }
def cv0 (c : Cv) (s : State) : State := group0 (fun g => { g with banks := [0, 1], alloc := 3, cvs := [(0, c)] }) s
def round0 (o : MmrOp) : Round := { ta := o.ta, tb := o.tb, bank := o.n, zero := o.zero, rua := o.rua, rub := o.rub, started := 0, sigs := [], futs := [] }
def mmr1 : Fields := { z with a := 0x008, b := 0x010, c := 0x178, t := 0x0C, ext := .wide 12 }
def owns2 (s : State) (x : Env) : Bool := decide ((mmrOp x.f).n + 2 ≤ ownBanks s 0) && allocated s 0 (mmrOp x.f).n && allocated s 0 ((mmrOp x.f).n + 1)
def signs (s : State) (x : Env) : Mask := signingTrap x ((cvOf s x.grp (mmrOp x.f).cv).forOp (mmrOp x.f)) (mmrOp x.f) (workLanes s x)
theorem test_meets_rounds : [
    meets (ready (.cvset { cvset1 with c := 0 })) (.cvset { cvset1 with c := 0 }) (fun s _ => signingSet s 0 0 == none),
    meets (cv0 { decl := some (0, 1) } (ready (.cvset cvset1))) (.cvset cvset1) (fun s _ => signingSet s 0 1 == some (0, 1) && (cvOf s 0 0).decl == some (0, 1)),
    meets (cv0 {} (ready (.cvset cvset1))) (.cvset cvset1) (fun s _ => signingSet s 0 1 == some (0, 1) && (cvOf s 0 0).decl == none && (cvOf s 0 0).round == none),
    meets (cv0 { round := some (round0 (mmrOp mmr1)) } (ready (.cvset cvset1))) (.cvset cvset1) (fun s _ => (cvOf s 0 0).decl == none && (cvOf s 0 0).round != none),
    meets (cv0 { decl := some (0, 1) } (ready (.mmr mmr1))) (.mmr mmr1) (fun s x => owns2 s x && signs s x == 0 && (x.workers s).length == 32),
    meets (helpers (cv0 {} (ready (.mmr mmr1)))) (.mmr mmr1) (fun s x => owns2 s x && (x.workers s).isEmpty),
    meets (group0 (fun g => { g with banks := [] }) (ready (.mmr mmr1))) (.mmr mmr1) (fun s _ => ownBanks s 0 == 0),
    meets (group0 (fun g => { g with alloc := 1 }) (ready (.mmr mmr1))) (.mmr mmr1) (fun s _ => ownBanks s 0 == 2 && !allocated s 0 1),
    meets (vtag 8 1 (cv0 {} (ready (.mmr mmr1)))) (.mmr mmr1) (fun s x => owns2 s x && x.regs.tagGet 8 31 == 1),
    meets (vbad 8 31 (cv0 {} (ready (.mmr mmr1)))) (.mmr mmr1) (fun s x => owns2 s x && x.regs.poisGet 8 31 && x.regs.tagGet 8 31 == 0),
    meets (cv0 {} (ready (.mmr mmr1))) (.mmr mmr1) (fun s x => owns2 s x && signs s x != 0)].all id = true := by decide +kernel

/-- A state whose scratchpad holds a fresh record of a kind and type at 0x400, to which s8 points. -/
def summary (kind ty : Nat) (s : State) : State := sr 8 0x400 { s with mem := { s.mem with
  u := (((freshRecord kind ty 77).zipIdx).filter (fun e => e.1 != Config.emptyByte)).map (fun e => (uBase 0 + 0x400 + e.2, e.1)) } }
def rqs1 : Fields := { z with a := 0x108, c := 6, t := 0x0A }
def reaches (acc : Acc) (p : List Loc → State → Bool) (s : State) (x : Env) : Bool :=
  okWith (fun ls => p ls s) (reachRecord s x (spaceOf x.f) (recordAddr x x.f.a) acc)
def kindAt (n : Nat) (ls : List Loc) (s : State) : Bool :=
  let r := ls.flatMap (fun l => readBytes s l 128)
  !recordBad r && decide (field r 0 1 = n)
theorem test_meets_folds : [
    meets (summary 1 0x0A (ready (.rqs rqs1))) (.rqs rqs1) (reaches .atomic (kindAt 1)),
    meets (summary 3 0 (ready (.rqs rqs1))) (.rqs rqs1) (reaches .atomic (fun ls s => !kindAt 1 ls s)),
    meets (sr 8 0x400 (ready (.sminit { rqs1 with c := 1 }))) (.sminit { rqs1 with c := 1 }) (reaches .store (fun _ _ => true))].all id = true := by decide +kernel
theorem test_meets_hitters_and_counts : [
    meets (summary 2 5 (ready (.rhh { rqs1 with t := 5 }))) (.rhh { rqs1 with t := 5 }) (reaches .atomic (kindAt 2)),
    meets (summary 3 0 (ready (.rdc { rqs1 with t := 0 }))) (.rdc { rqs1 with t := 0 }) (reaches .atomic (kindAt 3))].all id = true := by decide +kernel
theorem test_meets_queries : [
    meets (summary 1 0x0A (ready (.sqnt { rqs1 with d := 4 }))) (.sqnt { rqs1 with d := 4 }) (reaches .load (kindAt 1)),
    meets (summary 3 0 (ready (.sest { rqs1 with d := 4, c := 0 }))) (.sest { rqs1 with d := 4, c := 0 }) (reaches .load (kindAt 3)),
    meets (marks (fun m => { m with poisU := [(8, true)] }) (summary 1 0x0A (ready (.sqnt { rqs1 with d := 4 })))) (.sqnt { rqs1 with d := 4 })
      (reaches .load (fun ls s => ls.any (fun l => s.mem.anyPoison l 128))),
    meets (summary 2 0 (ready (.shhq { rqs1 with d := 4, t := 0 }))) (.shhq { rqs1 with d := 4, t := 0 }) (reaches .load (kindAt 2))].all id = true := by decide +kernel
def smrg1 : Fields := { z with a := 0x108, c := 0x108 }
theorem test_meets_merge : meets (summary 1 0x0A (ready (.smrg smrg1))) (.smrg smrg1) (reaches .atomic (fun ls s =>
    let r := ls.flatMap (fun l => readBytes s l 128)
    mergeable r r)) = true := by decide +kernel
theorem test_meets_sketch : nan32 0x7FC00000 = true ∧ nan32 0x3F800000 = false ∧ ({ lfsr := 0, ent := false, n := 0 } : Coin).ent = false := by decide +kernel

def party2 (n : Nat) (g : Session → Session) (s : State) : State := { group0 (fun k => { k with cr := { k.cr with sess := 1, joined := [(0, 0)] } }) s with gate := { s.gate with sessions := [(0, g
  { parties := (List.range n), recv := 3, budget := 5, timeout := 1, expiry := 0
    pools := (List.range n).map (fun _ => [{ kind := 0, inD := true, addr := 0x40000000, count := 4 }]) })] } }
def sadd1 : Fields := { z with d := 4, a := 5, c := 6, t := 0x11 }
def strn1 : Fields := { z with d := 4, a := 5, c := 16, t := 0x11 }
def member (p : Session → Bool) (s : State) (x : Env) : Bool := match sessionOf x s with
  | some r => p r.2.1
  | none => false
theorem test_meets_shares : [
    meets (vtag 5 1 (vtag 6 1 (party2 2 id (ready (.sadd sadd1))))) (.sadd sadd1) (fun s x => member (fun _ => true) s x && x.regs.tagGet 5 31 == 1 && x.regs.tagGet 6 31 == 1),
    meets (party2 2 id (ready (.sadd sadd1))) (.sadd sadd1) (fun s x => member (fun _ => true) s x && x.regs.tagGet 5 31 == 0),
    meets (ready (.sadd sadd1)) (.sadd sadd1) (fun s x => sessionOf x s == none),
    meets (vtag 5 1 (party2 2 id (ready (.strn strn1)))) (.strn strn1) (member (fun e => e.parties.length == 2)),
    meets (vtag 5 1 (party2 3 id (ready (.strn strn1)))) (.strn strn1) (member (fun e => e.parties.length != 2))].all id = true := by decide +kernel

/-- A share page of 1 GiB at 0x40000000 behind the device's own. -/
def sharePage (s : State) : State := { s with mem := { s.mem with
  g := memWrite (memWrite s.mem.g 0x4008 (natBytes 8 (0x40000003 + 7 * 2 ^ 57))) 0x2008 (natBytes 8 (0x403 + 7 * 2 ^ 45 + 2 ^ 49)) } }
def smask1 : Fields := { z with d := 0x0A, a := 2, c := 3, t := 0x11 }
def sxch1 : Fields := { z with d := 0x171, a := 0x0A, t := 0x11 }
def srev1 : Fields := { z with d := 4, a := 5, c := 0x172, t := 0x11 }
def rowsAt (r t : Nat) (s : State) : State := s.modStroke 0 (fun st => { st with regs := { st.regs with rows := [(r, ⟨0, t⟩), (r + 1, ⟨0, t⟩)] } })
def parted (s : State) : State := s.modStroke 0 (fun st => { st with regs := { st.regs with rows := [(10, ⟨0, 2⟩), (11, ⟨0, 3⟩)] } })
theorem test_meets_masks : [
    meets (vtag 2 1 (vtag 3 1 (sharePage (party2 2 id (ready (.smask smask1)))))) (.smask smask1) (fun s x => member (fun e => e.next? 0 0 == 0) s x &&
      isOk (checkEach s x { space := .D, spaces := [.D, .G], size := 128, align := 0, acc := .load, share := true } noBad
        ((List.range 3).map (fun i => (first x, 0x40000000 + 128 * i, 128))))),
    meets (vtag 2 1 (vtag 3 1 (party2 2 (fun e => { e with next := [(0, 4)] }) (ready (.smask smask1))))) (.smask smask1) (member (fun e => e.next? 0 0 == 4)),
    meets (ready (.smask smask1)) (.smask smask1) (fun s x => sessionOf x s == none)].all id = true := by decide +kernel
theorem test_meets_exchange_rounds : [
    meets (rowsAt 10 2 (vtag 10 3 (vtag 11 3 (party2 2 (fun e => { e with last1 := [(0, 2)] }) (ready (.sxch sxch1)))))) (.sxch sxch1)
      (member (fun e => decide (e.lastPlus 0 0 ≤ 2))),
    meets (rowsAt 10 2 (vtag 10 3 (vtag 11 3 (party2 2 (fun e => { e with last1 := [(0, 3)] }) (ready (.sxch sxch1)))))) (.sxch sxch1)
      (member (fun e => decide (2 < e.lastPlus 0 0))),
    meets (party2 2 id (ready (.sxch sxch1))) (.sxch sxch1) (fun _ x => x.regs.tagGet 10 0 != 3),
    meets (parted (vtag 10 3 (vtag 11 3 (party2 2 id (ready (.sxch sxch1)))))) (.sxch sxch1) (fun s x => member (fun _ => true) s x &&
      x.regs.tagGet 10 31 == 3 && x.regs.tagGet 11 31 == 3 && mapGet x.regs.rows 10 ⟨0, 0⟩ != mapGet x.regs.rows 11 ⟨0, 0⟩),
    meets (vtag 5 1 (party2 2 id (ready (.srev srev1)))) (.srev srev1) (fun s x => member (fun e => e.dead.isEmpty) s x && x.regs.tagGet 5 31 == 1),
    meets (vtag 5 1 (party2 2 (fun e => { e with dead := [0] }) (ready (.srev srev1)))) (.srev srev1) (member (fun e => e.dead.contains (mapGet e.seq 0 0))),
    meets (ready (.sxch sxch1)) (.sxch sxch1) (fun s x => sessionOf x s == none), meets (ready (.srev srev1)) (.srev srev1) (fun s x => sessionOf x s == none)].all
    id = true := by decide +kernel

def peer0 (s : State) : State := s.modPart 0 (fun p => { p with peers := [(0, 0)] })
def pst1 : Fields := { z with d := 8, a := 0x12, b := 4, t := 0x15 }
def psig1 : Fields := { z with d := 6, a := 0x14, b := 4, t := 4 }
def pwait1 : Fields := { z with d := 0x106, a := 0x108, b := 4, t := 4 }
def pwaits (d : Nat) : State := sr 6 d (sr 8 0x9000 (ready (.pwait pwait1)))
theorem test_meets_peers : [
    meets (ready (.pst { pst1 with b := 1, t := 0x0A })) (.pst { pst1 with b := 1, t := 0x0A }) (fun s x => decide (spaceOf x.f = .P) &&
      isOk (checkEach s x (x.want [.P, .G] x.ty.size .store) noBad ((x.workers s).map (fun l => (l, eaOf s x l, x.ty.size))))),
    meets (peer0 (vr 0x12 (fun l => 16 * l) (ready (.pst pst1)))) (.pst pst1) (fun s x => decide (spaceOf x.f ≠ .P) && (peerBad x s [.P, .G] (x.workers s)).isNone &&
      s.link.out.isEmpty && (x.workers s).length == 32 && (x.workers s).all (fun l => opA s x l / 2 ^ 56 % 2 ^ 8 == 0)),
    meets (peer0 (ready (.psig psig1))) (.psig psig1) (fun s x => (peerBad x s [.G] (x.workers s)).isNone && !signalOpen s 0 0 0),
    meets (raiseSignal (peer0 (ready (.psig psig1))) (.stroke 0) 0 0 0 7) (.psig psig1) (fun s x => (peerBad x s [.G] (x.workers s)).isNone && signalOpen s 0 0 0),
    meets (pwaits 0) (.pwait pwait1) (fun s x => opD s x (first x) == 0 && isOk (checkEach s x (x.want [.G] 8 .load) noBad [(first x, eaOf s x (first x), 8)])),
    meets (pwaits 1) (.pwait pwait1) (fun s x => opD s x (first x) == 1 && isOk (checkEach s x (x.want [.G] 8 .load) noBad [(first x, eaOf s x (first x), 8)])),
    meets (marks (fun m => { m with poisG := [(0x9000 / 128, true)] }) (pwaits 0)) (.pwait pwait1) (fun s _ =>
      s.mem.anyPoison { home := .g, addr := 0x9000 } 8)].all id = true := by decide +kernel
/-- A send queue that is full for a device. -/
theorem test_meets_full_send_queue (f : Flit) (h : f.dst = 0) (n : Nat) (hn : 0 < n) :
    ¬ ((List.replicate (32 + Config.sendCredit) f).filter (fun g => g.dst == 0)).length + n ≤ 32 + Config.sendCredit := by
  simp [h]; omega
/-! ### Issue, traps, steps -/

def add1 : Fields := { z with d := 8, a := 0x11, c := 0x1A, t := 1 }
def marked (r : Nat) (s : State) : State := s.modStroke 0 (fun st => { st with regs := { st.regs with poison := [(32 * r + 3, true)] } })
def flying (s : State) : State :=
  s.modStroke 0 (fun st => { st with inflight := [{ id := 1, lanes := allLanes, counts := true, la := 0, held := [(.v 8, allLanes)] }] })
def unhandled (s : State) : State := s.modStroke 0 (fun st => { st with handler := false })
def pathB (unit : Nat) (s : State) : State := match s.stroke? 0 with
  | some st => { s with turn := .pathB 0 allLanes { was := beforeOf s st, since := s.nextId, unit := unit } [] }
  | none => s
/-- Has the agent on turn an issue of the instruction that is as p says? -/
def turned (s : State) (i : Instr) (p : State → Env → Bool) : Bool := match issueCode i with
  | some (opc, f, len) => (match turnEnv s opc f len with
    | some x => p s x
    | none => false)
  | none => false
def far1 : Fields := { add1 with d := 0x40 }
def guarded : Fields := { add1 with g := true, pred := 3 }
/-- The instruction of an issue in its active lanes. -/
def active (s : State) (x : Env) : Env := { x with act := guardMask s x }
def frcp1 : Fields := { z with d := 8, c := 0x1A, t := 0x0A }
def sfuTaken (s : State) : State := { s.modCore 0 (fun c => { c with sfu := [(1, 32), (0, 0), (0, 0), (0, 0)] }) with cycle := 3 }
def summing (s : State) : State := { s with strokes := s.strokes ++ [(4, { group := 0, index := 4, busy := [(.summary, [])] })] }
def rowsTaken (s : State) : State := match s.stroke? 0 with
  | some st => { s with turn := .pathB 0 allLanes { was := beforeOf s st, since := 0, reads := [0, 2, 0, 0] } [] }
  | none => s
def waitingK (s : State) : State := s.modCtx 0 (fun c => { c with pending := [(5, 9)] })
theorem test_meets_issue : [
    turned (ready (.add add1)) (.add add1) (fun s x => bitsCause s x == none && (active s x).act != 0 && !heldBack s (active s x) &&
      taggedLanes s (active s x) == 0 && poisonLanes s (active s x) == 0),
    turned (pathB 2 (ready (.cas atom1))) (.cas atom1) (fun s x => (active s x).act != 0 && heldBack s (active s x)),
    turned (pathB 0 (ready (.cas atom1))) (.cas atom1) (fun s x => (active s x).act != 0 && !heldBack s (active s x)),
    turned (rowsTaken (ready (.add add1))) (.add add1) (fun s x => heldBack s (active s x) && decide (rowsRead s (active s x) = [0x11, 0x1A])),
    turned (sfuTaken (ready (.frcp frcp1))) (.frcp frcp1) (fun s x => heldBack s (active s x)),
    turned (summing (ready (.sest { z with d := 4, a := 0x108 }))) (.sest { z with d := 4, a := 0x108 }) (fun s x => heldBack s (active s x)),
    turned (fifo0 [sent1, .fxclr { home := .d, addr := 0x40 }] (ready (.ld ld1))) (.ld ld1) (fun s x => heldBack s (active s x)),
    turned (fifo0 [sent1] (ready (.ld ld1))) (.ld ld1) (fun s x => !heldBack s (active s x)),
    turned (fifo0 [sent1] (ready (.rqs rqs1))) (.rqs rqs1) (fun s x => heldBack s (active s x)),
    turned (ready (.add far1)) (.add far1) (fun s x => bitsCause s x == some 3),
    turned (ready (.cpy cpy1)) (.cpy cpy1) (fun s x => x.scribe && bitsCause s x == none && !ctxHazard s x),
    turned { ready (.cpy cpy1) with turn := .pathA 0 allLanes 0 [] } (.cpy cpy1) (fun s x => !x.scribe && bitsCause s x == some 5),
    turned (unhandled (ready (.rte z))) (.rte z) (fun s x => bitsCause s x == some 4),
    turned (unhandled (ready (.csrw { z with b := 8, c := 6 }))) (.csrw { z with b := 8, c := 6 }) (fun s x => bitsCause s x == some 4),
    turned (waitingK (ready (.cpy cpy1))) (.cpy cpy1) (fun s x => x.scribe && ctxHazard s x),
    turned (pr 3 0 (ready (.add guarded))) (.add guarded) (fun s x => x.path != 0 && (active s x).act == 0),
    turned (vtag 0x11 1 (ready (.add add1))) (.add add1) (fun s x => taggedLanes s (active s x) != 0),
    turned (marked 0x11 (ready (.add add1))) (.add add1) (fun s x => taggedLanes s (active s x) == 0 && poisonLanes s (active s x) == 8)].all
    id = true := by decide +kernel

def pop1 : Fields := { add1 with a := 252 }
def push1 : Fields := { add1 with d := 255 }
def parkedAhead (s : State) : State := { s with cycle := 5, strokes := s.strokes ++ [(1, { group := 0, index := 1, park := some (.pop 252 1 0) })] }
theorem test_meets_ports : [
    turned (bound [3, 40, 0, 2] (ready (.add pop1))) (.add pop1) (fun s x => bindingOf (x.group s) 0 == some ring0 && (ringLoc s 0 ring0 0).isSome &&
      (ringView s 0 ring0).count == 37 && !(ringView s 0 ring0).broken && !ringBehind s false { home := .u, addr := 0x180 } (arrival s x 252) 0),
    turned (bound [3, 9, 0, 2] (ready (.add pop1))) (.add pop1) (fun s _ => (ringView s 0 ring0).count == 6 && !(ringView s 0 ring0).closed),
    turned (bound [3, 9, 2, 2] (ready (.add pop1))) (.add pop1) (fun s _ => (ringView s 0 ring0).count == 6 && (ringView s 0 ring0).closed),
    turned (helpers (bound [3, 9, 0, 2] (ready (.add pop1)))) (.add pop1) (fun s x => (x.workers s).isEmpty),
    turned (bound [3, 103, 0, 2] (ready (.add pop1))) (.add pop1) (fun s _ => (ringView s 0 ring0).broken),
    turned (parkedAhead (bound [3, 40, 0, 2] (ready (.add pop1)))) (.add pop1) (fun s x => ringBehind s false { home := .u, addr := 0x180 } (arrival s x 252) 0),
    turned (bound [3, 40, 0, 2] (ready (.add push1))) (.add push1) (fun s x => decide (64 < (ringView s 0 ring0).count + (x.workers s).length)),
    turned (bound [3, 9, 0, 2] (ready (.add push1))) (.add push1) (fun s x => decide ((ringView s 0 ring0).count + (x.workers s).length ≤ 64) &&
      !(x.workers s).isEmpty && outputPorts s x == [255] && ((outputPorts s x).findSome? (pushCheck s x)).isNone && !releases s x),
    turned (outside (bound [3, 9, 0, 2] (ready (.add push1)))) (.add push1) (fun s x => ((outputPorts s x).findSome? (pushCheck s x)).isNone && releases s x),
    turned (owing (bound [3, 9, 0, 2] (ready (.add push1)))) (.add push1) (fun s x => ((outputPorts s x).findSome? (pushCheck s x)).isNone && releases s x),
    turned (bound [3, 9, 2, 2] (ready (.add push1))) (.add push1) (fun s x => ((outputPorts s x).findSome? (pushCheck s x)).isSome)].all
    id = true := by decide +kernel

def trapper (base : Dword) (s : State) : State := group0 (fun g => { g with cr := { trapBase := base } }) (unhandled s)
def trap1 (cause : Nat) : Trap := { cause := cause, code := 7, addr := 0x8000, mask := 1, path := allLanes, async := false }
def trapped (t : Option Trap) (as : List Trap) (s : State) : State := s.modStroke 0 (fun st => { st with trap := t, async := as })
theorem test_meets_traps : [
    meets (trapper 0x701 (ready (.trap { z with c := 7 }))) (.trap { z with c := 7 }) (fun s x =>
      ((s.stroke? 0).any (fun st => st.inflight.isEmpty && st.busy.isEmpty && !st.handler)) && (x.group s).cr.trapBase.getLsbD 0),
    meets (trapper 0x701 (ready (.bkpt { z with c := 255 }))) (.bkpt { z with c := 255 }) (fun s x => (x.group s).cr.trapBase.getLsbD 0 && x.agent == .stroke 0),
    !((trapper 0 (ready (.trap z))).group? 0).any (fun gr => gr.cr.trapBase.getLsbD 0),
    ((flying (ready (.trap z))).stroke? 0).any (fun st => st.inflight.any (fun i => !i.engine)),
    !([0x08, 0x09, 0x0C, 0x17].contains cMISALIGN),
    ((trapped (some (trap1 1)) [] (trapper 0x701 (ready (.nop z)))).stroke? 0).any (fun st => st.trap == some (trap1 1)) &&
      !halted (trapper 0x701 (ready (.nop z))) 0 0,
    ((trapped none [trap1 0x0F] (trapper 0x701 (ready (.nop z)))).stroke? 0).any (fun st => st.async == [trap1 0x0F])].all id = true := by decide +kernel

/-- A stroke in handler mode with its shadows. -/
def shadowed (w : Wait) (s : State) : State := s.modStroke 0 (fun st => { st with
  addr := 0x8010, shadows := (List.range 32).map (fun l => { pc := 0x8004, wait := w, onPath := l == 0 }) })
theorem test_meets_return : ((shadowed (.bar 3 0) (ready (.rte z))).stroke? 0).any (fun st => decide (st.lanes.length = 32) && decide (st.shadows.length = 32) &&
    !st.cause.getLsbD 24 && decide ((st.shadows[1]?).map (·.wait) = some (.bar 3 0))) = true := by decide +kernel

theorem test_meets_control_registers : [0, 3, 4, 5, 6, 7, 8, 9, 10, 11].all (fun n =>
    meets (ready (.csrw { z with b := BitVec.ofNat 9 n, c := 6 })) (.csrw { z with b := BitVec.ofNat 9 n, c := 6 }) (fun _ _ => true)) = true := by decide +kernel

/-- What a fetch meets. -/
def fetchLand (s : State) (n : Nat) : Except Bad Landing :=
  landVirtual s { grp := 0, part := 0, core := 0 } { space := .G, spaces := [.G], size := n, align := 0, acc := .fetch } codeBase
theorem test_meets_steps : [
    okWith (fun la => okWith (fun r => r == (Instr.add add1, 8)) (decode Ctx.thread (readBytes (ready (.add add1)) la.loc 32))) (fetchLand (ready (.add add1)) 32),
    okWith (fun la => decide (decode Ctx.thread ((readBytes (withCode State.reset false [1]) la.loc 32).take 4) = .error .truncated))
      (fetchLand (withCode State.reset false [1]) 32),
    okWith (fun la => decide (decode Ctx.thread (readBytes (withCode State.reset false (natBytes 8 (0x5F * 4 + 1))) la.loc 32) = .error .opcode))
      (fetchLand (withCode State.reset false (natBytes 8 (0x5F * 4 + 1))) 32),
    okWith (fun la => (marks (fun m => { m with poisG := [(256, true)] }) (ready (.add add1))).mem.anyPoison la.loc 32) (fetchLand (ready (.add add1)) 32),
    !isOk (fetchLand (State.reset) 32),
    decide (turnEnv (ready (.add add1)) 0x58 plainFields 0 ≠ none)].all id = true := by decide +kernel
theorem test_meets_idle_steps : (nextEvent State.reset == none || (nextEvent State.reset).any isEvent) = true ∧
    ({ State.reset with agenda := [.boot] } : State).turn = .none ∧ isEvent .boot = true := by decide +kernel
theorem test_meets_round_trip : (Instr.add add1).wellFormed Ctx.thread = true ∧ (encode (.add add1)).isSome = true := by decide +kernel
theorem test_meets_canonical : State.reset.mem.wf = true ∧ (match step (ready (.st ld1)) with
    | .next _ => true
    | _ => false) = true ∧ memWf [] = true := by decide +kernel

/-! ### Events: the states in which the clauses of their statements speak -/

def dev0 (g : State → State := id) : State := g { ready (.nop z) with turn := .none }
def part0 (g : Partition → Partition) (s : State) : State := s.modPart 0 g
/-- A kernel header at 0x9000 whose code stands at 0x8000, and a packet that launches it with a grid of n groups. -/
def header1 : List Byte := natBytes 4 0x4B594341 ++ natBytes 2 2 ++ natBytes 1 0 ++ natBytes 1 4 ++ natBytes 8 (2 ^ 64 - 0x1000) ++ natBytes 48 0
def packet1 (n flags : Nat) : List Byte :=
  natBytes 8 0x9000 ++ natBytes 8 0 ++ natBytes 2 n ++ natBytes 10 0x00010001000100010001 ++ natBytes 4 0 ++ natBytes 8 flags ++ natBytes 88 0
def headed (s : State) : State := part0 (fun p => { p with mask := 3, ring := [0, 1] }) (bytesAt .g 0x9000 header1 s)
def launch1 (n : Nat) : Launch := { packetLaunch 7 0 (packet1 n 0) false none with
  kern := kernelOf header1 0x9000, dims := { gx := n }, header := 0x9000, phase := .eligible }
/-- A launch numbered 7 in the queue of class 0. -/
def queued (g : Launch → Launch) (s : State) : State := enqueueLaunch (headed s) (g (packetLaunch 7 0 (packet1 2 0) false none))
def holding (g : Launch → Launch) (s : State) : State :=
  let s := queued g s
  part0 (fun p => { p with queues := [[], [], [], []], hold := [7] }) s
def at7 (s : State) (p : Launch → Bool) : Bool := (s.launch? 7).any p
def isOkOr {e a : Type} (p : e → Bool) : Except e a → Bool
  | .ok _ => false
  | .error x => p x
def isHold : Judged → Bool
  | .hold _ => true
  | _ => false
def noLeaf2 (s : State) : State := { s with mem := { s.mem with g := memWrite s.mem.g 0x2000 (natBytes 8 0) } }
theorem test_meets_launch_checks : [
    (dev0.part? 0).isSome && queueRoom dev0 0 0 != 0, queueRoom (dev0 (part0 (fun p => { p with queues := [List.replicate 256 1, [], [], []] }))) 0 0 == 0,
    at7 (dev0 (queued id)) (fun l => l.phase == .queued && (match checkLaunch (dev0 (queued id)) l with
      | .ok k => k.dims.gx == 2 && k.kern.thread == 0x8000
      | _ => false)),
    at7 (dev0 (queued (fun l => { l with packet := packet1 2 0x40 }))) (fun l => packetOk l.packet == false &&
      isOkOr (· == .code 1) (checkLaunch dev0 l)),
    at7 (dev0 (fun s => noLeaf2 (queued id s))) (fun l => isOkOr isHold (checkLaunch (dev0 (fun s => noLeaf2 (queued id s))) l)),
    at7 (dev0 (queued (fun l => { l with phase := .checked }))) (fun l => !mustWait dev0 l && l.phase == .checked),
    mustWait dev0 { launch1 2 with waitAddr := 0xA000, waitVal := 1 } && holdRoom dev0 0, mustWait dev0 { launch1 2 with timed := true, tstart := 9 },
    holdRoom (dev0 (part0 (fun p => { p with hold := List.replicate 64 1 }))) 0 == false,
    at7 (dev0 (holding (fun l => { l with phase := .held, waitAddr := 0xA000, waitVal := 1 }))) (fun l => l.phase == .held &&
      (match hubRead dev0 0 l.ended 0xA000 8 [0, 1, 2] with
        | .ok _ => true
        | _ => false)),
    at7 (dev0 (holding (fun l => { l with phase := .eligible, timed := true, tstart := 0 }))) (fun l => l.phase == .eligible && l.timed)].all id = true := by decide +kernel

def ending (g : Launch → Launch) (s : State) : State := queued (fun l => g { l with phase := .resident, gone := 2, placed := 2 }) s
def blocker (g : Launch → Launch) (s : State) : State :=
  let t := ending (fun l => { l with phase := .waiting, blocked := some 8 }) s
  { t with launches := mapPut t.launches 8 (g { packetLaunch 8 0 [] false none with isTask := true }) }
theorem test_meets_launch_ends : [
    at7 (dev0 (ending id)) (fun l => l.phase == .resident && l.id == 7 && l.gone == l.placed && !hasRange (dev0 (ending id)) 7),
    at7 (dev0 (ending (fun l => { l with gone := 1 }))) (fun l => l.gone != l.placed),
    at7 (dev0 (ending (fun l => { l with phase := .ending }))) (fun l => l.succ == 0 && l.status == 0),
    isOk (hubReach dev0 0 [] 0xA000 8 .store [0, 1, 2]), isOkOr (fun e => decide (e = .gone)) (hubReach dev0 0 [] 0x40000000 8 .store [0, 1, 2]),
    isOkOr (fun e => decide (e ≠ .gone)) (hubReach (dev0 noLeaf2) 0 [] 0xA000 8 .store [0, 1, 2]),
    isOk (waitBlock dev0 (launch1 2) 0xA000 8 .atomic), isOk (waitBlock dev0 (launch1 2) 0xA000 128 .load),
    at7 (dev0 (blocker id)) (fun l => l.blocked == some 8 && ((dev0 (blocker id)).launch? 8).any (fun t => queueRoom (dev0 (blocker id)) t.part t.cls != 0)),
    at7 (dev0 (queued (fun l => { l with nomethod := some 1 }))) (fun l => l.nomethod == some 1),
    (dev0.part? 0).any (fun p => p.cr.dispFault.toNat / 128 == 0)].all id = true := by decide +kernel

def given (g : Launch → Launch) (s : State) : State := enqueueLaunch (headed s) (g (launch1 2))
def ranged (g : Launch → Launch) (x : Sched → Sched) (s : State) : State :=
  { given g s with scheds := [(0, x { ranges := [⟨7, 0, 2⟩] })] }
/-- Cores that are all sampled cool are on a machine of which core 0 alone has a reading; the rest are avoided. -/
def cooled (s : State) : State := s.modCore 0 (fun c => { c with temp := some 40 })
def corDev (g : Launch → Launch) : State := dev0 (given (fun l => g { l with cor := true }))
def stealing (r : Option (List Range)) (n : Nat) (s : State) : State :=
  let s := given (fun l => { l with isTask := true }) s
  { s with scheds := [(0, { steal := some { part := 0, victim := 1, reply := r } }), (1, { ranges := (List.range n).map (fun i => ⟨7, i, 1⟩) })] }
theorem test_meets_handing_out : [
    ((candidate (dev0 (given id)) 0 0).any (fun l => !l.cor)) && mayHand (dev0 (given id)) 0 0,
    (inOrder (dev0 (given id)) ((clustersOf (dev0 (given id)) 0).filter (rangeRoom (dev0 (given id))))).length == 2,
    isTaskRange (dev0 (stealing none 4)) 0 ⟨7, 0, 1⟩].all id = true := by decide +kernel
theorem test_meets_cor : ((candidate (corDev id) 0 0).any (fun l => l.cor && !needsMethod l)) = true ∧
    mayHand (corDev id) 0 0 = true ∧ (assignAll (corDev id) { launch1 2 with cor := true }).isSome = true := by decide +kernel
theorem test_meets_placing : (placeGroup (dev0 (given id)) (launch1 2) 0 0).isSome = true ∧ (firstRange (dev0 (ranged id id)) [⟨7, 0, 2⟩]) = some ⟨7, 0, 2⟩ ∧
    (placeIn (dev0 (ranged id id)) (launch1 2) 0 0).isSome = true := by decide +kernel
theorem test_meets_sensors : (dev0.core 5).fenced = false ∧ ((dev0 cooled).core 0).temp = some 40 := by decide +kernel
theorem test_meets_steals : [
    !hasRunnable (dev0 (given id)) {} && decide (2 ≤ allFree (dev0 (given id)) 0) && ((ringAfter [0, 1] 0)[0]?) == some 1,
    (mapGet (dev0 (stealing none 4)).scheds 0 {}).steal == some ⟨0, 1, none⟩,
    (mapGet (dev0 (stealing (some [⟨7, 0, 1⟩]) 4)).scheds 0 {}).steal == some ⟨0, 1, some [⟨7, 0, 1⟩]⟩].all id = true := by decide +kernel

def packetTo (msg : MeshMsg) (d : MeshDest) : Packet :=
  { serves := .group 136, src := .core 17, dst := d, msg := msg, txn := 5, source := none, data := [1], line := none, key := 0, spoiled := false }
def flit1 (p : Place) : MeshFlit :=
  { id := 4, vn := 0, cls := 1, ocls := 1, src := (2, 2), dst := (2, 6), fin := (0, 0), rly := false, phase := 0, ltgt := 0, psn := false
    lcrc := 0, data := [1], packet := packetTo .completion (.agent 0 (.core 49)), origin := 0, at_ := (2, 2), place := p }
def meshed (f : MeshFlit) : State := { dev0 with meshes := [(0, { flits := [f] })] }
def relay1 : MeshFlit := { flit1 .relay with at_ := (2, 6), dst := (2, 6), fin := (3, 6), rly := true }
/-- A line of core 49 that has arrived there, and a line for another cluster that stands before the gateway of its way. -/
def arrived1 : MeshFlit :=
  { flit1 .eject with cls := 2, ocls := 2, at_ := (2, 6), packet := { packetTo .writeData (.agent 0 (.core 49)) with line := some (.u 49 3) } }
def away1 : MeshFlit :=
  let p := packetTo .completion (.agent 1 (.core 0))
  let g := siteOf (agentFor 0 p.dst)
  { flit1 .eject with packet := p, at_ := g, dst := g, ltgt := ltgtOf (agentFor 0 p.dst) }
def behind1 : State := { dev0 with meshes := [(0, { flits := [{ flit1 (.buffer 0 false) with id := 3 }, flit1 (.buffer 0 false)] })] }
/-- A flit that starts at a site further on, in the way of the first. -/
def crossed1 : State := { dev0 with meshes := [(0, { flits := [{ flit1 .inject with id := 3, at_ := (2, 4), src := (2, 4) }, flit1 .inject] })] }
def sending (s : State) : State := { s with groups := (136, deviceGroup) :: s.groups }
def mesh0 (s : State) : Mesh := s.mesh 0
theorem test_meets_mesh : [
    siteOk (2, 2) && siteOk (7, 5) && (routeRuns (2, 2) (7, 5)).2, !(routeRuns (2, 3) (7, 6)).2,
    agentOk (.core 17) && placeOk (.agent 0 (.core 49)) && networkOf (sending dev0) 0 (.core 17) (.group 136) == some 0 &&
      maySend (mesh0 dev0) 0 (packetTo .writeData (.agent 0 (.core 49))), networkOf dev0 0 (.core 17) (.group 136) == none,
    (strideOf (meshed (flit1 .inject)) (mesh0 (meshed (flit1 .inject))) (flit1 .inject) 2 (2, 2)).1.length == 4,
    wants (flit1 .inject) == some 2, wants (flit1 (.buffer 0 false)) == some 2,
    (strideOf behind1 (mesh0 behind1) (flit1 (.buffer 0 false)) 2 (2, 2)).1.isEmpty,
    strideOf crossed1 (mesh0 crossed1) (flit1 .inject) 2 (2, 2) == ([((2, 3), .buffer 0 false)], some (2, 4)),
    findFlit (meshed relay1) 0 4 == some relay1 && wants (legOf relay1) == some 1 &&
      !(strideOf (meshed relay1) (mesh0 (meshed relay1)) (legOf relay1) 1 (2, 6)).1.isEmpty].all id = true := by decide +kernel
theorem test_meets_arrivals : [
    findFlit (meshed arrived1) 0 4 == some arrived1 && headOf 0 (mesh0 (meshed arrived1)) arrived1 && atHome 0 arrived1 &&
      takes (mesh0 (meshed arrived1)) (agentHere 0 arrived1) arrived1 && holdsLine arrived1.packet.dst (.u 49 3) && (linePlace (.u 49 3)).isSome].all id = true := by decide +kernel
theorem test_meets_gateways :
    atHome 0 away1 = false ∧ (gateClaims (meshed away1) 0 away1).length = 1 := by
  have h : agentFor 0 (MeshDest.agent 1 (.core 0)) = .clusterGate (Config.gatewayOf 1024 % 2) := by simp [agentFor, destNumber]
  have hn : Config.gatewayOf 1024 % 2 < 2 := Nat.mod_lt _ (by decide)
  refine ⟨by simp [atHome, agentHere, away1, packetTo, flit1, h], ?_⟩
  simp only [gateClaims, away1, packetTo, flit1, meshed, h]
  generalize Config.gatewayOf 1024 % 2 = n at *
  interval_cases n <;> decide +kernel

def lineOf0 : Nat := codeLine 0 codeBase
def warm (s : State) : State := s.modCore 0 (fun c => { c with icache := [lineOf0], active := [[0], [], [], []] })
def cold (n : Nat) (s : State) : State := s.modCore 0 (fun c => { c with pending := [[0], [], [], []], active := [(List.range n).map (fun i => 4 * i + 4), [], [], []] })
def walking : State := dev0 warm
def waited (s : State) : State := { s.modCore 0 (fun c => { c with waits := [some (0, 0), none, none, none] }) with cycle := 4 }
/-- Two strokes of one group at one PC, both in the active set of one nib. -/
def twins (s : State) : State :=
  { unhandled (warm s) with strokes := (unhandled s).strokes ++ [(4, { deviceStroke with index := 4 })] }.modCore 0 (fun c => { c with active := [[0, 4], [], [], []] })
def ready0 (s : State) : Bool := [0].filter (fun k => fetchable s k (eligible s k) != 0) == [0]
theorem test_meets_pick : leastBy (pickKey (ageOut walking 0)) [0] = some 0 := rfl
def readyScribe : State := { readyCtx (.ccan { z with a := 0x06 }) with turn := .none }.modCore 0 (fun c => { c with icache := [lineOf0] })
def flown (i : InFlight → InFlight) (s : State) : State :=
  s.modStroke 0 (fun st => { st with inflight := [i { id := 1, lanes := allLanes, counts := true, la := 15, result := [{ reg := .v 8, lane := 3, val := 7 }] }] })
def slow (s : State) : State := s.modStroke 0 (fun st => { st with busy := [(.summary, [{ reg := .v 8, lane := 3, val := 7 }])] })
def parkedOn (p : Park) (s : State) : State := s.modStroke 0 (fun st => { st with park := some p })
def place1 : Loc := { home := .g, addr := 0xA000 }
theorem test_meets_nibs : [
    (walking.core 0).icache.contains lineOf0, !(walking.core 0).icache.contains 3, isOk (walkPage dev0 0 0x8000), isOkOr (fun _ => true) (walkPage dev0 5 0x8000),
    [(dev0 (cold 0)), dev0 (cold 8)].all (fun s => [0].find? (fun k => eligible s k != 0) == some 0), ready0 (ageOut walking 0) && !leaves walking 0 && eligible walking 0 != 0 && ((walking.core 0).picked[0]?).getD 0 != walking.cycle + 1,
    ((dev0 (fun s => waited (cold 8 s))).core 0).waits[0]? == some (some (0, 0)), (((dev0 (cold 8)).core 0).active[0]?).getD [] == [4, 8, 12, 16, 20, 24, 28, 32],
    ((dev0 twins).stroke? 0).any (fun st => !(donorsFor (dev0 twins) 0 st 3).isEmpty && (planAt (dev0 twins) 0 0).isSome),
    ((dev0 warm).stroke? 0).any (fun st => st.handler && (planAt (dev0 warm) 0 0).isSome),
    leastBy (fun g => [(readyScribe.ctx? g).elim 0 (·.lastIssue), g]) ((upTo 0 8).filter (ctxReady readyScribe)) == some 0,
    ((dev0 (flown id)).stroke? 0).any (fun st => st.inflight.any (fun i => i.id == 1 && i.waitFor == 0 && !i.engine && i.result.all (fun w => !toPort deviceGroup w))),
    ((dev0 slow).stroke? 0).any (fun st => !st.killed && st.lanes.length == 32 && st.lanes.all (·.live)),
    (absentLines dev0 place1 4).isEmpty, ((dev0 (parkedOn (.waitm place1 32 true .le 5 allLanes 8))).stroke? 0).any (fun st => Cond.le.holds (bytesNat (loadBytes dev0 st.fifo place1 4)) 5),
    !Cond.gt.holds (bytesNat (loadBytes dev0 [] place1 4)) 5 && !dev0.mem.anyPoison place1 4,
    !decide ((1 : Nat) ≤ bytesNat (loadBytes dev0 [] place1 8)), decide ((0 : Nat) ≤ bytesNat (loadBytes dev0 [] place1 8))].all id = true := by decide +kernel

/-- A copy of 160 bytes from D to the group's scratchpad, its engine, and a context that waits for it in k9. -/
def copyA : Copy :=
  { id := 3, group := 0, part := 0, kind := .plain, kS := 9, dSpace := 0, sSpace := 4, dBase := 0x40, sBase := 0xA000, len := 160, lenBad := false, ent := false }
def copyDev (g : Copy → Copy) : State := { ready (.ccan { z with a := 0x06 }) with turn := .none, copies := [g copyA] }.modCtx 0 (fun c => { c with pending := [(9, 3)] })
def begun (c : Copy) : Copy := { c with started := true }
def write1 : RemoteWrite := { id := 6, part := 0, core := 0, addr := 0x100, data := [1, 2, 3, 4], copy := none }
def remoted (w : RemoteWrite) (present : Bool) : State := { copyDev id with remote := [w] }.setPresent 2 present
def second : Copy := { begun copyA with beat := 1 }
def beatOk (s : State) (c : Copy) : Bool := match copyReach (takeSlot s c) c c.src 0xA040 64 .load, copyReach (takeSlot s c) c c.dst 0x80 64 .store with
  | .ok _, .ok _ => mayBeat s c && slotGranted s c
  | _, _ => false
def copyM : Copy := { copyA with kind := .mcast false 1, dSpace := 0, len := 160 }
def withdrawn1 : State := { (remoted { write1 with copy := some (3, 0) } true) with copies := [{ copyM with cancel := true }] }
theorem test_meets_copy_events : [
    mayStart (copyDev (fun _ => copyM)) copyM && (uLoc (copyDev (fun _ => copyM)) 0 0x40 16).isSome && mcastOk (copyDev (fun _ => copyM)) copyM false [],
    !mcastOk (copyDev (fun _ => copyM)) { copyM with lenBad := true } false [],
    withdrawn withdrawn1 { write1 with copy := some (3, 0) } && withdrawn1.present 2, !withdrawn (remoted write1 true) write1,
    coreOfLine 2 == 0 && ({ remoted write1 true with armings := [2] }).present 2,
    pageShare (copyDev begun) 0 .D 0xA000 == pageShare (copyDev begun) 0 .U 0x40,
    mayStart (copyDev id) copyA && copyOk (copyDev id) copyA, !copyOk (copyDev (fun c => { c with len := 161 })) { copyA with len := 161 },
    mayBeat (copyDev begun) (begun copyA) && slotGranted (copyDev begun) (begun copyA),
    beatOk (copyDev (fun _ => second)) second,
    (mayBeat (copyDev id) copyA && slotGranted (copyDev id) copyA) == false,
    !outstanding (copyDev begun) 3 && decide (({ begun copyA with beat := 3 }).beats ≤ 3) && !descheduled (copyDev begun) 0,
    ((copyDev begun).ctx? 0).any (fun x => mapGet? x.pending 9 == some 3),
    (remoted write1 false).present 2 == false && (remoted write1 true).present 2, !moreOfLine (remoted write1 false) write1,
    (remoted { write1 with refused := some 0 } false).remote.filter (fun w => w.refused.isSome && w.addr / 128 == 2 && w.core == 0) ==
      [{ write1 with refused := some 0 }],
    (((remoted write1 true).part? 0).any (fun p => decide ((0 : Nat) < 0 + p.hold_ns)) : Bool),
    ((remoted write1 true).part? 0).any (fun (p : Partition) => decide (0 + p.hold_ns ≤ 1000000))].all id = true := by decide +kernel

/-- A group whose stroke 0 alone is declared, with a round that every lane of it has signed. -/
def sig1 (l : Nat) : Sig := { q := 0, lane := l, pc := 0x8000, aReg := 8, aN := 0, bReg := 9, bN := 0, a := [], b := [] }
def round1 : Round := { ta := 8, tb := 8, bank := 0, zero := true, rua := false, rub := true, started := 0, sigs := (List.range 32).map sig1, futs := [] }
def rounded (r : Round) (s : State) : State := group0 (fun g => { g with cvs := [(2, { decl := some (0, 1), round := some r })], alloc := 3 }) s
def fired1 : Fired := { id := 5, group := 0, quart := 0, ta := 8, tb := 8, bank := 0, zero := false, nbv := 2, a := [], b := [], futs := [] }
def firedDev (s : State) : State := { s with fired := [fired1] }
def unsigned1 : Round := { round1 with sigs := [sig1 3] }
/-- An MMS of two 32 by 32 tiles of i8, or of records that are no tiles. -/
def bytesRec (base : Nat) : List Byte := natBytes 8 base ++ natBytes 4 32 ++ natBytes 4 32 ++ natBytes 4 32 ++ natBytes 2 8 ++ natBytes 10 0
def mms1 : Mms := { id := 4, group := 0, kS := 9, bank := 0, zero := false, aRec := 0, bRec := 32 }
def running1 : Mms := { mms1 with started := true, recA := bytesRec 64, recB := bytesRec 1088, banks := [0] }
def mmsDev (m : Mms) (good : Bool) : State :=
  let s := { ready (.ccan { z with a := 0x06 }) with turn := .none, mms := [m] }.modCtx 0 (fun c => { c with pending := [(9, 4)] })
  let s := group0 (fun g => { g with units := 32, alloc := 3 }) s
  if good then bytesAt .u 0 (bytesRec 64 ++ bytesRec 1088) s else s
/-- A step of an MMS and a round that both wait for the array, of which a step came last or not. -/
def arrayDev (step : Bool) : State := (rounded round1 (mmsDev running1 true)).modCore 0 (fun c => { c with fedStep := step })
theorem test_meets_round_events : [
    ((arrayDev true).core 0).fedStep && roundWaits (arrayDev true) 0 && runs (arrayDev true) 0, !((arrayDev false).core 0).fedStep,
    ((dev0 (rounded round1)).core 0).opcache.length ≤ 32, (dev0 (rounded round1)).mms.isEmpty && !descheduled (dev0 (rounded round1)) 0,
    roundComplete (dev0 (rounded round1)) 0 (0, 1) round1 && ((dev0 (rounded round1)).core 0).baton == none,
    !roundComplete (dev0 (rounded unsigned1)) 0 (0, 1) unsigned1, bankKey dev0 0 0 != bankKey dev0 0 1,
    (dev0 firedDev).fired.find? (fun q => coreOf q.group == 0) == some fired1,
    decide ((0 : Nat) + max deviceGroup.cr.cvto 4096 ≤ { dev0 (rounded unsigned1) with cycle := 0x100000 }.cycle),
    runs (mmsDev mms1 true) 0 && mmsTiles (mmsDev mms1 true) 0 (tileAt (mmsDev mms1 true) 0 0) (tileAt (mmsDev mms1 true) 0 32) &&
      (mmsBanks 0 (tileAt (mmsDev mms1 true) 0 0) (tileAt (mmsDev mms1 true) 0 32)).all (fun n => decide (n < 64) && allocated (mmsDev mms1 true) 0 n),
    !mmsTiles (mmsDev mms1 false) 0 (tileAt (mmsDev mms1 false) 0 0) (tileAt (mmsDev mms1 false) 0 32),
    ((mmsDev mms1 false).ctx? 0).any (fun x => mapGet? x.pending 9 == some 4)].all id = true := by decide +kernel

/-- Partitions 0 and 1, a session of the two, and words of party 0 on their way or in an open round. -/
def twoParts (s : State) : State := { s with parts := mapPut s.parts 1 {} }
def gated (g : Gate → Gate) (e : Session → Session) : State :=
  let s := party2 2 e (twoParts dev0)
  { s with gate := g s.gate }
def msg1 (party : Nat) : GateMsg :=
  { id := 20 + party, session := 0, party := party, part := party, rev := false, kind := 0, index := 0, xor := false, mask := 3
    w0 := [1, 2], w1 := [3, 4], stroke := 0, flight := 1, reg := 8, op := 30 }
def ground1 (ms : List GateMsg) : GateRound := { id := 50, session := 0, rev := false, kind := 0, index := 0, opened := 0, msgs := ms }
def grant1 : Grant := { record := natBytes 128 0x53594341, signatures := [], parties := [0, 1] }
def fated (g : Gate → Gate) (e : Session → Session) (r : GateRound) : Option (Option Bool) :=
  let s := gated (fun k => { g k with rounds := [r] }) e
  (s.gate.session? 0).map (fun x => roundFate s x r)
theorem test_meets_gate : [
    (match exec (.sessionCreate 16 grant1 []) (twoParts dev0) with
      | .next t => t.gate.sessions.isEmpty
      | _ => false),
    (gated (fun g => { g with inbox := [msg1 0] }) id).gate.rounds.isEmpty,
    fated id id (ground1 [msg1 0, msg1 1]) == some (some true), fated id id (ground1 [msg1 0, { msg1 1 with mask := 5 }]) == some (some false),
    fated id (fun e => { e with last1 := [(4, 1)] }) (ground1 [msg1 0]) == some (some false),
    fated (fun g => { g with forfeit := [(0, 0, 0)] }) id (ground1 [msg1 0]) == some (some false),
    fated id (fun e => { e with dead := [0] }) { ground1 [{ msg1 0 with rev := true }] with rev := true } == some (some false),
    fated id id (ground1 [msg1 0]) == some none,
    descheduled (part0 (fun p => { p with scheduled := false }) (gated id id)) 0 && !descheduled (gated id id) 0,
    decide ((ground1 []).opened + 1 ≤ { gated id id with ns := 1 }.ns),
    (gated id (fun e => { e with expiry := 9 })).gate.sessions.all (fun e => e.2.expiry != 0 && decide ((gated id id).ns < e.2.expiry))].all id = true := by decide +kernel

def port1 (fails : Nat) : Port := { lseq := 4, fails := fails, retry := [(2, flitA), (3, flitA)] }
where
  flitA : Flit := { src := 0, dst := 1, part := 0, to_ := 0, tseq := 1, body := .store 0xA000 [1] }
def linked (g : Link → Link) : State :=
  let s := part0 (fun p => { p with peers := [(0, 0), (1, 0)] }) (dev0 headed)
  { s with link := g s.link }
def ported (fails : Nat) : State := linked (fun k => { k with ports := port1 fails :: k.ports.tail, routes := [(1, 0)] })
def lostDev : State :=
  linked (fun k => { k with noRoute := [(1, 0)], out := [port1.flitA], signals := [{ id := 9, part := 0, dev := 1, to_ := 0, va := 0, addend := 1, stamp := 1, behind := [port1.flitA] }] })
def inFlit (n va : Nat) : Flit := { src := 1, dst := 0, part := 0, to_ := 0, tseq := BitVec.ofNat 32 n, body := .store va [1, 2] }
def sigFlit (va : Nat) : Flit := { src := 1, dst := 0, part := 0, to_ := 0, tseq := 3, body := .signal va 5 3 }
/-- A flit whose page firmware has still to resolve, and how a flit comes in at port 0. -/
def stuckFlit (s : State) : State :=
  let r : FaultRec := { token := 5, part := 0, va := 0xA000, cause := 0x09, access := 1, core := 0, agent := none, copy := none, flit := some (inFlit 1 0xA000) }
  part0 (fun p => { p with faults := [r] }) s
def came (lseq : BitVec 16) (fcrc : Bool) : Came := { port := 0, lseq := lseq, lack := 0, fcrc := fcrc }
def sender (behind : List Flit) : State :=
  linked (fun k => { k with out := [port1.flitA], signals := [{ id := 9, part := 0, dev := 1, to_ := 0, va := 0, addend := 1, stamp := 1, behind := behind }] })
theorem test_meets_inkline : [
    ((ported 8).link.ports[0]?).any (fun p => p.up && p.fails == 8 && p.retry.any (fun r => r.1 == 3)), ((ported 2).link.ports[0]?).any (fun p => p.waiting.isEmpty && p.retry.any (fun r => r.1 == 3)), ((ported 2).link.ports[0]?).any (fun p => p.fails == 2),
    (ported 0).link.routes.contains (1, 0) && mapGet? (ported 0).link.noRoute 1 == none,
    mapGet? lostDev.link.noRoute 1 == some 0 && routeOf lostDev 1 == none && decide (lostDev.ns < 10000000),
    (lostDev.part? 0).any (fun p => p.counters.length == 9 && (p.counters[6]?).getD 0 == 0),
    targetPart (linked id) (inFlit 1 0xA000) == some 0 && isOk (peerReach (linked id) 0 0xA000 2 .store),
    isOkOr (fun e => decide (e = .gone)) (peerReach (linked id) 0 0x40000000 2 .store),
    isOkOr (fun e => decide (e ≠ .gone)) (peerReach (noLeaf2 (linked id)) 0 0xA000 2 .store),
    mapGet (linked (fun k => { k with rx := [(linkKey 1 0, 4)] })).link.rx (linkKey 1 0) 0 == 4,
    heldBefore (stuckFlit (linked id)) (inFlit 2 0xA000), !heldBefore (linked id) (inFlit 1 0xA000),
    ((linked id).link.ports[0]?).any (fun p => p.up && (came 0 true).lseq == p.got + 1 && (came 1 true).lseq != p.got + 1 && !(came 0 false).fcrc),
    (sender [port1.flitA]).link.signals.any (fun g => !g.sent && g.behind.any (fun f => (sender []).link.out.contains f)),
    (sender []).link.signals.all (fun g => g.behind.isEmpty),
    (linked (fun k => { k with applied := [(1, 0, 0xA000, 3)] })).link.applied.contains (1, 0, 0xA000, 3) && isOk (peerReach (linked id) 0 0xA000 8 .atomic),
    (sender []).link.out.contains port1.flitA && port1.flitA.dst != (sender []).link.dev].all id = true := by decide +kernel

/-- A launch of two members, this device's rank r, one chunk of 16 words of i32 at 0xA000, its slots at 0xB000, records at 0xC000. -/
def coll1 (r timeout : Nat) : Coll :=
  { op := 2, rank := r, nmem := 2, timeout := timeout, slot := 0, stage := 0xB000, cstat := 0xC000, slotBytes := 0x400, cid := 5, devs := [0, 1]
    shift := 0, chunks := 1, tiles := [natBytes 8 0xA000 ++ natBytes 4 1 ++ natBytes 4 16 ++ natBytes 4 64 ++ natBytes 2 2 ++ natBytes 10 0] }
def chunked (r timeout : Nat) (k : Chunk → Chunk) (s : State → State := id) : State :=
  let t := linked id
  s { t with
    launches := [(7, { launch1 1 with coll := some (coll1 r timeout), phase := .resident, left := [(0, 0)] })]
    chunks := [k { launch := 7, chunk := 0 }] }
def isChunk (s : State) (p : Launch → Coll → Chunk → Bool) : Bool := (chunkState s 7 0).any (fun e => p e.1 e.2.1 e.2.2)
def bothIn (k : Chunk) : Chunk := { k with fired := true, filled := [(0, 64, 0), (1, 64, 0)] }
def fireCopy : Copy := { copyA with kind := .fire 7 0 1 0, started := true, dests := [{ addr := 0xB000, dev := 1, landed := 160 }], beat := 3, bytes := 160 }
theorem test_meets_chunks : [
    copyOver { chunked 1 0 id with copies := [fireCopy] } fireCopy && fireCopy.code != 1 && !fireCopy.told,
    isChunk (chunked 0 0 id) (fun l c k => l.id == 7 && !k.fired && chunkReady l c 0 && c.rank == 0 && isOk (hubReach (chunked 0 0 id) 0 l.ended 0xA000 64 .load [0]) &&
      isOk (putG (chunked 0 0 id) l 0xB000 (natBytes 64 0))),
    isChunk (chunked 1 0 id) (fun l c k => !k.fired && chunkReady l c 0 && c.rank != 0), isChunk (chunked 1 0 bothIn) (fun _ c k => k.fired && c.rank != 0),
    isChunk (chunked 0 0 bothIn) (fun l c k => (List.range c.nmem).all (fun r => k.filled.any (fun f => f.1 == r)) && (match foldSlots (chunked 0 0 bothIn) l c k with
      | .ok ps => ps.length == 2
      | .error _ => false)),
    isChunk (chunked 0 1 (fun k => { k with filled := [(0, 64, 0)] })) (fun _ c k => c.timeout != 0 && !k.folded && !k.filled.isEmpty),
    isChunk (chunked 1 1 bothIn (fun s => { s with ns := 2000 })) (fun l c k => k.fired && k.result == 0 && decide (k.firedAt + 2000 * c.timeout ≤ 2000) &&
      isOk (putG (chunked 1 1 bothIn) l 0xC000 (chunkRecord 3 0 2000 0)) && isOk (putG (chunked 1 1 bothIn) l 0xA000 (natBytes 64 0)))].all id = true := by decide +kernel

def rec1 (a : Option AgentId) (cause : Nat) : FaultRec := { token := 5, part := 0, va := 0xA000, cause := cause, access := 1, core := 0, agent := a, copy := none }
def faulted (r : FaultRec) (g : State → State := id) : State := g (part0 (fun p => { p with faults := [r] }) (dev0 (fun s => s.modStroke 0 (fun st => { st with fault := some 5 }))))
/-- The leaf of stage 2 as a copy-on-write page, or as no page. -/
def leafWord (w : Nat) (s : State) : State := bytesAt .g 0x2000 (natBytes 8 w) s
def cowWord : Nat := 3 + 3 * 2 ^ 45 + 2 ^ 48
def saved1 (s : State) : State := part0 (fun p => { p with scheduled := false, save := { status := [(0, 1)], groups := [(0, deviceGroup)], strokes := [(0, deviceStroke)] } })
  { s with groups := [], strokes := [], ctxs := [] }
theorem test_meets_faults : [
    findFault (faulted (rec1 (some (.stroke 0)) 0x09)) 5 == some (rec1 (some (.stroke 0)) 0x09), findFault (faulted (rec1 (some (.ctx 0)) 0x08)) 5 == some (rec1 (some (.ctx 0)) 0x08),
    findFault (faulted { rec1 none 0x09 with copy := some 3 }) 5 == some { rec1 none 0x09 with copy := some 3 },
    findFault (faulted { rec1 none 0x09 with flit := some port1.flitA }) 5 == some { rec1 none 0x09 with flit := some port1.flitA },
    findFault (faulted { rec1 none 0x09 with launch := some 7 }) 5 == some { rec1 none 0x09 with launch := some 7 },
    (dev0.stroke? 0).any (fun st => !st.killed && !st.retired && decide (st.lanes.length ≤ 32) && st.inflight.isEmpty && st.fifo.isEmpty && st.busy.isEmpty),
    (readyScribe.ctx? 0).any (fun c => !c.killed) && (fifoOf readyScribe (.ctx 0)).isEmpty,
    at7 (dev0 (queued id)) (fun l => l.id == 7 && l.phase == .queued && l.placed == 0 && l.gone == 0 && l.coll.isNone) && (dev0 (queued id)).groups.all (fun e => e.2.launch != 7),
    at7 (dev0 (ending (fun l => { l with phase := .ending }))) (fun l => l.phase == .ending),
    (let s := faulted (rec1 (some (.stroke 0)) 0x09) (leafWord cowWord)
     ((ipaOf s 0 0xA000).bind (findEntry2 s 0)) == some (0x2000, 1, cowWord, 2 ^ 30)),
    (let s := faulted (rec1 (some (.stroke 0)) 0x09)
     ((ipaOf s 0 0xA000).bind (findEntry2 s 0)).any (fun e => e.2.2.1 % 4 == 3 && !e.2.2.1.testBit 48)),
    (let s := faulted (rec1 (some (.stroke 0)) 0x09) (leafWord 2)
     (findEntry2 s 0 0xA000).any (fun e => e.2.2.1 % 2 == 0)),
    (dev0.part? 0).any (·.scheduled), ((dev0 saved1).part? 0).any (fun p => !p.scheduled && mapGet p.save.status 0 0 == 1 && restoreRoom (dev0 saved1) 0 0 p.save.groups),
    ((dev0 (fun s => part0 (fun p => { p with save := { status := [(0, 2)], ipa := [(0, 1)] } }) s)).part? 0).any (fun p => mapGet p.save.status 0 0 == 2 && p.save.stopped.isEmpty)].all id = true := by decide +kernel

/-- The device with its firmware at a stage, after g. -/
def staged (b : BootStage) (g : Sys → Sys := id) : State := { dev0 with sys := g { dev0.sys with stage := b } }
def cfg1 (n : Nat) : PartCfg :=
  { part := n, weight := 4, mask := 1, cwin := [], peers := [], s1root := 0x3000, s2root := 0x4000, trapBase := 0, owner := [], key := 0, cells := [] }
theorem test_meets_firmware : [
    running (staged .running) && !running (staged .off) && !running (staged .recovery),
    decide ((cfg1 2).part < 8 ∧ (staged .running).part? 2 = none) && !decide ((staged .running).part? (cfg1 0).part = none),
    unitExists (.core 1535) && !unitExists (.core 1536) && unitExists (.port 15) && !unitExists (.port 16),
    decide (FenceUnit.port 3 ∉ (staged .running).sys.fences ∧ FenceUnit.port 3 ∈ (staged .running (fun y => { y with fences := [.port 3] })).sys.fences),
    decide (1000000 * (0 + 1) ≤ { staged .running with ns := 1000000 }.ns) && decide ((staged .running).ns < 1000000 * ((staged .running).sys.period + 1)),
    (State.reset.parts == []) && State.reset.sys.keys == [] && State.reset.sys.stage == .off, (staged .recovery).sys.stage == .recovery,
    decide (mapGet? (staged .off (fun y => { y with flash := [] })).sys.flash 0 = none),
    ((staged .running).part? 0).isSome && (staged .running).strokes.all (fun e => e.2.fifo.isEmpty) && (staged .running).ctxs.all (fun e => e.2.fifo.isEmpty),
    isOk (peerReach (staged .running) 0 0xA000 2 .store),
    (match walkPage (staged .running) 0 0xA000 with
      | .ok p => !p.share
      | _ => false),
    (match walkPage (sharePage (staged .running)) 0 0x40000000 with
      | .ok p => p.share && p.kind == 1
      | _ => false)].all id = true := by decide +kernel

/-- A save area at an IPA for core 0; one that is mapped, one that is not. -/
def pinned (ipa : Nat) (s : State) : State := part0 (fun p => { p with saveAreas := [(0, ipa)] }) s
def unplaced (s : State) : State := { s with groups := [], strokes := [], ctxs := [] }
theorem test_meets_slices : [
    (areaAccess (dev0 (pinned 0x200000)) true 0 0 []).2.isNone, (areaAccess (dev0 (pinned 0x40000000)) true 0 0 []).2 == some 0x40000000,
    (areaAccess (dev0 (pinned 0x200000)) false 0 0 []).2.isNone, (areaAccess (dev0 (pinned 0x40000000)) false 0 0 []).2 == some 0x40000000,
    dev0.mem.wf && (dev0.part? 0).any (fun p => p.save == {} && p.scheduled && p.cores.isEmpty),
    (groupsOfPart (dev0 unplaced) 0).isEmpty && !away dev0 0 0 && away (part0 (fun p => { p with out := [0] }) dev0) 0 0,
    !restoreRoom { dev0 unplaced with sys := { dev0.sys with fences := [.core 0] } } 0 0 [],
    ((dev0 saved1).part? 0).any (fun p => restoreRoom (dev0 saved1) 0 0 (p.save.only (· == 0)).groups && mapGet p.save.status 1 0 == 0),
    ((dev0 (part0 (fun p => { p with scheduled := false }))).part? 0).any (fun p => p.save == {}),
    (dev0.group? 0).any (fun g => g.part == 0 && g.ownsU 0 (uBase 0) && decide (uBase 0 < uBase 1))].all id = true ∧
    (dev0.groups.map (·.1)).Nodup ∧ (dev0.strokes.map (·.1)).Nodup ∧ (dev0.ctxs.map (·.1)).Nodup := by decide +kernel
theorem test_meets_pages : [
    (findEntry2 dev0 0 0xA000).any (fun e => e.2.2.1 % 4 == 3 && (e.2.2.1 / 2 ^ 10 % 4) == 0 && (2 ^ 30) % e.2.2.2 == 0 && pageFits 0 (2 ^ 30) e.2.2.2),
    (findEntry2 (dev0 (leafWord cowWord)) 0 0xA000).any (fun e => e.2.2.1 % 4 == 3 && e.2.2.1.testBit 48 && pageFits 0 (2 ^ 30) e.2.2.2 &&
      !pageFits 0 (1024 * 2 ^ 30) e.2.2.2 && (1 + 2 ^ 30) % e.2.2.2 != 0),
    (findEntry2 (dev0 (leafWord 2)) 0 0xA000).any (fun e => e.2.2.1 % 2 == 0 && e.2.2.1 / 2 ^ 10 % 4 != 3 && pageFits 0 (2 ^ 30) e.2.2.2)].all id = true := by
  decide +kernel

def idle1 : Flit := { src := 1, dst := 0, part := 0, to_ := 0, tseq := 0, body := .idle }
def folded1 : State := chunked 0 0 (fun k => { k with folded := true })
def inBeat (va : Nat) : Flit := { src := 1, dst := 0, part := 0, to_ := 0, tseq := 1, body := .beat va [1, 2] (some 5) }
def halved : State := linked (fun k => { k with halves := [(1, 5, 0xA000 / 128, true)] })
def lostCopy : State := linked (fun k => { k with copyOf := [(port1.flitA, 3, 0)] })
def sharedCopy : Copy := { second with sBase := 0x40000000 }
def sharedDev : State := sharePage (copyDev (fun _ => sharedCopy))
def goneDev : State := part0 (fun p => { p with scheduled := false }) { unplaced (remoted { write1 with refused := some 0 } false) with armings := [2] }
theorem test_meets_links : [
    decide (idle1.body = .idle) && ((linked id).link.ports[(came 0 true).port]?).any (fun p => p.up && p.waiting.isEmpty),
    lateSlot folded1 0 1 0xB400 && !lateSlot folded1 0 1 0xA000 && targetPart folded1 (inBeat 0xB400) == some 0,
    halved.link.halves.any (fun e => e.1 == 1 && e.2.1 == 5 && e.2.2.1 == 0xA000 / 128 && e.2.2.2) && isOk (peerReach halved 0 0xA000 2 .store),
    lostCopy.link.copyOf.any (fun e => e.1.dst == 1 && e.2.1 == 3),
    (match copyReach (takeSlot sharedDev sharedCopy) sharedCopy .D 0x40000040 64 .load, copyReach (takeSlot sharedDev sharedCopy) sharedCopy .U 0x80 64 .store with
      | .ok _, .ok _ => mayBeat sharedDev sharedCopy && slotGranted sharedDev sharedCopy
      | _, _ => false) && (rangeShares sharedDev 0 .D 0x40000040 64).contains true && (rangeShares sharedDev 0 .U 0x80 64).contains false,
    goneDev.armings.contains 2 && !goneDev.present 2 && gone goneDev 0 0 && goneDev.remote.any (fun w => w.refused.isSome && w.addr / 128 == 2 && w.core == 0),
    !copyAway (copyDev begun) (begun copyA), (msg1 0).isAway (part0 (fun p => { p with scheduled := false }) (gated id id)) && !(msg1 0).isAway (gated id id)].all
    id = true := by decide +kernel

/-- A task without a method, that waits for room in the hold list. -/
def nomethod1 (full : Bool) : State := dev0 (fun s => part0 (fun p => { p with hold := if full then List.replicate 64 1 else [] })
  (given (fun l => { l with isTask := true, nomethod := some 1 }) s))
theorem test_meets_servable : [
    ((candidate (nomethod1 true) 0 0).any (fun l => l.nomethod.isSome)) && !holdRoom (nomethod1 true) 0 && !canHand (nomethod1 true) 0 0,
    servable (dev0 (given id)) 0 && !servable dev0 0 && (candidate dev0 0 0).isNone].all id = true := by decide +kernel

/-- A page that the host may reach. -/
def exposed1 (s : State) : State := part0 (fun p => { p with exposed := [(0xA000, 0xB000)] }) s
def keyed1 (s : State) : State := fifo0 [.store { home := .g, addr := 0xA000, key := 7 } [1]] s
theorem test_meets_services : [
    running (exposed1 (staged .running)) && shown (exposed1 (staged .running)) 0 0xA000 2 && isOk (peerReach (exposed1 (staged .running)) 0 0xA000 2 .store),
    !shown (staged .running) 0 0xA000 2, lineOk (.g 3) && !lineOk (.g (768 * 2 ^ 23)),
    (dev0.part? 0).any (fun p => p.counters.length == 9),
    fenceHeld (staged .running) (.core 0) && !fenceHeld (staged .running) (.core 1) && !fenceHeld (staged .running) (.port 3),
    unitExists (.channel 0) && unitExists (.cluster 0),
    (staged .running (fun y => { y with fencing := [.core 0] })).sys.fencing.contains (.core 0),
    (staged .running (fun y => { y with fences := [.cluster 0], machineChecks := [0] })).sys.machineChecks.contains 0,
    keyInUse (keyed1 (staged .running)) 7 && !keyInUse (staged .running) 7,
    (staged .running (fun y => { y with throt := true })).sys.pwrCap == 4000].all id = true := by decide +kernel
theorem test_meets_hot_core : ((dev0.modCore 0 (fun c => { c with temp := some 115 })).core 0).temp.any (fun t => decide (115 ≤ t)) = true := by decide +kernel
end Sys2Proof.Tests
end

section
/-!
SUPPORT. What the work of the device leaves of its own registers: accesses, completions, kills, launches that end, copies and fences change
nothing of them but the telemetry of the period, and neither make nor end a partition.
-/
namespace Sys2Proof.Machine

/-- What the device keeps whatever its agents, units and launches do: its own registers but for the telemetry of the period, and the numbers of its
partitions. -/
def State.firm (s : State) : Sys × List Nat := ({ s.sys with telem := [] }, s.parts.map (·.1))

/-! ## Updates of the state -/

@[simp] theorem mapMod_keys {α : Type} (m : Map α) (k : Nat) (g : α → α) : (mapMod m k g).map (·.1) = m.map (·.1) := by
  simp only [mapMod, List.map_map]
  exact List.map_congr_left (fun e _ => by simp only [Function.comp]; split <;> rfl)

/-- A state that has the registers of another, and its partitions by number, is as firm. -/
@[simp] theorem firm_mk {s : State} {ps : Map Partition} (h : ps.map (·.1) = s.parts.map (·.1)) (ag : List Instr) (tn : Turn) (cy ns id fr : Nat)
    (m : MemSys) (st : Map Stroke) (gr : Map Group) (cx : Map ScribeCtx) (co : Map Core) (cp : List Copy) (en : Map Engine) (mm : List Mms)
    (fi : List Fired) (re : List RemoteWrite) (ar : List Nat) (rs : List Resv) (la : Map Launch) (sc : Map Sched) (ga : Gate) (me : Map Mesh)
    (sh : Map (List TlbEntry)) (li : Link) (ch : List Chunk) :
    (State.mk ag tn cy ns id fr m st gr cx co cp en mm fi re ar rs ps la sc ga me sh li ch s.sys).firm = s.firm := by
  simp [State.firm, h]

@[simp] theorem firm_modStroke (s : State) (k : Nat) (g : Stroke → Stroke) : (s.modStroke k g).firm = s.firm := by simp [State.firm]
@[simp] theorem firm_modGroup (s : State) (k : Nat) (g : Group → Group) : (s.modGroup k g).firm = s.firm := by simp [State.firm]
@[simp] theorem firm_modCtx (s : State) (k : Nat) (g : ScribeCtx → ScribeCtx) : (s.modCtx k g).firm = s.firm := by simp [State.firm]
@[simp] theorem firm_modCore (s : State) (k : Nat) (g : Core → Core) : (s.modCore k g).firm = s.firm := by simp [State.firm]
@[simp] theorem firm_modLaunch (s : State) (k : Nat) (g : Launch → Launch) : (s.modLaunch k g).firm = s.firm := by simp [State.firm]
@[simp] theorem firm_modGate (s : State) (g : Gate → Gate) : (s.modGate g).firm = s.firm := by simp [State.firm]
@[simp] theorem firm_modLink (s : State) (g : Link → Link) : (s.modLink g).firm = s.firm := by simp [State.firm]
@[simp] theorem firm_setPresent (s : State) (k : Nat) (b : Bool) : (s.setPresent k b).firm = s.firm := by simp [State.firm]
@[simp] theorem firm_modPart (s : State) (k : Nat) (g : Partition → Partition) : (s.modPart k g).firm = s.firm := by
  simp [State.firm]

@[simp] theorem firm_foldl {α : Type} {g : State → α → State} (h : ∀ s a, (g s a).firm = s.firm) (l : List α) (s : State) :
    (l.foldl g s).firm = s.firm := by
  induction l generalizing s with
  | nil => rfl
  | cons a l ih => exact (ih (g s a)).trans (h s a)

/-! ## Memory and streams -/

@[simp] theorem firm_writeBytes (s : State) (l : Loc) (bs : List Byte) : (writeBytes s l bs).firm = s.firm := by
  rw [writeBytes_frame]; rfl
@[simp] theorem firm_writeNat (s : State) (l : Loc) (n x : Nat) : (writeNat s l n x).firm = s.firm := firm_writeBytes ..
@[simp] theorem firm_ringPut (s : State) (g : Nat) (b : Binding) (off x : Nat) : (ringPut s g b off x).firm = s.firm := by
  rw [ringPut_frame]; rfl

@[simp] theorem firm_ringFill (s : State) (g : Nat) (b : Binding) (i : Nat) (ws : List Word) : (ringFill s g b i ws).firm = s.firm := by
  induction ws generalizing s i with
  | nil => rfl
  | cons w ws ih => simp [ringFill, ih]

@[simp] theorem firm_ringAdvance (s : State) (ring : Loc) (rs : List Resv) : (ringAdvance s ring rs).1.firm = s.firm := by
  induction rs generalizing s with
  | nil => rfl
  | cons r rs ih =>
    unfold ringAdvance
    split
    · split
      · split <;> simp [ih]
      · rfl
    · exact ih s

@[simp] theorem firm_advanceRing (s : State) (ring : Loc) : (s.advanceRing ring).firm = s.firm := by simp [State.advanceRing]

@[simp] theorem firm_resvReady (s : State) (op : Nat) (vals : List Word) : (resvReady s op vals).firm = s.firm := by
  unfold resvReady; split <;> simp

@[simp] theorem firm_writePlaces (s : State) (ls : List (Loc × Nat)) (bs : List Byte) : (writePlaces s ls bs).firm = s.firm := by
  induction ls generalizing s bs with
  | nil => rfl
  | cons l ls ih => simp [writePlaces, ih]

@[simp] theorem firm_writeMarked (s : State) (ls : List (Loc × Nat)) (bs : List Byte) (b : Bool) : (writeMarked s ls bs b).firm = s.firm := by
  unfold writeMarked; split <;> simp

@[simp] theorem firm_clearWhole (s : State) (ls : List (Loc × Nat)) : (clearWhole s ls).firm = s.firm :=
  firm_foldl (fun t l => firm_foldl (fun t i => by simp) _ t) ls s

/-! ## Completions and store FIFOs -/

@[simp] theorem firm_futureDone (s : State) (op : Nat) (w : Word) : (futureDone s op w).firm = s.firm := by
  simp [futureDone]

@[simp] theorem firm_deliver (s : State) (k op : Nat) (ws : List WriteBack) : (deliver s k op ws).firm = s.firm := rfl

@[simp] theorem firm_completeOp (s : State) (k op : Nat) : (completeOp s k op).firm = s.firm := by
  unfold completeOp
  split
  · rfl
  · split <;> simp

@[simp] theorem firm_completeIfDone (s : State) (k op : Nat) : (completeIfDone s k op).firm = s.firm := by
  unfold completeIfDone
  split
  · split <;> simp
  · rfl

@[simp] theorem firm_setFifo (s : State) (a : AgentId) (q : List FifoEntry) : (setFifo s a q).firm = s.firm := by cases a <;> rfl

@[simp] theorem firm_sendRemote (s : State) (a : AgentId) (core : Nat) (ps : List (Nat × List Byte)) (part : Nat) (sent : Option Nat) :
    (sendRemote s a core ps part sent).firm = s.firm := by
  unfold sendRemote; dsimp only; split <;> simp

@[simp] theorem firm_remoteOver (s : State) (w : RemoteWrite) : (remoteOver s w).firm = s.firm := by
  unfold remoteOver; split <;> simp

@[simp] theorem firm_performEntry (s : State) (a : AgentId) (e : FifoEntry) : (performEntry s a e).firm = s.firm := by
  cases a <;> cases e <;> simp [performEntry] <;> split <;> simp

@[simp] theorem firm_drain (n : Nat) (s : State) (a : AgentId) : (drain n s a).firm = s.firm := by
  induction n generalizing s with
  | zero => rfl
  | succ n ih =>
    unfold drain
    split
    · rfl
    · split <;> simp [ih]

@[simp] theorem firm_drainFifo (s : State) (a : AgentId) : (drainFifo s a).firm = s.firm := firm_drain ..

/-! ## The share gate -/

@[simp] theorem firm_gateLand (s : State) (r : GateResult) : (gateLand s r).firm = s.firm := by
  unfold gateLand; dsimp only; split <;> simp

@[simp] theorem firm_gateResults (s : State) (rs : List GateResult) : (gateResults s rs).firm = s.firm := by
  have h (s : State) (r : GateResult) : (gateResult s r).firm = s.firm := by unfold gateResult; split <;> simp
  simp [gateResults, h]

@[simp] theorem firm_dropRound (s : State) (id : Nat) : (dropRound s id).firm = s.firm := rfl

@[simp] theorem firm_abortRound (s : State) (r : GateRound) : (abortRound s r).firm = s.firm := by simp [abortRound]

@[simp] theorem firm_completeRound (s : State) (r : GateRound) : (completeRound s r).firm = s.firm := by
  unfold completeRound
  split
  · simp
  · dsimp only; split <;> simp

@[simp] theorem firm_gateSweep (s : State) : (gateSweep s).firm = s.firm := by
  have h (s : State) (r : GateRound) : (gateCheck s r).firm = s.firm := by
    unfold gateCheck
    split
    · rfl
    · split
      · simp
      · split <;> simp
  simp [gateSweep, h]

@[simp] theorem firm_forfeit (s : State) (owes : List (Nat × Nat × Nat)) : (forfeit s owes).firm = s.firm := by
  unfold forfeit; dsimp only; split <;> simp

@[simp] theorem firm_gateKill (s : State) (k : Nat) : (gateKill s k).firm = s.firm := firm_forfeit ..

/-! ## Barriers, the baton, retirement and kills -/

@[simp] theorem firm_barComplete (s : State) (g b : Nat) (x : Bar) : (barComplete s g b x).firm = s.firm := by simp [barComplete]

@[simp] theorem firm_barCheck (s : State) (g b : Nat) : (barCheck s g b).firm = s.firm := by
  unfold barCheck
  extract_lets once
  have h (t : State) : (once t).firm = t.firm := by
    simp only [once]
    split
    · split <;> simp
    · rfl
  exact (h _).trans (h s)

@[simp] theorem firm_barSweep (s : State) (g : Nat) : (barSweep s g).firm = s.firm := by simp [barSweep]

@[simp] theorem firm_batonGrant (s : State) (c : Nat) : (batonGrant s c).firm = s.firm := by
  unfold batonGrant
  dsimp only
  split
  · rfl
  · split <;> simp [batonResume]

@[simp] theorem firm_dropGrants (s : State) (g : Nat) : (dropGrants s g).firm = s.firm := rfl

@[simp] theorem firm_scrubGroup (s : State) (g : Nat) : (scrubGroup s g).firm = s.firm := rfl

@[simp] theorem firm_releaseGroup (s : State) (g : Nat) : (releaseGroup s g).firm = s.firm := by
  unfold releaseGroup
  split
  · split
    · dsimp only; split <;> simp
    · rfl
  · rfl

@[simp] theorem firm_retireGroup (s : State) (g : Nat) : (retireGroup s g).firm = s.firm := by
  unfold retireGroup
  split
  · dsimp only
    split <;> split <;> simp
  · rfl

@[simp] theorem firm_retireStroke (s : State) (k : Nat) : (retireStroke s k).firm = s.firm := by
  unfold retireStroke
  split
  · dsimp only; split <;> simp
  · rfl

@[simp] theorem firm_exitLanes (s : State) (k : Nat) (m : Mask) : (exitLanes s k m).firm = s.firm := by simp [exitLanes]

@[simp] theorem firm_sweepRetired (s : State) : (sweepRetired s).firm = s.firm := by simp [sweepRetired]

@[simp] theorem firm_spoilLaunch (s : State) (g : Nat) : (spoilLaunch s g).firm = s.firm := by unfold spoilLaunch; split <;> simp

@[simp] theorem firm_damage (s : State) (g : Nat) : (damage s g).firm = s.firm := by simp [damage]

@[simp] theorem firm_dropFaults (s : State) (a : AgentId) : (dropFaults s a).firm = s.firm := by simp [dropFaults]

@[simp] theorem firm_killFinish (s : State) (k : Nat) : (killFinish s k).firm = s.firm := by
  unfold killFinish
  split
  · split <;> simp
  · rfl

@[simp] theorem firm_killStroke (s : State) (k : Nat) : (killStroke s k).firm = s.firm := by
  unfold killStroke
  split
  · split <;> simp
  · rfl

@[simp] theorem firm_killCtx (s : State) (g : Nat) : (killCtx s g).firm = s.firm := by
  unfold killCtx
  split
  · split <;> simp
  · rfl

@[simp] theorem firm_killGroup (s : State) (g : Nat) : (killGroup s g).firm = s.firm := by simp [killGroup]

@[simp] theorem firm_opOver (s : State) (k op : Nat) (w : Word) : (opOver s k op w).firm = s.firm := by simp [opOver]

@[simp] theorem firm_countUp (s : State) (part i n : Nat) : (countUp s part i n).firm = s.firm := by simp [countUp]

/-! ## Launches -/

@[simp] theorem firm_tellFunction (s : State) (r : FaultRec) : (tellFunction s r).firm = s.firm := by simp [tellFunction]

@[simp] theorem firm_sendFault (s : State) (part core cause va access : Nat) (a : Option AgentId) (copy : Option Nat) :
    (sendFault s part core cause va access a copy).1.firm = s.firm := by
  unfold sendFault; dsimp only; split <;> simp

@[simp] theorem firm_unlist (s : State) (part id : Nat) : (unlist s part id).firm = s.firm := by simp [unlist]

@[simp] theorem firm_launchFault (s : State) (l : Launch) (b : Bad) : (launchFault s l b).firm = s.firm := by
  unfold launchFault; dsimp only; split <;> simp

/-- The state that a store of a status word leaves, whatever became of it. -/
def Stored.state : Stored → State
  | .done s | .held s => s

theorem firm_storeStatus (s : State) (l : Launch) : (storeStatus s l).state.firm = s.firm := by
  unfold storeStatus
  split
  · rfl
  · split <;> simp [Stored.state]

@[simp] theorem firm_endLaunch (s : State) (l : Launch) : (endLaunch s l).firm = s.firm := by
  unfold endLaunch; dsimp only; split <;> simp

@[simp] theorem firm_finishLaunch (s : State) (l : Launch) : (finishLaunch s l).firm = s.firm := by
  have h := firm_storeStatus s l
  unfold finishLaunch
  split
  · split <;> simp_all [Stored.state]
  · simp

theorem firm_of_made {s t : State} {l : Launch} (h : decrement s l = .made t) : t.firm = s.firm := by
  unfold decrement at h
  split at h <;> try contradiction
  dsimp only at h
  split at h <;> try contradiction
  split at h
  · cases h; simp
  · split at h <;> contradiction

theorem firm_of_zero {s t : State} {l : Launch} {bs : List Byte} {bad : Bool} (h : decrement s l = .zero t bs bad) : t.firm = s.firm := by
  unfold decrement at h
  split at h <;> try contradiction
  dsimp only at h
  split at h <;> try contradiction
  split at h <;> try contradiction
  split at h <;> cases h <;> simp

@[simp] theorem firm_succeedLaunch (s : State) (l : Launch) : (succeedLaunch s l).firm = s.firm := by
  unfold succeedLaunch
  split
  · simp
  · split
    next b h => simp
    next t h => simp [firm_of_made h]
    next h => simp
    next t bs bad h => simp [firm_of_zero h]

@[simp] theorem firm_concludeLaunch (s : State) (id : Nat) : (concludeLaunch s id).firm = s.firm := by
  unfold concludeLaunch
  split
  · rfl
  · next l _ =>
    have h := firm_storeStatus s l
    split
    · split <;> simp_all [Stored.state]
    · simp
    · split <;> simp
    · rfl

@[simp] theorem firm_rejectLaunch (s : State) (id code : Nat) : (rejectLaunch s id code).firm = s.firm := by
  unfold rejectLaunch
  split
  · rfl
  · dsimp only; split <;> simp

@[simp] theorem firm_releaseHeld (s : State) (l : Launch) : (releaseHeld s l).firm = s.firm := by simp [releaseHeld]

@[simp] theorem firm_satisfied (s : State) (l : Launch) : (satisfied s l).firm = s.firm := by
  unfold satisfied; dsimp only; split <;> simp

@[simp] theorem firm_pollHeld (s : State) (id : Nat) : (pollHeld s id).firm = s.firm := by
  unfold pollHeld
  split
  · split
    · split
      · simp
      · simp
      · split <;> simp
    · rfl
  · rfl

@[simp] theorem firm_pollHold (s : State) (part : Nat) : (pollHold s part).firm = s.firm := by simp [pollHold]

@[simp] theorem firm_afterEnd (s : State) (l : Launch) : (afterEnd s l).firm = s.firm := by
  unfold afterEnd; split <;> simp

@[simp] theorem firm_retireLaunch (s : State) (l : Launch) : (retireLaunch s l).firm = s.firm := by
  unfold retireLaunch
  split
  · split <;> simp
  · simp

@[simp] theorem firm_dropRanges (s : State) (id : Nat) : (dropRanges s id).firm = s.firm := rfl

@[simp] theorem firm_dropLaunchFaults (s : State) (id : Nat) : (dropLaunchFaults s id).firm = s.firm := by simp [dropLaunchFaults]

@[simp] theorem firm_unblock (s : State) (id : Nat) : (unblock s id).firm = s.firm :=
  firm_foldl (fun s e => by split <;> simp) _ s

@[simp] theorem firm_killSaved (s : State) (part id : Nat) : (killSaved s part id).firm = s.firm := by simp [killSaved]

@[simp] theorem firm_killLaunch (s : State) (id : Nat) : (killLaunch s id).firm = s.firm := by
  unfold killLaunch
  split
  · rfl
  · split
    · rfl
    · rfl
    · rfl
    · dsimp only; split <;> simp

/-! ## Copies, remote writes and units -/

@[simp] theorem firm_mapCopies (s : State) (g : Copy → Copy) : (mapCopies s g).firm = s.firm := by simp [mapCopies]
@[simp] theorem firm_modCopy (s : State) (id : Nat) (g : Copy → Copy) : (modCopy s id g).firm = s.firm := firm_mapCopies ..
@[simp] theorem firm_modDest (s : State) (id i : Nat) (g : McastDest → McastDest) : (modDest s id i g).firm = s.firm := firm_modCopy ..
@[simp] theorem firm_modChunk (s : State) (id i : Nat) (g : Chunk → Chunk) : (modChunk s id i g).firm = s.firm := by simp [modChunk]

@[simp] theorem firm_dropLocks (s : State) (core owner : Nat) (kinds : List LockKind) : (dropLocks s core owner kinds).firm = s.firm := by
  simp [dropLocks]

@[simp] theorem firm_unlockCopy (s : State) (c : Copy) (kinds : List LockKind) : (unlockCopy s c kinds).firm = s.firm := by
  unfold unlockCopy; split <;> simp

@[simp] theorem firm_statusDone (s : State) (g kS id code bytes : Nat) : (statusDone s g kS id code bytes).firm = s.firm := by
  simp [statusDone]

@[simp] theorem firm_mmsDone (s : State) (m : Mms) (code bytes : Nat) : (mmsDone s m code bytes).firm = s.firm := by simp [mmsDone]

@[simp] theorem firm_completeFired (s : State) (r : Fired) : (completeFired s r).firm = s.firm := by simp [completeFired]

@[simp] theorem firm_writeDests (s : State) (c : Copy) (n : Nat) : (writeDests s c n).firm = s.firm := by
  unfold writeDests
  split
  · rfl
  · exact firm_foldl (fun s p => by split <;> simp) _ s

@[simp] theorem firm_completeCopy (s : State) (c : Copy) : (completeCopy s c).firm = s.firm := by
  unfold completeCopy
  dsimp only
  split <;> split <;> simp

@[simp] theorem firm_endRemote (s : State) (w : RemoteWrite) : (endRemote s w).firm = s.firm := by
  unfold endRemote; dsimp only; split <;> simp

@[simp] theorem firm_landRemote (s : State) (w : RemoteWrite) : (landRemote s w).firm = s.firm := by
  unfold landRemote
  extract_lets l s₁ s₂ s₃ s₄
  have h₁ : s₁.firm = s.firm := by simp [s₁]
  have h₂ : s₂.firm = s₁.firm := by simp only [s₂]; split <;> [skip; split] <;> simp
  have h₃ : s₃.firm = s₂.firm := by simp only [s₃]; split <;> simp
  have h₄ : s₄.firm = s₃.firm := by simp only [s₄]; split <;> simp
  simp [h₁, h₂, h₃, h₄]

@[simp] theorem firm_settleFifo (n : Nat) (s : State) (a : AgentId) : (settleFifo n s a).firm = s.firm := by
  induction n generalizing s with
  | zero => exact firm_drainFifo s a
  | succ n ih =>
    unfold settleFifo
    dsimp only
    split
    · simp
    · split
      · simp
      · split
        · simp [ih]
        · split <;> simp

@[simp] theorem firm_drainStroke (s : State) (k : Nat) : (drainStroke s k).firm = s.firm := by simp [drainStroke]

@[simp] theorem firm_unitDone (s : State) (k : Nat) (u : SlowUnit) : (unitDone s k u).firm = s.firm := by simp [unitDone]

/-- A sampled load changes the telemetry of the period alone. -/
@[simp] theorem firm_sampleLatency (s : State) (k : Nat) (i : InFlight) : (sampleLatency s k i).firm = s.firm := by
  unfold sampleLatency; split <;> rfl

@[simp] theorem firm_settleStroke (s : State) (k : Nat) : (settleStroke s k).firm = s.firm := by
  simp [settleStroke, apply_ite State.firm]

/-! ## Chunks -/

@[simp] theorem firm_transmit (s : State) (f : Flit) : (transmit s f).firm = s.firm := by
  unfold transmit
  split
  · rfl
  · split <;> simp

@[simp] theorem firm_sendFlit (s : State) (part dst : Nat) (body : FlitBody) (poison : Bool) : (sendFlit s part dst body poison).1.firm = s.firm := by
  simp [sendFlit]

theorem firm_of_putG {s t : State} {l : Launch} {va : Nat} {bs : List Byte} (h : putG s l va bs = .ok t) : t.firm = s.firm := by
  unfold putG at h
  split at h <;> cases h <;> simp

theorem firm_of_putTile {s t : State} {l : Launch} {va : Nat} {bs : List Byte} {bad : Bool} (h : putTile s l va bs bad = .ok t) :
    t.firm = s.firm := by
  unfold putTile at h
  split at h <;> cases h
  · split <;> simp
  · rfl

@[simp] theorem firm_fill (s : State) (k : Chunk) (l : Launch) (c : Coll) (r : Nat) (data : List Byte) : (fill s k l c r data).1.firm = s.firm := by
  unfold fill
  split
  · dsimp only
    split
    · simp
    · split
      next h => simpa using firm_of_putG h
      · simp
  · simp

@[simp] theorem firm_announce (s : State) (part va : Nat) (data : List Byte) : (announce s part va data).1.firm = s.firm := by
  unfold announce; split <;> simp

@[simp] theorem firm_landHome (s : State) (l : Launch) (c : Coll) (i : Nat) : (landHome s l c i).firm = s.firm := by
  unfold landHome
  split
  · split
    · dsimp only
      split
      · simp
      · next ht => 
        split
        · simp
        · next hg => simp [firm_of_putG hg, firm_of_putTile ht]
    · rfl
  · rfl

@[simp] theorem firm_completeFiring (s : State) (c : Copy) (launch chunk dev : Nat) : (completeFiring s c launch chunk dev).firm = s.firm := by
  unfold completeFiring
  extract_lets finish
  have h (t : State) (c : Copy) : (finish t c).firm = t.firm := by simp only [finish]; split <;> simp
  split
  · exact h s c
  · dsimp only
    split
    · exact h s c
    · split <;> simp [h]

/-! ## Fences -/

@[simp] theorem firm_cancelSteal (s : State) (c : Nat) : (cancelSteal s c).firm = s.firm := by
  unfold cancelSteal; dsimp only; split <;> rfl

@[simp] theorem firm_dropSaved (part : Nat) (s : State) (e : Nat × Group) : (dropSaved part s e).firm = s.firm := by simp [dropSaved]

@[simp] theorem firm_stopSaved (c : Nat) (s : State) (e : Nat × Partition) : (stopSaved c s e).firm = s.firm := by simp [stopSaved]

@[simp] theorem firm_stopCluster (s : State) (c : Nat) : (stopCluster s c).firm = s.firm := by
  unfold stopCluster
  extract_lets s₁ gs ks s₂ s₃ s₄ s₅ s₆
  have h₃ : s₃.firm = s.firm := by simp [s₃, s₂, s₁]
  have h₄ : s₄.firm = s₃.firm := firm_foldl (fun t k => by split <;> [split <;> simp; rfl]) _ s₃
  simp [s₆, s₅, h₄, h₃]

@[simp] theorem firm_fenceCluster (s : State) (c : Nat) : (fenceCluster s c).firm = s.firm := by simp [fenceCluster]

@[simp] theorem firm_portDown (s : State) (port : Nat) : (portDown s port).firm = s.firm := by simp [portDown]

@[simp] theorem firm_applyFence (s : State) (u : FenceUnit) : (applyFence s u).firm = s.firm := by cases u <;> simp [applyFence]

end Sys2Proof.Machine
end

section
/-!
SUPPORT. What each service of firmware, the host and the board does: capability words, registers, partitions, fences, telemetry, boot, reports,
keys, power, marks, host memory and scrubs.
-/
namespace Sys2Proof.Machine

theorem running_iff {s : State} : running s = true ↔ s.sys.stage = .running := by simp [running]

/-! ## Capability words (R398) -/

theorem usable_succ (n : Nat) (out : Nat → Bool) : usable (n + 1) out = if out n then usable n out else usable n out + 2 ^ n := by
  simp [usable, List.range_succ]

theorem usable_lt (n : Nat) (out : Nat → Bool) : usable n out < 2 ^ n := by
  induction n with
  | zero => simp [usable]
  | succ n ih => rw [usable_succ, Nat.pow_succ]; split <;> omega

theorem testBit_usable {n i : Nat} (out : Nat → Bool) (h : i < n) : (usable n out).testBit i = !out i := by
  induction n with
  | zero => omega
  | succ n ih =>
    have hlt := usable_lt n out
    rw [usable_succ]
    rcases Nat.lt_succ_iff_lt_or_eq.1 h with hi | rfl
    · split
      · exact ih hi
      · rw [Nat.add_comm, Nat.testBit_two_pow_add_gt hi, ih hi]
    · split
      next ho => simp [Nat.testBit_lt_two_pow hlt, ho]
      next ho => simp [Nat.add_comm, Nat.testBit_two_pow_add_eq, Nat.testBit_lt_two_pow hlt, ho]

/-- The number of cores that no fence takes, which bits [31:16] of the first capability word hold. -/
theorem cap0_eq (s : State) : ∃ cores, cores < 2 ^ 16 ∧ cap0 s =
    2 ^ 63 * (if s.sys.fences.isEmpty then 0 else 1) + (2 ^ 32 * usable 16 (fun i => s.sys.fences.contains (.port i)) +
      (2 ^ 16 * cores + 2 ^ 8 * usable 8 (fun i => s.sys.fences.contains (.cluster i)))) := by
  refine ⟨((List.range (Config.clusters * Config.coresPerCluster)).filter (fun k => !coreFenced s k)).length, ?_, ?_⟩
  · calc _ ≤ (List.range (Config.clusters * Config.coresPerCluster)).length := List.length_filter_le ..
      _ < 2 ^ 16 := by rw [List.length_range]; decide
  · unfold cap0
    split <;> omega

theorem cap_words (s : State) : ((cap0 s).testBit 63 = true ↔ s.sys.fences ≠ []) ∧
    (∀ i, i < 16 → ((cap0 s).testBit (32 + i) = true ↔ .port i ∉ s.sys.fences)) ∧
    (∀ i, i < 8 → ((cap0 s).testBit (8 + i) = true ↔ .cluster i ∉ s.sys.fences)) ∧ cap1 s = 131072 * channels s + channels s := by
  obtain ⟨cores, hcores, h⟩ := cap0_eq s
  have hp := usable_lt 16 (fun i => s.sys.fences.contains (.port i))
  have hc := usable_lt 8 (fun i => s.sys.fences.contains (.cluster i))
  have h8 : 2 ^ 8 * usable 8 (fun i => s.sys.fences.contains (.cluster i)) < 2 ^ 16 := by omega
  have h16 : 2 ^ 16 * cores + 2 ^ 8 * usable 8 (fun i => s.sys.fences.contains (.cluster i)) < 2 ^ 32 := by omega
  have h32 : 2 ^ 32 * usable 16 (fun i => s.sys.fences.contains (.port i)) +
      (2 ^ 16 * cores + 2 ^ 8 * usable 8 (fun i => s.sys.fences.contains (.cluster i))) < 2 ^ 63 := by omega
  refine ⟨?_, fun i hi => ?_, fun i hi => ?_, ?_⟩
  · rw [h, Nat.testBit_two_pow_mul_add _ h32]
    cases s.sys.fences <;> simp
  · rw [h, Nat.testBit_two_pow_mul_add _ h32, if_pos (by omega), Nat.testBit_two_pow_mul_add _ h16, if_neg (by omega), Nat.add_sub_cancel_left,
      testBit_usable _ hi]
    simp
  · rw [h, Nat.testBit_two_pow_mul_add _ h32, if_pos (by omega), Nat.testBit_two_pow_mul_add _ h16, if_pos (by omega),
      Nat.testBit_two_pow_mul_add _ h8, if_pos (by omega), ← Nat.add_zero (2 ^ 8 * _), Nat.testBit_two_pow_mul_add _ (by decide), if_neg (by omega),
      Nat.add_sub_cancel_left, testBit_usable _ hi]
    simp
  · unfold cap1; omega

/-! ## Reads and writes of registers from outside (R4, R28, R395, R398, R408) -/

theorem functionRead_of_not_running {s : State} (h : ¬ s.sys.stage = .running) (fw : Bool) (part off : Nat) :
    functionRead s fw part off = 0 ∧ physicalRead s off = 0 := by
  simp [functionRead, physicalRead, running, h]

theorem functionRead_buffer (s : State) (fw : Bool) (part : Nat) {off : Nat} (h : off < 0x80) : functionRead s fw part off = 0 := by
  simp [functionRead, h]

theorem functionRead_counter {s : State} (hs : s.sys.stage = .running) {part i : Nat} {p : Partition} (hp : s.part? part = some p) (hi : i < 9) :
    functionRead s false part (0x1000 + 8 * i) = (p.counters[i]?).getD 0 := by
  have h1 : ¬ 0x1000 + 8 * i < 0x80 := by omega
  have h2 : ¬ 0x1000 + 8 * i = 0x80 := by omega
  have h3 : 0x1000 + 8 * i ≤ 0x1040 := by omega
  simp [functionRead, running, hs, hp, h1, h2, h3]

theorem functionRead_status {s : State} (hs : s.sys.stage = .running) (fw : Bool) (part : Nat) : functionRead s fw part 0x80 = portStatus s fw part := by
  simp [functionRead, running, hs]

theorem functionRead_capability {s : State} (hs : s.sys.stage = .running) (part : Nat) :
    functionRead s false part 0x1100 = cap0 s ∧ functionRead s false part 0x1108 = cap1 s := by
  simp [functionRead, running, hs]

theorem portStatus_full (s : State) (fw : Bool) (part : Nat) : portStatus s fw part % 2 = 1 ↔
    ∃ p, s.part? part = some p ∧ queueRoom s part (p.portOf fw).lastCls = 0 := by
  cases hp : s.part? part with
  | none => simp [portStatus, hp]
  | some p =>
    have h : portStatus s fw part % 2 = if queueRoom s part (p.portOf fw).lastCls = 0 then 1 else 0 := by
      unfold portStatus
      rw [hp, Option.elim_some]
      split <;> omega
    simp [h]

theorem portStatus_rejects {s : State} {fw : Bool} {part : Nat} {p : Partition} (hp : s.part? part = some p) :
    portStatus s fw part / 2 ^ 32 = (p.portOf fw).rejects := by
  unfold portStatus
  rw [hp, Option.elim_some]
  split <;> omega

theorem physicalRead_power {s : State} (hs : s.sys.stage = .running) : physicalRead s 0x2000 % 2 ^ 16 = s.sys.pwrCap % 2 ^ 16 ∧
    physicalRead s 0x2000 / 2 ^ 16 % 2 ^ 16 = 0 ∧ physicalRead s 0x2000 / 2 ^ 32 % 2 ^ 16 = s.sys.pwrNow % 2 ^ 16 ∧
    physicalRead s 0x2000 / 2 ^ 48 % 2 ^ 15 = 0 ∧ (physicalRead s 0x2000).testBit 63 = s.sys.throt := by
  have hr : physicalRead s 0x2000 = 2 ^ 63 * s.sys.throt.toNat + (s.sys.pwrNow % 2 ^ 16 * 2 ^ 32 + s.sys.pwrCap % 2 ^ 16) := by
    simp only [physicalRead, running, hs, powerWord]
    cases s.sys.throt <;> simp; omega
  have hlt : s.sys.pwrNow % 2 ^ 16 * 2 ^ 32 + s.sys.pwrCap % 2 ^ 16 < 2 ^ 63 := by omega
  rw [hr]
  refine ⟨by omega, by omega, by omega, by omega, ?_⟩
  rw [Nat.testBit_two_pow_mul_add _ hlt]
  cases s.sys.throt <;> rfl

theorem ofNat_toNat_and {n : Nat} (v : BitVec n) (m : Nat) : BitVec.ofNat n (v.toNat &&& m) = v &&& BitVec.ofNat n m := by
  apply BitVec.eq_of_toNat_eq
  simp

/-- A write of a partition's register keeps the bits that the register has. -/
theorem writeRegister_cr (s : State) (part : Nat) :
    (∀ v, writeRegister s (.mtab part v) = s.modPart part (fun p => { p with cr := { p.cr with mtab := v &&& ~~~ 31 } })) ∧
    (∀ v, writeRegister s (.mtabSz part v) = s.modPart part (fun p => { p with cr := { p.cr with mtabSz := v } })) ∧
    (∀ v, writeRegister s (.convArena part v) = s.modPart part (fun p => { p with cr := { p.cr with convArena := v &&& ~~~ 0xE0 } })) ∧
    (∀ v, writeRegister s (.dispFault part v) = s.modPart part (fun p => { p with cr := { p.cr with dispFault := v &&& ~~~ 127 } })) ∧
    (∀ v, writeRegister s (.trapBase part v) = s.modPart part (fun p => { p with cr := { p.cr with trapBase := v &&& ~~~ 2 } })) := by
  have ones (v : Word) : v &&& BitVec.ofNat 32 0xFFFFFFFF = v := BitVec.and_allOnes
  refine ⟨fun v => ?_, fun v => ?_, fun v => ?_, fun v => ?_, fun v => ?_⟩ <;>
    simp only [writeRegister, putCr, PartCr.put, crMask, ofNat_toNat_and, ones] <;> rfl

/-- A list without its repetitions is what is left of it in its order. -/
theorem eraseDups_sublist (l : List Nat) : l.eraseDups.Sublist l := by
  match l with
  | [] => simp
  | a :: l =>
    rw [List.eraseDups_cons]
    exact ((eraseDups_sublist _).trans List.filter_sublist).cons_cons a
termination_by l.length
decreasing_by exact Nat.lt_succ_of_le (List.length_filter_le ..)

theorem nodup_eraseDups (l : List Nat) : l.eraseDups.Nodup := by
  match l with
  | [] => simp
  | a :: l =>
    rw [List.eraseDups_cons, List.nodup_cons]
    exact ⟨by simp, nodup_eraseDups _⟩
termination_by l.length
decreasing_by exact Nat.lt_succ_of_le (List.length_filter_le ..)

theorem length_eraseDups_eq_iff {l : List Nat} : l.eraseDups.length = l.length ↔ l.Nodup := by
  constructor
  · intro h
    rw [← (eraseDups_sublist l).eq_of_length h]
    exact nodup_eraseDups l
  · intro h
    induction l with
    | nil => rfl
    | cons a l ih =>
      obtain ⟨ha, hl⟩ := List.nodup_cons.1 h
      have hne (b : Nat) (hb : b ∈ l) : b ≠ a := fun e => ha (e ▸ hb)
      have : l.filter (fun b => !b == a) = l := List.filter_eq_self.2 (fun b hb => by simpa using hne b hb)
      rw [List.eraseDups_cons, this, List.length_cons, ih hl, List.length_cons]

/-- The slices that the device has and that are named once (R1, R196). -/
theorem writeRegister_cWindow (s : State) (part : Nat) :
    (∀ c sl, c < 8 → (∀ i ∈ sl, i < 192) → sl.Nodup →
      writeRegister s (.cWindow part c sl) = s.modPart part (fun p => { p with cwin := mapPut p.cwin c sl })) ∧
    (∀ c sl, 8 ≤ c ∨ (∃ i ∈ sl, 192 ≤ i) → writeRegister s (.cWindow part c sl) = s) := by
  refine ⟨fun c sl hc hs hn => ?_, fun c sl h => ?_⟩
  · have hs' : sl.all (fun i => decide (i < 192)) = true := by simpa using hs
    simp [writeRegister, setPart, Config.clusters, hc, hs', length_eraseDups_eq_iff.2 hn]
  · have hno : (decide (c < Config.clusters) && sl.all (fun i => decide (i < 192)) && sl.eraseDups.length == sl.length) = false := by
      rcases h with h | ⟨i, hi, h⟩
      · simp [Config.clusters, Nat.not_lt.2 h]
      · have : sl.all (fun i => decide (i < 192)) = false := List.all_eq_false.2 ⟨i, hi, by simpa using h⟩
        simp [this]
    simp [writeRegister, setPart, hno]

/-- A setting of a partition outside its limits is not taken. -/
theorem writeRegister_limits (s : State) (part : Nat) :
    (∀ v, writeRegister s (.nbvVer part v) = if v = 1 ∨ v = 2 then s.modPart part (fun p => { p with cr := { p.cr with nbvVer := v } }) else s) ∧
    (∀ v, writeRegister s (.weight part v) = if 1 ≤ v ∧ v ≤ 255 then s.modPart part (fun p => { p with weight := v }) else s) ∧
    (∀ v, writeRegister s (.engineWeight part v) = if 1 ≤ v ∧ v ≤ 15 then s.modPart part (fun p => { p with engWeight := v }) else s) ∧
    (∀ v, writeRegister s (.holdTimeout part v) = if v ≠ 0 then s.modPart part (fun p => { p with hold_ns := v }) else s) ∧
    (∀ core pa, writeRegister s (.saveArea part core pa) =
      if pa % 2097152 = 0 then s.modPart part (fun p => { p with saveAreas := mapPut p.saveAreas core pa }) else s) := by
  simp [writeRegister, setPart]

/-! ## Partitions (R395) -/

theorem cfgOk_iff {cfg : PartCfg} : cfgOk cfg = true ↔ cfg.part < 8 ∧ cfg.key < 4096 ∧ (∀ e ∈ cfg.cells, e.1 < 768 * 2 ^ 30) ∧
    ∀ e ∈ cfg.cwin, e.1 < 8 ∧ (∀ i ∈ e.2, i < 192) ∧ e.2.Nodup := by
  simp only [cfgOk, Bool.and_eq_true, decide_eq_true_eq, List.all_eq_true, beq_iff_eq, length_eraseDups_eq_iff, and_assoc]
  exact Iff.rfl

theorem foldl_writeBytes_part? (cells : List (Nat × Byte)) (key : Nat) (s : State) (j : Nat) :
    (cells.foldl (fun s c => writeBytes s { home := .g, addr := c.1, key := key } [c.2]) s).part? j = s.part? j := by
  induction cells generalizing s with
  | nil => rfl
  | cons c cells ih => rw [List.foldl_cons, ih, writeBytes_frame]; rfl

/-- The partition that PARTITION_CREATE makes. -/
def madePartition (cfg : PartCfg) (ns : Nat) : Partition :=
  { weight := max 1 (min cfg.weight 255), mask := cfg.mask % 256
    cwin := cfg.cwin.foldl (fun (m : Map (List Nat)) (e : Nat × List Nat) => mapPut m e.1 e.2) []
    peers := cfg.peers, s1root := cfg.s1root, s2root := cfg.s2root, cr := { trapBase := cfg.trapBase &&& ~~~ 2 }, created := ns
    owner := cfg.owner }

theorem partitionCreate_made {cfg : PartCfg} {s : State} (hs : s.sys.stage = .running) (hc : cfgOk cfg = true) (hn : s.part? cfg.part = none) :
    ∃ t, exec (.partitionCreate cfg) s = .next t ∧ t.part? cfg.part = some (madePartition cfg s.ns) := by
  have hcr : PartCr.put {} 0x08 (cfg.trapBase.toNat &&& crMask 0x08) = { trapBase := cfg.trapBase &&& ~~~ 2 } := by
    simp only [PartCr.put, crMask, ofNat_toNat_and]; rfl
  refine ⟨_, if_pos (by simp [running, hs, hc, hn]), ?_⟩
  rw [foldl_writeBytes_part?, hcr]
  exact (mapGet?_put ..).trans (if_pos rfl)

theorem partitionCreate_refused {cfg : PartCfg} {s : State} (h : ¬ (s.sys.stage = .running ∧ cfgOk cfg = true ∧ s.part? cfg.part = none)) :
    exec (.partitionCreate cfg) s = .next s :=
  if_neg (by simpa [running, and_assoc] using h)

/-! ## Fences (R394, R396, R397) -/

/-- A fence under way after its first step (R397). -/
def fenceBegun (s : State) (u : FenceUnit) : State :=
  { applyFence s u with sys := { (applyFence s u).sys with fencing := s.sys.fencing ++ [u] } }

theorem fenceBegun_eq (s : State) (u : FenceUnit) :
    (applyFence s u).modSys (fun y => { y with fencing := y.fencing ++ [u] }) = fenceBegun s u := by
  have h : (applyFence s u).sys.fencing = s.sys.fencing := congrArg (·.1.fencing) (firm_applyFence s u)
  simp only [State.modSys, fenceBegun, h]

theorem fenceBegun_fences (s : State) (u : FenceUnit) : (fenceBegun s u).sys.fences = s.sys.fences :=
  congrArg (·.1.fences) (firm_applyFence s u)

/-- Has the router of a cluster raised a machine check? -/
def Checked (s : State) (u : FenceUnit) : Prop := ∃ c, u = .cluster c ∧ c ∈ s.sys.machineChecks

theorem fenceBegun_checked {s : State} {u : FenceUnit} : Checked (fenceBegun s u) u ↔ Checked s u := by
  have h : (fenceBegun s u).sys.machineChecks = s.sys.machineChecks := congrArg (·.1.machineChecks) (firm_applyFence s u)
  simp [Checked, h]

theorem machineCheck_unchecked {s : State} {u : FenceUnit} (h : ¬ Checked s u) : machineCheck s u = s := by
  cases u with
  | cluster c => exact if_neg (by simpa [Checked] using h)
  | core _ | channel _ | port _ => rfl

/-- May a fence end at an event: of a channel, only at one that is not its first? -/
def fenceMayEnd (begun : Bool) : FenceUnit → Bool
  | .channel _ => begun
  | _ => true

theorem fenceMayEnd_begun (u : FenceUnit) : fenceMayEnd true u = true := by cases u <;> rfl

theorem unitFence_refused {s : State} {u : FenceUnit} (h : ¬ s.sys.stage = .running ∨ unitExists u = false) :
    exec (.unitFence u) s = .next s :=
  if_neg (by rcases h with h | h <;> simp [running, h])

section
variable {s : State} {u : FenceUnit} (hs : s.sys.stage = .running) (hu : unitExists u = true)
include hs hu

/-- What UNIT_FENCE does once its first step and a machine check have left a state. -/
theorem unitFence_eq {t : State} (ht : machineCheck (if s.sys.fencing.contains u || s.sys.fences.contains u then s else fenceBegun s u) u = t) :
    exec (.unitFence u) s =
      .next (if fenceMayEnd (s.sys.fencing.contains u) u && t.sys.fencing.contains u && !fenceHeld t u then endFence t u else t) := by
  subst ht
  rw [← fenceBegun_eq]
  cases u <;> exact if_pos (by simp [running, hs, hu])

/-- An event for a fence that is under way ends it once no resident work is left. -/
theorem unitFence_again (hb : u ∈ s.sys.fencing) (hc : ¬ Checked s u) :
    exec (.unitFence u) s = .next (if fenceHeld s u then s else endFence s u) := by
  have hb' : s.sys.fencing.contains u = true := by simpa using hb
  rw [unitFence_eq hs hu (by rw [hb', Bool.true_or, if_pos rfl, machineCheck_unchecked hc]), hb', fenceMayEnd_begun]
  cases fenceHeld s u <;> rfl

theorem unitFence_fenced (hf : u ∈ s.sys.fences) (hb : u ∉ s.sys.fencing) (hc : ¬ Checked s u) : exec (.unitFence u) s = .next s := by
  rw [unitFence_eq hs hu (t := s) (by simp [hf, machineCheck_unchecked hc])]
  simp [hb]

/-- The first event for a fence stops placement, and ends it at once where nothing is left; of a channel the pages are moved in between. -/
theorem unitFence_first (hf : u ∉ s.sys.fences) (hb : u ∉ s.sys.fencing) (hc : ¬ Checked s u) :
    (fenceHeld (fenceBegun s u) u = true ∨ (∃ n, u = .channel n) → exec (.unitFence u) s = .next (fenceBegun s u)) ∧
    (fenceHeld (fenceBegun s u) u = false → (∀ n, u ≠ .channel n) → exec (.unitFence u) s = .next (endFence (fenceBegun s u) u)) := by
  rw [unitFence_eq hs hu (t := fenceBegun s u) (by simp [hf, hb, machineCheck_unchecked (fenceBegun_checked.not.2 hc)])]
  have hb' : s.sys.fencing.contains u = false := by simpa using hb
  have hin : (fenceBegun s u).sys.fencing.contains u = true := by simp [fenceBegun]
  rw [hb', hin]
  refine ⟨fun h => ?_, fun h hn => ?_⟩
  · rcases h with h | ⟨n, rfl⟩
    · simp [h]
    · simp [fenceMayEnd]
  · have hnow : fenceMayEnd false u = true := by
      cases u with
      | channel n => exact absurd rfl (hn n)
      | core _ | cluster _ | port _ => rfl
    simp [hnow, h]

/-- A machine check kills what is on a fenced cluster. -/
theorem unitFence_checked {c : Nat} (hcl : u = .cluster c) (hf : u ∈ s.sys.fences) (hb : u ∉ s.sys.fencing) (hc : c ∈ s.sys.machineChecks) :
    exec (.unitFence u) s = .next ((stopCluster s c).modSys (fun y => { y with machineChecks := y.machineChecks.filter (· != c) })) := by
  have hkeep : (stopCluster s c).sys.fencing = s.sys.fencing := congrArg (·.1.fencing) (firm_stopCluster s c)
  have hm : machineCheck s u = (stopCluster s c).modSys (fun y => { y with machineChecks := y.machineChecks.filter (· != c) }) := by
    subst hcl; exact if_pos (by simpa using hc)
  rw [unitFence_eq hs hu (by simp only [hf, List.contains_eq_mem, decide_true, Bool.or_true, if_true]; exact hm)]
  simp [State.modSys, hkeep, hb]
end

/-- What a fence stops at once: a core takes nothing more, a port is down. -/
theorem fenceBegun_stops (s : State) (u : FenceUnit) : (∀ k, u = .core k → ((fenceBegun s u).core k).fenced = true) ∧
    ∀ n p, u = .port n → (fenceBegun s u).link.ports[n]? = some p → p.up = false := by
  refine ⟨?_, ?_⟩
  · rintro k rfl
    show ((s.modCore k (fun x => { x with fenced := true })).core k).fenced = true
    rw [State.modCore_core_self]
  · rintro n p rfl hp
    simp only [fenceBegun, applyFence, portDown, State.modLink, Link.modPort, List.getElem?_mapIdx, Option.map_eq_some_iff] at hp
    obtain ⟨q, _, rfl⟩ := hp
    rfl

/-! ## Telemetry (R400) -/

@[simp] theorem firm_ipaWrite (s : State) (part ipa : Nat) (bs : List Byte) : (ipaWrite s part ipa bs).firm = s.firm := by
  unfold ipaWrite
  split
  · split <;> simp
  · rfl

@[simp] theorem firm_clearArea (s : State) (part ipa : Nat) : (clearArea s part ipa).firm = s.firm := firm_ipaWrite ..

@[simp] theorem firm_publish (s : State) (e : Nat × Partition) : (publish s e).firm = s.firm := by
  unfold publish
  split <;> simp

theorem telemetryPeriodEnd_due {s : State} (hs : s.sys.stage = .running) (h : 1000000 * (s.sys.period + 1) ≤ s.ns) :
    ∃ t, exec .telemetryPeriodEnd s = .next t ∧ t.sys.period = s.sys.period + 1 ∧ t.sys.telem = [] := by
  refine ⟨_, if_pos (by simp [running, hs, h]), ?_, rfl⟩
  have hp : (s.parts.foldl publish s).sys.period = s.sys.period := congrArg (·.1.period) (firm_foldl firm_publish s.parts s)
  simp [hp]

theorem telemetryPeriodEnd_early {s : State} (h : ¬ s.sys.stage = .running ∨ s.ns < 1000000 * (s.sys.period + 1)) :
    exec .telemetryPeriodEnd s = .next s :=
  if_neg (by rcases h with h | h <;> simp [running, h])

/-! ## Boot, recovery and resets (R402 to R404, R409) -/

theorem imageOk_iff {i : Image} : imageOk i = true ↔ Config.minVersion ≤ i.version ∧ Config.shake256 i.key = Config.vendorDigest ∧
    Config.ed448Verify i.key (Config.shake256 i.body) i.signature = true := by
  simp [imageOk, and_assoc]

/-- Does a slot of the flash hold an image? -/
def InFlash (m : Map Image) (i : Image) : Prop := mapGet? m 0 = some i ∨ mapGet? m 1 = some i

/-- The ROM starts the good image of the highest version. -/
theorem bootImage_best {m : Map Image} {i : Image} (hi : InFlash m i) (hg : imageOk i = true)
    (hb : ∀ j, InFlash m j → imageOk j = true → j.version < i.version ∨ j = i) : bootImage m = some i := by
  unfold bootImage
  rcases hi with hi | hi
  · cases hn : mapGet? m 1 with
    | none => simp [hi, hg]
    | some b =>
      have := hb b (.inr hn)
      grind
  · cases hn : mapGet? m 0 with
    | none => simp [hi, hg]
    | some a =>
      have := hb a (.inl hn)
      grind

theorem bootImage_none {m : Map Image} (h : ∀ i, InFlash m i → imageOk i = false) : bootImage m = none := by
  unfold bootImage
  split
  next a b ha hb => simp [h a (.inl ha), h b (.inr hb)]
  next a ha hb => simp [h a (.inl ha)]
  next b ha hb => simp [h b (.inr hb)]
  · rfl

/-- What a boot from a state with no partition and no key leaves (R402 to R404): the firmware of the best image, its three measurements made, or the
recovery. -/
def Boots (s t : State) : Prop :=
  (∀ i, InFlash s.sys.flash i → imageOk i = true → (∀ j, InFlash s.sys.flash j → imageOk j = true → j.version < i.version ∨ j = i) →
    t.sys.stage = .running ∧ t.sys.log = [logEntry 1 Config.romVersion Config.romDigest, logEntry 2 i.version (Config.shake256 i.body),
      logEntry 3 Config.fenceVersion (Config.shake256 (Config.fenceRecord (s.sys.fences.map unitCode)))]) ∧
  ((∀ i, InFlash s.sys.flash i → imageOk i = false) → t.sys.stage = .recovery) ∧ t.parts = [] ∧ t.sys.flash = s.sys.flash ∧ t.sys.keys = []

/-- The state that the firmware starts from, before the fences of the flash apply. -/
theorem startFirmware_firm (s : State) (i : Image) : ∃ b : State, (startFirmware s i).firm = b.firm ∧ b.parts = s.parts ∧
    b.sys.stage = .running ∧ b.sys.flash = s.sys.flash ∧ b.sys.keys = [] ∧
    b.sys.log = [logEntry 1 Config.romVersion Config.romDigest, logEntry 2 i.version (Config.shake256 i.body),
      logEntry 3 Config.fenceVersion (Config.shake256 (Config.fenceRecord (s.sys.fences.map unitCode)))] :=
  ⟨_, firm_foldl firm_applyFence _ _, rfl, rfl, rfl, rfl, rfl⟩

theorem parts_of_firm {s t : State} (h : t.firm = s.firm) (hp : s.parts = []) : t.parts = [] := by
  simpa [State.firm, hp] using congrArg Prod.snd h

theorem bootUp_boots {s : State} (hp : s.parts = []) (hk : s.sys.keys = []) : Boots s (bootUp s) := by
  cases hb : bootImage s.sys.flash with
  | none =>
    have h : bootUp s = s.modSys (fun y => { y with stage := .recovery }) := by simp [bootUp, hb]
    rw [h]
    refine ⟨fun i hi hg hbest => ?_, fun _ => rfl, hp, rfl, hk⟩
    rw [bootImage_best hi hg hbest] at hb
    contradiction
  | some i =>
    have h : bootUp s = startFirmware s i := by simp [bootUp, hb]
    obtain ⟨b, hf, hps, hst, hfl, hks, hlog⟩ := startFirmware_firm s i
    rw [h]
    refine ⟨fun j hj hg hbest => ?_, fun hno => ?_, parts_of_firm hf (hps.trans hp), ?_, ?_⟩
    · obtain rfl : i = j := Option.some.inj (hb.symm.trans (bootImage_best hj hg hbest))
      exact ⟨(congrArg (·.1.stage) hf).trans hst, (congrArg (·.1.log) hf).trans hlog⟩
    · rw [bootImage_none hno] at hb
      contradiction
    · exact (congrArg (·.1.flash) hf).trans hfl
    · exact (congrArg (·.1.keys) hf).trans hks

/-! ## Reports and keys (R405, R406) -/

@[simp] theorem length_natBytes (n x : Nat) : (natBytes n x).length = n := by
  induction n generalizing x with
  | zero => rfl
  | succ n ih => simp [natBytes, ih]

@[simp] theorem length_fitBytes (n : Nat) (bs : List Byte) : (fitBytes n bs).length = n := by simp [fitBytes]

theorem length_reportBody (s : State) (part : Option Nat) (nonce : List Byte) : (reportBody s part nonce).length = 128 := by
  simp [reportBody]

theorem attestationReport_made {s : State} (hs : s.sys.stage = .running) {part : Option Nat} (nonce : List Byte)
    (hp : ∀ p, part = some p → s.part? p ≠ none) :
    exec (.attestationReport part nonce) s = .next (s.modSys (fun y => { y with reports := y.reports ++
      [reportBody s part nonce ++ fitBytes 114 (Config.ed448Sign (Config.shake256 (reportBody s part nonce)))] })) := by
  have hall : part.all (fun p => (s.part? p).isSome) = true := by
    cases part with
    | none => rfl
    | some p => simpa [Option.isSome_iff_ne_none] using hp p rfl
  exact if_pos (by simp [running, hs, hall])

theorem keyLoad_loads {s : State} (hs : s.sys.stage = .running) {k : Nat} (hk : k < 4096) : ∃ t, exec (.keyLoad k) s = .next t ∧ t.mem = s.mem ∧
    keyLoad t k = s.sys.keyLoads + 1 ∧ ∀ j, j ≠ k → keyLoad t j = keyLoad s j := by
  refine ⟨_, congrArg Host.Outcome.next (if_pos ⟨running_iff.2 hs, hk⟩), rfl, ?_, fun j hj => ?_⟩
  · exact (mapGet_put ..).trans (if_pos rfl)
  · exact (mapGet_put ..).trans (if_neg (Ne.symm hj))

/-- A state with a key slot zero. -/
def keyGone (s : State) (k : Nat) : State := s.modSys (fun y => { y with keys := mapDel y.keys k })

theorem keyLoad_keyGone (s : State) (k j : Nat) : keyLoad (keyGone s k) j = if k = j then 0 else keyLoad s j := by
  simp only [keyLoad, keyGone, State.modSys, mapGet, mapGet?_del]
  split <;> rfl

/-- The FIFOs that hold accesses to pages of a key are performed, and the slot is zero unless another access is still to be performed. -/
theorem keyDestroy_performs {s : State} (hs : s.sys.stage = .running) (k : Nat) : ∃ u, u.sys.keys = s.sys.keys ∧
    exec (.keyDestroy k) s = .next (if keyInUse u k = true then u else keyGone u k) := by
  refine ⟨_, ?_, if_pos (running_iff.2 hs)⟩
  have h (t : State) (e : Nat × Stroke) : (killFinish (retireStroke (drainStroke t e.1) e.1) e.1).firm = t.firm := by simp
  exact congrArg (·.1.keys) ((firm_foldl (fun t e => firm_settleFifo ..) _ _).trans (firm_foldl h _ s))

theorem keyDestroy_idle {s : State} (hs : s.sys.stage = .running) {k : Nat} (h1 : ∀ e ∈ s.strokes, ∀ q ∈ e.2.fifo, q.usesKey k = false)
    (h2 : ∀ e ∈ s.ctxs, ∀ q ∈ e.2.fifo, q.usesKey k = false) :
    exec (.keyDestroy k) s = .next (if keyInUse s k = true then s else keyGone s k) := by
  have hst : s.strokes.filter (fun e => e.2.fifo.any (·.usesKey k)) = [] := List.filter_eq_nil_iff.2 (by simpa using h1)
  have hcx : s.ctxs.filter (fun e => e.2.fifo.any (·.usesKey k)) = [] := List.filter_eq_nil_iff.2 (by simpa using h2)
  refine (if_pos (running_iff.2 hs)).trans ?_
  dsimp only
  rw [hst, List.foldl_nil, hcx]
  rfl

/-! ## Power (R408) -/

theorem pwrcapWrite_clamps {s : State} (hs : s.sys.stage = .running) (v : BitVec 16) : exec (.pwrcapWrite v) s = .next { s with sys := { s.sys with
    pwrCap := if 4000 < v.toNat then 4000 else if v.toNat < 1000 then 1000 else v.toNat } } := by
  have h : max 1000 (min v.toNat 4000) = if 4000 < v.toNat then 4000 else if v.toNat < 1000 then 1000 else v.toNat := by
    split
    · omega
    · split <;> omega
  rw [← h]
  exact congrArg Host.Outcome.next (if_pos (running_iff.2 hs))

theorem powerSample_throttles {s : State} (hs : s.sys.stage = .running) (w : Nat) : exec (.powerSample w) s = .next { s with sys := { s.sys with
    pwrNow := w % 65536, throt := decide (s.sys.pwrCap < w ∨ (w = s.sys.pwrCap ∧ s.sys.throt = true)) } } := by
  have h : decide (s.sys.pwrCap < w ∨ (w = s.sys.pwrCap ∧ s.sys.throt = true)) = (decide (s.sys.pwrCap < w) || (s.sys.throt && w == s.sys.pwrCap)) := by
    rw [Bool.eq_iff_iff]; simp [and_comm]
  rw [h]
  exact congrArg Host.Outcome.next (if_pos (running_iff.2 hs))

/-! ## Marks of lines (R391, R393, R395) -/

theorem MemSys.home_setPoison (m : MemSys) (k j : Home) (n : Nat) (b : Bool) : (m.setPoison k n b).home j = m.home j := by
  cases k <;> cases j <;> rfl

theorem MemSys.poisoned_setPoison (m : MemSys) (k j : Home) (n i : Nat) (b : Bool) :
    (m.setPoison k n b).poisoned j i = if k = j ∧ n = i then b else m.poisoned j i := by
  cases k <;> cases j <;> simp [MemSys.setPoison, MemSys.poisoned, mapGet_set]

/-- Marks set one by one: those named are set, and all else of the memories is left. -/
theorem foldl_setPoison_home (ls : List (Loc × Nat)) (t : State) (k : Home) :
    (ls.foldl (fun t l => { t with mem := t.mem.setPoison l.1.home l.1.line true }) t).mem.home k = t.mem.home k := by
  induction ls generalizing t with
  | nil => rfl
  | cons l ls ih => rw [List.foldl_cons, ih]; exact MemSys.home_setPoison ..

theorem foldl_setPoison_poisoned (ls : List (Loc × Nat)) (t : State) (k : Home) (n : Nat) :
    (ls.foldl (fun t l => { t with mem := t.mem.setPoison l.1.home l.1.line true }) t).mem.poisoned k n =
      (t.mem.poisoned k n || decide (∃ l ∈ ls, l.1.home = k ∧ l.1.line = n)) := by
  induction ls generalizing t with
  | nil => simp
  | cons l ls ih =>
    rw [List.foldl_cons, ih]
    show (MemSys.poisoned (t.mem.setPoison ..) k n || _) = _
    rw [MemSys.poisoned_setPoison, Bool.eq_iff_iff]
    by_cases h : l.1.home = k ∧ l.1.line = n <;> simp [h]

theorem mapGet_foldl_set (f : Nat → Nat) (ks : List Nat) (m : Map Bool) (b : Bool) (j : Nat) :
    mapGet (ks.foldl (fun m k => mapSet m false (f k) b) m) j false = if ∃ k ∈ ks, f k = j then b else mapGet m j false := by
  induction ks generalizing m with
  | nil => simp
  | cons k ks ih =>
    rw [List.foldl_cons, ih, mapGet_set]
    by_cases h1 : ∃ k ∈ ks, f k = j <;> by_cases h2 : f k = j <;> simp [h1, h2]

/-- A mark of a line of a memory. -/
theorem setMark_line {l : LineId} {hm : Home} {n : Nat} (h : linePlace l = some (hm, n)) (s : State) (b : Bool) :
    setMark s l b = { s with mem := s.mem.setPoison hm n b } := by
  cases l <;> simp_all [setMark, linePlace]

theorem setMark_poisoned {l : LineId} {hm : Home} {n : Nat} (h : linePlace l = some (hm, n)) (s : State) (b : Bool) :
    (setMark s l b).mem.poisoned hm n = b ∧ ∀ k m, k ≠ hm ∨ m ≠ n → (setMark s l b).mem.poisoned k m = s.mem.poisoned k m := by
  rw [setMark_line h]
  refine ⟨(MemSys.poisoned_setPoison ..).trans (if_pos ⟨rfl, rfl⟩), fun k m hne => (MemSys.poisoned_setPoison ..).trans (if_neg ?_)⟩
  rintro ⟨rfl, rfl⟩
  simp at hne

theorem setMark_home (s : State) (l : LineId) (b : Bool) (k : Home) : (setMark s l b).mem.home k = s.mem.home k := by
  cases l <;> rfl

theorem setMark_part (s : State) (l : LineId) (b : Bool) (j : Nat) : (setMark s l b).part? j = s.part? j := by cases l <;> rfl

theorem countUp_counter {s : State} {part : Nat} {p : Partition} (hp : s.part? part = some p) (i n : Nat) (hi : i < p.counters.length) :
    ∃ q, (countUp s part i n).part? part = some q ∧ (q.counters[i]?).getD 0 = min (2 ^ 64 - 1) ((p.counters[i]?).getD 0 + n) := by
  refine ⟨_, by rw [countUp, State.modPart_part_get_self, hp]; rfl, ?_⟩
  simp [listPut, hi]

/-! ## Host memory (R317, R362) -/

/-- An access that is not to the host's own memory does what deviceAccess says, and nothing before firmware runs and in recovery. -/
theorem hostMemoryAccess_device (s : State) (acc : HostAccess) (h : ∀ pa data, acc ≠ .hostMem pa data) (h' : ∀ l b, acc ≠ .hostMark l b)
    (h'' : ∀ p r, acc ≠ .iommu p r) : exec (.hostMemoryAccess acc) s = .next (if running s then deviceAccess s acc else s) := by
  cases acc with
  | hostMem pa data => exact absurd rfl (h pa data)
  | hostMark l b => exact absurd rfl (h' l b)
  | iommu p r => exact absurd rfl (h'' p r)
  | _ => rfl

theorem shown_iff {s : State} {part va n : Nat} : shown s part va n = true ↔
    ∃ p, s.part? part = some p ∧ ∃ r ∈ p.exposed, r.1 ≤ va ∧ va + n ≤ r.2 := by
  simp [shown, Option.any_eq_true]

theorem writeMarked_home (s : State) (ls : List (Loc × Nat)) (bs : List Byte) (bad : Bool) (k : Home) :
    (writeMarked s ls bs bad).mem.home k = (writePlaces s ls bs).mem.home k := by
  unfold writeMarked
  split
  · exact foldl_setPoison_home ls _ k
  · rfl

theorem hostBad_mem (s : State) (part : Nat) (bad : Bool) : (hostBad s part bad).mem = s.mem := by cases bad <;> rfl

/-- Where data come with poison, every line that they are written to is marked (R392). -/
theorem writeMarked_poisoned (s : State) {ls : List (Loc × Nat)} (bs : List Byte) {l : Loc × Nat} (hl : l ∈ ls) :
    (writeMarked s ls bs true).mem.poisoned l.1.home l.1.line = true := by
  have h : decide (∃ k ∈ ls, k.1.home = l.1.home ∧ k.1.line = l.1.line) = true := decide_eq_true ⟨l, hl, rfl, rfl⟩
  exact (foldl_setPoison_poisoned ls _ _ _).trans (by rw [h, Bool.or_true])

/-- The host's write to what firmware shows of a partition's memory. -/
theorem gWrite_shown {s : State} (hs : s.sys.stage = .running) {part va : Nat} {bs : List Byte} {bad : Bool} {ls : List (Loc × Nat)}
    (hsh : shown s part va bs.length = true) (hr : peerReach s part va bs.length .store = .ok ls) :
    exec (.hostMemoryAccess (.gWrite part va bs bad)) s = .next (hostBad (writeMarked s ls bs bad) part bad) := by
  rw [hostMemoryAccess_device _ _ (by simp) (by simp) (by simp), if_pos (running_iff.2 hs)]
  simp [deviceAccess, hsh, hr]

theorem gWrite_refused {s : State} {part va : Nat} {bs : List Byte} (h : ¬ s.sys.stage = .running ∨ shown s part va bs.length = false) (bad : Bool) :
    exec (.hostMemoryAccess (.gWrite part va bs bad)) s = .next s := by
  rw [hostMemoryAccess_device _ _ (by simp) (by simp) (by simp)]
  rcases h with h | h <;> simp [running, deviceAccess, h]

theorem gRead_keeps (s : State) (part va n : Nat) : exec (.hostMemoryAccess (.gRead part va n)) s = .next s := congrArg _ (ite_self _)

theorem phys_beyond {s : State} {inD : Bool} {pa : Nat} {bs : List Byte} (h : (if inD then Config.dBytes else Config.gBytes) < pa + bs.length)
    (key : Nat) : exec (.hostMemoryAccess (.phys inD pa key bs)) s = .next s := by
  rw [hostMemoryAccess_device _ _ (by simp) (by simp) (by simp)]
  simp only [deviceAccess, if_pos h, ite_self]

theorem share_alone {s : State} {part a : Nat} {p : TlbEntry} (b : Byte) (hp : walkPage s part a = .ok p) (hn : p.share = false) :
    exec (.hostMemoryAccess (.share part a [b] false)) s = .next s := by
  rw [hostMemoryAccess_device _ _ (by simp) (by simp) (by simp)]
  simp [deviceAccess, hostBad, writeEach, sharePlace, hp, hn]

theorem share_inD {s : State} (hs : s.sys.stage = .running) {part a : Nat} {p : TlbEntry} (b : Byte) (hp : walkPage s part a = .ok p)
    (hsh : p.share = true) (hk : p.kind = 1) :
    exec (.hostMemoryAccess (.share part a [b] false)) s = .next (writeBytes s { home := .d, addr := p.phys a } [b]) := by
  rw [hostMemoryAccess_device _ _ (by simp) (by simp) (by simp), if_pos (running_iff.2 hs)]
  simp [deviceAccess, hostBad, writeEach, sharePlace, hp, hsh, hk, writeMarked, writePlaces, homeOfKind]

theorem code_error {s : State} (hs : s.sys.stage = .running) {l : LineId} (hl : lineOk l = true) (part : Nat) (fix : Bool) :
    exec (.hostMemoryAccess (.code part l fix)) s = .next (codeError s part l fix) := by
  rw [hostMemoryAccess_device _ _ (by simp) (by simp) (by simp), if_pos (running_iff.2 hs)]
  simp [deviceAccess, hl]

theorem code_refused {s : State} {l : LineId} (h : ¬ s.sys.stage = .running ∨ lineOk l = false) (part : Nat) (fix : Bool) :
    exec (.hostMemoryAccess (.code part l fix)) s = .next s := by
  rw [hostMemoryAccess_device _ _ (by simp) (by simp) (by simp)]
  rcases h with h | h <;> simp [running, deviceAccess, h]

theorem mem_refused (ps : List Nat) (page n : Nat) (no : Bool) : n ∈ ps.filter (· != page) ++ (if no then [page] else []) ↔
    (n = page ∧ no = true) ∨ (n ≠ page ∧ n ∈ ps) := by
  cases no <;> simp [and_comm, or_comm]

/-! ## Scrubbing (R393) -/

/-- The marks of a row set or cleared in every lane. -/
theorem poisGet_row (g : Regs) (r i n : Nat) (hn : n < 32) (b : Bool) :
    Regs.poisGet { g with poison := (List.range 32).foldl (fun m l => mapSet m false (32 * r + l) b) g.poison } i n =
      if i = r then b else g.poisGet i n := by
  have h : (∃ l ∈ List.range 32, 32 * r + l = laneKey i n) ↔ i = r := by
    simp only [List.mem_range, laneKey]
    exact ⟨fun ⟨l, hl, e⟩ => by omega, fun e => ⟨n, hn, by rw [e]⟩⟩
  simp only [Regs.poisGet, mapGet_foldl_set (fun l => 32 * r + l), h]

/-- A mark of a bank is of the 32 words that a word lies among. -/
theorem accBad_setMark (s : State) (c b w : Nat) (bad : Bool) : (setMark s (.amem c b w) bad).mem.accBad ((64 * c + b) * 1024 + w) = bad := by
  have h : ∃ k ∈ amemLine c b w, id k = (64 * c + b) * 1024 + w :=
    ⟨_, mem_upTo.2 ⟨w % 32, Nat.mod_lt _ (by decide), rfl⟩, by simp only [Config.amemBanks, id]; omega⟩
  rw [MemSys.accBad, setMark]
  exact (mapGet_foldl_set id ..).trans (if_pos h)

theorem poisonScrub_running {s : State} (hs : s.sys.stage = .running) (l : LineId) : exec (.poisonScrub l) s = .next (setMark s l false) :=
  congrArg Host.Outcome.next (if_pos (running_iff.2 hs))

theorem setMark_row (s : State) (k r : Nat) (b : Bool) : (setMark s (.row k r) b).mem = s.mem ∧
    ∀ st, s.stroke? k = some st → ∃ a, (setMark s (.row k r) b).stroke? k = some a ∧ a.regs.v = st.regs.v ∧
      ∀ i n, n < 32 → a.regs.poisGet i n = if i = r then b else st.regs.poisGet i n := by
  exact ⟨rfl, fun st hst => ⟨_, (State.modStroke_stroke_get_self ..).trans (congrArg (Option.map _) hst), rfl,
    fun i n hn => poisGet_row st.regs r i n hn b⟩⟩

theorem setMark_amem (s : State) (c b w : Nat) (bad : Bool) : (setMark s (.amem c b w) bad).strokes = s.strokes ∧
    (setMark s (.amem c b w) bad).mem.amem = s.mem.amem ∧ (setMark s (.amem c b w) bad).mem.accBad ((64 * c + b) * 1024 + w) = bad :=
  ⟨rfl, by rw [setMark], accBad_setMark s c b w bad⟩

/-- The counter of an integrity block for an error that a code corrects in a line: of HBM or of SRAM (R395). -/
def codeCounter : LineId → Nat
  | .g _ => 1
  | _ => 0

theorem codeError_corrected {s : State} {part : Nat} {p : Partition} (hp : s.part? part = some p) (hlen : p.counters.length = 9) (l : LineId) :
    ∃ q, (codeError s part l true).part? part = some q ∧
      (q.counters[codeCounter l]?).getD 0 = min (2 ^ 64 - 1) ((p.counters[codeCounter l]?).getD 0 + 1) := by
  have hi : codeCounter l < p.counters.length := by rw [hlen]; cases l <;> simp [codeCounter]
  cases l <;> exact countUp_counter hp _ 1 hi

end Sys2Proof.Machine
end

section
/-!
PROOFS. The statements on the device as a whole: what power-up leaves (O49), and what firmware, the host and the board do to it (O60).
-/
open Sys2Proof Sys2Proof.Machine

/-- Settles O49: the fields of the state at power-up have these values, and an empty memory is in canonical form and reads as the empty byte. -/
theorem resetLeavesTheStatedValues : Obligations.ResetLeavesTheStatedValues := by
  unfold Obligations.ResetLeavesTheStatedValues
  refine ⟨⟨rfl, rfl, rfl, rfl, rfl, rfl, rfl, rfl, rfl, rfl, ?partition, ?stroke⟩, reset_wf, fun a => ⟨rfl, rfl, rfl, rfl, rfl⟩⟩
  case partition => exact ⟨rfl, rfl, rfl, rfl, rfl, rfl, rfl⟩
  case stroke => exact ⟨rfl, rfl, rfl, rfl, rfl, rfl, rfl⟩

/-- Settles O60, service by service. What a fence, a boot and the destruction of a key do to the agents and launches of the device leaves its own
registers alone (State.firm), so that each of them finds at its end the registers that it began with. -/
theorem firmwareHostAndBoard : Obligations.FirmwareHostAndBoard := by
  unfold Obligations.FirmwareHostAndBoard
  intro on lost kept good slot entry boots
  have hboots (s t : State) (h : Boots s t) : boots s t := by
    obtain ⟨hbest, hnone, hrest⟩ := h
    exact ⟨fun i hi hg hb => hbest i hi (imageOk_iff.2 hg) (fun j hj hgj => hb j hj (imageOk_iff.1 hgj)),
      fun hno => hnone (fun i hi => Bool.eq_false_iff.2 (fun hg => hno i hi (imageOk_iff.1 hg))), hrest⟩
  refine ⟨?writes, ?registers, ?partitions, ?fences, cap_words, fun s => ⟨telemetryPeriodEnd_due, telemetryPeriodEnd_early⟩, ?boot, ?up, ?powerLoss,
    ?resets, fun s n i => rfl, ?component, ?report, fun s k hs hk => keyLoad_loads hs hk, ?keyDestroy, fun s w hs => powerSample_throttles hs w,
    fun s v hs => pwrcapWrite_clamps hs v, ?hostWrite, fun s part va n => shown_iff, ?hostMark, fun s page no => ⟨_, rfl, rfl, fun n => mem_refused ..⟩,
    ?share, ?code, ?noScrub, ?scrub⟩
  case writes =>
    exact fun s w => ⟨fun hs => congrArg _ (if_neg (running_iff.not.2 hs)), fun hs => congrArg _ (if_pos (running_iff.2 hs))⟩
  case registers =>
    intro cr s part
    obtain ⟨hmtab, hsz, harena, hfault, htrap⟩ := writeRegister_cr s part
    obtain ⟨hnbv, hweight, hengine, hhold, hsave⟩ := writeRegister_limits s part
    obtain ⟨hwindow, hnoWindow⟩ := writeRegister_cWindow s part
    refine ⟨fun _ _ => rfl, fun off bs h => ⟨if_neg h, if_neg h⟩, fun hs fw off => functionRead_of_not_running hs fw part off,
      fun off fw h => functionRead_buffer s fw part h, fun hs p hp i hi => functionRead_counter hs hp hi, fun hs fw => ?full, fun hs fw p hp => ?rejects,
      fun hs => functionRead_capability hs part, fun hs => physicalRead_power hs, fun n => rfl, fun rs => rfl, hsave, fun hot hyst => rfl,
      hwindow, hnoWindow, hmtab, hsz, harena, hfault, htrap, hnbv, hweight, hengine, hhold⟩
    case full => rw [functionRead_status hs]; exact portStatus_full s fw part
    case rejects => rw [functionRead_status hs]; exact portStatus_rejects hp
  case partitions =>
    intro s cfg ok
    have hok : ok ↔ s.sys.stage = .running ∧ cfgOk cfg = true ∧ s.part? cfg.part = none := by
      rw [cfgOk_iff]; tauto
    refine ⟨fun h => partitionCreate_refused (hok.not.1 h), fun h => ?_⟩
    obtain ⟨hs, hc, hn⟩ := hok.1 h
    obtain ⟨t, ht, hp⟩ := partitionCreate_made hs hc hn
    exact ⟨t, _, ht, hp, rfl, rfl, rfl, rfl, rfl, rfl, rfl, rfl, rfl, rfl, rfl, rfl, le_max_left .., max_le (by decide) (min_le_right ..)⟩
  case fences =>
    intro s u v settled_ checked
    have hset : settled_ v = endFence (fenceBegun s u) u := by
      simp only [endFence, State.modSys, fenceBegun_fences]; rfl
    obtain ⟨hcore, hport⟩ := fenceBegun_stops s u
    refine ⟨unitFence_refused, ?fenced, ?first, fun hs hu hb hc => unitFence_again hs hu hb hc, ?machineCheck⟩
    case fenced =>
      intro hf hb hc
      by_cases h : on s ∧ unitExists u = true
      · exact unitFence_fenced h.1 h.2 hf hb hc
      · exact unitFence_refused (by rw [← Bool.not_eq_true]; tauto)
    case first =>
      intro hs hu hf hb hc
      obtain ⟨hheld, hends⟩ := unitFence_first hs hu hf hb hc
      exact ⟨hheld, hset ▸ hends, hcore, hport⟩
    case machineCheck =>
      intro c hs hc hcl hf hb hck
      exact unitFence_checked hs (by subst hcl; exact decide_eq_true hc) hcl hf hb hck
  case boot => exact fun s hp hk hs => ⟨_, congrArg Host.Outcome.next (if_pos hs), hboots s _ (bootUp_boots hp hk)⟩
  case up => exact fun s hs => congrArg Host.Outcome.next (if_neg hs)
  case powerLoss => exact fun s => ⟨rfl, fun k => rfl⟩
  case resets =>
    intro s
    have hagain : boots s (bootUp (powerOff s)) := hboots s _ (bootUp_boots (s := powerOff s) rfl rfl)
    exact ⟨fun hs => ⟨_, congrArg Host.Outcome.next (if_neg hs), hagain⟩, fun hs => congrArg Host.Outcome.next (if_pos hs),
      fun hs => ⟨_, congrArg Host.Outcome.next (if_pos hs), hagain⟩, fun hs => congrArg Host.Outcome.next (if_neg hs)⟩
  case component => exact fun s v d hs => congrArg Host.Outcome.next (if_pos (running_iff.2 hs))
  case report => exact fun s part nonce hs hp => ⟨length_reportBody s part nonce, attestationReport_made hs nonce hp⟩
  case keyDestroy =>
    exact fun s k hs => ⟨(keyLoad_keyGone s k k).trans (if_pos rfl), fun j hj => (keyLoad_keyGone s k j).trans (if_neg (Ne.symm hj)),
      keyDestroy_performs hs k, keyDestroy_idle hs⟩
  case hostWrite =>
    intro s part va n bs bad
    refine ⟨fun h => gWrite_refused h bad, fun ls hs hsh hr => ⟨_, gWrite_shown hs hsh hr, ?bytes, ?good, ?bad⟩, gRead_keeps s part va n,
      phys_beyond (inD := false), phys_beyond (inD := true), _, rfl, rfl, fun a => memByte_memWrite bs s.mem.h va a⟩
    case bytes => exact fun k => (congrArg (MemSys.home · k) (hostBad_mem ..)).trans (writeMarked_home ..)
    case good => rintro rfl; rfl
    case bad => rintro rfl l hl; exact writeMarked_poisoned s bs hl
  case hostMark =>
    exact fun s line bad => ⟨_, rfl, (MemSys.poisoned_setPoison s.mem .h .h line line bad).trans (if_pos ⟨rfl, rfl⟩),
      fun k => MemSys.home_setPoison s.mem .h k line bad⟩
  case share => exact fun s part a b => ⟨fun p hp hn => share_alone b hp hn, fun p hs hp hsh hk => share_inD hs b hp hsh hk⟩
  case code =>
    intro s part p l hp hlen
    refine ⟨fun h fix => code_refused h part fix, fun hs hl => ⟨?corrected, ?uncorrected⟩⟩
    case corrected =>
      obtain ⟨q, hq, hcount⟩ := codeError_corrected hp hlen l
      exact ⟨_, q, code_error hs hl part true, rfl, hq, hcount⟩
    case uncorrected =>
      obtain ⟨q, hq, hcount⟩ := countUp_counter ((setMark_part s l true part).trans hp) 3 1 (by rw [hlen]; decide)
      exact ⟨_, q, code_error hs hl part false, hq, hcount, fun hm n h => (setMark_poisoned h s true).1⟩
  case noScrub => exact fun s l hs => congrArg Host.Outcome.next (if_neg (running_iff.not.2 hs))
  case scrub =>
    intro s l hs
    refine ⟨_, poisonScrub_running hs l, setMark_home s l false, fun hm n h => setMark_poisoned h s false, ?row, ?bank⟩
    case row => rintro k r rfl; exact setMark_row s k r false
    case bank => rintro c b w rfl; exact setMark_amem s c b w false
end

section
/-!
SUPPORT. What the closing write of a packet does at a launch port (R28): every listing of the partition has its own port changed.
-/
namespace Sys2Proof.Machine

theorem mapMod_mapMod {α : Type} (m : Map α) (k : Nat) (f g : α → α) : mapMod (mapMod m k f) k g = mapMod m k (g ∘ f) := by
  simp only [mapMod, List.map_map]
  exact List.map_congr_left (fun e _ => by by_cases h : e.1 = k <;> simp [h])

theorem mapMod_congr {α : Type} {m : Map α} {k : Nat} {f g : α → α} (h : ∀ a, (k, a) ∈ m → f a = g a) : mapMod m k f = mapMod m k g := by
  refine List.map_congr_left (fun e he => ?_)
  split
  next hk => rw [h e.2 (hk ▸ he)]
  next => rfl

theorem State.modPart_modPart (s : State) (k : Nat) (f g : Partition → Partition) : (s.modPart k f).modPart k g = s.modPart k (g ∘ f) := by
  simp only [State.modPart, mapMod_mapMod]

theorem Partition.modPort_comp (fw : Bool) (f g : LaunchPort → LaunchPort) :
    ((·.modPort fw g) ∘ (·.modPort fw f) : Partition → Partition) = (·.modPort fw (g ∘ f)) := by
  cases fw <;> rfl

theorem State.modPort_modPort (s : State) (k : Nat) (fw : Bool) (f g : LaunchPort → LaunchPort) :
    (s.modPart k (·.modPort fw f)).modPart k (·.modPort fw g) = s.modPart k (·.modPort fw (g ∘ f)) := by
  rw [State.modPart_modPart, Partition.modPort_comp]

/-- What stands in a port leaves the queues as they are. -/
theorem queueRoom_modPort (s : State) (k : Nat) (fw : Bool) (g : LaunchPort → LaunchPort) (part cls : Nat) :
    queueRoom (s.modPart k (·.modPort fw g)) part cls = queueRoom s part cls := by
  unfold queueRoom
  rw [State.modPart_part_get]
  by_cases hk : k = part
  · cases s.part? part with
    | none => simp [hk]
    | some p => cases fw <;> simp [hk, Partition.modPort]
  · simp [hk]

section
variable {s : State} {fw : Bool} {part off : Nat} {data : List Byte} {p : Partition} (hp : s.part? part = some p) (hoff : off ≤ 0x7F)
  (hend : 0x80 ≤ off + data.length) {buf : List Byte} (hbuf : bufferPut (p.portOf fw).buffer off data = buf) {l : Launch}
  (hl : packetLaunch s.nextId part buf false none = l)
include hp hoff hend hbuf hl

theorem packetClose_enqueues (hroom : queueRoom s part l.cls ≠ 0) : exec (.packetClose ⟨fw, part⟩ off data) s =
    .next (enqueueLaunch { s.modPart part (·.modPort fw (fun q => { q with buffer := buf, lastCls := l.cls })) with nextId := s.nextId + 1 } l) := by
  have hclosing : ¬ (0x7F < off ∨ off + data.length < 0x80) := by omega
  simp only [exec, execPacketClose, hp, hbuf, if_neg hclosing, State.modPart_nextId, hl, State.modPort_modPort, queueRoom_modPort, if_neg hroom]
  rfl

theorem packetClose_full (hfull : queueRoom s part l.cls = 0) : exec (.packetClose ⟨fw, part⟩ off data) s =
    .next (s.modPart part (·.modPort fw (fun q => { buffer := buf, lastCls := l.cls, rejects := (q.rejects + 1) % 2 ^ 32 }))) := by
  have hclosing : ¬ (0x7F < off ∨ off + data.length < 0x80) := by omega
  simp only [exec, execPacketClose, hp, hbuf, if_neg hclosing, State.modPart_nextId, hl, State.modPort_modPort, queueRoom_modPort, if_pos hfull]
  rfl

/-- While a map lists the partition once, as one with rising keys does, a closing write leaves its port with the packet, the packet's class, and
one more discarded packet if the queue is full. -/
theorem packetClose_of_listedOnce (honce : ∀ q, (part, q) ∈ s.parts → q = p) :
    (queueRoom s part l.cls = 0 → exec (.packetClose ⟨fw, part⟩ off data) s = .next (s.modPart part (·.modPort fw (fun _ =>
      { buffer := buf, lastCls := l.cls, rejects := ((p.portOf fw).rejects + 1) % 2 ^ 32 })))) ∧
    (queueRoom s part l.cls ≠ 0 → exec (.packetClose ⟨fw, part⟩ off data) s = .next (enqueueLaunch { s.modPart part (·.modPort fw (fun _ =>
      { buffer := buf, lastCls := l.cls, rejects := (p.portOf fw).rejects })) with nextId := s.nextId + 1 } l)) := by
  have hport (g : LaunchPort → LaunchPort) : s.modPart part (·.modPort fw g) = s.modPart part (·.modPort fw (fun _ => g (p.portOf fw))) := by
    refine congrArg (fun m => { s with parts := m }) (mapMod_congr (fun q hq => ?_))
    rw [honce q hq]
    cases fw <;> rfl
  refine ⟨fun hfull => ?_, fun hroom => ?_⟩
  · rw [packetClose_full hp hoff hend hbuf hl hfull, hport]
  · rw [packetClose_enqueues hp hoff hend hbuf hl hroom, hport]

end

/-- The discarded packets that the ports of a machine's partitions count, in the order in which it lists them. -/
def State.rejects (s : State) : List Nat := s.parts.map (·.2.port.rejects)

theorem rejects_enqueueLaunch (s : State) (l : Launch) : (enqueueLaunch s l).rejects = s.rejects := by
  simp only [State.rejects, enqueueLaunch, State.modPart, mapMod, List.map_map]
  exact List.map_congr_left (fun e _ => by simp only [Function.comp]; split <;> rfl)

/-- A machine that lists partition 0 twice, the second time with a port that has discarded a packet. -/
def listedTwice : State := { parts := [(0, {}), (0, { port := { rejects := 1 } })] }

/-- The packet that the write of a last byte closes in an empty buffer. -/
def zeroPacket : Launch := packetLaunch 0 0 (bufferPut [] 0x7F [0]) false none

end Sys2Proof.Machine
end

section
/-!
SUPPORT. How work reaches the cores: whose turn the distributor sees, the order of clusters, room on a core, what a placed group finds there, what
sensors report and what a steal moves.
-/
namespace Sys2Proof.Machine

/-! ## The distributor (R27, R35) -/

theorem mayHand_iff {s : State} {part cls : Nat} : mayHand s part cls = true ↔ ∃ p, s.part? part = some p ∧ p.scheduled = true ∧
    p.failed = false ∧ canHand s part cls = true ∧ (∀ c, c < cls → canHand s part c = false) ∧
    (p.served < p.weight ∨ ∀ e ∈ s.parts, e.2.weight ≤ e.2.served ∨ servable s e.1 = false) := by
  unfold mayHand
  cases s.part? part with
  | none => simp
  | some p => simp [and_assoc]

theorem canHand_of_candidate {s : State} {part cls : Nat} {l : Launch} (h : candidate s part cls = some l) :
    canHand s part cls = if l.nomethod.isSome && !holdRoom s part then false
      else if l.cor && !needsMethod l then (assignAll s l).isSome || !fitsEmpty s l else (clustersOf s part).any (rangeRoom s) := by
  simp only [canHand, h]

theorem canHand_of_none {s : State} {part cls : Nat} (h : candidate s part cls = none) : canHand s part cls = false := by
  simp only [canHand, h]

/-- A launch that its assignment alone decides blocks its class while it could be placed once groups have gone. -/
theorem not_mayHand_of_blocked {s : State} {part cls : Nat} {l : Launch} (h : candidate s part cls = some l) (hcor : l.cor = true)
    (hn : needsMethod l = false) (ha : assignAll s l = none) (hf : fitsEmpty s l = true) : mayHand s part cls = false := by
  have hcan : canHand s part cls = false := by simp [canHand_of_candidate h, hcor, hn, ha, hf]
  simp [mayHand, hcan]

/-- A launch that is handed to a cluster: a task is told which. -/
def handedTo (l : Launch) (c : Nat) : Launch := if l.isTask then { l with cluster := c } else l

/-- The machine in which a launch stands handed to a cluster. -/
def State.handing (s : State) (l : Launch) (c : Nat) : State := { s with launches := mapPut s.launches (handedTo l c).id (handedTo l c) }

section
variable {s : State} {part cls c : Nat} {l : Launch} (hl : candidate s part cls = some l) (hm : mayHand s part cls = true) (hcor : l.cor = false)
  (hc : (inOrder s ((clustersOf s part).filter (rangeRoom s))).head? = some c)
include hl hm hcor hc

theorem rangeHandout_done {t : State} (hd : dispatchTask (s.handing l c) (handedTo l c) = .done t) : exec (.rangeHandout part cls) s = .next t := by
  have hgo : (mayHand s part cls && !l.cor) = true := by simp [hm, hcor]
  unfold State.handing handedTo at hd
  simp only [exec, execRangeHandout, hl, hgo, if_true, hc, hd]

theorem rangeHandout_place {m : Launch} (hd : dispatchTask (s.handing l c) (handedTo l c) = .place m) :
    exec (.rangeHandout part cls) s = .next (handRange (countRanges (s.handing l c) part 1) m c) := by
  have hgo : (mayHand s part cls && !l.cor) = true := by simp [hm, hcor]
  unfold State.handing handedTo at hd
  simp only [exec, execRangeHandout, hl, hgo, if_true, hc, hd]
  rfl

end

theorem handRange_scheds (s : State) (l : Launch) (c : Nat) : (handRange s l c).scheds = mapPut s.scheds c { mapGet s.scheds c {} with
    ranges := (mapGet s.scheds c {}).ranges ++ [⟨l.id, l.next, min 64 (l.total - l.next)⟩], tried := [] } := by
  unfold handRange
  dsimp only
  split <;> rfl

theorem rangeRoom_lt {s : State} {c : Nat} (h : rangeRoom s c = true) : (mapGet s.scheds c {}).ranges.length < 16 := by
  have hplaces : 0 < (mapGet s.scheds c {}).places := of_decide_eq_true h
  unfold Sched.places Config.rangePlaces at hplaces
  omega

/-! ## The order of clusters (R36) -/

theorem clusterFree_le_of_before {s : State} {a b : Nat} (h : clusterBefore s a b = true) : clusterFree s b ≤ clusterFree s a := by
  simp only [clusterBefore, Bool.or_eq_true, Bool.and_eq_true, decide_eq_true_eq, beq_iff_eq] at h
  omega

theorem clusterFree_le_of_not_before {s : State} {a b : Nat} (h : ¬ clusterBefore s a b = true) : clusterFree s a ≤ clusterFree s b := by
  simp only [clusterBefore, Bool.or_eq_true, Bool.and_eq_true, decide_eq_true_eq, beq_iff_eq] at h
  omega

theorem mem_insertCluster {s : State} {a d : Nat} {cs : List Nat} : d ∈ insertCluster s a cs ↔ d = a ∨ d ∈ cs := by
  induction cs with
  | nil => simp [insertCluster]
  | cons b r ih =>
    unfold insertCluster
    split
    · exact List.mem_cons
    · rw [List.mem_cons, ih, List.mem_cons]; tauto

theorem mem_inOrder {s : State} {d : Nat} {cs : List Nat} : d ∈ inOrder s cs ↔ d ∈ cs := by
  induction cs with
  | nil => exact Iff.rfl
  | cons a cs ih => rw [inOrder, List.foldr_cons, mem_insertCluster, List.mem_cons]; exact or_congr_right ih

/-- A list's head has the most free slots. -/
def FreestFirst (s : State) (cs : List Nat) : Prop := ∀ c ∈ cs.head?, ∀ d ∈ cs, clusterFree s d ≤ clusterFree s c

theorem freestFirst_insertCluster {s : State} {cs : List Nat} (h : FreestFirst s cs) (a : Nat) : FreestFirst s (insertCluster s a cs) := by
  cases cs with
  | nil => simp [FreestFirst, insertCluster]
  | cons b r =>
    have hb : ∀ d ∈ b :: r, clusterFree s d ≤ clusterFree s b := h b rfl
    unfold insertCluster
    split
    next hab =>
      rintro _ ⟨⟩ d hd
      rcases List.mem_cons.1 hd with rfl | hd
      · exact Nat.le_refl _
      · exact (hb d hd).trans (clusterFree_le_of_before hab)
    next hab =>
      rintro _ ⟨⟩ d hd
      rcases List.mem_cons.1 hd with rfl | hd
      · exact Nat.le_refl _
      · rcases mem_insertCluster.1 hd with rfl | hd
        · exact clusterFree_le_of_not_before hab
        · exact hb d (List.mem_cons_of_mem _ hd)

theorem freestFirst_inOrder (s : State) (cs : List Nat) : FreestFirst s (inOrder s cs) := by
  induction cs with
  | nil => simp [FreestFirst, inOrder]
  | cons a cs ih => exact freestFirst_insertCluster ih a

/-! ## Room on a core (R38, R94) -/

/-- A fold that keeps or takes what it meets ends with what was held before or with an element of the list. -/
theorem foldl_picks {f : Option Nat → Nat → Option Nat} (hf : ∀ m a b, f m a = some b → m = some b ∨ a = b) {l : List Nat} {m : Option Nat}
    {b : Nat} (h : l.foldl f m = some b) : m = some b ∨ b ∈ l := by
  induction l generalizing m with
  | nil => exact .inl h
  | cons a l ih =>
    rcases ih h with hm | hm
    · rcases hf m a b hm with hm | rfl
      · exact .inl hm
      · exact .inr List.mem_cons_self
    · exact .inr (List.mem_cons_of_mem _ hm)

/-- What a group reserves of U lies in its core's. -/
theorem freeU_fits {s : State} {k n a : Nat} (h : freeU s k n = some a) : a + n ≤ Config.uBytes := by
  unfold freeU at h
  have hmin : ∀ (m : Option Nat) (a b : Nat), (match m with
      | none => some a
      | some c => some (min a c)) = some b → m = some b ∨ a = b := by
    intro m a b hb
    cases m with
    | none => exact .inr (Option.some.inj hb)
    | some c => rcases Nat.le_total a c with hle | hle <;> simp_all
  rcases foldl_picks hmin h with hnone | hmem
  · cases hnone
  · have hfits := (List.mem_filter.1 hmem).2
    simp only [Bool.and_eq_true, decide_eq_true_eq] at hfits
    exact hfits.1

theorem freeBanks_length {s : State} {k n : Nat} {bs : List Nat} (h : freeBanks s k n = some bs) : bs.length = n := by
  unfold freeBanks at h
  dsimp only at h
  split at h
  next hl => cases h; exact hl
  next => cases h

theorem freeSlots_head {s : State} {k slot : Nat} (h : (freeSlots s k).head? = some slot) : slot < 8 ∧ s.group? (8 * k + slot) = none := by
  have := List.mem_filter.1 (List.mem_of_head? h)
  simpa [Config.slotsPerCore] using this

/-! ## Placing a group (R8, R38, R235) -/

theorem mapGet?_foldl_put {α : Type} (f : Nat → α) (ks : List Nat) (m : Map α) (j : Nat) :
    mapGet? (ks.foldl (fun m q => mapPut m q (f q)) m) j = if j ∈ ks then some (f j) else mapGet? m j := by
  induction ks generalizing m with
  | nil => simp
  | cons k ks ih =>
    rw [List.foldl_cons, ih, mapGet?_put]
    by_cases hk : k = j
    · subst hk; simp
    · simp [hk, Ne.symm hk]

/-- The state with rings set up at offsets from a place of U. -/
def putRings (b : Nat) (s : State) (os : List Nat) : State := os.foldl (fun s o => writeBytes s { home := .u, addr := b + o } ringLine) s

theorem putRings_cons (b : Nat) (s : State) (o : Nat) (os : List Nat) :
    putRings b s (o :: os) = putRings b (writeBytes s { home := .u, addr := b + o } ringLine) os := List.foldl_cons ..

theorem putRings_frame (b : Nat) (s : State) (os : List Nat) : putRings b s os = { s with mem := (putRings b s os).mem } := by
  induction os generalizing s with
  | nil => rfl
  | cons o os ih =>
    rw [putRings_cons, ih, writeBytes_frame]

@[simp] theorem length_ringLine : ringLine.length = 128 := by simp [ringLine]

theorem writable_of_not_g {s : State} {l : Loc} {n : Nat} (h : l.home ≠ .g) : writable s l n := fun hg => absurd hg h

/-- A byte of a ring's control line after rings are set up, of which each other one lies apart from it. -/
theorem memByte_putRings {b o i : Nat} {os : List Nat} (s : State) (hi : i < 128)
    (hos : ∀ q ∈ os, q = o ∨ o + 128 ≤ q ∨ q + 128 ≤ o) :
    memByte ((putRings b s os).mem.home .u) (b + o + i) =
      if o ∈ os then (ringLine[i]?).getD Config.emptyByte else memByte (s.mem.home .u) (b + o + i) := by
  induction os generalizing s with
  | nil => rfl
  | cons q os ih =>
    have hbyte : memByte ((writeBytes s { home := .u, addr := b + q } ringLine).mem.home .u) (b + o + i) =
        if q = o then (ringLine[i]?).getD Config.emptyByte else memByte (s.mem.home .u) (b + o + i) := by
      refine (memByte_writeBytes s _ ringLine .u (b + o + i) (writable_of_not_g (by simp))).trans ?_
      simp only [length_ringLine, true_and]
      rcases hos q List.mem_cons_self with rfl | hq
      · rw [if_pos (by omega), if_pos rfl, Nat.add_sub_cancel_left]
      · rw [if_neg (by omega), if_neg (by omega)]
    rw [putRings_cons, ih _ (fun q hq => hos q (List.mem_cons_of_mem _ hq)), hbyte]
    by_cases hq : q = o
    · subst hq; simp
    · simp [hq, Ne.symm hq]

theorem ringLine_head : (List.range 16).map (fun i => (ringLine[i]?).getD Config.emptyByte) = natBytes 12 0 ++ natBytes 4 1 := by decide +kernel

/-- A ring that no other one overlaps stands as its placement sets it up. -/
theorem readBytes_putRings {b o : Nat} {os : List Nat} (s : State) (ho : o ∈ os) (hos : ∀ q ∈ os, q = o ∨ o + 128 ≤ q ∨ q + 128 ≤ o) :
    readBytes (putRings b s os) { home := .u, addr := b + o } 16 = natBytes 12 0 ++ natBytes 4 1 := by
  rw [← ringLine_head]
  refine List.map_congr_left (fun i hi => ?_)
  have hi : i < 128 := by rw [List.mem_range] at hi; omega
  exact (memByte_putRings s hi hos).trans (if_pos ho)

/-- Does a binding name a ring in U (R12)? -/
def bindsU (w : Dword) : Prop := w.getLsbD 63 = true ∧ w.getLsbD 62 = false

theorem mem_uRings {ws : List Dword} {o : Nat} : o ∈ uRings ws ↔ ∃ w ∈ ws, bindsU w ∧ w.toNat % 2 ^ 32 = o := by
  simp [uRings, bindsU, bit, bits, BitVec.testBit_toNat, and_assoc]

/-- All that a placement finds and leaves: a slot, a place of U and banks that were free; the group's entry, its strokes and its context; and, of
memory, its rings set up last. -/
theorem placeGroup_cases {s t : State} {l : Launch} {k lin : Nat} (h : placeGroup s l k lin = some t) :
    ∃ slot u banks gr v, (freeSlots s k).head? = some slot ∧ freeU s k (reserveBytes l.units l.dims.strokes l.kern.stack) = some u ∧
      freeBanks s k l.banks = some banks ∧ t.groups = mapPut s.groups (8 * k + slot) gr ∧
      (gr.part = l.part ∧ gr.strokes = l.dims.strokes ∧ gr.units = l.units ∧ gr.stack = l.kern.stack ∧ gr.banks = banks ∧ gr.ubase = u ∧
        gr.gx = lin % l.dims.gx ∧ gr.gy = lin / l.dims.gx % l.dims.gy ∧ gr.gz = lin / (l.dims.gx * l.dims.gy)) ∧
      t.strokes = (upTo (32 * (8 * k + slot)) l.dims.strokes).foldl (fun m q => mapPut m q (startStroke l (8 * k + slot) (q % 32))) s.strokes ∧
      t.ctxs = l.kern.scribe.elim (mapDel s.ctxs (8 * k + slot)) (fun c => mapPut s.ctxs (8 * k + slot) (startCtx l c)) ∧
      t.mem = (putRings (uBase k + u) v (uRings l.kern.streams)).mem := by
  unfold placeGroup at h
  dsimp only at h
  split at h
  next slot u banks _ hslot hu hbanks _ =>
    split at h
    next =>
      rw [← putRings, putRings_frame] at h
      cases h
      refine ⟨slot, u, banks, _, _, hslot, hu, hbanks, rfl, ⟨rfl, rfl, rfl, rfl, rfl, rfl, rfl, rfl, rfl⟩, rfl, ?_, rfl⟩
      cases l.kern.scribe <;> rfl
    next => cases h
  next => cases h

theorem coords_linear (x y n : Nat) : n % x + x * (n / x % y + y * (n / (x * y))) = n := by
  rw [← Nat.div_div_eq_div_mul, Nat.mod_add_div, Nat.mod_add_div]

theorem startStroke_lane (l : Launch) (g i : Nat) {n : Nat} (hn : n < 32) : (startStroke l g i).lanes[n]? =
    some { pc := l.kern.thread, helper := decide (l.dims.tx * l.dims.ty * l.dims.tz ≤ 32 * i + n) } := by
  simp [startStroke, hn]

theorem mapGet?_startStrokes (m : Map Stroke) (l : Launch) (g : Nat) {n i : Nat} (hi : i < n) (hn : n ≤ 32) :
    mapGet? ((upTo (32 * g) n).foldl (fun m q => mapPut m q (startStroke l g (q % 32))) m) (32 * g + i) = some (startStroke l g i) := by
  have hmod : (32 * g + i) % 32 = i := by omega
  rw [mapGet?_foldl_put (fun q => startStroke l g (q % 32)), if_pos (mem_upTo.2 ⟨i, hi, rfl⟩), hmod]

theorem readBytes_of_mem {s t : State} (h : s.mem = t.mem) {l : Loc} (hl : l.home ≠ .g) (n : Nat) : readBytes s l n = readBytes t l n := by
  simp [readBytes, readByte, Loc.plus, hl, h]

/-- A ring that a binding names stands as it is set up, unless a ring that another binding names overlaps it. -/
theorem ring_setUp_or_overlapped (b : Nat) (s : State) {ws : List Dword} {w : Dword} (hw : w ∈ ws) (hb : bindsU w) :
    readBytes (putRings b s (uRings ws)) { home := .u, addr := b + w.toNat % 2 ^ 32 } 16 = natBytes 12 0 ++ natBytes 4 1 ∨
      ∃ q ∈ ws, bindsU q ∧ q.toNat % 2 ^ 32 ≠ w.toNat % 2 ^ 32 ∧ w.toNat % 2 ^ 32 < q.toNat % 2 ^ 32 + 128 ∧
        q.toNat % 2 ^ 32 < w.toNat % 2 ^ 32 + 128 := by
  by_cases hover : ∃ q ∈ ws, bindsU q ∧ q.toNat % 2 ^ 32 ≠ w.toNat % 2 ^ 32 ∧ w.toNat % 2 ^ 32 < q.toNat % 2 ^ 32 + 128 ∧
      q.toNat % 2 ^ 32 < w.toNat % 2 ^ 32 + 128
  · exact .inr hover
  · refine .inl (readBytes_putRings s (mem_uRings.2 ⟨w, hw, hb, rfl⟩) (fun o ho => ?_))
    obtain ⟨q, hq, hqb, rfl⟩ := mem_uRings.1 ho
    by_contra hapart
    exact hover ⟨q, hq, hqb, by omega, by omega, by omega⟩

theorem groupPlacement_eq {s t : State} {c : Nat} {r : Range} {l : Launch} (hr : firstRange s ((mapGet s.scheds c {}).ranges.filter
      (fun r => !(mapGet s.scheds c {}).transit.contains r)) = some r) (hl : s.launch? r.launch = some l) (hb : beforeFirst s l = .ok t) :
    exec (.groupPlacement c) s = .next ((placeIn t l c r.first).elim s (fun v => { v with
      scheds := mapPut v.scheds c ((mapGet v.scheds c {}).advance r) })) := by
  simp only [exec, execGroupPlacement, hr, hl, hb]
  cases placeIn t l c r.first <;> rfl

/-! ## Sensors (R39, R407) -/

theorem sensorSample_trips {s : State} (hs : running s = true) (k : Nat) {t : Nat} (ht : 115 ≤ t) :
    exec (.sensorSample (clusterOf k) [(k, some t)]) s = .next (powerOff s) := by
  simp [exec, execSensorSample, hs, tripTemp, ht]

theorem sensorSample_reads {s : State} (hs : running s = true) (k : Nat) {v : Option Nat} (hv : ∀ t, v = some t → t < 115) :
    exec (.sensorSample (clusterOf k) [(k, v)]) s = .next (s.modCore k (sampled s.sys.tHot s.sys.hyst v)) := by
  have hcool : v.any (decide <| tripTemp ≤ ·) = false := by
    cases v with
    | none => rfl
    | some t => exact decide_eq_false (Nat.not_le.2 (hv t rfl))
  simp [exec, execSensorSample, hs, hcool]

theorem sampled_some (tHot hyst t : Nat) (x : Core) : sampled tHot hyst (some t) x =
    { x with temp := some t, hot := decide (tHot ≤ t) || (decide (tHot - hyst < t) && (x.hot || x.temp.isNone)) } := by
  unfold sampled
  by_cases hhot : tHot ≤ t
  · simp [hhot]
  · by_cases hcool : t ≤ tHot - hyst <;> simp [hhot, hcool, Nat.not_lt.2, Nat.lt_of_not_le]

/-! ## Stealing (R46, R47) -/

theorem places_of_unanswered {x : Sched} {q : Steal} (hs : x.steal = some q) (hr : q.reply = none) : x.places = 16 - x.ranges.length := by
  simp [Sched.places, Config.rangePlaces, hs, hr]

/-- The tasks of a partition that a victim has not started and not sent. -/
def unstarted (s : State) (part : Nat) (v : Sched) : List Range := v.ranges.filter (fun r => isTaskRange s part r && !v.transit.contains r)

/-- The newest half of a victim's unstarted tasks, bounded by the places of the thief. -/
def stolen (s : State) (x : Sched) (part : Nat) (v : Sched) : List Range :=
  (unstarted s part v).reverse.take (min (16 - x.ranges.length) (min 16 ((unstarted s part v).length / 2)))

theorem stolen_isEmpty {s : State} {x v : Sched} {part : Nat} : (stolen s x part v).isEmpty = true ↔
    (unstarted s part v).length < 2 ∨ 16 ≤ x.ranges.length := by
  rw [stolen, List.isEmpty_iff, List.take_eq_nil_iff, List.reverse_eq_nil_iff, ← List.length_eq_zero_iff]
  omega

theorem stealReply_eq {s : State} {c : Nat} {x v : Sched} {q : Steal} (hc : mapGet s.scheds c {} = x) (hv : mapGet s.scheds q.victim {} = v)
    (hs : x.steal = some q) (hr : q.reply = none) : exec (.stealReply c) s = .next (
      if (unstarted s q.part v).length < 2 ∨ 16 ≤ x.ranges.length then
        { s with scheds := mapPut s.scheds c { x with steal := none, tried := mapPut x.tried q.part (mapGet x.tried q.part 0 + 1) } }
      else { s with scheds := mapPut (mapPut s.scheds q.victim { v with transit := v.transit ++ stolen s x q.part v }) c
                      { x with steal := some { q with reply := some (stolen s x q.part v) } } }) := by
  simp only [exec, execStealReply, hc, hv, hs, hr, Option.isSome_none, Bool.false_eq_true, if_false, places_of_unanswered hs hr]
  rw [← unstarted, ← stolen]
  split
  next he => rw [if_pos (stolen_isEmpty.1 he)]
  next he => rw [if_neg (stolen_isEmpty.not.1 he)]

theorem foldl_modLaunch_scheds (g : Launch → Launch) (rs : List Range) (s : State) :
    (rs.foldl (fun s r => s.modLaunch r.launch g) s).scheds = s.scheds := by
  induction rs generalizing s with
  | nil => rfl
  | cons r rs ih => rw [List.foldl_cons, ih]; rfl

theorem stealAck_moves {s : State} {c v part : Nat} {rs : List Range} (h : (mapGet s.scheds c {}).steal = some ⟨part, v, some rs⟩) :
    ∃ t, exec (.stealAck c) s = .next t ∧ t.scheds = mapPut (mapPut s.scheds v { mapGet s.scheds v {} with
        ranges := (mapGet s.scheds v {}).ranges.filter (fun r => !rs.contains r)
        transit := (mapGet s.scheds v {}).transit.filter (fun r => !rs.contains r) }) c { mapGet s.scheds c {} with
        ranges := (mapGet s.scheds c {}).ranges ++ (rs.filter (fun r => (mapGet s.scheds v {}).ranges.contains r)).reverse
        steal := none, tried := [] } := by
  simp only [exec, execStealAck, h]
  exact ⟨_, rfl, foldl_modLaunch_scheds ..⟩

end Sys2Proof.Machine
end

section
/-!
PROOFS. The statements on launches and their placement: how launches are queued, checked, released and ended (O51), and how their work is handed
out, placed and stolen (O52).
-/
open Sys2Proof Sys2Proof.Machine

/-- Refutes O51: the clause of R28 on the closing write of a packet speaks of every state, also of one whose map lists the partition twice, and gives
each listing the count of discarded packets of the first; the write leaves each its own. In listedTwice the second listing counts 1 where the
clause wants 0. No map with rising keys lists a partition twice, and where it is listed once the clause holds (packetClose_of_listedOnce). -/
theorem not_launchesAreQueuedCheckedReleasedAndEnded : ¬ Obligations.LaunchesAreQueuedCheckedReleasedAndEnded := by
  unfold Obligations.LaunchesAreQueuedCheckedReleasedAndEnded
  rintro ⟨⟨hclose, -⟩, -⟩
  have hp : listedTwice.part? 0 = some {} := rfl
  have hend : 0x80 ≤ 0x7F + ([0] : List Byte).length := Nat.le_refl _
  have hroom : queueRoom listedTwice 0 zeroPacket.cls ≠ 0 := by decide +kernel
  have hmade := packetClose_enqueues (fw := false) hp (Nat.le_refl _) hend rfl rfl hroom
  have hstated := (hclose listedTwice false 0 0x7F [0] {} hp (Nat.le_refl _) hend).2 hroom
  have heq := congrArg State.rejects (Host.Outcome.next.inj (hmade.symm.trans hstated))
  rw [rejects_enqueueLaunch, rejects_enqueueLaunch] at heq
  have hports : [0, 1] = [0, if queueRoom listedTwice 0 zeroPacket.cls = 0 then 1 else 0] := heq
  rw [if_neg hroom] at hports
  exact absurd hports (by decide)

/-- Settles O52, event by event, each from what its event does. Two facts need an induction: the first cluster in order is the freest
(freestFirst_inOrder), and a ring stands as it was set up unless another overlaps it (memByte_putRings). -/
theorem workIsHandedOutPlacedAndStolen : Obligations.WorkIsHandedOutPlacedAndStolen := by
  unfold Obligations.WorkIsHandedOutPlacedAndStolen
  refine ⟨?hands, ?rangeHandout, ?handRange, ?inOrder, ?corPlacement, ?corWaits, ?groupPlacement, ?placing,
    fun s k t hs ht => sensorSample_trips hs k ht, ?sensor, fun k s hs => congrArg Host.Outcome.next (if_pos hs),
    fun c s hs => congrArg Host.Outcome.next (if_pos hs), ?stealRequest, ?stealReply, ?stealAck⟩
  case hands =>
    refine fun s part cls => ⟨mayHand_iff, canHand_of_none, fun l hl => ?_⟩
    rw [canHand_of_candidate hl]
    refine ⟨fun hno hroom => by simp [hno, hroom], fun hno => ⟨fun hranges => ?_, fun hcor hn => ?_⟩⟩
    · have hlaunch : (l.cor && !needsMethod l) = false := by rcases hranges with h | h <;> simp [h]
      simp [hno, hlaunch]
    · simp [hno, hcor, hn, Option.isSome_iff_ne_none]
  case rangeHandout =>
    intro s part cls c rest l hl hm hcor hc k u
    have hhead : (inOrder s ((clustersOf s part).filter (rangeRoom s))).head? = some c := by rw [hc]; rfl
    exact ⟨fun t => rangeHandout_done hl hm hcor hhead, fun m => rangeHandout_place hl hm hcor hhead⟩
  case handRange =>
    intro s l c n
    simp only [handRange_scheds, mapGet_put]
    refine ⟨by simp [n], fun hroom => ?_, fun d hd => if_neg (Ne.symm hd), fun htask => by simp [dispatchTask, needsMethod, htask]⟩
    simpa using rangeRoom_lt hroom
  case inOrder =>
    intro s cs rest c h
    have hfirst := freestFirst_inOrder s cs
    refine ⟨mem_inOrder.1 (h ▸ List.mem_cons_self), fun d hd => hfirst c (by rw [h]; rfl) d (mem_inOrder.2 hd)⟩
  case corPlacement =>
    intro s t part cls l hl hm hcor hn hb
    refine ⟨fun v hv => ?assigned, fun hv hf => ?noFit⟩
    case assigned => simp [exec, execCorPlacement, hl, hm, hcor, hn, hb, hv, Launch.ranges]
    case noFit => simp [exec, execCorPlacement, hl, hm, hcor, hn, hb, hv, hf, codeNOFIT]
  case corWaits =>
    intro s part cls l hl hcor hn ha hf
    simp [exec, execCorPlacement, hl, not_mayHand_of_blocked hl hcor hn ha hf]
  case groupPlacement =>
    intro s t c r l x hr hl hb
    exact ⟨fun v hv => by rw [groupPlacement_eq hr hl hb, hv]; rfl, fun hv => by rw [groupPlacement_eq hr hl hb, hv]; rfl⟩
  case placing =>
    intro s t l k lin h _ _ hstrokes
    obtain ⟨slot, u, banks, gr, v, hslot, hu, hbanks, hgroups, ⟨hpart, hgs, hunits, hstack, hgb, hub, hgx, hgy, hgz⟩, hst, hctx, hmem⟩ :=
      placeGroup_cases h
    obtain ⟨hlt, hfree⟩ := freeSlots_head hslot
    refine ⟨slot, gr, hlt, hfree, ?group, hpart, hgs, hunits, by rw [hgb, freeBanks_length hbanks], ?reserve, ?coords, ?ctx, ?noCtx, ?rings, ?lanes⟩
    case group => rw [State.group?, hgroups, mapGet?_put, if_pos rfl]
    case reserve =>
      rw [Group.reserve, hub, hunits, hgs, hstack]
      exact freeU_fits hu
    case coords => rw [hgx, hgy, hgz, coords_linear]
    case ctx =>
      intro c hc
      refine ⟨startCtx l c, ?_, rfl⟩
      rw [State.ctx?, hctx, hc, Option.elim_some, mapGet?_put, if_pos rfl]
    case noCtx =>
      intro hc
      rw [State.ctx?, hctx, hc, Option.elim_none, mapGet?_del, if_pos rfl]
    case rings =>
      intro j o ho hin hu'
      rw [hub, readBytes_of_mem hmem (by simp)]
      refine (ring_setUp_or_overlapped _ _ (List.mem_of_getElem? ho) ⟨hin, hu'⟩).imp id ?_
      rintro ⟨q, hq, ⟨hq1, hq2⟩, hne, hlo, hhi⟩
      obtain ⟨j', hj'⟩ := List.mem_iff_getElem?.1 hq
      exact ⟨j', q, hj', hq1, hq2, hne, hlo, hhi⟩
    case lanes =>
      intro i n hi hn
      refine ⟨startStroke l (8 * k + slot) i, _, ?_, startStroke_lane l _ i hn, rfl, decide_eq_true_iff⟩
      rw [State.stroke?, hst, mapGet?_startStrokes _ _ _ (hgs ▸ hi) hstrokes]
  case sensor =>
    intro s k v hs hv hot
    rw [sensorSample_reads hs k hv]
    cases v with
    | none => rfl
    | some t => simp only [hot, State.modCore, sampled_some]
  case stealRequest =>
    intro s c part v x hrun hsteal hfree hfence hv
    simp [exec, execStealRequest, x, hrun, hsteal, hfence, hv, Nat.not_lt.2 hfree]
  case stealReply =>
    intro s c q x v us sent hx hq _ empty given
    exact stealReply_eq rfl rfl hx hq
  case stealAck =>
    intro s c v part rs h hvc
    obtain ⟨t, ht, hscheds⟩ := stealAck_moves h
    refine ⟨t, ht, fun r => ?_, fun r => ?_, ?_⟩
    all_goals simp [hscheds, mapGet_put, Ne.symm hvc]
end

section
/-!
SUPPORT. What a packet meets on the mesh of a cluster: its route, its agents, the grants of a port, the hops of a stride, what a stride and a check
leave of a flit, how a payload lands, and the flits that a transfer is offered as.
-/
namespace Sys2Proof.Machine

/-! ## Routes and agents (R48, R49, R53, R54) -/

/-- The routes there are from a site to another: one run, two runs with a turn at a full site, three runs with turns at two full sites, or two
runs to the bounce site. -/
inductive Route (a d : Site) : List Site × Bool → Prop
  | straight : a.1 = d.1 ∨ a.2 = d.2 → Route a d ([d], false)
  | corner (w : Site) : w = (d.1, a.2) ∨ w = (a.1, d.2) → (w.1 + w.2) % 2 = 0 → Route a d ([w, d], false)
  | twoCorners (b : Nat) : (b + a.2) % 2 = 0 → (b + d.2) % 2 = 0 → Route a d ([(b, a.2), (b, d.2), d], false)
  | bounce : fullSite a = true → fullSite d = true → (a.1 + d.1) % 2 = 1 →
      Route a d ([(besideCol a.1 d.1, a.2), (besideCol a.1 d.1, d.2)], true)

theorem fullSite_iff {p : Site} : fullSite p = true ↔ (p.1 + p.2) % 2 = 0 := beq_iff_eq

theorem fullSite_eq_false_iff {p : Site} : fullSite p = false ↔ (p.1 + p.2) % 2 = 1 := by
  rw [← Bool.not_eq_true, fullSite_iff]; omega

/-- The column beside another is an odd number of columns from it. -/
theorem besideCol_parity (x y : Nat) : (besideCol x y + y) % 2 = 1 := by
  unfold besideCol; split <;> omega

theorem routeRuns_route (a d : Site) : Route a d (routeRuns a d) := by
  have hb := besideCol_parity a.1 d.1
  unfold routeRuns
  simp only [beq_iff_eq]
  split
  case isTrue h => exact .straight h
  case isFalse =>
    split
    case h_1 ha hd =>
      split
      case isTrue ho => exact .bounce ha hd ho
      case isFalse => rw [fullSite_iff] at ha; exact .corner _ (.inl rfl) (by dsimp only; omega)
    case h_2 ha hd =>
      rw [fullSite_iff] at ha; rw [fullSite_eq_false_iff] at hd
      split
      · exact .corner _ (.inr rfl) (by dsimp only; omega)
      · exact .corner _ (.inl rfl) (by dsimp only; omega)
    case h_3 ha hd =>
      rw [fullSite_eq_false_iff] at ha; rw [fullSite_iff] at hd
      split
      · exact .corner _ (.inl rfl) (by dsimp only; omega)
      · exact .corner _ (.inr rfl) (by dsimp only; omega)
    case h_4 ha hd =>
      rw [fullSite_eq_false_iff] at ha hd
      split
      · exact .corner _ (.inl rfl) (by dsimp only; omega)
      · exact .twoCorners _ (by omega) (by omega)

/-- Where a route ends. -/
theorem Route.getLast? {a d : Site} {r : List Site × Bool} (h : Route a d r) :
    r.1.getLast? = some (if r.2 then (besideCol a.1 d.1, d.2) else d) := by cases h <;> rfl

theorem Route.length_le {a d : Site} {r : List Site × Bool} (h : Route a d r) : r.1.length ≤ 3 := by cases h <;> simp

/-- A route bounces just between full sites in columns of odd difference. -/
theorem Route.bounces_iff {a d : Site} {r : List Site × Bool} (h : Route a d r) :
    r.2 = true ↔ fullSite a = true ∧ fullSite d = true ∧ (a.1 + d.1) % 2 = 1 := by
  simp only [fullSite_iff]
  cases h with
  | straight h => exact iff_of_false Bool.false_ne_true (by omega)
  | corner w hw hfull => rcases hw with rfl | rfl <;> exact iff_of_false Bool.false_ne_true (by dsimp only at hfull; omega)
  | twoCorners b h1 h2 => exact iff_of_false Bool.false_ne_true (by omega)
  | bounce ha hd ho => exact iff_of_true rfl ⟨fullSite_iff.1 ha, fullSite_iff.1 hd, ho⟩

/-- A route turns at full sites. -/
theorem Route.turns_full {a d : Site} {r : List Site × Bool} (h : Route a d r) : ∀ w ∈ r.1.dropLast, (w.1 + w.2) % 2 = 0 := by
  cases h with
  | straight _ => simp
  | corner w _ hfull => simpa using hfull
  | twoCorners b h1 h2 => simp [h1, h2]
  | bounce ha _ ho =>
    have hfirst : (besideCol a.1 d.1 + a.2) % 2 = 0 := by
      have hb := besideCol_parity a.1 d.1
      rw [fullSite_iff] at ha
      omega
    simpa using hfirst

/-- Each run of a route keeps to a row or to a column. -/
theorem Route.runs_straight {a d : Site} {r : List Site × Bool} (h : Route a d r) :
    List.IsChain (fun p q : Site => p.1 = q.1 ∨ p.2 = q.2) (a :: r.1) := by
  cases h with
  | straight h => simpa using h
  | corner w hw _ => rcases hw with rfl | rfl <;> simp
  | twoCorners b _ _ => simp
  | bounce _ _ _ => simp

/-- A core or a slice stands at every site: the core at a full one. -/
theorem siteOf_tile {p : Site} (hp : siteOk p = true) :
    if (p.1 + p.2) % 2 = 0 then siteOf (.core (8 * p.2 + p.1 / 2)) = p else siteOf (.slice (8 * p.2 + p.1 / 2)) = p := by
  have hcol : p.1 < 16 := by simp only [siteOk, Bool.and_eq_true, decide_eq_true_eq] at hp; exact hp.1
  have hrow : (8 * p.2 + p.1 / 2) / 8 = p.2 := by omega
  split <;> exact Prod.ext (by simp only [siteOf, hrow]; omega) hrow

/-- A base die of the cluster's compute die is behind a gateway that serves it. -/
theorem agentFor_base {c b : Nat} (ch : Nat) (h : b / 3 = c / 2) : ∃ g, g < 24 ∧ g % 3 = b % 3 ∧ agentFor c (.base b ch) = .gateway g := by
  have hpick := Nat.mod_lt (Config.gatewayOf (destNumber (.base b ch))) (show 8 > 0 by decide)
  exact ⟨b % 3 + 3 * (Config.gatewayOf (destNumber (.base b ch)) % 8), by omega, by omega, if_pos h⟩

/-! ## Arbitration (R61) -/

theorem eq_nil_of_pick {better : Claim → Claim → Bool} {cs : List Claim} (h : pick better cs = none) : cs = [] := by
  cases cs with
  | nil => rfl
  | cons c cs =>
    simp only [pick] at h
    split at h
    · cases h
    · split at h <;> cases h

theorem mem_of_pick {better : Claim → Claim → Bool} {cs : List Claim} {c : Claim} (h : pick better cs = some c) : c ∈ cs := by
  induction cs generalizing c with
  | nil => cases h
  | cons a cs ih =>
    simp only [pick] at h
    split at h
    next => cases h; exact .head _
    next b hb =>
      split at h <;> cases h
      · exact .tail _ (ih hb)
      · exact .head _

/-- Which of two claims a port takes: the nearer one, then the one of the earlier input. -/
def nearer (a b : Claim) : Bool := grantAt.lexLess a.dist b.dist a.input b.input

theorem nearer_iff {a b : Claim} : nearer a b = true ↔ a.dist < b.dist ∨ a.dist = b.dist ∧ a.input < b.input := by
  simp [nearer, grantAt.lexLess]

theorem dist_le_of_pick {cs : List Claim} {c : Claim} (h : pick nearer cs = some c) : ∀ a ∈ cs, c.dist ≤ a.dist := by
  induction cs generalizing c with
  | nil => cases h
  | cons b cs ih =>
    simp only [pick] at h
    split at h
    next hnone => cases h; simp [eq_nil_of_pick hnone]
    next n hn =>
      have hmin := ih hn
      split at h <;> cases h
      next hb =>
        rw [nearer_iff] at hb
        exact List.forall_mem_cons.2 ⟨by omega, hmin⟩
      next hb =>
        rw [nearer_iff] at hb
        exact List.forall_mem_cons.2 ⟨le_rfl, fun a ha => le_trans (by omega) (hmin a ha)⟩

/-- Has a claim lost 8 times in a row at a port? -/
def starved (key : Nat) (c : Claim) : Bool := decide (8 ≤ mapGet c.flit.losses key 0)

/-- The claims at a port that are of one network and one class. -/
def claimsOf (cs : List Claim) (vn cls : Nat) : List Claim := (cs.filter (fun c => c.flit.vn == vn)).filter (fun c => c.flit.cls == cls)

theorem mem_claimsOf {cs : List Claim} {vn cls : Nat} {c : Claim} : c ∈ claimsOf cs vn cls ↔ c ∈ cs ∧ c.flit.vn = vn ∧ c.flit.cls = cls := by
  simp only [claimsOf, List.mem_filter, beq_iff_eq, and_assoc]

/-- A free port grants, of the claims of one network and class, the first that has starved, or where none has the nearest. -/
theorem grantAt_cases {s : State} {m : Mesh} {key : Nat} {cs : List Claim} {c : Claim} (h : grantAt s m key cs = some c) :
    portFree s m key = true ∧ ∃ vn cls, (claimsOf cs vn cls).find? (starved key) = some c ∨
      (claimsOf cs vn cls).find? (starved key) = none ∧ pick nearer (claimsOf cs vn cls) = some c := by
  unfold grantAt at h
  split at h
  next => cases h
  next hfree =>
    refine ⟨by simpa using hfree, ?_⟩
    split at h
    next => cases h
    next vn _ =>
      dsimp only at h
      split at h
      next => cases h
      next cls _ =>
        refine ⟨vn, cls, ?_⟩
        split at h
        next b hb => cases h; exact .inl hb
        next hb => exact .inr ⟨hb, h⟩

theorem grantAt_spec {s : State} {m : Mesh} {key : Nat} {cs : List Claim} {c : Claim} (h : grantAt s m key cs = some c) :
    c ∈ cs ∧ portFree s m key = true ∧
    (∀ a ∈ cs, a.flit.vn = c.flit.vn → a.flit.cls = c.flit.cls → 8 ≤ mapGet a.flit.losses key 0 → 8 ≤ mapGet c.flit.losses key 0) ∧
    (mapGet c.flit.losses key 0 < 8 → ∀ a ∈ cs, a.flit.vn = c.flit.vn → a.flit.cls = c.flit.cls → c.dist ≤ a.dist) := by
  obtain ⟨hfree, vn, cls, hfound | ⟨hnone, hpick⟩⟩ := grantAt_cases h
  · obtain ⟨hc, -, -⟩ := mem_claimsOf.1 (List.mem_of_find?_eq_some hfound)
    have hstarved : 8 ≤ mapGet c.flit.losses key 0 := of_decide_eq_true (p := 8 ≤ _) (List.find?_some (p := starved key) hfound)
    exact ⟨hc, hfree, fun _ _ _ _ _ => hstarved, fun hfew => absurd hstarved (Nat.not_le.2 hfew)⟩
  · obtain ⟨hc, hvn, hcls⟩ := mem_claimsOf.1 (mem_of_pick hpick)
    have hrival (a : Claim) (ha : a ∈ cs) (hv : a.flit.vn = c.flit.vn) (hk : a.flit.cls = c.flit.cls) : a ∈ claimsOf cs vn cls :=
      mem_claimsOf.2 ⟨ha, hv.trans hvn, hk.trans hcls⟩
    refine ⟨hc, hfree, fun a ha hv hk hmany => ?_, fun _ a ha hv hk => dist_le_of_pick hpick a (hrival a ha hv hk)⟩
    exact absurd (decide_eq_true hmany) (List.find?_eq_none.1 hnone a (hrival a ha hv hk))

/-! ## Strides (R60, R61) -/

theorem wins_eq_true {s : State} {m : Mesh} {f : MeshFlit} {d : Nat} {p : Site} :
    wins s m f d p = true ↔ ∃ c, winner s m d 24 p = some c ∧ c.flit.id = f.id := by
  simp [wins, Option.any_eq_true]

theorem length_strideFrom_le (s : State) (m : Mesh) (f : MeshFlit) (d n hops : Nat) (p : Site) : (strideFrom s m f d n hops p).1.length ≤ n := by
  induction n generalizing hops p with
  | zero => exact le_rfl
  | succ n ih =>
    unfold strideFrom
    dsimp only
    split
    · exact Nat.zero_le _
    · split
      · split
        · exact Nat.succ_le_succ (ih _ _)
        · exact Nat.zero_le _
      · simp

/-- The router at which a claim is said to lose does not grant it. -/
theorem not_wins_of_strideFrom {s : State} {m : Mesh} {f : MeshFlit} {d n hops : Nat} {p q : Site}
    (h : (strideFrom s m f d n hops p).2 = some q) : wins s m f d q = false := by
  induction n generalizing hops p with
  | zero => cases h
  | succ n ih =>
    unfold strideFrom at h
    dsimp only at h
    split at h
    · cases h
    · split at h
      · split at h
        next => exact ih h
        next hlost => cases h; simpa using hlost
      · cases h

theorem length_strideOf_le (s : State) (m : Mesh) (f : MeshFlit) (d : Nat) (p : Site) : (strideOf s m f d p).1.length ≤ 8 := by
  unfold strideOf
  split
  · exact length_strideFrom_le ..
  · exact Nat.zero_le _

theorem strideOf_of_not_wins {s : State} {m : Mesh} {f : MeshFlit} {d : Nat} {p : Site} (h : wins s m f d p = false) :
    strideOf s m f d p = ([], some p) := by simp [strideOf, h]

theorem not_wins_of_strideOf {s : State} {m : Mesh} {f : MeshFlit} {d : Nat} {p q : Site} (h : (strideOf s m f d p).2 = some q) :
    wins s m f d q = false := by
  unfold strideOf at h
  split at h
  next => exact not_wins_of_strideFrom h
  next hlost => cases h; simpa using hlost

/-! ## Flits of a mesh -/

/-- The first flit of a mesh that has an id. -/
def Mesh.flit? (m : Mesh) (id : Nat) : Option MeshFlit := m.flits.find? (fun f => f.id == id)

theorem findFlit_eq (s : State) (c id : Nat) : findFlit s c id = (s.mesh c).flit? id := rfl

@[simp] theorem State.mesh_modMesh (s : State) (c : Nat) (g : Mesh → Mesh) : (s.modMesh c g).mesh c = g (s.mesh c) :=
  (mapGet_put ..).trans (if_pos rfl)

theorem Mesh.id_of_flit? {m : Mesh} {id : Nat} {f : MeshFlit} (h : m.flit? id = some f) : f.id = id := by
  simpa using List.find?_some h

theorem find?_map_id {g : MeshFlit → MeshFlit} (hg : ∀ f, (g f).id = f.id) (fs : List MeshFlit) (id : Nat) :
    (fs.map g).find? (fun f => f.id == id) = (fs.find? (fun f => f.id == id)).map g := by
  rw [List.find?_map]
  simp only [Function.comp_def, hg]

/-- A change made to every flit that leaves their ids. -/
theorem Mesh.flit?_map {m t : Mesh} {g : MeshFlit → MeshFlit} (ht : t.flits = m.flits.map g) (hg : ∀ f, (g f).id = f.id) (id : Nat) :
    t.flit? id = (m.flit? id).map g := by
  rw [Mesh.flit?, ht, find?_map_id hg, Mesh.flit?]

@[simp] theorem Mesh.flit?_drop (m : Mesh) (id : Nat) : (m.drop id).flit? id = none := by
  simp [Mesh.flit?, Mesh.drop]

theorem Mesh.flit?_modFlit {m : Mesh} {id : Nat} {f : MeshFlit} (hf : m.flit? id = some f) {g : MeshFlit → MeshFlit} (hg : ∀ f, (g f).id = f.id) :
    (m.modFlit id g).flit? id = some (g f) := by
  rw [Mesh.flit?_map (m := m) rfl (fun f => by split <;> simp [hg]), hf, Option.map_some, if_pos (Mesh.id_of_flit? hf)]

theorem Mesh.flit?_move {m : Mesh} {id : Nat} {f : MeshFlit} (hf : m.flit? id = some f) {g : MeshFlit → MeshFlit} (hg : ∀ f, (g f).id = f.id) :
    (m.move id g).flit? id = some (g f) := by
  have hdrop : (m.drop id).flits.find? (fun f => f.id == id) = none := Mesh.flit?_drop m id
  rw [Mesh.flit?] at hf ⊢
  have hkept : (m.flits.filter (fun f => f.id == id)).find? (fun f => f.id == id) = m.flits.find? (fun f => f.id == id) := by
    simp only [List.find?_filter, and_self, Bool.decide_eq_true]
  rw [Mesh.move, List.find?_append, hdrop, find?_map_id hg, hkept, hf, Option.none_or, Option.map_some]

/-- Every flit of a mesh is found in another too, with nothing changed but the losses counted. -/
def Mesh.SameButLosses (m t : Mesh) : Prop := ∀ id f, m.flit? id = some f → ∃ ls, t.flit? id = some { f with losses := ls }

theorem Mesh.SameButLosses.refl (m : Mesh) : m.SameButLosses m := fun _ f hf => ⟨f.losses, hf⟩

theorem Mesh.SameButLosses.trans {m t u : Mesh} (h : m.SameButLosses t) (h' : t.SameButLosses u) : m.SameButLosses u := by
  intro id f hf
  obtain ⟨ls, ht⟩ := h id f hf
  obtain ⟨ls', hu⟩ := h' id _ ht
  exact ⟨ls', hu⟩

theorem Mesh.sameButLosses_of_map {m t : Mesh} {g : MeshFlit → MeshFlit} (ht : t.flits = m.flits.map g)
    (hg : ∀ f, ∃ ls, g f = { f with losses := ls }) : m.SameButLosses t := by
  intro id f hf
  obtain ⟨ls, hls⟩ := hg f
  refine ⟨ls, ?_⟩
  rw [Mesh.flit?_map ht (fun f => by obtain ⟨ls, h⟩ := hg f; rw [h]), hf, Option.map_some, hls]

theorem Mesh.grant_sameButLosses (m : Mesh) (s : State) (key : Nat) (cs : List Claim) (f : MeshFlit) : m.SameButLosses (m.grant s key cs f) := by
  refine Mesh.sameButLosses_of_map rfl (fun g => ?_)
  split
  · exact ⟨_, rfl⟩
  · split
    · exact ⟨_, rfl⟩
    · exact ⟨g.losses, rfl⟩

theorem Mesh.lose_sameButLosses (m : Mesh) (s : State) (key : Nat) (cs : List Claim) (f : MeshFlit) : m.SameButLosses (m.lose s key cs f) := by
  have hflits : (m.lose s key cs f).flits = m.flits.map (fun g =>
      if g.id = f.id then { g with losses := mapPut g.losses key (mapGet g.losses key 0 + 1) } else g) := by
    unfold Mesh.lose; dsimp only; split <;> rfl
  refine Mesh.sameButLosses_of_map hflits (fun g => ?_)
  split
  · exact ⟨_, rfl⟩
  · exact ⟨g.losses, rfl⟩

theorem Mesh.sameButLosses_foldl {α : Type} {g : Mesh → α → Mesh} (hg : ∀ (m : Mesh) (a : α), m.SameButLosses (g m a)) (l : List α) (m : Mesh) :
    m.SameButLosses (l.foldl g m) := by
  induction l generalizing m with
  | nil => exact .refl m
  | cons a l ih => exact (hg m a).trans (ih _)

/-! ## A flit that strides (R60, R61) -/

/-- A flit as it stands after a stride that was decided for the flit f, which has its id. -/
def strode (f g : MeshFlit) (cycle : Nat) (q : Site) (pl : Place) : MeshFlit :=
  { g with cls := f.cls, dst := f.dst, rly := f.rly, at_ := q, place := pl, phase := nextPhase f, moved := some cycle }

section
variable {s : State} {c d : Nat} {f : MeshFlit}

theorem strideFlit_moves {q : Site} {pl : Place} (h : (strideOf s (s.mesh c) f d f.at_).1.getLast? = some (q, pl)) :
    ∃ t, (s.mesh c).SameButLosses t ∧ strideFlit s c f d = s.modMesh c (fun _ => t.move f.id (fun g => strode f g s.cycle q pl)) := by
  unfold strideFlit
  simp only [h]
  refine ⟨_, ?_, rfl⟩
  have hgrants := Mesh.sameButLosses_foldl (fun t p => t.grant_sameButLosses s (portKey p d) (claimsAt s (s.mesh c) d p) f)
  split
  · split
    · exact Mesh.SameButLosses.trans (hgrants _ _) (Mesh.lose_sameButLosses _ _ _ _ _)
    · exact hgrants _ _
  · exact hgrants _ _

theorem strideFlit_stays (h : (strideOf s (s.mesh c) f d f.at_).1 = []) : strideFlit s c f d = s := by
  simp [strideFlit, h]

/-- A stride changes nothing but the mesh. -/
theorem strideFlit_frame (s : State) (c : Nat) (f : MeshFlit) (d : Nat) :
    strideFlit s c f d = { s with meshes := (strideFlit s c f d).meshes } := by
  cases h : (strideOf s (s.mesh c) f d f.at_).1.getLast? with
  | none => rw [strideFlit_stays (List.getLast?_eq_none_iff.1 h)]
  | some e =>
    obtain ⟨t, -, ht⟩ := strideFlit_moves (q := e.1) (pl := e.2) h
    rw [ht]; rfl

theorem strideFlit_flit {q : Site} {pl : Place} (h : (strideOf s (s.mesh c) f d f.at_).1.getLast? = some (q, pl)) {g : MeshFlit}
    (hg : findFlit s c f.id = some g) : ∃ ls, findFlit (strideFlit s c f d) c f.id = some { strode f g s.cycle q pl with losses := ls } := by
  obtain ⟨t, ht, heq⟩ := strideFlit_moves h
  obtain ⟨ls, hls⟩ := ht f.id g hg
  refine ⟨ls, ?_⟩
  rw [heq, findFlit_eq, State.mesh_modMesh, Mesh.flit?_move (g := fun g => strode f g s.cycle q pl) hls (fun _ => rfl)]
  rfl

/-- Does a flit stand in a cluster with this payload and mark? -/
def Bears (s : State) (c id : Nat) (psn : Bool) (data : List Byte) : Prop := ∃ g, findFlit s c id = some g ∧ g.psn = psn ∧ g.data = data

theorem strideFlit_bears {psn : Bool} {data : List Byte} (h : Bears s c f.id psn data) : Bears (strideFlit s c f d) c f.id psn data := by
  cases hr : (strideOf s (s.mesh c) f d f.at_).1.getLast? with
  | none => rwa [strideFlit_stays (List.getLast?_eq_none_iff.1 hr)]
  | some e =>
    obtain ⟨g, hg, hpsn, hdata⟩ := h
    obtain ⟨ls, hls⟩ := strideFlit_flit (q := e.1) (pl := e.2) hr hg
    exact ⟨_, hls, hpsn, hdata⟩

theorem passLocal_bears {psn : Bool} {data : List Byte} (h : Bears s c f.id psn data) : Bears (passLocal s c f) c f.id psn data := by
  obtain ⟨g, hg, hpsn, hdata⟩ := h
  unfold passLocal
  dsimp only
  split
  · exact ⟨_, (congrArg (Mesh.flit? · f.id) (State.mesh_modMesh ..)).trans (Mesh.flit?_move hg (fun _ => rfl)), hpsn, hdata⟩
  · exact ⟨g, hg, hpsn, hdata⟩

theorem passLocal_strokes : (passLocal s c f).strokes = s.strokes := by
  unfold passLocal; dsimp only; split <;> rfl

end

/-- What a flit that a router's checks let through does next: a stride by the port that it wants, or it passes into the ejection queue
of its own site. -/
def goesOn (s : State) (c : Nat) (f : MeshFlit) : State := match wants f with
  | some d => strideFlit s c f d
  | none => passLocal s c f

theorem goesOn_bears {s : State} {c : Nat} {f : MeshFlit} {psn : Bool} {data : List Byte} (h : Bears s c f.id psn data) :
    Bears (goesOn s c f) c f.id psn data := by
  unfold goesOn
  split
  · exact strideFlit_bears h
  · exact passLocal_bears h

theorem goesOn_strokes (s : State) (c : Nat) (f : MeshFlit) : (goesOn s c f).strokes = s.strokes := by
  unfold goesOn
  split
  · rw [strideFlit_frame]
  · exact passLocal_strokes

/-- A flit as it leaves a relay slot: for its final site, as class CTRL. -/
def relayed (f : MeshFlit) : MeshFlit := { f with cls := 3, dst := f.fin, rly := false, phase := 0 }

theorem legOf_relay {f : MeshFlit} (h : f.place = .relay) : legOf f = relayed f := if_pos h

section
variable {s : State} {c id : Nat} {f : MeshFlit} (hf : findFlit s c id = some f)
include hf

/-- STRIDE of a flit on its way: the checks, then what it does next if they let it through. -/
theorem exec_stride (hr : f.place ≠ .relay) (he : f.place ≠ .eject) (chk : FlitCheck) : exec (.stride c id chk) s =
    .next (if (checked s c f chk).2 then goesOn (checked s c f chk).1 c f else (checked s c f chk).1) := by
  cases hp : f.place
  case relay => exact absurd hp hr
  case eject => exact absurd hp he
  all_goals
    simp only [exec, execStride, hf, hp]
    rcases checked s c f chk with ⟨t, _ | _⟩
    · rfl
    · simp only [goesOn]; cases wants f <;> rfl

theorem exec_stride_clean (hr : f.place ≠ .relay) (he : f.place ≠ .eject) {d : Nat} (hd : wants f = some d) :
    exec (.stride c id .clean) s = .next (strideFlit s c f d) := by
  simp [exec_stride hf hr he, checked, goesOn, hd]

theorem exec_relayLeg_clean (hr : f.place = .relay) {d : Nat} (hd : wants (relayed f) = some d) :
    exec (.relayLeg c id .clean) s = .next (strideFlit s c (relayed f) d) := by
  simp only [exec, execRelayLeg, hf, if_pos hr, checked, legOf_relay hr, hd]

theorem exec_stride_eject (he : f.place = .eject) (chk : FlitCheck) : exec (.stride c id chk) s = .next (acceptFlit s c f) := by
  simp [exec, execStride, hf, he]

end

/-- A flit whose payload a router finds wrong is marked, and keeps its bytes. -/
theorem checked_badPayload_bears {s : State} {c : Nat} {f : MeshFlit} (hf : findFlit s c f.id = some f) :
    Bears (checked s c f .badPayload).1 c f.id true f.data :=
  ⟨_, (congrArg (Mesh.flit? · f.id) (State.mesh_modMesh s c (·.modFlit f.id (fun g => { g with psn := true })))).trans
    (Mesh.flit?_modFlit hf (fun _ => rfl)), rfl, rfl⟩

theorem checked_badHeader_drops (s : State) (c : Nat) (f : MeshFlit) : findFlit (checked s c f .badHeader).1 c f.id = none :=
  (congrArg (Mesh.flit? · f.id) (State.mesh_modMesh s c (·.drop f.id))).trans (Mesh.flit?_drop _ _)

/-! ## Payloads that land (R65, R66) -/

theorem rekeyLine_modPart (s : State) (k : Nat) (g : Partition → Partition) (l : Loc) : rekeyLine (s.modPart k g) l = (rekeyLine s l).modPart k g := by
  have hkey : keyFits (s.modPart k g) l.line l.key = keyFits s l.line l.key := rfl
  unfold rekeyLine
  rw [hkey]; split <;> rfl

theorem writeLine_modPart (s : State) (k : Nat) (g : Partition → Partition) (l : Loc) (bs : List Byte) :
    writeLine (s.modPart k g) l bs = (writeLine s l bs).modPart k g := by
  unfold writeLine
  cases l.home
  case g => simp only [rekeyLine_modPart]; rfl
  all_goals rfl

/-- A write of bytes and a change of a partition do not meet. -/
theorem writeBytes_modPart (s : State) (k : Nat) (g : Partition → Partition) (l : Loc) (bs : List Byte) :
    writeBytes (s.modPart k g) l bs = (writeBytes s l bs).modPart k g := by
  unfold writeBytes
  generalize bs.length / 128 + 2 = n
  induction n generalizing s l bs with
  | zero => rfl
  | succ n ih =>
    simp only [writeLines]
    split
    · rfl
    · rw [writeLine_modPart, ih]

/-- The bytes of a payload written at a line: a copy beat as a copy writes, any other as a store. -/
def payloadWritten (s : State) (f : MeshFlit) (q : Home × Nat) : State :=
  (if f.packet.msg = .copyBeat then writeCopy else writeBytes) s { home := q.1, addr := 128 * q.2, key := f.packet.key } f.data

theorem payloadWritten_strokes (s : State) (f : MeshFlit) (q : Home × Nat) : (payloadWritten s f q).strokes = s.strokes := by
  unfold payloadWritten writeCopy
  split
  · dsimp only; split <;> rw [writeBytes_frame]
  · rw [writeBytes_frame]

theorem handOver_cases (s : State) (f : MeshFlit) : handOver s f = s ∨ ∃ g, handOver s f = s.modPart f.vn g := by
  unfold handOver
  split
  · exact .inr ⟨_, rfl⟩
  · exact .inl rfl

theorem payloadWritten_handOver (s : State) (f : MeshFlit) (q : Home × Nat) :
    (payloadWritten (handOver s f) f q).mem = (payloadWritten s f q).mem ∧ (handOver s f).strokes = s.strokes := by
  rcases handOver_cases s f with h | ⟨g, h⟩ <;> rw [h]
  · exact ⟨rfl, rfl⟩
  · refine ⟨?_, rfl⟩
    unfold payloadWritten writeCopy
    split
    · simp only [writeBytes_modPart]; split <;> rfl
    · rw [writeBytes_modPart]; rfl

theorem landLine_place {f : MeshFlit} {l : LineId} {q : Home × Nat} (hq : linePlace l = some q) (s : State) : landLine s f l =
    if f.psn || lcrcFails f then setMark (payloadWritten (handOver s f) f q) l true else payloadWritten (handOver s f) f q := by
  cases l <;> cases hq <;> rfl

theorem spoiled_iff {f : MeshFlit} : (f.psn || lcrcFails f) = true ↔
    f.psn = true ∨ f.lcrc ≠ crc32c (f.data ++ List.replicate (128 - f.data.length) 0) := by
  rw [Bool.or_eq_true]; exact or_congr_right bne_iff_ne

/-- A payload lands as its bytes written, with poison if it is marked or its LCRC fails. -/
theorem landLine_lands {f : MeshFlit} {l : LineId} {q : Home × Nat} (hq : linePlace l = some q) (s : State) :
    (landLine s f l).strokes = s.strokes ∧ (∀ k, (landLine s f l).mem.home k = (payloadWritten s f q).mem.home k) ∧
    ((f.psn || lcrcFails f) = true → (landLine s f l).mem.poisoned q.1 q.2 = true) ∧
    (¬ (f.psn || lcrcFails f) = true → (landLine s f l).mem = (payloadWritten s f q).mem) := by
  obtain ⟨hmem, hstrokes⟩ := payloadWritten_handOver s f q
  have hsame : (payloadWritten (handOver s f) f q).strokes = s.strokes := (payloadWritten_strokes ..).trans hstrokes
  rw [landLine_place hq]
  split
  next hbad => exact ⟨by rw [setMark_line hq]; exact hsame, fun k => by rw [setMark_home, hmem], fun _ => (setMark_poisoned hq _ _).1,
    fun hgood => absurd hbad hgood⟩
  next hgood => exact ⟨hsame, fun k => by rw [hmem], fun hbad => absurd hbad hgood, fun _ => hmem⟩

theorem landFlit_payload {f : MeshFlit} {l : LineId} (hl : f.packet.line = some l) (hc : classOf f.packet.msg = 2)
    (hh : holdsLine f.packet.dst l = true) (s : State) : landFlit s f = landLine s f l := by
  simp [landFlit, hl, hc, hh]

/-- An agent that takes a flit: it lands, and is gone from the mesh. -/
theorem acceptFlit_taken {s : State} {c : Nat} {f : MeshFlit} (hh : headOf c (s.mesh c) f = true) (ha : atHome c f = true)
    (ht : takes (s.mesh c) (agentHere c f) f = true) :
    ∃ g : Mesh → Mesh, acceptFlit s c f = (landFlit s f).modMesh c g ∧ ∀ m, (g m).flit? f.id = none := by
  unfold acceptFlit
  refine ⟨_, if_pos (by simp [hh, ha, ht]), fun m => ?_⟩
  dsimp only
  split
  · split <;> exact Mesh.flit?_drop m f.id
  · exact Mesh.flit?_drop m f.id

/-! ## Flits offered (R50, R53 to R55) -/

/-- The flit as which an agent of a cluster offers a packet's payload. -/
def offered (id cluster : Nat) (a : MeshAgent) (vn cls origin : Nat) (p : Packet) (data : List Byte) (psn : Bool) (lcrc : Word) : MeshFlit :=
  let dest := agentFor cluster p.dst
  let bounce := (routeRuns (siteOf a) (siteOf dest)).2
  { id := id, vn := vn, cls := cls, ocls := cls, src := siteOf a
    dst := if bounce then (besideCol (siteOf a).1 (siteOf dest).1, (siteOf dest).2) else siteOf dest
    fin := if bounce then siteOf dest else (0, 0), rly := bounce, phase := 0, ltgt := ltgtOf dest, psn := psn, lcrc := lcrc, data := data
    packet := p, origin := origin, at_ := siteOf a, place := .inject }

section
variable {id cluster vn cls origin : Nat} {a : MeshAgent} {p : Packet} {data : List Byte} {psn : Bool} {lcrc : Word}

theorem offered_straight (h : (routeRuns (siteOf a) (siteOf (agentFor cluster p.dst))).2 = false) :
    (offered id cluster a vn cls origin p data psn lcrc).dst = siteOf (agentFor cluster p.dst) := by
  simp [offered, h]

theorem offered_bounced (h : (routeRuns (siteOf a) (siteOf (agentFor cluster p.dst))).2 = true) :
    (offered id cluster a vn cls origin p data psn lcrc).fin = siteOf (agentFor cluster p.dst) ∧
    (offered id cluster a vn cls origin p data psn lcrc).dst =
      (besideCol (siteOf a).1 (siteOf (agentFor cluster p.dst)).1, (siteOf (agentFor cluster p.dst)).2) := by
  simp [offered, h]

end

theorem offer_flits (s : State) (cluster : Nat) (a : MeshAgent) (vn cls origin : Nat) (p : Packet) (data : List Byte) (psn : Bool) (lcrc : Word) :
    ((offer s cluster a vn cls origin p data psn lcrc).mesh cluster).flits =
      (s.mesh cluster).flits ++ [offered s.nextId cluster a vn cls origin p data psn lcrc] := by
  unfold offer
  rw [State.mesh_modMesh]
  rfl

/-- The flit of the n-th packet of a transfer. -/
def transferFlit (id cluster vn : Nat) (p : Packet) (psn : Bool) (b : List Byte × Nat) : MeshFlit :=
  offered id cluster p.src vn (classOf p.msg) cluster { p with data := [], line := p.line.map (lineOn b.2) } b.1 psn (crc32c (payloadOf b.1))

theorem offerAll_offers (s : State) (c vn : Nat) (p : Packet) (psn : Bool) (ps : List (List Byte × Nat)) :
    (offerAll s c vn p psn ps).mem = s.mem ∧ (offerAll s c vn p psn ps).strokes = s.strokes ∧
    ((offerAll s c vn p psn ps).mesh c).flits = (s.mesh c).flits ++ ps.mapIdx (fun i b => transferFlit (s.nextId + i) c vn p psn b) := by
  induction ps generalizing s with
  | nil => simp [offerAll]
  | cons b ps ih =>
    obtain ⟨hmem, hstrokes, hflits⟩ := ih (offer s c p.src vn (classOf p.msg) c { p with data := [], line := p.line.map (lineOn b.2) } b.1 psn
      (crc32c (payloadOf b.1)))
    refine ⟨hmem, hstrokes, hflits.trans ?_⟩
    have hnext (i : Nat) : s.nextId + 1 + i = s.nextId + (i + 1) := by omega
    rw [offer_flits, List.append_assoc, List.mapIdx_cons, offer]
    simp only [State.modMesh_nextId, hnext]
    rfl

theorem length_pieces {n : Nat} {bs : List Byte} (h : bs.length ≤ 128 * n) : (pieces n bs).length = (bs.length + 127) / 128 := by
  induction n generalizing bs with
  | zero => simp [pieces]; omega
  | succ n ih =>
    unfold pieces
    split
    next he => simp [List.isEmpty_iff.1 he]
    next he =>
      have hpos : 0 < bs.length := List.length_pos_iff.2 (by simpa using he)
      rw [List.length_cons, ih (by simp; omega), List.length_drop]
      omega

theorem pieces_piece {n i : Nat} {bs b : List Byte} (h : (pieces n bs)[i]? = some b) : b = (bs.drop (128 * i)).take 128 := by
  induction n generalizing bs i with
  | zero => simp [pieces] at h
  | succ n ih =>
    unfold pieces at h
    split at h
    next => simp at h
    next =>
      cases i with
      | zero => simpa using h.symm
      | succ i => rw [ih (by simpa using h), List.drop_drop]; congr 2; omega

/-- The bytes that a transfer brings: a completion or an acknowledgement has none. -/
def bytesSent (p : Packet) (bs : List Byte) : List Byte := if classOf p.msg = 1 then [] else bs

theorem payloads_eq (p : Packet) (bs : List Byte) : payloads p bs =
    if bytesSent p bs = [] then [[]] else pieces ((bytesSent p bs).length / 128 + 1) (bytesSent p bs) := by
  unfold payloads bytesSent
  by_cases hc : classOf p.msg = 1 <;> simp [hc]

theorem length_payloads (p : Packet) (bs : List Byte) :
    (payloads p bs).length = if bytesSent p bs = [] then 1 else ((bytesSent p bs).length + 127) / 128 := by
  rw [payloads_eq]
  split
  · rfl
  · exact length_pieces (by omega)

theorem payloads_payload {p : Packet} {bs b : List Byte} {i : Nat} (h : (payloads p bs)[i]? = some b) :
    b = ((bytesSent p bs).drop (128 * i)).take 128 := by
  rw [payloads_eq] at h
  split at h
  next hnil =>
    have hb : b = [] := by simpa using List.mem_of_getElem? h
    simp [hb, hnil]
  next => exact pieces_piece h

/-- What PACKET_INJECTION makes where the agent may send. -/
theorem packetInjection_offers {s : State} {c vn : Nat} {p : Packet} (hc : c < 8) (ha : agentOk p.src = true) (hp : placeOk p.dst = true)
    (hself : p.dst ≠ .agent c p.src) (hvn : networkOf s c p.src p.serves = some vn) (hmay : maySend (s.mesh c) vn p = true) :
    ∃ t n, exec (.packetInjection c p) s = .next t ∧ t.mem = s.mem ∧ t.strokes = s.strokes ∧ (t.mesh c).flits = (s.mesh c).flits ++
      ((payloads p (sourceOf s p).1).zip (List.range (payloads p (sourceOf s p).1).length)).mapIdx (fun i b =>
        transferFlit (n + i) c vn p (sourceOf s p).2 b) := by
  have hgo : (decide (c < Config.clusters) && agentOk p.src && placeOk p.dst && p.dst != .agent c p.src) = true := by
    simp [Config.clusters, hc, ha, hp, hself]
  simp only [exec, execPacketInjection, hgo, if_true, hvn, hmay]
  generalize hu : (if p.spoiled then countUp s vn 3 1 else s) = u
  have hsame : u.mem = s.mem ∧ u.strokes = s.strokes ∧ u.mesh c = s.mesh c := by subst hu; split <;> exact ⟨rfl, rfl, rfl⟩
  obtain ⟨hmem, hstrokes, hmesh⟩ := hsame
  obtain ⟨hm, hst, hfl⟩ := offerAll_offers u c vn p (sourceOf s p).2 ((payloads p (sourceOf s p).1).zip
    (List.range (payloads p (sourceOf s p).1).length))
  refine ⟨_, u.nextId, rfl, hm.trans hmem, hst.trans hstrokes, ?_⟩
  have hsent (m : Mesh) : (m.sent vn p).flits = m.flits := by unfold Mesh.sent; split <;> [rfl; split <;> rfl]
  rw [State.mesh_modMesh, hsent, hfl, hmesh]

/-- A gateway to another cluster offers there what it was given. -/
theorem passFar_agent {s : State} {c k : Nat} {f : MeshFlit} {a : MeshAgent} (h : f.packet.dst = .agent k a) :
    passFar s c f = offer s k (agentHere c f) f.vn f.ocls f.origin f.packet f.data f.psn f.lcrc := by simp [passFar, h]

end Sys2Proof.Machine
end

section
/-!
PROOFS. The statement on the packets of a cluster's mesh (O53).
-/
open Sys2Proof Sys2Proof.Machine

/-- Settles O53: a route has one of four shapes (routeRuns_route), an injection offers one flit for each piece of its bytes (packetInjection_offers),
a stride leaves of a flit all but its place and its losses (strideFlit_flit), and a port grants a starved or a nearest claim (grantAt_cases). -/
theorem packetsFollowTheirRoutes : Obligations.PacketsFollowTheirRoutes := by
  unfold Obligations.PacketsFollowTheirRoutes
  refine ⟨?routes, fun p hp => siteOf_tile hp, fun c b ch h => agentFor_base ch h, fun s c p => ⟨?sent, ?unserved⟩, ?flits, ?gateway,
    fun s m key cs c => grantAt_spec, ?strides⟩
  case routes =>
    intro a d _ _ _ r
    have hroute : Route a d r := routeRuns_route a d
    exact ⟨hroute.getLast?, hroute.length_le, hroute.bounces_iff, fun w hw => .inr (hroute.turns_full w hw),
      fun l m p q h => List.isChain_iff_forall_rel_of_append_cons_cons.1 hroute.runs_straight h⟩
  case sent =>
    intro vn hc ha hp hself hvn hmay from_ to_ bounce bs
    obtain ⟨t, n, ht, hmem, hstrokes, hflits⟩ := packetInjection_offers hc ha hp hself hvn hmay
    refine ⟨t, _, ht, hmem, hstrokes, hflits, ?length, fun i f hf => ?_⟩
    case length => rw [List.length_mapIdx, List.length_zip, List.length_range, Nat.min_self, length_payloads]; rfl
    rw [List.getElem?_mapIdx, Option.map_eq_some_iff] at hf
    obtain ⟨b, hb, rfl⟩ := hf
    obtain ⟨hpayload, -⟩ := List.getElem?_zip_eq_some.1 hb
    exact ⟨rfl, rfl, rfl, payloads_payload hpayload, rfl, rfl, rfl, rfl, rfl, rfl, fun h => offered_straight h, fun h => offered_bounced h⟩
  case unserved =>
    intro h
    simp [exec, execPacketInjection, h]
  case flits =>
    intro s c id f hf m goes onTheWay
    obtain rfl : f.id = id := Mesh.id_of_flit? hf
    refine ⟨?stride, ?stuck, ?badPayload, ?badHeader, ?relay, ?lands, ?forward⟩
    case stride =>
      rintro d q pl ⟨hr, he⟩ hd hlast
      obtain ⟨ls, hls⟩ := strideFlit_flit hlast hf
      exact ⟨_, exec_stride_clean hf hr he hd, by rw [strideFlit_frame], by rw [strideFlit_frame], ls, hls⟩
    case stuck =>
      rintro d ⟨hr, he⟩ hd hnone
      rw [exec_stride_clean hf hr he hd, strideFlit_stays hnone]
    case badPayload =>
      rintro ⟨hr, he⟩
      exact ⟨_, exec_stride hf hr he _, goesOn_strokes .., goesOn_bears (checked_badPayload_bears hf)⟩
    case badHeader =>
      rintro ⟨hr, he⟩
      exact ⟨_, exec_stride hf hr he _, rfl, checked_badHeader_drops s c f, rfl⟩
    case relay =>
      intro d q pl hr hd hlast
      rw [legOf_relay hr] at hd hlast
      obtain ⟨ls, hls⟩ := strideFlit_flit (f := relayed f) hlast hf
      exact ⟨_, exec_relayLeg_clean hf hr hd, by rw [strideFlit_frame], by rw [strideFlit_frame], _, hls, rfl, rfl, rfl, rfl, rfl, rfl, rfl, rfl⟩
    case lands =>
      intro l q chk he hh ha ht hl hc hholds hq bad v
      obtain ⟨g, heq, hgone⟩ := acceptFlit_taken hh ha ht
      obtain ⟨hstrokes, hhome, hpoison, hclean⟩ := landLine_lands (f := f) hq s
      rw [← landFlit_payload hl hc hholds] at hstrokes hhome hpoison hclean
      exact ⟨_, (exec_stride_eject hf he chk).trans (congrArg _ heq), hstrokes, by rw [findFlit_eq, State.mesh_modMesh, hgone], hhome,
        fun hb => hpoison (spoiled_iff.2 hb), fun hb => hclean (mt spoiled_iff.1 hb)⟩
    case forward =>
      intro he ha k key cs hk hid
      simp [exec, execGatewayForward, hf, he, ha, key, cs, m, hk, hid]
  case gateway =>
    intro s c k f a h
    exact ⟨_, (congrArg (fun t => (State.mesh t k).flits) (passFar_agent h)).trans (offer_flits ..), rfl, rfl, rfl, rfl, rfl, rfl⟩
  case strides =>
    intro s m f d p
    refine ⟨length_strideOf_le .., fun h => strideOf_of_not_wins ?_, fun q hq c hc hfc => ?_⟩
    · simp [wins, h]
    · exact absurd (wins_eq_true.2 ⟨c, hc, hfc⟩) (by simp [not_wins_of_strideOf hq])
end

section
/-!
SUPPORT. Encoding and decoding (R71 to R76, R86, R87): what the decoder reads back from the words of the encoder, and that the opcode tables of the
two agree.
-/
namespace Sys2Proof.Machine

/-! ## Bytes of a word (R3, R72) -/

theorem bytesNat_natBytes (n x : Nat) : bytesNat (natBytes n x) = x % 256 ^ n := by
  induction n generalizing x with
  | zero => simp [natBytes, bytesNat, Nat.mod_one]
  | succ n ih => rw [natBytes, bytesNat, ih, Nat.pow_succ', Nat.mod_mul, BitVec.toNat_ofNat]

/-- A word is its bytes. -/
theorem ofNat_bytesNat_natBytes {w n : Nat} (hw : 2 ^ w = 256 ^ n) (x : BitVec w) : BitVec.ofNat w (bytesNat (natBytes n x.toNat)) = x := by
  rw [bytesNat_natBytes, ← hw, Nat.mod_eq_of_lt x.isLt, BitVec.ofNat_toNat, BitVec.setWidth_eq]

theorem headD_natBytes (n x : Nat) (bs : List Byte) : ((natBytes (n + 1) x ++ bs).headD 0).toNat % 4 = x % 4 := by
  simp only [natBytes, List.cons_append, List.headD_cons, BitVec.toNat_ofNat]
  omega

/-- The length that the first byte of a word gives. -/
theorem lengthOf_head {n x : Nat} {b : Byte} {bs tail : List Byte} (h : natBytes (n + 1) x ++ bs = b :: tail) : lengthOf b = 4 * (x % 4 + 1) := by
  rw [lengthOf, ← headD_natBytes n x bs, h, List.headD_cons]

/-! ## Fields of a word (R73, R74) -/

theorem fieldWord_low (opc : BitVec 8) (f : Fields) : (fieldWord opc f).toNat % 4 = (encodeExt f.ext).1.toNat := by
  have h : (fieldWord opc f).extractLsb' 0 2 = (encodeExt f.ext).1 := BitVec.extractLsb'_append_eq_right
  rw [← h, BitVec.extractLsb'_toNat, Nat.shiftRight_zero]

theorem fieldWord_opcode (opc : BitVec 8) (f : Fields) : (fieldWord opc f).extractLsb' 2 8 = opc := by
  rw [fieldWord, BitVec.extractLsb'_append_eq_of_le (by decide)]
  exact BitVec.extractLsb'_append_eq_right

/-- Below each field stand the fields that were appended after it. -/
theorem fieldsOf_fieldWord (opc : BitVec 8) (f : Fields) : fieldsOf (fieldWord opc f) f.ext = f := by
  rw [fieldsOf, fieldWord, Fields.mk.injEq]
  refine ⟨?guard, ?negated, ?_, ?_, ?_, ?_, ?_, ?_, ?_, ?modifier, rfl⟩
  case modifier =>
    repeat rw [BitVec.extractLsb'_append_eq_of_le (by decide)]
    exact BitVec.extractLsb'_eq_self
  case guard | negated =>
    repeat rw [BitVec.getLsbD_append, if_neg (by decide)]
    rw [BitVec.getLsbD_append, if_pos (by decide)]
    simp
  all_goals
    repeat rw [BitVec.extractLsb'_append_eq_of_le (by decide)]
    exact BitVec.extractLsb'_append_eq_right

theorem branchWord_low (opc : BitVec 8) (f : BranchFields) : (branchWord opc f).toNat % 4 = 1 := by
  have h : (branchWord opc f).extractLsb' 0 2 = 1 := BitVec.extractLsb'_append_eq_right
  simpa using congrArg BitVec.toNat h

theorem branchWord_opcode (opc : BitVec 8) (f : BranchFields) : (branchWord opc f).extractLsb' 2 8 = opc := by
  rw [branchWord, BitVec.extractLsb'_append_eq_of_le (by decide)]
  exact BitVec.extractLsb'_append_eq_right

theorem branchFieldsOf_branchWord (opc : BitVec 8) (f : BranchFields) : branchFieldsOf (branchWord opc f) = f := by
  rw [branchFieldsOf, branchWord, BranchFields.mk.injEq]
  refine ⟨?guard, ?negated, ?_, ?_, ?_, ?offset⟩
  case offset =>
    repeat rw [BitVec.extractLsb'_append_eq_of_le (by decide)]
    exact BitVec.extractLsb'_eq_self
  case guard | negated =>
    repeat rw [BitVec.getLsbD_append, if_neg (by decide)]
    rw [BitVec.getLsbD_append, if_pos (by decide)]
    simp
  all_goals
    repeat rw [BitVec.extractLsb'_append_eq_of_le (by decide)]
    exact BitVec.extractLsb'_append_eq_right

theorem compactWord_low (o : BitVec 6) (f : CompactFields) : (compactWord o f).toNat % 4 = 0 := by
  have h : (compactWord o f).extractLsb' 0 2 = 0 := BitVec.extractLsb'_append_eq_right
  simpa using congrArg BitVec.toNat h

theorem compactWord_opcode (o : BitVec 6) (f : CompactFields) : (compactWord o f).extractLsb' 2 6 = o := by
  rw [compactWord, BitVec.extractLsb'_append_eq_of_le (by decide)]
  exact BitVec.extractLsb'_append_eq_right

theorem compactWord_fields (o : BitVec 6) (f : CompactFields) : CompactFields.mk ((compactWord o f).extractLsb' 8 8)
    ((compactWord o f).extractLsb' 16 8) ((compactWord o f).extractLsb' 24 8) = f := by
  rw [compactWord, CompactFields.mk.injEq]
  refine ⟨?_, ?_, ?high⟩
  case high =>
    repeat rw [BitVec.extractLsb'_append_eq_of_le (by decide)]
    exact BitVec.extractLsb'_eq_self
  all_goals
    repeat rw [BitVec.extractLsb'_append_eq_of_le (by decide)]
    exact BitVec.extractLsb'_append_eq_right

/-- The three bytes of a compact branch are its offset. -/
theorem append_bytes (off : BitVec 24) : off.extractLsb' 16 8 ++ off.extractLsb' 8 8 ++ off.extractLsb' 0 8 = off := by
  have hhigh : off.extractLsb' 16 8 ++ off.extractLsb' 8 8 = off.extractLsb' 8 16 := BitVec.extractLsb'_append_extractLsb'_eq_extractLsb' rfl
  have hall : off.extractLsb' 8 16 ++ off.extractLsb' 0 8 = off.extractLsb' 0 24 := BitVec.extractLsb'_append_extractLsb'_eq_extractLsb' rfl
  rw [hhigh, hall, BitVec.extractLsb'_eq_self]

/-! ## The opcode tables (R86, R87) -/

theorem compactOf_compactCode {i : Instr} {o : BitVec 6} {f : CompactFields} (h : compactCode i = some (o, f)) : compactOf o.toNat f = some i := by
  cases i <;> cases h
  case braC32 off => exact congrArg (some ∘ Instr.braC32) (append_bytes off)
  all_goals rfl

theorem instrOf_codeOf {i : Instr} {opc len : Nat} {f : Fields} (h : codeOf i = some (opc, f, len)) (hc : compactCode i = none) :
    instrOf opc f = some i ∧ opc < 256 ∧ opc ≠ 0x50 ∧ opc ≠ 0x53 := by
  cases i <;> cases hc <;> cases h <;> exact ⟨rfl, by decide⟩

/-- What is no event is a compact form, a BRA or a CALL, or has an opcode with the fields of R73. -/
theorem format_cases {i : Instr} (h : isEvent i = false) : (∃ o f, compactCode i = some (o, f)) ∨ (∃ f, i = .bra f) ∨ (∃ f, i = .call f) ∨
    compactCode i = none ∧ ∃ opc f len, codeOf i = some (opc, f, len) := by
  unfold isEvent at h
  split at h
  next f => exact .inr (.inl ⟨f, rfl⟩)
  next f => exact .inr (.inr (.inl ⟨f, rfl⟩))
  next => exact .inl ⟨_, _, rfl⟩
  next =>
    obtain ⟨⟨opc, f, len⟩, hcode⟩ := Option.ne_none_iff_exists'.1 (Option.isNone_eq_false_iff.1 h |> Option.isSome_iff_ne_none.1)
    cases hc : compactCode i with
    | some c => exact .inl ⟨c.1, c.2, rfl⟩
    | none => exact .inr (.inr (.inr ⟨rfl, opc, f, len, hcode⟩))

/-! ## Decoding an encoding (R71, R72) -/

theorem decode_compactWord (x : Ctx) (o : BitVec 6) (f : CompactFields) (rest : List Byte) :
    decode x (natBytes 4 (compactWord o f).toNat ++ rest) = accept x 4 (compactOf o.toNat f) := by
  unfold decode
  split
  next h => cases h
  next b tail hb =>
    have hlen : lengthOf b = 4 := by rw [lengthOf_head hb, compactWord_low]
    simp [hlen, ofNat_bytesNat_natBytes, compactWord_opcode, compactWord_fields]

theorem decode_branchWord (x : Ctx) {opc : BitVec 8} (f : BranchFields) (rest : List Byte) (h : opc = 0x50 ∨ opc = 0x53) :
    decode x (natBytes 8 (branchWord opc f).toNat ++ rest) = accept x 8 (some (if opc.toNat = 0x50 then .bra f else .call f)) := by
  unfold decode
  split
  next h => cases h
  next b tail hb =>
    have hlen : lengthOf b = 8 := by rw [lengthOf_head hb, branchWord_low]
    have hopc : opc.toNat = 0x50 ∨ opc.toNat = 0x53 := by obtain rfl | rfl := h <;> decide
    simp [hlen, ofNat_bytesNat_natBytes, branchWord_opcode, branchFieldsOf_branchWord, hopc]

/-- The LEN code and the extension of an encoding are those of its length. -/
theorem encodeExt_fieldsLen (f : Fields) : 4 * ((encodeExt f.ext).1.toNat + 1) = fieldsLen f ∧ 8 + (encodeExt f.ext).2.length = fieldsLen f := by
  cases hext : f.ext <;> simp [hext, fieldsLen, encodeExt]

theorem decode_fieldWord (x : Ctx) {opc : Nat} (f : Fields) (rest : List Byte) (hopc : opc < 256) (hbra : opc ≠ 0x50) (hcall : opc ≠ 0x53) :
    decode x (natBytes 8 (fieldWord (BitVec.ofNat 8 opc) f).toNat ++ (encodeExt f.ext).2 ++ rest) = accept x (fieldsLen f) (instrOf opc f) := by
  have hto : (BitVec.ofNat 8 opc).toNat = opc := Nat.mod_eq_of_lt hopc
  have hread := fieldsOf_fieldWord (BitVec.ofNat 8 opc) f
  have hdrop (w : Nat) (bs : List Byte) : (natBytes 8 w ++ bs).drop 8 = bs := List.drop_left' (length_natBytes ..)
  rw [List.append_assoc]
  unfold decode
  split
  next h => cases h
  next b tail hb =>
    have hlen : lengthOf b = fieldsLen f := by rw [lengthOf_head hb, fieldWord_low, (encodeExt_fieldsLen f).1]
    have hlong : ¬ (natBytes 8 (fieldWord (BitVec.ofNat 8 opc) f).toNat ++ ((encodeExt f.ext).2 ++ rest)).length < lengthOf b := by
      simp only [List.length_append, length_natBytes, hlen, ← (encodeExt_fieldsLen f).2]
      omega
    simp only [if_neg hlong]
    cases hext : f.ext <;> rw [hext] at hread <;>
      simp [hlen, fieldsLen, hext, encodeExt, ofNat_bytesNat_natBytes, hdrop, fieldWord_opcode, hto, hbra, hcall, hread]

theorem accept_of_checked {x : Ctx} {i : Instr} (h : checkInstr x i = none) (n : Nat) : accept x n (some i) = .ok (i, n) := by
  simp [accept, h]

/-- The bytes given encode the instruction: the decoder reads them back, and they have the length that their first bits say. -/
def Encodes (x : Ctx) (i : Instr) (rest bs : List Byte) : Prop :=
  encode i = some bs ∧ decode x (bs ++ rest) = .ok (i, bs.length) ∧ (bs.length = 4 ∨ bs.length = 8 ∨ bs.length = 12 ∨ bs.length = 16) ∧
    bs.length = 4 * ((bs.headD 0).toNat % 4 + 1)

theorem encodes_compact {x : Ctx} {i : Instr} {o : BitVec 6} {f : CompactFields} (hc : compactCode i = some (o, f)) (hok : checkInstr x i = none)
    (rest : List Byte) : Encodes x i rest (natBytes 4 (compactWord o f).toNat) := by
  refine ⟨by simp [encode, hc], ?_, .inl (length_natBytes ..), ?_⟩
  · rw [decode_compactWord, compactOf_compactCode hc, accept_of_checked hok, length_natBytes]
  · rw [length_natBytes, ← List.append_nil (natBytes 4 _), headD_natBytes, compactWord_low]

theorem encodes_branch {x : Ctx} {i : Instr} {opc : BitVec 8} {f : BranchFields} (h : opc = 0x50 ∧ i = .bra f ∨ opc = 0x53 ∧ i = .call f)
    (hok : checkInstr x i = none) (rest : List Byte) : Encodes x i rest (natBytes 8 (branchWord opc f).toNat) := by
  refine ⟨?_, ?_, .inr (.inl (length_natBytes ..)), ?_⟩
  · obtain ⟨rfl, rfl⟩ | ⟨rfl, rfl⟩ := h <;> rfl
  · have hinstr : (if opc.toNat = 0x50 then Instr.bra f else .call f) = i := by obtain ⟨rfl, rfl⟩ | ⟨rfl, rfl⟩ := h <;> rfl
    rw [decode_branchWord x f rest (h.imp (·.1) (·.1)), hinstr, accept_of_checked hok, length_natBytes]
  · rw [length_natBytes, ← List.append_nil (natBytes 8 _), headD_natBytes, branchWord_low]

theorem encodes_fields {x : Ctx} {i : Instr} {opc len : Nat} {f : Fields} (hc : compactCode i = none) (hcode : codeOf i = some (opc, f, len))
    (hok : checkInstr x i = none) (rest : List Byte) :
    Encodes x i rest (natBytes 8 (fieldWord (BitVec.ofNat 8 opc) f).toNat ++ (encodeExt f.ext).2) := by
  obtain ⟨hinstr, hopc, hbra, hcall⟩ := instrOf_codeOf hcode hc
  obtain ⟨hhead, hbytes⟩ := encodeExt_fieldsLen f
  rw [← length_natBytes 8 (fieldWord (BitVec.ofNat 8 opc) f).toNat, ← List.length_append] at hbytes
  refine ⟨?_, ?_, ?_, ?_⟩
  · cases i <;> cases hcode <;> cases hc <;> rfl
  · rw [decode_fieldWord x f rest hopc hbra hcall, hinstr, accept_of_checked hok, hbytes]
  · rw [hbytes, fieldsLen]
    cases f.ext <;> simp
  · rw [hbytes, ← hhead, headD_natBytes, fieldWord_low]

end Sys2Proof.Machine
end

section
/-!
PROOFS. The statement that decoding undoes encoding (O48).
-/
open Sys2Proof Sys2Proof.Machine

/-- Settles O48: by the format of the instruction, compact, branch, or with the fields of R73 (format_cases). -/
theorem decodingGivesBackWhatWasEncoded : Obligations.DecodingGivesBackWhatWasEncoded := by
  unfold Obligations.DecodingGivesBackWhatWasEncoded
  intro x i rest hevent hok
  obtain ⟨o, f, hc⟩ | ⟨f, rfl⟩ | ⟨f, rfl⟩ | ⟨hc, opc, f, len, hcode⟩ := format_cases hevent
  · exact ⟨_, encodes_compact hc hok rest⟩
  · exact ⟨_, encodes_branch (.inl ⟨rfl, rfl⟩) hok rest⟩
  · exact ⟨_, encodes_branch (.inr ⟨rfl, rfl⟩) hok rest⟩
  · exact ⟨_, encodes_fields hc hcode hok rest⟩
end

section
/-!
SUPPORT. The step (R68 to R72, R89): what the agent on turn fetches, and what a step does with it; with nobody on turn, the events in their order
(log 1).
-/
namespace Sys2Proof.Machine

/-! ## Fetching (R69, R89) -/

theorem fetchBytes_landed {s : State} {w : Who} {pc : Nat} {l : Landing}
    (h : landVirtual s w { space := .G, spaces := [.G], size := 32 - pc % 32, align := 0, acc := .fetch } pc = .ok l) :
    fetchBytes s w pc = if s.mem.anyPoison l.loc (32 - pc % 32) then .error (cPOISON, pc) else .ok (readBytes s l.loc (32 - pc % 32)) := by
  simp only [fetchBytes, h]

theorem fetchBytes_refused {s : State} {w : Who} {pc : Nat} {b : Bad}
    (h : landVirtual s w { space := .G, spaces := [.G], size := 32 - pc % 32, align := 0, acc := .fetch } pc = .error b) :
    fetchBytes s w pc = .error (if b.cause = cSHARETAG ∨ b.cause = cSPACE then cPROT else b.cause, b.addr) := by
  simp only [fetchBytes, h]

/-- The context in which an agent decodes. -/
def Env.ctx (x : Env) (s : State) : Ctx := { scribe := x.scribe, bound := boundPorts (x.group s) }

theorem fetch_nobody {s : State} (h : turnEnv s 0x58 plainFields 0 = none) : fetch s = none := by simp [fetch, h]

section
variable {s : State} {x : Env} (hx : turnEnv s 0x58 plainFields 0 = some x)
include hx

/-- Bytes that cannot be read are a trap at the fetch. -/
theorem step_unread {e : Nat × Nat} (h : fetchBytes s (x.who s) x.pc.toNat = .error e) : step s = .next (trapAt s x e.1 x.path 0 e.2 3) := by
  have hf : fetch s = some (.trap e.1 e.2) := by simp only [fetch, hx, ← Env.who.eq_1, h]
  simp only [step, hf, fetchTrap, hx]
  rfl

/-- Bytes that can be read are decoded, and the instruction is executed; what is none is a trap by its reason. -/
theorem step_read {bs : List Byte} (h : fetchBytes s (x.who s) x.pc.toNat = .ok bs) :
    (∀ i n, decode (x.ctx s) bs = .ok (i, n) → step s = exec i s) ∧
    (decode (x.ctx s) bs = .error .truncated → step s = .next (trapAt s x cFETCHX x.path 0 x.pc.toNat 3)) ∧
    ∀ r, r ≠ .truncated → decode (x.ctx s) bs = .error r → step s = .next (trapAt s x cILLENC x.path 0 x.pc.toNat 3) := by
  refine ⟨fun i n hd => ?instr, fun hd => ?short, fun r hr hd => ?none⟩
  case instr =>
    have hf : fetch s = some (.instr i) := by simp only [fetch, hx, ← Env.who.eq_1, ← Env.ctx.eq_1, h, hd]
    simp only [step, hf]
  case short =>
    have hf : fetch s = some (.trap cFETCHX x.pc.toNat) := by simp only [fetch, hx, ← Env.who.eq_1, ← Env.ctx.eq_1, h, hd]
    simp only [step, hf, fetchTrap, hx]
    rfl
  case none =>
    have hf : fetch s = some (.trap cILLENC x.pc.toNat) := by
      simp only [fetch, hx, ← Env.who.eq_1, ← Env.ctx.eq_1, h, hd]
    simp only [step, hf, fetchTrap, hx]
    rfl

end

/-! ## A step with nothing to fetch (log 1) -/

theorem turnEnv_idle {s : State} (h : s.turn = .none) (opc : Nat) (f : Fields) (len : Nat) : turnEnv s opc f len = none := by simp [turnEnv, h]

theorem step_gone {s : State} (h : turnEnv s 0x58 plainFields 0 = none) (ht : s.turn ≠ .none) : step s = .next (passTurn s) := by
  simp only [step, fetch_nobody h, if_pos ht]

section
variable {s : State} (ht : s.turn = .none)
include ht

theorem step_agenda {e : Instr} {rest : List Instr} (ha : s.agenda = e :: rest) (he : isEvent e = true) :
    step s = exec e { s with agenda := rest } := by
  simp [step, fetch_nobody (turnEnv_idle ht ..), ht, ha, he]

theorem step_event {e : Instr} (ha : s.agenda = []) (hn : nextEvent s = some e) (he : isEvent e = true) : step s = exec e s := by
  simp [step, fetch_nobody (turnEnv_idle ht ..), ht, ha, hn, he]

theorem step_tick (ha : s.agenda = []) (hn : nextEvent s = none) : step s = .next (tick s) := by
  simp [step, fetch_nobody (turnEnv_idle ht ..), ht, ha, hn]

end

end Sys2Proof.Machine
end

section
/-!
PROOFS. The statements on fetching and on the words of the spec (O46, O47).
-/
open Sys2Proof Sys2Proof.Machine

/-- Settles O46: what the agent on turn reads is decoded (step_read) or refused (step_unread); with nobody on turn the events have their order. -/
theorem aStepRunsTheDecodedInstruction : Obligations.AStepRunsTheDecodedInstruction := by
  unfold Obligations.AStepRunsTheDecodedInstruction
  refine fun s => ⟨?fetched, step_gone, fun e rest ht => step_agenda ht, fun e ht => step_event ht, step_tick⟩
  rintro x w hx rfl want c
  refine ⟨fun l hl hp => ?read, fun l hl hp => ?poisoned, fun b hb => ?refused⟩
  case read => exact step_read hx ((fetchBytes_landed hl).trans (if_neg (by rw [hp]; decide)))
  case poisoned => exact step_unread hx ((fetchBytes_landed hl).trans (if_pos hp))
  case refused => exact step_unread hx (fetchBytes_refused hb)

/-- Settles O47, word by word. -/
theorem wordsDecodeToTheirInstructions : Obligations.WordsDecodeToTheirInstructions := by
  unfold Obligations.WordsDecodeToTheirInstructions
  refine ⟨?_, ?_, ?_, ?_, ?_, ?_, ?_, ?_, ?_, ?_, ?_, ?_, ?_, ?_, ?_, ?_, ?_⟩ <;> decide +kernel
end

section
/-!
SUPPORT. What an operation that completes leaves of its stroke (R78, R186): the results of which a lane still lives.
-/
namespace Sys2Proof.Machine

@[simp] theorem ringPut_strokes (s : State) (g : Nat) (b : Binding) (off x : Nat) : (ringPut s g b off x).strokes = s.strokes := by
  rw [ringPut_frame]

@[simp] theorem ringFill_strokes (ws : List Word) (s : State) (g : Nat) (b : Binding) (i : Nat) : (ringFill s g b i ws).strokes = s.strokes := by
  induction ws generalizing s i with
  | nil => rfl
  | cons w ws ih => rw [ringFill, ih, ringPut_strokes]

@[simp] theorem ringAdvance_strokes (rs : List Resv) (s : State) (ring : Loc) : (ringAdvance s ring rs).1.strokes = s.strokes := by
  induction rs generalizing s with
  | nil => rfl
  | cons r rs ih =>
    unfold ringAdvance
    repeat' split
    · rw [ih, ringPut_strokes, ringFill_strokes]
    · exact ih s
    · rfl
    · exact ih s

@[simp] theorem resvReady_stroke_get (s : State) (op : Nat) (ws : List Word) (k : Nat) : (resvReady s op ws).stroke? k = s.stroke? k := by
  unfold resvReady
  split
  · exact congrArg (mapGet? · k) (ringAdvance_strokes ..)
  · rfl

/-- A stroke after operation i of it has completed with writes of which none goes to a port. -/
def Stroke.completed (st : Stroke) (i : InFlight) : Stroke :=
  { landWrites st i.lanes (i.result.filter (fun w => !i.void.contains w.reg)) with inflight := st.inflight.filter (fun j => j.id != i.id) }

theorem completeOp_stroke {s : State} {k op : Nat} {st : Stroke} {gr : Group} {i : InFlight} (hst : s.stroke? k = some st)
    (hgr : s.group? st.group = some gr) (hop : st.inflight.find? (fun i => i.id == op) = some i) (hport : ∀ w ∈ i.result, toPort gr w = false) :
    (completeOp s k op).stroke? k = some (st.completed i) := by
  have hid : i.id = op := by simpa using List.find?_some hop
  have hws : i.result.filter (fun w => !toPort gr w && !i.void.contains w.reg) = i.result.filter (fun w => !i.void.contains w.reg) :=
    List.filter_congr (fun w hw => by rw [hport w hw]; rfl)
  simp only [completeOp, hst, hop, hgr, Option.getD_some, hws, resvReady_stroke_get, State.modStroke_stroke_get_self, Option.map_some]
  rw [← hid]
  rfl

/-- Where every write is wanted, all that is not void is made. -/
theorem Stroke.completed_regs {st : Stroke} {i : InFlight} (h : ∀ w ∈ i.result, wanted st i.lanes w = true) :
    (st.completed i).regs = st.regs.applyAll (i.result.filter (fun w => !i.void.contains w.reg)) :=
  congrArg st.regs.applyAll (List.filter_eq_self.2 (fun w hw => h w (List.mem_of_mem_filter hw)))

/-- A stroke whose lane 1 has issued a load to s4 and has then exited; lane 0 lives. -/
def exitedLoader : Stroke := { deviceStroke with
  lanes := {} :: List.replicate 31 { live := false }
  inflight := [{ id := 1, lanes := laneBit 1, counts := true, la := 15, result := [{ reg := .s 4, lane := 0, val := 7 }] }] }

/-- The device with that stroke alone. -/
def exitedLoaderDevice : State := { State.reset with strokes := [(0, exitedLoader)], groups := [(0, deviceGroup)] }

end Sys2Proof.Machine
end

section
/-!
PROOFS. The statement on nibs, caches and results (O54).
-/
open Sys2Proof Sys2Proof.Machine

/-- Refutes O54: its clause on an operation that completes says that every write lands whose own lane lives. A write to an s register bears lane 0
(putS) and is discarded once the lanes that issued it have exited (wanted; R186, log 17). In exitedLoaderDevice lane 1 has loaded s4 and has exited,
lane 0 lives: the clause wants s4 to be 7, and the model leaves it. Where every write is wanted the clause holds (Stroke.completed_regs). -/
theorem not_nibsAndUnitsGoOn : ¬ Obligations.NibsAndUnitsGoOn := by
  unfold Obligations.NibsAndUnitsGoOn
  rintro ⟨-, -, -, -, -, -, -, -, -, -, -, -, hcompletes, -⟩
  obtain ⟨st, hst, -, -, hregs⟩ := hcompletes exitedLoaderDevice 0 1 exitedLoader deviceGroup _ rfl rfl rfl (by decide)
  rw [completeOp_stroke rfl rfl rfl (by decide)] at hst
  obtain rfl := Option.some.inj hst
  exact absurd (congrArg (fun r : Regs => r.sGet 4) (hregs (by decide +kernel) (by decide))) (by decide +kernel)
end

section
/-!
SUPPORT. The order in which an issue is decided (R77, R89, R101, R102): the causes told from the bits, the guard, the resources of the nib, tags and
marks.
-/
namespace Sys2Proof.Machine

/-! ## The order of an issue (R89) -/

/-- Every instruction is issued, with a meaning of its own. -/
theorem exec_issues {i : Instr} {opc len : Nat} {f : Fields} (h : issueCode i = some (opc, f, len)) :
    ∃ body, ∀ s, exec i s = issue opc f len body s := by
  cases i <;> cases h <;> exact ⟨_, fun s => rfl⟩

section
variable {s : State} {opc len : Nat} {f : Fields} {x : Env} {body : Env → State → Verdict} (hx : turnEnv s opc f len = some x)
include hx

theorem issue_refused {c : Nat} (hb : bitsCause s x = some c) : issue opc f len body s = .next (trapAt s x c x.path 0 0 0) := by
  simp [issue, hx, hb]

variable (hb : bitsCause s x = none)
include hb

theorem issue_waits (hs : x.scribe = true) (hc : ctxHazard s x = true) : issue opc f len body s = .next { s with turn := .none } := by
  simp [issue, hx, hb, hs, hc]

variable (hc : x.scribe = true → ctxHazard s x = false)
include hc

/-- An issue that nothing told from the bits keeps back: without an active lane it moves on, else its resources decide. -/
theorem issue_cleared : issue opc f len body s =
    if guardMask s x = 0 then .next { skip s { x with act := guardMask s x } with turn := nextTurn s { x with act := guardMask s x } }
    else if heldBack s { x with act := guardMask s x } then .next (holdBack s { x with act := guardMask s x })
    else .next (execute s { x with act := guardMask s x } body) := by
  have hgo : ¬ (x.scribe && ctxHazard s x) = true := by
    rw [Bool.and_eq_true, not_and, Bool.not_eq_true]; exact hc
  simp only [issue, hx, hb, if_neg hgo]

theorem issue_idle (h0 : guardMask s x = 0) : issue opc f len body s =
    .next { skip s { x with act := guardMask s x } with turn := nextTurn s { x with act := guardMask s x } } := by
  rw [issue_cleared hx hb hc, if_pos h0]

theorem issue_held (h0 : guardMask s x ≠ 0) (hh : heldBack s { x with act := guardMask s x } = true) :
    issue opc f len body s = .next (holdBack s { x with act := guardMask s x }) := by
  rw [issue_cleared hx hb hc, if_neg h0, if_pos hh]

theorem issue_executes (h0 : guardMask s x ≠ 0) (hh : heldBack s { x with act := guardMask s x } = false) :
    issue opc f len body s = .next (execute s { x with act := guardMask s x } body) := by
  rw [issue_cleared hx hb hc, if_neg h0, if_neg (by rw [hh]; decide)]

end

theorem execute_tagged {s : State} {x : Env} (body : Env → State → Verdict) (ht : taggedLanes s x ≠ 0) :
    execute s x body = trapAt s x cSHARETAG (taggedLanes s x) 0 0 0 := if_pos ht

theorem execute_poisoned {s : State} {x : Env} (body : Env → State → Verdict) (ht : taggedLanes s x = 0) (hp : poisonLanes s x ≠ 0) :
    execute s x body = trapAt s x cPOISON (poisonLanes s x) 0 0 0 :=
  (if_neg (not_not.2 ht)).trans (if_pos hp)

/-! ## No active lane (R77) -/

theorem Env.workers_idle {x : Env} (h : x.act = 0) (s : State) : x.workers s = [] := by
  simp [Env.workers, Env.lanes, h, lanesOf]

theorem countLoad_idle {x : Env} (h : x.act = 0) (s : State) : countLoad s x = s := if_neg (by simp [h])

/-- The issue of an instruction without an active lane that has popped nothing. -/
def idleIssue (s : State) (y : Env) : Issued := ⟨s, y, s, y⟩

theorem skip_landed {s : State} {y : Env} (h0 : y.act = 0) :
    { skip s y with turn := nextTurn s y } = landed (idleIssue s y) { st := s } := by
  cases hag : y.agent with
  | stroke k =>
    have hcommit := commit_stroke (q := idleIssue s y) (e := { st := s }) hag
    simp only [pushAll, Env.workers_idle (x := (idleIssue s y).x) h0, or_true, if_true] at hcommit
    simp only [landed, idleIssue, hag]
    exact congrArg (fun t : State => { t with turn := nextTurn s y }) hcommit
  | ctx g => simp only [landed, idleIssue, hag]; rfl

/-- Without an active lane an issue moves its path on, and that is all. -/
theorem skip_past {s : State} {y : Env} (h0 : y.act = 0) (hl : Lives (idleIssue s y) s) :
    Past (idleIssue s y) s { skip s y with turn := nextTurn s y } (fun _ => 0) (idleIssue s y).next := by
  rw [skip_landed h0]
  cases hag : y.agent with
  | stroke k =>
    simp only [Lives, idleIssue, hag] at hl
    obtain ⟨a, ha⟩ := hl
    have hp := commit_past_stroke (q := idleIssue s y) (e := { st := s }) hag ha
    rw [countLoad_idle (x := (idleIssue s y).x) h0, nextPc_of_nil _ _ rfl] at hp
    simp only [landed, idleIssue, hag]
    exact hp
  | ctx g =>
    simp only [Lives, idleIssue, hag] at hl
    obtain ⟨c, hc⟩ := hl
    simpa only [landed, idleIssue, hag] using commit_past_ctx (q := idleIssue s y) (e := { st := s }) hag hc (fun _ => 0) (idleIssue s y).next rfl

theorem skip_keeps {s : State} {y : Env} (h0 : y.act = 0) :
    Keeps (idleIssue s y) s { skip s y with turn := nextTurn s y } [] := by
  rw [skip_landed h0]
  exact commit_keeps (e := { st := s }) { later := rfl, slow := rfl, own := fun _ => rfl, dests := fun w hw => (nomatch hw) }

theorem turnEnv_lives {s : State} {opc len : Nat} {f : Fields} {x : Env} (hx : turnEnv s opc f len = some x) :
    Lives (idleIssue s { x with act := guardMask s x }) s := by
  have h := turnEnv_agent hx
  simp only [Lives, idleIssue]
  revert h
  cases x.agent with
  | stroke k => exact id
  | ctx g => exact And.left

/-! ## What an issue reads (R101) -/

theorem turnEnv_before {s : State} {opc len : Nat} {f : Fields} {x : Env} {k : Nat} (hx : turnEnv s opc f len = some x) (hag : x.agent = .stroke k) :
    x.regs = x.was.st.regs ∧ x.fifo = x.was.st.fifo ∧
    (∀ k m b ds, s.turn = .pathA k m b ds → s.stroke? k = some x.was.st ∧ x.was.coin = (x.group s).coin ∧ x.was.cr = (x.group s).cr) ∧
    ∀ k m w ds, s.turn = .pathB k m w ds → x.was = w.was := by
  unfold turnEnv at hx
  cases ht : s.turn with
  | none => simp [ht] at hx
  | pathA j m b ds =>
    simp only [ht] at hx
    split at hx
    · rename_i st hst
      split at hx
      · cases hx
      · cases hx
        refine ⟨rfl, rfl, ?_, fun _ _ _ _ h => (nomatch h)⟩
        rintro _ _ _ _ h
        cases h
        exact ⟨hst, rfl, rfl⟩
    · cases hx
  | pathB j m w ds =>
    simp only [ht] at hx
    split at hx
    · split at hx
      · cases hx
      · cases hx
        refine ⟨rfl, rfl, fun _ _ _ _ h => (nomatch h), ?_⟩
        rintro _ _ _ _ h
        cases h
        rfl
    · cases hx
  | donor j m ds =>
    simp only [ht] at hx
    split at hx
    · split at hx
      · cases hx
      · cases hx
        exact ⟨rfl, rfl, fun _ _ _ _ h => (nomatch h), fun _ _ _ _ h => (nomatch h)⟩
    · cases hx
  | ctx g =>
    simp only [ht] at hx
    split at hx
    · cases hx
      cases hag
    · cases hx

/-! ## The guard (R77) -/

theorem guardMask_lane {s : State} {x : Env} {l : Nat} (hl : l < 32) (hs : x.scribe = false) : (guardMask s x).getLsbD l =
    (x.path.getLsbD l && (!x.f.g || (x.regs.pGet x.f.pred.toNat l != x.f.n))) := by
  cases hag : x.agent with
  | ctx g => simp [Env.scribe, hag] at hs
  | stroke k =>
    simp only [guardMask, guarded, hag, Regs.pGet]
    cases x.f.g <;> cases x.f.n <;> simp [hl]

/-! ## Causes told from the bits (R89) -/

theorem csrRow_none {n : Nat} (h : 16 ≤ n) : csrRow n = none := by
  unfold csrRow
  split <;> simp at h ⊢

theorem csrRow_readsHandler (n : Nat) : (csrRow n).any (fun r => r.2.1 == .handler) = true ↔ 0x09 ≤ n ∧ n ≤ 0x0B := by
  rcases Nat.lt_or_ge n 16 with h | h
  · interval_cases n <;> decide
  · rw [csrRow_none h]
    exact ⟨fun h => (Bool.noConfusion h), fun h => by omega⟩

theorem csrRow_writesHandler (n : Nat) : (csrRow n).any (fun r => r.2.2 == .handler) = true ↔ 0x04 ≤ n ∧ n ≤ 0x0B := by
  rcases Nat.lt_or_ge n 16 with h | h
  · interval_cases n <;> decide
  · rw [csrRow_none h]
    exact ⟨fun h => (Bool.noConfusion h), fun h => by omega⟩

theorem scribeOnly_iff {opc : Nat} : scribeOnly opc = true ↔ (0x90 ≤ opc ∧ opc ≤ 0x95) ∨ opc = 0xA1 := by simp [scribeOnly]

/-- An instruction that only a handler may execute (R193): RTE, and CSRR and CSRW of the registers of R189 that say so. -/
def Env.privileged (x : Env) : Prop := x.opc = 0xE1 ∨ (x.opc = 0xE2 ∧ 0x09 ≤ x.f.b.toNat ∧ x.f.b.toNat ≤ 0x0B) ∨
  (x.opc = 0xE3 ∧ 0x04 ≤ x.f.b.toNat ∧ x.f.b.toNat ≤ 0x0B)

/-- An instruction that names a v register beyond its group's allotment that is no bound port (R81). -/
def Env.far (x : Env) (s : State) : Prop := ∃ i w, (RegName.v i, w) ∈ usesOf x.sh x.f ∧ (x.group s).nregs ≤ i ∧
  ¬ (252 ≤ i ∧ (boundPorts (x.group s)).getLsbD (i - 252) = true)

theorem bitsCause_scribe {s : State} {x : Env} (hs : x.scribe = true) : bitsCause s x = none := if_pos hs

/-- In thread code the three causes come in the order of R89. -/
theorem bitsCause_thread {s : State} {x : Env} (hs : x.scribe = false) :
    (scribeOnly x.opc = true → bitsCause s x = some cNOTSCRIBE) ∧
    (¬ scribeOnly x.opc = true → x.was.st.handler = false ∧ x.privileged → bitsCause s x = some cPRIV) ∧
    (¬ scribeOnly x.opc = true → ¬ (x.was.st.handler = false ∧ x.privileged) → x.far s → bitsCause s x = some cREGRANGE) ∧
    (¬ scribeOnly x.opc = true → ¬ (x.was.st.handler = false ∧ x.privileged) → ¬ x.far s → bitsCause s x = none) := by
  have hpriv : ((x.opc == 0xE1 || (x.opc == 0xE2 && (csrRow x.f.b.toNat).any (fun r => r.2.1 == .handler)) ||
      (x.opc == 0xE3 && (csrRow x.f.b.toNat).any (fun r => r.2.2 == .handler))) && !x.was.st.handler) = true ↔
      x.was.st.handler = false ∧ x.privileged := by
    simp only [Bool.or_eq_true, Bool.and_eq_true, beq_iff_eq, csrRow_readsHandler, csrRow_writesHandler, or_assoc, Bool.not_eq_true',
      Env.privileged, and_comm]
  have hfar : (usesOf x.sh x.f).any (fun u => match u.1 with
      | .v i => decide ((x.group s).nregs ≤ i) && !(decide (252 ≤ i) && (boundPorts (x.group s)).getLsbD (i - 252))
      | _ => false) = true ↔ x.far s := by
    rw [List.any_eq_true]
    constructor
    · rintro ⟨⟨r, w⟩, hmem, hr⟩
      cases r with
      | v i => exact ⟨i, w, hmem, by simpa [imp_iff_not_or] using hr⟩
      | _ => cases hr
    · rintro ⟨i, w, hmem, hr⟩
      exact ⟨(.v i, w), hmem, by simpa [imp_iff_not_or] using hr⟩
  unfold bitsCause
  rw [if_neg (by rw [hs]; decide)]
  exact ⟨fun ho => if_pos ho, fun ho hp => (if_neg ho).trans (if_pos (hpriv.2 hp)),
    fun ho hp hr => (if_neg ho).trans ((if_neg (hpriv.not.2 hp)).trans (if_pos (hfar.2 hr))),
    fun ho hp hr => (if_neg ho).trans ((if_neg (hpriv.not.2 hp)).trans (if_neg (hfar.not.2 hr)))⟩

/-! ## The resources of a nib (R102) -/

theorem any_dropWhile_iff {α : Type} {p r : α → Bool} (h : ∀ a, p a = true → r a = false) (l : List α) :
    (l.dropWhile (fun a => !p a)).any r = true ↔ ∃ pre a post u, l = pre ++ a :: post ∧ p a = true ∧ u ∈ post ∧ r u = true := by
  induction l with
  | nil => simp
  | cons b l ih =>
    cases hb : p b with
    | true =>
      simp only [List.dropWhile_cons, hb, Bool.not_true, Bool.false_eq_true, if_false, List.any_cons, h b hb, Bool.false_or]
      rw [List.any_eq_true]
      constructor
      · rintro ⟨u, hu, hr⟩
        exact ⟨[], b, l, u, rfl, hb, hu, hr⟩
      · rintro ⟨pre, a, post, u, heq, -, hu, hr⟩
        refine ⟨u, ?_, hr⟩
        cases pre with
        | nil => cases heq; exact hu
        | cons c pre => cases heq; simp [hu]
    | false =>
      simp only [List.dropWhile_cons, hb, Bool.not_false, if_true, ih]
      constructor
      · rintro ⟨pre, a, post, u, rfl, hrest⟩
        exact ⟨b :: pre, a, post, u, rfl, hrest⟩
      · rintro ⟨pre, a, post, u, heq, ha, hrest⟩
        cases pre with
        | nil => cases heq; rw [hb] at ha; cases ha
        | cons c pre => cases heq; exact ⟨pre, a, post, u, rfl, ha, hrest⟩

theorem FifoEntry.unitAt_of_away {e : FifoEntry} (h : e.away = true) : e.unitAt.isSome = false := by
  cases e <;> simp_all [FifoEntry.away, FifoEntry.unitAt]

theorem Env.reads_iff {x : Env} : x.reads = true ↔
    x.opc ∈ [0x60, 0x62, 0x63, 0x67, 0xD5, 0x5D, 0xD2] ∨ (x.opc = 0x3A ∧ x.f.m.toNat.testBit 0 = false) := by
  simp only [Env.reads, bit, Bool.or_eq_true, List.contains_iff_mem, Bool.and_eq_true, beq_iff_eq, Bool.not_eq_true']

theorem Env.atOnce_iff {x : Env} : x.atOnce = true ↔ (0xB0 ≤ x.opc ∧ x.opc ≤ 0xB7) ∨ x.opc = 0xC3 := by simp [Env.atOnce]

/-- The store FIFO is shut: a write to another core stands before an operation at a unit that may be read, or stands there at all. -/
def Env.shut (x : Env) (s : State) : Prop :=
  (x.reads = true ∧ ∃ pre e post u, fifoOf s x.agent = pre ++ e :: post ∧ e.away = true ∧ u ∈ post ∧ u.unitAt.isSome = true) ∨
    (x.atOnce = true ∧ ∃ e ∈ fifoOf s x.agent, e.away = true)

theorem fifoShut_iff {s : State} {x : Env} : fifoShut s x = true ↔ x.shut s := by
  have hunits := any_dropWhile_iff (p := FifoEntry.away) (r := fun e => e.unitAt.isSome) (fun _ => FifoEntry.unitAt_of_away) (fifoOf s x.agent)
  simp only [fifoShut, Bool.or_eq_true, Bool.and_eq_true, hunits, List.any_eq_true, Env.shut]

theorem summaryHeld_iff {s : State} {k : Nat} : summaryHeld s k = true ↔ ∃ j st, (j, st) ∈ s.strokes ∧ j ≠ k ∧ j % 4 = k % 4 ∧
    coreOf (groupOf j) = coreOf (groupOf k) ∧ ∃ b ∈ st.busy, b.1 = .summary := by
  simp only [summaryHeld, List.any_eq_true, Bool.and_eq_true, beq_iff_eq, bne_iff_ne, Prod.exists]
  exact exists₂_congr fun j st => by tauto

/-- The unit that an instruction needs is held by an earlier one. -/
theorem unitHeld_iff {s : State} {x : Env} : unitHeld s x = true ↔
    let sfu := ((s.core (coreOf (groupOf x.key))).sfu[x.key % 4]?).getD (0, 0)
    (unitOf x.opc = 1 ∧ sfu.1 < s.cycle ∧ s.cycle < sfu.1 + (sfu.2 + 7) / 8) ∨ (unitOf x.opc = 4 ∧ summaryHeld s x.key = true) := by
  simp only [unitHeld, sfuHeld, Bool.or_eq_true, Bool.and_eq_true, beq_iff_eq, decide_eq_true_eq, and_comm]

theorem bankReads_get {s : State} {x : Env} {b : Nat} (hb : b < 4) :
    ((bankReads s x)[b]?).getD 0 = ((rowsRead s x).filter (fun i => i % 4 == b)).length := by
  simp [bankReads, hb]

section
variable {s : State} {x : Env} (h : x.act ≠ 0)
include h

theorem heldBack_pathA {k : Nat} {m b : Mask} {ds : List (Nat × Mask)} (ht : s.turn = .pathA k m b ds) :
    heldBack s x = true ↔ x.shut s ∨ unitHeld s x = true := by
  simp only [heldBack, bne_iff_ne.2 h, ht, Bool.true_and, Bool.or_eq_true, fifoShut_iff]

theorem heldBack_pathB {k : Nat} {m : Mask} {w : Second} {ds : List (Nat × Mask)} (ht : s.turn = .pathB k m w ds) :
    heldBack s x = true ↔ x.shut s ∨ unitHeld s x = true ∨ (unitOf x.opc ≠ 0 ∧ w.unit = unitOf x.opc) ∨
      ∃ b, b < 4 ∧ 0 < ((rowsRead s x).filter (fun i => i % 4 == b)).length ∧
        2 < ((rowsRead s x).filter (fun i => i % 4 == b)).length + (w.reads[b]?).getD 0 := by
  have hreads (b : Nat) : b ∈ List.range 4 ∧ 0 < ((bankReads s x)[b]?).getD 0 ∧ 2 < ((bankReads s x)[b]?).getD 0 + (w.reads[b]?).getD 0 ↔
      b < 4 ∧ 0 < ((rowsRead s x).filter (fun i => i % 4 == b)).length ∧
        2 < ((rowsRead s x).filter (fun i => i % 4 == b)).length + (w.reads[b]?).getD 0 := by
    rw [List.mem_range]
    exact and_congr_right fun hb => by rw [bankReads_get hb]
  simp only [heldBack, bne_iff_ne.2 h, ht, Bool.true_and, Bool.or_eq_true, fifoShut_iff, Bool.and_eq_true, bne_iff_ne, beq_iff_eq, List.any_eq_true,
    decide_eq_true_eq, hreads, or_assoc]

theorem heldBack_other (ha : ∀ k m b ds, s.turn ≠ .pathA k m b ds) (hb : ∀ k m w ds, s.turn ≠ .pathB k m w ds) :
    heldBack s x = true ↔ x.shut s := by
  have hmatch : heldBack s x = fifoShut s x := by
    cases ht : s.turn with
    | pathA k m b ds => exact absurd ht (ha k m b ds)
    | pathB k m w ds => exact absurd ht (hb k m w ds)
    | _ => simp only [heldBack, bne_iff_ne.2 h, ht, Bool.true_and, Bool.or_false]
  rw [hmatch, fifoShut_iff]

end

end Sys2Proof.Machine
end

section
/-!
SUPPORT. What a pop, a push and the wait of a push find at their ring (R235 to R239), and the settlement of O43.
-/
namespace Sys2Proof.Machine

/-! ## Lookup in the words of a pop -/

theorem mapGet?_append_of_some {α : Type} {m : Map α} {k : Nat} {a : α} (h : mapGet? m k = some a) (m' : Map α) :
    mapGet? (m ++ m') k = some a := by
  induction m with
  | nil => cases h
  | cons e m ih =>
    obtain ⟨j, c⟩ := e
    simp only [List.cons_append, mapGet?] at h ⊢
    split
    · rwa [if_pos ‹_›] at h
    · rw [if_neg ‹_›] at h; exact ih h

theorem mapGet?_append_of_none {α : Type} {m : Map α} {k : Nat} (h : mapGet? m k = none) (m' : Map α) :
    mapGet? (m ++ m') k = mapGet? m' k := by
  induction m with
  | nil => rfl
  | cons e m ih =>
    obtain ⟨j, c⟩ := e
    simp only [List.cons_append, mapGet?] at h ⊢
    split
    · rw [if_pos ‹_›] at h; cases h
    · rw [if_neg ‹_›] at h; exact ih h

theorem mapGet?_map_const {α : Type} (a : α) {ls : List Nat} {l : Nat} (h : l ∈ ls) : mapGet? (ls.map (fun j => (j, a))) l = some a := by
  induction ls with
  | nil => cases h
  | cons j ls ih =>
    simp only [List.map_cons, mapGet?]
    split
    · rfl
    · exact ih ((List.mem_cons.1 h).resolve_left (Ne.symm ‹_›))

theorem mapGet?_popWords_of_not_mem {s : State} {g : Nat} {b : Binding} {head k : Nat} {ls : List Nat} {l : Nat} (h : l ∉ ls) (i : Nat) :
    mapGet? (popWords s g b head k i ls) l = none := by
  induction ls generalizing i with
  | nil => rfl
  | cons j ls ih =>
    obtain ⟨hne, hls⟩ := not_or.1 (List.mem_cons.not.1 h)
    simp only [popWords, mapGet?, if_neg (Ne.symm hne), ih hls]

/-- The lane in place j pops word j of the ring, and 0 beyond the first k words (R236). -/
theorem mapGet?_popWords {s : State} {g : Nat} {b : Binding} {head k : Nat} {ls : List Nat} (hn : ls.Nodup) {i j l : Nat} (hj : ls[j]? = some l) :
    mapGet? (popWords s g b head k i ls) l =
      some (if i + j < k then BitVec.ofNat 32 (ringWord s g b (ringSlot b (head + (i + j)))) else 0) := by
  induction ls generalizing i j with
  | nil => cases hj
  | cons a ls ih =>
    obtain ⟨ha, hn⟩ := List.nodup_cons.1 hn
    cases j with
    | zero =>
      cases hj
      simp only [popWords, mapGet?, if_true, Nat.add_zero]
    | succ j =>
      have hne : a ≠ l := fun h => ha (h ▸ List.mem_of_getElem? hj)
      simp only [popWords, mapGet?, if_neg hne, ih hn hj, Nat.add_assoc, Nat.add_comm 1 j]

theorem Env.workers_nodup (x : Env) (s : State) : (x.workers s).Nodup := (lanesOf_nodup x.act).filter _

theorem Env.not_mem_workers {x : Env} {s : State} {l : Nat} (h : x.helper s l = true) : l ∉ x.workers s := by
  simp [Env.workers, h]

/-! ## A pop (R236) -/

/-- The words of a pop that takes k words: each worker's, and 0 for the helpers. -/
def popped (s : State) (x : Env) (b : Binding) (k : Nat) : Map Word :=
  popWords s x.grp b (ringView s x.grp b).head k 0 (x.workers s) ++ (x.lanes.filter (fun l => x.helper s l)).map (fun l => (l, 0))

theorem popped_worker {s : State} {x : Env} {b : Binding} {k j l : Nat} (hj : (x.workers s)[j]? = some l) : mapGet? (popped s x b k) l =
    some (if j < k then BitVec.ofNat 32 (ringWord s x.grp b (ringSlot b ((ringView s x.grp b).head + j))) else 0) := by
  have hw := mapGet?_popWords (s := s) (g := x.grp) (b := b) (head := (ringView s x.grp b).head) (k := k) (x.workers_nodup s) (i := 0) hj
  rw [Nat.zero_add] at hw
  exact mapGet?_append_of_some hw _

theorem popped_helper {s : State} {x : Env} {b : Binding} {k l : Nat} (hl : l ∈ x.lanes) (hh : x.helper s l = true) :
    mapGet? (popped s x b k) l = some 0 :=
  (mapGet?_append_of_none (mapGet?_popWords_of_not_mem (Env.not_mem_workers hh) 0) _).trans
    (mapGet?_map_const 0 (List.mem_filter.2 ⟨hl, hh⟩))

section
variable {s : State} {x : Env} {port : Nat} {b : Binding} {r : Loc} (hb : bindingOf (x.group s) (port - 252) = some b)
  (hr : ringLoc s x.grp b 0 = some r)
include hb

theorem popPort_idle (hl : x.workers s = []) :
    popPort s x port = .ok (s, (x.lanes.filter (fun l => x.helper s l)).map (fun l => (l, 0))) := by
  simp only [popPort, hb, hl, List.length_nil, if_true]

theorem popPort_broken (hl : x.workers s ≠ []) (hv : (ringView s x.grp b).broken = true) :
    popPort s x port = .error (.trap cSTREAM x.act 0 0 0) := by
  simp only [popPort, hb, List.length_eq_zero_iff, if_neg hl, hv, if_true, trapLanes]

include hr

theorem popPort_waits (hl : x.workers s ≠ []) (hv : (ringView s x.grp b).broken = false)
    (hw : ringBehind s false r (arrival s x port) x.key = true ∨
      ((ringView s x.grp b).count < (x.workers s).length ∧ (ringView s x.grp b).closed = false)) :
    popPort s x port = .error (.park (.pop port (x.workers s).length (arrival s x port))) := by
  have hwait : (ringBehind s false r (arrival s x port) x.key ||
      (decide ((ringView s x.grp b).count < (x.workers s).length) && !(ringView s x.grp b).closed)) = true := by
    simpa only [Bool.or_eq_true, Bool.and_eq_true, decide_eq_true_eq, Bool.not_eq_true'] using hw
  simp only [popPort, hb, hr, List.length_eq_zero_iff, if_neg hl, hv, Bool.false_eq_true, if_false, hwait, if_true]

theorem popPort_takes (hl : x.workers s ≠ []) (hv : (ringView s x.grp b).broken = false)
    (hf : ringBehind s false r (arrival s x port) x.key = false)
    (hw : (x.workers s).length ≤ (ringView s x.grp b).count ∨ (ringView s x.grp b).closed = true) :
    let k := min (x.workers s).length (ringView s x.grp b).count
    popPort s x port = .ok ((ringPut s x.grp b 0 (((ringView s x.grp b).head + k) % 2 ^ 32)).modStroke x.key (fun st =>
      st.modLanes allLanes (fun l y => if l ∈ (x.workers s).drop k then { y with eos := true } else y)), popped s x b k) := by
  have hgo : (decide ((ringView s x.grp b).count < (x.workers s).length) && !(ringView s x.grp b).closed) = false := by
    rw [Bool.and_eq_false_iff, decide_eq_false_iff_not, Nat.not_lt, Bool.not_eq_false']
    exact hw
  simp only [popPort, hb, hr, List.length_eq_zero_iff, if_neg hl, hv, Bool.false_eq_true, if_false, hf, hgo, Bool.or_self,
    List.contains_iff_mem, popped]

/-! ## A push (R237) -/

theorem pushCheck_eq : pushCheck s x port =
    if x.workers s = [] then none
    else if (ringView s x.grp b).broken = true ∨ (ringView s x.grp b).closed = true then some (.trap cSTREAM x.act 0 0 0)
    else if ringBehind s true r (arrival s x port) x.key = true ∨
        b.cap < (ringView s x.grp b).count + reservedIn s r + (x.workers s).length then
      some (.park (.push port (x.workers s).length (arrival s x port)))
    else none := by
  simp only [pushCheck, hb, hr, List.length_eq_zero_iff, Bool.or_eq_true, decide_eq_true_eq, trapLanes]

end

/-- What a push has still to wait for: a write of its stroke to another core, or words owed to a ring that is none of its ports'. -/
theorem pushWaits_iff {s : State} {x : Env} : pushWaits s x = true ↔ (∃ e ∈ fifoOf s x.agent, e.away = true) ∨
    ∃ r ∈ s.resv, r.stroke = x.key ∧
      ∀ p ∈ outputPorts s x, ∀ b, bindingOf (x.group s) (p - 252) = some b → ringLoc s x.grp b 0 ≠ some r.ring := by
  have hown (l : Loc) : l ∈ (outputPorts s x).filterMap (fun p => (bindingOf (x.group s) (p - 252)).bind (fun b => ringLoc s x.grp b 0)) ↔
      ∃ p ∈ outputPorts s x, ∃ b, bindingOf (x.group s) (p - 252) = some b ∧ ringLoc s x.grp b 0 = some l := by
    simp only [List.mem_filterMap, Option.bind_eq_some_iff]
  simp only [pushWaits, Bool.or_eq_true, List.any_eq_true, Bool.and_eq_true, beq_iff_eq, Bool.not_eq_true', ← Bool.not_eq_true,
    List.contains_iff_mem, hown, not_exists, not_and, ne_eq]

section
variable {s t : State} {x : Env}

theorem readyPush_refused {v : Verdict} (h : (outputPorts t x).findSome? (pushCheck t x) = some v) : readyPush s t x = .error v := by
  simp only [readyPush, h]

variable (h : (outputPorts t x).findSome? (pushCheck t x) = none)
include h

theorem readyPush_nothing (hn : outputPorts t x = [] ∨ x.workers t = []) : readyPush s t x = .ok t := by
  simp only [readyPush, h, if_pos hn]

theorem readyPush_waits (hn : ¬ (outputPorts t x = [] ∨ x.workers t = [])) (hw : pushWaits (x.released t) x = true) :
    readyPush s t x = .error (.parkIn (.fence false) (x.released s)) := by
  simp only [readyPush, h, if_neg hn, if_pos hw]

theorem readyPush_goes (hn : ¬ (outputPorts t x = [] ∨ x.workers t = [])) (hw : ¬ pushWaits (x.released t) x = true) :
    readyPush s t x = .ok t := by
  simp only [readyPush, h, if_neg hn, if_neg hw]

end

/-! ## Who waits at a ring (R239), and how a ring stands (R235) -/

theorem streamWait_iff {push : Bool} {p : Park} {port n : Nat} : p.streamWait push = some (port, n) ↔
    ∃ m, p = if push then .push port m n else .pop port m n := by
  cases p <;> cases push <;> simp [Park.streamWait]

theorem ringBehind_iff {s : State} {push : Bool} {r : Loc} {seq self : Nat} : ringBehind s push r seq self = true ↔
    ∃ k st, (k, st) ∈ s.strokes ∧ k ≠ self ∧ ∃ port m n gr b, st.park = some (if push then .push port m n else .pop port m n) ∧
      n < seq ∧ s.group? st.group = some gr ∧ bindingOf gr (port - 252) = some b ∧ ringLoc s st.group b 0 = some r := by
  simp only [ringBehind, List.any_eq_true, Bool.and_eq_true, bne_iff_ne, Prod.exists]
  refine exists₂_congr fun k st => and_congr_right fun _ => and_congr_right fun _ => ?_
  constructor
  · intro hwait
    split at hwait
    case h_2 => cases hwait
    case h_1 port n hpark =>
      obtain ⟨p, hp, hst⟩ := Option.bind_eq_some_iff.1 hpark
      obtain ⟨m, rfl⟩ := streamWait_iff.1 hst
      obtain ⟨hn, hring⟩ := (Bool.and_eq_true _ _).mp hwait
      split at hring
      case h_2 => cases hring
      case h_1 b hbind =>
        obtain ⟨gr, hgr, hb⟩ := Option.bind_eq_some_iff.1 hbind
        exact ⟨port, m, n, gr, b, hp, of_decide_eq_true hn, hgr, hb, eq_of_beq hring⟩
  · rintro ⟨port, m, n, gr, b, hp, hn, hgr, hb, hr⟩
    have hst : (if push then Park.push port m n else .pop port m n).streamWait push = some (port, n) := streamWait_iff.2 ⟨m, rfl⟩
    simp only [hp, Option.bind_some, hst, hgr, hb, hr, hn, decide_true, beq_self_eq_true, Bool.and_self]

theorem ringView_closed_iff {s : State} {g : Nat} {b : Binding} : (ringView s g b).closed = true ↔
    (if ringWord s g b 12 = 0 then 1 else ringWord s g b 12) ≤ ringWord s g b 8 := decide_eq_true_iff

end Sys2Proof.Machine

open Sys2Proof Sys2Proof.Machine

/-- Settles O43: the order of an issue is `issue`'s own, branch by branch, for every instruction that `exec_issues` gives a meaning; an issue
without an active lane commits nothing but its next PC; and each of the nib's, the pop's and the push's conditions is said as a fact about
the state. -/
theorem issueIsDecidedInOrderAndPortsMove : Obligations.IssueIsDecidedInOrderAndPortsMove := by
  unfold Obligations.IssueIsDecidedInOrderAndPortsMove
  refine ⟨⟨?order, ?before, ?resources, ?bits, fun s x l hl hs => guardMask_lane hl hs⟩,
    ?ports, ?ready, fun s push r seq self => ringBehind_iff, fun s g b => ⟨rfl, rfl, rfl, ringView_closed_iff⟩⟩
  case order =>
    intro i s opc f len x hi hx
    obtain ⟨body, hexec⟩ := exec_issues hi
    simp only [hexec s]
    refine ⟨fun c hb => issue_refused hx hb, fun hs hb hc => issue_waits hx hb hs hc, ?_, ?_, ?_, ?_⟩
    · rintro ⟨hb, hc⟩ h0
      exact ⟨_, issue_idle hx hb hc h0, skip_past h0 (turnEnv_lives hx), skip_keeps h0⟩
    · rintro ⟨hb, hc⟩ h0 hh
      exact issue_held hx hb hc h0 hh
    · rintro ⟨hb, hc⟩ h0 hh ht
      rw [issue_executes hx hb hc h0 hh, execute_tagged body ht]
    · rintro ⟨hb, hc⟩ h0 hh ht hp
      rw [issue_executes hx hb hc h0 hh, execute_poisoned body ht hp]
  case before =>
    intro s opc f len x k hx hag
    obtain ⟨hregs, hfifo, hA, hB⟩ := turnEnv_before hx hag
    exact ⟨hregs, hfifo, hA k, hB k⟩
  case resources =>
    intro s x h
    refine ⟨fun ha hb => (heldBack_other h ha hb).trans ?_, fun k m b ds ht => (heldBack_pathA h ht).trans ?_,
      fun k m w ds ht => (heldBack_pathB h ht).trans ?_⟩ <;>
    simp only [Env.shut, unitHeld_iff, Env.reads_iff, Env.atOnce_iff, summaryHeld_iff]
  case bits =>
    intro s x
    refine ⟨bitsCause_scribe, fun hs => ?_⟩
    obtain ⟨hscribe, hpriv, hfar, hnone⟩ := bitsCause_thread (s := s) hs
    rw [scribeOnly_iff] at hscribe hpriv hfar hnone
    exact ⟨hscribe, hpriv, hfar, hnone⟩
  case ports =>
    intro s x port b r hb hr
    refine ⟨popPort_idle hb, popPort_broken hb, popPort_waits hb hr, fun hl hv hf hw =>
      ⟨_, popPort_takes hb hr hl hv hf hw, fun j l hj => popped_worker hj, fun l hl hh => popped_helper hl hh⟩, pushCheck_eq hb hr⟩
  case ready =>
    intro s t x
    refine ⟨fun v h => readyPush_refused h, fun h => ⟨readyPush_nothing h, fun hp hl => ?_⟩⟩
    have hn : ¬ (outputPorts t x = [] ∨ x.workers t = []) := not_or.2 ⟨hp, hl⟩
    exact ⟨fun hw => readyPush_waits h hn (pushWaits_iff.2 hw), fun hw => readyPush_goes h hn (fun hp => hw (pushWaits_iff.1 hp))⟩
end

section
/-!
SUPPORT. Meanings that commit without a write, trap or park, in the terms of `Does`, `Traps`, `Parks` and `ParksIn`.
-/
namespace Sys2Proof.Machine

/-- The issuing agent lives in every state that has the same agents. -/
theorem Lives.of_isSome {q : Issued} {u v : State} (hu : Lives q u)
    (h : ∀ j, (v.stroke? j).isSome = (u.stroke? j).isSome ∧ (v.ctx? j).isSome = (u.ctx? j).isSome) : Lives q v := by
  unfold Lives at hu ⊢
  cases hag : q.x.agent with
  | stroke k =>
    rw [hag] at hu
    exact Option.isSome_iff_exists.1 ((h k).1.trans (Option.isSome_iff_exists.2 hu))
  | ctx g =>
    rw [hag] at hu
    exact Option.isSome_iff_exists.1 ((h g).2.trans (Option.isSome_iff_exists.2 hu))

theorem Lives.modCtx {q : Issued} {u : State} (hu : Lives q u) (k : Nat) (g : ScribeCtx → ScribeCtx) : Lives q (u.modCtx k g) :=
  hu.of_isSome fun j => ⟨rfl, by rw [State.modCtx_ctx_get]; split <;> simp⟩

section
variable {i : Instr} {opc len : Nat} {f : Fields} {body : Env → State → Verdict} {ok : State → Env → Prop}

/-- An instruction whose meaning changes the machine alone does that, and goes on to the next one. -/
theorem does_of_plain {st : State → Env → State} (hf : Quiet i opc f len) (hexec : ∀ s, exec i s = issue opc f len body s)
    (hbody : ∀ s x, ok s x → body x s = plain (st s x)) (hlive : ∀ q s x, Lives q s → Lives q (st s x)) : Does i ok st := by
  refine does_of_commit hf hexec fun s q hq _ ho =>
    ⟨hlive _ _ _ (issuedAs_lives hq), { st := st q.t q.y }, hbody _ _ ho, rfl, rfl, rfl, rfl, rfl, ?_, ?_⟩
  all_goals rw [(issuedAs_agent hq).2.2.2.2.1]; rfl

variable (hissued : ∀ s, issued s i = issuedAs s opc f len) (hexec : ∀ s, exec i s = issue opc f len body s)
include hissued hexec

theorem traps_of_trap {cause : Nat} {lanes : State → Env → Mask}
    (hbody : ∀ s x, ok s x → ∃ code addr acc, body x s = .trap cause (lanes s x) code addr acc) : Traps i ok cause lanes := by
  intro s q hq _ ho
  rw [hissued] at hq
  obtain ⟨code, addr, acc, hb⟩ := hbody _ _ ho
  exact ⟨code, addr, acc, by rw [hexec, issue_eq_conclude body hq, hb]; rfl⟩

theorem parks_of_park {p : State → Env → Park} (hbody : ∀ s x, ok s x → body x s = .park (p s x)) : Parks i ok p := by
  intro s q hq _ ho
  rw [hissued] at hq
  rw [hexec, issue_eq_conclude body hq, hbody _ _ ho]; rfl

theorem parksIn_of_parkIn {st : State → Env → State} {p : State → Env → Park}
    (hbody : ∀ s x, ok s x → body x s = .parkIn (p s x) (st s x)) : ParksIn i ok st p := by
  intro s q hq _ ho
  rw [hissued] at hq
  rw [hexec, issue_eq_conclude body hq, hbody _ _ ho]; rfl

end

theorem quiet_wcue (f : Fields) : Quiet (.wcue f) 0x95 f (fieldsLen f) :=
  quiet_of (fun _ => rfl) (by decide) rfl (no_dest rfl (by
    simp only [onlyD, amount, Bool.and_eq_true]; exact ⟨⟨⟨rfl, rfl⟩, by split <;> rfl⟩, rfl⟩))

end Sys2Proof.Machine
end

section
/-!
SUPPORT. The baton (R108, R241): whom a grant finds, and what BTAKE and BGIVE answer.
-/
namespace Sys2Proof.Machine

/-! ## The next request (R108) -/

theorem nextRequest_first {req : BitVec 8} {start i : Nat} (hi : i < 8) (hon : req.getLsbD ((start + i) % 8) = true)
    (hoff : ∀ j, j < i → req.getLsbD ((start + j) % 8) = false) : nextRequest req start = some ((start + i) % 8) := by
  have hfind : (List.range 8).find? (fun j => req.getLsbD ((start + j) % 8)) = some i :=
    List.find?_range_eq_some.2 ⟨hon, List.mem_range.2 hi, fun j hj => by rw [hoff j hj]; rfl⟩
  rw [nextRequest, List.find?_map]
  exact congrArg (Option.map _) hfind

theorem nextRequest_zero (start : Nat) : nextRequest 0 start = none := by
  simp [nextRequest]

/-! ## Going on past BTAKE -/

@[simp] theorem batonResume_core (s : State) (g c : Nat) : (batonResume s g).core c = s.core c :=
  List.foldlRecOn (motive := fun t : State => t.core c = s.core c) _ _ rfl (fun _ ht _ _ => ht)

theorem batonResume_isSome (s : State) (g j : Nat) :
    ((batonResume s g).stroke? j).isSome = (s.stroke? j).isSome ∧ ((batonResume s g).ctx? j).isSome = (s.ctx? j).isSome := by
  refine List.foldlRecOn
    (motive := fun t : State => (t.stroke? j).isSome = (s.stroke? j).isSome ∧ (t.ctx? j).isSome = (s.ctx? j).isSome)
    _ _ ⟨rfl, rfl⟩ (fun t ht k _ => ⟨?_, ht.2⟩)
  rw [← ht.1, State.modStroke_stroke_get]
  split <;> simp

/-! ## A grant (R108) -/

theorem batonGrant_held {s : State} {c : Nat} (h : (s.core c).baton.isSome = true) : batonGrant s c = s := by
  obtain ⟨slot, hs⟩ := Option.isSome_iff_exists.1 h
  simp only [batonGrant, hs]

theorem batonGrant_unasked {s : State} {c : Nat} (h : nextRequest (s.core c).request (s.core c).rotation = none) :
    batonGrant s c = s := by
  unfold batonGrant
  cases hb : (s.core c).baton with
  | some slot => simp only [hb]
  | none => simp only [hb, h]

/-- A free baton goes to the slot that the rotation finds, whose strokes go on past their BTAKE. -/
theorem batonGrant_free {s : State} {c slot : Nat} (hb : (s.core c).baton = none)
    (hn : nextRequest (s.core c).request (s.core c).rotation = some slot) :
    batonGrant s c = batonResume (s.modCore c (fun k => { k with
      baton := some slot, request := k.request &&& ~~~ BitVec.ofNat 8 (2 ^ slot), rotation := (slot + 1) % 8 })) (8 * c + slot) := by
  simp only [batonGrant, hb, hn]

theorem batonGrant_isSome (s : State) (c j : Nat) :
    ((batonGrant s c).stroke? j).isSome = (s.stroke? j).isSome ∧ ((batonGrant s c).ctx? j).isSome = (s.ctx? j).isSome := by
  cases hb : (s.core c).baton with
  | some slot => rw [batonGrant_held (by rw [hb]; rfl)]; exact ⟨rfl, rfl⟩
  | none =>
    cases hn : nextRequest (s.core c).request (s.core c).rotation with
    | none => rw [batonGrant_unasked hn]; exact ⟨rfl, rfl⟩
    | some slot => rw [batonGrant_free hb hn]; exact batonResume_isSome ..

theorem getLsbD_andNot_twoPow (r : BitVec 8) (slot : Nat) {j : Nat} (hj : j < 8) :
    (r &&& ~~~ BitVec.ofNat 8 (2 ^ slot)).getLsbD j = (r.getLsbD j && decide (j ≠ slot)) := by
  rw [BitVec.getLsbD_and, BitVec.getLsbD_not, BitVec.getLsbD_ofNat, Nat.testBit_two_pow]
  simp [hj, eq_comm]

/-! ## BTAKE and BGIVE (R241) -/

theorem holdsBaton_iff {s : State} {x : Env} : holdsBaton s x = true ↔ (s.core x.core).baton = some (slotOf x.grp) := beq_iff_eq

/-- The machine in which the issuing group has asked for the baton. -/
def batonAsked (s : State) (x : Env) : State :=
  batonGrant (s.modCore x.core (fun c => { c with request := c.request ||| BitVec.ofNat 8 (2 ^ slotOf x.grp) })) x.core

/-- The machine in which the baton of the issuing core has been given up. -/
def batonGiven (s : State) (x : Env) : State := batonGrant (s.modCore x.core (fun c => { c with baton := none })) x.core

section
variable {s : State} {x : Env}

theorem bodyBgive_holder (h : (s.core x.core).baton = some (slotOf x.grp)) : bodyBgive x s = plain (batonGiven s x) :=
  if_pos (holdsBaton_iff.2 h)

theorem bodyBtake_holder (h : (s.core x.core).baton = some (slotOf x.grp)) : bodyBtake x s = plain s :=
  if_pos (holdsBaton_iff.2 h)

variable (h : ¬ (s.core x.core).baton = some (slotOf x.grp))
include h

theorem bodyBgive_other : bodyBgive x s = .trap cBATON x.act 0 0 0 := if_neg (mt holdsBaton_iff.1 h)

/-- BTAKE of a group without the baton asks for it. -/
theorem bodyBtake_other : bodyBtake x s =
    if holdsBaton (batonAsked s x) x then plain (batonAsked s x) else .parkIn (.baton x.path x.len) (batonAsked s x) :=
  if_neg (mt holdsBaton_iff.1 h)

theorem bodyBtake_granted (hg : ((batonAsked s x).core x.core).baton = some (slotOf x.grp)) : bodyBtake x s = plain (batonAsked s x) :=
  (bodyBtake_other h).trans (if_pos (holdsBaton_iff.2 hg))

theorem bodyBtake_parks (hg : ¬ ((batonAsked s x).core x.core).baton = some (slotOf x.grp)) :
    bodyBtake x s = .parkIn (.baton x.path x.len) (batonAsked s x) :=
  (bodyBtake_other h).trans (if_neg (mt holdsBaton_iff.1 hg))

end

end Sys2Proof.Machine
end

section
/-!
SUPPORT. The cue counters (R242, R268) and waits on memory words (R243).
-/
namespace Sys2Proof.Machine

/-! ## Cues (R242, R268) -/

/-- The number of the cue counter that an instruction names. -/
theorem bits_four_one (n : Nat) : bits n 4 1 = n / 2 % 16 := by
  simp [bits, Nat.shiftRight_eq_div_pow]

/-- The sum of the participants' amounts. -/
def cueAmounts (s : State) (x : Env) : Nat := ((x.workers s).map (fun l => opC s x l % 2 ^ 32)).sum

/-- The machine after a CUE. -/
def cueAdded (s : State) (x : Env) : State :=
  if x.workers s = [] then s
  else (x.released s).modGroup x.grp (fun gr =>
    let i := x.f.b.toNat / 2 % 16
    { gr with cues := mapPut gr.cues i (BitVec.ofNat 32 (min 0xFFFFFFFF ((mapGet gr.cues i 0).toNat + cueAmounts s x))) })

theorem cueAdded_lives {q : Issued} {s : State} (x : Env) (h : Lives q s) : Lives q (cueAdded s x) := by
  unfold cueAdded
  split
  · exact h
  · exact h.of_isSome (released_isSome x s)

section
variable {s : State} {x : Env}

/-- A CUE with participants is a release, and then adds their amounts. -/
theorem bodyCue_participants (hw : x.workers s ≠ []) : bodyCue x s =
    if releaseWaits (x.released s) x.agent false = true then .parkIn (.fence false) (x.released s) else plain (cueAdded s x) := by
  have hsum : (x.workers s).foldl (fun n l => n + opC s x l % 2 ^ 32) 0 = cueAmounts s x := by
    rw [cueAmounts, List.sum_eq_foldl, List.foldl_map]
  simp only [bodyCue, cueAdded, cueAdd, afterRelease, hsum, bits_four_one, List.isEmpty_iff, hw, if_false]

theorem bodyCue_adds (h : x.workers s = [] ∨ ¬ releaseOut false s x) : bodyCue x s = plain (cueAdded s x) := by
  by_cases hw : x.workers s = []
  · simp only [bodyCue, cueAdded, hw, List.isEmpty_nil, if_true]
  · exact (bodyCue_participants hw).trans (if_neg (h.resolve_left hw))

theorem bodyCue_waits (hw : x.workers s ≠ []) (h : releaseOut false s x) : bodyCue x s = .parkIn (.fence false) (x.released s) :=
  (bodyCue_participants hw).trans (if_pos h)

end

/-- What the cue counter that a WCUE names has, and what the WCUE takes from it. -/
def cueThere (s : State) (x : Env) : Nat := (mapGet (x.group s).cues (x.f.b.toNat / 2 % 16) 0).toNat
def cueNeed (s : State) (x : Env) : Nat := opC s x 0 % 2 ^ 32

/-- The machine in which a WCUE has taken its amount. -/
def cueTaken (s : State) (x : Env) : State :=
  (s.modGroup x.grp (fun gr =>
    { gr with cues := mapPut gr.cues (x.f.b.toNat / 2 % 16) (BitVec.ofNat 32 (cueThere s x - cueNeed s x)) })).modCtx x.key
      (fun c => { c with cueWait := none })

/-- The machine in which a WCUE waits for its amount. -/
def cueAwaited (s : State) (x : Env) : State :=
  s.modCtx x.key (fun c => { c with cueWait := some (x.f.b.toNat / 2 % 16, cueNeed s x) })

theorem bodyWcue_eq (x : Env) (s : State) :
    bodyWcue x s = if cueNeed s x ≤ cueThere s x then plain (cueTaken s x) else .parkIn .cue (cueAwaited s x) := by
  simp only [bodyWcue, bits_four_one]
  rfl

/-! ## WAITM (R243) -/

theorem settle_isSome (s : State) (x : Env) (ls : List (Loc × Nat)) (j : Nat) :
    ((settle s x ls).1.stroke? j).isSome = (s.stroke? j).isSome ∧ ((settle s x ls).1.ctx? j).isSome = (s.ctx? j).isSome := by
  unfold settle
  split
  · exact drain_isSome ..
  · exact ⟨rfl, rfl⟩

/-- The condition of a code as a relation of two values. -/
theorem Cond.holds_ofCode {n : Nat} {a b : Int} : (Cond.ofCode n).holds a b = true ↔ match n with
    | 0 => a = b
    | 1 => a ≠ b
    | 2 => a < b
    | 3 => a ≤ b
    | 4 => a > b
    | _ => a ≥ b := by
  match n with
  | 0 | 1 | 2 | 3 | 4 | _ + 5 => exact decide_eq_true_iff

/-- The lane whose address and value a WAITM reads, and the access that it makes. -/
def waitLane (x : Env) : Nat := (lowest x.act).getD 0
def waitWant (x : Env) : Want :=
  { space := spaceOf x.f, spaces := [.U, .C, .D, .G], size := x.ty.size, align := x.ty.size, acc := .load }

/-- The machine and the FIFO in which a WAITM reads the word at a place. -/
def waitSees (la : Landing) (s : State) (x : Env) : State × List FifoEntry := settle s x [(la.loc, x.ty.size)]

/-- Does the condition of a WAITM hold of the word at a place? -/
def waitHolds (la : Landing) (s : State) (x : Env) : Bool :=
  (Cond.ofCode x.f.m.toNat).holds (x.ty.ext (bytesNat (loadBytes (waitSees la s x).1 (waitSees la s x).2 la.loc x.ty.size)))
    (x.ty.ext (opC s x (waitLane x)))

/-- The park of a WAITM on the word at a place. -/
def waitPark (la : Landing) (s : State) (x : Env) : Park :=
  .waitm la.loc (8 * x.ty.size) x.ty.signed (Cond.ofCode x.f.m.toNat) (BitVec.ofNat 64 (opC s x (waitLane x))) x.path x.len

section
variable {s : State} {x : Env} {la : Landing}
  (hr : checkAll s (x.who s) (waitWant x) [(waitLane x, opA s x (waitLane x))] = .ok [(waitLane x, la)])
include hr

/-- What a WAITM answers whose word is at a place. -/
theorem bodyWaitm_reaches : bodyWaitm x s =
    if absentLines s la.loc x.ty.size ≠ [] then .park (.presence x.core (absentLines s la.loc x.ty.size))
    else if (waitSees la s x).1.mem.anyPoison la.loc x.ty.size = true then .trap cPOISON x.act 0 0 0
    else if waitHolds la s x = true then plain (waitSees la s x).1 else .parkIn (waitPark la s x) (waitSees la s x).1 := by
  unfold waitLane waitWant at hr
  simp only [bodyWaitm, hr, List.head?_cons, Bool.not_eq_true', List.isEmpty_eq_false_iff]
  rfl

theorem bodyWaitm_absent (ha : absentLines s la.loc x.ty.size ≠ []) :
    bodyWaitm x s = .park (.presence x.core (absentLines s la.loc x.ty.size)) :=
  (bodyWaitm_reaches hr).trans (if_pos ha)

variable (ha : absentLines s la.loc x.ty.size = [])
include ha

theorem bodyWaitm_poisoned (hp : (waitSees la s x).1.mem.anyPoison la.loc x.ty.size ≠ false) :
    bodyWaitm x s = .trap cPOISON x.act 0 0 0 := by
  rw [bodyWaitm_reaches hr, if_neg (not_not.2 ha), if_pos (Bool.eq_true_of_not_eq_false hp)]

variable (hp : (waitSees la s x).1.mem.anyPoison la.loc x.ty.size = false)
include hp

theorem bodyWaitm_goes_on (hc : waitHolds la s x = true) : bodyWaitm x s = plain (waitSees la s x).1 := by
  rw [bodyWaitm_reaches hr, if_neg (not_not.2 ha), if_neg (Bool.eq_false_iff.1 hp), if_pos hc]

theorem bodyWaitm_parks (hc : ¬ waitHolds la s x = true) : bodyWaitm x s = .parkIn (waitPark la s x) (waitSees la s x).1 := by
  rw [bodyWaitm_reaches hr, if_neg (not_not.2 ha), if_neg (Bool.eq_false_iff.1 hp), if_neg hc]

end

end Sys2Proof.Machine
end

section
/-!
PROOFS. The statement on the baton, cue counters and waits on memory words (O24).
-/
open Sys2Proof Sys2Proof.Machine

/-- Settles O24, instruction by instruction from what its meaning answers in each case; whom a free baton goes to is the first request
that its rotation meets (nextRequest_first). -/
theorem batonCuesAndMemoryWaits : Obligations.BatonCuesAndMemoryWaits := by
  unfold Obligations.BatonCuesAndMemoryWaits
  refine ⟨⟨fun f => ?takeHeld, fun f => ?takeGranted, fun f => ?takeParks, fun f => ?gives, fun f => ?giveTraps, ?granted, ?unchanged⟩,
    ⟨fun f => ?cueAdds, fun f => ?cueWaits, fun f => ?cueTaken, fun f => ?cueAwaited⟩,
    ⟨fun f la => ?goesOn, fun f la => ?parks, fun f la => ?absent, fun f la => ?poisoned⟩⟩
  case takeHeld => exact does_of_plain (quiet_btake f) (fun _ => rfl) (fun _ _ h => bodyBtake_holder h) (fun _ _ _ hl => hl)
  case takeGranted =>
    exact does_of_plain (quiet_btake f) (fun _ => rfl) (fun _ _ ⟨h, hg⟩ => bodyBtake_granted h hg)
      (fun _ _ _ hl => hl.of_isSome (batonGrant_isSome _ _))
  case takeParks => exact parksIn_of_parkIn (quiet_btake f).issued (fun _ => rfl) (fun _ _ ⟨h, hg⟩ => bodyBtake_parks h hg)
  case gives =>
    exact does_of_plain (quiet_bgive f) (fun _ => rfl) (fun _ _ h => bodyBgive_holder h)
      (fun _ _ _ hl => hl.of_isSome (batonGrant_isSome _ _))
  case giveTraps => exact traps_of_trap (quiet_bgive f).issued (fun _ => rfl) (fun _ _ h => ⟨0, 0, 0, bodyBgive_other h⟩)
  case granted =>
    intro s c i hb hi _ hon hoff
    have hcore := congrArg (State.core · c) (batonGrant_free hb (nextRequest_first hi hon hoff))
    simp only [batonResume_core, State.modCore_core_self] at hcore
    simp only [hcore, true_and]
    exact fun j hj => getLsbD_andNot_twoPow _ _ hj
  case unchanged =>
    rintro s c (h | h)
    · exact batonGrant_held h
    · exact batonGrant_unasked (by rw [h]; exact nextRequest_zero _)
  case cueAdds =>
    exact does_of_plain (quiet_cue f) (fun _ => rfl) (fun _ _ h => bodyCue_adds h) (fun _ _ x hl => cueAdded_lives x hl)
  case cueWaits => exact parksIn_of_parkIn (quiet_cue f).issued (fun _ => rfl) (fun _ _ ⟨hw, h⟩ => bodyCue_waits hw h)
  case cueTaken =>
    exact does_of_plain (quiet_wcue f) (fun _ => rfl) (fun s x h => (bodyWcue_eq x s).trans (if_pos h))
      (fun _ _ _ hl => Lives.modCtx hl _ _)
  case cueAwaited =>
    exact parksIn_of_parkIn (quiet_wcue f).issued (fun _ => rfl) (fun s x h => (bodyWcue_eq x s).trans (if_neg (Nat.not_le.2 h)))
  case goesOn =>
    exact does_of_plain (quiet_waitm f) (fun _ => rfl)
      (fun _ _ ⟨hr, ha, hp, hc⟩ => bodyWaitm_goes_on hr ha hp (Cond.holds_ofCode.2 hc)) (fun _ _ _ hl => hl.of_isSome (settle_isSome _ _ _))
  case parks =>
    exact parksIn_of_parkIn (quiet_waitm f).issued (fun _ => rfl)
      (fun _ _ ⟨hr, ha, hp, hc⟩ => bodyWaitm_parks hr ha hp (fun h => hc (Cond.holds_ofCode.1 h)))
  case absent => exact parks_of_park (quiet_waitm f).issued (fun _ => rfl) (fun _ _ ⟨hr, ha⟩ => bodyWaitm_absent hr ha)
  case poisoned =>
    exact traps_of_trap (quiet_waitm f).issued (fun _ => rfl) (fun _ _ ⟨hr, ha, hp⟩ => ⟨0, 0, 0, bodyWaitm_poisoned hr ha hp⟩)
end

section
/-!
SUPPORT. Integers read in a type and written in its registers (R113): what is read is the value of the type's range that is congruent to
what was written.
-/
namespace Sys2Proof.Machine

theorem Ty.bits_le_regs (t : Ty) : t.bits ≤ 32 * t.regs := by cases t <;> decide

/-- A power of two is twice the one before it. -/
theorem Ty.two_pow_bits (t : Ty) : (2 : Int) ^ t.bits = 2 * 2 ^ (t.bits - 1) := by
  rw [← pow_succ', Nat.sub_add_cancel (by cases t <;> decide)]

theorem dvd_wrap_sub (w : Nat) (z : Int) : (2 : Int) ^ w ∣ (wrap w z : Int) - z := by
  rw [wrap, Int.toNat_of_nonneg (Int.emod_nonneg _ (by positivity)), Nat.cast_pow, Nat.cast_ofNat]
  exact (Int.mod_modEq z _).symm.dvd

theorem wrap_lt (w : Nat) (z : Int) : wrap w z < 2 ^ w := by
  have h := Int.emod_lt_of_pos z (b := ((2 ^ w : Nat) : Int)) (by positivity)
  have h0 := Int.emod_nonneg z (b := ((2 ^ w : Nat) : Int)) (by positivity)
  unfold wrap; omega

/-- Reading in a type changes nothing modulo 2^w. -/
theorem Ty.dvd_ext_sub (t : Ty) (x : Nat) : (2 : Int) ^ t.bits ∣ t.ext x - x := by
  have h : (2 : Int) ^ t.bits ∣ ((x % 2 ^ t.bits : Nat) : Int) - x := by
    rw [Int.natCast_mod, Nat.cast_pow, Nat.cast_ofNat]
    exact (Int.mod_modEq (x : Int) _).symm.dvd
  unfold Ty.ext sext
  dsimp only
  split <;> [split; skip]
  · rw [sub_right_comm, Nat.cast_pow, Nat.cast_ofNat]
    exact h.sub dvd_rfl
  · exact h
  · exact h

/-- What is read in a type lies in its range. -/
theorem Ty.ext_in_range (t : Ty) (x : Nat) : t.least ≤ t.ext x ∧ t.ext x ≤ t.greatest := by
  have hb := t.two_pow_bits
  have hx : x % 2 ^ t.bits < 2 ^ t.bits := Nat.mod_lt _ (by positivity)
  have hx' : ((x % 2 ^ t.bits : Nat) : Int) < 2 ^ t.bits := by exact_mod_cast hx
  unfold Ty.ext sext Ty.least Ty.greatest
  simp only [Nat.cast_pow, Nat.cast_ofNat]
  split <;> [split; skip]
  · rename_i h
    have h' : (2 : Int) ^ (t.bits - 1) ≤ ((x % 2 ^ t.bits : Nat) : Int) := by exact_mod_cast h
    omega
  · rename_i h
    have h' : ((x % 2 ^ t.bits : Nat) : Int) < (2 : Int) ^ (t.bits - 1) := by exact_mod_cast not_le.1 h
    omega
  · omega

/-- A type has one value for each residue modulo 2^w. -/
theorem Ty.eq_of_dvd_sub {t : Ty} {u v : Int} (hu : t.least ≤ u ∧ u ≤ t.greatest) (hv : t.least ≤ v ∧ v ≤ t.greatest)
    (h : (2 : Int) ^ t.bits ∣ u - v) : u = v := by
  have hb := t.two_pow_bits
  have hspan : t.greatest - t.least < 2 ^ t.bits := by
    unfold Ty.least Ty.greatest
    simp only [Nat.cast_pow, Nat.cast_ofNat]
    split <;> omega
  exact sub_eq_zero.1 (Int.eq_zero_of_abs_lt_dvd h (abs_lt.2 ⟨by omega, by omega⟩))

/-- A value written in a type's registers reads back as the value of the type's range that is congruent to it. -/
theorem Ty.dvd_ext_widen_sub (t : Ty) (z : Int) : (2 : Int) ^ t.bits ∣ t.ext (t.widen z) - z := by
  have hregs : (2 : Int) ^ t.bits ∣ 2 ^ (32 * t.regs) := pow_dvd_pow 2 t.bits_le_regs
  have h1 := t.dvd_ext_sub (t.widen z)
  have h2 := hregs.trans (dvd_wrap_sub (32 * t.regs) (t.ext (wrap t.bits z)))
  have h3 := t.dvd_ext_sub (wrap t.bits z)
  have h4 := dvd_wrap_sub t.bits z
  have hsum := ((h1.add h2).add h3).add h4
  simpa [Ty.widen] using hsum

/-- A value of the type's range reads back as itself. -/
theorem Ty.ext_widen_of_range {t : Ty} {z : Int} (h : t.least ≤ z ∧ z ≤ t.greatest) : t.ext (t.widen z) = z :=
  Ty.eq_of_dvd_sub (t.ext_in_range _) h (t.dvd_ext_widen_sub z)

/-- The bits above the type are those of the value as read in it. -/
theorem Ty.widen_emod (t : Ty) (z : Int) : (t.widen z : Int) % 2 ^ (32 * t.regs) = t.ext (t.widen z) % 2 ^ (32 * t.regs) := by
  have hread : t.ext (t.widen z) = t.ext (wrap t.bits z) := by
    refine Ty.eq_of_dvd_sub (t.ext_in_range _) (t.ext_in_range _) ?_
    have hsum := (t.dvd_ext_widen_sub z).sub ((t.dvd_ext_sub (wrap t.bits z)).add (dvd_wrap_sub t.bits z))
    simpa using hsum
  rw [hread]
  exact (Int.modEq_iff_dvd.2 (dvd_wrap_sub (32 * t.regs) (t.ext (wrap t.bits z)))).symm

theorem Ty.clamp_in_range (t : Ty) (z : Int) :
    t.least ≤ clampInt t.least t.greatest z ∧ clampInt t.least t.greatest z ≤ t.greatest := by
  have hr := t.ext_in_range 0
  unfold clampInt; omega

end Sys2Proof.Machine
end

section
/-!
PROOFS. The statement on range handling (O2).
-/
open Sys2Proof Sys2Proof.Machine

/-- Settles O2: what is written reads back as the value of the range congruent to it; with SAT that value is the clamped one itself. -/
theorem rangeHandlingClampsOrWraps : Obligations.RangeHandlingClampsOrWraps := by
  unfold Obligations.RangeHandlingClampsOrWraps
  intro t _ sat z
  refine ⟨(t.ext_in_range _).1, (t.ext_in_range _).2, ?_, wrap_lt _ _, t.widen_emod _⟩
  cases sat with
  | false => exact t.dvd_ext_widen_sub z
  | true =>
    have hclamp : t.ext (t.fit true z) = clampInt t.least t.greatest z := Ty.ext_widen_of_range (t.clamp_in_range z)
    have hr := t.ext_in_range 0
    rw [if_pos rfl, hclamp]
    unfold clampInt; omega
end

section
/-!
SUPPORT. Rounding to a whole number of steps (R120): what rounding by a mode means, and that the model's shift rounds so.
-/
namespace Sys2Proof.Machine

/-- y is what x is rounded to by a mode, as far as the candidate w goes; even tells whether the code of y is even (R120). The magnitudes are
those of a number of the sign given. -/
def RoundedTo (r : Rnd) (neg : Bool) (x y w : ℚ) (even : Prop) : Prop :=
  match r with
  | .rne => |x - y| ≤ |x - w| ∧ (|x - y| = |x - w| → w ≠ y → even)
  | .rna => |x - y| ≤ |x - w| ∧ (|x - y| = |x - w| → w ≤ y)
  | .rtz => y ≤ x ∧ (w ≤ x → w ≤ y)
  | .rup => if neg then y ≤ x ∧ (w ≤ x → w ≤ y) else x ≤ y ∧ (x ≤ w → y ≤ w)
  | .rdn => if neg then x ≤ y ∧ (x ≤ w → y ≤ w) else y ≤ x ∧ (w ≤ x → w ≤ y)

/-- Does a mode send a value that lies the part f above a step to the next step? A value midway goes to the even one of the two, or away from
zero (R120). -/
def RoundsUp (r : Rnd) (neg : Bool) (f : ℚ) (odd : Prop) : Prop :=
  match r with
  | .rne => 1 / 2 < f ∨ f = 1 / 2 ∧ odd
  | .rna => 1 / 2 ≤ f
  | .rtz => False
  | .rup => neg = false
  | .rdn => neg = true

/-- The same of a quotient q with remainder rem by d, as the model decides it. -/
def takesUp (r : Rnd) (neg : Bool) (q rem d : Nat) : Bool :=
  match r with
  | .rne => decide (d < 2 * rem) || (decide (2 * rem = d) && decide (q % 2 = 1))
  | .rna => decide (d < 2 * rem) || decide (2 * rem = d)
  | .rtz => false
  | .rup => !neg
  | .rdn => neg

/-- n / d rounded to a whole number by a mode. -/
def roundDiv (r : Rnd) (neg : Bool) (n d : Nat) : Nat :=
  if n % d ≠ 0 ∧ takesUp r neg (n / d) (n % d) d = true then n / d + 1 else n / d

/-! ## Candidates -/

section
variable {r : Rnd} {neg : Bool} {x y w : ℚ} {even : Prop}

theorem roundedTo_self (r : Rnd) (neg : Bool) (x w : ℚ) (even : Prop) : RoundedTo r neg x x w even := by
  have hmiss (h : |x - x| = |x - w|) : w = x := by
    rw [sub_self, abs_zero, eq_comm, abs_eq_zero, sub_eq_zero] at h
    exact h.symm
  have hnear : |x - x| ≤ |x - w| := by simp
  cases r with
  | rne => exact ⟨hnear, fun h hw => absurd (hmiss h) hw⟩
  | rna => exact ⟨hnear, fun h => (hmiss h).le⟩
  | rtz => exact ⟨le_rfl, id⟩
  | rup => cases neg <;> exact ⟨le_rfl, id⟩
  | rdn => cases neg <;> exact ⟨le_rfl, id⟩

/-- Rounding is the same at every scale. -/
theorem RoundedTo.scale (h : RoundedTo r neg x y w even) {c : ℚ} (hc : 0 < c) : RoundedTo r neg (x * c) (y * c) (w * c) even := by
  have hdist (u v : ℚ) : |u * c - v * c| = |u - v| * c := by rw [← sub_mul, abs_mul, abs_of_pos hc]
  have hle (u v : ℚ) : u * c ≤ v * c ↔ u ≤ v := mul_le_mul_iff_left₀ hc
  have heq (u v : ℚ) : u * c = v * c ↔ u = v := mul_left_inj' hc.ne'
  cases r <;> simpa only [RoundedTo, hdist, hle, heq, ne_eq] using h

/-- A candidate below a whole step that lies below x counts less than that step. -/
theorem RoundedTo.of_below {v : ℚ} {e : Prop} (h : RoundedTo r neg x y w e) (hv : v < w) (hx : w ≤ x) (hy : w ≤ y) :
    RoundedTo r neg x y v even := by
  have hdist : |x - w| < |x - v| := by
    rw [abs_of_nonneg (sub_nonneg.2 hx), abs_of_pos (sub_pos.2 (hv.trans_le hx))]
    linarith
  have hup (h : x ≤ v) : y ≤ v := absurd (hv.trans_le hx) (not_lt.2 h)
  have hdown (_ : v ≤ x) : v ≤ y := (hv.trans_le hy).le
  cases r with
  | rne => exact ⟨h.1.trans hdist.le, fun he => absurd (h.1.trans_lt hdist) he.not_lt⟩
  | rna => exact ⟨h.1.trans hdist.le, fun he => absurd (h.1.trans_lt hdist) he.not_lt⟩
  | rtz => exact ⟨h.1, hdown⟩
  | rup => cases neg <;> [exact ⟨h.1, hup⟩; exact ⟨h.1, hdown⟩]
  | rdn => cases neg <;> [exact ⟨h.1, hdown⟩; exact ⟨h.1, hup⟩]

end

/-! ## Between two steps -/

section
variable {r : Rnd} {neg : Bool} {a f w : ℚ} {even odd : Prop}

/-- How far a step w is from a value f above the step a. -/
theorem dist_step_below (h0 : 0 < f) (h : w ≤ a) : |a + f - w| = a - w + f := by rw [abs_of_pos (by linarith)]; ring
theorem dist_step_above (h1 : f < 1) (h : a + 1 ≤ w) : |a + f - w| = w - (a + 1) + (1 - f) := by
  rw [abs_of_neg (by linarith)]; ring

variable (h0 : 0 < f) (h1 : f < 1) (hw : w ≤ a ∨ a + 1 ≤ w)
include h0 h1 hw

theorem roundedTo_step_below (h : ¬ RoundsUp r neg f odd) (he : ¬ odd → even) : RoundedTo r neg (a + f) a w even := by
  have hself : |a + f - a| = f := by rw [dist_step_below h0 le_rfl]; ring
  have hdown : a ≤ a + f ∧ (w ≤ a + f → w ≤ a) := ⟨by linarith, fun h => hw.resolve_right fun h' => by linarith⟩
  cases r with
  | rne =>
    obtain ⟨hf, hodd⟩ := not_or.1 h
    simp only [RoundedTo, hself]
    rcases hw with hw | hw
    · rw [dist_step_below h0 hw]
      exact ⟨by linarith, fun h hne => absurd (by linarith) hne⟩
    · rw [dist_step_above h1 hw]
      exact ⟨by linarith, fun h _ => he fun ho => hodd ⟨by linarith, ho⟩⟩
  | rna =>
    have hf : f < 1 / 2 := not_le.1 h
    simp only [RoundedTo, hself]
    rcases hw with hw | hw
    · rw [dist_step_below h0 hw]
      exact ⟨by linarith, fun _ => hw⟩
    · rw [dist_step_above h1 hw]
      exact ⟨by linarith, fun h => by linarith⟩
  | rtz => exact hdown
  | rup => cases neg <;> [exact absurd rfl h; exact hdown]
  | rdn => cases neg <;> [exact hdown; exact absurd rfl h]

theorem roundedTo_step_above (h : RoundsUp r neg f odd) (he : odd → even) : RoundedTo r neg (a + f) (a + 1) w even := by
  have hself : |a + f - (a + 1)| = 1 - f := by rw [dist_step_above h1 le_rfl]; ring
  have hup : a + f ≤ a + 1 ∧ (a + f ≤ w → a + 1 ≤ w) := ⟨by linarith, fun h => hw.resolve_left fun h' => by linarith⟩
  cases r with
  | rne =>
    have hf : 1 / 2 ≤ f := h.elim le_of_lt fun h => h.1.ge
    simp only [RoundedTo, hself]
    rcases hw with hw | hw
    · rw [dist_step_below h0 hw]
      exact ⟨by linarith, fun h' _ => he (h.resolve_left fun hf => by linarith).2⟩
    · rw [dist_step_above h1 hw]
      exact ⟨by linarith, fun h hne => absurd (by linarith) hne⟩
  | rna =>
    have hf : 1 / 2 ≤ f := h
    simp only [RoundedTo, hself]
    rcases hw with hw | hw
    · rw [dist_step_below h0 hw]
      exact ⟨by linarith, fun _ => by linarith⟩
    · rw [dist_step_above h1 hw]
      exact ⟨by linarith, fun h => by linarith⟩
  | rtz => exact h.elim
  | rup => cases neg <;> [exact hup; cases h]
  | rdn => cases neg <;> [cases h; exact hup]

end

/-! ## Quotients -/

section
variable (r : Rnd) (neg : Bool) {d : Nat} (hd : 0 < d)
include hd

theorem cast_div_eq_add (n : Nat) : (n : ℚ) / d = (n / d : Nat) + ((n % d : Nat) : ℚ) / d := by
  have hd' : (d : ℚ) ≠ 0 := by exact_mod_cast hd.ne'
  field_simp
  exact_mod_cast (Nat.div_add_mod n d).symm

theorem takesUp_iff (q rem : Nat) : takesUp r neg q rem d = true ↔ RoundsUp r neg ((rem : ℚ) / d) (q % 2 = 1) := by
  have hd' : (0 : ℚ) < d := by exact_mod_cast hd
  have hlt : 1 / 2 < (rem : ℚ) / d ↔ d < 2 * rem := by
    rw [lt_div_iff₀ hd', one_div_mul_eq_div, div_lt_iff₀ two_pos, mul_comm]; exact_mod_cast Iff.rfl
  have heq : (rem : ℚ) / d = 1 / 2 ↔ 2 * rem = d := by
    rw [div_eq_iff hd'.ne', one_div_mul_eq_div, eq_div_iff two_ne_zero, mul_comm]; exact_mod_cast Iff.rfl
  cases r with
  | rne => simp only [takesUp, RoundsUp, hlt, heq, Bool.or_eq_true, Bool.and_eq_true, decide_eq_true_eq]
  | rna => simp only [takesUp, RoundsUp, le_iff_lt_or_eq, eq_comm (a := (1 : ℚ) / 2), hlt, heq, Bool.or_eq_true, decide_eq_true_eq]
  | rtz => simp [takesUp, RoundsUp]
  | rup => simp [takesUp, RoundsUp]
  | rdn => simp [takesUp, RoundsUp]

/-- The model's quotient is the one that the mode rounds to among the whole numbers. -/
theorem roundedTo_roundDiv (n k : Nat) : RoundedTo r neg ((n : ℚ) / d) (roundDiv r neg n d) k (roundDiv r neg n d % 2 = 0) := by
  rw [cast_div_eq_add hd]
  by_cases hr : n % d = 0
  · rw [roundDiv, if_neg (fun h => h.1 hr), hr, Nat.cast_zero, zero_div, add_zero]
    exact roundedTo_self ..
  have h0 : 0 < ((n % d : Nat) : ℚ) / d := div_pos (by exact_mod_cast Nat.pos_of_ne_zero hr) (by exact_mod_cast hd)
  have h1 : ((n % d : Nat) : ℚ) / d < 1 := (div_lt_one (by exact_mod_cast hd)).2 (by exact_mod_cast Nat.mod_lt n hd)
  have hk : (k : ℚ) ≤ (n / d : Nat) ∨ ((n / d : Nat) : ℚ) + 1 ≤ k := by
    exact_mod_cast (Nat.lt_or_ge k (n / d + 1)).imp_left Nat.le_of_lt_succ
  have hiff := takesUp_iff r neg hd (n / d) (n % d)
  by_cases hup : takesUp r neg (n / d) (n % d) d = true
  · rw [roundDiv, if_pos ⟨hr, hup⟩, Nat.cast_succ]
    exact roundedTo_step_above h0 h1 hk (hiff.1 hup) (by omega)
  · rw [roundDiv, if_neg (fun h => hup h.2)]
    exact roundedTo_step_below h0 h1 hk (fun h => hup (hiff.2 h)) (by omega)

theorem le_roundDiv {n k : Nat} (h : k * d ≤ n) : k ≤ roundDiv r neg n d := by
  have := (Nat.le_div_iff_mul_le hd).2 h
  unfold roundDiv; split <;> omega

theorem roundDiv_le {n k : Nat} (h : n ≤ k * d) : roundDiv r neg n d ≤ k := by
  have hq : n / d ≤ k := by rw [← Nat.mul_div_cancel k hd]; exact Nat.div_le_div_right h
  unfold roundDiv; split
  · rename_i hr
    refine lt_of_le_of_ne hq fun he => hr.1 ?_
    have := Nat.div_add_mod n d
    rw [he, mul_comm] at this; omega
  · exact hq

omit hd in
/-- A quotient is exact if there is no remainder. -/
theorem roundDiv_mul_eq_iff (n : Nat) : roundDiv r neg n d * d = n ↔ n % d = 0 := by
  refine ⟨fun h => h ▸ Nat.mul_mod_left .., fun h => ?_⟩
  rw [roundDiv, if_neg (fun h' => h'.1 h), Nat.div_mul_cancel (Nat.dvd_of_mod_eq_zero h)]

end

/-- The model's shift rounds the quotient by the power of two; where the quotient is far below one half, it decides so without one. -/
theorem roundShift_eq (r : Rnd) (neg : Bool) (m sh : Nat) :
    roundShift r neg m sh = (roundDiv r neg m (2 ^ sh), decide (m % 2 ^ sh ≠ 0)) := by
  rcases Nat.eq_zero_or_pos m with rfl | hm
  · simp [roundShift, roundDiv]
  rcases Nat.eq_zero_or_pos sh with rfl | hs
  · simp [roundShift, roundDiv, hm.ne', Nat.mod_one]
  have hpow : 2 ^ sh = 2 * 2 ^ (sh - 1) := by rw [← pow_succ', Nat.sub_add_cancel hs]
  have hfar (h : m.log2 + 2 ≤ sh) : m < 2 ^ (sh - 1) :=
    Nat.lt_log2_self.trans_le (Nat.pow_le_pow_right two_pos (by omega))
  unfold roundShift roundDiv
  rw [if_neg hm.ne', if_neg hs.ne', Nat.shiftRight_eq_div_pow]
  by_cases hf : m.log2 + 2 ≤ sh
  · have hlt := hfar hf
    have hq : m / 2 ^ sh = 0 := Nat.div_eq_of_lt (by omega)
    have hr : m % 2 ^ sh = m := Nat.mod_eq_of_lt (by omega)
    have h1 : ¬ 2 ^ sh < 2 * m := by omega
    have h2 : 2 * m ≠ 2 ^ sh := by omega
    cases r <;> simp [hf, hq, hr, takesUp, hm.ne', h1, h2]
  · have h1 : 2 ^ sh < 2 * (m % 2 ^ sh) ↔ 2 ^ (sh - 1) < m % 2 ^ sh := by omega
    have h2 : 2 * (m % 2 ^ sh) = 2 ^ sh ↔ m % 2 ^ sh = 2 ^ (sh - 1) := by omega
    by_cases hr : m % 2 ^ sh = 0
    · simp [hf, hr]
    · cases r <;> simp [hf, hr, takesUp, h1, h2]

/-! ## Steps of a power of two -/

/-- m × 2^e rounded by a mode to a whole number of steps 2^q, and whether that was inexact, as the model writes it. -/
def roundAt (r : Rnd) (neg : Bool) (m : Nat) (e q : Int) : Nat × Bool :=
  if q ≤ e then (m <<< (e - q).toNat, false) else roundShift r neg m (q - e).toNat

section
variable (r : Rnd) (neg : Bool) (m : Nat) (e q : Int)

/-- The value in steps is a fraction n / d whose quotient is rounded. -/
theorem roundAt_eq : ∃ n d : Nat, 0 < d ∧ (m : ℚ) * 2 ^ e = (n : ℚ) / d * 2 ^ q ∧
    roundAt r neg m e q = (roundDiv r neg n d, decide (n % d ≠ 0)) := by
  unfold roundAt
  split
  · rename_i h
    refine ⟨m <<< (e - q).toNat, 1, one_pos, ?_, by simp [roundDiv, Nat.mod_one]⟩
    rw [Nat.shiftLeft_eq, Nat.cast_one, div_one, Nat.cast_mul, Nat.cast_pow, Nat.cast_ofNat, mul_assoc, ← zpow_natCast,
      ← zpow_add₀ two_ne_zero]
    congr 2; omega
  · rename_i h
    refine ⟨m, 2 ^ (q - e).toNat, by positivity, ?_, roundShift_eq ..⟩
    rw [Nat.cast_pow, Nat.cast_ofNat, ← zpow_natCast, div_mul_eq_mul_div, mul_div_assoc, ← zpow_sub₀ two_ne_zero]
    congr 2; omega

theorem roundedTo_roundAt (k : Nat) : RoundedTo r neg (m * 2 ^ e) ((roundAt r neg m e q).1 * 2 ^ q) (k * 2 ^ q)
    ((roundAt r neg m e q).1 % 2 = 0) := by
  obtain ⟨n, d, hd, hx, hR⟩ := roundAt_eq r neg m e q
  rw [hx, hR]
  exact (roundedTo_roundDiv r neg hd n k).scale (by positivity)

theorem roundAt_exact_iff : (roundAt r neg m e q).2 = false ↔ ((roundAt r neg m e q).1 : ℚ) * 2 ^ q = m * 2 ^ e := by
  obtain ⟨n, d, hd, hx, hR⟩ := roundAt_eq r neg m e q
  have hd' : (d : ℚ) ≠ 0 := by exact_mod_cast hd.ne'
  simp only [hx, hR, decide_eq_false_iff_not, not_not]
  rw [← roundDiv_mul_eq_iff r neg n, mul_left_inj' (by positivity), eq_div_iff hd']
  exact_mod_cast Iff.rfl

theorem le_roundAt {k : Nat} (h : (k : ℚ) * 2 ^ q ≤ m * 2 ^ e) : k ≤ (roundAt r neg m e q).1 := by
  obtain ⟨n, d, hd, hx, hR⟩ := roundAt_eq r neg m e q
  rw [hx, mul_le_mul_iff_left₀ (by positivity), le_div_iff₀ (by exact_mod_cast hd)] at h
  rw [hR]
  exact le_roundDiv r neg hd (by exact_mod_cast h)

theorem roundAt_le {k : Nat} (h : (m : ℚ) * 2 ^ e ≤ k * 2 ^ q) : (roundAt r neg m e q).1 ≤ k := by
  obtain ⟨n, d, hd, hx, hR⟩ := roundAt_eq r neg m e q
  rw [hx, mul_le_mul_iff_left₀ (by positivity), div_le_iff₀ (by exact_mod_cast hd)] at h
  rw [hR]
  exact roundDiv_le r neg hd (by exact_mod_cast h)

/-- What the rounding drops is a whole number of the value's own steps. -/
theorem roundAt_dropped : ∃ k : Int, (m : ℚ) * 2 ^ e - (roundAt r neg m e q).1 * 2 ^ q = k * 2 ^ e := by
  by_cases h : q ≤ e
  · refine ⟨0, ?_⟩
    have hexact : (roundAt r neg m e q).2 = false := by rw [roundAt, if_pos h]
    rw [(roundAt_exact_iff ..).1 hexact]; simp
  · refine ⟨m - (roundAt r neg m e q).1 * 2 ^ (q - e).toNat, ?_⟩
    have hq : (2 : ℚ) ^ q = 2 ^ (q - e).toNat * 2 ^ e := by
      rw [← zpow_natCast, ← zpow_add₀ two_ne_zero]; congr 1; omega
    rw [hq]; push_cast; ring

end

end Sys2Proof.Machine
end

section
/-!
SUPPORT. The codes of a format without the sign (R115): the values that they stand for, in order.
-/
namespace Sys2Proof.Machine

/-- The significand that a code without its sign stands for, and its exponent (R115). -/
def Fmt.signif (t : Fmt) (c : Nat) : Nat := if c / 2 ^ t.fb = 0 then c % 2 ^ t.fb else 2 ^ t.fb + c % 2 ^ t.fb
def Fmt.expo (t : Fmt) (c : Nat) : Int := max ((c / 2 ^ t.fb : Nat) - (t.bias : Int)) t.emin - t.fb

/-- The magnitude that a code without its sign stands for. Beyond the largest finite code it is the one that the exponent would give. -/
def Fmt.mag (t : Fmt) (c : Nat) : ℚ := t.signif c * 2 ^ t.expo c

theorem Fmt.largest_lt (t : Fmt) : t.largest < 2 ^ t.top := by cases t <;> decide

/-- The code of a number of steps 2^q, the step of the exponent that it has or of the subnormals. -/
def Fmt.code (t : Fmt) (q : Int) (n : Nat) : Nat :=
  if n < 2 ^ t.fb then n else ((q + t.fb + t.bias).toNat <<< t.fb) + (n - 2 ^ t.fb)

section
variable (t : Fmt)

/-- The code of a subnormal counts its steps; so does that of the smallest normal. -/
theorem Fmt.mag_of_le {c : Nat} (h : c ≤ 2 ^ t.fb) : t.mag c = c * 2 ^ (t.emin - t.fb) := by
  have hpow : 0 < 2 ^ t.fb := by positivity
  unfold mag signif expo
  obtain h | rfl := h.lt_or_eq
  · rw [Nat.div_eq_of_lt h, if_pos rfl, Nat.mod_eq_of_lt h, max_eq_right (by unfold emin; omega)]
  · rw [Nat.div_self hpow, if_neg one_ne_zero, Nat.mod_self, max_eq_left (by unfold emin; omega), add_zero]; rfl

/-- A code with a nonzero exponent x counts the steps of that exponent, up to the code at which the next exponent starts. -/
theorem Fmt.mag_of_fields {x f : Nat} (hx : x ≠ 0) (hf : f ≤ 2 ^ t.fb) :
    t.mag (x * 2 ^ t.fb + f) = (2 ^ t.fb + f : Nat) * 2 ^ ((x : Int) - t.bias - t.fb) := by
  have hpow : 0 < 2 ^ t.fb := by positivity
  have hnormal {y : Nat} (hy : y ≠ 0) {g : Nat} (hg : g < 2 ^ t.fb) :
      t.mag (y * 2 ^ t.fb + g) = (2 ^ t.fb + g : Nat) * 2 ^ ((y : Int) - t.bias - t.fb) := by
    have hdiv : (y * 2 ^ t.fb + g) / 2 ^ t.fb = y := by rw [mul_comm, Nat.mul_add_div hpow, Nat.div_eq_of_lt hg, add_zero]
    have hmod : (y * 2 ^ t.fb + g) % 2 ^ t.fb = g := by rw [mul_comm, Nat.mul_add_mod, Nat.mod_eq_of_lt hg]
    rw [mag, signif, expo, hdiv, hmod, if_neg hy, max_eq_left (by unfold emin; omega)]
  obtain hf | rfl := hf.lt_or_eq
  · exact hnormal hx hf
  · have h := hnormal x.succ_ne_zero hpow
    have hexp : ((x.succ : Nat) : Int) - t.bias - t.fb = (x : Int) - t.bias - t.fb + 1 := by omega
    rw [hexp, zpow_add_one₀ two_ne_zero, add_zero, Nat.succ_mul, add_zero] at h
    rw [h]; push_cast; ring

/-- A code is a fraction of the subnormals, or an exponent and a fraction. -/
theorem Fmt.code_cases (c : Nat) : c < 2 ^ t.fb ∨ ∃ x f, x ≠ 0 ∧ f < 2 ^ t.fb ∧ c = x * 2 ^ t.fb + f := by
  by_cases h : c / 2 ^ t.fb = 0
  · exact .inl ((Nat.div_eq_zero_iff.1 h).resolve_left (by positivity))
  · exact .inr ⟨c / 2 ^ t.fb, c % 2 ^ t.fb, h, Nat.mod_lt _ (by positivity), by rw [mul_comm]; exact (Nat.div_add_mod ..).symm⟩

/-- A greater code stands for a greater value. -/
theorem Fmt.mag_strictMono : StrictMono t.mag := by
  refine strictMono_nat_of_lt_succ fun c => ?_
  obtain h | ⟨x, f, hx, hf, rfl⟩ := t.code_cases c
  · rw [t.mag_of_le h.le, t.mag_of_le h]; gcongr; omega
  · rw [t.mag_of_fields hx hf.le, add_assoc, t.mag_of_fields hx hf]; gcongr; omega

theorem Fmt.mag_zero : t.mag 0 = 0 := by simp [t.mag_of_le (Nat.zero_le _)]

variable {t} {q : Int} (hq : t.emin - t.fb ≤ q)
include hq

/-- Every value of the format is a whole number of steps 2^q, or lies below the values whose step that is. -/
theorem Fmt.mag_on_grid (c : Nat) : (∃ k : Nat, t.mag c = k * 2 ^ q) ∨ t.emin - t.fb < q ∧ t.mag c < (2 ^ t.fb : Nat) * 2 ^ q := by
  have hgrid {n : Nat} {e : Int} (h : q ≤ e) : ∃ k : Nat, (n : ℚ) * 2 ^ e = k * 2 ^ q := by
    refine ⟨n * 2 ^ (e - q).toNat, ?_⟩
    rw [Nat.cast_mul, Nat.cast_pow, Nat.cast_ofNat, mul_assoc, ← zpow_natCast, ← zpow_add₀ two_ne_zero]
    congr 2; omega
  obtain h | ⟨x, f, hx, hf, rfl⟩ := t.code_cases c
  · rw [t.mag_of_le h.le]
    obtain he | he := hq.eq_or_lt
    · exact .inl (hgrid he.ge)
    · refine .inr ⟨he, ?_⟩
      gcongr
      norm_num
  · rw [t.mag_of_fields hx hf.le]
    obtain he | he := le_or_gt q ((x : Int) - t.bias - t.fb)
    · exact .inl (hgrid he)
    · refine .inr ⟨lt_of_le_of_lt (by unfold emin; omega) he, ?_⟩
      calc ((2 ^ t.fb + f : Nat) : ℚ) * 2 ^ ((x : Int) - t.bias - t.fb)
          < (2 ^ t.fb + 2 ^ t.fb : Nat) * 2 ^ ((x : Int) - t.bias - t.fb) := by gcongr
        _ = (2 ^ t.fb : Nat) * 2 ^ ((x : Int) - t.bias - t.fb + 1) := by
          rw [zpow_add_one₀ two_ne_zero]; push_cast; ring
        _ ≤ (2 ^ t.fb : Nat) * 2 ^ q := by gcongr <;> [norm_num; omega]

variable {n : Nat} (hn : n ≤ 2 ^ (t.fb + 1)) (hsub : n < 2 ^ t.fb → q = t.emin - t.fb)
include hn hsub

theorem Fmt.mag_code : t.mag (t.code q n) = n * 2 ^ q := by
  unfold code
  split
  · rename_i h
    rw [t.mag_of_le h.le, hsub h]
  · rename_i h
    have hx : ((q + t.fb + t.bias).toNat : Int) = q + t.fb + t.bias := Int.toNat_of_nonneg (by unfold emin at hq; omega)
    rw [Nat.shiftLeft_eq, t.mag_of_fields (by unfold emin at hq; omega) (by omega), hx]
    congr 2 <;> [omega; ring]

end

/-- A code is even if its number of steps is. -/
theorem Fmt.code_mod_two (t : Fmt) (q : Int) (n : Nat) : t.code q n % 2 = n % 2 := by
  have hpow : 2 ^ t.fb = 2 * 2 ^ (t.fb - 1) := by cases t <;> rfl
  unfold code
  split
  · rfl
  · rw [Nat.shiftLeft_eq, hpow, mul_left_comm, Nat.mul_add_mod]; omega

/-! ## The value of a code with its sign -/

section
variable (t : Fmt) (x : Nat)

theorem Fmt.exponent_field : bits x (t.top - 1) t.fb = x % 2 ^ t.top / 2 ^ t.fb := by
  have htop : t.top - 1 + 1 - t.fb = t.eb := by cases t <;> rfl
  rw [bits, htop, Nat.shiftRight_eq_div_pow, top, add_comm, pow_add, Nat.mod_mul_right_div_self]

theorem Fmt.fraction_field : x % 2 ^ t.fb = x % 2 ^ t.top % 2 ^ t.fb :=
  (Nat.mod_mod_of_dvd x (pow_dvd_pow 2 (Nat.le_add_left ..))).symm

/-- The codes beyond the largest one are the infinities and the NaNs, where the format has any. -/
theorem Fmt.le_largest_iff : x % 2 ^ t.top ≤ t.largest ↔
    ¬ (t = .e4m3 ∧ x % 128 = 127) ∧ ¬ (t.hasInf = true ∧ x % 2 ^ t.top / 2 ^ t.fb = 2 ^ t.eb - 1) := by
  cases t <;> simp [top, eb, fb, largest, hasInf] <;> omega

variable {t x}

/-- A code whose magnitude is at most the largest one is finite, and stands for that magnitude with its sign. -/
theorem unpack_of_le_largest (h : x % 2 ^ t.top ≤ t.largest) :
    unpack t x = .fin (bit x t.top) (t.signif (x % 2 ^ t.top)) (t.expo (x % 2 ^ t.top)) := by
  obtain ⟨h1, h2⟩ := (t.le_largest_iff x).1 h
  unfold unpack Fmt.signif Fmt.expo
  rw [t.exponent_field, t.fraction_field, if_neg h1, if_neg h2]
  split
  · rename_i h0
    rw [h0, max_eq_right (by unfold Fmt.emin; omega)]
  · generalize x % 2 ^ t.top / 2 ^ t.fb = y at *
    rw [max_eq_left (by unfold Fmt.emin; omega)]

theorem le_largest_of_unpack {n : Bool} {m : Nat} {e : Int} (h : unpack t x = .fin n m e) : x % 2 ^ t.top ≤ t.largest := by
  refine (t.le_largest_iff x).2 ⟨fun h1 => ?_, fun h2 => ?_⟩
  · rw [unpack, if_pos h1] at h; cases h
  · rw [← t.exponent_field] at h2
    unfold unpack at h
    simp only [h2, and_self, if_true] at h
    repeat' split at h
    all_goals cases h

theorem unpack_magnitude (h : x ≤ t.largest) : (unpack t x).rat = t.mag x := by
  have hx := h.trans_lt t.largest_lt
  have hmod : x % 2 ^ t.top = x := Nat.mod_eq_of_lt hx
  have hbit : bit x t.top = false := Nat.testBit_lt_two_pow hx
  rw [unpack_of_le_largest (hmod.symm ▸ h), hmod, hbit, Num.rat, Fmt.mag]
  simp

end

end Sys2Proof.Machine
end

section
/-!
SUPPORT. What packing writes for a finite value (R120): the code of the value rounded to the step of its exponent.
-/
namespace Sys2Proof.Machine

/-- The exponent of the step that m × 2^e is rounded to in a format: that of its leading bit, or of the subnormals. -/
def Fmt.step (t : Fmt) (m : Nat) (e : Int) : Int := max (e + m.log2) t.emin - t.fb

/-- m × 2^e rounded to that step, and whether that was inexact. -/
def Fmt.rounded (t : Fmt) (r : Rnd) (neg : Bool) (m : Nat) (e : Int) : Nat × Bool := roundAt r neg m e (t.step m e)

/-- The code of the rounded value, without its sign. -/
def Fmt.roundedCode (t : Fmt) (r : Rnd) (neg : Bool) (m : Nat) (e : Int) : Nat := t.code (t.step m e) (t.rounded r neg m e).1

theorem signBit_eq (t : Fmt) (neg : Bool) : signBit t neg = 2 ^ t.top * neg.toNat := by cases neg <;> simp [signBit]

/-- A sign and a magnitude are read back from their code. -/
theorem signBit_fields {t : Fmt} {c : Nat} (neg : Bool) (h : c < 2 ^ t.top) :
    (signBit t neg + c) / 2 ^ t.top = neg.toNat ∧ (signBit t neg + c) % 2 ^ t.top = c ∧ bit (signBit t neg + c) t.top = neg := by
  have hdiv : (signBit t neg + c) / 2 ^ t.top = neg.toNat := by
    rw [signBit_eq, Nat.mul_add_div (by positivity), Nat.div_eq_of_lt h, add_zero]
  refine ⟨hdiv, by rw [signBit_eq, Nat.mul_add_mod, Nat.mod_eq_of_lt h], ?_⟩
  rw [bit, Nat.testBit_eq_decide_div_mod_eq, hdiv]
  cases neg <;> rfl

/-- Is the value tiny once it is rounded with the exponent unbounded (R117)? -/
def Fmt.tiny (t : Fmt) (r : Rnd) (neg : Bool) (m : Nat) (e : Int) : Bool :=
  let free := if m.log2 ≤ t.fb then m else (roundShift r neg m (m.log2 - t.fb)).1
  decide ((if 2 ^ (t.fb + 1) ≤ free then e + m.log2 + 1 else e + m.log2) < t.emin)

/-- The flags of a value that does not overflow. -/
def roundingFlags (tiny inexact : Bool) : Flags := (if inexact then flagNX else 0) ||| (if tiny && inexact then flagUF else 0)

theorem signBit_add_mod_two (t : Fmt) (neg : Bool) (c : Nat) : (signBit t neg + c) % 2 = c % 2 := by
  have htop : 2 ^ t.top = 2 * 2 ^ (t.top - 1) := by cases t <;> rfl
  rw [signBit_eq, htop, mul_assoc, Nat.mul_add_mod]

theorem roundingFlags_of (tiny inexact : Bool) :
    roundingFlags tiny inexact &&& flagOF = 0 ∧ (roundingFlags tiny inexact &&& flagNX = 0 ↔ inexact = false) := by
  cases tiny <;> cases inexact <;> decide

section
variable (t : Fmt) (r : Rnd) (sat : Bool) (nbv : Nat) (neg : Bool) {m : Nat} (hm : m ≠ 0) (e : Int)
include hm

theorem packFin_eq : packFin t r sat nbv false neg m e =
    if (t.bias : Int) + 1 < e + m.log2 ∨ t.largest < t.roundedCode r neg m e then (overflow t r sat nbv neg, flagOF ||| flagNX)
    else (signBit t neg + t.roundedCode r neg m e, roundingFlags (t.tiny r neg m e) (t.rounded r neg m e).2) := by
  unfold packFin
  rw [if_neg hm, ite_or]
  rfl

end

/-- What is written if OF is not raised: the rounded value's code, with NX if it is inexact. -/
structure Written (t : Fmt) (r : Rnd) (neg : Bool) (m : Nat) (e : Int) (z : Nat × Flags) : Prop where
  code  : z.1 = signBit t neg + t.roundedCode r neg m e
  le    : t.roundedCode r neg m e ≤ t.largest
  exact_iff : z.2 &&& flagNX = 0 ↔ (t.rounded r neg m e).2 = false

section
variable {t : Fmt} {r : Rnd} {sat : Bool} {nbv : Nat} {neg : Bool} {m : Nat} {e : Int} (hm : m ≠ 0)
include hm

theorem packFin_written (h : (packFin t r sat nbv false neg m e).2 &&& flagOF = 0) :
    Written t r neg m e (packFin t r sat nbv false neg m e) := by
  rw [packFin_eq t r sat nbv neg hm] at h ⊢
  split at h
  · exact absurd h (show ¬ (flagOF ||| flagNX) &&& flagOF = 0 by decide)
  · rename_i hno
    rw [if_neg hno]
    exact ⟨rfl, not_lt.1 (not_or.1 hno).2, (roundingFlags_of ..).2⟩

/-- The leading bit of a number. -/
theorem two_pow_log2_le : (2 : ℚ) ^ (e + m.log2) ≤ m * 2 ^ e := by
  rw [add_comm, zpow_add₀ two_ne_zero, zpow_natCast]
  gcongr
  exact_mod_cast Nat.log2_self_le hm

omit hm in
theorem lt_two_pow_log2 : (m : ℚ) * 2 ^ e < 2 ^ (e + m.log2 + 1) := by
  rw [add_right_comm, add_assoc, add_comm, zpow_add₀ two_ne_zero, add_comm, zpow_add_one₀ two_ne_zero, zpow_natCast]
  gcongr
  exact_mod_cast Nat.lt_log2_self

omit hm in
theorem Fmt.emin_le_step : t.emin - t.fb ≤ t.step m e := by unfold step; omega

omit hm in
/-- The rounded value has at most the steps of its exponent. -/
theorem Fmt.rounded_le : (t.rounded r neg m e).1 ≤ 2 ^ (t.fb + 1) := by
  refine roundAt_le r neg m e _ ?_
  have hstep : e + m.log2 + 1 ≤ ((t.fb + 1 : Nat) : Int) + t.step m e := by unfold step; omega
  calc (m : ℚ) * 2 ^ e ≤ 2 ^ (e + m.log2 + 1) := lt_two_pow_log2.le
    _ ≤ 2 ^ (((t.fb + 1 : Nat) : Int) + t.step m e) := zpow_le_zpow_right₀ one_le_two hstep
    _ = (2 ^ (t.fb + 1) : Nat) * 2 ^ t.step m e := by
      rw [zpow_add₀ two_ne_zero, zpow_natCast, Nat.cast_pow, Nat.cast_ofNat]

/-- Above the subnormals it has at least the steps of its leading bit. -/
theorem Fmt.leading_step (h : t.emin - t.fb < t.step m e) : ((2 ^ t.fb : Nat) : ℚ) * 2 ^ t.step m e ≤ m * 2 ^ e := by
  have hstep : e + m.log2 = t.fb + t.step m e := by unfold step at h ⊢; omega
  rw [Nat.cast_pow, Nat.cast_ofNat, ← zpow_natCast, ← zpow_add₀ two_ne_zero, ← hstep]
  exact two_pow_log2_le hm

theorem Fmt.step_of_rounded_lt (h : (t.rounded r neg m e).1 < 2 ^ t.fb) : t.step m e = t.emin - t.fb := by
  by_contra hne
  exact absurd (le_roundAt r neg m e _ (leading_step hm (lt_of_le_of_ne emin_le_step (Ne.symm hne)))) (not_le.2 h)

/-- The code written stands for the rounded value. -/
theorem Fmt.mag_roundedCode : t.mag (t.roundedCode r neg m e) = (t.rounded r neg m e).1 * 2 ^ t.step m e :=
  mag_code emin_le_step rounded_le (step_of_rounded_lt hm)

/-- It is the value of the format that the mode rounds to. -/
theorem Fmt.roundedTo_mag (c : Nat) :
    RoundedTo r neg (m * 2 ^ e) (t.mag (t.roundedCode r neg m e)) (t.mag c) (t.roundedCode r neg m e % 2 = 0) := by
  rw [mag_roundedCode hm, roundedCode, code_mod_two]
  obtain ⟨k, hk⟩ | ⟨hstep, hlt⟩ := mag_on_grid (t := t) (emin_le_step (m := m) (e := e)) c
  · rw [hk]
    exact roundedTo_roundAt ..
  · have hlead := leading_step hm hstep
    have hfb := le_roundAt r neg m e _ hlead
    refine (roundedTo_roundAt r neg m e (t.step m e) (2 ^ t.fb)).of_below hlt hlead ?_
    exact mul_le_mul_of_nonneg_right (by exact_mod_cast hfb) (by positivity)

theorem Fmt.rounded_exact_iff : (t.rounded r neg m e).2 = false ↔ t.mag (t.roundedCode r neg m e) = m * 2 ^ e := by
  rw [mag_roundedCode hm]
  exact roundAt_exact_iff ..

end

end Sys2Proof.Machine
end

section
/-!
PROOFS. The statement on rounding (O10).
-/
open Sys2Proof Sys2Proof.Machine

/-- Settles O10: the code written counts the steps that the mode rounds to (Fmt.roundedTo_mag), and every value of the format is a whole number
of them or lies below the leading bit (Fmt.mag_on_grid). -/
theorem roundingIsNearest : Obligations.RoundingIsNearest := by
  unfold Obligations.RoundingIsNearest
  intro t r neg m e hm z x v y hOF
  obtain ⟨hcode, hle, hNX⟩ := packFin_written hm hOF
  obtain ⟨hsign, hmag, -⟩ := signBit_fields neg (hle.trans_lt t.largest_lt)
  rw [← hcode] at hsign hmag
  have hx : x = m * 2 ^ e := by simp [x, Num.rat]
  have hy : y = t.mag (t.roundedCode r neg m e) := by
    show (unpack t (z.1 % 2 ^ t.top)).rat = _
    rw [hmag, unpack_magnitude hle]
  refine ⟨?_, hmag ▸ hle, ?_, fun c hc => ?_⟩
  · rw [hsign]; cases neg <;> rfl
  · rw [hNX, Fmt.rounded_exact_iff hm, hx, hy]
  · have hodd : z.1 % 2 = t.roundedCode r neg m e % 2 := by rw [hcode, signBit_add_mod_two]
    have h := Fmt.roundedTo_mag (t := t) (r := r) (neg := neg) (e := e) hm c
    rw [← hodd, ← hx, ← hy, ← unpack_magnitude hc] at h
    cases r <;> exact h
end

section
/-!
SUPPORT. Values that a format has are packed exactly (R120), sums of finite terms are exact (R118), and so is what error feedback keeps (R121).
-/
namespace Sys2Proof.Machine

/-! ## Finite codes (R115) -/

theorem Fmt.signif_lt (t : Fmt) (c : Nat) : t.signif c < 2 ^ (t.fb + 1) := by
  have h : c % 2 ^ t.fb < 2 ^ t.fb := Nat.mod_lt _ (by positivity)
  unfold signif; split <;> omega

theorem Fmt.le_expo (t : Fmt) (c : Nat) : t.emin - t.fb ≤ t.expo c := by unfold expo; omega

/-- What a finite code stands for has few enough bits for its format, and is in its range. -/
theorem representable_of_unpack {t : Fmt} {x m : Nat} {n : Bool} {e : Int} (h : unpack t x = .fin n m e) :
    m < 2 ^ (t.fb + 1) ∧ t.emin - t.fb ≤ e ∧ (m : ℚ) * 2 ^ e ≤ t.mag t.largest := by
  have hle := le_largest_of_unpack h
  cases (unpack_of_le_largest hle).symm.trans h
  exact ⟨t.signif_lt _, t.le_expo _, t.mag_strictMono.monotone hle⟩

/-- The value of a finite magnitude with a sign. -/
theorem rat_unpack_signed {t : Fmt} {c : Nat} (neg : Bool) (h : c ≤ t.largest) :
    (unpack t (signBit t neg + c)).rat = (if neg then -1 else 1) * t.mag c := by
  obtain ⟨-, hmag, hbit⟩ := signBit_fields neg (h.trans_lt t.largest_lt)
  rw [unpack_of_le_largest (hmag.symm ▸ h), hmag, hbit, Num.rat, Fmt.mag, mul_assoc]

/-! ## Exact packing (R120) -/

theorem Fmt.largest_lt_fields (t : Fmt) : t.largest < (2 * t.bias + 2) * 2 ^ t.fb := by cases t <;> decide

/-- No finite code stands for 2^(bias + 2) or more. -/
theorem Fmt.mag_largest_lt (t : Fmt) : t.mag t.largest < 2 ^ ((t.bias : Int) + 2) := by
  have h := t.mag_strictMono t.largest_lt_fields
  rw [← add_zero ((2 * t.bias + 2) * 2 ^ t.fb), t.mag_of_fields (by omega) (Nat.zero_le _), add_zero, Nat.cast_pow, Nat.cast_ofNat,
    ← zpow_natCast, ← zpow_add₀ two_ne_zero] at h
  refine h.trans_eq (congrArg _ ?_)
  push_cast; ring

section
variable {t : Fmt} (r : Rnd) (sat : Bool) (nbv : Nat) (neg : Bool) {m k : Nat} {e d : Int} (hk : k < 2 ^ (t.fb + 1))
  (hd : t.emin - t.fb ≤ d) (hval : (m : ℚ) * 2 ^ e = k * 2 ^ d)
include hk hd hval

/-- A value with few enough bits is a whole number of the steps that it is rounded to. -/
theorem Fmt.rounded_exact (hm : m ≠ 0) : (t.rounded r neg m e).2 = false := by
  have hbits : e + m.log2 < d + (t.fb + 1) := by
    have hlt : (2 : ℚ) ^ (e + m.log2) < 2 ^ (d + (t.fb + 1)) := by
      calc (2 : ℚ) ^ (e + m.log2) ≤ k * 2 ^ d := hval ▸ two_pow_log2_le hm
        _ < (2 ^ (t.fb + 1) : Nat) * 2 ^ d := by gcongr
        _ = 2 ^ (d + (t.fb + 1)) := by
          rw [add_comm d, zpow_add₀ two_ne_zero, Nat.cast_pow, Nat.cast_ofNat, ← zpow_natCast]; rfl
    exact (zpow_lt_zpow_iff_right₀ one_lt_two).1 hlt
  have hstep : t.step m e ≤ d := by unfold step; omega
  have hgrid : (m : ℚ) * 2 ^ e = (k * 2 ^ (d - t.step m e).toNat : Nat) * 2 ^ t.step m e := by
    rw [hval, Nat.cast_mul, Nat.cast_pow, Nat.cast_ofNat, mul_assoc, ← zpow_natCast, ← zpow_add₀ two_ne_zero]
    congr 2; omega
  rw [rounded, roundAt_exact_iff, hgrid, mul_left_inj' (by positivity), Nat.cast_inj]
  exact le_antisymm (roundAt_le r neg m e _ hgrid.le) (le_roundAt r neg m e _ hgrid.ge)

/-- A value of the format is written as it is. -/
theorem rat_packFin_of_representable (hle : (m : ℚ) * 2 ^ e ≤ t.mag t.largest) :
    (unpack t (packFin t r sat nbv false neg m e).1).rat = (Num.fin neg m e).rat := by
  by_cases hm : m = 0
  · rw [packFin, if_pos hm, hm, ← add_zero (signBit t neg), rat_unpack_signed neg (Nat.zero_le _), t.mag_zero]
    simp [Num.rat]
  have hexact := (Fmt.rounded_exact_iff hm).1 (t.rounded_exact r neg hk hd hval hm)
  have hcode : t.roundedCode r neg m e ≤ t.largest := t.mag_strictMono.le_iff_le.1 (hexact ▸ hle)
  have htop : e + m.log2 < (t.bias : Int) + 2 :=
    (zpow_lt_zpow_iff_right₀ one_lt_two).1 (((two_pow_log2_le hm).trans hle).trans_lt t.mag_largest_lt)
  rw [packFin_eq t r sat nbv neg hm, if_neg (by omega), rat_unpack_signed neg hcode, hexact, Num.rat, mul_assoc]

end

/-! ## Exact sums of finite terms (R118) -/

/-- The value of a term of a sum. -/
def termRat (t : Bool × Nat × Int) : ℚ := (Num.fin t.1 t.2.1 t.2.2).rat

/-- The least exponent of the terms of a sum. -/
def leastExponent (ts : List (Bool × Nat × Int)) : Int :=
  ts.foldl (fun e t => min e t.2.2) (match ts with | [] => 0 | t :: _ => t.2.2)

/-- A whole number of steps 2^e with a term added. -/
def addTerm (e z : Int) (t : Bool × Nat × Int) : Int :=
  if t.1 then z - (t.2.1 <<< (t.2.2 - e).toNat : Nat) else z + (t.2.1 <<< (t.2.2 - e).toNat : Nat)

/-- The terms of a sum in steps of their least exponent. -/
def totalSteps (ts : List (Bool × Nat × Int)) : Int := ts.foldl (addTerm (leastExponent ts)) 0

theorem sumFin_cases (r : Rnd) (ts : List (Bool × Nat × Int)) : ∃ neg, sumFin r ts =
    if totalSteps ts = 0 then .fin neg 0 0
    else .fin (decide (totalSteps ts < 0)) (totalSteps ts).natAbs (leastExponent ts) := ⟨_, rfl⟩

theorem leastExponent_le (ts : List (Bool × Nat × Int)) : ∀ t ∈ ts, leastExponent ts ≤ t.2.2 := by
  have hfold (us : List (Bool × Nat × Int)) (e : Int) : us.foldl (fun e t => min e t.2.2) e ≤ e ∧
      ∀ t ∈ us, us.foldl (fun e t => min e t.2.2) e ≤ t.2.2 := by
    induction us generalizing e with
    | nil => simp
    | cons t us ih =>
      obtain ⟨h1, h2⟩ := ih (min e t.2.2)
      exact ⟨h1.trans (min_le_left ..), List.forall_mem_cons.2 ⟨h1.trans (min_le_right ..), h2⟩⟩
  exact (hfold ts _).2

theorem addTerm_rat {e : Int} {t : Bool × Nat × Int} (h : e ≤ t.2.2) (z : Int) :
    (addTerm e z t : ℚ) * 2 ^ e = z * 2 ^ e + termRat t := by
  have hterm : ((t.2.1 <<< (t.2.2 - e).toNat : Nat) : ℚ) * 2 ^ e = t.2.1 * 2 ^ t.2.2 := by
    rw [Nat.shiftLeft_eq, Nat.cast_mul, Nat.cast_pow, Nat.cast_ofNat, mul_assoc, ← zpow_natCast, ← zpow_add₀ two_ne_zero]
    congr 2; omega
  rw [termRat, Num.rat, addTerm]
  split
  · rw [Int.cast_sub, Int.cast_natCast, sub_mul, hterm]; ring
  · rw [Int.cast_add, Int.cast_natCast, add_mul, hterm]; ring

theorem foldl_addTerm_rat {e : Int} {ts : List (Bool × Nat × Int)} (h : ∀ t ∈ ts, e ≤ t.2.2) (z : Int) :
    ((ts.foldl (addTerm e) z : Int) : ℚ) * 2 ^ e = z * 2 ^ e + (ts.map termRat).sum := by
  induction ts generalizing z with
  | nil => simp
  | cons t ts ih =>
    obtain ⟨ht, hts⟩ := List.forall_mem_cons.1 h
    rw [List.foldl_cons, ih hts, addTerm_rat ht, List.map_cons, List.sum_cons, add_assoc]

/-- The sum of finite terms is finite and exact. -/
theorem sumFin_exact (r : Rnd) (ts : List (Bool × Nat × Int)) :
    ∃ n m e, sumFin r ts = .fin n m e ∧ (Num.fin n m e).rat = (ts.map termRat).sum := by
  have hsum := foldl_addTerm_rat (leastExponent_le ts) 0
  rw [Int.cast_zero, zero_mul, zero_add] at hsum
  obtain ⟨neg, h⟩ := sumFin_cases r ts
  rw [h, ← hsum]
  change ∃ n m e, _ ∧ _ = (totalSteps ts : ℚ) * _
  split
  · rename_i hz
    exact ⟨_, _, _, rfl, by simp [Num.rat, hz]⟩
  · refine ⟨_, _, _, rfl, ?_⟩
    rw [Num.rat, Nat.cast_natAbs, Int.cast_abs]
    congr 1
    rcases lt_or_ge (totalSteps ts) 0 with hz | hz
    · have hz' : (totalSteps ts : ℚ) < 0 := by exact_mod_cast hz
      simp [hz, abs_of_neg hz']
    · have hz' : (0 : ℚ) ≤ totalSteps ts := by exact_mod_cast hz
      simp [not_lt.2 hz, abs_of_nonneg hz']

/-- The difference of two finite numbers is finite and exact, and raises no flag. -/
theorem sumN_sub (r : Rnd) (n n' : Bool) (m m' : Nat) (e e' : Int) : ∃ a b d, sumN r [.fin n m e, .fin (!n') m' e'] = (.fin a b d, 0) ∧
    (Num.fin a b d).rat = (Num.fin n m e).rat - (Num.fin n' m' e').rat := by
  obtain ⟨a, b, d, hsum, hrat⟩ := sumFin_exact r [(n, m, e), (!n', m', e')]
  refine ⟨a, b, d, ?_, ?_⟩
  · simpa [sumN, Num.isNan, Num.signals] using hsum
  · rw [hrat]
    cases n' <;> simp [termRat, Num.rat, sub_eq_add_neg]

/-! ## What rounding drops (R121) -/

section
variable {t : Fmt} {sat : Bool} {nbv : Nat} {neg : Bool} {m : Nat} {e : Int}

/-- Rounding to nearest drops a whole number of the value's own steps, and no more of them than the value has. -/
theorem pack_drops (h : (packFin t .rne sat nbv false neg m e).2 &&& flagOF = 0) : ∃ k : Nat, k ≤ m ∧
    |(Num.fin neg m e).rat - (unpack t (packFin t .rne sat nbv false neg m e).1).rat| = k * 2 ^ e := by
  by_cases hm : m = 0
  · refine ⟨0, Nat.zero_le _, ?_⟩
    rw [packFin, if_pos hm, hm, ← add_zero (signBit t neg), rat_unpack_signed neg (Nat.zero_le _), t.mag_zero]
    simp [Num.rat]
  obtain ⟨hcode, hle, -⟩ := packFin_written hm h
  have hsign : |(Num.fin neg m e).rat - (unpack t (packFin t .rne sat nbv false neg m e).1).rat| =
      |m * 2 ^ e - t.mag (t.roundedCode .rne neg m e)| := by
    rw [hcode, rat_unpack_signed neg hle, Num.rat, mul_assoc, ← mul_sub, abs_mul]
    cases neg <;> simp
  have hnear := (Fmt.roundedTo_mag (t := t) (r := .rne) (neg := neg) (e := e) hm 0).1
  obtain ⟨j, hj⟩ := roundAt_dropped .rne neg m e (t.step m e)
  have hdrop : |m * 2 ^ e - t.mag (t.roundedCode .rne neg m e)| = (j.natAbs : ℚ) * 2 ^ e := by
    rw [Fmt.mag_roundedCode hm, Fmt.rounded, hj, abs_mul, Nat.cast_natAbs, Int.cast_abs, abs_of_pos (a := (2 : ℚ) ^ e) (by positivity)]
  rw [hdrop, t.mag_zero, sub_zero, abs_of_nonneg (by positivity), mul_le_mul_iff_left₀ (by positivity)] at hnear
  exact ⟨j.natAbs, by exact_mod_cast hnear, hsign.trans hdrop⟩

end

theorem abs_rat_fin (n : Bool) (m : Nat) (e : Int) : |(Num.fin n m e).rat| = m * 2 ^ e := by
  rw [Num.rat, mul_assoc, abs_mul, abs_of_nonneg (a := (m : ℚ) * 2 ^ e) (by positivity)]
  cases n <;> simp

theorem fin_of_finite {t : Fmt} {x : Nat} (h : notFinite t x = false) : ∃ n m e, unpack t x = .fin n m e := by
  unfold notFinite at h
  split at h
  · exact ⟨_, _, _, ‹_›⟩
  · cases h

/-- What rounding to nearest drops of a value of a format is a value of that format, so that the difference is written as it is. -/
theorem rat_finish_drop {u t : Fmt} {x m m' : Nat} {n n' : Bool} {e e' : Int} {sat : Bool} {nbv : Nat} (hx : unpack u x = .fin n m e)
    (hof : (packFin t .rne sat nbv false n m e).2 &&& flagOF = 0)
    (hy : unpack t (packFin t .rne sat nbv false n m e).1 = .fin n' m' e') :
    (unpack u (finish u .rne false false (sumN .rne [.fin n m e, .fin (!n') m' e'])).1).rat =
      (Num.fin n m e).rat - (Num.fin n' m' e').rat := by
  obtain ⟨hm, he, hle⟩ := representable_of_unpack hx
  obtain ⟨k, hk, hdrop⟩ := pack_drops hof
  obtain ⟨a, b, d, hsum, hrat⟩ := sumN_sub .rne n n' m m' e e'
  have hval : (b : ℚ) * 2 ^ d = k * 2 ^ e := by rw [← abs_rat_fin a, hrat, ← hy, hdrop]
  have hsmall : (b : ℚ) * 2 ^ d ≤ u.mag u.largest := by
    rw [hval]
    exact (mul_le_mul_of_nonneg_right (by exact_mod_cast hk) (by positivity)).trans hle
  rw [hsum, ← hrat]
  exact rat_packFin_of_representable .rne false 2 a (hk.trans_lt hm) he hval hsmall

/-! ## Error feedback (R121) -/

section
variable (t : Fmt) (sat : Bool) (nbv a e : Nat)

/-- The source and its residue added up in f32, the first step of error feedback (R121). -/
def efSum (a e : Nat) : Nat × Flags := finish .f32 .rne false false (sumN .rne [unpack .f32 a, unpack .f32 e])

/-- That sum rounded to the destination's format, the second step. -/
def efResult : Nat × Flags := cvtFloat .f32 t .rne sat nbv (efSum a e).1

theorem efRound_result : (efRound t sat nbv a e).1 = (efResult t sat nbv a e).1 := rfl
theorem efRound_flags : (efRound t sat nbv a e).2.2 = (efSum a e).2 ||| (efResult t sat nbv a e).2 := rfl

variable {t sat nbv a e}

/-- No residue is kept of a result that is not finite or that overflows. -/
theorem efRound_drops_all (h : notFinite t (efResult t sat nbv a e).1 = true ∨ notFinite .f32 (efSum a e).1 = true ∨
    (efResult t sat nbv a e).2 &&& flagOF ≠ 0) : (efRound t sat nbv a e).2.1 = 0 := by
  refine if_pos ?_
  simp only [Bool.or_eq_true, bne_iff_ne]
  exact h.imp_right Or.symm

/-- The residue of two finite numbers is their difference, written in f32. -/
theorem efRound_residue {n n' : Bool} {m m' : Nat} {d d' : Int} (hs : unpack .f32 (efSum a e).1 = .fin n m d)
    (hy : unpack t (efResult t sat nbv a e).1 = .fin n' m' d') (hof : (efResult t sat nbv a e).2 &&& flagOF = 0) :
    (efRound t sat nbv a e).2.1 = (finish .f32 .rne false false (sumN .rne [.fin n m d, .fin (!n') m' d'])).1 := by
  have hkept : (notFinite t (efResult t sat nbv a e).1 ||
      ((efResult t sat nbv a e).2 &&& flagOF != 0 || notFinite .f32 (efSum a e).1)) = false := by
    simp [notFinite, hs, hy, hof]
  unfold efResult efSum at *
  simp only [efRound, hkept, hs, hy, Bool.false_eq_true, if_false]

theorem efRound_keeps (hy : notFinite t (efResult t sat nbv a e).1 = false) (hs : notFinite .f32 (efSum a e).1 = false)
    (hof : (efResult t sat nbv a e).2 &&& flagOF = 0) : (unpack .f32 (efRound t sat nbv a e).2.1).rat =
      (unpack .f32 (efSum a e).1).rat - (unpack t (efResult t sat nbv a e).1).rat := by
  obtain ⟨n, m, d, hsum⟩ := fin_of_finite hs
  obtain ⟨n', m', d', hres⟩ := fin_of_finite hy
  have hpack : efResult t sat nbv a e = packFin t .rne sat nbv false n m d := by
    simp [efResult, cvtFloat, hsum, pack, Num.signals]
  rw [efRound_residue hsum hres hof, hsum, hres]
  rw [hpack] at hof hres
  exact rat_finish_drop hsum hof hres

end

/-! ## The lanes of CVT and PACK2 (R166, R167) -/

/-- The results of error feedback in a lane of CVT (R166), and for elements 0 and 1 in a lane of PACK2 (R167). -/
def cvtEf (s : State) (x : Env) (l : Nat) : Nat × Nat × Flags :=
  efRound x.ty.fmt x.satBit (x.nbv s) (opC s x l x.satBit % 2 ^ 32) (opA s x l)
def packEf0 (s : State) (x : Env) (l : Nat) : Nat × Nat × Flags :=
  efRound x.ty.fmt x.satBit (x.nbv s) (opA s x l) (x.regs.eGet (bits x.f.b.toNat 5 2) l).toNat
def packEf1 (s : State) (x : Env) (l : Nat) : Nat × Nat × Flags :=
  efRound x.ty.fmt x.satBit (x.nbv s) (opC s x l) (x.regs.eGet (bits x.f.b.toNat 5 2 + 1) l).toNat

section
variable {s : State} {x : Env} (hm : x.f.m = 5)
include hm

theorem bodyCvt_ef : bodyCvt x s = .commit
    { st := s
      writes := putD x (x.lanes.map (fun l => (l, (cvtEf s x l).1))) ++
        x.lanes.map (fun l => putE (Opnd.ofCode x.f.a).index l (cvtEf s x l).2.1)
      flags := x.lanes.map (fun l => (l, (cvtEf s x l).2.2)) } := by
  unfold bodyCvt
  rw [hm]
  simp [cvtEf, Function.comp_def]

theorem bodyPack2_ef : bodyPack2 x s = .commit
    { st := s
      writes := putD x (x.lanes.map (fun l => (l, (packEf0 s x l).1 + 2 ^ x.ty.bits * (packEf1 s x l).1))) ++
        x.lanes.flatMap (fun l => [putE (bits x.f.b.toNat 5 2) l (packEf0 s x l).2.1, putE (bits x.f.b.toNat 5 2 + 1) l (packEf1 s x l).2.1])
      flags := x.lanes.map (fun l => (l, (packEf0 s x l).2.2 ||| (packEf1 s x l).2.2)) } := by
  unfold bodyPack2
  rw [hm]
  simp [packEf0, packEf1, Function.comp_def, List.flatMap_map]

end

theorem flagsOf_active (x : Env) (g : Nat → Flags) :
    flagsOf (x.lanes.map (fun l => (l, g l))) = fun l => if x.act.getLsbD l then g l else 0 := by
  funext l
  rw [flagsOf_map x.lanes g l (lanesOf_nodup _)]
  exact if_congr (mem_lanesOf.trans (and_iff_right_of_imp BitVec.lt_of_getLsbD)) rfl rfl

end Sys2Proof.Machine
end

section
/-!
PROOFS. The statement on error feedback (O15).
-/
open Sys2Proof Sys2Proof.Machine

/-- Settles O15: CVT and PACK2 write what efRound answers in each lane; what rounding to nearest drops is a number of f32 again
(rat_finish_drop), so that the residue is exact. -/
theorem errorFeedbackKeepsTheResidue : Obligations.ErrorFeedbackKeepsTheResidue := by
  unfold Obligations.ErrorFeedbackKeepsTheResidue
  refine ⟨fun f => ?cvt, fun f => ?pack2, fun t sat nbv a e _ => ?residue⟩
  case cvt =>
    exact writes_of_commit (opc := 0x33) (fun _ => rfl) (by decide) (fun _ => rfl) fun s q hq _ hm =>
      ⟨issuedAs_lives hq, _, bodyCvt_ef hm, rfl, rfl, rfl, rfl, rfl, flagsOf_active _ _⟩
  case pack2 =>
    exact writes_of_commit (opc := 0x34) (fun _ => rfl) (by decide) (fun _ => rfl) fun s q hq _ hm =>
      ⟨issuedAs_lives hq, _, bodyPack2_ef hm, rfl, rfl, rfl, rfl, rfl, flagsOf_active _ _⟩
  case residue => exact ⟨efRound_result .., efRound_flags .., efRound_drops_all, efRound_keeps⟩
end

section
/-!
SUPPORT. What shared operations do to memory: most leave it alone, the others keep every memory's canonical form (log 4).
-/
namespace Sys2Proof.Machine

variable {s : State}

/-! ## Lists of updates -/

theorem foldl_mem {α : Type} {g : State → α → State} (h : ∀ s a, (g s a).mem = s.mem) (l : List α) (s : State) :
    (l.foldl g s).mem = s.mem := by
  induction l generalizing s with
  | nil => rfl
  | cons a l ih => exact (ih (g s a)).trans (h s a)

@[simp] theorem foldl_modStroke_mem {α : Type} (k : α → Nat) (g : α → Stroke → Stroke) (l : List α) (s : State) :
    (l.foldl (fun s a => s.modStroke (k a) (g a)) s).mem = s.mem :=
  foldl_mem (fun s a => State.modStroke_mem s (k a) (g a)) l s

theorem foldl_wf {α : Type} {g : State → α → State} (h : s.mem.wf = true) (hg : ∀ s a, s.mem.wf = true → (g s a).mem.wf = true)
    (l : List α) : (l.foldl g s).mem.wf = true := by
  induction l generalizing s with
  | nil => exact h
  | cons a l ih => exact ih (hg s a h)

/-! ## Marks, presence bits and accumulators -/

@[simp] theorem MemSys.setPoison_wf (m : MemSys) (k : Home) (i : Nat) (b : Bool) : (m.setPoison k i b).wf = m.wf := MemSys.wf_setPoison k i b
@[simp] theorem State.setPresent_wf (s : State) (k : Nat) (b : Bool) : (s.setPresent k b).mem.wf = s.mem.wf := rfl

/-! ## Streams -/

@[simp] theorem ringPut_wf (h : s.mem.wf = true) (g : Nat) (b : Binding) (off x : Nat) : (ringPut s g b off x).mem.wf = true := by
  unfold ringPut; split <;> simp [writeNat_wf, h]

@[simp] theorem ringFill_wf (h : s.mem.wf = true) (g : Nat) (b : Binding) (i : Nat) (ws : List Word) :
    (ringFill s g b i ws).mem.wf = true := by
  induction ws generalizing s i with
  | nil => exact h
  | cons w ws ih => exact ih (ringPut_wf h ..) _

@[simp] theorem ringAdvance_wf (h : s.mem.wf = true) (ring : Loc) (rs : List Resv) : (ringAdvance s ring rs).1.mem.wf = true := by
  induction rs generalizing s with
  | nil => exact h
  | cons r rs ih =>
    unfold ringAdvance
    split
    · split
      · split
        · exact ih (ringPut_wf (ringFill_wf h ..) ..)
        · exact ih h
      · exact h
    · exact ih h

@[simp] theorem State.advanceRing_wf (h : s.mem.wf = true) (ring : Loc) : (s.advanceRing ring).mem.wf = true := ringAdvance_wf h ..

@[simp] theorem resvReady_wf (h : s.mem.wf = true) (op : Nat) (vals : List Word) : (resvReady s op vals).mem.wf = true := by
  unfold resvReady; split <;> simp [h]

/-! ## Deliveries and store FIFOs -/

@[simp] theorem futureDone_mem (s : State) (op : Nat) (w : Word) : (futureDone s op w).mem = s.mem := rfl
@[simp] theorem deliver_mem (s : State) (k op : Nat) (ws : List WriteBack) : (deliver s k op ws).mem = s.mem := rfl

@[simp] theorem completeOp_wf (h : s.mem.wf = true) (k op : Nat) : (completeOp s k op).mem.wf = true := by
  unfold completeOp
  split
  · exact h
  · split <;> simp [h]

@[simp] theorem setFifo_mem (s : State) (a : AgentId) (q : List FifoEntry) : (setFifo s a q).mem = s.mem := by cases a <;> rfl

@[simp] theorem sendRemote_mem (s : State) (a : AgentId) (core : Nat) (ps : List (Nat × List Byte)) (part : Nat) (sent : Option Nat) :
    (sendRemote s a core ps part sent).mem = s.mem := by
  unfold sendRemote; split <;> simp

@[simp] theorem performEntry_wf (h : s.mem.wf = true) (a : AgentId) (e : FifoEntry) : (performEntry s a e).mem.wf = true := by
  cases a <;> cases e <;> simp [performEntry, writeBytes_wf, writeNat_wf, h] <;> split <;> simp [writeNat_wf, h]

@[simp] theorem drain_wf (h : s.mem.wf = true) (n : Nat) (a : AgentId) : (drain n s a).mem.wf = true := by
  induction n generalizing s with
  | zero => exact h
  | succ n ih =>
    unfold drain
    split
    · exact h
    · split <;> simp [ih, h]

@[simp] theorem drainFifo_wf (h : s.mem.wf = true) (a : AgentId) : (drainFifo s a).mem.wf = true := drain_wf h ..

/-! ## The share gate -/

@[simp] theorem gateLand_wf (h : s.mem.wf = true) (r : GateResult) : (gateLand s r).mem.wf = true := by
  unfold gateLand; dsimp only; split <;> simp [h]

theorem gateResult_wf (h : s.mem.wf = true) (r : GateResult) : (gateResult s r).mem.wf = true := by
  unfold gateResult; split <;> simp [h]

@[simp] theorem gateResults_wf (h : s.mem.wf = true) (rs : List GateResult) : (gateResults s rs).mem.wf = true :=
  foldl_wf h (fun _ r ht => gateResult_wf ht r) rs

@[simp] theorem dropRound_mem (s : State) (id : Nat) : (dropRound s id).mem = s.mem := rfl

@[simp] theorem abortRound_wf (h : s.mem.wf = true) (r : GateRound) : (abortRound s r).mem.wf = true := by simp [abortRound, h]

@[simp] theorem completeRound_wf (h : s.mem.wf = true) (r : GateRound) : (completeRound s r).mem.wf = true := by
  unfold completeRound
  split
  · exact h
  · dsimp only; split <;> simp [h]

theorem gateCheck_wf (h : s.mem.wf = true) (r : GateRound) : (gateCheck s r).mem.wf = true := by
  unfold gateCheck
  split
  · exact h
  · split
    · simp [h]
    · split <;> simp [h]

@[simp] theorem gateSweep_wf (h : s.mem.wf = true) : (gateSweep s).mem.wf = true :=
  foldl_wf h (fun _ _ ht => foldl_wf ht (fun _ r hu => gateCheck_wf hu r) _) _

@[simp] theorem forfeit_wf (h : s.mem.wf = true) (owes : List (Nat × Nat × Nat)) : (forfeit s owes).mem.wf = true := by
  unfold forfeit; dsimp only; split <;> simp [h]

@[simp] theorem gateKill_wf (h : s.mem.wf = true) (k : Nat) : (gateKill s k).mem.wf = true := forfeit_wf h _

/-! ## Barriers and the baton -/

@[simp] theorem barComplete_mem (s : State) (g b : Nat) (x : Bar) : (barComplete s g b x).mem = s.mem := by
  simp [barComplete]

@[simp] theorem barCheck_mem (s : State) (g b : Nat) : (barCheck s g b).mem = s.mem := by
  unfold barCheck
  extract_lets once
  have h (t : State) : (once t).mem = t.mem := by
    simp only [once]
    split
    · split <;> simp
    · rfl
  exact (h _).trans (h s)

@[simp] theorem barSweep_mem (s : State) (g : Nat) : (barSweep s g).mem = s.mem :=
  foldl_mem (fun s b => barCheck_mem s g b) ..

@[simp] theorem batonGrant_mem (s : State) (c : Nat) : (batonGrant s c).mem = s.mem := by
  unfold batonGrant
  dsimp only
  split
  · rfl
  · split <;> simp [batonResume]

/-! ## Retirement -/

@[simp] theorem dropGrants_mem (s : State) (g : Nat) : (dropGrants s g).mem = s.mem := rfl

@[simp] theorem scrubCore_wf (h : s.mem.wf = true) (core part : Nat) (gone : List Nat) : (scrubCore s core part gone).mem.wf = true := by
  obtain ⟨hu, hc, hd, hg, hh⟩ := MemSys.wf_iff.1 h
  exact MemSys.wf_iff.2 ⟨memWf_filter _ _ hu, hc, hd, hg, hh⟩

@[simp] theorem scrubGroup_wf (h : s.mem.wf = true) (g : Nat) : (scrubGroup s g).mem.wf = true := scrubCore_wf h ..

@[simp] theorem releaseGroup_wf (h : s.mem.wf = true) (g : Nat) : (releaseGroup s g).mem.wf = true := by
  unfold releaseGroup
  split
  · split
    · dsimp only; split <;> simp [h]
    · exact h
  · exact h

@[simp] theorem sweepReleased_wf (h : s.mem.wf = true) : (sweepReleased s).mem.wf = true :=
  foldl_wf h (fun _ e ht => releaseGroup_wf ht e.1) _

@[simp] theorem retireGroup_wf (h : s.mem.wf = true) (g : Nat) : (retireGroup s g).mem.wf = true := by
  unfold retireGroup
  split
  · dsimp only; split <;> split <;> simp [h]
  · exact h

@[simp] theorem retireStroke_wf (h : s.mem.wf = true) (k : Nat) : (retireStroke s k).mem.wf = true := by
  unfold retireStroke
  split
  · dsimp only; split <;> simp [h]
  · exact h

@[simp] theorem exitLanes_wf (h : s.mem.wf = true) (k : Nat) (m : Mask) : (exitLanes s k m).mem.wf = true := by simp [exitLanes, h]

@[simp] theorem sweepRetired_wf (h : s.mem.wf = true) : (sweepRetired s).mem.wf = true :=
  foldl_wf h (fun _ e ht => retireStroke_wf ht e.1) _

/-! ## Kills -/

@[simp] theorem spoilLaunch_mem (s : State) (g : Nat) : (spoilLaunch s g).mem = s.mem := by unfold spoilLaunch; split <;> simp
@[simp] theorem damage_mem (s : State) (g : Nat) : (damage s g).mem = s.mem := by simp [damage]
@[simp] theorem dropFaults_mem (s : State) (a : AgentId) : (dropFaults s a).mem = s.mem := rfl

@[simp] theorem killFinish_wf (h : s.mem.wf = true) (k : Nat) : (killFinish s k).mem.wf = true := by
  unfold killFinish
  split
  · split <;> simp [h]
  · exact h

@[simp] theorem killStroke_wf (h : s.mem.wf = true) (k : Nat) : (killStroke s k).mem.wf = true := by
  unfold killStroke
  split
  · split
    · exact h
    · exact sweepRetired_wf (killFinish_wf (by simp [h]) k)
  · exact h

@[simp] theorem killCtx_wf (h : s.mem.wf = true) (g : Nat) : (killCtx s g).mem.wf = true := by
  unfold killCtx
  split
  · split <;> simp [h]
  · exact h

@[simp] theorem killAgent_wf (h : s.mem.wf = true) (a : AgentId) : (killAgent s a).mem.wf = true := by cases a <;> simp [killAgent, h]

@[simp] theorem opOver_wf (h : s.mem.wf = true) (k op : Nat) (w : Word) : (opOver s k op w).mem.wf = true :=
  killFinish_wf (retireStroke_wf (by simp [h]) k) k

/-! ## Traps -/

@[simp] theorem countUp_mem (s : State) (part i n : Nat) : (countUp s part i n).mem = s.mem := rfl
@[simp] theorem enterHandler_mem (s : State) (k : Nat) (t : Trap) (base : Dword) : (enterHandler s k t base).mem = s.mem := rfl
@[simp] theorem tellFunction_mem (s : State) (r : FaultRec) : (tellFunction s r).mem = s.mem := rfl

@[simp] theorem sendFault_mem (s : State) (part core cause va access : Nat) (a : Option AgentId) (copy : Option Nat) :
    (sendFault s part core cause va access a copy).1.mem = s.mem := by
  unfold sendFault; split <;> simp

@[simp] theorem escalate_wf (h : s.mem.wf = true) (a : AgentId) (part cause : Nat) : (escalate s a part cause).mem.wf = true := by
  simp [escalate, h]

@[simp] theorem deliverTrap_wf (h : s.mem.wf = true) (k : Nat) : (deliverTrap s k).mem.wf = true := by
  unfold deliverTrap
  split
  · split
    · dsimp only; split <;> [skip; split] <;> simp [h]
    · exact h
  · exact h

@[simp] theorem takeTrap_wf (h : s.mem.wf = true) (a : AgentId) (t : Trap) (va acc : Nat) : (takeTrap s a t va acc).mem.wf = true := by
  unfold takeTrap
  split
  · split
    · dsimp only; split <;> [skip; split] <;> simp [h]
    · exact h
  · dsimp only; split <;> [skip; split] <;> simp [h]

@[simp] theorem trapAt_wf (h : s.mem.wf = true) (x : Env) (cause : Nat) (m : Mask) (code addr acc : Nat) :
    (trapAt s x cause m code addr acc).mem.wf = true := by simp [trapAt, h]

end Sys2Proof.Machine
end

section
/-!
SUPPORT. How an issue keeps every memory's canonical form: if the instruction's own meaning does, then the issue does.
-/
namespace Sys2Proof.Machine

variable {s t : State}

/-- The state that a verdict carries has every memory in canonical form. -/
def Verdict.wf : Verdict → Bool
  | .commit e => e.st.mem.wf
  | .parkIn _ t => t.mem.wf
  | .trap .. | .park _ | .hold => true

@[simp] theorem Verdict.wf_commit (e : Effect) : (Verdict.commit e).wf = e.st.mem.wf := rfl
@[simp] theorem Verdict.wf_parkIn (p : Park) (t : State) : (Verdict.parkIn p t).wf = t.mem.wf := rfl
@[simp] theorem Verdict.wf_trap (c : Nat) (m : Mask) (code addr acc : Nat) : (Verdict.trap c m code addr acc).wf = true := rfl
@[simp] theorem Verdict.wf_park (p : Park) : (Verdict.park p).wf = true := rfl
@[simp] theorem Verdict.wf_hold : Verdict.hold.wf = true := rfl

/-! ## Pushes and pops -/

@[simp] theorem Env.released_wf (h : s.mem.wf = true) (x : Env) : (x.released s).mem.wf = true := drainFifo_wf h _
@[simp] theorem Env.drained_wf (h : s.mem.wf = true) (x : Env) : (x.drained s).mem.wf = true := drain_wf h ..

theorem pushWords_wf (h : s.mem.wf = true) (x : Env) (port : Nat) (ws : List WriteBack) (op : Option Nat) :
    (pushWords s x port ws op).mem.wf = true := by
  unfold pushWords
  split
  · split
    · dsimp only; split <;> simp [h]
    · exact h
  · exact h

@[simp] theorem pushAll_wf (h : s.mem.wf = true) (x : Env) (ps : List Nat) (ws : List WriteBack) (op : Option Nat) :
    (pushAll s x ps ws op).mem.wf = true := by
  unfold pushAll
  split
  · exact h
  · exact foldl_wf (Env.released_wf h x) (fun _ p ht => pushWords_wf ht x p ws op) ps

theorem popPort_wf (h : s.mem.wf = true) {x : Env} {port : Nat} {q : State × Map Word} (hq : popPort s x port = .ok q) :
    q.1.mem.wf = true := by
  unfold popPort at hq
  split at hq
  · cases hq; exact h
  · dsimp only at hq
    split at hq
    · cases hq; exact h
    · split at hq
      · cases hq
      · rw [ite_eq_iff] at hq
        simp at hq
        obtain ⟨-, rfl⟩ := hq
        simp [h]

theorem popPorts_wf (h : s.mem.wf = true) {x : Env} {ps : List Nat} {q : State × Env} (hq : popPorts s x ps = .ok q) :
    q.1.mem.wf = true := by
  induction ps generalizing s x with
  | nil => cases hq; exact h
  | cons p ps ih =>
    unfold popPorts at hq
    split at hq
    · cases hq
    next u ws hp => exact ih (popPort_wf h hp) hq

/-! ## The end of an issue -/

@[simp] theorem takeUnit_mem (s : State) (x : Env) : (takeUnit s x).mem = s.mem := by unfold takeUnit; split <;> simp
@[simp] theorem countLoad_mem (s : State) (x : Env) : (countLoad s x).mem = s.mem := by unfold countLoad; split <;> simp
@[simp] theorem holdBack_mem (s : State) (x : Env) : (holdBack s x).mem = s.mem := by unfold holdBack; split <;> simp
@[simp] theorem parkAt_mem (s : State) (x : Env) (p : Park) : (parkAt s x p).mem = s.mem := by unfold parkAt; split <;> simp

@[simp] theorem commit_wf {e : Effect} (h : e.st.mem.wf = true) (s : State) (x : Env) : (commit s x e).mem.wf = true := by
  unfold commit; split <;> simp [commitStroke, commitCtx, h]

@[simp] theorem conclude_wf (h : s.mem.wf = true) (x : Env) {v : Verdict} (hv : v.wf = true) : (conclude s x v).mem.wf = true := by
  cases v <;> simp_all [conclude]

@[simp] theorem unpopped_wf (h : t.mem.wf = true) (s : State) (y : Env) : (unpopped s y t).mem.wf = true := by
  unfold unpopped
  split
  · exact h
  · exact foldl_wf h (fun _ p hu => by split <;> simp [hu]) _

theorem Verdict.unpop_wf {v : Verdict} (h : v.wf = true) (s : State) (y : Env) : (v.unpop s y).wf = true := by
  cases v with
  | parkIn p t => simp only [unpop_parkIn, wf_parkIn, parkedIn] at h ⊢; split <;> simp [h]
  | _ => exact h

theorem popPort_error_wf {x : Env} {port : Nat} {v : Verdict} (hv : popPort s x port = .error v) : v.wf = true := by
  unfold popPort at hv
  split at hv
  · cases hv
  · dsimp only at hv
    split at hv
    · cases hv
    · split at hv
      · cases hv; rfl
      · rw [ite_eq_iff] at hv
        simp at hv
        obtain ⟨-, rfl⟩ := hv
        rfl

theorem popPorts_error_wf {x : Env} {ps : List Nat} {v : Verdict} (hv : popPorts s x ps = .error v) : v.wf = true := by
  induction ps generalizing s x with
  | nil => cases hv
  | cons p ps ih =>
    unfold popPorts at hv
    split at hv
    next hp => cases hv; exact popPort_error_wf hp
    · exact ih hv

theorem pushCheck_wf {x : Env} {port : Nat} {v : Verdict} (hv : pushCheck s x port = some v) : v.wf = true := by
  unfold pushCheck at hv
  split at hv
  · cases hv
  · dsimp only at hv
    split at hv
    · cases hv; rfl
    · split at hv
      · cases hv
      · split at hv
        · cases hv; rfl
        · split at hv <;> cases hv; rfl

theorem readyPush_error_wf (h : s.mem.wf = true) {x : Env} {v : Verdict} (hv : readyPush s t x = .error v) : v.wf = true := by
  unfold readyPush at hv
  split at hv
  next hc =>
    cases hv
    obtain ⟨p, -, hp⟩ := List.exists_of_findSome?_eq_some hc
    exact pushCheck_wf hp
  · split at hv
    · cases hv
    · split at hv <;> cases hv; simp [h]

/-! ## The issue itself -/

/-- Every step that an outcome leads to has every memory in canonical form. -/
def Answers (o : Host.Outcome State Fault Refusal) : Prop := ∀ t, o = .next t → t.mem.wf = true

@[simp] theorem answers_next : Answers (.next t) ↔ t.mem.wf = true := ⟨fun h => h t rfl, fun h u hu => by cases hu; exact h⟩

/-- The meaning of an instruction keeps canonical forms. -/
def BodyWf (body : Env → State → Verdict) : Prop := ∀ y t, t.mem.wf = true → (body y t).wf = true

theorem execute_wf (h : s.mem.wf = true) (x : Env) {body : Env → State → Verdict} (hb : BodyWf body) : (execute s x body).mem.wf = true := by
  unfold execute
  dsimp only
  split
  · simp [h]
  · split
    · simp [h]
    · split
      next hv => exact conclude_wf h x (popPorts_error_wf hv)
      next hp =>
        split
        next hv => exact conclude_wf h x (readyPush_error_wf h hv)
        next hu =>
          cases readyPush_cases hu
          exact conclude_wf h x (Verdict.unpop_wf (hb _ _ (popPorts_wf h hp)) s _)

theorem issue_wf (h : s.mem.wf = true) (opc : Nat) (f : Fields) (len : Nat) {body : Env → State → Verdict} (hb : BodyWf body) :
    Answers (issue opc f len body s) := by
  unfold issue
  split
  · exact fun _ hn => nomatch hn
  · split
    · simp [h]
    · dsimp only
      split
      · simp [h]
      · split
        · simp [skip, h]
        · split <;> simp [execute_wf, hb, h]

end Sys2Proof.Machine
end

section
/-!
SUPPORT. The meanings of instructions keep every memory's canonical form (log 4): they write bytes through store FIFOs, control words and records
alone.
-/
namespace Sys2Proof.Machine

variable {s t : State}

/-! ## Shared ends of meanings -/

theorem Verdict.ite_wf {c : Prop} [Decidable c] {v w : Verdict} (hv : v.wf = true) (hw : w.wf = true) : (if c then v else w).wf = true := by
  split <;> assumption

theorem ite_wf {c : Prop} [Decidable c] (hs : s.mem.wf = true) (ht : t.mem.wf = true) : (if c then s else t).mem.wf = true := by
  split <;> assumption

theorem foldl_setPresent_wf {α : Type} (k : α → Nat) (b : Bool) (h : s.mem.wf = true) (l : List α) :
    (l.foldl (fun s a => s.setPresent (k a) b) s).mem.wf = true :=
  foldl_wf (g := fun s a => s.setPresent (k a) b) h (fun _ _ ht => ht) l

@[simp] theorem plain_wf (s : State) : (plain s).wf = s.mem.wf := rfl
@[simp] theorem trapLanes_wf (c : Nat) (m : Mask) : (trapLanes c m).wf = true := rfl
@[simp] theorem trapBad_wf (b : Bad × Mask) : (trapBad b).wf = true := rfl
@[simp] theorem parkOn_wf (ls : List Nat) : (parkOn ls).wf = true := rfl

theorem results_wf (h : s.mem.wf = true) (x : Env) (g : Nat → Nat × Flags) : (results x s g).wf = true := h

theorem resultsLater_wf (h : s.mem.wf = true) (x : Env) (g : Nat → Nat × Flags) : (resultsLater x s g).wf = true := Verdict.ite_wf h h

theorem laterIn_wf (h : s.mem.wf = true) (x : Env) (ws : List WriteBack) : (laterIn x s ws).wf = true := Verdict.ite_wf h h

theorem slowly_wf (h : s.mem.wf = true) (u : SlowUnit) (ws : List WriteBack) (fs : List (Nat × Flags)) : (slowly u s ws fs).wf = true := h

@[simp] theorem afterRelease_wf (h : s.mem.wf = true) (x : Env) (sy : Bool) {v : State → Verdict} (hv : ∀ t, t.mem.wf = true → (v t).wf = true) :
    (afterRelease x s sy v).wf = true :=
  Verdict.ite_wf (Env.released_wf h x) (hv _ (Env.released_wf h x))

theorem releasing_wf (h : s.mem.wf = true) (x : Env) {v : Verdict} (hv : v.wf = true) : (releasing x s v).wf = true :=
  Verdict.ite_wf (Env.released_wf h x) hv

theorem foreign_wf (x : Env) (reads : List (Nat × Nat × List Nat)) {v : Verdict} (hv : v.wf = true) : (foreign x reads v).wf = true :=
  Verdict.ite_wf rfl (Verdict.ite_wf rfl hv)

@[simp] theorem enqueue_mem (s : State) (x : Env) (es : List FifoEntry) : (enqueue s x es).mem = s.mem := setFifo_mem ..

@[simp] theorem settle_wf (h : s.mem.wf = true) (x : Env) (ls : List (Loc × Nat)) : (settle s x ls).1.mem.wf = true := by
  unfold settle; split <;> simp [h]

/-! ## Arithmetic and lanes -/

theorem bodyMov_wf : BodyWf bodyMov := fun _ _ h => Verdict.ite_wf rfl h

theorem bodyCvt_wf : BodyWf bodyCvt := by
  intro x s h
  unfold bodyCvt; split <;> exact h

theorem bodyPack2_wf : BodyWf bodyPack2 := by
  intro x s h
  unfold bodyPack2; split <;> exact h

theorem bodyPmov_wf : BodyWf bodyPmov := fun _ _ h => Verdict.ite_wf h h

/-! ## Control -/

theorem pushRet_wf (h : s.mem.wf = true) (k : Nat) (gr : Group) (l : Nat) (pc : Dword) : (pushRet s k gr l pc).mem.wf = true :=
  ite_wf h (writeNat_wf (s := s) _ 8 _ h)

theorem callTo_wf (h : s.mem.wf = true) (x : Env) (target : Nat → Dword) : (callTo x s target).wf = true := by
  unfold callTo
  split
  · dsimp only
    split
    · rfl
    · exact foldl_wf h (fun _ l ht => pushRet_wf ht _ _ l _) _
  · split
    · split
      · rfl
      · exact h
    · rfl

theorem indirect_wf {go : Env → State → (Nat → Dword) → Verdict} (hgo : ∀ x s target, s.mem.wf = true → (go x s target).wf = true) :
    BodyWf (indirect go) := fun x s h => Verdict.ite_wf rfl (hgo x s _ h)

theorem bodyRet_wf : BodyWf bodyRet := by
  intro x s h
  unfold bodyRet
  split
  · dsimp only
    split
    · rfl
    · split
      · rfl
      · exact h
  · split
    · split
      · exact h
      · rfl
    · rfl

theorem bodyExit_wf : BodyWf bodyExit := by
  intro x s h
  unfold bodyExit; split <;> simp [h]

theorem arriveLanes_mem (x : Env) (s : State) (b : Nat) (arv : Bool) : (arriveLanes x s b arv).mem = s.mem := rfl

theorem bodyBar_wf : BodyWf bodyBar := by
  intro x s h
  unfold bodyBar
  refine afterRelease_wf h x _ (fun t ht => ?_)
  split <;> simp [arriveLanes_mem, ht]

theorem bodyBtake_wf : BodyWf bodyBtake := fun _ _ h => Verdict.ite_wf h (Verdict.ite_wf (by simp [h]) (by simp [h]))

theorem bodyBgive_wf : BodyWf bodyBgive := fun _ _ h => Verdict.ite_wf (by simp [h]) rfl

theorem bodyCue_wf : BodyWf bodyCue := fun x _ h => Verdict.ite_wf h (afterRelease_wf h x _ (fun _ ht => ht))

theorem bodyWaitm_wf : BodyWf bodyWaitm := by
  intro x s h
  unfold bodyWaitm
  dsimp only
  split
  · rfl
  · split
    · exact h
    · split
      · rfl
      · exact Verdict.ite_wf rfl (Verdict.ite_wf (settle_wf h x _) (settle_wf h x _))

/-! ## Memory -/

theorem bodyLd_wf : BodyWf bodyLd := by
  intro x s h
  unfold bodyLd
  dsimp only
  split
  · rfl
  · split
    · rfl
    · exact laterIn_wf (settle_wf h x _) x _

theorem bodySt_wf : BodyWf bodySt := by
  intro x s h
  unfold bodySt
  dsimp only
  split
  · rfl
  · exact releasing_wf h x (by simp [h])

theorem bodyVsw_wf : BodyWf bodyVsw := by
  intro x s h
  unfold bodyVsw
  dsimp only
  split
  · rfl
  · split
    · simp [h]
    · split
      · rfl
      · exact laterIn_wf (settle_wf h x _) x _

theorem scribeAtom_wf (h : s.mem.wf = true) (x : Env) (l : Loc) (n : Nat) (new : Nat → Option Nat) : (scribeAtom x s l n new).wf = true := by
  unfold scribeAtom
  dsimp only [Verdict.wf_commit]
  split
  · exact writeNat_wf _ _ _ (Env.drained_wf h x)
  · exact Env.drained_wf h x

theorem atUnits_wf (h : s.mem.wf = true) (x : Env) (es : List FifoEntry) : (atUnits x s es).wf = true := Verdict.ite_wf h (by simp [h])

theorem bodyAtom_wf : BodyWf bodyAtom := by
  intro x s h
  unfold bodyAtom
  dsimp only
  split
  · rfl
  · refine releasing_wf h x ?_
    split
    · split
      · exact scribeAtom_wf h ..
      · exact h
    · exact atUnits_wf h x _

theorem bodyCas_wf : BodyWf bodyCas := by
  intro x s h
  unfold bodyCas
  dsimp only
  split
  · rfl
  · refine releasing_wf h x ?_
    split
    · split
      · exact scribeAtom_wf h ..
      · exact h
    · exact atUnits_wf h x _

theorem bodyFxadd_wf : BodyWf bodyFxadd := by
  intro x s h
  unfold bodyFxadd
  split
  · rfl
  · exact releasing_wf h x (atUnits_wf h x _)

theorem bodyFxrd_wf : BodyWf bodyFxrd := by
  intro x s h
  unfold bodyFxrd
  split
  · rfl
  · exact laterIn_wf (settle_wf h x _) x _

theorem bodyFxclr_wf : BodyWf bodyFxclr := by
  intro x s h
  unfold bodyFxclr
  split
  · rfl
  · exact releasing_wf h x (by simp [h])

theorem bodyFence_wf : BodyWf bodyFence := fun x _ h =>
  Verdict.ite_wf (afterRelease_wf h x _ (fun _ ht => ht)) (Verdict.ite_wf (ite_wf h h) (afterRelease_wf h x _ (fun _ ht => ht)))

/-! ## Tiles -/

theorem tileRecord_wf (h : s.mem.wf = true) {x : Env} {q : State × List FifoEntry × Landing × Tile} (hq : tileRecord x s = .ok q) :
    q.1.mem.wf = true := by
  unfold tileRecord at hq
  dsimp only at hq
  split at hq
  · cases hq
  · split at hq
    · cases hq
    · cases hq
    · split at hq
      · cases hq
      · split at hq
        · cases hq
        · cases hq; exact settle_wf h x _

theorem tileRecord_error_wf (h : s.mem.wf = true) {x : Env} {v : Verdict} (hv : tileRecord x s = .error v) : v.wf = true := by
  unfold tileRecord at hv
  dsimp only at hv
  split at hv
  · cases hv; rfl
  · split at hv
    · cases hv; rfl
    · cases hv; exact h
    · split at hv
      · cases hv; rfl
      · split at hv <;> cases hv; rfl

@[simp] theorem futurePending_mem (s : State) (x : Env) (i op : Nat) : (futurePending s x i op).mem = s.mem := rfl

theorem bodyLdt_wf : BodyWf bodyLdt := by
  intro x s h
  unfold bodyLdt
  split
  next hv => exact tileRecord_error_wf h hv
  next hq =>
    have hu := tileRecord_wf h hq
    dsimp only
    split
    · rfl
    · split
      · rfl
      · rw [Verdict.wf_commit]
        dsimp only
        split <;> simp [hu]

theorem bodyStt_wf : BodyWf bodyStt := by
  intro x s h
  unfold bodyStt
  split
  · exact h
  · split
    next hv => exact tileRecord_error_wf h hv
    next hq =>
      have hu := tileRecord_wf h hq
      dsimp only
      split
      · rfl
      · refine releasing_wf hu x ?_
        rw [plain_wf]
        split <;> simp [hu]

/-! ## Presence, closing of streams, tags -/

theorem bodyPset_wf : BodyWf bodyPset := by
  intro x s h
  unfold bodyPset
  split
  · rfl
  · exact foldl_setPresent_wf (fun l : Nat × Nat => l.2) true h _

theorem bodyParm_wf : BodyWf bodyParm := by
  intro x s h
  unfold bodyParm
  split
  · rfl
  · exact foldl_setPresent_wf (fun l : Nat × Nat => l.2) false h _

theorem bodyPtest_wf : BodyWf bodyPtest := by
  intro x s h
  unfold bodyPtest; split <;> [rfl; exact h]

theorem bodySclose_wf : BodyWf bodySclose := by
  intro x s h
  unfold bodySclose
  dsimp only
  split
  · rfl
  · split
    · rfl
    · split
      · rfl
      · split
        · rfl
        · exact afterRelease_wf h x _ (fun t ht => ringPut_wf ht ..)

theorem bodyTagget_wf : BodyWf bodyTagget := by
  intro x s h
  unfold bodyTagget
  split
  · rfl
  · dsimp only
    split
    · rfl
    · exact laterIn_wf (settle_wf h x _) x _

theorem bodyTagset_wf : BodyWf bodyTagset := by
  intro x s h
  unfold bodyTagset
  dsimp only
  split
  · rfl
  · split
    · rfl
    · exact releasing_wf h x (by simp [h])

/-! ## Futures and work -/

theorem bodyFwait_wf : BodyWf bodyFwait := fun _ _ h => Verdict.ite_wf rfl h

theorem bodyFpass_wf : BodyWf bodyFpass := fun _ _ h => Verdict.ite_wf h rfl

theorem bodyFtake_wf : BodyWf bodyFtake := by
  intro x s h
  unfold bodyFtake; dsimp only; split <;> [rfl; exact h]

@[simp] theorem unlist_mem (s : State) (part id : Nat) : (unlist s part id).mem = s.mem := rfl

theorem unsign_wf (h : s.mem.wf = true) (g cv q : Nat) (r : Round) : (unsign s g cv q r).mem.wf = true := by
  unfold unsign
  refine foldl_wf ?_ (fun t e ht => ?_) _
  · exact h
  · exact opOver_wf ht ..

@[simp] theorem withdraw_wf (h : s.mem.wf = true) (op : Nat) : (withdraw s op).mem.wf = true := by
  unfold withdraw
  split
  · split <;> simp [h]
  · split
    · exact unsign_wf h ..
    · exact h

theorem bodyFcan_wf : BodyWf bodyFcan := by
  intro x s h
  unfold bodyFcan; split <;> simp [h]

theorem withRecords_wf (h : s.mem.wf = true) (x : Env) (n : Nat) (one : Bool) {v : State → List (Nat × List Byte × Bool) → Verdict}
    (hv : ∀ t rs, t.mem.wf = true → (v t rs).wf = true) : (withRecords s x n one v).wf = true := by
  unfold withRecords
  split
  · exact hv _ _ h
  · dsimp only
    split
    · exact h
    · split
      · rfl
      · exact afterRelease_wf h x _ (fun t ht => hv t _ ht)

@[simp] theorem parkKept_wf (s : State) (x : Env) (need : List (Nat × Nat)) (rs : List (Nat × List Byte × Bool)) :
    (parkKept s x need rs).wf = s.mem.wf := rfl

@[simp] theorem enqueueLaunch_mem (s : State) (l : Launch) : (enqueueLaunch s l).mem = s.mem := rfl

@[simp] theorem enqueueTasks_mem (s : State) (part : Nat) (rs : List (Nat × List Byte × Bool)) : (enqueueTasks s part rs).mem = s.mem := by
  induction rs generalizing s with
  | nil => rfl
  | cons r rs ih => exact ih _

theorem bodySpawn_wf : BodyWf bodySpawn := by
  intro x s h
  refine withRecords_wf h x _ _ (fun t rs ht => ?_)
  dsimp only
  split <;> simp [ht]

theorem bodyLaunch_wf : BodyWf bodyLaunch := by
  intro x s h
  refine withRecords_wf h x _ _ (fun t rs ht => ?_)
  split
  · exact ht
  · dsimp only; split <;> simp [ht]

/-! ## Copies and tile products -/

theorem setPending_mem (s : State) (g kS id : Nat) : (setPending s g kS id).mem = s.mem := rfl
theorem takeLocks_mem (s : State) (core : Nat) (want : List Lock) : (takeLocks s core want).mem = s.mem := rfl

theorem issueCopy_wf (h : t.mem.wf = true) (x : Env) (c : Copy) (want : List Lock) (lines : List Nat) : (issueCopy x t c want lines).wf = true := by
  unfold issueCopy
  refine Verdict.ite_wf h ?_
  dsimp only
  rw [plain_wf, setPending_mem]
  refine foldl_setPresent_wf (fun l : Nat => l) false ?_ lines
  exact h

theorem bodyCopy_wf (kind : Env → CopyKind) : BodyWf (bodyCopy kind) := fun x _ h => issueCopy_wf (Env.drained_wf h x) ..
theorem bodyCpyt_wf : BodyWf bodyCpyt := fun x _ h => issueCopy_wf (Env.drained_wf h x) ..
theorem bodyCpym_wf : BodyWf bodyCpym := fun x _ h => issueCopy_wf (Env.drained_wf h x) ..

@[simp] theorem mapCopies_mem (s : State) (g : Copy → Copy) : (mapCopies s g).mem = s.mem := rfl
@[simp] theorem modCopy_mem (s : State) (id : Nat) (g : Copy → Copy) : (modCopy s id g).mem = s.mem := rfl

theorem bodyCcan_wf : BodyWf bodyCcan := by
  intro x s h
  unfold bodyCcan; split <;> exact h

theorem bodyWcue_wf : BodyWf bodyWcue := fun _ _ h => Verdict.ite_wf h h

theorem bodyMms_wf : BodyWf bodyMms := fun x _ h => Verdict.ite_wf (Env.drained_wf h x) (Env.drained_wf h x)

/-! ## Banks and rounds -/

theorem bodyAalloc_wf : BodyWf bodyAalloc := by
  intro x s h
  unfold bodyAalloc; dsimp only; split <;> exact h

theorem bodyAfree_wf : BodyWf bodyAfree := by
  intro x s h
  unfold bodyAfree
  split
  · rfl
  · split <;> [exact h; rfl]

/-- Accumulators lie outside the memories of bytes. -/
theorem foldl_mem_wf {α : Type} {g : MemSys → α → MemSys} (hg : ∀ m a, (g m a).wf = m.wf) (l : List α) (m : MemSys) :
    (l.foldl g m).wf = m.wf := by
  induction l generalizing m with
  | nil => rfl
  | cons a l ih => exact (ih (g m a)).trans (hg m a)

theorem MemSys.putAcc_wf (m : MemSys) (k : Nat) (w : Word) (bad : Bool) : (m.putAcc k w bad).wf = m.wf := rfl
theorem zeroBank_wf (m : MemSys) (bank : Nat) : (zeroBank m bank).wf = m.wf := rfl

theorem bodyAzero_wf : BodyWf bodyAzero := by
  intro x s h
  unfold bodyAzero
  split
  · rfl
  · split
    · split
      · exact (foldl_mem_wf (fun m n => zeroBank_wf m _) _ s.mem).trans h
      · rfl
    · rfl

theorem bodyAgrant_wf : BodyWf bodyAgrant := by
  intro x s h
  unfold bodyAgrant
  dsimp only
  split
  · rfl
  · split
    · split
      · rfl
      · rw [plain_wf]; split <;> exact h
    · rfl

theorem bodyAld_wf : BodyWf bodyAld := fun _ _ h => Verdict.ite_wf rfl (Verdict.ite_wf rfl (Verdict.ite_wf rfl (ite_wf h h)))

theorem bodyAst_wf : BodyWf bodyAst := fun _ s h =>
  Verdict.ite_wf rfl (Verdict.ite_wf rfl (Verdict.ite_wf rfl
    ((foldl_mem_wf (fun m _ => foldl_mem_wf (fun m _ => m.putAcc_wf ..) _ m) _ s.mem).trans h)))

theorem putCv_mem (s : State) (g c : Nat) (v : Cv) : (putCv s g c v).mem = s.mem := rfl

@[simp] theorem discardRound_wf (h : s.mem.wf = true) (g c : Nat) : (discardRound s g c).mem.wf = true := by
  unfold discardRound
  split
  · exact h
  · refine foldl_wf ?_ (fun t e ht => ?_) _
    · exact h
    · exact opOver_wf ht ..

theorem resetCv_wf (h : s.mem.wf = true) (g c : Nat) : (resetCv s g c).mem.wf = true := discardRound_wf h g c

theorem bodyCvset_wf : BodyWf bodyCvset := by
  intro x s h
  unfold bodyCvset
  dsimp only
  split
  · exact resetCv_wf h ..
  · split
    · exact h
    · split <;> [rfl; exact h]

theorem bodyMmr_wf : BodyWf bodyMmr := fun _ _ h =>
  Verdict.ite_wf rfl (Verdict.ite_wf rfl (Verdict.ite_wf rfl (Verdict.ite_wf rfl (Verdict.ite_wf h (Verdict.ite_wf rfl (ite_wf h h))))))

/-! ## Summaries -/

theorem reachRecord_error_wf {x : Env} {p : Space} {a : Nat} {acc : Acc} {v : Verdict} (hv : reachRecord s x p a acc = .error v) : v.wf = true := by
  unfold reachRecord at hv
  split at hv
  · cases hv; rfl
  · dsimp only at hv; split at hv <;> cases hv; rfl

@[simp] theorem writeRecord_wf (h : s.mem.wf = true) (ls : List Loc) (bs : List Byte) : (writeRecord s ls bs).mem.wf = true := by
  induction ls generalizing s bs with
  | nil => exact h
  | cons l ls ih => exact ih (writeBytes_wf l _ h) _

theorem foldRecord_wf (h : s.mem.wf = true) (x : Env) (kind : Nat) (ty : Option Nat) (g : List Byte → Nat → List Byte × Nat) :
    (foldRecord x s kind ty g).wf = true := by
  unfold foldRecord
  split
  next hv => exact reachRecord_error_wf hv
  · dsimp only
    split
    · rfl
    · exact writeRecord_wf (Env.released_wf h x) ..

theorem askRecord_wf (h : s.mem.wf = true) (x : Env) (kind : Nat) (ty : Option Nat)
    (g : List Byte → State → List WriteBack × List (Nat × Flags)) : (askRecord x s kind ty g).wf = true := by
  unfold askRecord
  split
  next hv => exact reachRecord_error_wf hv
  · dsimp only
    split
    · rfl
    · exact Env.drained_wf h x

theorem bodySminit_wf : BodyWf bodySminit := by
  intro x s h
  unfold bodySminit
  split
  next hv => exact reachRecord_error_wf hv
  · exact writeRecord_wf (Env.released_wf h x) ..

theorem poisonLines_wf (s : State) (ls : List Loc) : (poisonLines s ls).mem.wf = s.mem.wf := foldl_mem_wf (fun m _ => m.setPoison_wf ..) ls s.mem

theorem bodySmrg_wf : BodyWf bodySmrg := by
  intro x s h
  unfold bodySmrg
  dsimp only
  split
  · rfl
  · rfl
  · rfl
  · split
    · rfl
    · split
      · rw [slowly, Verdict.wf_commit]
        dsimp only
        split
        · rw [poisonLines_wf]; exact writeRecord_wf (Env.released_wf h x) ..
        · exact writeRecord_wf (Env.released_wf h x) ..
      · rfl

@[simp] theorem unitDone_wf (h : s.mem.wf = true) (k : Nat) (u : SlowUnit) : (unitDone s k u).mem.wf = true := by simp [unitDone, h]

/-! ## Shares -/

theorem inSession_wf {x : Env} {g : Nat → Session → Nat → Verdict} (hg : ∀ n e p, (g n e p).wf = true) (s : State) : (inSession x s g).wf = true := by
  unfold inSession; split <;> [exact hg ..; rfl]

theorem shareResult_wf (h : s.mem.wf = true) (x : Env) (g : Nat → Nat) : (shareResult x s g).wf = true := h

theorem sendGate_wf (h : s.mem.wf = true) (x : Env) (fut : Nat) (counts : Bool) (m : GateMsg) : (sendGate x s fut counts m).wf = true := h

theorem localPair_wf (neg : Bool) : BodyWf (localPair neg) := by
  refine fun x s h => inSession_wf (fun n e p => ?_) s
  exact Verdict.ite_wf rfl h

theorem bodySmulk_wf : BodyWf bodySmulk := by
  refine fun x s h => inSession_wf (fun n e p => ?_) s
  exact Verdict.ite_wf rfl h

theorem bodySxor_wf : BodyWf bodySxor := by
  refine fun x s h => inSession_wf (fun n e p => ?_) s
  exact Verdict.ite_wf rfl h

theorem bodySmask_wf : BodyWf bodySmask := by
  refine fun x s h => inSession_wf (fun n e p => ?_) s
  dsimp only
  split
  · rfl
  · refine Verdict.ite_wf rfl (Verdict.ite_wf rfl ?_)
    split
    · rfl
    · exact settle_wf h x _

theorem bodySxch_wf : BodyWf bodySxch := by
  refine fun x s h => inSession_wf (fun n e p => ?_) s
  exact Verdict.ite_wf rfl (Verdict.ite_wf rfl (Verdict.ite_wf h h))

theorem bodySrev_wf : BodyWf bodySrev := by
  refine fun x s h => inSession_wf (fun n e p => ?_) s
  exact Verdict.ite_wf rfl (Verdict.ite_wf h h)

theorem bodySfin_wf : BodyWf bodySfin := by
  refine fun x s h => inSession_wf (fun n e p => ?_) s
  exact Verdict.ite_wf rfl h

theorem bodyStrn_wf : BodyWf bodyStrn := by
  refine fun x s h => inSession_wf (fun n e p => ?_) s
  exact Verdict.ite_wf rfl (Verdict.ite_wf rfl (shareResult_wf h x _))

theorem bodySdab_wf : BodyWf bodySdab := by
  refine fun x s h => inSession_wf (fun n e p => ?_) s
  exact Verdict.ite_wf rfl h

/-! ## Peers -/

@[simp] theorem transmit_mem (s : State) (f : Flit) : (transmit s f).mem = s.mem := by
  unfold transmit
  split
  · rfl
  · split <;> rfl

@[simp] theorem sendFlit_mem (s : State) (part dst : Nat) (body : FlitBody) (poison : Bool) : (sendFlit s part dst body poison).1.mem = s.mem := by
  simp [sendFlit]

theorem sendStore_mem (s : State) (x : Env) (part l : Nat) (bs : List Byte) : (sendStore s x part l bs).mem = s.mem := by
  unfold sendStore
  extract_lets a q
  rw [State.modLink_mem]
  exact sendFlit_mem ..

theorem bodyPst_wf : BodyWf bodyPst := by
  intro x s h
  unfold bodyPst
  dsimp only
  split
  · split
    · rfl
    · simp [h]
  · split
    · rfl
    · split
      · rfl
      · rw [plain_wf, foldl_mem (fun t l => sendStore_mem ..), h]

theorem bodyPsig_wf : BodyWf bodyPsig := by
  intro x s h
  unfold bodyPsig
  dsimp only
  split
  · rfl
  · split
    · rfl
    · rw [plain_wf]
      refine foldl_wf h (fun t a ht => ?_) _
      exact ht

theorem bodyPwait_wf : BodyWf bodyPwait := by
  intro x s h
  unfold bodyPwait
  dsimp only
  split
  · rfl
  · exact h
  · split
    · rfl
    · split <;> exact settle_wf h x _

/-! ## Control registers -/

theorem bodyCsrw_wf : BodyWf bodyCsrw := by
  intro x s h
  unfold bodyCsrw
  rw [plain_wf]
  split <;> exact h

end Sys2Proof.Machine
end

section
/-!
SUPPORT. Every instruction keeps every memory's canonical form (log 4), family by family.
-/
namespace Sys2Proof.Machine

variable {s : State}

theorem instruction_answers (h : s.mem.wf = true) {i : Instr} (hi : isEvent i = false) : Answers (exec i s) := by
  cases i with
  | add | addC32 | addImmC32 | sub | subC32 | mul | mulh | mad | min | max | abs | neg | and | andC32 | or | orC32 | xor | xorC32 | andn | not | shl
  | shlC32 | shr | shrC32 | sha | rot | bfe | bfi | popc | clz | brev | sel | cmp | lea | dot4 | prmt | fadd | faddC32 | fsub | fmul | fmulC32 | ffma
  | fmin | fmax | fabs | fneg | fcmp | fclass | fscl | dqn4 | fdot2 | plop | vote | redx | csrr =>
    exact issue_wf h _ _ _ (fun x _ ht => results_wf ht x _)
  | div | rem | frcp | frsq | fsqrt | fexp2 | flog2 | fsin | fcos | ftanh => exact issue_wf h _ _ _ (fun x _ ht => resultsLater_wf ht x _)
  | spcmp | spexp | shfl | qxch => exact issue_wf h _ _ _ (fun x _ ht => foreign_wf x _ ht)
  | qnt4 | red | scan | bra | braC32 | brm | fuse | fuseC32 | nop | nopC32 | yield | ftst | rte => exact issue_wf h _ _ _ (fun _ _ ht => ht)
  | trap | bkpt => exact issue_wf h _ _ _ (fun _ _ _ => rfl)
  | mov | movC32 => exact issue_wf h _ _ _ bodyMov_wf
  | cvt => exact issue_wf h _ _ _ bodyCvt_wf
  | pack2 => exact issue_wf h _ _ _ bodyPack2_wf
  | pmov => exact issue_wf h _ _ _ bodyPmov_wf
  | jmpi => exact issue_wf h _ _ _ (indirect_wf (fun _ _ _ ht => ht))
  | call => exact issue_wf h _ _ _ (fun x _ ht => callTo_wf ht x _)
  | calli => exact issue_wf h _ _ _ (indirect_wf (fun x _ _ ht => callTo_wf ht x _))
  | ret | retC32 => exact issue_wf h _ _ _ bodyRet_wf
  | exit | exitC32 => exact issue_wf h _ _ _ bodyExit_wf
  | bar => exact issue_wf h _ _ _ bodyBar_wf
  | btake => exact issue_wf h _ _ _ bodyBtake_wf
  | bgive => exact issue_wf h _ _ _ bodyBgive_wf
  | cue => exact issue_wf h _ _ _ bodyCue_wf
  | waitm => exact issue_wf h _ _ _ bodyWaitm_wf
  | ld => exact issue_wf h _ _ _ bodyLd_wf
  | st => exact issue_wf h _ _ _ bodySt_wf
  | vsw => exact issue_wf h _ _ _ bodyVsw_wf
  | ldt => exact issue_wf h _ _ _ bodyLdt_wf
  | stt => exact issue_wf h _ _ _ bodyStt_wf
  | atom => exact issue_wf h _ _ _ bodyAtom_wf
  | cas => exact issue_wf h _ _ _ bodyCas_wf
  | fxadd => exact issue_wf h _ _ _ bodyFxadd_wf
  | fxrd => exact issue_wf h _ _ _ bodyFxrd_wf
  | fxclr => exact issue_wf h _ _ _ bodyFxclr_wf
  | fence => exact issue_wf h _ _ _ bodyFence_wf
  | pset => exact issue_wf h _ _ _ bodyPset_wf
  | parm => exact issue_wf h _ _ _ bodyParm_wf
  | ptest => exact issue_wf h _ _ _ bodyPtest_wf
  | sclose => exact issue_wf h _ _ _ bodySclose_wf
  | tagget => exact issue_wf h _ _ _ bodyTagget_wf
  | tagset => exact issue_wf h _ _ _ bodyTagset_wf
  | fwait => exact issue_wf h _ _ _ bodyFwait_wf
  | fpass => exact issue_wf h _ _ _ bodyFpass_wf
  | ftake => exact issue_wf h _ _ _ bodyFtake_wf
  | fcan => exact issue_wf h _ _ _ bodyFcan_wf
  | spawn => exact issue_wf h _ _ _ bodySpawn_wf
  | launch => exact issue_wf h _ _ _ bodyLaunch_wf
  | cpy | cpyr => exact issue_wf h _ _ _ (bodyCopy_wf _)
  | cpyt => exact issue_wf h _ _ _ bodyCpyt_wf
  | cpym => exact issue_wf h _ _ _ bodyCpym_wf
  | ccan => exact issue_wf h _ _ _ bodyCcan_wf
  | wcue => exact issue_wf h _ _ _ bodyWcue_wf
  | mmr => exact issue_wf h _ _ _ bodyMmr_wf
  | mms => exact issue_wf h _ _ _ bodyMms_wf
  | aalloc => exact issue_wf h _ _ _ bodyAalloc_wf
  | afree => exact issue_wf h _ _ _ bodyAfree_wf
  | agrant => exact issue_wf h _ _ _ bodyAgrant_wf
  | ald => exact issue_wf h _ _ _ bodyAld_wf
  | ast => exact issue_wf h _ _ _ bodyAst_wf
  | azero => exact issue_wf h _ _ _ bodyAzero_wf
  | cvset => exact issue_wf h _ _ _ bodyCvset_wf
  | cvrst => exact issue_wf h _ _ _ (fun _ _ ht => resetCv_wf ht _ _)
  | sminit => exact issue_wf h _ _ _ bodySminit_wf
  | rqs | rhh | rdc => exact issue_wf h _ _ _ (fun x _ ht => foldRecord_wf ht x _ _ _)
  | smrg => exact issue_wf h _ _ _ bodySmrg_wf
  | sqnt | sest | shhq => exact issue_wf h _ _ _ (fun x _ ht => askRecord_wf ht x _ _ _)
  | sadd | ssub => exact issue_wf h _ _ _ (localPair_wf _)
  | smulk => exact issue_wf h _ _ _ bodySmulk_wf
  | smask => exact issue_wf h _ _ _ bodySmask_wf
  | sxch => exact issue_wf h _ _ _ bodySxch_wf
  | sfin => exact issue_wf h _ _ _ bodySfin_wf
  | strn => exact issue_wf h _ _ _ bodyStrn_wf
  | sxor => exact issue_wf h _ _ _ bodySxor_wf
  | sdab => exact issue_wf h _ _ _ bodySdab_wf
  | srev => exact issue_wf h _ _ _ bodySrev_wf
  | pst => exact issue_wf h _ _ _ bodyPst_wf
  | psig => exact issue_wf h _ _ _ bodyPsig_wf
  | pwait => exact issue_wf h _ _ _ bodyPwait_wf
  | csrw => exact issue_wf h _ _ _ bodyCsrw_wf
  | _ => exact nomatch hi

end Sys2Proof.Machine
end

section
/-!
SUPPORT. Launches, from the hub to the cores, keep every memory's canonical form (log 4): what they write are bytes at places that the hub
reaches, accumulators and the control lines of rings.
-/
namespace Sys2Proof.Machine

variable {s t : State}

/-! ## Places and errors -/

@[simp] theorem writePlaces_wf (h : s.mem.wf = true) (ls : List (Loc × Nat)) (bs : List Byte) : (writePlaces s ls bs).mem.wf = true := by
  induction ls generalizing s bs with
  | nil => exact h
  | cons l ls ih => exact ih (writeBytes_wf l.1 _ h) _

@[simp] theorem reportError_mem (s : State) (part cause who : Nat) : (reportError s part cause who).mem = s.mem := rfl

@[simp] theorem fetchTrap_wf (h : s.mem.wf = true) (cause addr : Nat) : (fetchTrap s cause addr).mem.wf = true := by
  unfold fetchTrap; split <;> simp [h]

/-! ## Ends of launches -/

@[simp] theorem launchFault_mem (s : State) (l : Launch) (b : Bad) : (launchFault s l b).mem = s.mem := by
  unfold launchFault; dsimp only; split <;> simp

/-- Whatever became of the store of a status word, every memory is in canonical form. -/
def Stored.wf : Stored → Bool
  | .done s | .held s => s.mem.wf

theorem storeStatus_wf (h : s.mem.wf = true) (l : Launch) : (storeStatus s l).wf = true := by
  unfold storeStatus
  split
  · exact h
  · split
    · exact writePlaces_wf h ..
    · exact h
    · rw [Stored.wf, launchFault_mem, h]

theorem storeStatus_done_wf (h : s.mem.wf = true) {l : Launch} (ht : storeStatus s l = .done t) : t.mem.wf = true := by
  have hw := storeStatus_wf h l
  rwa [ht] at hw

theorem storeStatus_held_wf (h : s.mem.wf = true) {l : Launch} (ht : storeStatus s l = .held t) : t.mem.wf = true := by
  have hw := storeStatus_wf h l
  rwa [ht] at hw

/-- A decrement that was made left every memory in canonical form. -/
def Decrement.wf : Decrement → Bool
  | .made s | .zero s _ _ => s.mem.wf
  | .fails | .holds _ => true

theorem decrement_wf (h : s.mem.wf = true) (l : Launch) : (decrement s l).wf = true := by
  unfold decrement
  split
  · rfl
  · rfl
  · dsimp only
    split
    · rfl
    · split
      · exact writePlaces_wf h ..
      · split
        · rfl
        · rfl
        · exact writePlaces_wf h ..
        · exact writePlaces_wf h ..
        · rfl

theorem decrement_made_wf (h : s.mem.wf = true) {l : Launch} (ht : decrement s l = .made t) : t.mem.wf = true := by
  have hw := decrement_wf h l
  rwa [ht] at hw

theorem decrement_zero_wf (h : s.mem.wf = true) {l : Launch} {bs : List Byte} {bad : Bool} (ht : decrement s l = .zero t bs bad) :
    t.mem.wf = true := by
  have hw := decrement_wf h l
  rwa [ht] at hw

@[simp] theorem endLaunch_mem (s : State) (l : Launch) : (endLaunch s l).mem = s.mem := by
  unfold endLaunch; split <;> simp

@[simp] theorem finishLaunch_wf (h : s.mem.wf = true) (l : Launch) : (finishLaunch s l).mem.wf = true := by
  unfold finishLaunch
  split
  · split
    next ht => simp [storeStatus_done_wf h ht]
    next ht => exact storeStatus_held_wf h ht
  · simp [h]

@[simp] theorem succeedLaunch_wf (h : s.mem.wf = true) (l : Launch) : (succeedLaunch s l).mem.wf = true := by
  unfold succeedLaunch
  split
  · exact finishLaunch_wf h l
  · split
    · simp [h]
    next ht => exact finishLaunch_wf (decrement_made_wf h ht) l
    · simp [h]
    next ht =>
      have hu := decrement_zero_wf h ht
      exact hu

@[simp] theorem concludeLaunch_wf (h : s.mem.wf = true) (id : Nat) : (concludeLaunch s id).mem.wf = true := by
  unfold concludeLaunch
  split
  · exact h
  · split
    · split
      next ht => exact storeStatus_held_wf h ht
      next ht => exact succeedLaunch_wf (by simp [storeStatus_done_wf h ht]) _
    · exact succeedLaunch_wf h _
    · split <;> simp [h]
    · exact h

@[simp] theorem rejectLaunch_wf (h : s.mem.wf = true) (id code : Nat) : (rejectLaunch s id code).mem.wf = true := by
  unfold rejectLaunch
  split
  · exact h
  · dsimp only; split <;> simp [h]

/-! ## The hold list -/

@[simp] theorem releaseHeld_mem (s : State) (l : Launch) : (releaseHeld s l).mem = s.mem := rfl
@[simp] theorem joinHold_mem (s : State) (l : Launch) : (joinHold s l).mem = s.mem := rfl

@[simp] theorem satisfied_mem (s : State) (l : Launch) : (satisfied s l).mem = s.mem := by
  unfold satisfied; dsimp only; split <;> simp

@[simp] theorem pollHeld_wf (h : s.mem.wf = true) (id : Nat) : (pollHeld s id).mem.wf = true := by
  unfold pollHeld
  split
  · split
    · split <;> [skip; skip; split] <;> simp [h]
    · exact h
  · exact h

@[simp] theorem pollHold_wf (h : s.mem.wf = true) (part : Nat) : (pollHold s part).mem.wf = true := foldl_wf h (fun _ id ht => pollHeld_wf ht id) _

@[simp] theorem goOn_wf (h : s.mem.wf = true) (l : Launch) : (goOn s l).mem.wf = true := by
  unfold goOn
  split
  · split
    · dsimp only; split <;> simp [h]
    · exact h
  · exact h

@[simp] theorem dropCode_mem (s : State) : (dropCode s).mem = s.mem := rfl

theorem execLaunchCheck_wf (h : s.mem.wf = true) (part cls : Nat) : Answers (execLaunchCheck part cls s) := by
  unfold execLaunchCheck
  split
  · simp [h]
  · split
    · simp [h]
    · split
      · rw [answers_next]; split <;> simp [h]
      · split
        · split <;> simp [h]
        · simp [h]
        · simp [h]

theorem execWaitCounterPoll_wf (h : s.mem.wf = true) (part : Nat) : Answers (execWaitCounterPoll part s) := by simp [execWaitCounterPoll, h]

theorem execTimedStart_wf (h : s.mem.wf = true) (id : Nat) : Answers (execTimedStart id s) := by
  unfold execTimedStart
  split
  · split <;> simp [h]
  · simp [h]

theorem execPacketClose_wf (h : s.mem.wf = true) (port : PortName) (off : Nat) (data : List Byte) : Answers (execPacketClose port off data s) := by
  unfold execPacketClose
  dsimp only
  split
  · simp [h]
  · split
    · simp [h]
    · split <;> simp [h]

@[simp] theorem afterEnd_wf (h : s.mem.wf = true) (l : Launch) : (afterEnd s l).mem.wf = true := by
  unfold afterEnd; split <;> simp [h]

@[simp] theorem retireLaunch_wf (h : s.mem.wf = true) (l : Launch) : (retireLaunch s l).mem.wf = true := by
  unfold retireLaunch
  split
  · split
    · exact afterEnd_wf (concludeLaunch_wf (by simp [h]) _) l
    · exact h
  · exact afterEnd_wf (concludeLaunch_wf h _) l

theorem execLaunchRetire_wf (h : s.mem.wf = true) (id : Nat) : Answers (execLaunchRetire id s) := by
  unfold execLaunchRetire; split <;> simp [h]

theorem execSuccessorEnqueue_wf (h : s.mem.wf = true) (id : Nat) : Answers (execSuccessorEnqueue id s) := by
  unfold execSuccessorEnqueue
  split
  · split
    · split
      · simp [h]
      · rw [answers_next]; exact afterEnd_wf (concludeLaunch_wf (by simp [h]) _) _
    · simp [h]
  · simp [h]

/-! ## Methods -/

/-- A fold that ends well ends with every memory in canonical form, if each of its parts does. -/
theorem foldl_ok_wf {ε α : Type} {g : Except ε State → α → Except ε State} {u : State}
    (hg : ∀ e a u, (∀ t, e = .ok t → t.mem.wf = true) → g e a = .ok u → u.mem.wf = true) (l : List α) {e : Except ε State}
    (he : ∀ t, e = .ok t → t.mem.wf = true) (hu : l.foldl g e = .ok u) : u.mem.wf = true := by
  induction l generalizing e with
  | nil => exact he u hu
  | cons a l ih => exact ih (fun t ht => hg e a t he ht) hu

theorem putAll_wf (h : s.mem.wf = true) {l : Launch} {ws : List (Nat × List Byte)} (ht : putAll s l ws = .ok t) : t.mem.wf = true := by
  refine foldl_ok_wf (fun e w u he hu => ?_) ws (fun u hu => ?_) ht
  · split at hu
    · cases hu
    next t' =>
      split at hu <;> cases hu
      exact writePlaces_wf (he _ rfl) ..
  · cases hu; exact h

/-- An insertion that was made left every memory in canonical form. -/
def Inserted.wf : Inserted → Bool
  | .made s => s.mem.wf
  | .fails | .holds _ | .waits => true

theorem insertConversions_wf (h : s.mem.wf = true) (l : Launch) (e : List Byte) (need : List (Bool × List Byte)) :
    (insertConversions s l e need).wf = true := by
  unfold insertConversions
  split
  · rfl
  · extract_lets ca log at_ room
    split
    · rfl
    · split
      · rfl
      · dsimp only
        split
        · rfl
        · split
          · rfl
          · split
            · rfl
            · split
              · rfl
              · rfl
              next hu =>
                have hv := putAll_wf h hu
                refine foldl_wf ?_ (fun t c ht => ?_) _
                · exact hv
                · exact ht

theorem insertConversions_made_wf (h : s.mem.wf = true) {l : Launch} {e : List Byte} {need : List (Bool × List Byte)}
    (ht : insertConversions s l e need = .made t) : t.mem.wf = true := by
  have hw := insertConversions_wf h l e need
  rwa [ht] at hw

@[simp] theorem nomethodError_wf (h : s.mem.wf = true) (l : Launch) : (nomethodError s l).mem.wf = true := rejectLaunch_wf (by simp [h]) _ _

@[simp] theorem awaitDelivery_mem (s : State) (l : Launch) (w : Nat) : (awaitDelivery s l w).mem = s.mem := by
  unfold awaitDelivery
  dsimp only
  split
  · rfl
  · split <;> simp

@[simp] theorem deliverNomethod_wf (h : s.mem.wf = true) (l : Launch) (w : Nat) : (deliverNomethod s l w).mem.wf = true := by
  unfold deliverNomethod
  dsimp only
  split
  · exact nomethodError_wf h l
  · split
    · simp [h]
    · simp [h]
    · split
      · simp [h]
      · split
        · simp [h]
        · simp [h]
        · exact rejectLaunch_wf (by simp [h]) _ _
    · exact nomethodError_wf h l

theorem execNomethodRetry_wf (h : s.mem.wf = true) (id : Nat) : Answers (execNomethodRetry id s) := by
  unfold execNomethodRetry
  split
  · split <;> simp [h]
  · simp [h]

theorem dispatchTask_wf (h : s.mem.wf = true) {l : Launch} (ht : dispatchTask s l = .done t) : t.mem.wf = true := by
  unfold dispatchTask at ht
  split at ht
  · cases ht
  · split at ht
    · cases ht; exact deliverNomethod_wf h ..
    · dsimp only at ht
      split at ht
      · split at ht
        · split at ht <;> cases ht <;> simp [h]
        · split at ht
          · cases ht; simp [h]
          · cases ht; simp [h]
          · cases ht; exact h
          next hu => cases ht; exact insertConversions_made_wf h hu
        · cases ht; simp [h]
      · cases ht; simp [h]
      · cases ht; simp [h]
      · cases ht; simp [h]

/-! ## The chunks of a collective -/

theorem putG_wf (h : s.mem.wf = true) {l : Launch} {va : Nat} {bs : List Byte} (ht : putG s l va bs = .ok t) : t.mem.wf = true := by
  unfold putG at ht
  split at ht <;> cases ht
  · exact writePlaces_wf h ..
  · exact h

@[simp] theorem modChunk_mem (s : State) (id i : Nat) (g : Chunk → Chunk) : (modChunk s id i g).mem = s.mem := rfl

@[simp] theorem fill_wf (h : s.mem.wf = true) (k : Chunk) (l : Launch) (c : Coll) (r : Nat) (data : List Byte) :
    (fill s k l c r data).1.mem.wf = true := by
  unfold fill
  split
  · dsimp only
    split
    · exact h
    · split
      next hu => exact putG_wf (by simp [h]) hu
      · exact h
  · exact h

@[simp] theorem announce_wf (h : s.mem.wf = true) (part va : Nat) (data : List Byte) : (announce s part va data).1.mem.wf = true := by
  unfold announce; split <;> simp [h]

theorem makeChunks_wf (h : s.mem.wf = true) {l : Launch} {c : Coll} (ht : makeChunks s l c = .ok t) : t.mem.wf = true := by
  unfold makeChunks at ht
  split at ht
  · cases ht
  next hu =>
    cases ht
    have hv := foldl_ok_wf (fun e i u he hu => ?_) _ (fun u hu => ?_) hu
    · refine foldl_wf ?_ (fun t e ht => announce_wf ht ..) _
      exact hv
    · split at hu
      · exact putG_wf (he _ rfl) hu
      · cases hu
    · cases hu; exact h

/-! ## Placing -/

theorem placeGroup_wf (h : s.mem.wf = true) {l : Launch} {k lin : Nat} (ht : placeGroup s l k lin = some t) : t.mem.wf = true := by
  unfold placeGroup at ht
  dsimp only at ht
  split at ht
  · split at ht
    · cases ht
      rw [State.modLaunch_mem, State.modCore_mem]
      refine foldl_wf ?_ (fun t o ht => writeBytes_wf _ _ ht) _
      exact (foldl_mem_wf (fun m b => zeroBank_wf m _) _ _).trans h
    · cases ht
  · cases ht

theorem placeIn_wf (h : s.mem.wf = true) {l : Launch} {c lin : Nat} (ht : placeIn s l c lin = some t) : t.mem.wf = true := by
  unfold placeIn at ht
  split at ht
  · exact placeGroup_wf h ht
  · cases ht

theorem placeAll_wf (h : s.mem.wf = true) {l : Launch} {c : Nat} {ns : List Nat} (ht : placeAll l c s ns = some t) : t.mem.wf = true := by
  induction ns generalizing s with
  | nil => cases ht; exact h
  | cons n ns ih =>
    obtain ⟨u, hu, hr⟩ := Option.bind_eq_some_iff.1 ht
    exact ih (placeIn_wf h hu) hr

theorem beforeFirst_wf (h : s.mem.wf = true) {l : Launch} (ht : beforeFirst s l = .ok t) : t.mem.wf = true := by
  unfold beforeFirst at ht
  split at ht
  · split at ht
    · exact makeChunks_wf h ht
    · cases ht; exact h
  · cases ht; exact h

theorem assign_wf (h : s.mem.wf = true) {l : Launch} {n i : Nat} (ht : assign l n i s = some t) : t.mem.wf = true := by
  induction n generalizing s i with
  | zero => cases ht; exact h
  | succ n ih =>
    unfold assign at ht
    split at ht
    next hu =>
      obtain ⟨c, -, hc⟩ := List.exists_of_findSome?_eq_some hu
      exact ih (placeAll_wf h hc) ht
    · cases ht

theorem assignAll_wf (h : s.mem.wf = true) {l : Launch} (ht : assignAll s l = some t) : t.mem.wf = true := assign_wf h ht

@[simp] theorem countRanges_mem (s : State) (part n : Nat) : (countRanges s part n).mem = s.mem := by
  unfold countRanges; dsimp only; split <;> simp

@[simp] theorem handRange_mem (s : State) (l : Launch) (c : Nat) : (handRange s l c).mem = s.mem := by
  unfold handRange; dsimp only; split <;> simp

theorem execRangeHandout_wf (h : s.mem.wf = true) (part cls : Nat) : Answers (execRangeHandout part cls s) := by
  unfold execRangeHandout
  split
  · split
    · split
      · simp [h]
      · dsimp only
        split
        next hu => rw [answers_next]; exact dispatchTask_wf (by simp [h]) hu
        · simp [h]
    · simp [h]
  · simp [h]

theorem execCorPlacement_wf (h : s.mem.wf = true) (part cls : Nat) : Answers (execCorPlacement part cls s) := by
  unfold execCorPlacement
  split
  · split
    · split
      · dsimp only
        split
        next hu => rw [answers_next]; exact dispatchTask_wf (by simp [h]) hu
        · simp [h]
      · split
        · simp [h]
        next hu =>
          split
          next hv => simp [assignAll_wf (beforeFirst_wf h hu) hv]
          · split <;> simp [h]
    · simp [h]
  · simp [h]

theorem execGroupPlacement_wf (h : s.mem.wf = true) (cluster : Nat) : Answers (execGroupPlacement cluster s) := by
  unfold execGroupPlacement
  dsimp only
  split
  · simp [h]
  · split
    · simp [h]
    · split
      · simp [h]
      next hu =>
        split
        next hv => simp [placeIn_wf (beforeFirst_wf h hu) hv]
        · simp [h]

/-! ## Sensors and stealing -/

@[simp] theorem modCores_mem (s : State) (c : Nat) (g : Nat → Core → Core) : (modCores s c g).mem = s.mem := rfl

@[simp] theorem powerOff_wf (h : s.mem.wf = true) : (powerOff s).mem.wf = true := by
  obtain ⟨-, -, -, -, hh⟩ := MemSys.wf_iff.1 h
  exact MemSys.wf_iff.2 ⟨rfl, rfl, rfl, rfl, hh⟩

theorem execSensorSample_wf (h : s.mem.wf = true) (cluster : Nat) (temps : List (Nat × Option Nat)) : Answers (execSensorSample cluster temps s) := by
  unfold execSensorSample
  split
  · dsimp only
    split
    · simp [h]
    · rw [answers_next, foldl_mem (fun t a => State.modCore_mem ..), h]
  · simp [h]

theorem execDroopEvent_wf (h : s.mem.wf = true) (core : Nat) : Answers (execDroopEvent core s) := by
  unfold execDroopEvent; rw [answers_next]; split <;> simp [h]

theorem execDroopWindowEnd_wf (h : s.mem.wf = true) (cluster : Nat) : Answers (execDroopWindowEnd cluster s) := by
  unfold execDroopWindowEnd; rw [answers_next]; split <;> simp [h]

theorem execStealRequest_wf (h : s.mem.wf = true) (cluster part : Nat) : Answers (execStealRequest cluster part s) := by
  unfold execStealRequest
  dsimp only
  split
  · simp [h]
  · split <;> simp [h]

theorem execStealReply_wf (h : s.mem.wf = true) (cluster : Nat) : Answers (execStealReply cluster s) := by
  unfold execStealReply
  dsimp only
  split
  · split
    · simp [h]
    · split <;> simp [h]
  · simp [h]

theorem execStealAck_wf (h : s.mem.wf = true) (cluster : Nat) : Answers (execStealAck cluster s) := by
  unfold execStealAck
  dsimp only
  split
  · rw [answers_next, foldl_mem (fun t a => State.modLaunch_mem ..)]; exact h
  · simp [h]

end Sys2Proof.Machine
end

section
/-!
SUPPORT. The mesh and the issue slots keep every memory's canonical form (log 4): a flit that lands writes the bytes of one line, and a slot
only picks.
-/
namespace Sys2Proof.Machine

variable {s t : State}

theorem answers_ite {c : Prop} [Decidable c] {o p : Host.Outcome State Fault Refusal} (ho : Answers o) (hp : Answers p) :
    Answers (if c then o else p) := by split <;> assumption

/-! ## The mesh -/

@[simp] theorem writeCopy_wf (h : s.mem.wf = true) (l : Loc) (bs : List Byte) : (writeCopy s l bs).mem.wf = true := by
  unfold writeCopy; dsimp only; split <;> simp [writeBytes_wf, h]

@[simp] theorem setMark_wf (h : s.mem.wf = true) (line : LineId) (b : Bool) : (setMark s line b).mem.wf = true := by
  unfold setMark
  split
  · exact h
  · exact h
  · split <;> simp [h]

@[simp] theorem offer_mem (s : State) (cluster : Nat) (a : MeshAgent) (vn cls origin : Nat) (p : Packet) (data : List Byte) (psn : Bool)
    (lcrc : Word) : (offer s cluster a vn cls origin p data psn lcrc).mem = s.mem := rfl

@[simp] theorem offerAll_mem (s : State) (cluster vn : Nat) (p : Packet) (psn : Bool) (ps : List (List Byte × Nat)) :
    (offerAll s cluster vn p psn ps).mem = s.mem := foldl_mem (fun t _ => offer_mem t ..) ps s

theorem execPacketInjection_wf (h : s.mem.wf = true) (cluster : Nat) (p : Packet) : Answers (execPacketInjection cluster p s) := by
  unfold execPacketInjection
  split
  · split
    · simp [h]
    · split
      · dsimp only
        rw [answers_next, State.modMesh_mem, offerAll_mem]
        exact ite_wf (by simp [h]) h
      · simp [h]
  · simp [h]

@[simp] theorem handOver_mem (s : State) (f : MeshFlit) : (handOver s f).mem = s.mem := by
  unfold handOver; split <;> simp

@[simp] theorem landLine_wf (h : s.mem.wf = true) (f : MeshFlit) (l : LineId) : (landLine s f l).mem.wf = true := by
  unfold landLine
  extract_lets bad u m t
  have hu : u.mem.wf = true := by simp [u, h]
  have ht : t.mem.wf = true := by
    simp only [t]
    split
    · exact hu
    · exact hu
    · split
      · split <;> simp [writeBytes_wf, hu]
      · exact hu
  exact ite_wf (setMark_wf ht ..) ht

@[simp] theorem landFlit_wf (h : s.mem.wf = true) (f : MeshFlit) : (landFlit s f).mem.wf = true := by
  unfold landFlit
  split
  · split <;> simp [h]
  · exact h

@[simp] theorem acceptFlit_wf (h : s.mem.wf = true) (c : Nat) (f : MeshFlit) : (acceptFlit s c f).mem.wf = true := by
  unfold acceptFlit; dsimp only; split <;> simp [h]

@[simp] theorem checked_mem (s : State) (c : Nat) (f : MeshFlit) (k : FlitCheck) : (checked s c f k).1.mem = s.mem := by
  cases k <;> simp [checked]

theorem checked_wf (h : s.mem.wf = true) {c : Nat} {f : MeshFlit} {k : FlitCheck} {b : Bool} (ht : checked s c f k = (t, b)) : t.mem.wf = true := by
  have hm := checked_mem s c f k
  rw [ht] at hm
  rw [hm, h]

@[simp] theorem strideFlit_mem (s : State) (c : Nat) (f : MeshFlit) (d : Nat) : (strideFlit s c f d).mem = s.mem := by
  unfold strideFlit
  dsimp only
  split
  · rfl
  · rw [State.modMesh_mem]

@[simp] theorem passLocal_mem (s : State) (c : Nat) (f : MeshFlit) : (passLocal s c f).mem = s.mem := by
  unfold passLocal; dsimp only; split <;> simp

theorem execStride_wf (h : s.mem.wf = true) (cluster flit : Nat) (check : FlitCheck) : Answers (execStride cluster flit check s) := by
  unfold execStride
  split
  · simp [h]
  · split
    · simp [h]
    · simp [h]
    · split
      next hu => simp [checked_wf h hu]
      next hu => split <;> simp [checked_wf h hu]

theorem execRelayLeg_wf (h : s.mem.wf = true) (cluster flit : Nat) (check : FlitCheck) : Answers (execRelayLeg cluster flit check s) := by
  unfold execRelayLeg
  split
  · simp [h]
  · split
    · split
      next hu => simp [checked_wf h hu]
      next hu => split <;> simp [checked_wf h hu]
    · simp [h]

@[simp] theorem passFar_wf (h : s.mem.wf = true) (cluster : Nat) (f : MeshFlit) : (passFar s cluster f).mem.wf = true := by
  unfold passFar
  dsimp only
  split
  · simp [h]
  · split <;> simp [h]
  · simp [h]

theorem execGatewayForward_wf (h : s.mem.wf = true) (cluster flit : Nat) : Answers (execGatewayForward cluster flit s) := by
  unfold execGatewayForward
  split
  · simp [h]
  · split
    · dsimp only
      split
      · split <;> simp [h]
      · simp [h]
    · simp [h]

/-! ## Caches and the active set -/

theorem execIcacheFill_wf (h : s.mem.wf = true) (core line : Nat) : Answers (execIcacheFill core line s) := by
  unfold execIcacheFill; split <;> simp [h]

theorem execWalkComplete_wf (h : s.mem.wf = true) (part core : Nat) (va : Dword) : Answers (execWalkComplete part core va s) := by
  unfold execWalkComplete; split <;> simp [h]

@[simp] theorem invalidate_mem (s : State) (part : Nat) : (invalidate s part).mem = s.mem := rfl

theorem execTlbInvalidate_wf (h : s.mem.wf = true) (part : Nat) : Answers (execTlbInvalidate part s) := by simp [execTlbInvalidate, h]

@[simp] theorem setNib_mem (s : State) (core nib : Nat) (a p : List Nat) : (setNib s core nib a p).mem = s.mem := rfl
@[simp] theorem setWait_mem (s : State) (core nib : Nat) (w : Option (Nat × Nat)) : (setWait s core nib w).mem = s.mem := rfl
@[simp] theorem stamp_mem (s : State) (k : Nat) : (stamp s k).mem = s.mem := rfl

theorem execActiveSetEntry_wf (h : s.mem.wf = true) (core nib : Nat) : Answers (execActiveSetEntry core nib s) := by
  unfold execActiveSetEntry
  dsimp only
  split
  · rw [answers_next]; split <;> simp [h]
  · split
    · simp [h]
    · split
      · split
        · simp [h]
        · split
          · simp [h]
          · split <;> simp [h]
      · simp [h]

/-! ## Picks -/

@[simp] theorem ageOut_mem (s : State) (k : Nat) : (ageOut s k).mem = s.mem := by
  unfold ageOut
  split
  · split <;> simp
  · rfl

@[simp] theorem pickStroke_mem (s : State) (k : Nat) : (pickStroke s k).mem = s.mem := by
  unfold pickStroke
  split
  · rfl
  · dsimp only
    rw [foldl_mem (fun t d => State.modStroke_mem ..), State.modStroke_mem]

theorem execIssueSlot_wf (h : s.mem.wf = true) (core nib : Nat) : Answers (execIssueSlot core nib s) := by
  unfold execIssueSlot
  extract_lets c out act u v
  have hu : u.mem.wf = true := ite_wf h (by simp [h])
  have hv : v.mem.wf = true := by simp only [v]; rw [foldl_mem ageOut_mem, hu]
  split
  · simp [hu]
  · split <;> simp [hv]

theorem execScribeIssue_wf (h : s.mem.wf = true) (core : Nat) : Answers (execScribeIssue core s) := by
  unfold execScribeIssue
  dsimp only
  split
  · simp [h]
  · split <;> simp [h]

/-! ## Completions and drains -/

@[simp] theorem sampleLatency_mem (s : State) (k : Nat) (i : InFlight) : (sampleLatency s k i).mem = s.mem := by
  unfold sampleLatency; split <;> rfl

theorem execLongLatencyComplete_wf (h : s.mem.wf = true) (stroke id : Nat) : Answers (execLongLatencyComplete stroke id s) := by
  unfold execLongLatencyComplete
  split
  · split <;> simp [h]
  · simp [h]

@[simp] theorem completeIfDone_wf (h : s.mem.wf = true) (k op : Nat) : (completeIfDone s k op).mem.wf = true := by
  unfold completeIfDone
  split
  · split <;> simp [h]
  · exact h

theorem execStoreDrain_wf (h : s.mem.wf = true) (agent : AgentId) : Answers (execStoreDrain agent s) := by
  unfold execStoreDrain
  split
  · simp [h]
  next e q _ =>
    have hp : (performEntry (setFifo s agent q) agent e).mem.wf = true := performEntry_wf (by simp [h]) ..
    dsimp only
    split
    · simpa using hp
    · rw [answers_next]
      refine killFinish_wf (retireStroke_wf ?_ _) _
      split <;> simp [hp]

theorem execWaitmPoll_wf (h : s.mem.wf = true) (stroke : Nat) : Answers (execWaitmPoll stroke s) := by
  unfold execWaitmPoll
  split
  · split
    · exact answers_ite (by simp [h]) (answers_ite (by simp [h]) (answers_ite (by simp [h]) (by simp [h])))
    · simp [h]
  · simp [h]

theorem execPwaitPoll_wf (h : s.mem.wf = true) (stroke : Nat) : Answers (execPwaitPoll stroke s) := by
  unfold execPwaitPoll
  split
  · split
    · split <;> simp [h]
    · simp [h]
  · simp [h]

end Sys2Proof.Machine
end

section
/-!
SUPPORT. Copies, rounds, sessions and the link keep every memory's canonical form (log 4): beats and flits write bytes at places that they
reach, and marks lie outside the bytes.
-/
namespace Sys2Proof.Machine

variable {s t : State}

/-! ## Marks of places -/

theorem foldl_mark_wf (b : Bool) (h : s.mem.wf = true) (ls : List (Loc × Nat)) :
    (ls.foldl (fun s l => { s with mem := s.mem.setPoison l.1.home l.1.line b }) s).mem.wf = true := by
  refine foldl_wf h (fun t l ht => ?_) ls
  simp [ht]

@[simp] theorem markBeat_wf (h : s.mem.wf = true) (ls : List (Loc × Nat)) (bad whole : Bool) : (markBeat s ls bad whole).mem.wf = true := by
  unfold markBeat
  refine foldl_wf h (fun t l ht => ?_) ls
  split
  · simp [ht]
  · split <;> simp [ht]

@[simp] theorem writeMarked_wf (h : s.mem.wf = true) (ls : List (Loc × Nat)) (bs : List Byte) (poison : Bool) :
    (writeMarked s ls bs poison).mem.wf = true :=
  ite_wf (foldl_mark_wf true (writePlaces_wf h ls bs) ls) (writePlaces_wf h ls bs)

@[simp] theorem clearWhole_wf (h : s.mem.wf = true) (ls : List (Loc × Nat)) : (clearWhole s ls).mem.wf = true := by
  unfold clearWhole
  refine foldl_wf h (fun t l ht => foldl_wf ht (fun u i hu => ?_) _) ls
  simp [hu]

@[simp] theorem landHalf_wf (h : s.mem.wf = true) (f : Flit) (va : Nat) (of : Option Nat) (ls : List (Loc × Nat)) :
    (landHalf s f va of ls).mem.wf = true := by
  unfold landHalf
  split
  · exact h
  · dsimp only
    split
    · exact h
    · split
      · exact foldl_mark_wf false (by simp [h]) ls
      · exact h

@[simp] theorem landLines_wf (h : s.mem.wf = true) (p : Space) (ls : List (Loc × Nat)) (hi last : Nat) : (landLines s p ls hi last).mem.wf = true := by
  unfold landLines
  split
  · exact foldl_setPresent_wf (fun l : Loc × Nat => l.1.line) true h ls
  · exact h

/-! ## Copies -/

@[simp] theorem dropLocks_mem (s : State) (core owner : Nat) (kinds : List LockKind) : (dropLocks s core owner kinds).mem = s.mem := by
  unfold dropLocks
  dsimp only
  rw [foldl_mem (fun t i => State.modCtx_mem ..), State.modCore_mem]

@[simp] theorem unlockCopy_mem (s : State) (c : Copy) (kinds : List LockKind) : (unlockCopy s c kinds).mem = s.mem := by
  unfold unlockCopy; split <;> simp

@[simp] theorem holdCopy_mem (s : State) (c : Copy) (b : Bad) : (holdCopy s c b).mem = s.mem := by simp [holdCopy]
@[simp] theorem faultCopy_mem (s : State) (c : Copy) : (faultCopy s c).mem = s.mem := rfl
@[simp] theorem stopCopy_mem (s : State) (c : Copy) (e : CopyStop) : (stopCopy s c e).mem = s.mem := by cases e <;> simp [stopCopy]

@[simp] theorem startCopy_mem (s : State) (c : Copy) : (startCopy s c).mem = s.mem := by
  unfold startCopy
  split
  · split <;> simp
  · split <;> simp
  · simp
  · split
    · simp
    · split
      · simp
      · simp
      · dsimp only; split <;> simp
  · dsimp only
    split
    · simp
    · split <;> simp

theorem execCopyStart_wf (h : s.mem.wf = true) (id : Nat) : Answers (execCopyStart id s) := by
  unfold execCopyStart
  split
  · split <;> simp [h]
  · simp [h]

@[simp] theorem writeBeat_wf (h : s.mem.wf = true) (c : Copy) (ls : List (Loc × Nat)) (bs : List Byte) (bad : Bool) (lo hi : Nat) :
    (writeBeat s c ls bs bad lo hi).mem.wf = true :=
  landLines_wf (markBeat_wf (writePlaces_wf h ls bs) ..) ..

theorem unlock_ite_wf {p : Prop} [Decidable p] (h : t.mem.wf = true) (c : Copy) (kinds : List LockKind) :
    (if p then unlockCopy t c kinds else t).mem.wf = true := ite_wf (by simp [h]) h

theorem beatEnd_wf {p q : Prop} [Decidable p] [Decidable q] (h : s.mem.wf = true) (ht : t.mem.wf = true) (id : Nat) (g : Copy → Copy) (c : Copy)
    (kinds : List LockKind) :
    (if p then unlockCopy (modCopy (if q then s else t) id g) c kinds else modCopy (if q then s else t) id g).mem.wf = true :=
  unlock_ite_wf (by rw [modCopy_mem]; exact ite_wf h ht) c kinds

theorem plainBeat_wf (h : s.mem.wf = true) (c : Copy) (op : Option Nat) : (plainBeat s c op).mem.wf = true := by
  unfold plainBeat
  extract_lets d
  obtain ⟨lo, hi⟩ := beatSpan 64 d c.len c.beat
  dsimp only
  generalize (if op = some 8 then hi - 1024 else lo) = lo', (if op.isSome = true then Acc.atomic else Acc.store) = acc
  refine ite_wf (by simp [h]) ?_
  split
  · simp [h]
  · simp [h]
  · refine ite_wf (by simp [h]) ?_
    split
    · exact beatEnd_wf h (writeBeat_wf (by simp [h]) ..) ..
    · exact ite_wf (beatEnd_wf h (writeBeat_wf (by simp [h]) ..) ..) (by simp [h])
    · exact beatEnd_wf h (writeBeat_wf (by simp [h]) ..) ..

theorem tileBeat_wf (h : s.mem.wf = true) (c : Copy) (rnd : Nat) (sat : Bool) : (tileBeat s c rnd sat).mem.wf = true := by
  unfold tileBeat
  dsimp only
  split
  · simp [h]
  · simp [h]
  · refine ite_wf (by simp [h]) (unlock_ite_wf ?_ c _)
    rw [modCopy_mem]
    refine ite_wf (foldl_setPresent_wf (fun i : Nat => i) true ?_ _) ?_
    all_goals exact markBeat_wf (foldl_wf h (fun t l ht => writeBytes_wf _ _ ht) _) ..

theorem genBeat_wf (h : s.mem.wf = true) (c : Copy) : (genBeat s c).mem.wf = true := by
  unfold genBeat; split <;> simp [h]

@[simp] theorem modDest_mem (s : State) (id i : Nat) (g : McastDest → McastDest) : (modDest s id i g).mem = s.mem := rfl

@[simp] theorem mcastSend_mem (s : State) (c : Copy) (ink : Bool) (i : Nat) (d : McastDest) (lo : Nat) (bs : List Byte) (bad : Bool) :
    (mcastSend s c ink i d lo bs bad).mem = s.mem := by
  unfold mcastSend
  split
  · simp
  · split <;> simp

theorem mcastBeat_mem (s : State) (c : Copy) (ink : Bool) : (mcastBeat s c ink).mem = s.mem := by
  unfold mcastBeat
  split
  · rfl
  · split
    · rfl
    · split <;> simp

@[simp] theorem takeSlot_mem (s : State) (c : Copy) : (takeSlot s c).mem = s.mem := rfl

theorem copyBeat_wf (h : s.mem.wf = true) (c : Copy) : (copyBeat s c).mem.wf = true := by
  unfold copyBeat
  split
  · exact plainBeat_wf h ..
  · split
    · exact plainBeat_wf h ..
    · rw [mcastBeat_mem, h]
  · exact plainBeat_wf h ..
  · split
    · exact genBeat_wf h c
    · exact tileBeat_wf h ..
  · rw [mcastBeat_mem, h]

theorem execCopyBeat_wf (h : s.mem.wf = true) (id : Nat) : Answers (execCopyBeat id s) := by
  unfold execCopyBeat
  split
  · split
    · rw [answers_next]; exact copyBeat_wf (by simp [h]) _
    · simp [h]
  · simp [h]

@[simp] theorem writeDests_wf (h : s.mem.wf = true) (c : Copy) (n : Nat) : (writeDests s c n).mem.wf = true := by
  unfold writeDests
  split
  · exact h
  · refine foldl_wf h (fun t p ht => ?_) _
    split
    · exact writeNat_wf _ _ _ ht
    · exact ht

@[simp] theorem statusDone_wf (h : s.mem.wf = true) (g kS id code bytes : Nat) : (statusDone s g kS id code bytes).mem.wf = true := by
  simp [statusDone, h]

theorem completeCopy_wf (h : s.mem.wf = true) (c : Copy) : (completeCopy s c).mem.wf = true := by
  unfold completeCopy
  extract_lets u bytes v w
  have hu : u.mem.wf = true := by simp only [u]; split <;> simp [h]
  have hv : v.mem.wf = true := ite_wf (by simp [hu]) hu
  exact statusDone_wf (by simp [w, hv]) ..

/-! ## Remote writes -/

@[simp] theorem remoteOver_mem (s : State) (w : RemoteWrite) : (remoteOver s w).mem = s.mem := by
  unfold remoteOver; split <;> simp

@[simp] theorem endRemote_wf (h : s.mem.wf = true) (w : RemoteWrite) : (endRemote s w).mem.wf = true := by
  unfold endRemote
  dsimp only
  split
  · exact killFinish_wf (retireStroke_wf (by simp [h]) _) _
  · simp [h]

@[simp] theorem landRemote_wf (h : s.mem.wf = true) (w : RemoteWrite) : (landRemote s w).mem.wf = true := by
  unfold landRemote
  extract_lets l s1 s2 s3 s4
  have h1 : s1.mem.wf = true := foldl_wf (writeBytes_wf _ _ h) (fun t p ht => writeBytes_wf _ _ ht) _
  have h2 : s2.mem.wf = true := ite_wf (by simp [h1]) (ite_wf (by simp [h1]) h1)
  have h3 : s3.mem.wf = true := ite_wf h2 (by simp [h2])
  have h4 : s4.mem.wf = true := by simp only [s4]; split <;> simp [h3]
  exact endRemote_wf h4 w

theorem execRemoteWriteArrival_wf (h : s.mem.wf = true) (id : Nat) : Answers (execRemoteWriteArrival id s) := by
  unfold execRemoteWriteArrival
  split
  · exact answers_ite (by simp [h]) (answers_ite (by simp [h]) (answers_ite (by simp [h]) (by simp [h])))
  · simp [h]

theorem execArmingNotification_wf (h : s.mem.wf = true) (core line : Nat) : Answers (execArmingNotification core line s) := by
  unfold execArmingNotification
  extract_lets held
  split
  · rw [answers_next]
    have hl := foldl_wf h (fun t w ht => landRemote_wf ht w) (held.filter (fun w => !gone s w.part w.core))
    exact ite_wf (ite_wf h hl) (ite_wf h hl)
  · simp [h]

@[simp] theorem settleFifo_wf (h : s.mem.wf = true) (n : Nat) (a : AgentId) : (settleFifo n s a).mem.wf = true := by
  induction n generalizing s with
  | zero => exact drainFifo_wf h a
  | succ n ih =>
    have hd := drainFifo_wf h a
    unfold settleFifo
    dsimp only
    split
    · exact hd
    · exact ite_wf hd (ite_wf (ih (landRemote_wf hd _)) (ite_wf hd hd))

theorem execHoldTimeout_wf (h : s.mem.wf = true) (id : Nat) : Answers (execHoldTimeout id s) := by
  unfold execHoldTimeout
  split
  · split
    · split
      · split <;> simp [h]
      · simp [h]
    · simp [h]
  · simp [h]

/-! ## Rounds and tile products -/

theorem execMmrFire_wf (h : s.mem.wf = true) (group cv : Nat) : Answers (execMmrFire group cv s) := by
  unfold execMmrFire
  dsimp only
  split
  · exact answers_ite (by simp [putCv_mem, h]) (by simp [h])
  · simp [h]

theorem roundResult_wf (s : State) (r : Fired) : (roundResult s r).wf = s.mem.wf :=
  foldl_mem_wf (fun m _ => foldl_mem_wf (fun m _ => m.putAcc_wf ..) _ m) _ s.mem

theorem completeFired_wf (h : s.mem.wf = true) (r : Fired) : (completeFired s r).mem.wf = true := by
  refine releaseGroup_wf (foldl_wf ?_ (fun t e ht => opOver_wf ht ..) _) _
  rw [State.modCore_mem, roundResult_wf, h]

theorem execMmrComplete_wf (h : s.mem.wf = true) (id : Nat) : Answers (execMmrComplete id s) := by
  unfold execMmrComplete
  split
  · split
    · rw [answers_next]; exact completeFired_wf h _
    · simp [h]
  · simp [h]

theorem execCvTimeout_wf (h : s.mem.wf = true) (group cv : Nat) : Answers (execCvTimeout group cv s) := by
  unfold execCvTimeout
  split
  · split
    · rw [answers_next]
      refine discardRound_wf (foldl_wf h (fun t q ht => ?_) _) _ _
      split <;> simp [ht]
    · simp [h]
  · simp [h]

@[simp] theorem modMms_mem (s : State) (id : Nat) (g : Mms → Mms) : (modMms s id g).mem = s.mem := rfl

@[simp] theorem mmsDone_wf (h : s.mem.wf = true) (m : Mms) (code bytes : Nat) : (mmsDone s m code bytes).mem.wf = true :=
  statusDone_wf (by simp [h]) ..

@[simp] theorem readBlock_mem (s : State) (core : Nat) (now : OpEntry) : (readBlock s core now).1.mem = s.mem := by
  unfold readBlock
  dsimp only
  split
  · simp
  · split
    · rfl
    · split <;> simp

theorem mmsBlock_wf (h : s.mem.wf = true) (m : Mms) (a b : Tile) (i j c : Nat) : (mmsBlock s m a b i j c).1.mem.wf = true := by
  unfold mmsBlock
  dsimp only
  rw [foldl_mem_wf (fun m _ => foldl_mem_wf (fun m _ => m.putAcc_wf ..) _ m)]
  simp [h]

theorem mmsStep_wf (h : s.mem.wf = true) (m : Mms) : (mmsStep s m).mem.wf = true := by
  unfold mmsStep
  dsimp only
  split
  · split <;> simp [h]
  · have hb := mmsBlock_wf h m
    split
    · exact mmsDone_wf (hb ..) ..
    · exact hb ..

theorem execMmsStep_wf (h : s.mem.wf = true) (id : Nat) : Answers (execMmsStep id s) := by
  unfold execMmsStep
  dsimp only
  split
  · split
    · rw [answers_next]; exact mmsStep_wf (ite_wf (by simp [h]) h) _
    · simp [h]
  · simp [h]

/-! ## Sessions -/

@[simp] theorem gateReceive_wf (h : s.mem.wf = true) (m : GateMsg) : (gateReceive s m).mem.wf = true := by
  unfold gateReceive; dsimp only; split <;> simp [h]

@[simp] theorem abortMsgs_wf (h : s.mem.wf = true) (ms : List GateMsg) : (abortMsgs s ms).mem.wf = true := gateResults_wf h _

@[simp] theorem quitAll_mem (s : State) (n : Nat) : (quitAll s n).mem = s.mem := rfl

@[simp] theorem endSession_wf (h : s.mem.wf = true) (n : Nat) : (endSession s n).mem.wf = true := by
  unfold endSession
  split
  · exact h
  · simp only [State.modGate_mem, quitAll_mem]
    exact abortMsgs_wf (foldl_wf h (fun t r ht => abortRound_wf ht r) _) _

@[simp] theorem endSessionsOf_wf (h : s.mem.wf = true) (part : Nat) : (endSessionsOf s part).mem.wf = true :=
  foldl_wf h (fun _ n ht => endSession_wf ht n) _

@[simp] theorem abortRoundsOf_wf (h : s.mem.wf = true) (part : Nat) : (abortRoundsOf s part).mem.wf = true :=
  foldl_wf h (fun _ r ht => abortRound_wf ht r) _

@[simp] theorem gateRestore_wf (h : s.mem.wf = true) (part : Nat) : (gateRestore s part).mem.wf = true := by
  unfold gateRestore
  exact foldl_wf (by simp [h]) (fun _ r ht => gateLand_wf ht r) _

theorem execGateWords_wf (h : s.mem.wf = true) (id : Nat) : Answers (execGateWords id s) := by
  unfold execGateWords; split <;> simp [h]

theorem execGateTimeout_wf (h : s.mem.wf = true) (session round : Nat) : Answers (execGateTimeout session round s) := by
  unfold execGateTimeout
  split
  · rw [answers_next]; exact ite_wf (sweepRetired_wf (gateSweep_wf (abortRound_wf h _))) h
  · simp [h]

theorem execSessionCreate_wf (h : s.mem.wf = true) (num : Nat) (grant : Grant) (pools : List (List Pool)) :
    Answers (execSessionCreate num grant pools s) := by
  unfold execSessionCreate; split <;> simp [h]

theorem execSessionEnd_wf (h : s.mem.wf = true) (num : Nat) : Answers (execSessionEnd num s) := by simp [execSessionEnd, h]

theorem execSessionExpiry_wf (h : s.mem.wf = true) (num : Nat) : Answers (execSessionExpiry num s) := by
  unfold execSessionExpiry
  split
  · rw [answers_next]; exact ite_wf (by simp [h]) h
  · simp [h]

end Sys2Proof.Machine
end

section
/-!
SUPPORT. Flits, signals and the chunks of collectives keep every memory's canonical form (log 4).
-/
namespace Sys2Proof.Machine

variable {s t : State}

/-! ## Ports -/

@[simp] theorem linkIn_mem (s : State) (v : Option Came) : (linkIn s v).1.mem = s.mem := by
  unfold linkIn
  split
  · rfl
  · split
    · rfl
    · dsimp only
      split
      · rfl
      · split
        · simp
        · split <;> simp

@[simp] theorem idleIn_mem (s : State) (c : Came) : (idleIn s c).mem = s.mem := by
  unfold idleIn
  split
  · dsimp only; split <;> simp
  · rfl

@[simp] theorem takeIn_mem (s : State) (f : Flit) (v : Option Came) : (takeIn s f v).1.mem = s.mem := by
  unfold takeIn
  split
  · rfl
  · dsimp only; split <;> simp

@[simp] theorem flitFault_mem (s : State) (part : Nat) (f : Flit) (b : Bad) : (flitFault s part f b).mem = s.mem := by
  unfold flitFault; split <;> simp

@[simp] theorem ackFlit_mem (s : State) (f : Flit) (late : Bool) : (ackFlit s f late).mem = s.mem := by
  unfold ackFlit; dsimp only; split <;> simp

@[simp] theorem received_mem (s : State) (f : Flit) : (received s f).mem = s.mem := rfl

@[simp] theorem dropPeer_mem (s : State) (part : Option Nat) (f : Flit) : (dropPeer s part f).mem = s.mem := by
  unfold dropPeer; dsimp only; split <;> simp

@[simp] theorem dropOutstanding_mem (s : State) (dev : Nat) : (dropOutstanding s dev).mem = s.mem := by
  unfold dropOutstanding
  dsimp only
  rw [State.modLink_mem, foldl_mem (fun t g => countUp_mem t ..), foldl_mem (fun t f => countUp_mem t ..)]

@[simp] theorem portDown_mem (s : State) (port : Nat) : (portDown s port).mem = s.mem := rfl

theorem execPortDown_wf (h : s.mem.wf = true) (port : Nat) : Answers (execPortDown port s) := by
  unfold execPortDown; rw [answers_next]; exact ite_wf (by simp [h]) h

theorem execLinkReplay_wf (h : s.mem.wf = true) (port : Nat) (lseq : BitVec 16) : Answers (execLinkReplay port lseq s) := by
  unfold execLinkReplay
  split
  · exact answers_ite (answers_ite (by simp [h]) (by simp [h])) (by simp [h])
  · simp [h]

@[simp] theorem setRoute_mem (s : State) (dev : Nat) (port : Option Nat) : (setRoute s dev port).mem = s.mem := by
  unfold setRoute
  split
  · simp
  · dsimp only; rw [foldl_mem transmit_mem, State.modLink_mem]

/-! ## At the target -/

@[simp] theorem takeResult_mem (s : State) (part va : Nat) (f : Flit) : (takeResult s part va f).mem = s.mem := by
  unfold takeResult
  split
  · rw [ackFlit_mem]; split <;> simp
  · simp

theorem applyPeer_wf (h : s.mem.wf = true) (f : Flit) : (applyPeer s f).mem.wf = true := by
  unfold applyPeer
  split
  · simp [h]
  · dsimp only
    split
    · split <;> simp [h]
    · split
      · simp [h]
      · split <;> simp [h]
    · simp [h]
    · split
      · simp [h]
      · rw [ackFlit_mem, received_mem]
        exact ite_wf (by simp [h]) (by simp [h])
    · exact h
    · exact h
    · exact h

theorem applyInOrder_wf (h : s.mem.wf = true) (f : Flit) : (applyInOrder s f).mem.wf = true := by
  unfold applyInOrder
  dsimp only
  split
  · exact ite_wf h (applyPeer_wf h f)
  · exact ite_wf (by simp [h]) (by simp [h])

theorem execPeerStoreArrival_wf (h : s.mem.wf = true) (a : Arrival) : Answers (execPeerStoreArrival a s) := by
  unfold execPeerStoreArrival
  dsimp only
  split
  · cases a.by_ <;> simp [h]
  · split
    · simp [h]
    · split
      · rw [answers_next]; exact applyInOrder_wf (by simp [h]) _
      · simp [h]

theorem execSignalSend_wf (h : s.mem.wf = true) (id : Nat) : Answers (execSignalSend id s) := by
  unfold execSignalSend
  split
  · split <;> simp [h]
  · simp [h]

theorem applySignal_wf (h : s.mem.wf = true) (f : Flit) (va : Nat) (add : Dword) (stamp : BitVec 16) : (applySignal s f va add stamp).mem.wf = true := by
  unfold applySignal
  dsimp only
  split
  · simp [h]
  · split
    · simp [h]
    · split
      · simp [h]
      · split <;> simp [h]

theorem execSignalArrival_wf (h : s.mem.wf = true) (a : Arrival) : Answers (execSignalArrival a s) := by
  unfold execSignalArrival
  dsimp only
  split
  · split
    · simp [h]
    · split
      · rw [answers_next]; exact applySignal_wf (by simp [h]) ..
      · simp [h]
  · simp [h]

/-! ## At the sender -/

@[simp] theorem beatAcked_mem (s : State) (f : Flit) (late : Bool) : (beatAcked s f late).mem = s.mem := by
  unfold beatAcked; split <;> simp

@[simp] theorem chunkAcked_mem (s : State) (f : Flit) : (chunkAcked s f).mem = s.mem := by
  unfold chunkAcked; split <;> rfl

theorem acknowledge_wf (h : s.mem.wf = true) (f : Flit) (late : Bool) : (acknowledge s f late).mem.wf = true := sweepReleased_wf (by simp [h])

theorem execPeerAck_wf (h : s.mem.wf = true) (a : Ack) : Answers (execPeerAck a s) := by
  unfold execPeerAck
  dsimp only
  split
  · rw [answers_next]; exact acknowledge_wf (by simp [h]) ..
  · simp [h]

@[simp] theorem failCopiesTo_mem (s : State) (dev : Nat) : (failCopiesTo s dev).mem = s.mem := by simp [failCopiesTo]

theorem execRouteTimeout_wf (h : s.mem.wf = true) (dev : Nat) : Answers (execRouteTimeout dev s) := by
  unfold execRouteTimeout
  dsimp only
  split
  · split
    · rw [answers_next]
      refine sweepReleased_wf ?_
      rw [State.modLink_mem, failCopiesTo_mem, foldl_mem chunkAcked_mem, dropOutstanding_mem, h]
    · simp [h]
  · simp [h]

theorem execTimeSample_wf (h : s.mem.wf = true) (remote : Dword) (held : Bool) : Answers (execTimeSample remote held s) := by
  simp [execTimeSample, h]

/-! ## Collectives -/

theorem putTile_wf (h : s.mem.wf = true) {l : Launch} {va : Nat} {bs : List Byte} {bad : Bool} (ht : putTile s l va bs bad = .ok t) :
    t.mem.wf = true := by
  unfold putTile at ht
  split at ht
  · cases ht; exact writeMarked_wf (ite_wf h (clearWhole_wf h _)) ..
  · cases ht; exact h
  · cases ht

@[simp] theorem landHome_wf (h : s.mem.wf = true) (l : Launch) (c : Coll) (i : Nat) : (landHome s l c i).mem.wf = true := by
  unfold landHome
  split
  · split
    · dsimp only
      split
      · simp [h]
      next hu =>
        have hw := putTile_wf h hu
        split
        · simp [h]
        next hv => simp [putG_wf hw hv]
    · exact h
  · exact h

theorem completeFiring_wf (h : s.mem.wf = true) (c : Copy) (launch chunk dev : Nat) : (completeFiring s c launch chunk dev).mem.wf = true := by
  unfold completeFiring
  dsimp only
  split
  · rw [modChunk_mem]; exact ite_wf (by simp [h]) (by simp [h])
  · split
    · rw [modChunk_mem]; exact ite_wf (by simp [h]) (by simp [h])
    · split
      · refine landHome_wf ?_ ..
        rw [modChunk_mem]
        exact ite_wf (by simp [h]) (by simp [h])
      · simp [h]

theorem execCopyComplete_wf (h : s.mem.wf = true) (id : Nat) : Answers (execCopyComplete id s) := by
  unfold execCopyComplete
  split
  · split
    · rw [answers_next]
      split
      · exact completeFiring_wf h ..
      · exact completeCopy_wf h _
    · simp [h]
  · simp [h]

@[simp] theorem fireChunk_mem (s : State) (l : Launch) (c : Coll) (i : Nat) : (fireChunk s l c i).mem = s.mem := rfl

theorem execChunkFire_wf (h : s.mem.wf = true) (launch chunk : Nat) : Answers (execChunkFire launch chunk s) := by
  unfold execChunkFire
  split
  · exact answers_ite (by simp [h]) (answers_ite (by simp [h]) (by simp [h]))
  · simp [h]

@[simp] theorem sendTile_mem (s : State) (part dev va : Nat) (bs : List Byte) (bad : Bool) : (sendTile s part dev va bs bad).mem = s.mem :=
  foldl_mem (fun _ _ => sendFlit_mem ..) _ s

@[simp] theorem foldChunk_wf (h : s.mem.wf = true) (l : Launch) (c : Coll) (k : Chunk) : (foldChunk s l c k).mem.wf = true := by
  unfold foldChunk
  split
  · simp [h]
  · refine landHome_wf (foldl_wf ?_ (fun t r ht => ?_) _) ..
    · simp [h]
    · simp [ht]

theorem execChunkFold_wf (h : s.mem.wf = true) (launch chunk : Nat) : Answers (execChunkFold launch chunk s) := by
  unfold execChunkFold
  split
  · exact answers_ite (by simp [h]) (by simp [h])
  · simp [h]

theorem execChunkTimeout_wf (h : s.mem.wf = true) (launch chunk : Nat) : Answers (execChunkTimeout launch chunk s) := by
  unfold execChunkTimeout
  split
  · exact answers_ite (by simp [h]) (by simp [h])
  · simp [h]

@[simp] theorem dropHeld_mem (s : State) (p : Flit → Bool) : (dropHeld s p).mem = s.mem := by
  unfold dropHeld
  rw [foldl_mem (fun t f => ackFlit_mem t f false), State.modLink_mem]

theorem execMemberTimeout_wf (h : s.mem.wf = true) (launch chunk : Nat) : Answers (execMemberTimeout launch chunk s) := by
  unfold execMemberTimeout
  split
  · split
    · split
      · simp [h]
      next hu => simp [putG_wf h hu]
    · simp [h]
  · simp [h]

theorem execChunkResultLand_wf (h : s.mem.wf = true) (launch chunk : Nat) (code : Byte) (missing : Nat) (skew : Bool) (data : ResultTile) :
    Answers (execChunkResultLand launch chunk code missing skew data s) := by
  unfold execChunkResultLand
  split
  · split
    · split
      · simp [h]
      next hu =>
        split
        · simp [h]
        next hv => simp [putG_wf (putTile_wf h hu) hv]
    · simp [h]
  · simp [h]

end Sys2Proof.Machine
end

section
/-!
SUPPORT. Firmware's settings, faults, kills and time slices keep every memory's canonical form (log 4).
-/
namespace Sys2Proof.Machine

variable {s t : State}

/-! ## Pages of stage 2 -/

theorem MemSys.wf_of_g {m : MemSys} (h : m.wf = true) {g : Memory} (hg : memWf g = true) : ({ m with g := g } : MemSys).wf = true := by
  obtain ⟨hu, hc, hd, -, hh⟩ := MemSys.wf_iff.1 h
  exact MemSys.wf_iff.2 ⟨hu, hc, hd, hg, hh⟩

theorem foldl_memWf {α : Type} {g : Memory → α → Memory} (hg : ∀ m a, memWf m = true → memWf (g m a) = true) (l : List α) {m : Memory}
    (h : memWf m = true) : memWf (l.foldl g m) = true := by
  induction l generalizing m with
  | nil => exact h
  | cons a l ih => exact ih (hg m a h)

@[simp] theorem putEntries_wf (h : s.mem.wf = true) (a lvl size : Nat) (g : Nat → Nat) : (putEntries s a lvl size g).mem.wf = true := by
  obtain ⟨-, -, -, hg, -⟩ := MemSys.wf_iff.1 h
  exact MemSys.wf_of_g h (foldl_memWf (fun m i hm => memWf_memWrite _ m _ hm) _ hg)

@[simp] theorem copyPage_wf (h : s.mem.wf = true) (home : Home) (key old new size : Nat) : (copyPage s home key old new size).mem.wf = true := by
  unfold copyPage
  refine foldl_wf h (fun t i ht => ?_) _
  simp [writeBytes_wf, ht]

@[simp] theorem movePage_wf (h : s.mem.wf = true) (part ipa pa : Nat) (g : Nat → Nat) : (movePage s part ipa pa g).mem.wf = true := by
  unfold movePage
  split
  · split
    · exact h
    · rw [invalidate_mem]; exact putEntries_wf (copyPage_wf h ..) ..
  · exact h

@[simp] theorem losePage_wf (h : s.mem.wf = true) (part ipa : Nat) : (losePage s part ipa).mem.wf = true := by
  unfold losePage
  split
  · split <;> simp [h]
  · exact h

@[simp] theorem ipaWrite_wf (h : s.mem.wf = true) (part ipa : Nat) (bs : List Byte) : (ipaWrite s part ipa bs).mem.wf = true := by
  unfold ipaWrite
  split
  · split <;> simp [writeBytes_wf, h]
  · exact h

@[simp] theorem clearArea_wf (h : s.mem.wf = true) (part ipa : Nat) : (clearArea s part ipa).mem.wf = true := ipaWrite_wf h ..

/-! ## Registers -/

@[simp] theorem setPart_mem (s : State) (part : Nat) (ok : Bool) (g : Partition → Partition) : (setPart s part ok g).mem = s.mem := by
  unfold setPart; split <;> simp

@[simp] theorem putCr_mem (s : State) (part n v : Nat) : (putCr s part n v).mem = s.mem := rfl

theorem writeRegister_wf (h : s.mem.wf = true) (w : RegWrite) : (writeRegister s w).mem.wf = true := by
  cases w with
  | port => exact ite_wf h h
  | route dev port => cases port with
    | none => simp [writeRegister, h]
    | some p => exact ite_wf (by simp [h]) h
  | telemetryArea => exact ite_wf (by simp [h]) h
  | deviceNumber => exact ite_wf h h
  | movePage => exact movePage_wf h ..
  | losePage => exact losePage_wf h ..
  | nbvVer | weight | vnWeight | engineWeight | cWindow | peer | stealRing | holdTimeout | spill | saveArea => simp [writeRegister, h]
  | _ => exact h

theorem execRegisterWrite_wf (h : s.mem.wf = true) (w : RegWrite) : Answers (execRegisterWrite w s) := by
  unfold execRegisterWrite; rw [answers_next]; exact ite_wf (writeRegister_wf h w) h

theorem execPartitionCreate_wf (h : s.mem.wf = true) (cfg : PartCfg) : Answers (execPartitionCreate cfg s) := by
  unfold execPartitionCreate
  split
  · rw [answers_next]
    refine foldl_wf ?_ (fun t c ht => writeBytes_wf _ _ ht) _
    exact h
  · simp [h]

/-! ## Kills -/

theorem execTrapDelivery_wf (h : s.mem.wf = true) (agent : AgentId) : Answers (execTrapDelivery agent s) := by
  unfold execTrapDelivery
  split
  · split
    · split <;> simp [h]
    · simp [h]
  · simp [h]

theorem execKillStroke_wf (h : s.mem.wf = true) (k : Nat) : Answers (execKillStroke k s) := by simp [execKillStroke, h]
theorem execKillContext_wf (h : s.mem.wf = true) (g : Nat) : Answers (execKillContext g s) := by simp [execKillContext, h]

@[simp] theorem dropRanges_mem (s : State) (id : Nat) : (dropRanges s id).mem = s.mem := rfl
@[simp] theorem dropLaunchFaults_mem (s : State) (id : Nat) : (dropLaunchFaults s id).mem = s.mem := rfl

@[simp] theorem unblock_wf (h : s.mem.wf = true) (id : Nat) : (unblock s id).mem.wf = true := by
  unfold unblock
  refine foldl_wf h (fun t e ht => ?_) _
  split <;> simp [ht]

@[simp] theorem killGroup_wf (h : s.mem.wf = true) (g : Nat) : (killGroup s g).mem.wf = true :=
  foldl_wf (killCtx_wf h g) (fun _ k ht => killStroke_wf ht k) _

@[simp] theorem killSaved_wf (h : s.mem.wf = true) (part id : Nat) : (killSaved s part id).mem.wf = true := forfeit_wf h _

@[simp] theorem killLaunch_wf (h : s.mem.wf = true) (id : Nat) : (killLaunch s id).mem.wf = true := by
  unfold killLaunch
  split
  · exact h
  · split
    · exact h
    · exact h
    · exact h
    · extract_lets t u v w
      have hv : v.mem.wf = true := foldl_wf (by simp [u, t, h]) (fun _ g ht => killGroup_wf ht g) _
      have hw : w.mem.wf = true := unblock_wf (killSaved_wf hv ..) _
      split
      · exact retireLaunch_wf hw _
      · exact hw

theorem execKillLaunch_wf (h : s.mem.wf = true) (id : Nat) : Answers (execKillLaunch id s) := by simp [execKillLaunch, h]

@[simp] theorem faultCopies_mem (s : State) (part : Nat) (which : Copy → Bool) : (faultCopies s part which).mem = s.mem := rfl

/-! ## Faults -/

@[simp] theorem dropFault_mem (s : State) (token : Nat) : (dropFault s token).mem = s.mem := rfl

@[simp] theorem resumeFault_mem (s : State) (r : FaultRec) : (resumeFault s r).mem = s.mem := by
  unfold resumeFault; dsimp only; split <;> simp

theorem execFaultResume_wf (h : s.mem.wf = true) (token : Nat) : Answers (execFaultResume token s) := by
  unfold execFaultResume; split <;> simp [h]

theorem endFault_wf (h : s.mem.wf = true) (r : FaultRec) : (endFault s r).mem.wf = true := by
  unfold endFault
  extract_lets u v
  have hv : v.mem.wf = true := ite_wf h h
  split
  · exact killAgent_wf hv _
  · exact hv
  · exact hv
  · split <;> simp [hv]
  · exact hv

theorem execFaultKill_wf (h : s.mem.wf = true) (token : Nat) : Answers (execFaultKill token s) := by
  unfold execFaultKill
  split
  · rw [answers_next]; exact endFault_wf h _
  · simp [h]

theorem execCowResolve_wf (h : s.mem.wf = true) (token pa : Nat) : Answers (execCowResolve token pa s) := by
  unfold execCowResolve
  split
  · dsimp only
    split
    · exact answers_ite (by simp [h]) (answers_ite (by simp [h]) (answers_ite (by simp [h]) (by simp [h])))
    · simp [h]
  · simp [h]

@[simp] theorem failLaunch_wf (h : s.mem.wf = true) (id : Nat) : (failLaunch s id).mem.wf = true := by
  unfold failLaunch
  split
  · split <;> simp [h]
  · exact h

@[simp] theorem failPartition_wf (h : s.mem.wf = true) (part : Nat) : (failPartition s part).mem.wf = true := by
  unfold failPartition
  refine sweepRetired_wf (abortRoundsOf_wf ?_ _)
  rw [faultCopies_mem]
  exact foldl_wf (by simp [h]) (fun _ id ht => failLaunch_wf ht id) _

theorem execPagePull_wf (h : s.mem.wf = true) (token : Nat) (pulled : Option (Nat × List Byte)) : Answers (execPagePull token pulled s) := by
  unfold execPagePull
  split
  · simp [h]
  · split
    · simp [h]
    · split
      · rw [answers_next, reportError_mem]
        exact failPartition_wf (by simp [h]) _
      · split
        · split
          · simp [h]
          · rw [answers_next, resumeFault_mem, invalidate_mem]
            exact putEntries_wf (writeBytes_wf _ _ h) ..
        · simp [h]

/-! ## Saves -/

@[simp] theorem drainStroke_wf (h : s.mem.wf = true) (k : Nat) : (drainStroke s k).mem.wf = true :=
  foldl_wf (settleFifo_wf h ..) (fun _ o ht => completeIfDone_wf ht k o) _

@[simp] theorem settleStroke_wf (h : s.mem.wf = true) (k : Nat) : (settleStroke s k).mem.wf = true := by
  unfold settleStroke
  refine killFinish_wf (retireStroke_wf (foldl_wf (unitDone_wf (unitDone_wf (drainStroke_wf h k) ..) ..) (fun t i ht => ?_) _) k) k
  split <;> simp [ht]

@[simp] theorem settleGroups_wf (h : s.mem.wf = true) (gs : List Nat) : (settleGroups s gs).mem.wf = true :=
  foldl_wf (foldl_wf (foldl_wf h (fun _ k ht => settleStroke_wf ht k) _) (fun _ _ ht => settleFifo_wf ht ..) _)
    (fun _ r ht => completeFired_wf ht r) _

@[simp] theorem quiesce_mem (s : State) (part : Nat) (gs : List Nat) : (quiesce s part gs).mem = s.mem := rfl

@[simp] theorem takeSave_wf (h : s.mem.wf = true) (part core : Nat) : (takeSave s part core).mem.wf = true := by
  unfold takeSave
  dsimp only
  rw [batonGrant_mem]
  exact scrubCore_wf (by simp [h]) ..

@[simp] theorem areaPages_wf (h : s.mem.wf = true) (wr : Bool) (fuel part ipa n i : Nat) : (areaPages wr fuel s part ipa n i).1.mem.wf = true := by
  induction fuel generalizing s i with
  | zero => exact h
  | succ fuel ih =>
    unfold areaPages
    split
    · exact h
    · split
      · generalize (if wr = true then 1 else 0) = b
        split
        · exact h
        · exact ih (ite_wf (writeBytes_wf _ _ h) h) _
      · exact h

@[simp] theorem areaAccess_wf (h : s.mem.wf = true) (wr : Bool) (part core : Nat) (gs : List Group) :
    (areaAccess s wr part core gs).1.mem.wf = true := areaPages_wf h ..

@[simp] theorem stopSave_mem (s : State) (part core ipa : Nat) : (stopSave s part core ipa).mem = s.mem := rfl
@[simp] theorem stopRestore_mem (s : State) (part core ipa : Nat) : (stopRestore s part core ipa).mem = s.mem := rfl

@[simp] theorem saveCore_wf (h : s.mem.wf = true) (part core : Nat) : (saveCore part s core).mem.wf = true := by
  unfold saveCore; dsimp only; split <;> simp [h]

theorem execSliceEnd_wf (h : s.mem.wf = true) (part : Nat) (cores : List Nat) : Answers (execSliceEnd part cores s) := by
  unfold execSliceEnd
  split
  · rw [answers_next]
    refine foldl_wf ?_ (fun _ k ht => saveCore_wf ht part k) _
    rw [quiesce_mem]
    exact settleGroups_wf (ite_wf (by simp [h]) h) _
  · simp [h]

/-! ## Restores -/

@[simp] theorem giveBack_wf (h : s.mem.wf = true) (part core : Nat) (a : SaveArea) : (giveBack s part core a).mem.wf = true := by
  obtain ⟨hu, hc, hd, hg, hh⟩ := MemSys.wf_iff.1 h
  unfold giveBack
  refine sweepRetired_wf (foldl_wf ?_ (fun _ k ht => killFinish_wf ht k) _)
  rw [batonGrant_mem, State.modPart_mem, foldl_mem (fun t e => State.modCore_mem ..)]
  exact MemSys.wf_iff.2 ⟨foldl_memWf (fun m c hm => memWf_memSet m _ _ hm) _ (memWf_filter _ _ hu), hc, hd, hg, hh⟩

@[simp] theorem restoreCore_wf (h : s.mem.wf = true) (part core : Nat) : (restoreCore part s core).mem.wf = true := by
  unfold restoreCore
  split
  · dsimp only
    split
    · split
      · exact giveBack_wf (areaAccess_wf h ..) ..
      · simp [h]
    · exact h
  · exact h

@[simp] theorem restoreCores_wf (h : s.mem.wf = true) (part : Nat) (hit : Nat → Bool) : (restoreCores s part hit).mem.wf = true := by
  unfold restoreCores
  split
  · refine gateRestore_wf ?_ _
    rw [State.modPart_mem]
    exact foldl_wf h (fun _ k ht => restoreCore_wf ht part k) _
  · exact h

theorem execSaveRestart_wf (h : s.mem.wf = true) (part : Nat) : Answers (execSaveRestart part s) := by
  unfold execSaveRestart
  split
  · have hs (l : List Nat) : (l.foldl (saveCore part) s).mem.wf = true := foldl_wf h (fun _ k ht => saveCore_wf ht part k) l
    rw [answers_next]
    exact ite_wf (hs _) (restoreCores_wf (hs _) ..)
  · simp [h]

theorem execPartitionRestore_wf (h : s.mem.wf = true) (part : Nat) (cores : List Nat) : Answers (execPartitionRestore part cores s) := by
  simp [execPartitionRestore, h]

/-! ## The kill of a partition -/

@[simp] theorem dropSaved_mem (part : Nat) (s : State) (e : Nat × Group) : (dropSaved part s e).mem = s.mem := rfl

@[simp] theorem endSaved_wf (h : s.mem.wf = true) (part : Nat) : (endSaved s part).mem.wf = true := by
  unfold endSaved
  split
  · refine foldl_wf ?_ (fun t k ht => ?_) _
    · rw [State.modPart_mem, foldl_mem (fun t e => dropSaved_mem part t e), h]
    · split
      · exact ite_wf (giveBack_wf ht ..) ht
      · exact ht
  · exact h

@[simp] theorem absorbRemote_wf (h : s.mem.wf = true) (w : RemoteWrite) : (absorbRemote s w).mem.wf = true := by
  unfold absorbRemote
  refine endRemote_wf ?_ w
  split <;> simp [h]

theorem clearPartition_wf (h : s.mem.wf = true) (part : Nat) : (clearPartition s part).mem.wf = true := by
  unfold clearPartition
  extract_lets doom s1 s2 s3 s4 s5 s6 s7 s8 s9 cores s10
  have h3 : s3.mem.wf = true := by
    refine foldl_wf ?_ (fun _ w ht => absorbRemote_wf ht w) _
    simp only [s2, State.modPart_mem]
    exact h
  have h5 : s5.mem.wf = true := by
    refine foldl_wf ?_ (fun _ id ht => killLaunch_wf ht id) _
    simp only [s4, faultCopies_mem, h3]
  have h6 : s6.mem.wf = true := endSaved_wf (foldl_wf h5 (fun _ g ht => killGroup_wf ht g) _) _
  have h8 : s8.mem.wf = true := by
    simp only [s8, invalidate_mem, dropCode_mem]
    refine endSessionsOf_wf ?_ _
    simp only [s7, State.modPart_mem, h6]
  have h9 : s9.mem.wf = true := by simp only [s9, State.modLink_mem, dropHeld_mem, h8]
  have h10 : s10.mem.wf = true := foldl_wf (sweepRetired_wf h9) (fun _ k ht => scrubCore_wf ht ..) _
  refine foldl_wf ?_ (fun _ l ht => retireLaunch_wf ht l) _
  exact foldl_wf h10 (fun _ g ht => releaseGroup_wf ht g) _

theorem execKillPartition_wf (h : s.mem.wf = true) (part : Nat) : Answers (execKillPartition part s) := by
  simp [execKillPartition, clearPartition_wf h]

theorem execPartitionReset_wf (h : s.mem.wf = true) (part : Nat) : Answers (execPartitionReset part s) := by
  simp [execPartitionReset, clearPartition_wf h]

end Sys2Proof.Machine
end

section
/-!
SUPPORT. Fences, boot, power and the host keep every memory's canonical form (log 4); with them every event and every step.
-/
namespace Sys2Proof.Machine

variable {s t : State}

/-! ## Fences -/

@[simp] theorem cancelSteal_mem (s : State) (c : Nat) : (cancelSteal s c).mem = s.mem := by
  unfold cancelSteal; dsimp only; split <;> rfl

@[simp] theorem stopSaved_wf (h : s.mem.wf = true) (c : Nat) (e : Nat × Partition) : (stopSaved c s e).mem.wf = true := by
  unfold stopSaved
  refine forfeit_wf ?_ _
  rw [foldl_mem (fun t g => State.modPart_mem ..), foldl_mem (fun t g => dropSaved_mem e.1 t g), h]

theorem stopCluster_wf (h : s.mem.wf = true) (c : Nat) : (stopCluster s c).mem.wf = true := by
  unfold stopCluster
  extract_lets s1 gs ks s2 s3 s4 s5 s6
  have h1 : s1.mem.wf = true := foldl_wf h (fun _ e ht => stopSaved_wf ht c e) _
  have h2 : s2.mem.wf = true := foldl_wf h1 (fun _ g ht => killGroup_wf ht g) _
  have h3 : s3.mem.wf = true := foldl_wf h2 (fun _ _ ht => completeCopy_wf ht _) _
  have h4 : s4.mem.wf = true := by
    refine foldl_wf h3 (fun t k ht => ?_) _
    split
    · exact ite_wf (completeFiring_wf ht ..) ht
    · exact ht
  have h5 : s5.mem.wf = true := foldl_wf h4 (fun _ m ht => mmsDone_wf ht m 1 0) _
  have h6 : s6.mem.wf = true := foldl_wf h5 (fun _ r ht => completeFired_wf ht r) _
  refine foldl_wf (sweepRetired_wf ?_) (fun _ g ht => releaseGroup_wf ht g) _
  exact foldl_wf h6 (fun _ k ht => settleStroke_wf ht k) _

@[simp] theorem fenceCluster_wf (h : s.mem.wf = true) (c : Nat) : (fenceCluster s c).mem.wf = true := by
  unfold fenceCluster
  refine foldl_wf ?_ (fun _ id ht => killLaunch_wf ht id) _
  rw [foldl_mem (fun t k => State.modCore_mem ..), cancelSteal_mem, h]

@[simp] theorem applyFence_wf (h : s.mem.wf = true) (u : FenceUnit) : (applyFence s u).mem.wf = true := by
  cases u <;> simp [applyFence, h]

@[simp] theorem machineCheck_wf (h : s.mem.wf = true) (u : FenceUnit) : (machineCheck s u).mem.wf = true := by
  cases u with
  | cluster c => exact ite_wf (stopCluster_wf h c) h
  | _ => exact h

@[simp] theorem endFence_mem (s : State) (u : FenceUnit) : (endFence s u).mem = s.mem := rfl

theorem execUnitFence_wf (h : s.mem.wf = true) (u : FenceUnit) : Answers (execUnitFence u s) := by
  unfold execUnitFence
  split
  · extract_lets begun v w now
    have hv : v.mem.wf = true := ite_wf h (by simp [h])
    have hw : w.mem.wf = true := machineCheck_wf hv u
    rw [answers_next]
    exact ite_wf (by simp [hw]) hw
  · simp [h]

/-! ## Telemetry and boot -/

@[simp] theorem publish_wf (h : s.mem.wf = true) (e : Nat × Partition) : (publish s e).mem.wf = true := by
  unfold publish
  obtain ⟨r, n⟩ := mergedTelemetry s e.1
  exact ite_wf h (ipaWrite_wf (ipaWrite_wf (clearArea_wf (by simp [h]) ..) ..) ..)

theorem execTelemetryPeriodEnd_wf (h : s.mem.wf = true) : Answers (execTelemetryPeriodEnd s) := by
  unfold execTelemetryPeriodEnd
  split
  · rw [answers_next, State.modSys_mem]; exact foldl_wf h (fun _ e ht => publish_wf ht e) _
  · simp [h]

@[simp] theorem startFirmware_wf (h : s.mem.wf = true) (i : Image) : (startFirmware s i).mem.wf = true := by
  obtain ⟨-, -, -, hg, hh⟩ := MemSys.wf_iff.1 h
  unfold startFirmware
  refine foldl_wf ?_ (fun _ u ht => applyFence_wf ht u) _
  exact MemSys.wf_iff.2 ⟨rfl, rfl, rfl, hg, hh⟩

@[simp] theorem bootUp_wf (h : s.mem.wf = true) : (bootUp s).mem.wf = true := by
  unfold bootUp; split <;> simp [h]

theorem execBoot_wf (h : s.mem.wf = true) : Answers (execBoot s) := answers_next.2 (ite_wf (bootUp_wf h) h)
theorem execModulePowerDown_wf (h : s.mem.wf = true) : Answers (execModulePowerDown s) := answers_next.2 (powerOff_wf h)
theorem execManagementReset_wf (h : s.mem.wf = true) : Answers (execManagementReset s) := answers_next.2 (ite_wf h (bootUp_wf (powerOff_wf h)))
theorem execRecoveryReset_wf (h : s.mem.wf = true) : Answers (execRecoveryReset s) := answers_next.2 (ite_wf (bootUp_wf (powerOff_wf h)) h)

theorem execRecoveryImageWrite_wf (h : s.mem.wf = true) (slot : Nat) (image : Image) : Answers (execRecoveryImageWrite slot image s) :=
  answers_next.2 (ite_wf h h)

theorem execComponentStart_wf (h : s.mem.wf = true) (version : Nat) (digest : List Byte) : Answers (execComponentStart version digest s) :=
  answers_next.2 (ite_wf h h)

/-! ## Reports, keys and power -/

theorem execAttestationReport_wf (h : s.mem.wf = true) (part : Option Nat) (nonce : List Byte) : Answers (execAttestationReport part nonce s) := by
  unfold execAttestationReport; split <;> simp [h]

theorem execKeyLoad_wf (h : s.mem.wf = true) (keyid : Nat) : Answers (execKeyLoad keyid s) := answers_next.2 (ite_wf h h)

theorem execKeyDestroy_wf (h : s.mem.wf = true) (keyid : Nat) : Answers (execKeyDestroy keyid s) := by
  unfold execKeyDestroy
  split
  · extract_lets hit u v
    have hu : u.mem.wf = true := foldl_wf h (fun _ e ht => killFinish_wf (retireStroke_wf (drainStroke_wf ht _) _) _) _
    have hv : v.mem.wf = true := foldl_wf hu (fun _ e ht => settleFifo_wf ht ..) _
    rw [answers_next]
    exact ite_wf hv hv
  · simp [h]

theorem execPowerSample_wf (h : s.mem.wf = true) (watts : Nat) : Answers (execPowerSample watts s) := answers_next.2 (ite_wf h h)
theorem execThermalTrip_wf (h : s.mem.wf = true) (core : Nat) : Answers (execThermalTrip core s) := answers_next.2 (ite_wf (powerOff_wf h) h)
theorem execPwrcapWrite_wf (h : s.mem.wf = true) (v : BitVec 16) : Answers (execPwrcapWrite v s) := answers_next.2 (ite_wf h h)

/-! ## Host memory and poison -/

@[simp] theorem writeEach_wf (h : s.mem.wf = true) (place : State → Nat → Option Loc) (bad : Bool) (a : Nat) (bs : List Byte) :
    (writeEach place bad s a bs).mem.wf = true := by
  induction bs generalizing s a with
  | nil => exact h
  | cons b bs ih =>
    refine ih ?_ _
    split <;> simp [h]

@[simp] theorem codeError_wf (h : s.mem.wf = true) (part : Nat) (line : LineId) (corrected : Bool) : (codeError s part line corrected).mem.wf = true :=
  ite_wf h (by simp [h])

theorem deviceAccess_wf (h : s.mem.wf = true) (acc : HostAccess) : (deviceAccess s acc).mem.wf = true := by
  unfold deviceAccess
  split
  · split
    · split <;> simp [hostBad_mem, h]
    · exact h
  · exact h
  · simp [hostBad_mem, h]
  · exact ite_wf h (writeBytes_wf _ _ h)
  · simp [hostBad_mem, h]
  · exact ite_wf (codeError_wf h ..) h
  · exact h
  · exact h
  · exact h

theorem hostAccess_wf (h : s.mem.wf = true) (acc : HostAccess) : (hostAccess s acc).mem.wf = true := by
  obtain ⟨hu, hc, hd, hg, hh⟩ := MemSys.wf_iff.1 h
  unfold hostAccess
  split
  · exact MemSys.wf_iff.2 ⟨hu, hc, hd, hg, memWf_memWrite _ s.mem.h _ hh⟩
  · simp [h]
  · exact h
  · exact ite_wf (deviceAccess_wf h _) h

theorem execHostMemoryAccess_wf (h : s.mem.wf = true) (acc : HostAccess) : Answers (execHostMemoryAccess acc s) := answers_next.2 (hostAccess_wf h acc)

theorem execSummaryComplete_wf (h : s.mem.wf = true) (k : Nat) : Answers (execSummaryComplete k s) := answers_next.2 (unitDone_wf h ..)
theorem execSmaskComplete_wf (h : s.mem.wf = true) (k : Nat) : Answers (execSmaskComplete k s) := answers_next.2 (unitDone_wf h ..)
theorem execPoisonScrub_wf (h : s.mem.wf = true) (line : LineId) : Answers (execPoisonScrub line s) := answers_next.2 (ite_wf (setMark_wf h ..) h)

/-! ## Every event -/

theorem event_answers (h : s.mem.wf = true) {i : Instr} (hi : isEvent i = true) : Answers (exec i s) := by
  cases i with
  | packetClose => exact execPacketClose_wf h _ _ _
  | registerWrite => exact execRegisterWrite_wf h _
  | launchCheck => exact execLaunchCheck_wf h _ _
  | waitCounterPoll => exact execWaitCounterPoll_wf h _
  | timedStart => exact execTimedStart_wf h _
  | rangeHandout => exact execRangeHandout_wf h _ _
  | corPlacement => exact execCorPlacement_wf h _ _
  | groupPlacement => exact execGroupPlacement_wf h _
  | sensorSample => exact execSensorSample_wf h _ _
  | droopWindowEnd => exact execDroopWindowEnd_wf h _
  | nomethodRetry => exact execNomethodRetry_wf h _
  | stealRequest => exact execStealRequest_wf h _ _
  | stealReply => exact execStealReply_wf h _
  | stealAck => exact execStealAck_wf h _
  | packetInjection => exact execPacketInjection_wf h _ _
  | stride => exact execStride_wf h _ _ _
  | relayLeg => exact execRelayLeg_wf h _ _ _
  | gatewayForward => exact execGatewayForward_wf h _ _
  | icacheFill => exact execIcacheFill_wf h _ _
  | issueSlot => exact execIssueSlot_wf h _ _
  | activeSetEntry => exact execActiveSetEntry_wf h _ _
  | longLatencyComplete => exact execLongLatencyComplete_wf h _ _
  | storeDrain => exact execStoreDrain_wf h _
  | scribeIssue => exact execScribeIssue_wf h _
  | walkComplete => exact execWalkComplete_wf h _ _ _
  | tlbInvalidate => exact execTlbInvalidate_wf h _
  | copyStart => exact execCopyStart_wf h _
  | copyBeat => exact execCopyBeat_wf h _
  | copyComplete => exact execCopyComplete_wf h _
  | remoteWriteArrival => exact execRemoteWriteArrival_wf h _
  | armingNotification => exact execArmingNotification_wf h _ _
  | holdTimeout => exact execHoldTimeout_wf h _
  | waitmPoll => exact execWaitmPoll_wf h _
  | pwaitPoll => exact execPwaitPoll_wf h _
  | mmrFire => exact execMmrFire_wf h _ _
  | mmrComplete => exact execMmrComplete_wf h _
  | cvTimeout => exact execCvTimeout_wf h _ _
  | mmsStep => exact execMmsStep_wf h _
  | gateWords => exact execGateWords_wf h _
  | gateTimeout => exact execGateTimeout_wf h _ _
  | sessionCreate => exact execSessionCreate_wf h _ _ _
  | sessionEnd => exact execSessionEnd_wf h _
  | sessionExpiry => exact execSessionExpiry_wf h _
  | linkReplay => exact execLinkReplay_wf h _ _
  | portDown => exact execPortDown_wf h _
  | routeTimeout => exact execRouteTimeout_wf h _
  | peerStoreArrival => exact execPeerStoreArrival_wf h _
  | signalSend => exact execSignalSend_wf h _
  | signalArrival => exact execSignalArrival_wf h _
  | peerAck => exact execPeerAck_wf h _
  | timeSample => exact execTimeSample_wf h _ _
  | chunkFire => exact execChunkFire_wf h _ _
  | chunkFold => exact execChunkFold_wf h _ _
  | chunkTimeout => exact execChunkTimeout_wf h _ _
  | memberTimeout => exact execMemberTimeout_wf h _ _
  | chunkResultLand => exact execChunkResultLand_wf h _ _ _ _ _ _
  | trapDelivery => exact execTrapDelivery_wf h _
  | faultResume => exact execFaultResume_wf h _
  | faultKill => exact execFaultKill_wf h _
  | killStroke => exact execKillStroke_wf h _
  | killContext => exact execKillContext_wf h _
  | killLaunch => exact execKillLaunch_wf h _
  | killPartition => exact execKillPartition_wf h _
  | cowResolve => exact execCowResolve_wf h _ _
  | pagePull => exact execPagePull_wf h _ _
  | partitionReset => exact execPartitionReset_wf h _
  | sliceEnd => exact execSliceEnd_wf h _ _
  | saveRestart => exact execSaveRestart_wf h _
  | partitionRestore => exact execPartitionRestore_wf h _ _
  | launchRetire => exact execLaunchRetire_wf h _
  | successorEnqueue => exact execSuccessorEnqueue_wf h _
  | unitFence => exact execUnitFence_wf h _
  | telemetryPeriodEnd => exact execTelemetryPeriodEnd_wf h
  | boot => exact execBoot_wf h
  | recoveryImageWrite => exact execRecoveryImageWrite_wf h _ _
  | recoveryReset => exact execRecoveryReset_wf h
  | componentStart => exact execComponentStart_wf h _ _
  | attestationReport => exact execAttestationReport_wf h _ _
  | keyLoad => exact execKeyLoad_wf h _
  | keyDestroy => exact execKeyDestroy_wf h _
  | powerSample => exact execPowerSample_wf h _
  | thermalTrip => exact execThermalTrip_wf h _
  | pwrcapWrite => exact execPwrcapWrite_wf h _
  | managementReset => exact execManagementReset_wf h
  | partitionCreate => exact execPartitionCreate_wf h _
  | modulePowerDown => exact execModulePowerDown_wf h
  | hostMemoryAccess => exact execHostMemoryAccess_wf h _
  | summaryComplete => exact execSummaryComplete_wf h _
  | smaskComplete => exact execSmaskComplete_wf h _
  | droopEvent => exact execDroopEvent_wf h _
  | poisonScrub => exact execPoisonScrub_wf h _
  | _ => exact nomatch hi

theorem exec_answers (h : s.mem.wf = true) (i : Instr) : Answers (exec i s) := by
  cases hi : isEvent i with
  | true => exact event_answers h hi
  | false => exact instruction_answers h hi

/-! ## Every step -/

@[simp] theorem passTurn_mem (s : State) : (passTurn s).mem = s.mem := rfl
@[simp] theorem tick_mem (s : State) : (tick s).mem = s.mem := rfl

theorem step_answers (h : s.mem.wf = true) : Answers (step s) := by
  unfold step
  split
  · exact exec_answers h _
  · simp [h]
  · split
    · simp [h]
    · split
      · refine answers_ite (exec_answers ?_ _) ?_
        · exact h
        · simp [h]
      · split
        · exact answers_ite (exec_answers h _) (by simp [h])
        · simp [h]

/-! ## Canonical forms with equal bytes -/

theorem memByte_cons_self (a : Nat) (b : Byte) (m : Memory) : memByte ((a, b) :: m) a = b := by simp [memByte, mapGet, mapGet?]

theorem memByte_cons_ne {a c : Nat} (h : a ≠ c) (b : Byte) (m : Memory) : memByte ((a, b) :: m) c = memByte m c := by
  simp [memByte, mapGet, mapGet?, h]

/-- Below its first cell a memory holds the byte of empty cells. -/
theorem memByte_below {m : Memory} {a : Nat} (h : ∀ e ∈ m, a < e.1) : memByte m a = Config.emptyByte := by
  induction m with
  | nil => rfl
  | cons e m ih =>
    have he := h e (by simp)
    rw [memByte_cons_ne (Nat.ne_of_gt he), ih (fun e he => h e (by simp [he]))]

/-- The first cell of a canonical memory is the lowest address whose byte is not that of empty cells, so that equal bytes give equal first
cells, and then equal rests. -/
theorem memWf_ext {m n : Memory} (hm : memWf m = true) (hn : memWf n = true) (h : ∀ a, memByte m a = memByte n a) : m = n := by
  induction m generalizing n with
  | nil => cases n with
    | nil => rfl
    | cons e n =>
      obtain ⟨hb, -, -⟩ := memWf_cons hn
      exact absurd ((h e.1).trans (memByte_cons_self ..)).symm hb
  | cons d m ih =>
    obtain ⟨a, b⟩ := d
    obtain ⟨hb, hm', ha⟩ := memWf_cons hm
    have hab : memByte n a = b := (h a).symm.trans (memByte_cons_self ..)
    cases n with
    | nil => exact absurd hab.symm hb
    | cons e n =>
      obtain ⟨c, d⟩ := e
      obtain ⟨hd, hn', hc⟩ := memWf_cons hn
      have hcd : memByte ((a, b) :: m) c = d := (h c).trans (memByte_cons_self ..)
      rcases Nat.lt_trichotomy a c with hlt | rfl | hgt
      · rw [memByte_cons_ne (Nat.ne_of_gt hlt), memByte_below (fun e he => hlt.trans (hc e he))] at hab
        exact absurd hab.symm hb
      · rw [memByte_cons_self] at hcd
        subst hcd
        refine congrArg _ (ih hm' hn' (fun x => ?_))
        by_cases hx : x = a
        · subst hx; rw [memByte_below ha, memByte_below hc]
        · have := h x
          rwa [memByte_cons_ne (Ne.symm hx), memByte_cons_ne (Ne.symm hx)] at this
      · rw [memByte_cons_ne (Nat.ne_of_gt hgt), memByte_below (fun e he => hgt.trans (ha e he))] at hcd
        exact absurd hcd.symm hd

end Sys2Proof.Machine
end

section
/-!
PROOFS. O50: every step keeps every memory in the model's canonical form.
-/
open Sys2Proof Sys2Proof.Machine

/-- Settles O50: what an instruction or an event does is made of writes of bytes, filters and clearings of whole memories, each of which keeps
the canonical form (step_answers), and a canonical memory is told by its bytes (memWf_ext). -/
theorem everyStepKeepsMemoryCanonical : Obligations.EveryStepKeepsMemoryCanonical :=
  ⟨fun _ t h ht => step_answers h t ht, fun _ _ hm hn h => memWf_ext hm hn h⟩

end

section
/-!
SUPPORT. Instructions whose destination is a k register, and how copies and tile products are entered (R254, R291): behind the context's
stores, with their locks, or not at all.
-/
namespace Sys2Proof.Machine

/-! ## Forms whose destination is no v register -/

/-- A field whose use names no v register holds the code of none, in scribe code either (R75, R90). -/
theorem ofCode_ne_v {x : Ctx} {opc i : Nat} {u : Use} {lit : Bool} {c : Code} (hv : Kind.v ∉ u.kinds) (h : checkUse x opc u lit c = none) :
    Opnd.ofCode c ≠ .v i := by
  intro ho
  have hk : Kind.v ∉ (if x.scribe then scribeKinds opc u else u.kinds) := by
    split
    · simp [scribeKinds]
    · exact hv
  have hn : (if x.scribe then scribeKinds opc u else u.kinds).contains Kind.v = false := by simpa [List.contains_iff_mem] using hk
  unfold checkUse at h
  simp only [ho, show (Opnd.v i).kind = Kind.v from rfl, hn] at h
  simp at h

theorem v_not_mem_regRun {o : Opnd} {n v s k : Nat} (h : ∀ i, o ≠ .v i) : RegName.v n ∉ regRun o v s k := by
  unfold regRun
  split <;> simp_all

/-- An instruction whose one destination is D, of a kind other than v, is quiet. -/
theorem quiet_of_kinds {i : Instr} {opc len : Nat} {f : Fields} {sh : Shape} {u : Use} (hissued : ∀ s, issued s i = issuedAs s opc f len)
    (hload : loadCodes.contains opc = false) (hlegal : ∀ x, checkInstr x i = none → checkFields x opc f = none)
    (hshape : shape opc f = some sh) (hd : sh.d = .op u) (hv : Kind.v ∉ u.kinds) (honly : onlyD sh = true) : Quiet i opc f len := by
  refine ⟨hissued, hload, fun x hx sh' hs n hm => ?_, fun _ _ => by rw [hshape]; rfl⟩
  rw [hshape] at hs
  cases hs
  obtain ⟨_, hs', -, -, -, -, -, hrole, -⟩ := checkFields_cases (hlegal x hx)
  rw [hshape] at hs'
  cases hs'
  rw [hd] at hrole
  have hrun : RegName.v n ∉ regRun (Opnd.ofCode f.d) u.span u.span u.kspan := v_not_mem_regRun fun _ => ofCode_ne_v hv hrole
  have hu := mem_usesOf_onlyD honly hm
  rw [hd] at hu
  unfold usesOfRole at hu
  dsimp only at hu
  split at hu <;> simp [hrun] at hu

theorem quiet_cpy (f : Fields) : Quiet (.cpy f) 0x90 f (fieldsLen f) :=
  quiet_of_kinds (fun _ => rfl) (by decide) (legal_of_code rfl fun _ => rfl) rfl rfl (by decide) rfl
theorem quiet_cpyt (f : Fields) : Quiet (.cpyt f) 0x91 f (fieldsLen f) :=
  quiet_of_kinds (fun _ => rfl) (by decide) (legal_of_code rfl fun _ => rfl) rfl rfl (by decide) rfl
theorem quiet_cpyr (f : Fields) : Quiet (.cpyr f) 0x92 f (fieldsLen f) :=
  quiet_of_kinds (fun _ => rfl) (by decide) (legal_of_code rfl fun _ => rfl) rfl rfl (by decide) rfl
theorem quiet_cpym (f : Fields) : Quiet (.cpym f) 0x93 f (fieldsLen f) :=
  quiet_of_kinds (fun _ => rfl) (by decide) (legal_of_code rfl fun _ => rfl) rfl rfl (by decide) rfl
theorem quiet_mms (f : Fields) : Quiet (.mms f) 0xA1 f (fieldsLen f) :=
  quiet_of_kinds (fun _ => rfl) (by decide) (legal_of_code rfl fun _ => rfl) rfl rfl (by decide) rfl
theorem quiet_ccan (f : Fields) : Quiet (.ccan f) 0x94 f (fieldsLen f) :=
  quiet_of (fun _ => rfl) (by decide) rfl (no_dest rfl rfl)

/-! ## Meanings in terms of the instruction's fields -/

section
variable {i : Instr} {opc len : Nat} {f : Fields} {body : Env → State → Verdict} {ok : State → Env → Prop} {st : State → Env → State}

theorem issuedAs_fields {s : State} {q : Issued} (hq : issuedAs s opc f len = some q) : q.y.f = f := by
  obtain ⟨-, hf, -, -, hy, -⟩ := issuedAs_agent hq
  rw [hy]
  exact hf

/-- does_of_plain for a meaning that is told by the fields of the instruction itself. -/
theorem does_of_plain_fields (hf : Quiet i opc f len) (hexec : ∀ s, exec i s = issue opc f len body s)
    (hbody : ∀ s x, x.f = f → ok s x → body x s = plain (st s x)) (hlive : ∀ q s x, Lives q s → Lives q (st s x)) : Does i ok st := by
  refine does_of_commit hf hexec fun s q hq _ ho =>
    ⟨hlive _ _ _ (issuedAs_lives hq), { st := st q.t q.y }, hbody _ _ (issuedAs_fields hq) ho, rfl, rfl, rfl, rfl, rfl, ?_, ?_⟩
  all_goals rw [(issuedAs_agent hq).2.2.2.2.1]; rfl

/-- parksIn_of_parkIn for a meaning that is told by the fields of the instruction itself. -/
theorem parksIn_of_parkIn_fields {p : State → Env → Park} (hf : Quiet i opc f len) (hexec : ∀ s, exec i s = issue opc f len body s)
    (hbody : ∀ s x, x.f = f → ok s x → body x s = .parkIn (p s x) (st s x)) : ParksIn i ok st p := by
  intro s q hq _ ho
  rw [hf.issued] at hq
  rw [hexec, issue_eq_conclude body hq, hbody _ _ (issuedAs_fields hq) ho]
  rfl

end

/-! ## The lock table (R202) -/

theorem locksStall_iff {s : State} {core : Nat} {want : List Lock} : locksStall s core want = true ↔
    32 < (s.core core).locks.length + want.length ∨
    ∃ w ∈ want, ∃ k ∈ (s.core core).locks, w.home = k.home ∧ w.part = k.part ∧
      (∃ p ∈ (w.lo, w.hi) :: w.more, ∃ q ∈ (k.lo, k.hi) :: k.more, p.1 < q.2 ∧ q.1 < p.2) ∧
      (w.kind = .dest ∧ (k.kind = .dest ∨ k.kind = .source) ∨ w.kind = .source ∧ k.kind = .dest) := by
  simp only [locksStall, Bool.or_eq_true, decide_eq_true_eq, List.any_eq_true, Bool.and_eq_true, beq_iff_eq, and_assoc, Lock.spans]
  refine or_congr Iff.rfl (exists_congr fun w => and_congr_right fun _ => exists_congr fun k => and_congr_right fun _ =>
    and_congr_right fun _ => and_congr_right fun _ => and_congr_right fun _ => ?_)
  cases w.kind <;> cases k.kind <;> decide

/-! ## Entering a copy (R254) -/

theorem setPresent_all_agents {u : State} (b : Bool) (ls : List Nat) (j : Nat) :
    (ls.foldl (fun s l => s.setPresent l b) u).stroke? j = u.stroke? j ∧ (ls.foldl (fun s l => s.setPresent l b) u).ctx? j = u.ctx? j :=
  List.foldlRecOn (motive := fun t : State => t.stroke? j = u.stroke? j ∧ t.ctx? j = u.ctx? j) ls _ ⟨rfl, rfl⟩ (fun _ ht _ _ => ht)

theorem drained_lives {q : Issued} {s : State} (x : Env) (h : Lives q s) : Lives q (x.drained s) := h.of_isSome (drain_isSome _ s x.agent)

/-- The machine t with a copy entered: its locks taken, the lines of its destination absent, its status register pending. -/
def copyEntered (x : Env) (t : State) (e : Copy × List Lock × List Nat) : State :=
  setPending (e.2.2.foldl (fun s l => s.setPresent l false) (takeLocks { t with nextId := t.nextId + 1, copies := t.copies ++ [e.1] } x.core e.2.1))
    x.grp e.1.kS e.1.id

theorem copyEntered_lives {q : Issued} {t : State} (x : Env) (e : Copy × List Lock × List Nat) (h : Lives q t) : Lives q (copyEntered x t e) := by
  refine Lives.modCtx (h.of_isSome fun j => ?_) _ _
  obtain ⟨hs, hc⟩ := setPresent_all_agents false e.2.2 j
    (u := takeLocks { t with nextId := t.nextId + 1, copies := t.copies ++ [e.1] } x.core e.2.1)
  rw [hs, hc]
  exact ⟨rfl, rfl⟩

section
variable {i : Instr} {opc len : Nat} {f : Fields} {body : Env → State → Verdict} {g : State → Env → Copy × List Lock × List Nat}
  (hf : Quiet i opc f len) (hexec : ∀ s, exec i s = issue opc f len body s)
  (hbody : ∀ s x, x.f = f → body x s = issueCopy x (x.drained s) (g (x.drained s) x).1 (g (x.drained s) x).2.1 (g (x.drained s) x).2.2)
include hf hexec hbody

/-- An instruction that issues a copy enters it, where the lock table takes its locks. -/
theorem does_of_issueCopy : Does i (fun s x => locksStall (x.drained s) x.core (g (x.drained s) x).2.1 = false)
    (fun s x => copyEntered x (x.drained s) (g (x.drained s) x)) :=
  does_of_plain_fields hf hexec (fun s x hx h => (hbody s x hx).trans (if_neg (by simp [h])))
    (fun _ _ x hl => copyEntered_lives x _ (drained_lives x hl))

/-- Its context waits where the lock table refuses them. -/
theorem parksIn_of_issueCopy : ParksIn i (fun s x => locksStall (x.drained s) x.core (g (x.drained s) x).2.1 = true) (fun s x => x.drained s)
    (fun _ _ => .locked) :=
  parksIn_of_parkIn_fields hf hexec (fun s x hx h => (hbody s x hx).trans (if_pos h))

end

/-! ## The fields of copies and tile products -/

theorem bits_seven_five (n : Nat) : bits n 7 5 = n / 32 % 8 := by simp [bits, Nat.shiftRight_eq_div_pow]
theorem bits_five_zero (n : Nat) : bits n 5 0 = n % 64 := by simp [bits]

/-- The destinations of a CPYM's list that lie in the lock table, as its one destination entry covers them. -/
theorem cpymDest_eq (t : State) (c : Copy) (ink : Bool) (n slot : Nat) :
    cpymDest t c ink n slot =
      let dest (i : Nat) : Option (Nat × Nat) :=
        if ink = true ∨ c.dBase.toNat % 16 ≠ 0 then none
        else (uLoc t c.group (c.dBase.toNat + 16 * i) 4).bind (fun l => (pLoc t c.group (readNat t l 4) c.len).map (fun p => (p.addr, p.addr + c.len)))
      let zs := (List.range n).filterMap dest
      { home := .u, part := c.part, lo := (zs.headD (0, 0)).1, hi := (zs.headD (0, 0)).2, kind := .dest, owner := c.id, slot := slot
        more := zs.drop 1 } := by
  have hdest (i : Nat) : (if ink || c.dBase.toNat % 16 ≠ 0 then none
        else (uLoc t c.group (c.dBase.toNat + 16 * i) 4).bind (fun l => pLoc t c.group (readNat t l 4) c.len)).map
          (fun l : Loc => (l.addr, l.addr + c.len)) =
      if ink = true ∨ c.dBase.toNat % 16 ≠ 0 then none
      else (uLoc t c.group (c.dBase.toNat + 16 * i) 4).bind (fun l => (pLoc t c.group (readNat t l 4) c.len).map (fun p => (p.addr, p.addr + c.len))) := by
    by_cases h : ink = true ∨ c.dBase.toNat % 16 ≠ 0
    · rw [if_pos h, if_pos (by simpa using h)]; rfl
    · rw [if_neg h, if_neg (by simpa using h), Option.map_bind]; rfl
  simp only [cpymDest, hdest]

/-! ## The copies that the four instructions issue, with their locks and the lines that become absent (R254, R262, R264, R265) -/

/-- The locks on the source and the destination of a copy by its length. -/
def endLocks (c : Copy) (t : State) (x : Env) : List Lock :=
  ((copyRange t c.group c.part c.src c.sBase.toNat c.len).map (lockOf · .source c.id (slotOf x.grp))).toList ++
  ((copyRange t c.group c.part c.dst c.dBase.toNat c.len).map (lockOf · .dest c.id (slotOf x.grp))).toList

/-- What CPY and CPYR with the fields f issue. -/
def plainCopyOf (k : CopyKind) (f : Fields) (t : State) (x : Env) : Copy × List Lock × List Nat :=
  let c := newCopy x t k (Space.ofCode f.m.toNat) (Space.ofCode (f.c.toNat / 32 % 8)) (((t.ctx? x.key).getD {}).kGet (f.c.toNat % 32))
  (c, endLocks c t x, destLines t c.group c.dst c.dBase.toNat c.len)

/-- The locks on the data of a tile of a copy. -/
def tileLocks (c : Copy) (t : State) (x : Env) (k : Tile) (p : Space) (kind : LockKind) : List Lock :=
  if k.malformed then [] else ((copyRange t c.group c.part p k.base k.allBytes).map (lockOf · kind c.id (slotOf x.grp))).toList

/-- What CPYT with the fields f issues. -/
def tileCopyOf (f : Fields) (t : State) (x : Env) : Copy × List Lock × List Nat :=
  let c := newCopy x t (.tile (extX f % 8) ((extX f).testBit 3)) (Space.ofCode f.m.toNat) (Space.ofCode (f.c.toNat % 8)) 0
  let a := tileOrBad (peekRecord t c.group c.part c.src c.sBase.toNat)
  let b := tileOrBad (peekRecord t c.group c.part c.dst c.dBase.toNat)
  (c, ([(c.src, c.sBase), (c.dst, c.dBase)].filterMap (fun r => copyRange t c.group c.part r.1 r.2.toNat 32)).map
      (lockOf · .record c.id (slotOf x.grp)) ++ tileLocks c t x a c.src .source ++ tileLocks c t x b c.dst .dest,
    if b.malformed then [] else (b.units.flatMap (fun u =>
      let z := beatSpan 64 b.base b.allBytes u
      destLines t c.group c.dst z.1 (z.2 - z.1))).eraseDups)

/-- What CPYM with the fields f issues. -/
def manyCopyOf (f : Fields) (t : State) (x : Env) : Copy × List Lock × List Nat :=
  let c := newCopy x t (.mcast (f.m.getLsbD 0) (extX f % 32)) .U (Space.ofCode (f.c.toNat / 32 % 8)) (((t.ctx? x.key).getD {}).kGet (f.c.toNat % 32))
  let dest (i : Nat) : Option (Nat × Nat) :=
    if f.m.getLsbD 0 ∨ c.dBase.toNat % 16 ≠ 0 then none
    else (uLoc t c.group (c.dBase.toNat + 16 * i) 4).bind (fun l => (pLoc t c.group (readNat t l 4) c.len).map (fun p => (p.addr, p.addr + c.len)))
  let zs := (List.range (extX f % 32)).filterMap dest
  (c, ((copyRange t c.group c.part c.src c.sBase.toNat c.len).map (lockOf · .source c.id (slotOf x.grp))).toList ++
    [{ home := .u, part := c.part, lo := (zs.headD (0, 0)).1, hi := (zs.headD (0, 0)).2, kind := .dest, owner := c.id, slot := slotOf x.grp
       more := zs.drop 1 }] ++
    ((uRange t c.group c.dBase.toNat (16 * (extX f % 32))).map (lockOf · .record c.id (slotOf x.grp))).toList, [])

section
variable {f : Fields} {x : Env} (hx : x.f = f) (s : State)
include hx

theorem bodyCopy_eq_issueCopy (kind : Env → CopyKind) : bodyCopy kind x s = issueCopy x (x.drained s) (plainCopyOf (kind x) f (x.drained s) x).1
    (plainCopyOf (kind x) f (x.drained s) x).2.1 (plainCopyOf (kind x) f (x.drained s) x).2.2 := by
  unfold bodyCopy
  rw [bits_seven_five, hx]
  rfl

theorem bodyCpyt_eq_issueCopy : bodyCpyt x s = issueCopy x (x.drained s) (tileCopyOf f (x.drained s) x).1 (tileCopyOf f (x.drained s) x).2.1
    (tileCopyOf f (x.drained s) x).2.2 := by
  unfold bodyCpyt
  rw [hx]
  rfl

theorem bodyCpym_eq_issueCopy : bodyCpym x s = issueCopy x (x.drained s) (manyCopyOf f (x.drained s) x).1 (manyCopyOf f (x.drained s) x).2.1
    (manyCopyOf f (x.drained s) x).2.2 := by
  unfold bodyCpym
  rw [bits_seven_five, hx]
  dsimp only
  rw [cpymDest_eq]
  rfl

end

/-- The machine t with a tile product entered. -/
def mmsEntered (x : Env) (t : State) (m : Mms) (want : List Lock) : State :=
  setPending (takeLocks { t with nextId := t.nextId + 1, mms := t.mms ++ [m] } x.core want) x.grp m.kS t.nextId

theorem mmsEntered_lives {q : Issued} {t : State} (x : Env) (m : Mms) (want : List Lock) (h : Lives q t) : Lives q (mmsEntered x t m want) :=
  Lives.modCtx (h.of_isSome fun _ => ⟨rfl, rfl⟩) _ _

/-- The product that an MMS enters. -/
def mmsOf (t : State) (x : Env) : Mms :=
  let aRec := (kReg t x x.f.a).toNat % 2 ^ 32
  let bRec := (kReg t x x.f.b).toNat % 2 ^ 32
  let a := tileAt t x.grp aRec
  let b := tileAt t x.grp bRec
  { id := t.nextId, group := x.grp, kS := (Opnd.ofCode x.f.d).index, bank := extX x.f % 64, zero := (extX x.f).testBit 8, aRec := aRec, bRec := bRec
    banks := if mmsTiles t x.grp a b then mmsBanks (extX x.f % 64) a b else [] }

/-- The locks that an MMS takes, on its records and on the tiles that they give. -/
def mmsLocks (t : State) (x : Env) : List Lock :=
  let aRec := (kReg t x x.f.a).toNat % 2 ^ 32
  let bRec := (kReg t x x.f.b).toNat % 2 ^ 32
  ([aRec, bRec].filterMap (fun r => uRange t x.grp r 32)).map (lockOf · .record t.nextId (slotOf x.grp)) ++
  ([tileAt t x.grp aRec, tileAt t x.grp bRec].filterMap (fun q => if q.malformed then none else uRange t x.grp q.base q.extent)).map
    (lockOf · .source t.nextId (slotOf x.grp))

/-! ## The context's stores change no k register -/

/-- The k registers of a context. -/
def State.kRegs (s : State) (j : Nat) : Option (Map Dword) := (s.ctx? j).map (·.k)

theorem kRegs_setFifo (s : State) (a : AgentId) (q : List FifoEntry) (j : Nat) : State.kRegs (setFifo s a q) j = State.kRegs s j := by
  cases a with
  | stroke => rfl
  | ctx n =>
    simp only [State.kRegs, setFifo, State.modCtx_ctx_get]
    split
    · rw [Option.map_map]; rfl
    · rfl

theorem kRegs_sendRemote (s : State) (a : AgentId) (core : Nat) (ps : List (Nat × List Byte)) (part : Nat) (sent : Option Nat) (j : Nat) :
    State.kRegs (sendRemote s a core ps part sent) j = State.kRegs s j := by
  unfold sendRemote
  cases sent with
  | some => exact kRegs_setFifo ..
  | none => cases ps with
    | nil => rfl
    | cons => exact kRegs_setFifo ..

theorem ctxs_writeNat (s : State) (l : Loc) (n v : Nat) : (writeNat s l n v).ctxs = s.ctxs := by rw [writeNat_frame]

/-- Of the entries of a FIFO, writes to other cores alone change a context, and of it its FIFO. -/
theorem kRegs_performEntry (s : State) (a : AgentId) (e : FifoEntry) (j : Nat) : State.kRegs (performEntry s a e) j = State.kRegs s j := by
  have same {t : State} (h : t.ctxs = s.ctxs) : State.kRegs t j = State.kRegs s j := by simp only [State.kRegs, State.ctx?, h]
  have back (t : State) (op : Nat) (ws : List WriteBack) :
      (match a with | .stroke k => deliver t k op ws | .ctx _ => t).ctxs = t.ctxs := by cases a <;> rfl
  cases e with
  | remote => exact kRegs_sendRemote ..
  | store l bs => exact same (by rw [performEntry, writeBytes_frame])
  | atom l w => exact same ((back _ _ _).trans (ctxs_writeNat ..))
  | cas l w ex nw =>
    refine same ((back _ _ _).trans ?_)
    split
    · exact ctxs_writeNat ..
    · rfl
  | fxadd => exact same ((back _ _ _).trans (ctxs_writeNat ..))
  | fxclr => exact same (ctxs_writeNat ..)
  | retag => exact same (ctxs_writeNat ..)
  | asyncDone => exact same rfl

theorem kRegs_drain (n : Nat) (s : State) (a : AgentId) (j : Nat) : State.kRegs (drain n s a) j = State.kRegs s j := by
  induction n generalizing s with
  | zero => rfl
  | succ n ih =>
    unfold drain
    split
    · rfl
    · split
      · rfl
      · rw [ih, kRegs_performEntry, kRegs_setFifo]

/-- The operands of an MMS are k registers, so the context's stores that go before it do not change them (R291). -/
theorem kReg_drained (x : Env) (s : State) (c : Code) : kReg (x.drained s) x c = kReg s x c := by
  have key (t : State) : kReg t x c = mapGet (((State.kRegs t x.key).getD [])) (Opnd.ofCode c).index 0 := by
    unfold kReg State.kRegs ScribeCtx.kGet
    cases t.ctx? x.key <;> rfl
  rw [key, key, Env.drained, kRegs_drain]

theorem bodyMms_eq (x : Env) (s : State) : bodyMms x s =
    if locksStall (x.drained s) x.core (mmsLocks (x.drained s) x) = true then .parkIn .locked (x.drained s)
    else plain (mmsEntered x (x.drained s) (mmsOf (x.drained s) x) (mmsLocks (x.drained s) x)) := by
  simp only [mmsOf, mmsLocks, kReg_drained]
  unfold bodyMms
  dsimp only
  rw [bits_five_zero]
  rfl

/-! ## Cancelling (R267) -/

section
variable {x : Env} {s : State} {id : Nat}

theorem bodyCcan_of_none (h : mapGet? ((s.ctx? x.key).getD {}).pending (Opnd.ofCode x.f.a).index = none) : bodyCcan x s = plain s := by
  unfold bodyCcan
  rw [h]

/-- The machine s with the copy of a number cancelled, its held writes withdrawn. -/
def copyCancelled (s : State) (id : Nat) : State :=
  { modCopy s id (fun c => { c with cancel := true }) with
    remote := (modCopy s id (fun c => { c with cancel := true })).remote.filter
      (fun w => !((w.copy.any (fun p => p.1 == id)) && w.refused.isSome)) }

theorem bodyCcan_of_pending (h : mapGet? ((s.ctx? x.key).getD {}).pending (Opnd.ofCode x.f.a).index = some id) :
    bodyCcan x s = plain (copyCancelled s id) := by
  unfold bodyCcan
  rw [h]
  rfl

end

theorem copyCancelled_lives {q : Issued} {s : State} (id : Nat) (h : Lives q s) : Lives q (copyCancelled s id) :=
  h.of_isSome fun _ => ⟨rfl, rfl⟩

end Sys2Proof.Machine
end

section
/-!
PROOFS. The statement on copies and tile products (O34).
-/
open Sys2Proof Sys2Proof.Machine

/-- Settles O34: each copy is issueCopy of what its fields name, and MMS takes the same two ways; the lock table's answer is
locksStall_iff. -/
theorem copiesAndTileProductsAreEntered : Obligations.CopiesAndTileProductsAreEntered := by
  unfold Obligations.CopiesAndTileProductsAreEntered
  refine ⟨⟨fun f => ?cpy, fun f => ?cpyr, fun f => ?cpyt, fun f => ?cpym, fun f => ?ccanNone, fun f id => ?ccanSome, fun s core want => locksStall_iff⟩,
    fun f => ?mmsEnters, fun f => ?mmsWaits⟩
  case cpy =>
    have hbody (s : State) (x : Env) (hx : x.f = f) := bodyCopy_eq_issueCopy hx s (fun _ => .plain)
    exact ⟨does_of_issueCopy (g := plainCopyOf .plain f) (quiet_cpy f) (fun _ => rfl) hbody,
      parksIn_of_issueCopy (g := plainCopyOf .plain f) (quiet_cpy f) (fun _ => rfl) hbody⟩
  case cpyr =>
    have hbody (s : State) (x : Env) (hx : x.f = f) : bodyCopy (fun x => .reduce (extX x.f % 16)) x s = _ :=
      hx ▸ bodyCopy_eq_issueCopy rfl s (fun x => .reduce (extX x.f % 16))
    exact ⟨does_of_issueCopy (g := plainCopyOf (.reduce (extX f % 16)) f) (quiet_cpyr f) (fun _ => rfl) hbody,
      parksIn_of_issueCopy (g := plainCopyOf (.reduce (extX f % 16)) f) (quiet_cpyr f) (fun _ => rfl) hbody⟩
  case cpyt =>
    have hbody (s : State) (x : Env) (hx : x.f = f) := bodyCpyt_eq_issueCopy hx s
    exact ⟨does_of_issueCopy (g := tileCopyOf f) (quiet_cpyt f) (fun _ => rfl) hbody,
      parksIn_of_issueCopy (g := tileCopyOf f) (quiet_cpyt f) (fun _ => rfl) hbody⟩
  case cpym =>
    have hbody (s : State) (x : Env) (hx : x.f = f) := bodyCpym_eq_issueCopy hx s
    exact ⟨does_of_issueCopy (g := manyCopyOf f) (quiet_cpym f) (fun _ => rfl) hbody,
      parksIn_of_issueCopy (g := manyCopyOf f) (quiet_cpym f) (fun _ => rfl) hbody⟩
  case ccanNone => exact does_of_plain (quiet_ccan f) (fun _ => rfl) (fun _ _ h => bodyCcan_of_none h) (fun _ _ _ h => h)
  case ccanSome => exact does_of_plain (quiet_ccan f) (fun _ => rfl) (fun _ _ h => bodyCcan_of_pending h) (fun _ s _ h => copyCancelled_lives id h)
  case mmsEnters =>
    change Does _ (fun s x => locksStall (x.drained s) x.core (mmsLocks (x.drained s) x) = false)
      (fun s x => mmsEntered x (x.drained s) (mmsOf (x.drained s) x) (mmsLocks (x.drained s) x))
    exact does_of_plain (quiet_mms f) (fun _ => rfl)
      (fun s x h => (bodyMms_eq x s).trans (if_neg (by simp [h])))
      (fun _ s x h => mmsEntered_lives x _ _ (drained_lives x h))
  case mmsWaits => exact parksIn_of_parkIn (quiet_mms f).issued (fun _ => rfl) (fun s x h => (bodyMms_eq x s).trans (if_pos h))
end

section
/-!
SUPPORT. Addresses and the checks on them (R195, R213, R217): the address of a lane as an integer, and the first cause that the lanes of an
instruction meet.
-/
namespace Sys2Proof.Machine

/-! ## The address of a lane (R217) -/

theorem sext_toNat {w : Nat} (hw : 0 < w) (v : BitVec w) : sext w v.toNat = v.toInt := by
  have hp : 2 * 2 ^ (w - 1) = 2 ^ w := by rw [← pow_succ', Nat.sub_add_cancel hw]
  simp only [sext, Nat.mod_eq_of_lt v.isLt, BitVec.toInt_eq_toNat_cond]
  split <;> split <;> omega

theorem addrPlus_eq (p : Space) (base : Nat) (off : Int) :
    (addrPlus p base off : Int) = ((base : Int) + off) % 2 ^ (if p = .U ∨ p = .P ∨ p = .C then 32 else 64) := by
  have hw : (if p.narrow then 32 else 64) = if p = .U ∨ p = .P ∨ p = .C then 32 else 64 := by cases p <;> rfl
  rw [addrPlus, wrap, Int.toNat_of_nonneg (Int.emod_nonneg _ (by positivity)), Nat.cast_pow, Nat.cast_ofNat, hw]

/-! ## The first cause of several lanes (R213) -/

theorem getLsbD_lanes_foldl {α : Type} (ls : List (Nat × α)) {j : Nat} (h : j < 32) :
    (ls.foldl (fun m c => m ||| laneBit c.1) 0).getLsbD j = true ↔ ∃ c ∈ ls, c.1 = j := by
  have := getLsbD_foldl_laneBit (fun _ => true) (ls.map Prod.fst) 0 j h
  simp only [List.foldl_map, if_true, Bool.and_true] at this
  rw [this]
  simp

/-- The bad access that comes first in the order of R213 is one of them, and none comes before it. -/
theorem foldl_order_least (b0 : Nat × Bad) (bs : List (Nat × Bad)) :
    let b := bs.foldl (fun m b => if b.2.order < m.2.order then b else m) b0
    b ∈ b0 :: bs ∧ ∀ c ∈ b0 :: bs, b.2.order ≤ c.2.order := by
  induction bs generalizing b0 with
  | nil => simp
  | cons d bs ih =>
    obtain ⟨hm, hle⟩ := ih (if d.2.order < b0.2.order then d else b0)
    simp only [List.foldl_cons, List.mem_cons, forall_eq_or_imp] at hm hle ⊢
    obtain ⟨h0, hrest⟩ := hle
    split at hm <;> rename_i hlt
    · simp only [hlt, if_true] at h0 hrest ⊢
      exact ⟨.inr hm, by omega, h0, hrest⟩
    · simp only [hlt, if_false] at h0 hrest ⊢
      exact ⟨hm.imp_right .inr, h0, by omega, hrest⟩

/-- Where no lane meets a cause before the place o, and some lane meets one at o, the first cause is that one, for the lanes that meet it. -/
theorem firstBad_of_least {rs : List (Nat × Except Bad Landing)} {o cause : Nat}
    (hle : ∀ r ∈ rs, ∀ b, r.2 = .error b → o ≤ b.order ∧ (b.order = o → b.cause = cause))
    (hex : ∃ r ∈ rs, ∃ b, r.2 = .error b ∧ b.order = o) :
    ∃ b m, firstBad rs = some (b, m) ∧ b.cause = cause ∧
      ∀ j, j < 32 → (m.getLsbD j = true ↔ ∃ r ∈ rs, r.1 = j ∧ ∃ b, r.2 = .error b ∧ b.order = o) := by
  unfold firstBad
  dsimp only
  generalize hbads : rs.filterMap _ = bads
  have hmem (p : Nat × Bad) : p ∈ bads ↔ (p.1, .error p.2) ∈ rs := by
    rw [← hbads, List.mem_filterMap]
    constructor
    · rintro ⟨⟨l, r⟩, hr, hp⟩
      cases r with
      | ok => simp at hp
      | error b => simp only [Option.some.injEq] at hp; exact hp ▸ hr
    · exact fun h => ⟨_, h, rfl⟩
  obtain ⟨⟨l, _⟩, hr, b, rfl, ho⟩ := hex
  cases bads with
  | nil => exact absurd ((hmem (l, b)).2 hr) (by simp)
  | cons b0 bs =>
    obtain ⟨hm, hmin⟩ := foldl_order_least b0 bs
    dsimp only
    generalize bs.foldl _ b0 = d at hm hmin
    have hd := hle _ ((hmem d).1 hm) _ rfl
    have hdo : d.2.order = o := le_antisymm (ho ▸ hmin _ ((hmem (l, b)).2 hr)) hd.1
    refine ⟨_, _, rfl, hd.2 hdo, fun j hj => (getLsbD_lanes_foldl _ hj).trans ⟨?_, ?_⟩⟩
    · rintro ⟨c, hc, rfl⟩
      obtain ⟨hc, hcd⟩ := List.mem_filter.1 hc
      simp only [Bool.and_eq_true, beq_iff_eq] at hcd
      exact ⟨_, (hmem c).1 hc, rfl, _, rfl, hcd.1.trans hdo⟩
    · rintro ⟨⟨_, _⟩, hc, rfl, e, rfl, heo⟩
      have he := (hle _ hc _ rfl).2 heo
      exact ⟨(_, e), List.mem_filter.2 ⟨(hmem _).2 hc, by simp [heo, hdo, he, hd.2 hdo]⟩, rfl⟩

/-! ## The checks of one lane (R213, R224) -/

/-- Where an access of an instruction lands, or the first cause that it meets (R213). -/
def laneCheck (s : State) (x : Env) (q : Want) (bad : Nat → Bool) (a : Access) : Except Bad Landing :=
  match land s (x.who s) { q with size := a.2.2 } a.2.1 with
  | .error e => .error e
  | .ok r =>
    if bad a.1 && !q.share then .error ⟨9, cSHARETAG, a.2.1, q.acc⟩
    else if lockedOut s (x.who s).core r.range q.acc (q.space == .U) then .error ⟨10, cRANGELOCK, a.2.1, q.acc⟩
    else .ok r

/-- Where some access meets a cause, the first one is the answer. -/
theorem checkEach_of_firstBad {s : State} {x : Env} {q : Want} {bad : Nat → Bool} {as : List Access} {e : Bad × Mask}
    (h : firstBad (as.map (fun a => (a.1, laneCheck s x q bad a))) = some e) : checkEach s x q bad as = .error e := by
  unfold checkEach
  dsimp only
  rw [List.map_map]
  split
  · rename_i b hb
    exact congrArg _ (Option.some.inj (hb.symm.trans h))
  · rename_i hb
    exact absurd (hb.symm.trans h) (by simp)

section
variable {s : State} {w : Who} {q : Want} {a : Nat}

theorem land_of_misaligned (hq : q.align ≠ 0) (h : a % q.align ≠ 0) : land s w q a = .error ⟨2, cMISALIGN, a, q.acc⟩ := if_pos ⟨hq, h⟩

theorem land_of_space (h : a % q.align = 0) (hs : q.space ∉ q.spaces) : land s w q a = .error ⟨3, cSPACE, a, q.acc⟩ :=
  (if_neg (by simp [h])).trans (if_pos (by simpa using hs))

end

/-- No cause of the first two places of R213 is met. -/
def LateBad (r : Except Bad Landing) : Prop := ∀ e, r = .error e → 2 < e.order

theorem LateBad.ok {l : Landing} : LateBad (.ok l) := fun _ h => nomatch h

theorem LateBad.error {n cause addr : Nat} {k : Acc} (h : 2 < n) : LateBad (.error ⟨n, cause, addr, k⟩) := by
  rintro _ ⟨⟩
  exact h

theorem LateBad.ite {p : Prop} [Decidable p] {r t : Except Bad Landing} (hr : LateBad r) (ht : LateBad t) : LateBad (if p then r else t) := by
  split <;> assumption

theorem landVirtual_late (s : State) (w : Who) (q : Want) (va : Nat) : LateBad (landVirtual s w q va) := by
  unfold landVirtual
  split
  · exact .error (by decide)
  · exact .error (by decide)
  · exact .ite (.error (by decide)) (.ite (.error (by decide)) (.ite (.error (by decide)) (.ite (.error (by decide)) .ok)))

/-- Only a misaligned address meets the check of R213 that comes before that of its space. -/
theorem land_late_of_aligned {s : State} {w : Who} {q : Want} {a : Nat} (h : a % q.align = 0) : LateBad (land s w q a) := by
  rw [land, if_neg (by simp [h])]
  refine .ite (.error (by decide)) ?_
  split
  case h_4 => exact landVirtual_late _ _ _ _
  all_goals
    split
    · exact .ite (.error (by decide)) .ok
    · exact .error (by decide)

section
variable {s : State} {x : Env} {q : Want} {bad : Nat → Bool} {a : Access}

theorem laneCheck_of_land_error {e : Bad} (h : land s (x.who s) { q with size := a.2.2 } a.2.1 = .error e) : laneCheck s x q bad a = .error e := by
  rw [laneCheck, h]

theorem laneCheck_late_of_aligned (h : a.2.1 % q.align = 0) : LateBad (laneCheck s x q bad a) := by
  have hland : LateBad (land s (x.who s) { q with size := a.2.2 } a.2.1) := land_late_of_aligned h
  unfold laneCheck
  split
  · rename_i e he
    rintro _ ⟨⟩
    exact hland e he
  · exact .ite (.error (by decide)) (.ite (.error (by decide)) .ok)

end

/-! ## The checks of all lanes -/

theorem maskOf_ne_zero {t : Nat → Bool} (h : maskOf t ≠ 0) : ∃ l, t l = true := by
  by_contra hn
  refine h ?_
  rw [show t = fun _ => false from funext fun l => by simpa using fun hl => hn ⟨l, hl⟩, maskOf_false]

section
variable {s : State} {x : Env} {q : Want} {bad : Nat → Bool} {ls : List Nat} {ea : Nat → Nat} {n : Nat}

/-- Where the lanes of T meet a cause at the place o, and no other lane meets one there or before, the access traps with that cause for
the lanes of T. -/
theorem checkEach_of_least {T : Nat → Bool} {o cause : Nat}
    (hbad : ∀ l ∈ ls, T l = true → ∃ b, laneCheck s x q bad (l, ea l, n) = .error b ∧ b.order = o ∧ b.cause = cause)
    (hlate : ∀ l ∈ ls, T l = false → ∀ b, laneCheck s x q bad (l, ea l, n) = .error b → o < b.order) (hex : ∃ l ∈ ls, T l = true) :
    ∃ b, checkEach s x q bad (ls.map (fun l => (l, ea l, n))) = .error (b, maskOf (fun l => ls.contains l && T l)) ∧ b.cause = cause := by
  have at_o (l : Nat) (hl : l ∈ ls) : (∃ b, laneCheck s x q bad (l, ea l, n) = .error b ∧ b.order = o) ↔ T l = true := by
    refine ⟨fun ⟨b, hb, ho⟩ => ?_, fun ht => ?_⟩
    · by_contra ht
      have := hlate l hl (by simpa using ht) b hb
      omega
    · obtain ⟨b, hb, ho, -⟩ := hbad l hl ht
      exact ⟨b, hb, ho⟩
  have hle (l : Nat) (hl : l ∈ ls) (b : Bad) (hb : laneCheck s x q bad (l, ea l, n) = .error b) : o ≤ b.order ∧ (b.order = o → b.cause = cause) := by
    cases ht : T l
    · have := hlate l hl ht b hb
      omega
    · obtain ⟨b', hb', ho, hc⟩ := hbad l hl ht
      obtain rfl : b' = b := Except.error.inj (hb'.symm.trans hb)
      exact ⟨ho.ge, fun _ => hc⟩
  have hfirst := firstBad_of_least (rs := (ls.map (fun l => (l, ea l, n))).map (fun a => (a.1, laneCheck s x q bad a))) (o := o) (cause := cause)
    (by simpa only [List.mem_map, exists_exists_and_eq_and, forall_exists_index, and_imp, forall_apply_eq_imp_iff₂] using hle)
    (by
      simp only [List.mem_map, exists_exists_and_eq_and]
      exact hex.imp fun l ⟨hl, ht⟩ => ⟨hl, (at_o l hl).2 ht⟩)
  obtain ⟨b, m, hfirst, hcause, hmask⟩ := hfirst
  refine ⟨b, (checkEach_of_firstBad hfirst).trans ?_, hcause⟩
  suffices hm : m = maskOf (fun l => ls.contains l && T l) by rw [hm]
  refine BitVec.eq_of_getLsbD_eq fun j hj => ?_
  rw [getLsbD_maskOf _ _ hj, Bool.eq_iff_iff, hmask j hj]
  simp only [List.mem_map, exists_exists_and_eq_and, Bool.and_eq_true, List.contains_iff_mem]
  exact ⟨fun ⟨l, hl, hlj, hb⟩ => hlj ▸ ⟨hl, (at_o l hl).1 hb⟩, fun ⟨hl, ht⟩ => ⟨j, hl, rfl, (at_o j hl).2 ht⟩⟩

/-- Misaligned lanes trap MISALIGN, whatever else a lane meets. -/
theorem checkEach_of_misaligned (hq : q.align ≠ 0) (h : maskOf (fun l => ls.contains l && decide (ea l % q.align ≠ 0)) ≠ 0) :
    ∃ b, checkEach s x q bad (ls.map (fun l => (l, ea l, n))) =
      .error (b, maskOf (fun l => ls.contains l && decide (ea l % q.align ≠ 0))) ∧ b.cause = cMISALIGN := by
  refine checkEach_of_least (o := 2) (fun l _ ht => ⟨_, laneCheck_of_land_error (land_of_misaligned hq (of_decide_eq_true ht)), rfl, rfl⟩)
    (fun l _ ht => laneCheck_late_of_aligned (by simpa using ht)) ?_
  obtain ⟨l, hl⟩ := maskOf_ne_zero h
  rw [Bool.and_eq_true, List.contains_iff_mem] at hl
  exact ⟨l, hl⟩

/-- Aligned lanes all trap SPACE in a space that is not accepted. -/
theorem checkEach_of_space (hls : ∀ l ∈ ls, l < 32) (hne : ls ≠ [])
    (h : maskOf (fun l => ls.contains l && decide (ea l % q.align ≠ 0)) = 0) (hs : q.space ∉ q.spaces) :
    ∃ b, checkEach s x q bad (ls.map (fun l => (l, ea l, n))) = .error (b, maskOf (fun l => ls.contains l)) ∧ b.cause = cSPACE := by
  have aligned (l : Nat) (hl : l ∈ ls) : ea l % q.align = 0 := by
    have hz := getLsbD_maskOf (fun l => ls.contains l && decide (ea l % q.align ≠ 0)) l (hls l hl)
    rw [h] at hz
    simpa [hl] using hz
  have hall := checkEach_of_least (s := s) (x := x) (q := q) (bad := bad) (ea := ea) (n := n) (T := fun _ => true) (o := 3) (cause := cSPACE)
    (fun l hl _ => ⟨_, laneCheck_of_land_error (land_of_space (aligned l hl) hs), rfl, rfl⟩) (fun _ _ ht => nomatch ht)
    ((List.exists_mem_of_ne_nil ls hne).imp fun _ hl => ⟨hl, rfl⟩)
  simpa only [Bool.and_true] using hall

end

theorem workers_lt {x : Env} {s : State} {l : Nat} (h : l ∈ x.workers s) : l < 32 := (mem_lanesOf.1 (List.mem_of_mem_filter h)).1

/-- The type of a legal instruction is one of those of its shape (R88). -/
theorem tyOf_mem_of_checkType {x : Ctx} {opc : Nat} {sh : Shape} {t : BitVec 5} (hne : sh.types.isEmpty = false)
    (h : checkType x opc sh t = none) : tyOf t ∈ sh.types := by
  rw [checkType, hne] at h
  cases hty : Ty.ofCode t with
  | none => simp [hty] at h
  | some ty =>
    simp only [hty, Bool.false_eq_true, if_false, ite_eq_left_iff, reduceCtorEq, imp_false, not_not, Bool.and_eq_true,
      List.contains_iff_mem] at h
    rw [tyOf, hty]
    exact h.1

/-- A legal load or store names a type that takes bytes of memory (R222). -/
theorem size_ne_zero_of_legal {x : Ctx} {opc : Nat} {f : Fields} {sh : Shape} (hshape : shape opc f = some sh) (hty : sh.types = tyMem)
    (h : checkFields x opc f = none) : (tyOf f.t).size ≠ 0 := by
  obtain ⟨_, hs, -, -, htype, -⟩ := checkFields_cases h
  rw [hshape] at hs
  cases hs
  have hmem := tyOf_mem_of_checkType (by rw [hty]; rfl) htype
  rw [hty] at hmem
  exact (by decide : ∀ t ∈ tyMem, t.size ≠ 0) _ hmem

theorem ld_size_ne_zero (f : Fields) (x : Ctx) (h : checkInstr x (.ld f) = none) : (tyOf f.t).size ≠ 0 :=
  have hl : checkFields x 0x60 f = none := legal_of_code rfl (fun _ => rfl) x h
  size_ne_zero_of_legal rfl rfl hl

theorem st_size_ne_zero (f : Fields) (x : Ctx) (h : checkInstr x (.st f) = none) : (tyOf f.t).size ≠ 0 :=
  have hl : checkFields x 0x61 f = none := legal_of_code rfl (fun _ => rfl) x h
  size_ne_zero_of_legal rfl rfl hl

/-- traps_of_trap where the body traps only as the instruction is legal. -/
theorem traps_of_legal_trap {i : Instr} {opc len : Nat} {f : Fields} {body : Env → State → Verdict} {ok : State → Env → Prop} {cause : Nat}
    {lanes : State → Env → Mask} {P : Prop} (hissued : ∀ s, issued s i = issuedAs s opc f len) (hexec : ∀ s, exec i s = issue opc f len body s)
    (hlegal : ∀ x, checkInstr x i = none → P)
    (hbody : P → ∀ s x, x.f = f → ok s x → ∃ code addr acc, body x s = .trap cause (lanes s x) code addr acc) : Traps i ok cause lanes := by
  intro s q hq hc ho
  refine traps_of_trap (ok := fun s x => x.f = f ∧ ok s x) hissued hexec (fun s x h => hbody (hlegal _ hc) s x h.1 h.2) s q hq hc ⟨?_, ho⟩
  exact issuedAs_fields ((hissued s).symm.trans hq)

/-! ## Instructions that check their lanes first -/

section
variable {s : State} {x : Env} {b : Bad × Mask}

theorem bodyLd_of_error (h : checkEach s x (x.want allSpaces x.ty.size .load x.ty.share) noBad (x.lanes.map (fun l => (l, eaOf s x l, x.ty.size))) =
    .error b) : bodyLd x s = trapBad b := by
  unfold bodyLd
  dsimp only
  rw [h]

theorem bodySt_of_error (h : checkEach s x (x.want allSpaces x.ty.size .store x.ty.share) (taggedData x)
    ((x.workers s).map (fun l => (l, eaOf s x l, x.ty.size))) = .error b) : bodySt x s = trapBad b := by
  unfold bodySt
  dsimp only
  rw [h]

theorem bodyFxadd_of_error (h : checkEach s x (x.want cellSpaces 64 .atomic) noBad ((x.workers s).map (fun l => (l, eaOf s x l, 64))) = .error b) :
    bodyFxadd x s = trapBad b := by
  unfold bodyFxadd
  rw [h]

/-- The trap of an access that the checks refuse is one of the cause they meet, for the lanes that meet it. -/
theorem trap_of_bad {v : Verdict} {r : Except (Bad × Mask) (List (Access × Landing))} {cause : Nat} {m : Mask}
    (hr : ∃ b, r = .error (b, m) ∧ b.cause = cause) (hv : ∀ b, r = .error b → v = trapBad b) :
    ∃ code addr acc, v = .trap cause m code addr acc := by
  obtain ⟨b, hb, rfl⟩ := hr
  exact ⟨_, _, _, hv _ hb⟩

end

/-! ## A U address (R195) -/

theorem land_of_scratchpad {s : State} {w : Who} {q : Want} {a : Nat} {gr : Group} (hu : q.space = .U) (hs : .U ∈ q.spaces) (ha : a % q.align = 0)
    (hsh : q.share = false) (hg : s.group? w.grp = some gr) :
    land s w q a =
      if gr.units * 256 < a + q.size then .error ⟨4, cPROT, a, q.acc⟩
      else .ok { loc := { home := .u, addr := uBase (coreOf w.grp) + gr.ubase + a }
                 range := { home := .u, part := w.part, lo := uBase (coreOf w.grp) + gr.ubase + a
                            hi := uBase (coreOf w.grp) + gr.ubase + a + q.size } } := by
  rw [land, if_neg (by simp [ha]), if_neg (by simpa [hu] using hs)]
  simp only [hu, uLoc, hg]
  by_cases hlt : gr.units * 256 < a + q.size
  · rw [if_pos hlt, if_neg (by omega)]
  · rw [if_neg hlt, if_pos (by omega)]
    simp [hsh]

end Sys2Proof.Machine
end

section
/-!
PROOFS. The statement on addresses and the first checks (O25).
-/
open Sys2Proof Sys2Proof.Machine

/-- Settles O25: the check of a lane meets MISALIGN before all else and SPACE next, and the first cause of the lanes is the least of theirs. -/
theorem addressesAreFormedAndChecked : Obligations.AddressesAreFormedAndChecked := by
  unfold Obligations.AddressesAreFormedAndChecked
  refine ⟨fun s x l => ?ea, fun f => ?ld, fun f => ?st, fun f => ?fxadd, fun f => ?space,
    fun s w q a gr hu hs _ ha hsh hg => land_of_scratchpad hu hs ha hsh hg⟩
  case ea =>
    refine (addrPlus_eq _ _ _).trans ?_
    rw [offsetOf]
    cases hext : x.f.ext <;> simp only [hext, sext_toNat (by decide : 0 < 9), sext_toNat (by decide : 0 < 32)]
  case ld =>
    refine traps_of_legal_trap (fun _ => rfl) (fun _ => rfl) (ld_size_ne_zero f) fun hn s x hx h =>
      trap_of_bad (checkEach_of_misaligned (q := x.want allSpaces x.ty.size .load x.ty.share) (ea := eaOf s x) ?_ h)
        fun _ => bodyLd_of_error
    exact (congrArg (fun g => (tyOf g.t).size) hx).trans_ne hn
  case st =>
    refine traps_of_legal_trap (quiet_st f).issued (fun _ => rfl) (st_size_ne_zero f) fun hn s x hx h =>
      trap_of_bad (checkEach_of_misaligned (q := x.want allSpaces x.ty.size .store x.ty.share) (ea := eaOf s x) ?_ h)
        fun _ => bodySt_of_error
    exact (congrArg (fun g => (tyOf g.t).size) hx).trans_ne hn
  case fxadd =>
    exact traps_of_trap (quiet_fxadd f).issued (fun _ => rfl) fun s x h =>
      trap_of_bad (checkEach_of_misaligned (q := x.want cellSpaces 64 .atomic) (ea := eaOf s x) (Nat.succ_ne_zero 63) h)
        fun _ => bodyFxadd_of_error
  case space =>
    exact traps_of_trap (quiet_fxadd f).issued (fun _ => rfl) fun s x ⟨hne, hal, hs⟩ =>
      trap_of_bad (checkEach_of_space (q := x.want cellSpaces 64 .atomic) (ea := eaOf s x) (fun _ => workers_lt) hne hal hs)
        fun _ => bodyFxadd_of_error
end
